-- ==== Sys2Proof/Word.lean ====
section
/-! DEFINITION. The word types of the KL-8016 and their plainest names (R4, R5, R16, R17, R67). -/

namespace Sys2Proof

/-- One byte of memory (R5). -/
abbrev Byte := BitVec 8

/-- A 32-bit vector register element or instruction word (R16, R67). -/
abbrev Word := BitVec 32

/-- A 64-bit scalar register, address or special register (R17, R18). -/
abbrev DWord := BitVec 64

/-- A lane mask or predicate: bit `l` stands for lane `l` (R15, R17). -/
abbrev Mask := BitVec 64

end Sys2Proof
end

