-- ==== Sys2Proof/Config.lean ====
section
/-! DEFINITION. What an implementation fixes and the values that the spec leaves open. No constant here has a body that a proof could use: each is opaque. -/

namespace Sys2Proof.Config

/-- The clocks that step number `n` takes beyond one (R6, R23, R180 to R183: durations are not fixed). -/
opaque stepClocks : Nat → Nat

/-- The firmware image that the flash holds at manufacture (R405). -/
opaque flashImage : List Byte

/-- The hash of the public key that is fused at manufacture (R405). -/
opaque fusedKeyHash : Nat

/-- Whether an image verifies against the fused key hash: ECDSA P-256 over SHA-256 (R405). -/
opaque verifies : List Byte → Nat → Bool

/-- SHA-256 of a byte string (R405, R406). -/
opaque sha256 : List Byte → List Byte

/-- The signature of a quote under the device identity key (R406). -/
opaque quote : List Byte → List Byte

/-- The host address that the flash configuration names (R411). -/
opaque hostAddress : Nat

/-- The fuse state that a quote covers (R406). -/
opaque fuseState : List Byte

/-- The decode tables that the firmware of an image writes at boot (R82, R405). -/
opaque decodeTables : List Byte → List Byte

/-- The physical address of the context table that the firmware reports (R354). -/
opaque contextTable : Nat

/-- The physical address of the queue table that the firmware reports (R356). -/
opaque queueTable : Nat

/-- A value that the spec does not fix, for occasion number `n`: a byte partly written by a cancelled operation, a result whose
value the spec does not state. -/
opaque freeNat : Nat → Nat

/-- The set of a line in its L2 slice (R271), to be taken modulo the slice's 512 sets: the placement of lines in sets, which the spec does not give. -/
opaque l2Set : Nat → Nat

/-- The bank of a set of an L2 slice (R271), to be taken modulo 4, which the spec does not give. -/
opaque l2Bank : Nat → Nat

/-- The set of a line in its MSC slice (R349), to be taken modulo the slice's 524,288 sets, which the spec does not give. -/
opaque mscSet : Nat → Nat

/-- How the ways of an L1 of some granules go beyond 4 (R193), which the spec does not give. -/
opaque l1Ways : Nat → Nat

/-- The set of a line in an L1 of some granules (R193), to be taken modulo its sets, which the spec does not give. -/
opaque l1Set : Nat → Nat → Nat

/-- The choice made at step number `n` among what may happen next (R6, R183, R282: no order is fixed). -/
opaque schedule : Nat → Nat

/-- The report kind of an unsolicited message (Table 20.1): translation fault, uncorrectable error and fabric event, which the spec does not number. -/
opaque reportKind : Nat → Nat

/-- The payload of a fabric event of a kind about a peer or port (R411, R421), which the spec does not give. -/
opaque fabricPayload : Nat → Nat → List Byte

/-- The bytes of a contribution that one frame carries, to be taken modulo the 4,096 bytes of a payload (R413), which the spec does not give. -/
opaque framePiece : Nat

/-- Which of the live paths to a peer serves a line: a hash over the live paths (R414), whose function the spec does not give. -/
opaque pathHash : Nat → Nat → Nat

end Sys2Proof.Config
end

