-- ==== Sys2Proof/Syntax.lean ====
section
/-! DEFINITION. The syntax of Nasyn: one constructor per row of the opcode table, rows 0 to 144 the encoded instructions and rows 145 to 260 the events of 95_what_each_step_holds.md. -/

namespace Sys2Proof

/-- The element types of Table 2.1 in code order (R45). -/
inductive ElemType where
  | i32 | n32 | f32 | i16x2 | n16x2 | f16x2 | bf16x2 | i8x4 | n8x4 | e4m3x4 | e5m2x4 | t8x4
  | t6x5 | e2m3x5 | e3m2x5 | e2m1x8 | i4x8 | i64 | n64
  deriving DecidableEq, Repr

/-- The second source of a format A word: a vector register, or with U = 1 a broadcast scalar (R71). -/
inductive SrcB where
  | v (n : Nat)
  | s (n : Nat)
  deriving DecidableEq, Repr

/-- The conditions of `VCMP` and `VCMPI` (R73). -/
inductive Cmp where
  | eq | ne | lt | le | gt | ge | ord | unord
  deriving DecidableEq, Repr

/-- The conditions of `BR` (Table 3.2, R100). -/
inductive BrCond where
  | eq | ne | lt | ge | ltn | gen | and
  deriving DecidableEq, Repr

/-- The kinds of `VSHI` (R73). -/
inductive ShiftKind where
  | shl | shr | sra
  deriving DecidableEq, Repr

/-- The kinds of `VSHFL` (R73). -/
inductive ShuffleKind where
  | idx | up | down | xor
  deriving DecidableEq, Repr

/-- The cache classes of a format M hint (R75). -/
inductive CacheClass where
  | normal | evictFirst | keep | keepHigh
  deriving DecidableEq, Repr

/-- The operations of `SATOM`, `VATOM` and `VATOMS` (R73, R75). -/
inductive AtomicOp where
  | add | min | max | and | or | xor | exch | cas
  deriving DecidableEq, Repr

/-- The scopes of Table 3.7. -/
inductive Scope where
  | thread | team | cluster | device | fabric
  deriving DecidableEq, Repr

/-- The orders of `SATOM`, `FENCE` and `RFENCE` (Table 3.7): `relaxed` stands in `SATOM` only, `sc` in `FENCE` only. -/
inductive MemOrder where
  | relaxed | acquire | release | acqRel | sc
  deriving DecidableEq, Repr

/-- The levels of `PREF` (Table 3.7). -/
inductive PrefLevel where
  | l1 | l2 | msc
  deriving DecidableEq, Repr

/-- The functions of `SALU` (Table 4.2). -/
inductive ScalarOp where
  | add | sub | mul | mulh | mulhn | and | or | xor | shl | shr | sra | min | max | minn | maxn
  | slt | sltn | clz | popc | bfe | bfi | mov
  deriving DecidableEq, Repr

/-- The functions of `SALUI` (R93). -/
inductive ScalarImmOp where
  | addi | andi | ori | xori | slli | srli | srai | slti
  deriving DecidableEq, Repr

/-- The sizes of `SLD` (R95). -/
inductive LoadSize where
  | i8 | n8 | i16 | n16 | i32 | n32 | w64
  deriving DecidableEq, Repr

/-- The sizes of `SST` (R95). -/
inductive StoreSize where
  | b8 | b16 | b32 | b64
  deriving DecidableEq, Repr

/-- The key types of `SWITCH` (Table 3.4). -/
inductive KeyType where
  | i32 | n32
  deriving DecidableEq, Repr

/-- The kinds of `REGION` (Table 3.4). -/
inductive RegionKind where
  | plain | transaction | ordered
  deriving DecidableEq, Repr

/-- The kinds of access a translation serves: which of R, W and X it needs (R286). -/
inductive AccessKind where
  | read | write | readWrite | fetch
  deriving DecidableEq, Repr

/-- What the front end's monitors notice (R359): the TAIL word of a queue, or a watched event word. -/
inductive Monitored where
  | tail (q : Nat) (value : Nat)
  | event (ctx va : Nat)
  deriving DecidableEq, Repr

/-- The units an uncorrectable error can lie in (R400): a data word of physical memory, of a team's shared memory or of its
accumulators is contained. The tag, version or directory entry of a line (Table 13.7) is not, nor is any other unit, named by die, kind and
index (Table 19.3), nor a link with its two dies. `l2Data` is an error in the data of an L2 line, which is contained (Table 13.7), `corrected` is an error of one bit that the check of its 64
bits has corrected (R291, R398), and `fec` one that the code of a port's link has corrected (R407, Table 20.6). -/
inductive ErrorSite where
  | memory (pa : Nat)
  | shared (team offset : Nat)
  | accumulator (team index : Nat)
  | line (pa : Nat)
  | unit (die kind index : Nat)
  | link (die other kind index : Nat)
  | l2Data (pa : Nat)
  | corrected (die ctx core address : Nat)
  | fec (port : Nat)
  deriving DecidableEq, Repr

/-- The header of a KLT frame (Table 20.3), `reserved` being its bytes 0x05 to 0x07, and whether its CRC is good (R413). -/
structure KltHeader where
  ver : Nat
  typ : Nat
  src : Nat
  dst : Nat
  path : Nat
  reserved : Nat
  seq : Nat
  ackseq : Nat
  reqid : Nat
  crcOk : Bool
  deriving DecidableEq, Repr

/-- A remote access carried by a request frame (R415): it names a physical address of the receiver. The bytes of a store may be
poisoned (R399). `claim` is the atomic of a `SPAWNO` of some lanes on a Slalom object (R312, R326), and `tally` that of a `TXENDO` after some commits (R313, R326). -/
inductive RemoteOp where
  | load (pa size : Nat)
  | store (pa : Nat) (bytes : List Byte) (bad : Bool)
  | atomic (op : AtomicOp) (t : ElemType) (pa data swap : Nat)
  | claim (pa count : Nat)
  | tally (pa count : Nat)
  deriving DecidableEq, Repr

/-- What a collective frame of a member says of its contribution (R417 to R420): the fields that matched descriptors agree
in, the occurrence number of (TAG, MEMBERS), and the bytes of its SRC from `offset` on, as many as the frame's payload takes (R413), with the elements that are poisoned (or the news
that the member failed). -/
structure CollFrame where
  ctx : Nat
  member : Nat
  tag : Nat
  members : BitVec 64
  occurrence : Nat
  op : Nat
  red : Nat
  typ : Nat
  root : Nat
  count : Nat
  failed : Bool
  offset : Nat
  data : List Byte
  bad : List Nat
  deriving DecidableEq, Repr

/-- A reading of the power manager (R404): the package's power in watts and the dies above their thermal limit. -/
structure PowerReading where
  watts : Nat
  hotDies : List Nat
  deriving DecidableEq, Repr

/-- The RDMA request kinds that the package does not support (R408). -/
inductive RdmaKind where
  | unreliableDatagram | immediateData | memoryWindow | sendElsewhere | other
  deriving DecidableEq, Repr

/-- The instructions and events of the opcode table. Register numbers are natural numbers, so that `REP` stepping can pass
255 (R16, R112); `WellFormed` bounds them as the encoding does. The switch marker S is not part of an instruction: the decoder
returns it beside (R67). Events name the warp (`w`), team, core, line or queue on which they act. -/
inductive Instr where
  -- majors 0x00 to 0x1E
  | vadd (d a : Nat) (b : SrcB)
  | vsub (d a : Nat) (b : SrcB)
  | vmul (d a : Nat) (b : SrcB)
  | vmad (d a : Nat) (b : SrcB)
  | vmin (d a : Nat) (b : SrcB)
  | vmax (d a : Nat) (b : SrcB)
  | vand (d a : Nat) (b : SrcB)
  | vor (d a : Nat) (b : SrcB)
  | vxor (d a : Nat) (b : SrcB)
  | vshl (d a : Nat) (b : SrcB)
  | vshr (d a : Nat) (b : SrcB)
  | vsra (d a : Nat) (b : SrcB)
  | vmulh (d a : Nat) (b : SrcB)
  | vdot (d a : Nat) (b : SrcB)
  | vcmp (c : Cmp) (p a : Nat) (b : SrcB)
  | vcvt (d a : Nat) (t : ElemType)
  | vaddi (d a : Nat) (i : Int)
  | vmuli (d a : Nat) (i : Int)
  | vandi (d a : Nat) (i : Int)
  | vori (d a : Nat) (i : Int)
  | vshi (d a : Nat) (k : ShiftKind) (n : Nat)
  | vcmpi (c : Cmp) (p a : Nat) (i : Int)
  | vmovi (d i : Nat) (h : Bool)
  | vrdx (d a : Nat) (i : Int)
  | vwrx (d a : Nat) (i : Int)
  | vspl (d i : Nat)
  | vfil (d i : Nat)
  | vsel (d a : Nat) (b : SrcB)
  | vbfe (d a : Nat) (b : SrcB)
  | vbfi (d a : Nat) (b : SrcB)
  | vshfl (d a : Nat) (k : ShuffleKind) (rel : Bool) (n : Nat)
  -- majors 0x20 to 0x26
  | vld (d s o : Nat) (c : CacheClass) (na reuse : Bool)
  | vst (d s o : Nat) (c : CacheClass) (na reuse : Bool)
  | vlds (d s o : Nat) (reuse : Bool)
  | vsts (d s o : Nat) (reuse : Bool)
  | gst (d s o : Nat) (c : CacheClass) (reuse : Bool)
  | vatom (d s o : Nat) (op : AtomicOp) (reuse : Bool)
  | vatoms (d s o : Nat) (op : AtomicOp) (reuse : Bool)
  -- majors 0x28 to 0x33
  | salu (f : ScalarOp) (d a b : Nat)
  | salui (f : ScalarImmOp) (d a : Nat) (i : Int)
  | slui (d i : Nat)
  | sauipc (d i : Nat)
  | sld (f : LoadSize) (d a : Nat) (i : Int)
  | sst (f : StoreSize) (d a : Nat) (i : Int)
  | satom (op : AtomicOp) (scope : Scope) (order : MemOrder) (d a b : Nat)
  | ssrRead (d r : Nat)
  | ssrWrite (r a : Nat)
  | br (c : BrCond) (a b : Nat) (o : Int)
  | jmp (o : Int)
  | call (o : Int)
  | calli (y : Nat)
  | callv (x : Nat)
  | jmpi (y : Nat)
  | ret
  | spadj (i : Int)
  -- majors 0x34 to 0x39
  | split (p : Nat) (sense : Bool) (els join : Int)
  | switch (a : Nat) (k : KeyType) (cases : List (Nat × Int)) (dflt join : Int)
  | meldOn (p : Nat)
  | meldOff
  | meldLdt (y : Nat)
  | region (kind : RegionKind) (retries : Nat) (noback value : Bool) (scalars : BitVec 32) (vbase vcount : Nat)
      (preds : BitVec 12) (acclive : Bool)
  | mma (d a b f : Nat)
  | mmag (d a b f : Nat)
  -- ASYNC
  | tcopy (bar : Option Nat) (y : Nat)
  | tcopyY (bar : Option Nat) (y c : Nat)
  | afence (d : Nat)
  | await (d n : Nat)
  | binit (c y : Nat)
  | barv (y c : Nat)
  | bwait (d y : Nat) (q : Bool)
  | accz (y : Nat)
  | accld (bar : Option Nat) (shm : Bool) (a y : Nat)
  | accst (bar : Option Nat) (shm : Bool) (a y : Nat)
  | accstR (d y : Nat)
  | rstat (d y r : Nat)
  | actld (bar : Option Nat) (shm : Bool) (y : Nat)
  -- TASK
  | txend
  | txendo
  | txabort (c : Nat)
  | txstat (d p : Nat)
  | spawn (x y : Nat)
  | spawno (x y s : Nat)
  | launch (x : Nat)
  | qappend (x y : Nat)
  | qappendTry (x y p : Nat)
  | qpop (x y v c : Nat)
  | qatt (y : Nat)
  | qattOwn (y q : Nat)
  | qdet (y : Nat)
  | qdetOwn (q : Nat)
  | gset (y : Nat)
  | coll (s y : Nat)
  -- MODE and REP
  | mode (i : BitVec 16)
  | modeScalar (a : Nat)
  | rep (n : Nat) (sd sa sb : Bool) (stride : Nat) (body : Instr)
  -- VEXT
  | vnot (d a : Nat) (reuse : Bool)
  | vabs (d a : Nat) (reuse : Bool)
  | vneg (d a : Nat) (reuse : Bool)
  | vclz (d a : Nat) (reuse : Bool)
  | vpopc (d a : Nat) (reuse : Bool)
  | vrcp (d a : Nat) (reuse : Bool)
  | vrsq (d a : Nat) (reuse : Bool)
  | vexp2 (d a : Nat) (reuse : Bool)
  | vlog2 (d a : Nat) (reuse : Bool)
  | vsin (d a : Nat) (reuse : Bool)
  | vcos (d a : Nat) (reuse : Bool)
  | vact (d a : Nat) (reuse : Bool)
  | vmov (d a : Nat)
  | vmovSpecial (d n : Nat)
  | vredadd (d a : Nat) (reuse : Bool)
  | vredmin (d a : Nat) (reuse : Bool)
  | vredmax (d a : Nat) (reuse : Bool)
  | vredand (d a : Nat) (reuse : Bool)
  | vredor (d a : Nat) (reuse : Bool)
  | vredxor (d a : Nat) (reuse : Bool)
  | vscan (d a : Nat) (reuse : Bool)
  | vvoteany (d a : Nat)
  | vvoteall (d a : Nat)
  | vballot (d p : Nat)
  | vmatch (d a : Nat) (reuse : Bool)
  | vpack (d a : Nat) (reuse : Bool)
  | vunpk (d a : Nat) (reuse : Bool)
  | vrand (d : Nat)
  | pand (d a b : Nat)
  | por (d a b : Nat)
  | pxor (d a b : Nat)
  | pnot (d a : Nat)
  | pmov (d a : Nat)
  | ppack (d a n : Nat)
  | punpk (d n a : Nat)
  | ptos (d a : Nat)
  | pset (d a : Nat)
  | vlane (d a : Nat)
  -- SYS
  | nop
  | exit
  | yield
  | trap (i : Nat)
  | bkpt (i : Nat)
  | eret
  | bar
  | cbar
  | fence (s : Scope) (o : MemOrder)
  | rfence (a : Nat) (s : Scope) (b : Nat) (o : MemOrder)
  | sleep (i : Nat)
  | pref (a : Nat) (l : PrefLevel) (i : Int)
  -- events: warps and engines
  | variableLatencyResult (w k : Nat) (lanes : Mask)
  | instructionReplay (w : Nat)
  | accessFlagService (ctx va : Nat)
  | pageWalk (core ctx va : Nat) (k : AccessKind)
  | warpPromotion (w : Nat)
  | sleepExpiry (w : Nat)
  | spawnStallRetry (w : Nat)
  | spawnTimerExpiry (core bin : Nat)
  | spawnedWarpStart (core : Nat)
  | barRelease (team : Nat)
  | cbarRelease (launch tcluster : Nat)
  | afenceStallRetry (w : Nat)
  | tcopyStallRetry (w : Nat)
  | matrixQueueStallRetry (w : Nat)
  | asyncOperationComplete (op : Nat)
  | awaitReturn (w : Nat)
  | bwaitReturn (w : Nat)
  | tcopyYResume (w : Nat)
  | actldComplete (op : Nat)
  | qappendGrant (core q : Nat)
  | qpopWake (w : Nat)
  | qdetOwnFree (w : Nat)
  | launchStallRetry (w : Nat)
  | collStallRetry (w : Nat)
  | collComplete (c : Nat)
  | warpRetire (w : Nat)
  | coreSplitChange (core : Nat)
  | teamDispatch (q : Nat)
  | preemptionOverrun (team : Nat)
  | teamSave (team : Nat)
  -- events: transactions
  | txTimeout (w lane : Nat)
  | backoffExpiry (w : Nat)
  | irrevocabilityTokenGrant
  | txendoTurn (w : Nat)
  | commitPhase1 (w slice : Nat)
  | commitPhase2 (w slice : Nat)
  -- events: coherence and network
  | gets (core line : Nat)
  | getm (core line : Nat)
  | upg (core line : Nat)
  | maskExtension (core line : Nat) (mask : BitVec 128)
  | putm (core line : Nat)
  | putmm (core line : Nat)
  | homeWrite (line : Nat) (mask : BitVec 128)
  | mscFill (line : Nat) (victim : Option Nat)
  | data (core line : Nat)
  | datam (core line : Nat)
  | upgack (core line : Nat)
  | putack (core line : Nat)
  | inv (core line : Nat)
  | recallS (core line : Nat)
  | recallI (core line : Nat)
  | recallP (core line : Nat)
  | mergeRecall (core line : Nat)
  | protocolAck (core line : Nat)
  | push (core line : Nat) (room : Bool)
  | pushAck (core line : Nat)
  | flitCrcError (die : Nat) (failures : Nat)
  | ucieReplay (die other : Nat) (completed : Bool)
  | crossbarParityError (cluster failures : Nat)
  | uncorrectableError (site : ErrorSite)
  -- events: front end
  | kernel (q : Nat)
  | wait (q : Nat)
  | signal (q : Nat)
  | windowCreate (q : Nat)
  | windowDestroy (q : Nat)
  | invalidate (q : Nat)
  | copy (q : Nat)
  | streamHalt (q : Nat)
  | addressMonitorWrite (m : Monitored)
  | monitorPoll
  | streamAging (q : Nat)
  | childGridStart (q : Nat)
  | gridComplete (launch : Nat)
  | quantumEnd (w : Nat)
  | meeting (launch : Nat)
  | waveStart (launch : Nat)
  | powerMeasurement (r : PowerReading)
  | powerUp
  | warmReset
  | coldReset
  -- events: management commands of Table 20.2, with the TAG of Table 20.1 and the fields of their payloads
  | ctxwrite (tag ctx gen : Nat) (entry : List Byte)
  | qwrite (tag q : Nat) (entry : List Byte)
  | codereg (tag ctx base len : Nat) (units : List Byte)
  | codemod (tag ctx base : Nat) (pages : List (Nat × List Byte)) (units : Option (List Byte))
  | codedrop (tag ctx base : Nat)
  | suspend (tag ctx : Nat)
  | resume (tag ctx : Nat)
  | faultanswerRetry (tag report : Nat)
  | faultanswerAbort (tag report : Nat)
  | evread (tag die : Nat)
  | evrelease (tag : Nat)
  | logread (tag team : Nat)
  | reflash (tag : Nat) (image : List Byte)
  | attest (tag : Nat) (nonce : List Byte)
  | domain (tag id : Nat) (members : BitVec 64) (macs : List (Nat × Nat)) (priorities : Nat × Nat)
  | managementConnect (host : Nat)
  -- events: RDMA
  | rdmaWrite (qp key va : Nat) (bytes : List Byte)
  | rdmaRead (qp key va size : Nat)
  | rdmaFetchAndAdd (qp key va add : Nat)
  | rdmaCompareAndSwap (qp key va cmp swap : Nat)
  | queuePairBroken (qp : Nat)
  -- events: ports and KLT
  | linkUp (port : Nat)
  | linkDown (port : Nat)
  | kltRequest (h : KltHeader) (r : RemoteOp)
  | kltResponse (h : KltHeader) (data : List Byte) (bad : Bool)
  | kltAck (h : KltHeader)
  | kltNak (h : KltHeader)
  | kltCollective (h : KltHeader) (c : CollFrame)
  | kltProbe (h : KltHeader)
  | kltResendTimeout (peer path : Nat)
  | peerLost (peer : Nat) (reset : Bool)
  -- events: the remaining rows
  | reservedEncoding
  | copyComplete (q : Nat)
  | firmwareHalt (die : Nat)
  | managementUnknownCode (code tag : Nat)
  | rdmaInvalidRequest (qp : Nat) (k : RdmaKind)
  deriving DecidableEq, Repr

end Sys2Proof
end

