-- ==== Sys2Proof/WellFormed.lean ====
section
/-! DEFINITION. Which instruction terms an encoding exists for (R71, R73 to R78), and the ranges of an event's arguments. -/

namespace Sys2Proof

/-- A vector register field (8 bits, Table 3.2). -/
def okV (n : Nat) : Bool := decide (n < 256)

/-- A scalar register field (5 bits, Table 3.2). -/
def okS (n : Nat) : Bool := decide (n < 32)

/-- A predicate field: 0 to 11 (R71). -/
def okP (n : Nat) : Bool := decide (n < 12)

/-- A signed field of `k` bits. -/
def okI (k : Nat) (i : Int) : Bool := decide (-(2 ^ (k - 1) : Nat) ≤ i) && decide (i < (2 ^ (k - 1) : Nat))

/-- An unsigned field of `k` bits. -/
def okN (k n : Nat) : Bool := decide (n < 2 ^ k)

/-- A format A second source (R71). -/
def okB : SrcB → Bool
  | .v n => okV n
  | .s n => okS n

/-- An optional barrier object register (Tables 9.3 and 10.6). -/
def okBar : Option Nat → Bool
  | none => true
  | some n => okS n

/-- Whether the operation takes no second source, so that sb must be 0 (R92). -/
def ScalarOp.noB : ScalarOp → Bool
  | .clz | .popc | .mov => true
  | _ => false

/-- Whether the function is a shift, whose imm12[11:6] must be 0 (R93). -/
def ScalarImmOp.isShift : ScalarImmOp → Bool
  | .slli | .srli | .srai => true
  | _ => false

/-- The orders a `SATOM` can carry (Table 3.7). -/
def MemOrder.inSatom : MemOrder → Bool
  | .sc => false
  | _ => true

/-- The orders a `FENCE` can carry (Table 3.7). -/
def MemOrder.inFence : MemOrder → Bool
  | .relaxed => false
  | _ => true

/-- The orders an `RFENCE` can carry (R78). -/
def MemOrder.inRfence : MemOrder → Bool
  | .relaxed | .sc => false
  | _ => true

/-- Which step bits the repeated word allows: whether the word may be repeated at all, and whether the vd, va and vb
bits may be set (R76, R112). -/
def Instr.repSteps : Instr → Option (Bool × Bool × Bool)
  | .vadd _ _ b | .vsub _ _ b | .vmul _ _ b | .vmad _ _ b | .vmin _ _ b | .vmax _ _ b | .vand _ _ b | .vor _ _ b
  | .vxor _ _ b | .vshl _ _ b | .vshr _ _ b | .vsra _ _ b | .vmulh _ _ b | .vdot _ _ b | .vsel _ _ b | .vbfe _ _ b
  | .vbfi _ _ b => some (true, true, match b with | .v _ => true | .s _ => false)
  | .vcmp _ _ _ b => some (false, true, match b with | .v _ => true | .s _ => false)
  | .vcvt _ _ _ => some (true, true, false)
  | .vaddi _ _ _ | .vmuli _ _ _ | .vandi _ _ _ | .vori _ _ _ | .vshi _ _ _ _ | .vrdx _ _ _ | .vwrx _ _ _
  | .vshfl _ _ _ _ _ => some (true, true, false)
  | .vcmpi _ _ _ _ => some (false, true, false)
  | .vnot _ _ r | .vabs _ _ r | .vneg _ _ r | .vclz _ _ r | .vpopc _ _ r | .vrcp _ _ r | .vrsq _ _ r | .vexp2 _ _ r
  | .vlog2 _ _ r | .vsin _ _ r | .vcos _ _ r | .vact _ _ r | .vredadd _ _ r | .vredmin _ _ r | .vredmax _ _ r
  | .vredand _ _ r | .vredor _ _ r | .vredxor _ _ r | .vscan _ _ r | .vmatch _ _ r | .vpack _ _ r | .vunpk _ _ r =>
      if r then none else some (true, true, false)
  | .vmov _ _ => some (true, true, false)
  | .vvoteany _ _ | .vvoteall _ _ => some (false, false, false)
  | .vballot _ _ | .vrand _ | .vlane _ _ => some (true, false, false)
  | _ => none

/-- Whether the word is `VRAND`, whose stepping needs a stride of 4 or 8 (R76). -/
def Instr.isVrand : Instr → Bool
  | .vrand _ => true
  | _ => false

/-- The conditions that a `REP` word checks on the word it repeats, before any iteration issues (R76, R112). -/
def repOk (sd sa sb : Bool) (stride : Nat) (body : Instr) : Bool :=
  match body.repSteps with
  | none => false
  | some (d, a, b) => (!sd || d) && (!sa || a) && (!sb || b) && !(sd && body.isVrand && decide (stride < 2))

/-- An instruction that the encoding can express: each field in its range, each must-be-zero rule kept. For an event, its
arguments name something that the package has (Table 0.1). -/
def Instr.wellFormed : Instr → Bool
  | .vadd d a b | .vsub d a b | .vmul d a b | .vmad d a b | .vmin d a b | .vmax d a b | .vand d a b | .vor d a b
  | .vxor d a b | .vshl d a b | .vshr d a b | .vsra d a b | .vmulh d a b | .vdot d a b | .vsel d a b | .vbfe d a b
  | .vbfi d a b => okV d && okV a && okB b
  | .vcmp _ p a b => okP p && okV a && okB b
  | .vcvt d a _ => okV d && okV a
  | .vaddi d a i | .vmuli d a i | .vandi d a i | .vori d a i | .vrdx d a i | .vwrx d a i => okV d && okV a && okI 9 i
  | .vshi d a _ n => okV d && okV a && okN 5 n
  | .vcmpi _ p a i => okP p && okV a && okI 9 i
  | .vmovi d i _ => okV d && okN 16 i
  | .vspl d i | .vfil d i => okV d && okN 16 i
  | .vshfl d a k r n => okV d && okV a && okN 6 n && (k != .idx || (!r && n == 0))
  | .vld d s o _ _ _ | .vst d s o _ _ _ => okV d && okS s && okV o
  | .vlds d s o _ | .vsts d s o _ => okV d && okS s && okV o
  | .gst d s o _ _ => okV d && okS s && okV o
  | .vatom d s o _ _ | .vatoms d s o _ _ => okV d && okS s && okV o
  | .salu f d a b => okS d && okS a && okS b && (!f.noB || b == 0)
  | .salui f d a i => okS d && okS a && okI 12 i && (!f.isShift || (decide (0 ≤ i) && decide (i < 64)))
  | .slui d i | .sauipc d i => okS d && okN 20 i
  | .sld _ d a i | .sst _ d a i => okS d && okS a && okI 12 i
  | .satom op _ o d a b => okS d && okS a && okS b && o.inSatom && (op != .cas || b != 31)
  | .ssrRead d r => okS d && okN 12 r
  | .ssrWrite r a => okN 12 r && okS a
  | .br _ a b o => okS a && okS b && okI 12 o
  | .jmp o | .call o => okI 25 o
  | .calli y | .jmpi y => okS y
  | .callv x => okV x && x % 2 == 0
  | .ret => true
  | .spadj i => okI 8 i
  | .split p _ e j => okP p && okI 16 e && okI 16 j
  | .switch a _ cs d j =>
      okV a && !cs.isEmpty && decide (cs.length ≤ 8) && cs.all (fun c => okN 16 c.1 && okI 16 c.2) && okI 16 d && okI 16 j
  | .meldOn p => okP p
  | .meldOff => true
  | .meldLdt y => okS y
  | .region k r nb v _ vb vc _ _ => okN 4 r && okV vb && okV vc && (k != .plain || (r == 0 && !nb && !v))
  | .mma d a b f | .mmag d a b f => okS d && okS a && okS b && okS f
  | .tcopy b y => okBar b && okS y
  | .tcopyY b y c => okBar b && okS y && okN 8 c && c != 0
  | .afence d => okS d
  | .await d n => okS d && okS n
  | .binit c y => okS c && okS y
  | .barv y c => okS y && okN 8 c && c != 0
  | .bwait d y _ => okS d && okS y
  | .accz y => okS y
  | .accld b _ a y | .accst b _ a y => okBar b && okS a && okS y
  | .accstR d y => okV d && okS y
  | .rstat d y r => okV d && okS y && okN 8 r
  | .actld b _ y => okBar b && okS y
  | .txend | .txendo => true
  | .txabort c => okN 8 c
  | .txstat d p => okV d && okP p
  | .spawn x y => okV x && okS y
  | .spawno x y s => okV x && okS y && okS s
  | .launch x => okV x && x % 2 == 0
  | .qappend x y => okV x && okS y
  | .qappendTry x y p => okV x && okS y && okP p
  | .qpop x y v c => okV x && okS y && okP v && okP c && v != c
  | .qatt y | .qdet y | .gset y => okS y
  | .qattOwn y q => okS y && okN 4 q
  | .qdetOwn q => okN 4 q
  | .coll s y => okS s && okS y
  | .mode _ => true
  | .modeScalar a => okS a
  | .rep n sd sa sb st body => okN 6 n && okN 2 st && repOk sd sa sb st body && body.wellFormed
  | .vnot d a _ | .vabs d a _ | .vneg d a _ | .vclz d a _ | .vpopc d a _ | .vrcp d a _ | .vrsq d a _ | .vexp2 d a _
  | .vlog2 d a _ | .vsin d a _ | .vcos d a _ | .vact d a _ | .vredadd d a _ | .vredmin d a _ | .vredmax d a _
  | .vredand d a _ | .vredor d a _ | .vredxor d a _ | .vscan d a _ | .vmatch d a _ | .vpack d a _ | .vunpk d a _ =>
      okV d && okV a
  | .vmov d a | .vmovSpecial d a => okV d && okV a
  | .vvoteany d a | .vvoteall d a => okP d && okP a
  | .vballot d p => okV d && okP p
  | .vrand d => okV d && d % 4 == 0
  | .pand d a b | .por d a b | .pxor d a b => okP d && okP a && okP b
  | .pnot d a | .pmov d a => okP d && okP a
  | .ppack d a n => okV d && okP a && decide (1 ≤ n) && decide (n ≤ 16) && decide (a + n ≤ 12)
  | .punpk d n a => okP d && okV a && decide (1 ≤ n) && decide (n ≤ 16) && decide (d + n ≤ 12)
  | .ptos d a => okS d && okP a
  | .pset d a => okP d && okS a
  | .vlane d a => okV d && okS a
  | .nop | .exit | .yield | .eret | .bar | .cbar => true
  | .trap i | .bkpt i | .sleep i => okN 16 i
  | .fence _ o => o.inFence
  | .rfence a _ b o => okS a && okS b && o.inRfence
  | .pref a _ i => okS a && okI 8 i
  | .variableLatencyResult _ _ _ | .instructionReplay _ | .warpPromotion _ | .sleepExpiry _ | .spawnStallRetry _
  | .barRelease _ | .cbarRelease _ _ | .afenceStallRetry _ | .tcopyStallRetry _
  | .matrixQueueStallRetry _ | .asyncOperationComplete _ | .awaitReturn _ | .bwaitReturn _ | .tcopyYResume _
  | .actldComplete _ | .qpopWake _ | .qdetOwnFree _ | .launchStallRetry _ | .collStallRetry _ | .collComplete _
  | .warpRetire _ | .preemptionOverrun _ | .teamSave _ | .backoffExpiry _ | .irrevocabilityTokenGrant | .txendoTurn _
  | .gridComplete _ | .quantumEnd _ | .meeting _ | .waveStart _ => true
  | .txTimeout _ l => decide (l < 64)
  | .accessFlagService ctx va => okN 8 ctx && okN 64 va
  | .pageWalk core ctx va _ => okN 10 core && okN 8 ctx && okN 64 va
  | .spawnTimerExpiry core bin => okN 10 core && okN 4 bin
  | .spawnedWarpStart core | .coreSplitChange core => okN 10 core
  | .qappendGrant core q => okN 10 core && okN 4 q
  | .teamDispatch q | .kernel q | .wait q | .signal q | .windowCreate q | .windowDestroy q | .invalidate q | .copy q
  | .streamHalt q | .streamAging q | .childGridStart q | .copyComplete q => okN 10 q
  | .commitPhase1 _ s | .commitPhase2 _ s => decide (s < 1536)
  | .gets c l | .getm c l | .upg c l | .putm c l | .putmm c l | .data c l | .datam c l | .upgack c l | .putack c l
  | .inv c l | .recallS c l | .recallI c l | .recallP c l | .mergeRecall c l | .protocolAck c l | .pushAck c l =>
      okN 10 c && okN 33 l
  | .maskExtension c l _ => okN 10 c && okN 33 l
  | .push c l _ => okN 10 c && okN 33 l
  | .homeWrite l _ => okN 33 l
  | .mscFill l v => okN 33 l && (match v with | none => true | some n => okN 33 n)
  | .flitCrcError d _ => decide (d < 8)
  | .ucieReplay d e _ => decide (d < 10) && decide (e < 10)
  | .crossbarParityError c _ => okN 7 c
  | .uncorrectableError _ => true
  | .addressMonitorWrite _ | .monitorPoll => true
  | .powerMeasurement _ | .powerUp | .warmReset | .coldReset => true
  | .ctxwrite t c g _ => okN 64 t && okN 8 c && okN 24 g
  | .qwrite t q _ => okN 64 t && okN 10 q
  | .codereg t c _ _ _ | .codemod t c _ _ _ | .codedrop t c _ => okN 64 t && okN 8 c
  | .suspend t c | .resume t c => okN 64 t && okN 8 c
  | .faultanswerRetry t _ | .faultanswerAbort t _ | .logread t _ => okN 64 t
  | .evread t _ => okN 64 t
  | .evrelease t => okN 64 t
  | .reflash t _ => okN 64 t
  | .attest t _ => okN 64 t
  | .domain t _ _ _ _ => okN 64 t
  | .managementConnect _ => true
  | .rdmaWrite qp key va b => okN 12 qp && okN 32 key && okN 64 va && decide (b.length ≤ 1073741824)
  | .rdmaRead qp key va n => okN 12 qp && okN 32 key && okN 64 va && decide (n ≤ 1073741824)
  | .rdmaFetchAndAdd qp key va d => okN 12 qp && okN 32 key && okN 64 va && okN 64 d
  | .rdmaCompareAndSwap qp key va c d => okN 12 qp && okN 32 key && okN 64 va && okN 64 c && okN 64 d
  | .queuePairBroken qp | .rdmaInvalidRequest qp _ => okN 12 qp
  | .linkUp p | .linkDown p => okN 3 p
  | .kltRequest _ _ | .kltResponse _ _ _ | .kltAck _ | .kltNak _ | .kltCollective _ _ | .kltProbe _ => true
  | .kltResendTimeout p q => okN 6 p && okN 3 q
  | .peerLost p _ => okN 6 p
  | .reservedEncoding => true
  | .firmwareHalt d => decide (d < 10)
  | .managementUnknownCode c t => okN 16 c && okN 64 t

/-- A well-formed instruction term. -/
def WellFormed (i : Instr) : Prop := i.wellFormed = true

end Sys2Proof
end

