-- ==== Sys2Proof/Decode.lean ====
section
/-! DEFINITION. The decoder and the encoder of Nasyn words (R67 to R80): bits, fields and codes; decoding of one instruction's words; its inverse; and the table word of the host's interface. -/

namespace Sys2Proof

/-- Bits [hi:lo] of a word (R4). -/
def bits (w hi lo : Nat) : Nat := w / 2 ^ lo % 2 ^ (hi - lo + 1)

/-- Bit `i` of a word. -/
def bit (w i : Nat) : Bool := w / 2 ^ i % 2 == 1

/-- The two's complement value of a field of `k` bits. -/
def signed (k n : Nat) : Int := if n < 2 ^ (k - 1) then (n : Int) else (n : Int) - (2 ^ k : Nat)

/-- The field of `k` bits that holds a signed value. -/
def unsigned (k : Nat) (i : Int) : Nat := (i % (2 ^ k : Nat)).toNat

/-- Why a word is no instruction (R80), by name. -/
inductive DecodeError where
  /-- A word of the instruction lies beyond the words given (R69). -/
  | truncated
  /-- A reserved major opcode (R72). -/
  | reservedMajor
  /-- A reserved minor or form (R73, R77, R78). -/
  | reservedMinor
  /-- A reserved value of a function, kind, condition, type, scope, order or level field. -/
  | reservedField
  /-- A must-be-zero bit is set (R71). -/
  | mustBeZero
  /-- A predicate field of 12 to 15 (R71). -/
  | predicateField
  /-- A register field that the form restricts: odd, not a multiple of 4, or with no successor (R73, R77, R103, R253). -/
  | registerField
  /-- A `REP` word with S = 1, or a word it cannot repeat (R68, R76). -/
  | badRepeat
  deriving DecidableEq, Repr

/-- A decoded instruction: the term, its switch marker S (R22) and its length in words (R68). -/
structure Decoded where
  instr : Instr
  sw : Bool
  words : Nat
  deriving DecidableEq, Repr

/-- An element type's code (Table 2.1). -/
def ElemType.code : ElemType → Nat
  | .i32 => 0 | .n32 => 1 | .f32 => 2 | .i16x2 => 3 | .n16x2 => 4 | .f16x2 => 5 | .bf16x2 => 6 | .i8x4 => 7
  | .n8x4 => 8 | .e4m3x4 => 9 | .e5m2x4 => 10 | .t8x4 => 11 | .t6x5 => 12 | .e2m3x5 => 13 | .e3m2x5 => 14
  | .e2m1x8 => 15 | .i4x8 => 16 | .i64 => 17 | .n64 => 18

/-- The element type of a code (Table 2.1). -/
def elemType? : Nat → Option ElemType
  | 0 => some .i32 | 1 => some .n32 | 2 => some .f32 | 3 => some .i16x2 | 4 => some .n16x2 | 5 => some .f16x2
  | 6 => some .bf16x2 | 7 => some .i8x4 | 8 => some .n8x4 | 9 => some .e4m3x4 | 10 => some .e5m2x4
  | 11 => some .t8x4 | 12 => some .t6x5 | 13 => some .e2m3x5 | 14 => some .e3m2x5 | 15 => some .e2m1x8
  | 16 => some .i4x8 | 17 => some .i64 | 18 => some .n64 | _ => none

/-- The code in the encoding's field. -/
def Cmp.code : Cmp → Nat
  | .eq => 0 | .ne => 1 | .lt => 2 | .le => 3 | .gt => 4 | .ge => 5 | .ord => 6 | .unord => 7

/-- The condition of a `VCMP` cc field (R73). -/
def cmp? : Nat → Option Cmp
  | 0 => some .eq | 1 => some .ne | 2 => some .lt | 3 => some .le | 4 => some .gt | 5 => some .ge | 6 => some .ord
  | 7 => some .unord | _ => none

/-- The code in the encoding's field. -/
def BrCond.code : BrCond → Nat
  | .eq => 0 | .ne => 1 | .lt => 2 | .ge => 3 | .ltn => 4 | .gen => 5 | .and => 6

/-- The condition of a `BR` cc field (Table 3.2). -/
def brCond? : Nat → Option BrCond
  | 0 => some .eq | 1 => some .ne | 2 => some .lt | 3 => some .ge | 4 => some .ltn | 5 => some .gen | 6 => some .and
  | _ => none

/-- The code in the encoding's field. -/
def ShiftKind.code : ShiftKind → Nat
  | .shl => 0 | .shr => 1 | .sra => 2

/-- The kind of a `VSHI` (R73). -/
def shiftKind? : Nat → Option ShiftKind
  | 0 => some .shl | 1 => some .shr | 2 => some .sra | _ => none

/-- The code in the encoding's field. -/
def ShuffleKind.code : ShuffleKind → Nat
  | .idx => 0 | .up => 1 | .down => 2 | .xor => 3

/-- The kind of a `VSHFL` (R73). -/
def shuffleKind : Nat → ShuffleKind
  | 0 => .idx | 1 => .up | 2 => .down | _ => .xor

/-- The code in the encoding's field. -/
def CacheClass.code : CacheClass → Nat
  | .normal => 0 | .evictFirst => 1 | .keep => 2 | .keepHigh => 3

/-- The class of a hint (R75). -/
def cacheClass : Nat → CacheClass
  | 0 => .normal | 1 => .evictFirst | 2 => .keep | _ => .keepHigh

/-- The code in the encoding's field. -/
def AtomicOp.code : AtomicOp → Nat
  | .add => 0 | .min => 1 | .max => 2 | .and => 3 | .or => 4 | .xor => 5 | .exch => 6 | .cas => 7

/-- The operation of an atomic (R73, R75). -/
def atomicOp : Nat → AtomicOp
  | 0 => .add | 1 => .min | 2 => .max | 3 => .and | 4 => .or | 5 => .xor | 6 => .exch | _ => .cas

/-- The code in the encoding's field. -/
def Scope.code : Scope → Nat
  | .thread => 0 | .team => 1 | .cluster => 2 | .device => 3 | .fabric => 4

/-- The scope of a code (Table 3.7). -/
def scope? : Nat → Option Scope
  | 0 => some .thread | 1 => some .team | 2 => some .cluster | 3 => some .device | 4 => some .fabric | _ => none

/-- The code in the encoding's field. -/
def MemOrder.code : MemOrder → Nat
  | .relaxed => 0 | .acquire => 1 | .release => 2 | .acqRel => 3 | .sc => 4

/-- The order of a code, in the numbering of `FENCE` (Table 3.7); code 0 is `SATOM`'s relaxed. -/
def memOrder? : Nat → Option MemOrder
  | 0 => some .relaxed | 1 => some .acquire | 2 => some .release | 3 => some .acqRel | 4 => some .sc | _ => none

/-- The code in the encoding's field. -/
def PrefLevel.code : PrefLevel → Nat
  | .l1 => 0 | .l2 => 1 | .msc => 2

/-- The level of a code (Table 3.7). -/
def prefLevel? : Nat → Option PrefLevel
  | 0 => some .l1 | 1 => some .l2 | 2 => some .msc | _ => none

/-- The code in the encoding's field. -/
def ScalarOp.code : ScalarOp → Nat
  | .add => 0 | .sub => 1 | .mul => 2 | .mulh => 3 | .mulhn => 4 | .and => 5 | .or => 6 | .xor => 7 | .shl => 8
  | .shr => 9 | .sra => 10 | .min => 11 | .max => 12 | .minn => 13 | .maxn => 14 | .slt => 15 | .sltn => 16
  | .clz => 17 | .popc => 18 | .bfe => 19 | .bfi => 20 | .mov => 21

/-- The function of a `SALU` fn field (Table 4.2). -/
def scalarOp? : Nat → Option ScalarOp
  | 0 => some .add | 1 => some .sub | 2 => some .mul | 3 => some .mulh | 4 => some .mulhn | 5 => some .and
  | 6 => some .or | 7 => some .xor | 8 => some .shl | 9 => some .shr | 10 => some .sra | 11 => some .min
  | 12 => some .max | 13 => some .minn | 14 => some .maxn | 15 => some .slt | 16 => some .sltn | 17 => some .clz
  | 18 => some .popc | 19 => some .bfe | 20 => some .bfi | 21 => some .mov | _ => none

/-- The code in the encoding's field. -/
def ScalarImmOp.code : ScalarImmOp → Nat
  | .addi => 0 | .andi => 1 | .ori => 2 | .xori => 3 | .slli => 4 | .srli => 5 | .srai => 6 | .slti => 7

/-- The function of a `SALUI` fn field (R93). -/
def scalarImmOp : Nat → ScalarImmOp
  | 0 => .addi | 1 => .andi | 2 => .ori | 3 => .xori | 4 => .slli | 5 => .srli | 6 => .srai | _ => .slti

/-- The code in the encoding's field. -/
def LoadSize.code : LoadSize → Nat
  | .i8 => 0 | .n8 => 1 | .i16 => 2 | .n16 => 3 | .i32 => 4 | .n32 => 5 | .w64 => 6

/-- The size of an `SLD` fn field (R95). -/
def loadSize? : Nat → Option LoadSize
  | 0 => some .i8 | 1 => some .n8 | 2 => some .i16 | 3 => some .n16 | 4 => some .i32 | 5 => some .n32
  | 6 => some .w64 | _ => none

/-- The code in the encoding's field. -/
def StoreSize.code : StoreSize → Nat
  | .b8 => 0 | .b16 => 1 | .b32 => 2 | .b64 => 3

/-- The size of an `SST` fn field (R95). -/
def storeSize? : Nat → Option StoreSize
  | 0 => some .b8 | 1 => some .b16 | 2 => some .b32 | 3 => some .b64 | _ => none

/-- The code in the encoding's field. -/
def KeyType.code : KeyType → Nat
  | .i32 => 0 | .n32 => 1

/-- The key type of a `SWITCH` (Table 3.4). -/
def keyType? : Nat → Option KeyType
  | 0 => some .i32 | 1 => some .n32 | _ => none

/-- The code in the encoding's field. -/
def RegionKind.code : RegionKind → Nat
  | .plain => 0 | .transaction => 1 | .ordered => 2

/-- The kind of a `REGION` (Table 3.4). -/
def regionKind? : Nat → Option RegionKind
  | 0 => some .plain | 1 => some .transaction | 2 => some .ordered | _ => none

/-- A code looked up, or the word is reserved. -/
def orReserved {α : Type} : Option α → Except DecodeError α
  | some x => .ok x
  | none => .error .reservedField

/-- The word is refused for `e` unless `c` holds. -/
def need (c : Bool) (e : DecodeError) (k : Except DecodeError Instr) : Except DecodeError Instr :=
  if c then k else .error e

/-- A format A second source: U in bit 0, vb in [8:1], with vb[7:5] = 0 when U = 1 (R71). -/
def srcB (w : Nat) (k : SrcB → Instr) : Except DecodeError Instr :=
  if bit w 0 then need (bits w 8 6 == 0) .mustBeZero (.ok (k (.s (bits w 5 1)))) else .ok (k (.v (bits w 8 1)))

/-- A format A word (Table 3.2). -/
def formatA (w : Nat) (f : Nat → Nat → SrcB → Instr) : Except DecodeError Instr :=
  srcB w (f (bits w 24 17) (bits w 16 9))

/-- A format B word with a signed immediate (Table 3.2). -/
def formatB (w : Nat) (f : Nat → Nat → Int → Instr) : Except DecodeError Instr :=
  .ok (f (bits w 24 17) (bits w 16 9) (signed 9 (bits w 8 0)))

/-- The cc and pd fields of `VCMP` and `VCMPI` (R73). -/
def compareFields (w : Nat) (k : Cmp → Nat → Except DecodeError Instr) : Except DecodeError Instr :=
  match cmp? (bits w 24 21) with
  | none => .error .reservedField
  | some c => need (decide (bits w 20 17 < 12)) .predicateField (k c (bits w 20 17))

/-- A format M word: vd, sbase, voff and the reuse mark X (Table 3.2). -/
def formatM {α : Type} (w : Nat) (f : Nat → Nat → Nat → α) : α :=
  f (bits w 24 17) (bits w 16 12) (bits w 11 4)

/-- The optional barrier object of `TCOPY`, `TCOPY.Y` and `ACTLD`: B in bit 20, sb in [17:13], which must be 0 when B = 0. -/
def barField (w : Nat) (k : Option Nat → Except DecodeError Instr) : Except DecodeError Instr :=
  if bit w 20 then k (some (bits w 17 13)) else need (bits w 17 13 == 0) .mustBeZero (k none)

/-- The `CTL` forms (major 0x33). -/
def decodeCtl (w : Nat) : Except DecodeError Instr :=
  let x := bits w 20 13; let y := bits w 12 8; let i := bits w 7 0
  match bits w 24 21 with
  | 0 => need (x == 0 && i == 0) .mustBeZero (.ok (.calli y))
  | 1 => need (y == 0 && i == 0) .mustBeZero (need (x % 2 == 0) .registerField (.ok (.callv x)))
  | 2 => need (x == 0 && i == 0) .mustBeZero (.ok (.jmpi y))
  | 3 => need (x == 0 && y == 0 && i == 0) .mustBeZero (.ok .ret)
  | 4 => need (x == 0 && y == 0) .mustBeZero (.ok (.spadj (signed 8 i)))
  | _ => .error .reservedMinor

/-- The `MELD` forms (major 0x36, R108). -/
def decodeMeld (w : Nat) : Except DecodeError Instr :=
  let x := bits w 20 13; let y := bits w 12 8; let i := bits w 7 0
  match bits w 24 21 with
  | 0 => need (x == 0 && y == 0 && bits w 7 4 == 0) .mustBeZero
      (need (decide (bits w 3 0 < 12)) .predicateField (.ok (.meldOn (bits w 3 0))))
  | 1 => need (x == 0 && y == 0 && i == 0) .mustBeZero (.ok .meldOff)
  | 2 => need (x == 0 && i == 0) .mustBeZero (.ok (.meldLdt y))
  | _ => .error .reservedMinor

/-- The optional barrier object of `ACCLD` and `ACCST`: B in bit 20, sb in imm8[4:0], which must be 0 when B = 0 (Table 10.6). -/
def accBar (w : Nat) (k : Option Nat → Except DecodeError Instr) : Except DecodeError Instr :=
  if bit w 20 then k (some (bits w 4 0)) else need (bits w 4 0 == 0) .mustBeZero (k none)

/-- The `ASYNC` forms (major 0x3A, Tables 9.3 and 10.6, R241, R243). -/
def decodeAsync (w : Nat) : Except DecodeError Instr :=
  let x := bits w 20 13; let y := bits w 12 8; let i := bits w 7 0
  match bits w 24 21 with
  | 0 => need (bits w 19 18 == 0 && i == 0) .mustBeZero (barField w fun b => .ok (.tcopy b y))
  | 1 => need (bits w 19 18 == 0) .mustBeZero (need (i != 0) .reservedField (barField w fun b => .ok (.tcopyY b y i)))
  | 2 => need (bits w 20 18 == 0 && y == 0 && i == 0) .mustBeZero (.ok (.afence (bits w 17 13)))
  | 3 => need (bits w 20 18 == 0 && i == 0) .mustBeZero (.ok (.await (bits w 17 13) y))
  | 4 => need (bits w 20 18 == 0 && i == 0) .mustBeZero (.ok (.binit (bits w 17 13) y))
  | 5 => need (x == 0) .mustBeZero (need (i != 0) .reservedField (.ok (.barv y i)))
  | 6 => need (bits w 20 18 == 0 && bits w 7 1 == 0) .mustBeZero (.ok (.bwait (bits w 17 13) y (bit w 0)))
  | 7 => need (x == 0 && i == 0) .mustBeZero (.ok (.accz y))
  | 8 => need (bit w 18 == false && bits w 7 5 == 0) .mustBeZero (accBar w fun b => .ok (.accld b (bit w 19) (bits w 17 13) y))
  | 9 => if bit w 7 then need (bits w 6 0 == 0) .mustBeZero (.ok (.accstR x y))
      else need (bit w 18 == false && bits w 7 5 == 0) .mustBeZero (accBar w fun b => .ok (.accst b (bit w 19) (bits w 17 13) y))
  | 10 => .ok (.rstat x y i)
  | 11 => need (bit w 18 == false && i == 0) .mustBeZero (barField w fun b => .ok (.actld b (bit w 19) y))
  | _ => .error .reservedMinor

/-- The `TASK` forms (major 0x3B, R185, R253, R261, R302, R308 to R313, R369, R417). -/
def decodeTask (w : Nat) : Except DecodeError Instr :=
  let x := bits w 20 13; let y := bits w 12 8; let i := bits w 7 0
  match bits w 24 21 with
  | 0 => need (x == 0 && y == 0 && i == 0) .mustBeZero (.ok .txend)
  | 1 => need (x == 0 && y == 0 && i == 0) .mustBeZero (.ok .txendo)
  | 2 => need (x == 0 && y == 0) .mustBeZero (.ok (.txabort i))
  | 3 => need (y == 0 && bits w 7 4 == 0) .mustBeZero
      (need (decide (bits w 3 0 < 12)) .predicateField (.ok (.txstat x (bits w 3 0))))
  | 4 => need (i == 0) .mustBeZero (.ok (.spawn x y))
  | 5 => need (bits w 7 5 == 0) .mustBeZero (.ok (.spawno x y (bits w 4 0)))
  | 6 => need (y == 0 && i == 0) .mustBeZero (need (x % 2 == 0) .registerField (.ok (.launch x)))
  | 7 => if bit w 7 then need (bits w 6 4 == 0) .mustBeZero
        (need (decide (bits w 3 0 < 12)) .predicateField (.ok (.qappendTry x y (bits w 3 0))))
      else need (i == 0) .mustBeZero (.ok (.qappend x y))
  | 8 => need (decide (bits w 7 4 < 12) && decide (bits w 3 0 < 12)) .predicateField
      (need (bits w 7 4 != bits w 3 0) .registerField (.ok (.qpop x y (bits w 7 4) (bits w 3 0))))
  | 9 => if bit w 7 then need (x == 0 && bits w 6 4 == 0) .mustBeZero (.ok (.qattOwn y (bits w 3 0)))
      else need (x == 0 && i == 0) .mustBeZero (.ok (.qatt y))
  | 10 => if bit w 7 then need (x == 0 && y == 0 && bits w 6 4 == 0) .mustBeZero (.ok (.qdetOwn (bits w 3 0)))
      else need (x == 0 && i == 0) .mustBeZero (.ok (.qdet y))
  | 11 => need (x == 0 && i == 0) .mustBeZero (.ok (.gset y))
  | 12 => need (bits w 20 18 == 0 && i == 0) .mustBeZero (.ok (.coll (bits w 17 13) y))
  | _ => .error .reservedMinor

/-- A `VEXT` minor with a destination, a source and a reuse mark (Table 3.5). -/
def vextReuse (w : Nat) (f : Nat → Nat → Bool → Instr) : Except DecodeError Instr :=
  .ok (f (bits w 16 9) (bits w 8 1) (bit w 0))

/-- A `VEXT` minor on three predicates (Table 3.5). -/
def vextPPP (w : Nat) (f : Nat → Nat → Nat → Instr) : Except DecodeError Instr :=
  need (bits w 4 0 == 0) .mustBeZero (need (decide (bits w 16 13 < 12) && decide (bits w 12 9 < 12) && decide (bits w 8 5 < 12))
    .predicateField (.ok (f (bits w 16 13) (bits w 12 9) (bits w 8 5))))

/-- A `VEXT` minor on two predicates in f1 (Table 3.5). -/
def vextPP (w : Nat) (f : Nat → Nat → Instr) : Except DecodeError Instr :=
  need (bits w 8 0 == 0) .mustBeZero (need (decide (bits w 16 13 < 12) && decide (bits w 12 9 < 12))
    .predicateField (.ok (f (bits w 16 13) (bits w 12 9))))

/-- A vote (Table 3.5). -/
def vextVote (w : Nat) (f : Nat → Nat → Instr) : Except DecodeError Instr :=
  need (bits w 12 9 == 0 && bits w 4 0 == 0) .mustBeZero (need (decide (bits w 16 13 < 12) && decide (bits w 8 5 < 12))
    .predicateField (.ok (f (bits w 16 13) (bits w 8 5))))

/-- The minors of `VEXT` (major 0x3E, Table 3.5, R77). -/
def decodeVext (w : Nat) : Except DecodeError Instr :=
  match bits w 24 17 with
  | 0x00 => vextReuse w .vnot
  | 0x01 => vextReuse w .vabs
  | 0x02 => vextReuse w .vneg
  | 0x03 => vextReuse w .vclz
  | 0x04 => vextReuse w .vpopc
  | 0x05 => vextReuse w .vrcp
  | 0x06 => vextReuse w .vrsq
  | 0x07 => vextReuse w .vexp2
  | 0x08 => vextReuse w .vlog2
  | 0x09 => vextReuse w .vsin
  | 0x0A => vextReuse w .vcos
  | 0x0B => vextReuse w .vact
  | 0x0C => .ok (if bit w 0 then .vmovSpecial (bits w 16 9) (bits w 8 1) else .vmov (bits w 16 9) (bits w 8 1))
  | 0x0D => vextReuse w .vredadd
  | 0x0E => vextReuse w .vredmin
  | 0x0F => vextReuse w .vredmax
  | 0x10 => vextReuse w .vredand
  | 0x11 => vextReuse w .vredor
  | 0x12 => vextReuse w .vredxor
  | 0x13 => vextReuse w .vscan
  | 0x14 => vextVote w .vvoteany
  | 0x15 => vextVote w .vvoteall
  | 0x16 => need (bits w 4 0 == 0) .mustBeZero (need (decide (bits w 8 5 < 12)) .predicateField (.ok (.vballot (bits w 16 9) (bits w 8 5))))
  | 0x17 => vextReuse w .vmatch
  | 0x18 => vextReuse w .vpack
  | 0x19 => vextReuse w .vunpk
  | 0x1A => need (bits w 8 0 == 0) .mustBeZero (need (bits w 16 9 % 4 == 0) .registerField (.ok (.vrand (bits w 16 9))))
  | 0x1B => vextPPP w .pand
  | 0x1C => vextPPP w .por
  | 0x1D => vextPPP w .pxor
  | 0x1E => vextPP w .pnot
  | 0x1F => vextPP w .pmov
  | 0x20 => need (!bit w 0) .mustBeZero (need (decide (bits w 8 5 + (bits w 4 1 + 1) ≤ 12)) .predicateField
      (.ok (.ppack (bits w 16 9) (bits w 8 5) (bits w 4 1 + 1))))
  | 0x21 => need (!bit w 0) .mustBeZero (need (decide (bits w 16 13 + (bits w 12 9 + 1) ≤ 12)) .predicateField
      (.ok (.punpk (bits w 16 13) (bits w 12 9 + 1) (bits w 8 1))))
  | 0x22 => need (bits w 16 14 == 0 && bits w 4 0 == 0) .mustBeZero (need (decide (bits w 8 5 < 12)) .predicateField
      (.ok (.ptos (bits w 13 9) (bits w 8 5))))
  | 0x23 => need (bits w 12 9 == 0 && bits w 8 6 == 0 && !bit w 0) .mustBeZero (need (decide (bits w 16 13 < 12)) .predicateField
      (.ok (.pset (bits w 16 13) (bits w 5 1))))
  | 0x24 => need (bits w 8 6 == 0 && !bit w 0) .mustBeZero (.ok (.vlane (bits w 16 9) (bits w 5 1)))
  | _ => .error .reservedMinor

/-- The minors of `SYS` (major 0x3F, Table 3.6, R78). -/
def decodeSys (w : Nat) : Except DecodeError Instr :=
  let z (i : Instr) := need (bits w 16 0 == 0) .mustBeZero (.ok i)
  let imm (f : Nat → Instr) := need (!bit w 0) .mustBeZero (.ok (f (bits w 16 1)))
  match bits w 24 17 with
  | 0x00 => z .nop
  | 0x01 => z .exit
  | 0x02 => z .yield
  | 0x03 => imm .trap
  | 0x04 => imm .bkpt
  | 0x05 => z .eret
  | 0x06 => z .bar
  | 0x07 => z .cbar
  | 0x08 => need (bits w 16 12 == 0 && bits w 8 4 == 0 && !bit w 0) .mustBeZero (do
      let s ← orReserved (scope? (bits w 11 9))
      let o ← orReserved (memOrder? (bits w 3 1))
      need o.inFence .reservedField (.ok (.fence s o)))
  | 0x09 => need (!bit w 0) .mustBeZero (do
      let s ← orReserved (scope? (bits w 11 9))
      let o ← orReserved (memOrder? (bits w 3 1))
      need o.inRfence .reservedField (.ok (.rfence (bits w 16 12) s (bits w 8 4) o)))
  | 0x0A => imm .sleep
  | 0x0B => need (!bit w 0) .mustBeZero (do
      let l ← orReserved (prefLevel? (bits w 11 9))
      .ok (.pref (bits w 16 12) l (signed 8 (bits w 8 1))))
  | _ => .error .reservedMinor

/-- Format A majors 0x00 to 0x0F. -/
def decodeA (w : Nat) : Except DecodeError Instr :=
  match bits w 28 25 with
  | 0x0 => formatA w .vadd
  | 0x1 => formatA w .vsub
  | 0x2 => formatA w .vmul
  | 0x3 => formatA w .vmad
  | 0x4 => formatA w .vmin
  | 0x5 => formatA w .vmax
  | 0x6 => formatA w .vand
  | 0x7 => formatA w .vor
  | 0x8 => formatA w .vxor
  | 0x9 => formatA w .vshl
  | 0xA => formatA w .vshr
  | 0xB => formatA w .vsra
  | 0xC => formatA w .vmulh
  | 0xD => formatA w .vdot
  | 0xE => compareFields w fun c p => srcB w (.vcmp c p (bits w 16 9))
  | _ => need (bits w 8 6 == 0 && !bit w 0) .mustBeZero (do
      let t ← orReserved (elemType? (bits w 5 1))
      .ok (.vcvt (bits w 24 17) (bits w 16 9) t))

/-- Majors 0x10 to 0x1E (formats A, B and C); 0x1F is reserved. -/
def decodeB (w : Nat) : Except DecodeError Instr :=
  match bits w 28 25 with
  | 0x0 => formatB w .vaddi
  | 0x1 => formatB w .vmuli
  | 0x2 => formatB w .vandi
  | 0x3 => formatB w .vori
  | 0x4 => need (bits w 6 5 == 0) .mustBeZero (do
      let k ← orReserved (shiftKind? (bits w 8 7))
      .ok (.vshi (bits w 24 17) (bits w 16 9) k (bits w 4 0)))
  | 0x5 => compareFields w fun c p => .ok (.vcmpi c p (bits w 16 9) (signed 9 (bits w 8 0)))
  | 0x6 => .ok (.vmovi (bits w 24 17) (bits w 16 1) (bit w 0))
  | 0x7 => formatB w .vrdx
  | 0x8 => formatB w .vwrx
  | 0x9 => need (!bit w 0) .mustBeZero (.ok (.vspl (bits w 24 17) (bits w 16 1)))
  | 0xA => need (!bit w 0) .mustBeZero (.ok (.vfil (bits w 24 17) (bits w 16 1)))
  | 0xB => formatA w .vsel
  | 0xC => formatA w .vbfe
  | 0xD => formatA w .vbfi
  | 0xE => need (bits w 8 7 != 0 || bits w 6 0 == 0) .mustBeZero
      (.ok (.vshfl (bits w 24 17) (bits w 16 9) (shuffleKind (bits w 8 7)) (bit w 6) (bits w 5 0)))
  | _ => .error .reservedMajor

/-- Majors 0x20 to 0x2F (formats M, D, E and F); 0x27 is reserved. -/
def decodeM (w : Nat) : Except DecodeError Instr :=
  let cls := cacheClass (bits w 3 2)
  let d := bits w 24 20; let a := bits w 19 15; let i := signed 12 (bits w 11 0)
  match bits w 28 25 with
  | 0x0 => .ok (formatM w Instr.vld cls (bit w 1) (bit w 0))
  | 0x1 => .ok (formatM w Instr.vst cls (bit w 1) (bit w 0))
  | 0x2 => need (bits w 3 1 == 0) .mustBeZero (.ok (formatM w Instr.vlds (bit w 0)))
  | 0x3 => need (bits w 3 1 == 0) .mustBeZero (.ok (formatM w Instr.vsts (bit w 0)))
  | 0x4 => need (!bit w 1) .mustBeZero (.ok (formatM w Instr.gst cls (bit w 0)))
  | 0x5 => .ok (formatM w Instr.vatom (atomicOp (bits w 3 1)) (bit w 0))
  | 0x6 => .ok (formatM w Instr.vatoms (atomicOp (bits w 3 1)) (bit w 0))
  | 0x8 => need (bits w 9 5 == 0) .mustBeZero (do
      let f ← orReserved (scalarOp? (bits w 4 0))
      need (!f.noB || bits w 14 10 == 0) .mustBeZero (.ok (.salu f d a (bits w 14 10))))
  | 0x9 => need (!(scalarImmOp (bits w 14 12)).isShift || bits w 11 6 == 0) .mustBeZero
      (.ok (.salui (scalarImmOp (bits w 14 12)) d a i))
  | 0xA => .ok (.slui d (bits w 19 0))
  | 0xB => .ok (.sauipc d (bits w 19 0))
  | 0xC => do
      let f ← orReserved (loadSize? (bits w 14 12))
      .ok (.sld f d a i)
  | 0xD => do
      let f ← orReserved (storeSize? (bits w 14 12))
      .ok (.sst f d a i)
  | 0xE => need (bits w 9 8 == 0) .mustBeZero (do
      let s ← orReserved (scope? (bits w 5 3))
      let o ← orReserved (memOrder? (bits w 7 6))
      need (atomicOp (bits w 2 0) != .cas || bits w 14 10 != 31) .registerField
        (.ok (.satom (atomicOp (bits w 2 0)) s o d a (bits w 14 10))))
  | 0xF => match bits w 14 12 with
      | 0 => need (a == 0) .mustBeZero (.ok (.ssrRead d (bits w 11 0)))
      | 1 => need (d == 0) .mustBeZero (.ok (.ssrWrite (bits w 11 0) a))
      | _ => .error .reservedField
  | _ => .error .reservedMajor

/-- A case word of `SWITCH`: key in [31:16], target in [15:0] (Table 3.4). -/
def caseWord (w : Nat) : Nat × Int := (bits w 31 16, signed 16 (bits w 15 0))

/-- The number of words of the instruction that a first word opens (R68). -/
def lengthOf (w : Nat) : Nat :=
  match bits w 30 25 with
  | 0x34 => 2
  | 0x35 => bits w 16 14 + 3
  | 0x37 => 3
  | 0x3D => 2
  | _ => 1

/-- Majors 0x30 to 0x3F but for `REP`; `ws` are the words after the first. DESIGN CHOICE: the retries field counts among the flags that a `REGION` of kind 0 holds zero, which R74 calls only
"Flags other than zero" (log entry 115). -/
def decodeC (w : Nat) (ws : List Nat) : Except DecodeError Instr :=
  match bits w 28 25 with
  | 0x0 => do
      let c ← orReserved (brCond? (bits w 14 12))
      .ok (.br c (bits w 24 20) (bits w 19 15) (signed 12 (bits w 11 0)))
  | 0x1 => .ok (.jmp (signed 25 (bits w 24 0)))
  | 0x2 => .ok (.call (signed 25 (bits w 24 0)))
  | 0x3 => decodeCtl w
  | 0x4 => match ws with
      | l :: _ => need (bits w 19 0 == 0) .mustBeZero (need (decide (bits w 24 21 < 12)) .predicateField
          (.ok (.split (bits w 24 21) (bit w 20) (signed 16 (bits l 31 16)) (signed 16 (bits l 15 0)))))
      | [] => .error .truncated
  | 0x5 =>
      let n := bits w 16 14 + 1
      match ws.drop n with
      | l :: _ => need (bits w 11 0 == 0) .mustBeZero (do
          let k ← orReserved (keyType? (bits w 13 12))
          .ok (.switch (bits w 24 17) k ((ws.take n).map caseWord) (signed 16 (bits l 31 16)) (signed 16 (bits l 15 0))))
      | [] => .error .truncated
  | 0x6 => decodeMeld w
  | 0x7 => match ws with
      | l1 :: l2 :: _ => need (bits w 15 0 == 0 && bits l2 2 0 == 0) .mustBeZero (do
          let k ← orReserved (regionKind? (bits w 24 22))
          need (k != .plain || bits w 21 16 == 0) .mustBeZero
            (.ok (.region k (bits w 21 18) (bit w 17) (bit w 16) (BitVec.ofNat 32 l1) (bits l2 31 24) (bits l2 23 16)
              (BitVec.ofNat 12 (bits l2 15 4)) (bit l2 3))))
      | _ => .error .truncated
  | 0x8 => need (bits w 4 0 == 0) .mustBeZero (.ok (.mma (bits w 24 20) (bits w 19 15) (bits w 14 10) (bits w 9 5)))
  | 0x9 => need (bits w 4 0 == 0) .mustBeZero (.ok (.mmag (bits w 24 20) (bits w 19 15) (bits w 14 10) (bits w 9 5)))
  | 0xA => decodeAsync w
  | 0xB => decodeTask w
  | 0xC => if bit w 24 then need (bits w 23 21 == 0 && bits w 15 0 == 0) .mustBeZero (.ok (.modeScalar (bits w 20 16)))
      else need (bits w 23 16 == 0) .mustBeZero (.ok (.mode (BitVec.ofNat 16 (bits w 15 0))))
  | 0xE => decodeVext w
  | 0xF => decodeSys w
  | _ => .error .badRepeat

/-- One instruction other than `REP`, from its first word and the words that follow. -/
def decodeOne (w : Nat) (ws : List Nat) : Except DecodeError Instr :=
  match bits w 30 29 with
  | 0 => decodeA w
  | 1 => decodeB w
  | 2 => decodeM w
  | _ => decodeC w ws

/-- The instruction that begins with the first word of the list (R67 to R80). For a `REP` pair the marker is the repeated
word's (R68); the repeated word is checked as R76 says. -/
def decodeWords : List Nat → Except DecodeError Decoded
  | [] => .error .truncated
  | w :: ws =>
    if bits w 30 25 == 0x3D then
      if bit w 31 then .error .badRepeat
      else if bits w 13 0 != 0 then .error .mustBeZero
      else match ws with
        | [] => .error .truncated
        | b :: bs => do
          let body ← decodeOne b bs
          if repOk (bit w 18) (bit w 17) (bit w 16) (bits w 15 14) body then
            .ok ⟨.rep (bits w 24 19) (bit w 18) (bit w 17) (bit w 16) (bits w 15 14) body, bit b 31, 2⟩
          else .error .badRepeat
    else do
      let i ← decodeOne w ws
      .ok ⟨i, bit w 31, lengthOf w⟩

/-- The little-endian words of a byte list; bytes beyond the last whole word are left out (R5, R67). -/
def wordsOfBytes : List Byte → List Nat
  | a :: b :: c :: d :: r => (a.toNat + 256 * b.toNat + 65536 * c.toNat + 16777216 * d.toNat) :: wordsOfBytes r
  | _ => []

/-- The decoder: any bytes to an instruction or a named error. -/
def decode (bs : List Byte) : Except DecodeError Decoded := decodeWords (wordsOfBytes bs)

/-- The low `n` bytes of a number, least significant first (R5). -/
def bytesOfNat : Nat → Nat → List Byte
  | 0, _ => []
  | n + 1, v => BitVec.ofNat 8 v :: bytesOfNat n (v / 256)

/-- The bytes of words, little-endian. -/
def bytesOfWords : List Nat → List Byte
  | [] => []
  | w :: ws => bytesOfNat 4 w ++ bytesOfWords ws

/-- The longest instruction: a `SWITCH` of 8 cases, 10 words (R68). -/
def maxBytes : Nat := 40

/-- The bytes that lie at an instruction's address for a table word of `nbits` bits: the words in ascending addresses, zeros up
to the longest instruction. -/
def tableBytes (nbits w : Nat) : List Byte :=
  bytesOfNat (nbits / 8) w ++ List.replicate (maxBytes - nbits / 8) 0#8

/-- The instruction the decoder reads from a table word. -/
def decodeTableWord (nbits w : Nat) : Option Instr :=
  match decode (tableBytes nbits w) with
  | .ok d => some d.instr
  | .error _ => none

/-- A Boolean as a bit. -/
def ofBit (b : Bool) : Nat := if b then 1 else 0

/-- The bits of a format A second source, with U (R71). -/
def SrcB.enc : SrcB → Nat
  | .v n => n * 2
  | .s n => n * 2 + 1

/-- A word of a major opcode with its field bits. -/
def major (m rest : Nat) : Nat := m * 2 ^ 25 + rest

/-- A format A word. -/
def encA (m d a : Nat) (b : SrcB) : Nat := major m (d * 2 ^ 17 + a * 2 ^ 9 + b.enc)

/-- A format B word. -/
def encB (m d a imm : Nat) : Nat := major m (d * 2 ^ 17 + a * 2 ^ 9 + imm)

/-- A format M word. -/
def encM (m d s o h : Nat) (x : Bool) : Nat := major m (d * 2 ^ 17 + s * 2 ^ 12 + o * 2 ^ 4 + h * 2 + ofBit x)

/-- A format D word. -/
def encD (m d a b fn : Nat) : Nat := major m (d * 2 ^ 20 + a * 2 ^ 15 + b * 2 ^ 10 + fn)

/-- A format E or G word. -/
def encE (m d a fn imm : Nat) : Nat := major m (d * 2 ^ 20 + a * 2 ^ 15 + fn * 2 ^ 12 + imm)

/-- A format K word. -/
def encK (m fn x y imm : Nat) : Nat := major m (fn * 2 ^ 21 + x * 2 ^ 13 + y * 2 ^ 8 + imm)

/-- A format X word. -/
def encX (m minor f1 f2 f0 : Nat) : Nat := major m (minor * 2 ^ 17 + f1 * 2 ^ 9 + f2 * 2 + f0)

/-- The x field of an `ASYNC` form that may name a barrier object (Table 9.3). -/
def encBar : Option Nat → Nat
  | none => 0
  | some n => 128 + n

/-- The x field of `ACCLD` and `ACCST` (Table 10.6): B, SPACE and the address register. -/
def encAccX (b : Option Nat) (shm : Bool) (a : Nat) : Nat := (if b.isSome then 128 else 0) + ofBit shm * 64 + a

/-- The words of an instruction with S = 0 in its first word, from the encoding tables of chapter 3; an event has none. -/
def encodeWords : Instr → List Nat
  | .vadd d a b => [encA 0x00 d a b]
  | .vsub d a b => [encA 0x01 d a b]
  | .vmul d a b => [encA 0x02 d a b]
  | .vmad d a b => [encA 0x03 d a b]
  | .vmin d a b => [encA 0x04 d a b]
  | .vmax d a b => [encA 0x05 d a b]
  | .vand d a b => [encA 0x06 d a b]
  | .vor d a b => [encA 0x07 d a b]
  | .vxor d a b => [encA 0x08 d a b]
  | .vshl d a b => [encA 0x09 d a b]
  | .vshr d a b => [encA 0x0A d a b]
  | .vsra d a b => [encA 0x0B d a b]
  | .vmulh d a b => [encA 0x0C d a b]
  | .vdot d a b => [encA 0x0D d a b]
  | .vcmp c p a b => [encA 0x0E (c.code * 16 + p) a b]
  | .vcvt d a t => [encB 0x0F d a (t.code * 2)]
  | .vaddi d a i => [encB 0x10 d a (unsigned 9 i)]
  | .vmuli d a i => [encB 0x11 d a (unsigned 9 i)]
  | .vandi d a i => [encB 0x12 d a (unsigned 9 i)]
  | .vori d a i => [encB 0x13 d a (unsigned 9 i)]
  | .vshi d a k n => [encB 0x14 d a (k.code * 2 ^ 7 + n)]
  | .vcmpi c p a i => [encB 0x15 (c.code * 16 + p) a (unsigned 9 i)]
  | .vmovi d i h => [major 0x16 (d * 2 ^ 17 + i * 2 + ofBit h)]
  | .vrdx d a i => [encB 0x17 d a (unsigned 9 i)]
  | .vwrx d a i => [encB 0x18 d a (unsigned 9 i)]
  | .vspl d i => [major 0x19 (d * 2 ^ 17 + i * 2)]
  | .vfil d i => [major 0x1A (d * 2 ^ 17 + i * 2)]
  | .vsel d a b => [encA 0x1B d a b]
  | .vbfe d a b => [encA 0x1C d a b]
  | .vbfi d a b => [encA 0x1D d a b]
  | .vshfl d a k r n => [encB 0x1E d a (k.code * 2 ^ 7 + ofBit r * 2 ^ 6 + n)]
  | .vld d s o c na x => [encM 0x20 d s o (c.code * 2 + ofBit na) x]
  | .vst d s o c na x => [encM 0x21 d s o (c.code * 2 + ofBit na) x]
  | .vlds d s o x => [encM 0x22 d s o 0 x]
  | .vsts d s o x => [encM 0x23 d s o 0 x]
  | .gst d s o c x => [encM 0x24 d s o (c.code * 2) x]
  | .vatom d s o op x => [encM 0x25 d s o op.code x]
  | .vatoms d s o op x => [encM 0x26 d s o op.code x]
  | .salu f d a b => [encD 0x28 d a b f.code]
  | .salui f d a i => [encE 0x29 d a f.code (unsigned 12 i)]
  | .slui d i => [major 0x2A (d * 2 ^ 20 + i)]
  | .sauipc d i => [major 0x2B (d * 2 ^ 20 + i)]
  | .sld f d a i => [encE 0x2C d a f.code (unsigned 12 i)]
  | .sst f d a i => [encE 0x2D d a f.code (unsigned 12 i)]
  | .satom op s o d a b => [encD 0x2E d a b (o.code * 2 ^ 6 + s.code * 2 ^ 3 + op.code)]
  | .ssrRead d r => [encE 0x2F d 0 0 r]
  | .ssrWrite r a => [encE 0x2F 0 a 1 r]
  | .br c a b o => [encE 0x30 a b c.code (unsigned 12 o)]
  | .jmp o => [major 0x31 (unsigned 25 o)]
  | .call o => [major 0x32 (unsigned 25 o)]
  | .calli y => [encK 0x33 0 0 y 0]
  | .callv x => [encK 0x33 1 x 0 0]
  | .jmpi y => [encK 0x33 2 0 y 0]
  | .ret => [encK 0x33 3 0 0 0]
  | .spadj i => [encK 0x33 4 0 0 (unsigned 8 i)]
  | .split p s e j => [major 0x34 (p * 2 ^ 21 + ofBit s * 2 ^ 20), unsigned 16 e * 2 ^ 16 + unsigned 16 j]
  | .switch a k cs d j =>
      [major 0x35 (a * 2 ^ 17 + (cs.length - 1) * 2 ^ 14 + k.code * 2 ^ 12)]
        ++ cs.map (fun c => c.1 * 2 ^ 16 + unsigned 16 c.2) ++ [unsigned 16 d * 2 ^ 16 + unsigned 16 j]
  | .meldOn p => [encK 0x36 0 0 0 p]
  | .meldOff => [encK 0x36 1 0 0 0]
  | .meldLdt y => [encK 0x36 2 0 y 0]
  | .region k r nb v s vb vc p al =>
      [major 0x37 (k.code * 2 ^ 22 + r * 2 ^ 18 + ofBit nb * 2 ^ 17 + ofBit v * 2 ^ 16), s.toNat,
        vb * 2 ^ 24 + vc * 2 ^ 16 + p.toNat * 2 ^ 4 + ofBit al * 2 ^ 3]
  | .mma d a b f => [encD 0x38 d a b (f * 2 ^ 5)]
  | .mmag d a b f => [encD 0x39 d a b (f * 2 ^ 5)]
  | .tcopy b y => [encK 0x3A 0 (encBar b) y 0]
  | .tcopyY b y c => [encK 0x3A 1 (encBar b) y c]
  | .afence d => [encK 0x3A 2 d 0 0]
  | .await d n => [encK 0x3A 3 d n 0]
  | .binit c y => [encK 0x3A 4 c y 0]
  | .barv y c => [encK 0x3A 5 0 y c]
  | .bwait d y q => [encK 0x3A 6 d y (ofBit q)]
  | .accz y => [encK 0x3A 7 0 y 0]
  | .accld b shm a y => [encK 0x3A 8 (encAccX b shm a) y (b.getD 0)]
  | .accst b shm a y => [encK 0x3A 9 (encAccX b shm a) y (b.getD 0)]
  | .accstR d y => [encK 0x3A 9 d y 0x80]
  | .rstat d y r => [encK 0x3A 10 d y r]
  | .actld b shm y => [encK 0x3A 11 (encBar b + ofBit shm * 64) y 0]
  | .txend => [encK 0x3B 0 0 0 0]
  | .txendo => [encK 0x3B 1 0 0 0]
  | .txabort c => [encK 0x3B 2 0 0 c]
  | .txstat d p => [encK 0x3B 3 d 0 p]
  | .spawn x y => [encK 0x3B 4 x y 0]
  | .spawno x y s => [encK 0x3B 5 x y s]
  | .launch x => [encK 0x3B 6 x 0 0]
  | .qappend x y => [encK 0x3B 7 x y 0]
  | .qappendTry x y p => [encK 0x3B 7 x y (0x80 + p)]
  | .qpop x y v c => [encK 0x3B 8 x y (v * 16 + c)]
  | .qatt y => [encK 0x3B 9 0 y 0]
  | .qattOwn y q => [encK 0x3B 9 0 y (0x80 + q)]
  | .qdet y => [encK 0x3B 10 0 y 0]
  | .qdetOwn q => [encK 0x3B 10 0 0 (0x80 + q)]
  | .gset y => [encK 0x3B 11 0 y 0]
  | .coll s y => [encK 0x3B 12 s y 0]
  | .mode i => [major 0x3C i.toNat]
  | .modeScalar a => [major 0x3C (2 ^ 24 + a * 2 ^ 16)]
  | .rep n sd sa sb st body =>
      major 0x3D (n * 2 ^ 19 + ofBit sd * 2 ^ 18 + ofBit sa * 2 ^ 17 + ofBit sb * 2 ^ 16 + st * 2 ^ 14) :: encodeWords body
  | .vnot d a r => [encX 0x3E 0x00 d a (ofBit r)]
  | .vabs d a r => [encX 0x3E 0x01 d a (ofBit r)]
  | .vneg d a r => [encX 0x3E 0x02 d a (ofBit r)]
  | .vclz d a r => [encX 0x3E 0x03 d a (ofBit r)]
  | .vpopc d a r => [encX 0x3E 0x04 d a (ofBit r)]
  | .vrcp d a r => [encX 0x3E 0x05 d a (ofBit r)]
  | .vrsq d a r => [encX 0x3E 0x06 d a (ofBit r)]
  | .vexp2 d a r => [encX 0x3E 0x07 d a (ofBit r)]
  | .vlog2 d a r => [encX 0x3E 0x08 d a (ofBit r)]
  | .vsin d a r => [encX 0x3E 0x09 d a (ofBit r)]
  | .vcos d a r => [encX 0x3E 0x0A d a (ofBit r)]
  | .vact d a r => [encX 0x3E 0x0B d a (ofBit r)]
  | .vmov d a => [encX 0x3E 0x0C d a 0]
  | .vmovSpecial d n => [encX 0x3E 0x0C d n 1]
  | .vredadd d a r => [encX 0x3E 0x0D d a (ofBit r)]
  | .vredmin d a r => [encX 0x3E 0x0E d a (ofBit r)]
  | .vredmax d a r => [encX 0x3E 0x0F d a (ofBit r)]
  | .vredand d a r => [encX 0x3E 0x10 d a (ofBit r)]
  | .vredor d a r => [encX 0x3E 0x11 d a (ofBit r)]
  | .vredxor d a r => [encX 0x3E 0x12 d a (ofBit r)]
  | .vscan d a r => [encX 0x3E 0x13 d a (ofBit r)]
  | .vvoteany d a => [encX 0x3E 0x14 (d * 16) (a * 16) 0]
  | .vvoteall d a => [encX 0x3E 0x15 (d * 16) (a * 16) 0]
  | .vballot d p => [encX 0x3E 0x16 d (p * 16) 0]
  | .vmatch d a r => [encX 0x3E 0x17 d a (ofBit r)]
  | .vpack d a r => [encX 0x3E 0x18 d a (ofBit r)]
  | .vunpk d a r => [encX 0x3E 0x19 d a (ofBit r)]
  | .vrand d => [encX 0x3E 0x1A d 0 0]
  | .pand d a b => [encX 0x3E 0x1B (d * 16 + a) (b * 16) 0]
  | .por d a b => [encX 0x3E 0x1C (d * 16 + a) (b * 16) 0]
  | .pxor d a b => [encX 0x3E 0x1D (d * 16 + a) (b * 16) 0]
  | .pnot d a => [encX 0x3E 0x1E (d * 16 + a) 0 0]
  | .pmov d a => [encX 0x3E 0x1F (d * 16 + a) 0 0]
  | .ppack d a n => [encX 0x3E 0x20 d (a * 16 + (n - 1)) 0]
  | .punpk d n a => [encX 0x3E 0x21 (d * 16 + (n - 1)) a 0]
  | .ptos d a => [encX 0x3E 0x22 d (a * 16) 0]
  | .pset d a => [encX 0x3E 0x23 (d * 16) a 0]
  | .vlane d a => [encX 0x3E 0x24 d a 0]
  | .nop => [encX 0x3F 0x00 0 0 0]
  | .exit => [encX 0x3F 0x01 0 0 0]
  | .yield => [encX 0x3F 0x02 0 0 0]
  | .trap i => [major 0x3F (0x03 * 2 ^ 17 + i * 2)]
  | .bkpt i => [major 0x3F (0x04 * 2 ^ 17 + i * 2)]
  | .eret => [encX 0x3F 0x05 0 0 0]
  | .bar => [encX 0x3F 0x06 0 0 0]
  | .cbar => [encX 0x3F 0x07 0 0 0]
  | .fence s o => [encX 0x3F 0x08 s.code o.code 0]
  | .rfence a s b o => [encX 0x3F 0x09 (a * 8 + s.code) (b * 8 + o.code) 0]
  | .sleep i => [major 0x3F (0x0A * 2 ^ 17 + i * 2)]
  | .pref a l i => [encX 0x3F 0x0B (a * 8 + l.code) (unsigned 8 i) 0]
  | .variableLatencyResult .. | .instructionReplay .. | .accessFlagService .. | .pageWalk .. | .warpPromotion ..
  | .sleepExpiry .. | .spawnStallRetry .. | .spawnTimerExpiry .. | .spawnedWarpStart .. | .barRelease ..
  | .cbarRelease .. | .afenceStallRetry .. | .tcopyStallRetry .. | .matrixQueueStallRetry ..
  | .asyncOperationComplete .. | .awaitReturn .. | .bwaitReturn .. | .tcopyYResume .. | .actldComplete ..
  | .qappendGrant .. | .qpopWake .. | .qdetOwnFree .. | .launchStallRetry .. | .collStallRetry .. | .collComplete ..
  | .warpRetire .. | .coreSplitChange .. | .teamDispatch .. | .preemptionOverrun .. | .teamSave .. | .txTimeout ..
  | .backoffExpiry .. | .irrevocabilityTokenGrant .. | .txendoTurn .. | .commitPhase1 .. | .commitPhase2 .. | .gets ..
  | .getm .. | .upg .. | .maskExtension .. | .putm .. | .putmm .. | .homeWrite .. | .mscFill .. | .data .. | .datam ..
  | .upgack .. | .putack .. | .inv .. | .recallS .. | .recallI .. | .recallP .. | .mergeRecall .. | .protocolAck ..
  | .push .. | .pushAck .. | .flitCrcError .. | .ucieReplay .. | .crossbarParityError .. | .uncorrectableError ..
  | .kernel .. | .wait .. | .signal .. | .windowCreate .. | .windowDestroy .. | .invalidate .. | .copy .. | .streamHalt ..
  | .addressMonitorWrite .. | .monitorPoll .. | .streamAging .. | .childGridStart .. | .gridComplete .. | .quantumEnd ..
  | .meeting .. | .waveStart .. | .powerMeasurement .. | .powerUp .. | .warmReset .. | .coldReset .. | .ctxwrite ..
  | .qwrite .. | .codereg .. | .codemod .. | .codedrop .. | .suspend .. | .resume .. | .faultanswerRetry ..
  | .faultanswerAbort .. | .evread .. | .evrelease .. | .logread .. | .reflash .. | .attest .. | .domain ..
  | .managementConnect .. | .rdmaWrite .. | .rdmaRead .. | .rdmaFetchAndAdd .. | .rdmaCompareAndSwap ..
  | .queuePairBroken .. | .linkUp .. | .linkDown .. | .kltRequest .. | .kltResponse .. | .kltAck .. | .kltNak ..
  | .kltCollective .. | .kltProbe .. | .kltResendTimeout .. | .peerLost .. | .reservedEncoding .. | .copyComplete ..
  | .firmwareHalt .. | .managementUnknownCode .. | .rdmaInvalidRequest .. => []

/-- The words of an instruction with its switch marker: bit 31 of the first word, or of the repeated word of a `REP` pair
(R67, R68). -/
def encode (i : Instr) (sw : Bool) : List Nat :=
  match i, encodeWords i with
  | .rep .., w :: b :: ws => w :: (b + ofBit sw * 2 ^ 31) :: ws
  | _, w :: ws => (w + ofBit sw * 2 ^ 31) :: ws
  | _, [] => []

/-- Whether an instruction has an encoding: every row but the events. -/
def Instr.isEncoded (i : Instr) : Bool := !(encodeWords i).isEmpty

end Sys2Proof
end

