-- ==== Sys2Proof/Machine/State.lean ====
section
/-! DEFINITION. The state of the package as plain data: lanes, warps, teams, cores, dies, launches, contexts, host and fabric; the reasons a step can stop; and the state at power-up. -/

namespace Sys2Proof.Machine

/-- A finite map: pairs of key and value, keys strictly rising. Where a map has a default, no entry holds it. -/
abbrev Tab (α : Type) := List (Nat × α)

/-- Why the machine stops. -/
inductive Fault where
  /-- Raised by the meaning of every encoded instruction when no warp holds the issue slot: an instruction is executed by a
  warp only (R13). Safe: no run reaches it, since `step` executes an encoded instruction only for the warp it fetched for. -/
  | noWarp
  deriving DecidableEq, Repr

/-- Why an instruction has no meaning in the model. -/
inductive Refusal where
  /-- Raised by an arm of `exec` whose meaning is not written. Safe. -/
  | notModelled (mnemonic : String)
  deriving DecidableEq, Repr

/-! ### Lanes -/

/-- A read entry of a transaction log (Table 14.2): the sector, its version and epoch, and in value mode the bytes read and
the copy. -/
structure ReadEntry where
  sect : Nat
  ver : BitVec 40
  epoch : Nat
  rmask : BitVec 32
  copy : List Byte
  deriving DecidableEq, Repr

/-- A write entry of a log (Table 14.2); a thread's log in deterministic mode holds the same entries (R388). -/
structure WriteEntry where
  sect : Nat
  wmask : BitVec 32
  data : List Byte
  deriving DecidableEq, Repr

/-- A lane's open transaction (R292 to R299): its kind and mode, the cause and code that doomed it, the clock of its opening, its logs,
the sectors that an irrevocable lane has locked and written (R307), and the pages of its logged stores (R401). -/
structure Tx where
  ordered : Bool
  irrevocable : Bool
  doomed : Option (Nat × Nat)
  opened : Nat
  reads : List ReadEntry
  writes : List WriteEntry
  locked : List Nat
  written : List Nat
  pages : List Nat
  deriving DecidableEq, Repr

/-- What a parked lane recorded (R160). -/
structure Parked where
  cause : BitVec 8
  pc : DWord
  addr : DWord
  deriving DecidableEq, Repr

/-- A lane of a warp (R13): its vector registers (default 0), its counters and its transaction. `aborts` is the n of R306; COUNT of `%txstat` is its saturated value (R309). -/
structure Lane where
  v : Tab Word
  drawc : BitVec 31
  srdraw : BitVec 31
  iter : DWord
  txCause : BitVec 8
  txCode : BitVec 8
  aborts : Nat
  tx : Option Tx
  parked : Option Parked
  slalom : Option DWord
  storeLog : List WriteEntry
  deriving DecidableEq, Repr

/-! ### Warps -/

/-- An entry of the divergence stack (R27). -/
structure StackEntry where
  pc : DWord
  mask : Mask
  rpc : DWord
  deriving DecidableEq, Repr

/-- A reuse latch: the register name as encoded and a copy of the whole register (R25). -/
structure Latch where
  reg : Nat
  vals : List Word
  deriving DecidableEq, Repr

/-- One write of a variable-latency result (R23). -/
inductive RegWrite where
  | vec (lane reg : Nat) (val : Word)
  | scal (reg : Nat) (val : DWord)
  | pred (reg lane : Nat) (val : Bool)
  | pairs (bytes : List Byte)
  deriving DecidableEq, Repr

/-- A melded stretch: the predicate that `MELD.ON` chose and whether an instruction of the stretch has written it (R35). -/
structure Stretch where
  pred : Nat
  wrote : Bool
  deriving DecidableEq, Repr

/-- The hidden trap state of handler entry (R165). -/
structure Handler where
  mode : BitVec 16
  resume : Mask
  depth : Nat
  meld : Option Stretch
  path : Mask
  deriving DecidableEq, Repr

/-- The region record's contents (R40), taken at the region's entry. -/
structure RegionRecord where
  s : List DWord
  v : List (Tab Word)
  p : List Mask
  mode : BitVec 16
  live : Mask
  active : Mask
  stack : List StackEntry
  drawc : List (BitVec 31)
  srdraw : List (BitVec 31)
  fpctl : DWord
  pairs : List Byte
  deriving DecidableEq, Repr

/-- The current region of a warp (R36 to R41, Tables 1.3 and 3.4). -/
structure Region where
  entry : DWord
  kind : RegionKind
  retries : Nat
  noback : Bool
  value : Bool
  scalars : BitVec 32
  vbase : Nat
  vcount : Nat
  preds : BitVec 12
  acclive : Bool
  tainted : Bool
  record : RegionRecord
  deriving DecidableEq, Repr

/-- The restart point of open transactions (R292, R302). -/
structure Restart where
  entry : DWord
  depth : Nat
  mode : BitVec 16
  lanes : Mask
  joined : Bool
  deriving DecidableEq, Repr

/-- A lane's part of a commit in progress (R303): its sectors, and whether it is still passing. -/
structure CommitLane where
  lane : Nat
  passing : Bool
  deriving DecidableEq, Repr

/-- A `TXEND` or `TXENDO` between its phases (R302, R303, R313): the lanes committing and aborted so far (with their causes),
the slices still to do in the phase, the phase (0 the locks and 1 the validation of phase 1, 2 phase 2, 3 the count of an ordered commit that has to wait), the commit time once phase 1
has ended, and the NEXTCOMMIT that the commit found. -/
structure Commit where
  ordered : Bool
  phase : Nat
  lanes : List CommitLane
  aborted : List (Nat × Nat)
  undecided : List Nat
  slices : List Nat
  time : Nat
  next : Nat
  deriving DecidableEq, Repr

/-- What a stalled or waiting warp waits for (R44); `retry` holds for every instruction that stalls before taking effect. -/
inductive Wait where
  | retry (i : Instr)
  | translation (ctx va : Nat) (k : AccessKind) (serviced : Bool)
  | sleep (deadline : Nat)
  | backoff (deadline : Nat)
  | token
  | bar
  | cbar
  | await (d n : Nat)
  | bwait (d off : Nat) (q : Bool)
  | tcopyY (batch : Nat) (cont : DWord)
  | append (i : Instr) (core q n : Nat)
  | pop (i : Instr)
  | freeQueue (q : Nat)
  | turn (ordered : Bool)
  | commit
  | pushes
  | remote
  | meeting (pending : Option Instr)
  deriving DecidableEq, Repr

/-- The state of R44: ready, waiting, stopped for pre-emption, or retired (its live mask empty) with its resources still held. -/
inductive Status where
  | ready
  | waiting (w : Wait)
  | stopped
  | retired
  deriving DecidableEq, Repr

/-- A closed batch (R208): its number, the operations in it that have not completed, and whether it was closed with none. -/
structure Batch where
  number : BitVec 16
  ops : List Nat
  empty : Bool
  deriving DecidableEq, Repr

/-- The kinds of message in the die network (R282). -/
inductive MsgKind where
  | gets | getm | upg | maskExt | putm | putmm | homeWrite
  | data | datam | upgack | putack
  | inv | recallS | recallI | recallP | mergeRecall
  | ack | push | pushAck
  deriving DecidableEq, Repr

/-- A store of a warp that has issued and is not yet performed (R332): the warp, its context and virtual address, and the bytes with their physical address. -/
structure WaitingStore where
  warp : Nat
  ctx : Nat
  va : Nat
  pa : Nat
  bytes : List Byte
  deriving DecidableEq, Repr

/-- A message: its kind, the core it comes from or goes to, its line and mask, its class and no-allocate bit. A home write carries its stores, data the line's sector versions. A
push names the pushing warp and context; an acknowledgement of a push says whether it was installed. The targets of a `GETS`, and of the data that answers it, name its core once a push
has satisfied it (R278). -/
structure Msg where
  kind : MsgKind
  core : Nat
  line : Nat
  mask : BitVec 128
  warp : Nat
  ctx : Nat
  targets : List Nat
  flag : Bool
  cls : CacheClass
  na : Bool
  vers : List (BitVec 40)
  data : List WaitingStore
  deriving DecidableEq, Repr

/-- A push of a line that its target has not acknowledged: the line, and the virtual addresses and sizes of the stores that the warp
made to it (R203, R267). -/
structure Push where
  line : Nat
  spans : List (Nat × Nat)
  deriving DecidableEq, Repr

/-- A pending child grid (R369): its packet, parent, depth, stream and context. -/
structure Child where
  packet : List Byte
  parent : Nat
  depth : Nat
  queue : Nat
  ctx : Nat
  deriving DecidableEq, Repr

/-- A warp (R13). `pages` are the pages, by an address and a kind, that the accesses of its instruction have met with faults to be served (R288). `repResume` says that an `ERET` has left `%repc` for the `REP` word at the PC, `repOpen` that this word has issued (R112, R113). The fields `det…` are what a warp of a deterministic launch holds for its commit: its logged bytes, the virtual addresses of those in global memory, and its pushes,
child grids and barrier arrivals (R345, R388, R391). -/
structure Warp where
  team : Nat
  warpid : Nat
  core : Nat
  quarter : Nat
  age : Nat
  idleSince : Nat
  promoted : Bool
  width : Nat
  pc : DWord
  prev : Option DWord
  live : Mask
  active : Mask
  s : List DWord
  p : List Mask
  mode : BitVec 16
  stack : List StackEntry
  pairs : List Byte
  meld : Option Stretch
  path : Mask
  lanes : List Lane
  fpctl : DWord
  repc : BitVec 7
  repResume : Bool
  repOpen : Bool
  gset : DWord
  gref : DWord
  batch : BitVec 16
  statusAcc : DWord
  tcause : BitVec 8
  taddr : DWord
  tlanes : Mask
  tlive : Mask
  trapc : DWord
  handler : Option Handler
  region : Region
  restart : Option Restart
  commit : Option Commit
  pending : List (List RegWrite)
  latches : List (Option Latch)
  openOps : List Nat
  batches : List Batch
  attached : BitVec 128
  status : Status
  pages : List (Nat × AccessKind)
  marker : Bool
  pushesOut : List Push
  segment : DWord
  count : Nat
  detWrites : Tab Byte
  detVas : Tab Nat
  detPushes : List (Msg × List (Nat × Nat))
  detChildren : List Child
  detArrivals : List (Nat × Nat)
  deriving DecidableEq, Repr

/-! ### Teams and cores -/

/-- A poisoned or sound activation bank (R242). -/
structure ActBank where
  lo : Word
  hi : Word
  scale : Word
  coeffs : List (Word × Word × Word)
  deriving DecidableEq, Repr

/-- A spawned thread waiting in a bin (R185, R312). -/
structure SpawnThread where
  args : List Word
  iter : DWord
  deriving DecidableEq, Repr

/-- A spawn bin or, once sealed, a pending warp (R185 to R187, R312). -/
structure SpawnBin where
  team : Nat
  entry : DWord
  slalom : Option DWord
  threads : List SpawnThread
  started : Nat
  deadline : Nat
  expired : Bool
  deriving DecidableEq, Repr

/-- Whether a team runs, is asked to stop (since which clock), has stopped with its wave at a meeting and waits to be saved (R394), is saved (R39, R371), or has been killed and
keeps its reservation until what its warps have issued has completed (R191). -/
inductive TeamStatus where
  | running
  | stopping (since : Nat)
  | halted
  | saved
  | killed
  deriving DecidableEq, Repr

/-- A resident or saved team. Shared memory (by byte) and accumulators (by 32-bit word) are maps with default 0; poison is a list of
64-bit words of shared memory and of accumulator words; `raced` holds the barrier objects of R213's undefined case. -/
structure Team where
  launch : Nat
  flat : Nat
  core : Nat
  status : TeamStatus
  shm : Tab Byte
  shmPoison : List Nat
  acc : Tab Word
  accPoison : List Nat
  banks : List ActBank
  active : Option Nat
  version : Nat
  draws : Tab (List (BitVec 31 × BitVec 31))
  barArrived : List Nat
  cbarArrived : List Nat
  raced : List Nat
  savedQueues : List (Nat × List Byte)
  savedBins : List SpawnBin
  savedSealed : List SpawnBin
  deriving DecidableEq, Repr

/-- A core's pool split in granules (R173). -/
structure Split where
  reg : Nat
  shm : Nat
  l1 : Nat
  log : Nat
  deriving DecidableEq, Repr

/-- A set of queue registers (Table 12.1) with its owner, the list of waiting appends (R255) and whether `QDET.own` frees it. -/
structure QueueRegs where
  owner : Option Nat
  base : Nat
  esize : Nat
  opened : Bool
  armed : Bool
  count : Nat
  head : Nat
  filled : Nat
  free : Nat
  prod : Nat
  requests : List Nat
  deriving DecidableEq, Repr

/-- A tile descriptor as read at issue (Table 10.1). -/
structure Tile where
  base : Nat
  m : Nat
  n : Nat
  pitch : Nat
  isF32 : Bool
  deriving DecidableEq, Repr

/-- One operand's half of a format block (Table 10.3). -/
structure OperandFormat where
  fmt : Nat
  blk : Nat
  scf : Nat
  reserved : Nat
  ld : Nat
  scale : Nat
  reserved2 : Nat
  deriving DecidableEq, Repr

/-- A format block as read at issue (Table 10.3). -/
structure FormatBlock where
  a : OperandFormat
  b : OperandFormat
  k : Nat
  perm : Nat
  plen : Nat
  gidx : Nat
  grows : Nat
  bar : Nat
  flags : Nat
  reserved : Nat
  deriving DecidableEq, Repr

/-- A tensor-copy descriptor as read at issue (Tables 9.6 and 9.7). -/
structure CopyDesc where
  src : Nat
  dst : Nat
  ctl : Nat
  reservedZero : Bool
  extents : List Nat
  strides : List Int
  deriving DecidableEq, Repr

/-- A collective descriptor as read at issue (Table 20.5). -/
structure CollDesc where
  op : Nat
  red : Nat
  typ : Nat
  root : Nat
  tag : Nat
  members : BitVec 64
  count : Nat
  src : Nat
  dst : Nat
  ctl : Nat
  reservedZero : Bool
  deriving DecidableEq, Repr

/-- What an engine operation does (R218, R233, R239 to R243). -/
inductive OpKind where
  | copy (d : CopyDesc)
  | mma (gather : Bool) (t : Tile) (a b : Nat) (f : FormatBlock) (sat : Bool)
  | accz (t : Tile)
  | accld (shm : Bool) (a : Nat) (t : Tile)
  | accst (shm : Bool) (a : Nat) (t : Tile)
  | accstR (d : Nat) (t : Tile)
  | rstat (d row : Nat) (t : Tile)
  | actld (shm : Bool) (a : Nat)
  /-- An operation that failed a check at issue and only reports (R227 order 3, R217). -/
  | failed (bits : Nat)
  deriving DecidableEq, Repr

/-- A write of an engine operation that a deterministic launch holds for a meeting (R390): shared at an offset, local at a physical address, or on another package, with its virtual
address, its bytes, whether they are poisoned, and its class and no-allocate bit. -/
structure HeldWrite where
  shm : Bool
  fab : Bool
  pkg : Nat
  pa : Nat
  va : Nat
  bytes : List Byte
  bad : Bool
  cls : CacheClass
  na : Bool
  deriving DecidableEq, Repr

/-- How far an engine operation has come (R223, R230 to R232, R341): its stage, the parts of the stage still to do, its status bits so far, the operand data that it has read with
the parts of it that are poisoned, and the writes that it holds. -/
structure Work where
  stage : Nat
  todo : List Nat
  bits : Nat
  got : Tab Nat
  bad : List Nat
  held : List HeldWrite
  deriving DecidableEq, Repr

/-- An engine operation: its issuing warp and core, what it does, its barrier object, whether it joins a batch, the physical registers
of each lane it writes (none for a lane it does not write), its place in the order of issue once it has entered its queue, whether it has finished (which differ from the issue
and the completion in a deterministic launch, R390), how far it has come once it has begun, the translation fault it waits for and whether that has been reported, and the pages whose faults
the host refused to serve. -/
structure EngineOp where
  warp : Nat
  team : Nat
  core : Nat
  kind : OpKind
  bar : Option Nat
  batched : Bool
  names : List (List Nat)
  issued : Option Nat
  done : Bool
  work : Option Work
  fault : Option (Nat × AccessKind × Bool)
  denied : List Nat
  deriving DecidableEq, Repr

/-- The states of an L1 line (R274). -/
inductive L1State where
  | s | m | mm | is | isI | im | sm | mi | mmWait
  deriving DecidableEq, Repr

/-- A line of an L1: its state, its written mask, the mask of the load that waits, the stores that wait for a grant, its sector versions, whether it was
installed by a push that nothing has touched (R263, R264), its place in the order of use, later is more recent (R193, Table 9.2), and the class that its requests carry (R199). -/
structure L1Line where
  st : L1State
  mask : BitVec 128
  want : BitVec 128
  waiting : List WaitingStore
  vers : List (BitVec 40)
  untouched : Bool
  used : Nat
  cls : CacheClass
  deriving DecidableEq, Repr

/-- A cached translation (Table 13.5): its context, its first page of 64 KiB, the pages it covers, and the leaf entry used at the
first page. -/
structure TlbEntry where
  ctx : Nat
  page : Nat
  pages : Nat
  leaf : DWord
  level : Nat
  deriving DecidableEq, Repr

/-- A quarter's issue state (R180, R181): its current warp, the count N, whether the current warp has yielded (R116), and the clock up to
which a lane-class instruction holds the lanes. -/
structure Quarter where
  current : Option Nat
  count : Nat
  yielded : Bool
  heldUntil : Nat
  deriving DecidableEq, Repr

/-- A core. -/
structure Core where
  split : Option Split
  draining : Bool
  next : Option Split
  bins : List SpawnBin
  sealed : List SpawnBin
  queues : List QueueRegs
  copyQueue : List Nat
  matrixQueue : List Nat
  actQueue : List Nat
  quarters : List Quarter
  l1 : Tab L1Line
  tlb : List TlbEntry
  deriving DecidableEq, Repr

/-! ### Dies: caches, coherence and translation -/

/-- A directory state (R275). -/
inductive DirState where
  | i | s | m | p
  deriving DecidableEq, Repr

/-- What a home does once every acknowledgement of a line has come (R273, R279): grant a copy, privatise the line, take it to I so that the
request that waits is served from there, leave its owner a sharer, or, after pushes, nothing more. -/
inductive HomeAction where
  | data (core : Nat)
  | datam (core : Nat)
  | upgack (core : Nat)
  | privatise (core : Nat) (mask : BitVec 128)
  | toI
  | toS
  | pushes
  deriving DecidableEq, Repr

/-- A directory entry (R275, R276): state, exact or coarse sharers, owner and holders with their masks, the contended flag, the
upgrade count and its window, and while the line is busy the cores awaited and the action to take. -/
structure DirEntry where
  st : DirState
  sharers : List Nat
  coarse : Option (BitVec 128)
  holders : List (Nat × BitVec 128)
  contended : Bool
  upgrades : Nat
  window : Nat
  awaiting : List Nat
  action : Option HomeAction
  deriving DecidableEq, Repr

/-- A line resident in the L2 (R271, R272, R350): its sector versions, its class, its place in the order of use, whether it has been written since its fill, and
whether the request that it was filled for has still to be served. -/
structure L2Line where
  vers : List (BitVec 40)
  cls : CacheClass
  used : Nat
  dirty : Bool
  fresh : Bool
  deriving DecidableEq, Repr

/-- The class of an MSC line (R350). -/
inductive MscClass where
  | cls (c : CacheClass)
  | pin
  deriving DecidableEq, Repr

/-- A line in the MSC (R349, R350): its class, its place in the order of use, and whether it holds bytes that the HBM4 does not. -/
structure MscLine where
  cls : MscClass
  used : Nat
  dirty : Bool
  deriving DecidableEq, Repr

/-- A line on its way from the MSC to its slice (R271, R273, R350): its class, whether a request waits for it, and whether bytes were written at the home meanwhile. -/
structure MscFill where
  line : Nat
  cls : CacheClass
  waits : Bool
  dirty : Bool
  deriving DecidableEq, Repr

/-- A slice's Lamport clock and floor (R272, R301). -/
structure Slice where
  clock : BitVec 40
  floor : BitVec 40
  deriving DecidableEq, Repr

/-- A lock on a sector (R303, R307): its warp, its lane, whether the lane is irrevocable, and whether phase 2 has begun. -/
structure Lock where
  warp : Nat
  lane : Nat
  irrevocable : Bool
  phase : Nat
  deriving DecidableEq, Repr

/-- A Saffron window (R351): its context, range, class, and the physical lines of its pages. -/
structure Window where
  ctx : Nat
  base : Nat
  length : Nat
  pin : Bool
  frames : List Nat
  deriving DecidableEq, Repr

/-- A translation fault in service (R289, Table 13.6). -/
structure FaultReport where
  va : Nat
  launch : Nat
  ctx : Nat
  kind : Nat
  level : Nat
  access : Nat
  core : Nat
  deriving DecidableEq, Repr

/-! ### Launches -/

/-- A fault record (Table 6.4). -/
structure FaultRecord where
  cause : BitVec 8
  nested : Bool
  laneClass : Bool
  noHandler : Bool
  dropped : Bool
  warp : Nat
  core : Nat
  mode : BitVec 16
  launch : Nat
  team : Nat
  trapc : DWord
  taddr : DWord
  tlanes : DWord
  tlive : DWord
  repc : BitVec 7
  deriving DecidableEq, Repr

/-- A kernel descriptor (Table 18.6). -/
structure KernelDesc where
  code : Nat
  entry : Nat
  trap : Nat
  regs : Nat
  split : Split
  teamX : Nat
  teamY : Nat
  teamZ : Nat
  acc : Nat
  timer : Nat
  flags : Nat
  live0 : Nat
  live1 : Nat
  reservedZero : Bool
  deriving DecidableEq, Repr

/-- A launch's progress. -/
inductive LaunchStatus where
  | running
  | aborted
  | cancelled
  | complete
  deriving DecidableEq, Repr

/-- A launch: the queue it came from or its parent, its packet, descriptor and argument block (Tables 17.4 and 18.6), the version of each code
region that it is bound to (R383), its progress, its fault record (R169), the pages that it wrote with the clock of the last write to each (R401), and in a deterministic
launch the team clusters of the present wave in the order of R393's list and the operations held for a meeting, in the order of issue (R387 to R394). -/
structure Launch where
  queue : Nat
  number : Nat
  ctx : Nat
  depth : Nat
  parent : Option Nat
  packet : List Byte
  desc : KernelDesc
  args : List Byte
  versions : Tab Nat
  perCore : Nat
  dispatched : Nat
  waveList : List Nat
  status : LaunchStatus
  record : Option FaultRecord
  pagesWritten : Tab Nat
  heldOps : List Nat
  deriving DecidableEq, Repr

/-- A context-table entry (Table 17.2) with its key generation (R409). -/
structure Context where
  root : Nat
  privBase : Nat
  privSize : Nat
  pinLim : Nat
  ceil : Nat
  enabled : Bool
  suspended : Bool
  sset : List (BitVec 16)
  pinned : Nat
  winBase : Nat
  generation : BitVec 24
  deriving DecidableEq, Repr

/-- What stands at a stream's head (R356 to R366): the packet read, the clock at which it became ready, as which launch its KERNEL
has started, and whether its WAIT watches its events. -/
structure Head where
  packet : List Byte
  since : Option Nat
  started : Option Nat
  waiting : Bool
  deriving DecidableEq, Repr

/-- A packet that has left the head and has not completed (R356, R358): its number and what it is. Of a COPY also the bytes that have moved, and its status once no more will; an
INVALIDATE waits for accesses (R290), those begun by its clock, and a packet with a `signal` for its completion event. -/
inductive InFlight where
  | launch (number id : Nat)
  | copy (number : Nat) (packet : List Byte) (moved : Nat) (status : Option Nat)
  | invalidate (number : Nat) (packet : List Byte) (since : Nat)
  | signal (number id : Nat)
  deriving DecidableEq, Repr

/-- What a completion event does next (R362): the fault record, STATUS, VALUE, and the end. -/
inductive SignalStage where
  | record
  | status
  | value
  | done
  deriving DecidableEq, Repr

/-- A completion event on its way (R362): its name, the queue whose packet it completes, its context and its address, which only a launch with a fault record may lack, the completing packet's KIND and code, what is added to VALUE, and
the fault record with its address. -/
structure Signal where
  id : Nat
  queue : Option Nat
  ctx : Nat
  va : Option Nat
  code : Nat
  kind : Nat
  add : Nat
  record : Option (Nat × List Byte)
  stage : SignalStage
  deriving DecidableEq, Repr

/-- A queue-table entry (Table 17.3) and the state of its stream; `lastDone` is the clock of the last completion of a packet, and `pages` are those that ended launches wrote whose packets
have not completed, with the clocks (R401). -/
structure Queue where
  ring : Nat
  size : Nat
  ctx : Nat
  cls : Nat
  enabled : Bool
  halted : Bool
  errcode : Nat
  tail : Nat
  head : Nat
  current : Option Head
  raised : Bool
  inFlight : List InFlight
  lastDone : Nat
  pages : Tab Nat
  deriving DecidableEq, Repr

/-- A code unit (R382): offset, size, budget and kind (1 function, 2 kernel). -/
structure CodeUnit where
  offset : Nat
  size : Nat
  regs : Nat
  kind : Nat
  deriving DecidableEq, Repr

/-- The frame of a page of a version (R382, R384): the physical page recorded by CODEREG, or a fresh copy made by CODEMOD. -/
inductive Frame where
  | physical (pa : Nat)
  | copied (bytes : Tab Byte)
  deriving DecidableEq, Repr

/-- A version of a code region. -/
structure CodeVersion where
  units : List CodeUnit
  frames : List Frame
  deriving DecidableEq, Repr

/-- A code region (R382): context, base, length, its versions by number, the current one, and whether CODEDROP has closed it. -/
structure CodeRegion where
  ctx : Nat
  base : Nat
  len : Nat
  versions : Tab CodeVersion
  current : Nat
  dropped : Bool
  deriving DecidableEq, Repr

/-! ### Host, fabric, reliability -/

/-- An event record (Table 19.4). -/
structure EventRecord where
  clock : Nat
  typ : Nat
  ctx : Nat
  core : Nat
  code : Nat
  launch : Nat
  data : Nat
  deriving DecidableEq, Repr

/-- What an uncorrectable-error report says of one stream (Table 19.3). -/
structure StreamReport where
  queue : Nat
  ctx : Nat
  oldest : Nat
  ranges : List (Nat × Nat)
  deriving DecidableEq, Repr

/-- A message to the host on the management queue (R411): the answer to a command, or an unsolicited message. -/
inductive HostMessage where
  | answer (code tag status : Nat) (payload : List Byte)
  | fault (r : FaultReport)
  | uncorrectable (clock die kind index : Nat) (streams : List StreamReport)
  | fabric (event peer : Nat)
  deriving DecidableEq, Repr

/-- An answer to an RDMA request (R408, R409). -/
inductive RdmaReply where
  | done (qp : Nat) (data : List Byte)
  | remoteAccessError (qp : Nat)
  | remoteOperationError (qp : Nat)
  | invalidRequest (qp : Nat)
  deriving DecidableEq, Repr

/-- What an RDMA request does (R408). -/
inductive RdmaOp where
  | write (bytes : List Byte)
  | read (size : Nat)
  | fetchAndAdd (add : Nat)
  | compareAndSwap (cmp swap : Nat)
  deriving DecidableEq, Repr

/-- An RDMA request on device memory (R408, R409): its queue pair, remote key and virtual address; `sent` says that the bytes of a write have been sent. -/
structure RdmaRequest where
  qp : Nat
  key : Nat
  va : Nat
  op : RdmaOp
  sent : Bool
  deriving DecidableEq, Repr

/-- The boot state (R405): not yet booted, verifying the image, running, or limited to reflash, event reads and attestation. -/
inductive Boot where
  | off
  | verifying
  | running
  | limited
  deriving DecidableEq, Repr

/-- What a numbered KLT frame carries (R413 to R415, R420). -/
inductive FrameBody where
  | request (op : RemoteOp)
  | response (data : List Byte) (bad : Bool)
  | collective (c : CollFrame)
  deriving DecidableEq, Repr

/-- A frame to a peer: its REQID, the line whose path it takes, and what it carries. -/
structure KltFrame where
  reqid : Nat
  line : Nat
  body : FrameBody
  deriving DecidableEq, Repr

/-- A KLT path to a peer (R414): up or not, since when not, the next SEQ to send and to accept, the frames sent and not acknowledged with
their SEQ, the clock of the last sending, and the consecutive re-sends. -/
structure Path where
  up : Bool
  downSince : Nat
  nextSeq : Nat
  ackSeq : Nat
  unacked : List (Nat × KltFrame)
  sentAt : Nat
  resends : Nat
  deriving DecidableEq, Repr

/-- An ACK or NAK sent to a peer on a path, with the next SEQ that is expected there (R413, R414). -/
structure ControlFrame where
  peer : Nat
  path : Nat
  nak : Bool
  ackseq : Nat
  deriving DecidableEq, Repr

/-- A management command that is answered later: a SUSPEND, or a CTXWRITE that clears ENABLE (R355, R373). -/
inductive PendingCommand where
  | suspend (tag ctx : Nat)
  | disable (tag ctx gen : Nat) (entry : List Byte)
  deriving DecidableEq, Repr

/-- Who sent a remote request: a warp, an engine operation, a collective or the front end. -/
inductive Requester where
  | warp (k : Nat)
  | op (n : Nat)
  | coll (n : Nat)
  | front
  deriving DecidableEq, Repr

/-- The answer to a remote load or atomic, kept until the asker's instruction or operation has used it (R415). `stale` says that the read-only copies of its address have been dropped
since it was asked for, so that no copy is made of it (R416). -/
structure Answer where
  who : Requester
  tag : Nat
  pkg : Nat
  op : RemoteOp
  data : List Byte
  bad : Bool
  va : Nat
  stale : Bool
  deriving DecidableEq, Repr

/-- A line of a read-only fabric page kept in the reader's L2 (R416). -/
structure RemoteCopy where
  pkg : Nat
  line : Nat
  ctx : Nat
  va : Nat
  data : List Byte
  deriving DecidableEq, Repr

/-- A remote request sent to a peer and not answered (R415): its REQID, what it asks, the asker with the
lane or element it asks for, the virtual address, and whether the read-only copies of that address have been dropped since (R416). -/
structure RemoteRequest where
  reqid : Nat
  op : RemoteOp
  who : Requester
  tag : Nat
  va : Nat
  stale : Bool
  deriving DecidableEq, Repr

/-- A peer package of the load-store domain (R412 to R415): the next REQID to it, the requests it has not answered, the REQIDs that
this package has performed for it, its paths by local port, and the frames that no live path carries. -/
structure Peer where
  member : Bool
  mac : Nat
  lost : Bool
  nextReq : Nat
  outstanding : List RemoteRequest
  performed : List Nat
  paths : List Path
  backlog : List KltFrame
  deriving DecidableEq, Repr

/-- A collective in flight (R417 to R420): its descriptor and matching number, its warp, team and context, its barrier object, the status
bits that it did not come by at work, how far it has come (`Coll.lean` says what its stages are), its place in the order of issue once issued and whether it has finished (which differ
from its instruction and its effects in a deterministic launch, R390), the translation fault it waits for and whether that has been reported, and the pages whose faults the host refused
to serve. -/
structure Collective where
  desc : CollDesc
  occurrence : Nat
  warp : Nat
  team : Nat
  ctx : Nat
  bar : Nat
  error : Nat
  work : Work
  issued : Option Nat
  done : Bool
  fault : Option (Nat × AccessKind × Bool)
  denied : List Nat
  deriving DecidableEq, Repr

/-- The whole package. `walkers` are the requests for translations, as cluster, context and page, in the order in which they came (R288). Fields after `nextId` are the model's own. -/
structure State where
  warps : Tab Warp
  teams : Tab Team
  cores : Tab Core
  mem : List Host.Cell
  poison : List Nat
  l2 : Tab L2Line
  msc : Tab MscLine
  mscFills : List MscFill
  dirs : Tab DirEntry
  slices : Tab Slice
  locks : Tab Lock
  net : List Msg
  arrived : List Msg
  clusterTlb : Tab (List TlbEntry)
  walkCache : Tab (List TlbEntry)
  walkers : List (Nat × Nat × Nat)
  windows : Tab Window
  token : Option (Nat × Nat)
  tokenQueue : List (Nat × Nat)
  clock : Nat
  launches : Tab Launch
  children : List Child
  contexts : Tab Context
  queues : Tab Queue
  roundRobin : List Nat
  nextLaunch : Nat
  watched : List (Nat × Nat)
  signals : List Signal
  code : List CodeRegion
  ops : Tab EngineOp
  faults : Tab FaultReport
  outbox : List HostMessage
  rdma : List RdmaReply
  rdmaPending : List RdmaRequest
  brokenPairs : List Nat
  mgmtUp : Bool
  command : Option PendingCommand
  boot : Boot
  flash : Option (List Byte)
  image : Option (List Byte)
  decodeTables : List Byte
  ports : List Bool
  packageId : Option Nat
  members : BitVec 64
  priorities : Nat × Nat
  peers : Tab Peer
  collectives : Tab Collective
  collFrames : List CollFrame
  collCounts : List ((Nat × Nat × BitVec 64) × Nat)
  readOnlyCopies : List RemoteCopy
  answers : List Answer
  control : List ControlFrame
  rings : Tab (List EventRecord)
  frozen : Bool
  islands : Tab Nat
  nextId : Nat
  agenda : List Instr
  turn : Option Nat
  tick : Nat
  deriving DecidableEq, Repr

/-- The package at power-up: the boot ROM has not run (R405), no context is enabled, no launch exists; every table is empty, so
that each entry reads as its reset value. What the spec leaves open is named in the assumption log. -/
def State.reset : State where
  warps := []
  teams := []
  cores := []
  mem := []
  poison := []
  l2 := []
  msc := []
  mscFills := []
  dirs := []
  slices := []
  locks := []
  net := []
  arrived := []
  clusterTlb := []
  walkCache := []
  walkers := []
  windows := []
  token := none
  tokenQueue := []
  clock := 0
  launches := []
  children := []
  contexts := []
  queues := []
  roundRobin := [0, 0, 0, 0]
  nextLaunch := 1
  watched := []
  signals := []
  code := []
  ops := []
  faults := []
  outbox := []
  rdma := []
  rdmaPending := []
  brokenPairs := []
  mgmtUp := false
  command := none
  boot := .off
  flash := none
  image := none
  decodeTables := []
  ports := List.replicate 8 false
  packageId := none
  members := 0
  priorities := (0, 0)
  peers := []
  collectives := []
  collFrames := []
  collCounts := []
  readOnlyCopies := []
  answers := []
  control := []
  rings := []
  frozen := false
  islands := []
  nextId := 0
  agenda := []
  turn := none
  tick := 0

end Sys2Proof.Machine
end

