-- ==== Sys2Proof/Machine/Sparse.lean ====
section
/-! DEFINITION. Operations on the model's plain data: sorted maps, lists by index, lane masks, and the byte and bit fields of words. -/

namespace Sys2Proof.Machine

/-- The entry of a key. -/
def tabFind {α : Type} : Tab α → Nat → Option α
  | [], _ => none
  | (j, x) :: r, k => if j == k then some x else if k < j then none else tabFind r k

/-- The entry of a key, or the default. -/
def tabGet {α : Type} (t : Tab α) (k : Nat) (d : α) : α := (tabFind t k).getD d

/-- The map with a key's entry replaced or inserted in order. -/
def tabSet {α : Type} : Tab α → Nat → α → Tab α
  | [], k, x => [(k, x)]
  | (j, y) :: r, k, x => if j == k then (k, x) :: r else if k < j then (k, x) :: (j, y) :: r else (j, y) :: tabSet r k x

/-- The map without a key's entry. -/
def tabDel {α : Type} : Tab α → Nat → Tab α
  | [], _ => []
  | (j, y) :: r, k => if j == k then r else if k < j then (j, y) :: r else (j, y) :: tabDel r k

/-- The map with a key's value written: no entry ever holds the default. -/
def tabPut {α : Type} [DecidableEq α] (t : Tab α) (d : α) (k : Nat) (x : α) : Tab α :=
  if x = d then tabDel t k else tabSet t k x

/-- Keys strictly rising above `lo`. -/
def tabRising {α : Type} : Option Nat → Tab α → Bool
  | _, [] => true
  | none, (k, _) :: r => tabRising (some k) r
  | some j, (k, _) :: r => decide (j < k) && tabRising (some k) r

/-- The canonical form of a map with a default: keys strictly rising and no entry equal to the default. -/
def tabWf {α : Type} [DecidableEq α] (d : α) (t : Tab α) : Bool := tabRising none t && t.all fun e => decide (e.2 ≠ d)

/-- A list element by index, or the default. -/
def nth {α : Type} : List α → Nat → α → α
  | [], _, d => d
  | x :: _, 0, _ => x
  | _ :: r, n + 1, d => nth r n d

/-- A list with the element at an index replaced. -/
def setNth {α : Type} : List α → Nat → α → List α
  | [], _, _ => []
  | _ :: r, 0, x => x :: r
  | y :: r, n + 1, x => y :: setNth r n x

/-- The numbers 0 to n − 1. -/
def upto (n : Nat) : List Nat := List.range n

/-- A mask's bit for a lane. -/
def inMask (m : Mask) (l : Nat) : Bool := m.getLsbD l

/-- The mask of one lane. -/
def laneBit (l : Nat) : Mask := BitVec.ofNat 64 (2 ^ l)

/-- The mask with one lane's bit set to `b`. -/
def setBit (m : Mask) (l : Nat) (b : Bool) : Mask := if b then m ||| laneBit l else m &&& ~~~(laneBit l)

/-- The lanes of a mask in ascending order, below a width. -/
def lanesOf (width : Nat) (m : Mask) : List Nat := (upto width).filter (inMask m)

/-- The mask of a list of lanes. -/
def maskOf : List Nat → Mask
  | [] => 0
  | l :: r => laneBit l ||| maskOf r

/-- The mask of all lanes below a width. -/
def allLanes (width : Nat) : Mask := BitVec.ofNat 64 (2 ^ width - 1)

/-- The number of set bits among the low `n` bits. -/
def popcount : Nat → Nat → Nat
  | 0, _ => 0
  | n + 1, v => v % 2 + popcount n (v / 2)

/-- The lowest-numbered lane of a mask. -/
def lowestLane (width : Nat) (m : Mask) : Option Nat := (lanesOf width m).head?

/-- The number of leading zeros of a number of `n` bits. -/
def leadingZeros : Nat → Nat → Nat
  | 0, _ => 0
  | n + 1, v => if v / 2 ^ n % 2 == 1 then 0 else 1 + leadingZeros n v

/-- The integer a bit vector stands for under a sign choice. -/
def toIntBy (isSigned : Bool) {n : Nat} (x : BitVec n) : Int := if isSigned then x.toInt else (x.toNat : Int)

/-- A bit vector sign-extended or truncated to a 64-bit address (R70). -/
def sextAddr (i : Int) : DWord := BitVec.ofInt 64 i

/-- The number whose little-endian bytes are given (R5). -/
def natOfBytes : List Byte → Nat
  | [] => 0
  | b :: r => b.toNat + 256 * natOfBytes r

/-- The `n` bytes at offset `o` of a byte list, as a number; bytes beyond the end read 0. -/
def fieldAt (bs : List Byte) (o n : Nat) : Nat := natOfBytes ((bs.drop o).take n)

/-- Whether the bytes from offset `o` on, `n` of them, are all 0. -/
def zeroAt (bs : List Byte) (o n : Nat) : Bool := ((bs.drop o).take n).all fun b => b == 0

/-- The lexicographic order of lists of numbers. -/
def lexLt : List Nat → List Nat → Bool
  | [], [] => false
  | [], _ :: _ => true
  | _ :: _, [] => false
  | x :: r, y :: t => decide (x < y) || (x == y && lexLt r t)

/-- The first element of a list with the least key. -/
def minBy {α : Type} (key : α → List Nat) : List α → Option α
  | [] => none
  | x :: r => match minBy key r with
    | none => some x
    | some y => if lexLt (key y) (key x) then some y else some x

/-- A Boolean as a 64-bit value. -/
def boolD (b : Bool) : DWord := if b then 1 else 0

/-- Whether every element satisfies the check, stopping at the first error. -/
def forAllE {α ε : Type} (f : α → Except ε Unit) : List α → Except ε Unit
  | [] => .ok ()
  | x :: r => match f x with
    | .ok _ => forAllE f r
    | .error e => .error e

/-- A fold that may stop with an error. -/
def foldE {α β ε : Type} (f : β → α → Except ε β) : β → List α → Except ε β
  | b, [] => .ok b
  | b, x :: r => match f b x with
    | .ok b' => foldE f b' r
    | .error e => .error e

end Sys2Proof.Machine
end

