-- ==== Sys2Proof/Machine/Numeric.lean ====
section
/-! DEFINITION. Number formats and exact arithmetic: the values of every floating-point and tapered format, the rounding of an exact value into a format with its flags, and integer ranges (R45 to R59). -/

namespace Sys2Proof.Machine

/-- The floating-point and tapered element formats (Table 2.2, R49, R50). -/
inductive Fmt where
  | f32 | f16 | bf16 | e4m3 | e5m2 | e2m3 | e3m2 | e2m1 | t8 | t6
  deriving DecidableEq, Repr

/-- The rounding modes of Table 1.2; `sr` carries the random chunk (R55, R56). -/
inductive Rounding where
  | rne | rz | ru | rd | rna
  | sr (chunk : Nat)
  deriving DecidableEq, Repr

/-- The exception conditions of `%fpctl` in the order of its bits (R18). -/
structure Flags where
  invalid : Bool := false
  divZero : Bool := false
  overflow : Bool := false
  underflow : Bool := false
  inexact : Bool := false
  deriving DecidableEq, Repr

/-- No condition. -/
def noFlags : Flags := {}

/-- The invalid condition alone. -/
def invalidFlag : Flags := { invalid := true }

/-- The union of two sets of conditions (R59). -/
def Flags.or (a b : Flags) : Flags :=
  ⟨a.invalid || b.invalid, a.divZero || b.divZero, a.overflow || b.overflow, a.underflow || b.underflow, a.inexact || b.inexact⟩

/-- The conditions as the five bits of `%fpctl` (R18). -/
def Flags.bits (f : Flags) : Nat :=
  ofBit f.invalid + 2 * ofBit f.divZero + 4 * ofBit f.overflow + 8 * ofBit f.underflow + 16 * ofBit f.inexact

/-- A value: a NaN or NaV (signalling or not), an infinity, or `(−1)^neg × mag × 2^exp`. -/
inductive FNum where
  | nan (signalling : Bool)
  | inf (neg : Bool)
  | fin (neg : Bool) (mag : Nat) (exp : Int)
  deriving DecidableEq, Repr

/-- A real number given to any precision: `(−1)^neg × m × 2^exp` with `mag ≤ m < mag + 1`, and `m = mag` unless `sticky`. -/
structure Approx where
  neg : Bool
  mag : Nat
  exp : Int
  sticky : Bool
  deriving DecidableEq, Repr

/-- Fraction bits of an IEEE-like format (Table 2.2). -/
def Fmt.frac : Fmt → Nat
  | .f32 => 23 | .f16 => 10 | .bf16 => 7 | .e4m3 => 3 | .e5m2 => 2 | .e2m3 => 3 | .e3m2 => 2 | .e2m1 => 1
  | .t8 => 0 | .t6 => 0

/-- The exponent bias (Table 2.2). -/
def Fmt.bias : Fmt → Nat
  | .f32 => 127 | .f16 => 15 | .bf16 => 127 | .e4m3 => 7 | .e5m2 => 15 | .e2m3 => 1 | .e3m2 => 3 | .e2m1 => 1
  | .t8 => 0 | .t6 => 0

/-- The element width in bits (Table 2.1). -/
def Fmt.width : Fmt → Nat
  | .f32 => 32 | .f16 => 16 | .bf16 => 16 | .e4m3 => 8 | .e5m2 => 8 | .e2m3 => 6 | .e3m2 => 6 | .e2m1 => 4
  | .t8 => 8 | .t6 => 6

/-- The magnitude code of the largest finite value (Tables 2.2, 2.4, 2.5). -/
def Fmt.maxCode : Fmt → Nat
  | .f32 => 0x7F7FFFFF | .f16 => 0x7BFF | .bf16 => 0x7F7F | .e4m3 => 0x7E | .e5m2 => 0x7B | .e2m3 => 0x1F
  | .e3m2 => 0x1F | .e2m1 => 0x7 | .t8 => 0x7F | .t6 => 0x1F

/-- The canonical NaN, 0x7F, 0x7E or NaV (Table 2.2, R57); the formats without a NaN give +0 (Table 2.3). -/
def Fmt.nanCode : Fmt → Nat
  | .f32 => 0x7FC00000 | .f16 => 0x7E00 | .bf16 => 0x7FC0 | .e4m3 => 0x7F | .e5m2 => 0x7E | .e2m3 => 0 | .e3m2 => 0
  | .e2m1 => 0 | .t8 => 0x80 | .t6 => 0x20

/-- Whether the format has infinities (Table 2.2). -/
def Fmt.hasInf : Fmt → Bool
  | .f32 | .f16 | .bf16 | .e5m2 => true
  | _ => false

/-- Whether the format has a NaN or NaV encoding (Table 2.2, R49, R50). -/
def Fmt.hasNan : Fmt → Bool
  | .e2m3 | .e3m2 | .e2m1 => false
  | _ => true

/-- Whether the format is tapered (R49, R50). -/
def Fmt.tapered : Fmt → Bool
  | .t8 | .t6 => true
  | _ => false

/-- Whether FTZ acts on the format (R58). -/
def Fmt.flushes : Fmt → Bool
  | .f32 | .f16 | .bf16 | .e4m3 | .e5m2 => true
  | _ => false

/-- The sign bit of the format. -/
def Fmt.signBit (f : Fmt) : Nat := 2 ^ (f.width - 1)

/-- The length of the run of bits equal to `b` that starts at bit `n − 1` of a code of `n` bits. -/
def runLength (b : Bool) : Nat → Nat → Nat
  | 0, _ => 0
  | n + 1, c => if bit c n == b then 1 + runLength b n c else 0

/-- The magnitude of a tapered code of `n` magnitude bits, with `e` exponent bits (1 in T8, 0 in T6), as mantissa and exponent:
the four steps of R49 and R50. -/
def taperedMag (n e c : Nat) : Nat × Int :=
  let ones := bit c (n - 1)
  let k := runLength ones n c
  let r : Int := if ones then (k : Int) - 1 else -(k : Int)
  let rest := n - (k + 1)          -- bits left after the run and the bit that ends it
  let low := c % 2 ^ rest
  if e == 1 then
    if rest == 0 then (1, 2 * r)
    else (2 ^ (rest - 1) + low % 2 ^ (rest - 1), 2 * r + (low / 2 ^ (rest - 1) : Nat) - ((rest - 1 : Nat) : Int))
  else (2 ^ rest + low, r - (rest : Int))

/-- The value of a tapered magnitude code; code 0 is 0. -/
def Fmt.taperedValue (f : Fmt) (c : Nat) : Nat × Int :=
  if c == 0 then (0, 0) else match f with
  | .t8 => taperedMag 7 1 c
  | _ => taperedMag 5 0 c

/-- The value that a code of a format stands for (R47 to R50). -/
def Fmt.decode (f : Fmt) (code : Nat) : FNum :=
  let neg := code / f.signBit % 2 == 1
  let c := code % f.signBit
  if f.tapered then
    if c == 0 then (if neg then .nan false else .fin false 0 0)
    else .fin neg (f.taperedValue c).1 (f.taperedValue c).2
  else
    let e := c / 2 ^ f.frac
    let m := c % 2 ^ f.frac
    if f.hasInf && decide (f.maxCode < c) then
      if m == 0 then .inf neg
      else .nan ((f == .f32 || f == .f16 || f == .bf16) && decide (m < 2 ^ (f.frac - 1)))
    else if f == .e4m3 && decide (f.maxCode < c) then .nan false
    else if e == 0 then .fin neg m (1 - (f.bias : Int) - f.frac)
    else .fin neg (2 ^ f.frac + m) ((e : Int) - f.bias - f.frac)

/-- Whether a code is subnormal in a format that FTZ acts on: exponent field 0, fraction not 0. -/
def Fmt.subnormal (f : Fmt) (code : Nat) : Bool :=
  f.flushes && decide (0 < code % f.signBit) && decide (code % f.signBit < 2 ^ f.frac)

/-- The code with FTZ applied: a subnormal becomes the zero of its sign (R58). -/
def Fmt.flush (f : Fmt) (ftz : Bool) (code : Nat) : Nat :=
  if ftz && f.subnormal code then code / f.signBit % 2 * f.signBit else code

/-- An E8M0 scale code: 2^(e − 127), or NaN for 0xFF (R47). -/
def decodeE8M0 (code : Nat) : FNum := if code == 0xFF then .nan false else .fin false 1 ((code : Int) - 127)

/-- A magnitude `mag × 2^exp` cut at the quantum 2^q: how many quanta, and the remainder over its range. -/
def cutAt (mag : Nat) (exp q : Int) : Nat × Nat × Nat :=
  if q ≤ exp then (mag * 2 ^ (exp - q).toNat, 0, 1)
  else let d := 2 ^ (q - exp).toNat; (mag / d, mag % d, d)

/-- Whether a magnitude between `n` and `n + 1` quanta, with remainder `rem / d` (and something more if sticky), rounds up
(R55, R56). -/
def roundsUp (r : Rounding) (neg : Bool) (n rem d : Nat) (sticky : Bool) : Bool :=
  let inexact := rem != 0 || sticky
  match r with
  | .rz => false
  | .ru => !neg && inexact
  | .rd => neg && inexact
  | .rne => decide (d < 2 * rem) || (2 * rem == d && (sticky || n % 2 == 1))
  | .rna => decide (d ≤ 2 * rem)
  | .sr chunk => inexact && decide (2 ^ 16 ≤ rem * 2 ^ 16 / d + chunk)

/-- The exponent of the leading bit of `mag × 2^exp`, for `mag > 0`. -/
def leadExp (mag : Nat) (exp : Int) : Int := (Nat.log2 mag : Int) + exp

/-- The outcome of an overflow by destination, SAT and mode (Table 2.3): the magnitude code. Stochastic rounding treats overflow
as RNE does. -/
def Fmt.overflowCode (f : Fmt) (r : Rounding) (sat neg : Bool) : Nat :=
  if sat || f.tapered || !f.hasNan then f.maxCode
  else if f == .e4m3 then 0x7F
  else match r with
    | .rz => f.maxCode
    | .ru => if neg then f.maxCode else f.maxCode + 1
    | .rd => if neg then f.maxCode + 1 else f.maxCode
    | _ => f.maxCode + 1

/-- The code of an infinity in a format with infinities: one above the largest finite code of f32, f16, bf16 and E5M2. -/
def Fmt.infCode (f : Fmt) : Nat := f.maxCode + 1

/-- A code with its sign; T8 and T6 have no negative zero (R49). -/
def Fmt.signed (f : Fmt) (neg : Bool) (c : Nat) : Nat :=
  if f.tapered && c == 0 then 0 else if f == .e4m3 && c == 0x7F then c else ofBit neg * f.signBit + c

/-- Rounding of a non-zero magnitude into an IEEE-like format, exponent unbounded above: the magnitude code, whether it is
inexact, and whether it is tiny after rounding (R55, R59). -/
def Fmt.roundIeee (f : Fmt) (r : Rounding) (x : Approx) : Nat × Bool × Bool :=
  let emin : Int := 1 - (f.bias : Int)
  let qmin := emin - f.frac
  let lead := leadExp x.mag x.exp
  let q := max qmin (lead - f.frac)
  let (n, rem, d) := cutAt x.mag x.exp q
  let n' := n + ofBit (roundsUp r x.neg n rem d x.sticky)
  let (u, urem, ud) := cutAt x.mag x.exp (lead - f.frac)
  let u' := u + ofBit (roundsUp r x.neg u urem ud x.sticky)
  let tiny := decide (lead < emin) && !(lead == emin - 1 && decide (2 ^ (f.frac + 1) ≤ u'))
  ((q - qmin).toNat * 2 ^ f.frac + n', rem != 0 || x.sticky, tiny)

/-- The largest code not above `c` whose tapered magnitude is at most `mag × 2^exp`. -/
def Fmt.taperedFloor (f : Fmt) (mag : Nat) (exp : Int) : Nat → Nat
  | 0 => 0
  | c + 1 =>
    let (m, e) := f.taperedValue (c + 1)
    let lo := min e exp
    if m * 2 ^ (e - lo).toNat ≤ mag * 2 ^ (exp - lo).toNat then c + 1 else f.taperedFloor mag exp c

/-- Rounding of a non-zero magnitude into T8 or T6 (R51): the magnitude code and the flags. -/
def Fmt.roundTapered (f : Fmt) (r : Rounding) (x : Approx) : Nat × Flags :=
  let c := f.taperedFloor x.mag x.exp f.maxCode
  let (am, ae) := f.taperedValue c
  let (bm, be) := f.taperedValue (c + 1)
  let lo := min (min ae be) x.exp
  let a := am * 2 ^ (ae - lo).toNat
  let v := x.mag * 2 ^ (x.exp - lo).toNat
  if c == f.maxCode then
    if v == a && !x.sticky then (c, noFlags) else (c, { overflow := true, inexact := true })
  else
    let b := bm * 2 ^ (be - lo).toNat
    let inexact := v != a || x.sticky
    let up := match r with
      | .rne => if c == 0 then decide (b ≤ 2 * v)
          else decide (b - a < 2 * (v - a)) || (2 * (v - a) == b - a && (x.sticky || c % 2 == 1))
      | .rna => decide (b - a ≤ 2 * (v - a))
      | r => roundsUp r x.neg 0 (v - a) (b - a) x.sticky
    (c + ofBit up, { underflow := c == 0, inexact := inexact })

/-- Rounding a real number into a format (R48, R51, R55 to R59): the code and the flags. -/
def Fmt.round (f : Fmt) (r : Rounding) (sat ftz : Bool) (x : Approx) : Nat × Flags :=
  if x.mag == 0 && !x.sticky then (f.signed x.neg 0, noFlags)
  else if f.tapered then
    let (c, fl) := f.roundTapered r x
    (f.signed x.neg c, fl)
  else
    let (c, inexact, tiny) := f.roundIeee r x
    if f.maxCode < c then (f.signed x.neg (f.overflowCode r sat x.neg), { overflow := true, inexact := true })
    else
      let code := f.signed x.neg c
      if ftz && f.subnormal code then (f.signed x.neg 0, { underflow := true, inexact := true })
      else (code, { underflow := inexact && tiny, inexact := inexact })

/-- The code of an infinite value that a format is given as the result of an exact operation, where `input` says whether the
infinity is an input that the format may be unable to hold (Table 2.3, R48). -/
def Fmt.ofInf (f : Fmt) (sat neg : Bool) : Nat × Flags :=
  if f.hasInf && !sat then (f.signed neg f.infCode, noFlags)
  else if f == .e4m3 && !sat then (0x7F, invalidFlag)
  else (f.signed neg f.maxCode, { overflow := true, inexact := true })

/-- The code of a NaN input (Table 2.3, R48, R57). -/
def Fmt.ofNan (f : Fmt) (signalling : Bool) : Nat × Flags :=
  (f.nanCode, if f.hasNan then (if signalling then invalidFlag else noFlags) else invalidFlag)

/-- An exact finite value as a real number. -/
def exactly (neg : Bool) (mag : Nat) (exp : Int) : Approx := ⟨neg, mag, exp, false⟩

/-- A value delivered into a format (R48, R55). -/
def Fmt.deliver (f : Fmt) (r : Rounding) (sat ftz : Bool) : FNum → Nat × Flags
  | .nan s => f.ofNan s
  | .inf neg => f.ofInf sat neg
  | .fin neg mag exp => f.round r sat ftz (exactly neg mag exp)

/-- Whether a value is a NaN or NaV. -/
def FNum.isNan : FNum → Bool
  | .nan _ => true
  | _ => false

/-- Whether a value is a signalling NaN (R57). -/
def FNum.isSignalling : FNum → Bool
  | .nan s => s
  | _ => false

/-- A NaN made quiet, other values unchanged: what an operation passes on after it has raised invalid. -/
def FNum.quiet : FNum → FNum
  | .nan _ => .nan false
  | x => x

/-- The signed integer `(−1)^neg × mag`. -/
def signedMag (neg : Bool) (mag : Nat) : Int := if neg then -(mag : Int) else mag

/-- The negated value; a NaN stays. -/
def FNum.neg : FNum → FNum
  | .nan s => .nan s
  | .inf n => .inf (!n)
  | .fin n m e => .fin (!n) m e

/-- The exact sum of two values, with the invalid flag for ∞ − ∞; `down` says that an exact zero sum of opposite signs is −0
(rounding towards −∞). -/
def FNum.add (down : Bool) (a b : FNum) : FNum × Flags :=
  let fl : Flags := { invalid := a.isSignalling || b.isSignalling }
  match a, b with
  | .nan _, _ => (.nan false, fl)
  | _, .nan _ => (.nan false, fl)
  | .inf x, .inf y => if x == y then (.inf x, fl) else (.nan false, invalidFlag)
  | .inf x, .fin .. => (.inf x, fl)
  | .fin .., .inf y => (.inf y, fl)
  | .fin na ma ea, .fin nb mb eb =>
    let lo := min ea eb
    let s := signedMag na (ma * 2 ^ (ea - lo).toNat) + signedMag nb (mb * 2 ^ (eb - lo).toNat)
    if s == 0 then (.fin (if na == nb then na else down) 0 lo, fl)
    else (.fin (decide (s < 0)) s.natAbs lo, fl)

/-- The exact product of two values, with the invalid flag for 0 × ∞. -/
def FNum.mul (a b : FNum) : FNum × Flags :=
  let fl : Flags := { invalid := a.isSignalling || b.isSignalling }
  match a, b with
  | .nan _, _ => (.nan false, fl)
  | _, .nan _ => (.nan false, fl)
  | .inf x, .inf y => (.inf (x != y), fl)
  | .inf x, .fin n m _ => if m == 0 then (.nan false, invalidFlag) else (.inf (x != n), fl)
  | .fin n m _, .inf y => if m == 0 then (.nan false, invalidFlag) else (.inf (n != y), fl)
  | .fin na ma ea, .fin nb mb eb => (.fin (na != nb) (ma * mb) (ea + eb), fl)

/-- The order of two values that are not NaN; the zeros compare equal. -/
def FNum.cmp (a b : FNum) : Ordering :=
  match a, b with
  | .inf x, .inf y => if x == y then .eq else if x then .lt else .gt
  | .inf x, _ => if x then .lt else .gt
  | _, .inf y => if y then .gt else .lt
  | .fin na ma ea, .fin nb mb eb =>
    let lo := min ea eb
    compare (signedMag na (ma * 2 ^ (ea - lo).toNat)) (signedMag nb (mb * 2 ^ (eb - lo).toNat))
  | _, _ => .eq

/-- Whether the first value is the one that minimum returns: NaN wins, −0 lies below +0 (R57). -/
def FNum.minIsLeft (a b : FNum) : Bool :=
  if a.isNan then true else if b.isNan then false
  else match a.cmp b with
    | .lt => true
    | .gt => false
    | .eq => match a with
      | .fin n _ _ => n
      | _ => true

/-- Whether the first value is the one that maximum returns (R57). -/
def FNum.maxIsLeft (a b : FNum) : Bool :=
  if a.isNan then true else if b.isNan then false
  else match a.cmp b with
    | .gt => true
    | .lt => false
    | .eq => match b with
      | .fin n _ _ => n
      | _ => true

/-- The least value of an integer type (R53). -/
def intMin (isSigned : Bool) (w : Nat) : Int := if isSigned then -((2 ^ (w - 1) : Nat) : Int) else 0

/-- The greatest value of an integer type (R53). -/
def intMax (isSigned : Bool) (w : Nat) : Int := if isSigned then ((2 ^ (w - 1) : Nat) : Int) - 1 else ((2 ^ w : Nat) : Int) - 1

/-- An integer brought into the range of `w` bits: clamped with SAT = 1, wrapped with SAT = 0 (R53). The result is the element's
bit pattern. -/
def fitInt (isSigned : Bool) (w : Nat) (sat : Bool) (i : Int) : Nat :=
  let j := if sat then max (intMin isSigned w) (min (intMax isSigned w) i) else i
  (j % ((2 ^ w : Nat) : Int)).toNat

/-- A value rounded to an integer by the mode and clamped to the destination's range (R54): its bit pattern and flags. -/
def numToInt (isSigned : Bool) (w : Nat) (r : Rounding) : FNum → Nat × Flags
  | .nan _ => (0, invalidFlag)
  | .inf neg => (fitInt isSigned w true (if neg then intMin true 65 else intMax true 65), invalidFlag)
  | .fin neg mag exp =>
    let (n, rem, d) := cutAt mag exp 0
    let i := signedMag neg (n + ofBit (roundsUp r neg n rem d false))
    let clamps := decide (i < intMin isSigned w) || decide (intMax isSigned w < i)
    (fitInt isSigned w true i, if clamps then invalidFlag else { inexact := rem != 0 })

end Sys2Proof.Machine
end

