-- ==== Sys2Proof/Machine/Special.lean ====
section
/-! DEFINITION. The special functions of Table 5.4 as real numbers to 448 bits, the activation function of R140, and the Philox generator of R396. -/

namespace Sys2Proof.Machine

/-- The fraction bits of the fixed-point numbers used here. -/
def fixBits : Nat := 448

/-- 2^448: one, in fixed point. -/
def fixOne : Nat := 2 ^ fixBits

/-- ⌊2π × 2^448⌋. -/
def fixTwoPi : Nat := 4566862393183311545136586385275626325979010364403615240910923007294927348704183561896165620001627500923357439693279426958231691379384762

/-- ⌊ln 2 × 2^448⌋. -/
def fixLn2 : Nat := 503806212467287336944962318911413164331589999686332526750892113008874715004345470044877937781258350830018788825857087812047298226561348

/-- The product of two fixed-point numbers, rounded down. -/
def fixMul (a b : Nat) : Nat := a * b / fixOne

/-- The sum of the terms `t × xⁱ / (k+1)…(k+i)` of an exponential series, `fuel` of them. -/
def expSeries (x : Nat) : Nat → Nat → Nat → Nat
  | 0, _, _ => 0
  | fuel + 1, k, t => t + expSeries x fuel (k + 1) (fixMul t x / (k + 1))

/-- The alternating series with terms `t`, `t × x² / (k+1)(k+2)`, … : sine from `t = x, k = 1`, cosine from `t = 1, k = 0`. -/
def alternating (x2 : Nat) : Nat → Nat → Nat → Int
  | 0, _, _ => 0
  | fuel + 1, k, t => (t : Int) - alternating x2 fuel (k + 2) (fixMul t x2 / ((k + 1) * (k + 2)))

/-- The series of the inverse hyperbolic tangent: `z + z³/3 + z⁵/5 + …`. -/
def atanhSeries (z2 : Nat) : Nat → Nat → Nat → Nat
  | 0, _, _ => 0
  | fuel + 1, k, t => t / k + atanhSeries z2 fuel (k + 2) (fixMul t z2)

/-- The integer square root, found bit by bit from bit `n − 1` down. -/
def isqrt (x : Nat) : Nat → Nat → Nat
  | 0, r => r
  | n + 1, r => let c := r + 2 ^ n; isqrt x n (if c * c ≤ x then c else r)

/-- The outcome of a special function: a value that needs no rounding, or a real number to be rounded. -/
inductive SpecialValue where
  | exact (v : FNum) (fl : Flags)
  | approx (a : Approx)
  deriving DecidableEq, Repr

/-- 1 / x (Table 5.4). -/
def rcp : FNum → SpecialValue
  | .nan s => .exact (.nan s) noFlags
  | .inf n => .exact (.fin n 0 0) noFlags
  | .fin n m e =>
    if m == 0 then .exact (.inf n) { divZero := true }
    else .approx ⟨n, 2 ^ 192 / m, -192 - e, 2 ^ 192 % m != 0⟩

/-- 1 / √x (Table 5.4). -/
def rsq : FNum → SpecialValue
  | .nan s => .exact (.nan s) noFlags
  | .inf n => if n then .exact (.nan false) invalidFlag else .exact (.fin false 0 0) noFlags
  | .fin n m e =>
    if m == 0 then .exact (.inf n) { divZero := true }
    else if n then .exact (.nan false) invalidFlag
    else
      let m' := if e % 2 == 0 then m else 2 * m
      let e' := if e % 2 == 0 then e else e - 1
      let r := isqrt (2 ^ 256 / m') 129 0
      .approx ⟨false, r, -128 - e' / 2, r * r * m' != 2 ^ 256⟩

/-- 2^x (Table 5.4). A magnitude beyond 2^15 stands for a result beyond every format. -/
def exp2 : FNum → SpecialValue
  | .nan s => .exact (.nan s) noFlags
  | .inf n => if n then .exact (.fin false 0 0) noFlags else .exact (.inf false) noFlags
  | .fin n m e =>
    if m == 0 then .exact (.fin false 1 0) noFlags
    else if 15 < leadExp m e then .approx ⟨false, 1, if n then -100000 else 100000, true⟩
    else
      let x : Int := signedMag n (if 0 ≤ e + fixBits then m * 2 ^ (e + fixBits).toNat else m / 2 ^ (-(e + fixBits)).toNat)
      let whole := x / fixOne
      let frac := (x % fixOne).toNat
      if frac == 0 then .approx ⟨false, 1, whole, false⟩
      else .approx ⟨false, expSeries (fixMul frac fixLn2) 110 0 fixOne, whole - fixBits, true⟩

/-- log₂ x (Table 5.4). -/
def log2 : FNum → SpecialValue
  | .nan s => .exact (.nan s) noFlags
  | .inf n => if n then .exact (.nan false) invalidFlag else .exact (.inf false) noFlags
  | .fin n m e =>
    if m == 0 then .exact (.inf true) { divZero := true }
    else if n then .exact (.nan false) invalidFlag
    else
      let lead := leadExp m e
      let k := Nat.log2 m
      if m == 2 ^ k then .approx ⟨decide (lead < 0), lead.natAbs, 0, false⟩
      else
        let z := (m - 2 ^ k) * fixOne / (m + 2 ^ k)
        let frac := 2 * atanhSeries (fixMul z z) 150 1 z * fixOne / fixLn2
        if 0 ≤ lead then .approx ⟨false, lead.toNat * fixOne + frac, -(fixBits : Int), true⟩
        else .approx ⟨true, (-lead).toNat * fixOne - frac - 1, -(fixBits : Int), true⟩

/-- The sine and cosine of 2π·t for `t` at most an eighth of a turn, in fixed point. -/
def sinTurn (t : Nat) : Nat := let x := fixMul t fixTwoPi; (alternating (fixMul x x) 60 1 x).toNat
/-- The cosine of a fraction of a turn, in fixed point. -/
def cosTurn (t : Nat) : Nat := let x := fixMul t fixTwoPi; (alternating (fixMul x x) 60 0 fixOne).toNat

/-- The fraction of a turn of a finite argument, in fixed point; every element's argument has its lowest bit above 2^−448. -/
def turnFrac (m : Nat) (e : Int) : Nat :=
  (if 0 ≤ e + fixBits then m * 2 ^ (e + fixBits).toNat else m / 2 ^ (-(e + fixBits)).toNat) % fixOne

/-- |sin(2π·t)| and its sign for a fraction of a turn that is no multiple of a quarter: reduced to an eighth of a turn. -/
def sinFrac (t : Nat) : Bool × Nat :=
  let half := fixOne / 2
  let neg := decide (half < t)
  let u := if half < t then t - half else t                    -- (0, 1/2)
  let q := if fixOne / 4 < u then half - u else u              -- (0, 1/4)
  (neg, if fixOne / 8 < q then cosTurn (fixOne / 4 - q) else sinTurn q)

/-- sin(2π·x) (Table 5.4). -/
def sinValue : FNum → SpecialValue
  | .nan s => .exact (.nan s) noFlags
  | .inf _ => .exact (.nan false) invalidFlag
  | .fin n m e =>
    let t := turnFrac m e
    if t % (fixOne / 2) == 0 then .exact (.fin n 0 0) noFlags
    else if t == fixOne / 4 then .approx ⟨n, 1, 0, false⟩
    else if t == 3 * (fixOne / 4) then .approx ⟨!n, 1, 0, false⟩
    else let (neg, v) := sinFrac t; .approx ⟨n != neg, v, -(fixBits : Int), true⟩

/-- cos(2π·x) (Table 5.4): the sine a quarter turn on. -/
def cosValue : FNum → SpecialValue
  | .nan s => .exact (.nan s) noFlags
  | .inf _ => .exact (.nan false) invalidFlag
  | .fin _ m e =>
    let t := (turnFrac m e + fixOne / 4) % fixOne
    if t % (fixOne / 2) == 0 then .exact (.fin false 0 0) noFlags
    else if t == fixOne / 4 then .approx ⟨false, 1, 0, false⟩
    else if t == 3 * (fixOne / 4) then .approx ⟨true, 1, 0, false⟩
    else let (neg, v) := sinFrac t; .approx ⟨neg, v, -(fixBits : Int), true⟩

/-- A special value delivered into a format (R139). The infinity of a division by zero is delivered as any infinite value: under SAT = 1 it becomes Max and raises
overflow and inexact beside divide-by-zero. DEDUCED: Table 5.4 names the infinity, and R48 speaks of overflows and infinite inputs only (log entry 107). -/
def SpecialValue.deliver (f : Fmt) (r : Rounding) (sat ftz : Bool) : SpecialValue → Nat × Flags
  | .exact v fl => let (c, g) := f.deliver r sat ftz v; (c, fl.or g)
  | .approx a => f.round r sat ftz a

/-- A value rounded to f32 by RNE, keeping subnormals and dropping flags: the intermediates of R140. -/
def rneF32 (v : FNum) : FNum := Fmt.f32.decode (Fmt.f32.deliver .rne false false v).1

/-- Minimum of two values that are not NaN. -/
def FNum.min' (a b : FNum) : FNum := if a.minIsLeft b then a else b

/-- Maximum of two values that are not NaN. -/
def FNum.max' (a b : FNum) : FNum := if a.maxIsLeft b then a else b

/-- min(255, ⌊x⌋) of a value, 0 for a negative value or a NaN (R140). -/
def segmentOf : FNum → Nat
  | .nan _ => 0
  | .inf n => if n then 0 else 255
  | .fin n m e => if n then 0 else min 255 (cutAt m e 0).1

/-- The activation function of R140 on one element, before its final rounding: with no bank, +0. `down` says that ROUND rounds the final sum towards −∞, so
that an exact zero sum of opposite signs is −0. -/
def activate (bank : Option ActBank) (down : Bool) (x : FNum) : FNum × Flags :=
  if x.isNan then (x.quiet, { invalid := x.isSignalling })
  else match bank with
  | none => (.fin false 0 0, noFlags)
  | some b =>
    let lo := Fmt.f32.decode b.lo.toNat
    let hi := Fmt.f32.decode b.hi.toNat
    let xc := ((rneF32 x).max' lo).min' hi
    let d := rneF32 (xc.add false lo.neg).1
    let sg := segmentOf (rneF32 (d.mul (Fmt.f32.decode b.scale.toNat)).1)
    let (c0, c1, c2) := nth b.coeffs sg (0, 0, 0)
    let u := rneF32 ((xc.mul (Fmt.f32.decode c2.toNat)).1.add false (Fmt.f32.decode c1.toNat)).1
    let (p, f1) := xc.mul u
    let (r, f2) := p.add down (Fmt.f32.decode c0.toNat)
    (r, f1.or f2)

/-- One round of Philox-4×32 (R396). -/
def philoxRound (c : Nat × Nat × Nat × Nat) (k0 k1 : Nat) : Nat × Nat × Nat × Nat :=
  let p0 := 0xD2511F53 * c.1
  let p1 := 0xCD9E8D57 * c.2.2.1
  let w := 2 ^ 32
  (Nat.xor (Nat.xor (p1 / w) c.2.1) k0 % w, p1 % w, Nat.xor (Nat.xor (p0 / w) c.2.2.2) k1 % w, p0 % w)

/-- `n` rounds with the key schedule of R396. -/
def philoxRounds : Nat → Nat × Nat × Nat × Nat → Nat → Nat → Nat × Nat × Nat × Nat
  | 0, c, _, _ => c
  | n + 1, c, k0, k1 => philoxRounds n (philoxRound c k0 k1) ((k0 + 0x9E3779B9) % 2 ^ 32) ((k1 + 0xBB67AE85) % 2 ^ 32)

/-- The four words of a draw for a seed and a counter (R396, Table 19.1). -/
def philox (seed c0 c1 c2 c3 : Nat) : List Nat :=
  let r := philoxRounds 10 (c0 % 2 ^ 32, c1 % 2 ^ 32, c2 % 2 ^ 32, c3 % 2 ^ 32) (seed % 2 ^ 32) (seed / 2 ^ 32 % 2 ^ 32)
  [r.1, r.2.1, r.2.2.1, r.2.2.2]

/-- The eight 16-bit chunks of a draw, chunk 0 first (R56). -/
def chunksOf : List Nat → List Nat
  | [] => []
  | w :: r => w % 65536 :: w / 65536 % 65536 :: chunksOf r

end Sys2Proof.Machine
end

