-- ==== Sys2Proof/Machine/Flags.lean ====
section
/-! DEFINITION. The mode register's fields (Table 1.2), the element types' shapes (Table 2.1), and the flags and draws of a vector instruction (R18, R55, R56, R59, R123). -/

namespace Sys2Proof

/-- Whether the type is a 64-bit register pair (R46). -/
def ElemType.is64 : ElemType → Bool
  | .i64 | .n64 => true
  | _ => false

/-- Elements per word, or per pair (Table 2.1). -/
def ElemType.count : ElemType → Nat
  | .i32 | .n32 | .f32 | .i64 | .n64 => 1
  | .i16x2 | .n16x2 | .f16x2 | .bf16x2 => 2
  | .i8x4 | .n8x4 | .e4m3x4 | .e5m2x4 | .t8x4 => 4
  | .t6x5 | .e2m3x5 | .e3m2x5 => 5
  | .e2m1x8 | .i4x8 => 8

/-- Element bits (Table 2.1). -/
def ElemType.width : ElemType → Nat
  | .i32 | .n32 | .f32 => 32
  | .i64 | .n64 => 64
  | .i16x2 | .n16x2 | .f16x2 | .bf16x2 => 16
  | .i8x4 | .n8x4 | .e4m3x4 | .e5m2x4 | .t8x4 => 8
  | .t6x5 | .e2m3x5 | .e3m2x5 => 6
  | .e2m1x8 | .i4x8 => 4

/-- The floating-point or tapered format of an element, none for an integer type. -/
def ElemType.fmt? : ElemType → Option Machine.Fmt
  | .f32 => some .f32 | .f16x2 => some .f16 | .bf16x2 => some .bf16 | .e4m3x4 => some .e4m3 | .e5m2x4 => some .e5m2
  | .t8x4 => some .t8 | .t6x5 => some .t6 | .e2m3x5 => some .e2m3 | .e3m2x5 => some .e3m2 | .e2m1x8 => some .e2m1
  | _ => none

/-- Whether the type is an i type (R53). -/
def ElemType.isSigned : ElemType → Bool
  | .i32 | .i16x2 | .i8x4 | .i4x8 | .i64 => true
  | _ => false

/-- Type set I (Table 5.1). -/
def ElemType.inI (t : ElemType) : Bool := t.fmt?.isNone

/-- Type set F (Table 5.1). -/
def ElemType.inF : ElemType → Bool
  | .f32 | .f16x2 | .bf16x2 => true
  | _ => false

/-- Type set N (Table 5.1). -/
def ElemType.inN (t : ElemType) : Bool := t.inI || t.inF

/-- Type set S (Table 5.1). -/
def ElemType.inS (t : ElemType) : Bool := t.isSigned || t.inF

/-- Type set D (Table 5.1). -/
def ElemType.inD : ElemType → Bool
  | .i32 | .n32 | .f32 | .i64 | .n64 => false
  | _ => true

/-- Type set K (Table 5.1). -/
def ElemType.inK : ElemType → Bool
  | .i32 | .n32 | .f32 | .i64 | .n64 => true
  | _ => false

/-- The types of `VMAD`: 0 to 8 and 16 (Table 5.2). -/
def ElemType.inMad (t : ElemType) : Bool := t.inN && !t.is64

/-- The elements of a packed word or pair, element 0 first (R45). -/
def ElemType.split (t : ElemType) (v : Nat) : List Nat :=
  (List.range t.count).map fun j => v / 2 ^ (t.width * j) % 2 ^ t.width

/-- The packed word or pair of a list of elements, element 0 first; missing elements are 0 (R45, R46). -/
def ElemType.join (t : ElemType) : List Nat → Nat
  | [] => 0
  | x :: r => x % 2 ^ t.width + 2 ^ t.width * t.join r

/-- The registers of a typed operand (R46). -/
def ElemType.span (t : ElemType) (n : Nat) : List Nat := if t.is64 then [n, n + 1] else [n]

namespace Machine

/-- The mode register's TYPE (Table 1.2, R20). -/
def Warp.typ (w : Warp) : ElemType := (elemType? (bits w.mode.toNat 9 5)).getD .i32

/-- The mode register's FTZ. -/
def Warp.ftz (w : Warp) : Bool := w.mode.getLsbD 14

/-- The mode register's SAT. -/
def Warp.sat (w : Warp) : Bool := w.mode.getLsbD 13

/-- The mode register's ROUND. -/
def Warp.roundCode (w : Warp) : Nat := bits w.mode.toNat 12 10

/-- The mode register's SENSE. -/
def Warp.sense (w : Warp) : Bool := w.mode.getLsbD 4

/-- The mode register's GUARD. -/
def Warp.guardCode (w : Warp) : Nat := bits w.mode.toNat 3 0

/-- Whether a value may stand in the mode register (R20): no reserved GUARD, TYPE, ROUND and bit 15 clear. -/
def modeOk (m : BitVec 16) : Bool :=
  bits m.toNat 3 0 != 13 && bits m.toNat 3 0 != 14 && decide (bits m.toNat 9 5 < 19) && decide (bits m.toNat 12 10 < 6)
    && !m.getLsbD 15

/-- A directed or nearest rounding mode by its code; 5 with the chunk of a draw (R55, R56). -/
def roundingOf (code chunk : Nat) : Rounding :=
  match code with
  | 0 => .rne
  | 1 => .rz
  | 2 => .ru
  | 3 => .rd
  | 4 => .rna
  | _ => .sr chunk

/-- Whether an exact zero sum of opposite signs is −0: rounding towards −∞ (R55, IEEE 754). -/
def Rounding.isDown : Rounding → Bool
  | .rd => true
  | _ => false

/-- The exceptions that `%fpctl` enables among raised ones (R18). -/
def enabledOf (fpctl : DWord) (f : Flags) : Bool := Nat.land (bits fpctl.toNat 4 0) f.bits != 0

/-- `%fpctl` with the sticky flags of raised exceptions set (R18). -/
def raiseFlags (fpctl : DWord) (f : Flags) : DWord := fpctl ||| BitVec.ofNat 64 (f.bits * 256)

end Machine

end Sys2Proof
end

