-- ==== Sys2Proof/Machine/Operands.lean ====
section
/-! DEFINITION. The operand forms of warp instructions: what an instruction sees of its launch, team and core; why it cannot take effect; lanes, masks and the guard; vector, scalar and predicate registers; spans, latches and reuse marks; the issue checks of Table 3.8; and the loop over executing lanes. -/

namespace Sys2Proof.Machine

/-- What an instruction reads of its launch, team and core (Tables 1.1 and 17.4). -/
structure Env where
  budget : Nat
  base : Nat
  top : Nat
  seg : Nat
  width : Nat
  spill : DWord
  clock : Nat
  core : Nat
  team : Nat × Nat × Nat
  dim : Nat
  launch : Nat
  depth : Nat
  flat : Nat
  seed : Nat
  bank : Option ActBank
  det : Bool
  shm : Nat
  ctx : Nat
  rlog : Nat
  wlog : Nat
  val : Bool
  cluster : Nat
  rank : Nat
  meeting : Bool
  deriving DecidableEq, Repr

/-- Why an instruction does not take effect as described. -/
inductive Stop where
  /-- A warp-class trap: cause, `%taddr`, `%tlanes` (R164). -/
  | trap (cause : Nat) (addr : DWord) (lanes : Mask)
  /-- A warp-class trap that dooms no lane: cause, `%taddr`, `%tlanes` (R302, R308). -/
  | raised (cause : Nat) (addr : DWord) (lanes : Mask)
  /-- The instruction is a point of R161 and lanes are parked. -/
  | parked
  /-- A lane-class fault of a scalar access, charged to the lowest live lane (R97): cause and address. -/
  | charged (cause : Nat) (addr : DWord)
  /-- A serviceable translation fault (R162, R289). -/
  | translation (ctx va : Nat) (k : AccessKind)
  /-- A launch abort with a cause and an address, with no handler (R162, R163). -/
  | abort (cause : Nat) (addr : DWord)
  /-- A remote access that must be answered first: lane, package, operation, virtual address (R415). -/
  | remote (tag pkg : Nat) (op : RemoteOp) (va : Nat)
  /-- The warp waits, without effect. -/
  | wait (w : Wait)
  deriving DecidableEq, Repr

/-- The rest of an instruction's effect unless a check fails. -/
def stopIf {α : Type} (bad : Bool) (e : Stop) (k : Except Stop α) : Except Stop α := if bad then .error e else k

/-- `%stklim` (R150). -/
def Env.stklim (env : Env) : Nat := env.base + 256

/-- Whether a store enters the thread's log: a deterministic launch outside a meeting (R388). -/
def Env.logs (env : Env) : Bool := env.det && !env.meeting

/-- An instruction that ends a deterministic warp's quantum is performed at the meeting (R389). -/
def Env.atMeeting {α : Type} (env : Env) (i : Instr) (k : Except Stop α) : Except Stop α :=
  if env.logs then .error (.wait (.meeting (some i))) else k

/-! ### Lanes and masks -/

/-- A lane at warp start, before its inputs are placed (R19). -/
def Lane.start : Lane where
  v := []
  drawc := 0
  srdraw := 0
  iter := 0
  txCause := 0
  txCode := 0
  aborts := 0
  tx := none
  parked := none
  slalom := none
  storeLog := []

/-- A lane by number. -/
def Warp.lane (w : Warp) (l : Nat) : Lane := nth w.lanes l Lane.start

/-- The warp with one lane replaced. -/
def Warp.setLane (w : Warp) (l : Nat) (x : Lane) : Warp := { w with lanes := setNth w.lanes l x }

/-- Whether the lane has an open transaction that is doomed (R298). -/
def Lane.isDoomed (x : Lane) : Bool := match x.tx with
  | some t => t.doomed.isSome
  | none => false

/-- Whether the lane has an open speculative transaction (R292). -/
def Lane.speculative (x : Lane) : Bool := match x.tx with
  | some t => !t.irrevocable
  | none => false

/-- The mask of the lanes that satisfy a test. -/
def Warp.maskWhere (w : Warp) (f : Lane → Bool) : Mask := maskOf ((upto w.width).filter fun l => f (w.lane l))

/-- The doomed lanes. -/
def Warp.doomed (w : Warp) : Mask := w.maskWhere Lane.isDoomed

/-- The parked lanes (R160). -/
def Warp.parked (w : Warp) : Mask := w.maskWhere fun x => x.parked.isSome

/-- Whether any lane has an open transaction (Table 14.1). -/
def Warp.anyTx (w : Warp) : Bool := (upto w.width).any fun l => (w.lane l).tx.isSome

/-- A predicate register. -/
def Warp.pred (w : Warp) (n : Nat) : Mask := nth w.p n 0

/-- The lanes whose guard bit equals SENSE (R21); with GUARD = 15 every lane. -/
def Warp.guarded (w : Warp) : Mask :=
  if w.guardCode == 15 then allLanes w.width
  else
    let g := if w.guardCode == 12 then w.path else w.pred w.guardCode
    if w.sense then g else ~~~g

/-- The lanes that execute a vector instruction (R15, R21, R298). -/
def Warp.executing (w : Warp) : Mask := w.active &&& w.guarded &&& ~~~w.doomed

/-- The lowest-numbered live lane (R97). -/
def Warp.lowestLive (w : Warp) : Nat := (lowestLane w.width w.live).getD 0

/-! ### Registers -/

/-- The physical register of a name in a lane: looked up in the Pairs table for v224 to v255 inside a melded stretch (R35). -/
def Warp.phys (w : Warp) (l n : Nat) : Nat :=
  if w.meld.isSome && decide (224 ≤ n) && decide (n < 256) then
    (nth w.pairs (n - 224 + (if inMask w.path l then 32 else 0)) 0).toNat
  else n

/-- A vector register of a lane. -/
def Warp.reg (w : Warp) (l n : Nat) : Word := tabGet (w.lane l).v (w.phys l n) 0

/-- A lane with one physical register written. -/
def Lane.put (x : Lane) (n : Nat) (val : Word) : Lane := { x with v := tabPut x.v 0 n val }

/-- A typed operand of a lane: a word, or the pair n:n+1 under the 64-bit types (R46). -/
def Warp.val (w : Warp) (t : ElemType) (l n : Nat) : Nat :=
  if t.is64 then (w.reg l n).toNat + 2 ^ 32 * (w.reg l (n + 1)).toNat else (w.reg l n).toNat

/-- A lane with a typed destination written. -/
def Warp.putVal (w : Warp) (t : ElemType) (l n : Nat) (x : Lane) (val : Nat) : Lane :=
  let x' := x.put (w.phys l n) (BitVec.ofNat 32 val)
  if t.is64 then x'.put (w.phys l (n + 1)) (BitVec.ofNat 32 (val / 2 ^ 32)) else x'

/-- A scalar register (R17). -/
def Warp.scal (w : Warp) (n : Nat) : DWord := nth w.s n 0

/-- The warp with a scalar register written. -/
def Warp.setScal (w : Warp) (n : Nat) (val : DWord) : Warp := { w with s := setNth w.s n val }

/-- The warp with a predicate register written; inside a stretch the write is noted for R35. -/
def Warp.setPred (w : Warp) (n : Nat) (m : Mask) : Warp :=
  { w with
    p := setNth w.p n m
    meld := w.meld.map fun st => { st with wrote := st.wrote || n == st.pred } }

/-- A predicate with the bits of some lanes replaced (R17). -/
def mergeMask (lanes old new : Mask) : Mask := (old &&& ~~~lanes) ||| (new &&& lanes)

/-- The scalar that U = 1 broadcasts: its low word, or all 64 bits under the 64-bit types (R71). -/
def Warp.broadcast (w : Warp) (t : ElemType) (n : Nat) : Nat :=
  if t.is64 then (w.scal n).toNat else (w.scal n).toNat % 2 ^ 32

/-! ### Reuse latches -/

/-- The valid latch with a tag, the one filled last where both match (R25). -/
def Warp.latchOf (w : Warp) (n : Nat) : Option Latch :=
  (w.latches.filterMap id).find? fun x => x.reg == n

/-- A second source register of a lane: through a latch that holds it, else from the file (R25). -/
def Warp.latched (w : Warp) (l n : Nat) : Word :=
  match w.latchOf n with
  | some x => nth x.vals l 0
  | none => w.reg l n

/-- The second source of a format A word in a lane (R25, R71). Under the 64-bit types a latch supplies the low word. -/
def Warp.second (w : Warp) (t : ElemType) (l : Nat) : SrcB → Nat
  | .s n => w.broadcast t n
  | .v n => if t.is64 then (w.latched l n).toNat + 2 ^ 32 * (w.reg l (n + 1)).toNat else (w.latched l n).toNat

/-- Both latches cleared. -/
def Warp.clearLatches (w : Warp) : Warp := { w with latches := [none, none] }

/-- The latches whose tag is among the destinations cleared (R25). -/
def Warp.dropLatches (w : Warp) (dests : List Nat) : Warp :=
  { w with latches := w.latches.map fun o => o.bind fun x => if dests.contains x.reg then none else some x }

/-- The marked register, read at issue from `w0`, placed in the latch filled least recently (R25, R79). -/
def Warp.fillLatch (w w0 : Warp) (n : Nat) : Warp :=
  { w with latches := [some ⟨n, (upto w.width).map fun l => w0.reg l n⟩, nth w.latches 0 none] }

/-! ### Issue checks -/

/-- Whether a vector register name is valid: below the budget, or a virtual name inside a stretch (R16, R35). -/
def Warp.nameOk (w : Warp) (env : Env) (n : Nat) : Bool :=
  decide (n < env.budget) || (w.meld.isSome && decide (224 ≤ n) && decide (n < 256))

/-- The trap of a check, with the active mask in `%tlanes` (R118, R171). -/
def Warp.trap (w : Warp) (cause : Nat) : Stop := .trap cause 0 w.active

/-- Check 2 of Table 3.8: the TYPE is accepted and no 64-bit operand names an odd register (R46, R120). -/
def Warp.typeCheck {α : Type} (w : Warp) (ok : ElemType → Bool) (operands : List Nat) (k : Except Stop α) : Except Stop α :=
  stopIf (!ok w.typ || (w.typ.is64 && operands.any fun n => n % 2 == 1)) (w.trap 0x01) k

/-- Check 6 of Table 3.8: every register name is valid (R16). -/
def Warp.rangeCheck {α : Type} (w : Warp) (env : Env) (names : List Nat) (k : Except Stop α) : Except Stop α :=
  stopIf (names.any fun n => !w.nameOk env n) (w.trap 0x05) k

/-- Check 4 of Table 3.8, and the handler's entry for parked lanes, which comes before every check (R32, R161). -/
def Warp.converged {α : Type} (w : Warp) (k : Except Stop α) : Except Stop α :=
  stopIf (w.active != w.live) (w.trap 0x02) k

/-- The point of R161 that a collective instruction, a barrier or `EXIT` is. -/
def Warp.point {α : Type} (w : Warp) (k : Except Stop α) : Except Stop α := stopIf (w.parked != 0) .parked k

/-- The registers that a format A second source names under a type. -/
def namesOf (t : ElemType) : SrcB → List Nat
  | .v n => t.span n
  | .s _ => []

/-- The register that a format A second source must have even under a 64-bit type. -/
def operandOf : SrcB → List Nat
  | .v n => [n]
  | .s _ => []

/-! ### The loop over lanes -/

/-- What one executing lane ends with: its new contents and the exceptions it raises, or the cause and address of a lane-class
fault. -/
abbrev LaneResult := Except (Nat × DWord) (Lane × Flags)

/-- The lane after a lane-class fault: a speculative lane is doomed with cause fault (R299), and one that is doomed already keeps its cause, since it raises nothing
(R298); any other parks (R160). -/
def Lane.fault (x : Lane) (pc : DWord) (cause : Nat) (addr : DWord) : Lane :=
  if x.speculative then { x with tx := x.tx.map fun t => { t with doomed := t.doomed.orElse fun _ => some (7, 0) } }
  else { x with parked := some ⟨BitVec.ofNat 8 cause, pc, addr⟩ }

/-- A lane's result applied: its flags become sticky, and an enabled one is the lane fault 0x0A (R18, R123). -/
def applyLane (w : Warp) (l : Nat) (r : LaneResult) : Warp :=
  match r with
  | .ok (x, fl) =>
    let w1 := { w with fpctl := raiseFlags w.fpctl fl }
    if enabledOf w.fpctl fl then faulted w1 0x0A 0 else w1.setLane l x
  | .error (cause, addr) => faulted w cause addr
where
  /-- The warp with the lane doomed, or parked and out of the active mask. -/
  faulted (w : Warp) (cause : Nat) (addr : DWord) : Warp :=
    let w1 := w.setLane l ((w.lane l).fault w.pc cause addr)
    if (w.lane l).speculative then w1 else { w1 with active := setBit w1.active l false }

/-- The lanes of a list run in turn; every lane's function has read its sources from the warp at issue. -/
def runLanes (f : Nat → LaneResult) : List Nat → Warp → Warp
  | [], w => w
  | l :: r, w => runLanes f r (applyLane w l (f l))

/-- Each lane of a mask acts, lowest first (R122). -/
def Warp.eachLane (w : Warp) (m : Mask) (f : Nat → LaneResult) : Warp := runLanes f (lanesOf w.width m) w

/-! ### Rounding draws -/

/-- The counter word c2 of a lane's draws (Table 19.1). -/
def Warp.drawLane (w : Warp) (l : Nat) : Nat := w.warpid * w.width + l

/-- The chunks of the draw that a lane takes for rounding (R56, R396). -/
def Warp.chunks (w : Warp) (env : Env) (l : Nat) : List Nat :=
  chunksOf (philox env.seed env.launch env.flat (w.drawLane l) (2 ^ 31 + (w.lane l).srdraw.toNat))

/-- The rounding of element `j` of a lane's result (R55, R56). -/
def Warp.rounding (w : Warp) (env : Env) (l : Nat) : Nat → Rounding :=
  if w.roundCode == 5 then
    let cs := w.chunks env l
    fun j => .sr (nth cs j 0)
  else fun _ => roundingOf w.roundCode 0

/-- Each executing lane's `%srdraw` counted on, where the instruction draws (R56). -/
def Warp.takeDraws (w : Warp) (draws : Bool) : Warp :=
  if draws && w.roundCode == 5 then
    let m := w.executing
    { w with lanes := (upto w.lanes.length).map fun l =>
        let x := w.lane l
        if inMask m l then { x with srdraw := x.srdraw + 1 } else x }
  else w

/-! ### Pending results -/

/-- One write of a variable-latency result made (R23). -/
def RegWrite.apply (w : Warp) : RegWrite → Warp
  | .vec l n x => w.setLane l ((w.lane l).put n x)
  | .scal n x => w.setScal n x
  | .pred n l b => w.setPred n (setBit (w.pred n) l b)
  | .pairs bs => { w with pairs := bs }

/-- Writes made in order. -/
def Warp.applyAll (w : Warp) (rs : List RegWrite) : Warp := rs.foldl RegWrite.apply w

/-- A marker wait: every pending result written and both latches cleared (R22, R25). -/
def Warp.drain (w : Warp) : Warp := { w.applyAll w.pending.flatten with pending := [], latches := [none, none] }

/-- The warp with a variable-latency result pending. -/
def Warp.defer (w : Warp) (rs : List RegWrite) : Warp :=
  if rs.isEmpty then w else { w with pending := w.pending ++ [rs] }

/-- The vector registers `names` of the lanes of `m` that have not parked or been doomed in `done`, as one result (R23, R160). -/
def Warp.vecWrites (done : Warp) (m : Mask) (names : List Nat) : List RegWrite :=
  (lanesOf done.width (m &&& done.active &&& ~~~done.doomed)).flatMap fun l =>
    names.map fun n => .vec l (done.phys l n) (done.reg l n)

/-- The variable-latency form of an instruction that turns `w` into `done`: the destinations named keep their old values and
the new ones become a pending result (R23). -/
def Warp.later (w : Warp) (m : Mask) (names : List Nat) (done : Warp) : Warp :=
  ({ done with lanes := (upto done.lanes.length).map fun l => { done.lane l with v := (w.lane l).v } }).defer
    (done.vecWrites m names)

/-- Where the warp goes on after an instruction: past its words, at a named word, or at the same word (R69, R112, R385). -/
inductive Next where
  | after (len : Nat)
  | jump (pc : DWord)
  | stay
  deriving DecidableEq, Repr

/-- At a marker the warp waits for every result it has issued (R22, R68). -/
def Warp.markerWait (w : Warp) : Warp := if w.marker then { w.drain with marker := false } else w

/-- The end of an instruction: the PC moves on and the marker, if any, takes effect. -/
def Warp.finish (w : Warp) : Next → Warp
  | .after len => ({ w with prev := some w.pc, pc := w.pc + BitVec.ofNat 64 len }).markerWait
  | .jump a => ({ w with prev := none, pc := a }).markerWait
  | .stay => w

end Sys2Proof.Machine
end

