-- ==== Sys2Proof/Machine/Bytes.lean ====
section
/-! DEFINITION. Bytes and poison of physical memory (R5, R270, R399). -/

namespace Sys2Proof.Machine

/-! ### Physical memory -/

/-- A byte of local physical memory; a byte that nothing has written reads as 0. -/
def State.byte (s : State) (a : Nat) : Byte := tabGet s.mem a 0

/-- The `n` bytes from an address on. -/
def State.bytesAt (s : State) (a n : Nat) : List Byte := (upto n).map fun i => s.byte (a + i)

/-- Bytes written to a map of bytes from a key on, in the map's canonical form. -/
def putBytes : Tab Byte → Nat → List Byte → Tab Byte
  | m, _, [] => m
  | m, a, b :: r => putBytes (tabPut m 0 a b) (a + 1) r

/-- The canonical form of memory: addresses strictly rising and no entry equal to 0, which an unlisted address reads as. -/
def Memory.wf (m : List Host.Cell) : Bool := tabWf (0 : Byte) m

/-- A number as `n` little-endian bytes (R5). -/
def leBytes : Nat → Nat → List Byte
  | 0, _ => []
  | n + 1, v => BitVec.ofNat 8 v :: leBytes n (v / 256)

/-- The 64-bit words that the `n` bytes at an address touch. -/
def wordsTouched (a n : Nat) : List Nat := if n == 0 then [] else (upto ((a + n - 1) / 8 - a / 8 + 1)).map (a / 8 + ·)

/-- The 64-bit words that the `n` bytes at an address cover whole. -/
def wordsCovered (a n : Nat) : List Nat := (wordsTouched a n).filter fun k => decide (a ≤ 8 * k) && decide (8 * k + 8 ≤ a + n)

/-- Whether a poisoned word is touched (R399). -/
def isPoisoned (poison : List Nat) (a n : Nat) : Bool := (wordsTouched a n).any poison.contains

/-- Poison after a write: a whole word written is sound again, a partial write keeps it (R399). -/
def clearPoison (poison : List Nat) (a n : Nat) : List Nat := poison.filter fun k => !(wordsCovered a n).contains k

/-- Memory with bytes written. -/
def State.writeBytes (s : State) (a : Nat) (bs : List Byte) : State :=
  { s with mem := putBytes s.mem a bs, poison := clearPoison s.poison a bs.length }

end Sys2Proof.Machine
end

