-- ==== Sys2Proof/Machine/Cache.lean ====
section
/-! DEFINITION. Caches: home slices and sector versions, the L2 and the MSC with their classes, the L1 side of loads and stores, directory entries, and what a write performed at a home does (R193, R199, R270 to R280, R301, R332, R346, R349, R350, R353). Values lie in memory; a store of a core is performed there when its L1 line holds the permission, and waits in the line before. -/

namespace Sys2Proof.Machine

/-! ### Homes and versions -/

/-- The home slice of a physical address (R270). -/
def homeOf (pa : Nat) : Nat :=
  let l := pa / 128
  Nat.xor (Nat.xor (l % 2 ^ 15) (l / 2 ^ 15 % 2 ^ 15)) (l / 2 ^ 30 % 2 ^ 15) % 1536

/-- A slice's clock and floor, 0 until it has assigned a version. -/
def State.slice (s : State) (n : Nat) : Slice := tabGet s.slices n ⟨0, 0⟩

/-- The version of a sector: that of its resident line, or the slice's floor (R272). -/
def State.version (s : State) (sect : Nat) : BitVec 40 :=
  match tabFind s.l2 (sect / 4) with
  | some x => nth x.vers (sect % 4) 0
  | none => (s.slice (homeOf (sect * 32))).floor

/-- The epoch of a sector's home: bits [39:37] of its clock (R301). -/
def State.epoch (s : State) (sect : Nat) : Nat := (s.slice (homeOf (sect * 32))).clock.toNat / 2 ^ 37

/-- The place of what is used now in the order of use of a cache: after all that were used before. -/
def State.recent (s : State) : Nat := 2 ^ 63 + s.tick

/-- The place of a line inserted with a class beside the other lines of its set: the most recently used, or for evict-first the least (R350, Table 9.2). -/
def State.insertAt (s : State) (c : CacheClass) (others : List Nat) : Nat := if c == .evictFirst then others.foldl min s.recent - 1 else s.recent

/-- The L2 line of a sector, filled with the floor where it is not resident (R272). -/
def State.l2Line (s : State) (line : Nat) : L2Line :=
  (tabFind s.l2 line).getD ⟨List.replicate 4 (s.slice (homeOf (line * 128))).floor, .normal, s.recent, false, false⟩

/-- A version: a clock value's bits [36:0] and the die whose clock gave it (R301). -/
def versionOf (clock die : Nat) : BitVec 40 := BitVec.ofNat 40 (clock % 2 ^ 37 * 8 + die)

/-- A sector given the version of a clock value, its home's clock raised to it (R301). Of a line that is not resident the floor is raised to the version, as when the line had been
filled, written and evicted (R272; log entry 35). -/
def State.setVersion (s : State) (sect clock die : Nat) : State :=
  let h := homeOf (sect * 32)
  let x := s.slice h
  let v := versionOf clock die
  let clk := BitVec.ofNat 40 (max x.clock.toNat clock)
  match tabFind s.l2 (sect / 4) with
  | some y => { s with
      slices := tabSet s.slices h { x with clock := clk }
      l2 := tabSet s.l2 (sect / 4) { y with vers := setNth y.vers (sect % 4) v, dirty := true } }
  | none => { s with slices := tabSet s.slices h ⟨clk, if x.floor < v then v else x.floor⟩ }

/-- A sector given a fresh version: its home's clock plus 1 (R272, R301). -/
def State.freshen (s : State) (sect : Nat) : State :=
  let h := homeOf (sect * 32)
  s.setVersion sect ((s.slice h).clock.toNat + 1) (h / 192)

/-- The sectors that `n` bytes at an address touch. -/
def sectorsOf (pa n : Nat) : List Nat := if n == 0 then [] else (upto ((pa + n - 1) / 32 - pa / 32 + 1)).map (pa / 32 + ·)

/-- The lines that `n` bytes at an address touch. -/
def linesOf (pa n : Nat) : List Nat := if n == 0 then [] else (upto ((pa + n - 1) / 128 - pa / 128 + 1)).map (pa / 128 + ·)

/-- Fresh versions for every sector touched. -/
def State.freshenAll (s : State) (pa n : Nat) : State := (sectorsOf pa n).foldl State.freshen s

/-- Fresh versions for every sector of a line that holds a byte of a mask: bytes returned to a home (R272, R277, R279). -/
def State.freshenMask (s : State) (line : Nat) (mask : BitVec 128) : State :=
  (upto 4).foldl (fun s i => if mask.extractLsb' (32 * i) 32 == 0 then s else s.freshen (4 * line + i)) s

/-- The byte mask of an access within its 128-byte line. -/
def lineMask (pa n : Nat) : BitVec 128 := BitVec.ofNat 128 ((2 ^ n - 1) * 2 ^ (pa % 128))

/-! ### Replacement classes and the MSC (R349, R350, R353) -/

/-- The stack of a byte of banded or interleaved memory (R346). -/
def stackOf (pa : Nat) : Nat :=
  if pa / 2 ^ 39 % 2 == 1 then bits pa 38 35 else Nat.xor (bits pa 15 12) (bits pa 19 16)

/-- The rank of a class, low to high (R350). -/
def classRank : CacheClass → Nat
  | .evictFirst => 0
  | .normal => 1
  | .keep => 2
  | .keepHigh => 3

/-- The rank of an MSC line's class. -/
def MscClass.rank : MscClass → Nat
  | .cls c => classRank c
  | .pin => 4

/-- The ways of a set of a slice (R271, R349). -/
def setWays : Nat := 16

/-- The set of a line in its MSC slice: 1 GiB of 128-byte lines in 16 ways is 524,288 sets (R349). -/
def mscSetOf (line : Nat) : Nat := Config.mscSet line % 524288

/-- The other lines of an MSC line's set. -/
def State.mscPeers (s : State) (line : Nat) : List (Nat × MscLine) :=
  s.msc.filter fun e => e.1 != line && stackOf (e.1 * 128) == stackOf (line * 128) && mscSetOf e.1 == mscSetOf line

/-- The class of the window that holds a line (R353). -/
def State.windowClass (s : State) (line : Nat) : Option MscClass :=
  (s.windows.find? fun e => e.2.frames.contains (line / 512)).map fun e => if e.2.pin then .pin else .cls .keepHigh

/-- A class under the caps of a set (R350): at most 12 pinned lines and 8 keep-high lines. -/
def capClass (peers : List (Nat × MscLine)) (c : MscClass) : MscClass :=
  let count (k : Nat) : Nat := (peers.filter fun e => e.2.cls.rank == k).length
  let high : MscClass := if 8 ≤ count 3 then .cls .keep else .cls .keepHigh
  match c with
  | .pin => if 12 ≤ count 4 then high else .pin
  | .cls .keepHigh => high
  | x => x

/-- A line that enters or hits the MSC with a class (R350, R353); a full set gives up its least recently used line of the lowest class, whose bytes go to the HBM4
where it is dirty. A no-allocate access leaves the class of a line that is present (Table 9.2), unless it is a line of a window: DEDUCED, R353 gives such a line the window's class
whenever it hits (log entry 129). `dirty` says that bytes are written to the MSC. -/
def State.mscAccess (s : State) (line : Nat) (c : CacheClass) (na dirty : Bool) : State :=
  let peers := s.mscPeers line
  let old := tabFind s.msc line
  let asked : MscClass := match old with
    | some x => if !na && x.cls.rank < classRank c then .cls c else x.cls
    | none => .cls c
  let cls := match old with
    | some x => match s.windowClass line with
      | some c => capClass peers c
      | none => if na then x.cls else capClass peers asked
    | none => capClass peers ((s.windowClass line).getD asked)
  let used := if old.isNone && cls.rank == 0 then s.insertAt .evictFirst (peers.map (·.2.used)) else s.recent
  let victim := if old.isSome || peers.length < setWays then none
    else minBy (fun e : Nat × MscLine => [e.2.cls.rank, e.2.used]) (peers.filter fun e => e.2.cls.rank != 4)
  let msc := match victim with
    | some v => tabDel s.msc v.1
    | none => s.msc
  { s with msc := tabSet msc line ⟨cls, used, dirty || (old.map (·.dirty)).getD false⟩ }

/-- An access of a class that reaches the MSC. -/
def State.mscTouch (s : State) (line : Nat) (c : CacheClass) : State := s.mscAccess line c false false

/-! ### The L2 (R271, R272, R350) -/

/-- The set of a line in its L2 slice: 1 MiB of 128-byte lines in 16 ways is 512 sets (R271). -/
def l2SetOf (line : Nat) : Nat := Config.l2Set line % 512

/-- Whether two lines share a set of an L2 slice. -/
def sameL2Set (a b : Nat) : Bool := homeOf (a * 128) == homeOf (b * 128) && l2SetOf a == l2SetOf b

/-- The resident lines of a line's L2 set, without the line. -/
def State.l2Peers (s : State) (line : Nat) : List (Nat × L2Line) := s.l2.filter fun e => e.1 != line && sameL2Set e.1 line

/-- A class under the keep-high cap of an L2 set (R350). -/
def State.capL2 (s : State) (line : Nat) (c : CacheClass) : CacheClass :=
  if c == .keepHigh && 8 ≤ ((s.l2Peers line).filter fun e => e.2.cls == .keepHigh).length then .keep else c

/-- A hit of a request in the L2: the line's class rises to the request's, under the cap of its set, and it becomes the most recently used (R350). A no-allocate access leaves the
class (Table 9.2), and the request that a line was filled for leaves the place at which the line was inserted. -/
def State.l2Hit (s : State) (line : Nat) (c : CacheClass) (na : Bool) : State :=
  match tabFind s.l2 line with
  | none => s
  | some x =>
    if x.fresh then { s with l2 := tabSet s.l2 line { x with fresh := false } }
    else
      let up := if !na && classRank x.cls < classRank c then s.capL2 line c else x.cls
      { s with l2 := tabSet s.l2 line { x with cls := up, used := s.recent } }

/-- A line asked of the MSC with a class, for a request that waits for it or for an access that has been made (R271). One that is already asked for takes the higher class, as the hit
that follows its fill would give it (R350). -/
def State.askMsc (s : State) (line : Nat) (c : CacheClass) (waits dirty : Bool) : State :=
  match tabFind s.l2 line with
  | some _ => s
  | none =>
    if s.mscFills.any fun f => f.line == line then
      { s with mscFills := s.mscFills.map fun f =>
          if f.line == line then { f with cls := if classRank f.cls < classRank c then c else f.cls, dirty := f.dirty || dirty } else f }
    else { s with mscFills := s.mscFills ++ [⟨line, c, waits, dirty⟩] }

/-- The L2 side of an access, a read or (`dirty`) a write: a hit, or a miss, which is filled from the MSC or, where it allocates nothing, goes through the MSC alone (R199, R271, R349). -/
def State.l2Access (s : State) (line : Nat) (c : CacheClass) (na dirty : Bool) : State :=
  if (tabFind s.l2 line).isSome then s.l2Hit line c na else if na then s.mscAccess line c true dirty else s.askMsc line c false dirty

/-- Whether a fill from the MSC is outstanding in a line's set, which blocks it (R273). -/
def State.setBlocked (s : State) (line : Nat) : Bool := s.mscFills.any fun f => sameL2Set f.line line

/-! ### Messages -/

/-- A core, idle and without a split until a team is placed. -/
def Core.empty : Core where
  split := none
  draining := false
  next := none
  bins := []
  sealed := []
  queues := []
  copyQueue := []
  matrixQueue := []
  actQueue := []
  quarters := []
  l1 := []
  tlb := []

/-- A core by number. -/
def State.core (s : State) (c : Nat) : Core := tabGet s.cores c Core.empty

/-- A message of the die network. -/
def mkMsg (kind : MsgKind) (core line : Nat) (mask : BitVec 128) (cls : CacheClass) : Msg :=
  ⟨kind, core, line, mask, 0, 0, [], false, cls, false, [], []⟩

/-- A message sent, unless the same one is on its way. -/
def State.send (s : State) (m : Msg) : State :=
  if s.net.contains m || s.arrived.contains m then s else { s with net := s.net ++ [m] }

/-! ### Stores that wait (R278, R332) -/

/-- Whether bytes at two places meet. -/
def bytesMeet (a n b m : Nat) : Bool := decide (a < b + m) && decide (b < a + n)

/-- Whether a store that waits touches some bytes. -/
def WaitingStore.touches (x : WaitingStore) (pa n : Nat) : Bool := bytesMeet x.pa x.bytes.length pa n

/-- The bytes of a line that some waiting stores touch. -/
def storeMask (ws : List WaitingStore) : BitVec 128 := ws.foldl (fun m x => m ||| lineMask x.pa x.bytes.length) 0

/-- The stores that a warp has posted to homes and that have not been performed. -/
def State.posted (s : State) (k : Nat) : List WaitingStore :=
  ((s.net ++ s.arrived).flatMap fun m => if m.kind == .homeWrite then m.data else []).filter fun x => x.warp == k

/-- The stores of a warp that wait in the L1 of a core. -/
def State.inL1 (s : State) (core k : Nat) : List WaitingStore :=
  ((s.core core).l1.flatMap fun e => e.2.waiting).filter fun x => x.warp == k

/-- The stores of a warp that have issued and are not yet performed. -/
def State.unperformed (s : State) (core k : Nat) : List WaitingStore := s.inL1 core k ++ s.posted k

/-- Bytes of memory as a warp sees them: under its own stores that are not yet performed, the latest store to each byte (R96, R332). -/
def State.seenAt (s : State) (core k pa n : Nat) : List Byte :=
  let ws := (s.unperformed core k).filter fun x => x.touches pa n
  if ws.isEmpty then s.bytesAt pa n
  else
    let m := ws.foldl (fun m x => (upto x.bytes.length).foldl (fun m i => tabSet m (x.pa + i) (nth x.bytes i 0)) m) ([] : Tab Byte)
    (upto n).map fun i => (tabFind m (pa + i)).getD (s.byte (pa + i))

/-- The lock on a sector that an access of a warp must wait for: none for the warp's own irrevocable lock (R303). -/
def State.lockFor (s : State) (w pa : Nat) : Option Lock :=
  match tabFind s.locks (pa / 32) with
  | some x => if x.irrevocable && x.warp == w then none else some x
  | none => none

/-! ### Directory entries (R275) -/

/-- The directory entry of a line that no core holds. -/
def DirEntry.empty : DirEntry where
  st := .i
  sharers := []
  coarse := none
  holders := []
  contended := false
  upgrades := 0
  window := 0
  awaiting := []
  action := none

/-- A line's directory entry. -/
def State.dir (s : State) (line : Nat) : DirEntry := tabGet s.dirs line DirEntry.empty

/-- A line's directory entry replaced. -/
def State.setDir (s : State) (line : Nat) (d : DirEntry) : State := { s with dirs := tabSet s.dirs line d }

/-- The entry in state I, its contended flag and count kept (R277). -/
def DirEntry.toI (d : DirEntry) : DirEntry :=
  { d with st := .i, sharers := [], coarse := none, holders := [], awaiting := [], action := none }

/-- The cores that an invalidation goes to: the pointers, or every core of each marked cluster (R275). -/
def DirEntry.copies (d : DirEntry) : List Nat :=
  match d.coarse with
  | some m => (upto 1024).filter fun c => m.getLsbD (c / 8)
  | none => d.sharers

/-- The written masks of the other holders of a line. -/
def DirEntry.otherMask (d : DirEntry) (c : Nat) : BitVec 128 :=
  (d.holders.filter fun h => h.1 != c).foldl (fun m h => m ||| h.2) 0

/-! ### The L1 (R193, R274, R278, Table 13.1) -/

/-- An L1 line of a core. -/
def State.l1Line (s : State) (core line : Nat) : Option L1Line := tabFind (s.core core).l1 line

/-- A core's L1 line set. -/
def State.setL1 (s : State) (core line : Nat) (x : L1Line) : State :=
  { s with cores := tabSet s.cores core { s.core core with l1 := tabSet (s.core core).l1 line x } }

/-- A core's L1 line dropped to I. -/
def State.dropL1 (s : State) (core line : Nat) : State :=
  { s with cores := tabSet s.cores core { s.core core with l1 := tabDel (s.core core).l1 line } }

/-- A new L1 line that waits for its data, for a load of some bytes or for stores of a class; `used` is the place at which it is inserted (Table 9.2). -/
def waitingLine (st : L1State) (want : BitVec 128) (ws : List WaitingStore) (used : Nat) (c : CacheClass) : L1Line :=
  ⟨st, 0, want, ws, [], false, used, c⟩

/-- Whether a line of an L1 waits for an answer of its home. -/
def L1State.transient : L1State → Bool
  | .s | .m | .mm => false
  | _ => true

/-- A line as an access finds it: the most recently used. One that waits in it takes its place and its class with its request: an evict-first access leaves the place at which the line
was inserted (Table 9.2), and the request that is still to be sent carries the highest class of those that wait. -/
def L1Line.meet (x : L1Line) (recent : Nat) (c : CacheClass) : L1Line :=
  { x with
    used := if x.st.transient && c == .evictFirst then x.used else recent
    cls := if x.st.transient && classRank c < classRank x.cls then x.cls else c }

/-- The lines of an L1 of a split (R173). -/
def Split.lines (p : Split) : Nat := p.l1 * 128

/-- The ways of each set of an L1: at least 4 (R193). -/
def Split.ways (p : Split) : Nat := 4 * 2 ^ (Config.l1Ways p.l1 % 6)

/-- The set of a line in an L1 of a split. -/
def Split.setOf (p : Split) (line : Nat) : Nat := Config.l1Set p.l1 line % (p.lines / p.ways)

/-- The ways in use of the set of a line in a core's L1. A line whose write-back is on its way has left its way (DEDUCED from Table 13.1, which evicts it into MI; log entry 38). -/
def State.l1Peers (s : State) (core : Nat) (p : Split) (line : Nat) : List (Nat × L1Line) :=
  (s.core core).l1.filter fun e => e.1 != line && p.setOf e.1 == p.setOf line && e.2.st != .mi

/-- Whether an L1 line may be evicted: it is in a stable state, and no store waits in it. -/
def L1Line.stable (x : L1Line) : Bool := (x.st == .s || x.st == .m || x.st == .mm) && x.waiting.isEmpty

/-- A line evicted from an L1 (Table 13.1): an S copy silently, an owned one with its write-back. -/
def State.evictL1 (s : State) (core line : Nat) (x : L1Line) : State :=
  match x.st with
  | .s => s.dropL1 core line
  | .m => (s.setL1 core line { x with st := .mi, cls := .evictFirst }).send (mkMsg .putm core line x.mask .normal)
  | .mm => (s.dropL1 core line).send (mkMsg .putmm core line x.mask .normal)
  | _ => s

/-- Whether a line can be installed in a core's L1: its set has a free way, or one outside a transient state (R263, row 7). -/
def State.wayFor (s : State) (core line : Nat) : Bool :=
  match (s.core core).split with
  | none => true
  | some p =>
    let peers := s.l1Peers core p line
    decide (peers.length < p.ways) || peers.any fun e => e.2.stable

/-- A way made free for a line: where its set is full, the least recently used line is evicted (R193). -/
def State.roomL1 (s : State) (core line : Nat) : State :=
  match (s.core core).split with
  | none => s
  | some p =>
    let peers := s.l1Peers core p line
    if peers.length < p.ways then s
    else match minBy (fun e : Nat × L1Line => [e.2.used, e.1]) (peers.filter fun e => e.2.stable) with
      | some e => s.evictL1 core e.1 e.2
      | none => s

/-- The place at which a line is inserted in a core's L1 with a class. -/
def State.l1Place (s : State) (core line : Nat) (c : CacheClass) : Nat :=
  match (s.core core).split with
  | none => s.recent
  | some p => s.insertAt c ((s.l1Peers core p line).map (·.2.used))

/-- Whether a mask lies within another. -/
def maskWithin (m n : BitVec 128) : Bool := m &&& n == m

/-- The L1 side of a load, or of a prefetch where `load` is false: a hit makes the line the most recently used, and a load of it ends its pushed-untouched state (R264); a miss sends its
request. One that allocates nothing, or finds no way free, asks for the bytes alone (Tables 9.2 and 13.1). -/
def State.l1Read (s : State) (core pa n : Nat) (cls : CacheClass) (na load : Bool) : State :=
  let line := pa / 128
  let m := lineMask pa n
  match s.l1Line core line with
  | none =>
    if na || !s.wayFor core line then s.send { mkMsg .gets core line m cls with flag := true, na := na }
    else ((s.roomL1 core line).setL1 core line (waitingLine .is m [] (s.l1Place core line cls) cls)).send (mkMsg .gets core line m cls)
  | some x0 =>
    let x := { x0.meet s.recent cls with untouched := x0.untouched && !load }
    match x.st with
    | .mm | .mmWait =>
      if maskWithin m x.mask then s.setL1 core line x
      else (s.setL1 core line { x with st := .mmWait, want := x.want ||| m }).send (mkMsg .gets core line m cls)
    | .isI | .mi => s.setL1 core line { x with want := x.want ||| m }
    | _ => s.setL1 core line x

/-- The L1 side of a load. -/
def State.loadTouch (s : State) (core pa n : Nat) (cls : CacheClass) (na : Bool) : State := s.l1Read core pa n cls na true

/-- Whether a waiting store may be performed on an owned line: its sector is not locked against it (R303), and a privatised copy holds its bytes (R274). -/
def State.storeOk (s : State) (x : L1Line) (w : WaitingStore) : Bool :=
  (s.lockFor w.warp w.pa).isNone && (x.st == .m || maskWithin (lineMask w.pa w.bytes.length) x.mask)

/-- The waiting stores of an owned line that are performed now and those that are left, in their order: a store waits for an earlier one to some of its bytes (R96, R328). -/
def State.splitStores (s : State) (x : L1Line) : List WaitingStore × List WaitingStore :=
  x.waiting.foldl (fun r w =>
    if s.storeOk x w && !r.2.any (fun o => o.touches w.pa w.bytes.length) then (r.1 ++ [w], r.2) else (r.1, r.2 ++ [w])) ([], [])

/-- An owned L1 line with its waiting stores performed, as far as they may be: their bytes are written and join the written mask. A privatised copy asks for the bytes that it does
not hold (Table 13.1). -/
def State.performStores (s : State) (core line : Nat) (x : L1Line) : State :=
  let (now, left) := s.splitStores x
  let s1 := now.foldl (fun s w => s.writeBytes w.pa w.bytes) s
  let out := left.filter fun w => (s.lockFor w.warp w.pa).isNone
  let y := { x with mask := x.mask ||| storeMask now, waiting := left }
  if x.st == .mm && !out.isEmpty then
    (s1.setL1 core line { y with st := .mmWait }).send (mkMsg .maskExt core line (storeMask out) x.cls)
  else s1.setL1 core line y

/-- Whether a message is a plain home write of a warp to a line, to which a later store of the warp to the line may be added. -/
def Msg.takes (m : Msg) (k line : Nat) (cls : CacheClass) (na : Bool) : Bool :=
  m.kind == .homeWrite && m.line == line && m.warp == k && m.cls == cls && m.na == na && m.targets.isEmpty && !m.data.isEmpty

/-- A home's write posted: the message that carries the store joins one of the warp to the line that has not arrived (R279). -/
def State.post (s : State) (w : WaitingStore) (cls : CacheClass) (na : Bool) : State :=
  let line := w.pa / 128
  let mask := lineMask w.pa w.bytes.length
  if s.net.any fun m => m.takes w.warp line cls na then
    { s with net := s.net.map fun m => if m.takes w.warp line cls na then { m with mask := m.mask ||| mask, data := m.data ++ [w] } else m }
  else s.send { mkMsg .homeWrite 0 line mask cls with na := na, warp := w.warp, ctx := w.ctx, data := [w] }

/-- Whether a store of a warp would join a home write of the warp on its way. -/
def State.joinsPost (s : State) (core k pa : Nat) (cls : CacheClass) (na : Bool) (m : Msg) : Bool :=
  m.takes k (pa / 128) cls na && (s.l1Line core (pa / 128)).isNone && s.net.contains m

/-- The L1 side of a store (Table 13.1): performed at once where the copy holds the permission, else kept in the line until the grant. One that allocates nothing, or finds no way
free, is written at its home. -/
def State.storeTouch (s : State) (core : Nat) (w : WaitingStore) (cls : CacheClass) (na : Bool) : State :=
  let line := w.pa / 128
  let m := lineMask w.pa w.bytes.length
  match s.l1Line core line with
  | none =>
    if na || !s.wayFor core line then s.post w cls na
    else ((s.roomL1 core line).setL1 core line (waitingLine .im 0 [w] (s.l1Place core line cls) cls)).send (mkMsg .getm core line m cls)
  | some x0 =>
    let x := { x0.meet s.recent cls with waiting := x0.waiting ++ [w] }
    match x.st with
    | .s => (s.setL1 core line { x with st := .sm, untouched := false }).send (mkMsg .upg core line m cls)
    | .m | .mm => s.performStores core line x
    | _ => s.setL1 core line x

/-- A copy lost in which stores still wait: they ask for the line anew. -/
def State.reask (s : State) (core line : Nat) (x : L1Line) : State :=
  if !x.waiting.isEmpty then
    (s.setL1 core line { x with st := .im, mask := 0, want := 0, untouched := false }).send (mkMsg .getm core line (storeMask x.waiting) x.cls)
  else if x.want != 0 then (s.setL1 core line { x with st := .is, mask := 0, untouched := false }).send (mkMsg .gets core line x.want x.cls)
  else s.dropL1 core line

/-- An L1's part in an invalidation (Table 13.1). The loads that wait at it use the data that comes, and those issued later ask again. -/
def State.l1Inv (s : State) (core line : Nat) : State :=
  match s.l1Line core line with
  | none => s
  | some x => match x.st with
    | .s => s.dropL1 core line
    | .is => s.setL1 core line { x with st := .isI, want := 0 }
    | .sm => s.setL1 core line { x with st := .im }
    | _ => s

/-- The mask that a copy returns on a recall. -/
def L1Line.returned (x : L1Line) : BitVec 128 :=
  match x.st with
  | .m | .mi | .mm | .mmWait => x.mask
  | _ => 0

/-- The mask that a core returns on a recall. -/
def returnedOf (o : Option L1Line) : BitVec 128 := (o.map L1Line.returned).getD 0

/-- An owner's part in a recall to S: it keeps a copy in S. -/
def State.l1RecallS (s : State) (core line : Nat) : State :=
  match s.l1Line core line with
  | none => s
  | some x =>
    if x.st != .m then s
    else if x.waiting.isEmpty then s.setL1 core line { x with st := .s, mask := 0 }
    else (s.setL1 core line { x with st := .sm, mask := 0 }).send (mkMsg .upg core line (storeMask x.waiting) x.cls)

/-- An owner's part in a recall to I. -/
def State.l1RecallI (s : State) (core line : Nat) : State :=
  match s.l1Line core line with
  | none => s
  | some x => if x.st == .m then s.reask core line { x with want := 0 } else s

/-- A holder's part in a merge: it drops its copy; a request that it has sent is served as one of a core without a copy (R280). -/
def State.l1Merge (s : State) (core line : Nat) : State :=
  match s.l1Line core line with
  | none => s
  | some x => match x.st with
    | .mm => s.reask core line { x with want := 0 }
    | .mmWait => s.setL1 core line { x with st := if x.waiting.isEmpty then .is else .im, mask := 0 }
    | _ => s

/-! ### A home and the copies of a line -/

/-- Whether a home may act on the copies of a line: the line is not busy, and no grant of it is on its way (R273). -/
def State.lineQuiet (s : State) (line : Nat) : Bool :=
  (s.dir line).action.isNone && !s.net.any fun m => m.line == line && (m.kind == .datam || m.kind == .upgack)

/-- Whether some request for a line has arrived before and is to be served first. One that waits for a lock does not hold back the access of the lock's holder (R303). -/
def State.lineQueued (s : State) (line : Nat) : Bool :=
  match s.arrived.find? fun m => m.line == line with
  | some m => !m.data.any fun w => (s.lockFor w.warp w.pa).isSome
  | none => false

/-- Whether an access is served at a line's home: the line is not busy, no fill that a request waits for blocks its set, and no request for it came before (R273). -/
def State.lineFree (s : State) (line : Nat) : Bool :=
  s.lineQuiet line && !(s.mscFills.any fun f => f.waits && sameL2Set f.line line) && !s.lineQueued line

/-- The copies of a line in S called in but for those of some cores. -/
def State.callShared (s : State) (line : Nat) (keep : List Nat) (d : DirEntry) : State :=
  let kept := d.copies.filter keep.contains
  ((d.copies.filter fun c => !keep.contains c).foldl (fun s c => s.l1Inv c line) s).setDir line
    (if kept.isEmpty then d.toI else if d.coarse.isNone then { d with sharers := kept } else d)

/-- The copies of a quiet line called in: the owner's or the holders' bytes return, with fresh versions, and, where `all` says so or the line is privatised, no copy is left but the S
copies of the cores in `keep`, whose bytes a push will replace (R262, R277, R279). `mask` are the bytes of the access that causes it. DESIGN CHOICE: the recall and the access that it
serves are one event where the access is performed at the home by an atomic, a commit or an engine (log entry 34). -/
def State.callInBut (s : State) (line : Nat) (mask : BitVec 128) (all : Bool) (keep : List Nat) : State :=
  let d := s.dir line
  match d.st with
  | .i => s
  | .s => if all then s.callShared line keep d else s
  | .m =>
    let o := (d.sharers.head?).getD 0
    let s1 := s.freshenMask line (returnedOf (s.l1Line o line))
    if all then (s1.l1RecallI o line).setDir line d.toI else (s1.l1RecallS o line).setDir line { d with st := .s }
  | .p =>
    let d1 := if mask &&& d.otherMask 1024 == 0 then d else { d with contended := false, upgrades := 0 }
    (d.holders.foldl (fun s h => (s.freshenMask line (returnedOf (s.l1Line h.1 line))).l1Merge h.1 line) s).setDir line d1.toI

/-- The copies of a quiet line called in, none kept. -/
def State.callIn (s : State) (line : Nat) (mask : BitVec 128) (all : Bool) : State := s.callInBut line mask all []

/-- Whether an access is served at the home of every line that some bytes touch. -/
def State.quietAt (s : State) (pa n : Nat) : Bool := (linesOf pa n).all s.lineFree

/-- What a read performed at the home does to the copies of the lines that it touches: an owner's bytes return, and a privatised line is merged where a holder has written some of the
bytes read (R277, R279). -/
def State.homeRead (s : State) (pa n : Nat) : State :=
  (linesOf pa n).foldl (fun s l =>
    if (s.dir l).st == .p && lineMask pa n &&& (s.dir l).otherMask 1024 == 0 then s else s.callIn l (lineMask pa n) false) s

/-- A write performed at the home, of any class, allocating or not (R272, R279): the copies are called in, but for the S copies of the cores in `keep`, the bytes are written, and
each sector takes a fresh version. -/
def State.homeWriteBut (s : State) (pa : Nat) (bs : List Byte) (cls : CacheClass) (na : Bool) (keep : List Nat) : State :=
  let ls := linesOf pa bs.length
  let s1 := ls.foldl (fun s l => s.callInBut l (lineMask pa bs.length) true keep) s
  ls.foldl (fun s l => s.l2Access l cls na true) ((s1.writeBytes pa bs).freshenAll pa bs.length)

/-- A write performed at the home. Its callers wait until the lines are free (R273). -/
def State.homeWrite (s : State) (pa : Nat) (bs : List Byte) (cls : CacheClass) (na : Bool) : State := s.homeWriteBut pa bs cls na []

/-- A write performed at the home with a class. -/
def State.homeStore (s : State) (pa : Nat) (bs : List Byte) (cls : CacheClass) : State := s.homeWrite pa bs cls false

/-- The number by which a store of the control processors is told from those of warps. -/
def controlWarp : Nat := 2 ^ 64

/-- A write of the control processors to some bytes of one line: performed at the home where that is free, else posted behind what is there (R273). -/
def State.controlWrite (s : State) (pa : Nat) (bs : List Byte) : State :=
  if s.quietAt pa bs.length && (s.posted controlWarp).isEmpty then s.homeStore pa bs .normal
  else s.post ⟨controlWarp, 0, 0, pa, bs⟩ .normal false

end Sys2Proof.Machine
end

