-- ==== Sys2Proof/Machine/Memory.lean ====
section
/-! DEFINITION. Memory: address translation, remote accesses, reads and writes through a translation, and where an access of a lane goes (R152, R192, R284 to R290, R347, R412 to R416). -/

namespace Sys2Proof.Machine

/-! ### Translation -/

/-- What a translation yields (R286), and whether the page is a read-only fabric page (R416). -/
structure Phys where
  pa : Nat
  fab : Bool
  pkg : Nat
  psel : Nat
  readOnly : Bool
  deriving DecidableEq, Repr

/-- The kinds of translation fault in the numbering of Table 13.6. -/
inductive XKind where
  | notPresent | permission | accessFlag | malformed
  deriving DecidableEq, Repr

/-- A page-table entry read from memory. -/
def State.entryAt (s : State) (a : Nat) : DWord := BitVec.ofNat 64 (natOfBytes (s.bytesAt a 8))

/-- The physical address bits that an entry gives (Table 13.4). -/
def leafOA (e : DWord) : Nat := bits e.toNat 51 16

/-- A context with nothing set (Tables 17.2; CEIL resets to 3). -/
def Context.empty : Context where
  root := 0
  privBase := 0
  privSize := 0
  pinLim := 0
  ceil := 3
  enabled := false
  suspended := false
  sset := []
  pinned := 0
  winBase := 0
  generation := 0

/-- A context by number. -/
def State.context (s : State) (c : Nat) : Context := tabGet s.contexts c Context.empty

/-- Whether a leaf's PSEL agrees with its OA (R347). -/
def pselOk (c : Context) (fab : Bool) (psel pa : Nat) : Bool :=
  if fab then psel == 0
  else if psel == 0 then pa / 2 ^ 39 % 2 == 0
  else pa / 2 ^ 39 % 2 == 1 && (nth c.sset (psel - 1) 0).getLsbD (stackOf pa)

/-- Whether a fabric leaf names a member that is not this package (R412). -/
def State.fabricOk (s : State) (pkg : Nat) : Bool :=
  match s.packageId with
  | none => false
  | some me => pkg != me && s.members.getLsbD pkg

/-- Whether an entry is malformed at a level (R285, R347, R412). -/
def State.malformed (s : State) (ctx : Nat) (e : DWord) (lv : Nat) : Bool :=
  let v := e.toNat
  let leaf := bit v 1
  let fab := bit v 7
  let pa := leafOA e * 2 ^ 16
  bits v 63 56 != 0 || bits v 15 14 != 0
    || (leaf && lv == 0) || (!leaf && lv == 2)
    || (bit v 6 && lv != 2)
    || (leaf && lv == 1 && bits v 28 16 != 0)
    || (!fab && decide (2 ^ 40 ≤ pa))
    || (!fab && bits v 13 8 != 0)
    || (!leaf && (bits v 63 52 != 0 || bits v 15 2 != 0))
    || (leaf && !pselOk (s.context ctx) fab (bits v 55 52) pa)
    || (leaf && fab && !s.fabricOk (bits v 13 8))

/-- Whether a leaf permits an access (R286). -/
def permits (e : DWord) : AccessKind → Bool
  | .read => bit e.toNat 2
  | .write => bit e.toNat 3
  | .readWrite => bit e.toNat 2 && bit e.toNat 3
  | .fetch => bit e.toNat 4

/-- The physical address of an access through a leaf found at a level for page `page` (R286, R287). -/
def leafPhys (e : DWord) (lv page va : Nat) : Phys :=
  let pa := if lv == 1 then leafOA e * 2 ^ 16 + va % 2 ^ 29 else (leafOA e + (va / 2 ^ 16 - page)) * 2 ^ 16 + va % 2 ^ 16
  ⟨pa, bit e.toNat 7, bits e.toNat 13 8, bits e.toNat 55 52, bit e.toNat 2 && !bit e.toNat 3 && !bit e.toNat 4⟩

/-- The outcome of a walk: the leaf and its level, or the fault with its level. -/
abbrev WalkResult := Except (XKind × Nat) (DWord × Nat)

/-- The index of an address at a level (R284). -/
def levelIndex (va lv : Nat) : Nat :=
  match lv with
  | 0 => bits va 54 42
  | 1 => bits va 41 29
  | _ => bits va 28 16

/-- Whether a cached translation covers an address of a context (Table 13.5). -/
def TlbEntry.covers (x : TlbEntry) (ctx va : Nat) : Bool :=
  x.ctx == ctx && decide (x.page ≤ va / 2 ^ 16) && decide (va / 2 ^ 16 < x.page + x.pages)

/-- A level-0 or level-1 table entry for an address in a walk cache (Table 13.5). -/
def cachedEntry (cache : List TlbEntry) (ctx va lv : Nat) : Option DWord :=
  (cache.find? fun x => x.level == lv && x.covers ctx va).map (·.leaf)

/-- Whether an address lies in a context's private backing region, which no program may access directly (R151). -/
def State.inBacking (s : State) (ctx va : Nat) : Bool :=
  let c := s.context ctx
  decide (c.privBase % 2 ^ 55 ≤ va % 2 ^ 55) && decide (va % 2 ^ 55 < c.privBase % 2 ^ 55 + c.privSize)

/-- Whether an address lies in the range that a context sets aside for the private window, which never reaches the page tables (R150). -/
def State.inWindow (s : State) (ctx va : Nat) : Bool :=
  decide ((s.context ctx).winBase ≤ va) && decide (va < (s.context ctx).winBase + 2 ^ 18)

/-- Whether a leaf may be used: it permits the access, or it maps the backing region, which is mapped with no access for programs and reached by the hardware alone (R151). -/
def State.mayUse (s : State) (ctx va : Nat) (e : DWord) (k : AccessKind) : Bool := permits e k || s.inBacking ctx va

/-- The walk of R286 from a table on; `fuel` levels remain. Table entries come from the walk cache where it holds them. A poisoned entry
is an unserviceable fault (Table 13.7). -/
def State.walkFrom (s : State) (cache : List TlbEntry) (ctx va : Nat) (k : AccessKind) : Nat → Nat → Nat → WalkResult
  | 0, _, lv => .error (.malformed, lv)
  | fuel + 1, t, lv =>
    let a := t + levelIndex va lv * 8
    match cachedEntry cache ctx va lv with
    | some e => s.walkFrom cache ctx va k fuel (leafOA e * 2 ^ 16) (lv + 1)
    | none =>
      let e := s.entryAt a
      if isPoisoned s.poison a 8 then .error (.malformed, lv)
      else if !bit e.toNat 0 then .error (.notPresent, lv)
      else if s.malformed ctx e lv then .error (.malformed, lv)
      else if !bit e.toNat 1 then s.walkFrom cache ctx va k fuel (leafOA e * 2 ^ 16) (lv + 1)
      else if !bit e.toNat 5 then .error (.accessFlag, lv)
      else if !s.mayUse ctx va e k then .error (.permission, lv)
      else .ok (e, lv)

/-- The walk of an address in a context, with a walk cache. -/
def State.walk (s : State) (cache : List TlbEntry) (ctx va : Nat) (k : AccessKind) : WalkResult :=
  s.walkFrom cache ctx va k 3 (s.context ctx).root 0

/-- The walk cache of a core's die. -/
def State.walkCacheOf (s : State) (core : Nat) : List TlbEntry := tabGet s.walkCache (core / 128) []

/-- The cached translation that serves an access: the core's TLB, else its cluster's (Table 13.5). -/
def State.cached (s : State) (core ctx va : Nat) : Option TlbEntry :=
  match (s.core core).tlb.find? (·.covers ctx (va % 2 ^ 55)) with
  | some x => some x
  | none => (tabGet s.clusterTlb (core / 8) []).find? (·.covers ctx (va % 2 ^ 55))

/-- Whether bits [63:55] of an address equal its bit 54 (R192). -/
def canonical (va : Nat) : Bool := decide (va < 2 ^ 54) || decide (2 ^ 64 - 2 ^ 54 ≤ va)

/-- The translation of a virtual address for a core in a context: a cached translation, else a walk (R286, R288, R290). -/
def State.translateAt (s : State) (core ctx va : Nat) (k : AccessKind) : Except (XKind × Nat) Phys :=
  match s.cached core ctx va with
  | some x => if s.mayUse ctx va x.leaf k then .ok (leafPhys x.leaf x.level x.page (va % 2 ^ 55)) else .error (.permission, x.level)
  | none => match s.walk (s.walkCacheOf core) ctx (va % 2 ^ 55) k with
    | .ok (e, lv) => .ok (leafPhys e lv (va % 2 ^ 55 / 2 ^ 16) (va % 2 ^ 55))
    | .error e => .error e

/-- The translation of an access by a core in a context. A non-canonical address and one of the backing region are unserviceable (R151, R192). -/
def State.translate (s : State) (core ctx va : Nat) (k : AccessKind) : Except (XKind × Nat) Phys :=
  if !canonical va || s.inBacking ctx va then .error (.malformed, 0) else s.translateAt core ctx va k

/-! ### The caches of translations (R287, R288) -/

/-- A cache of `n` entries with one added, the oldest one giving way. -/
def addEntry (n : Nat) (l : List TlbEntry) (x : TlbEntry) : List TlbEntry :=
  let r := l.filter (· != x) ++ [x]
  r.drop (r.length - n)

/-- The entry that a leaf fills: a block's 8,192 pages, a run of 32 pages as one entry where `run` says so, or a page. The first page of a run begins at a multiple of 2 MiB, so that
whichever entry of the run was walked serves every page of it (R287). -/
def leafEntry (ctx va : Nat) (e : DWord) (lv : Nat) (run : Bool) : TlbEntry :=
  if lv == 1 then ⟨ctx, va / 2 ^ 29 * 8192, 8192, e, lv⟩
  else if run && bit e.toNat 6 then ⟨ctx, va / 2 ^ 21 * 32, 32, e - BitVec.ofNat 64 (bits e.toNat 20 16 * 2 ^ 16), lv⟩
  else ⟨ctx, va / 2 ^ 16, 1, e, lv⟩

/-- The table entries that a walk of an address reads, with the pages that each covers. -/
def State.walkTrail (s : State) (ctx va : Nat) : Nat → Nat → Nat → List TlbEntry
  | 0, _, _ => []
  | fuel + 1, t, lv =>
    let e := s.entryAt (t + levelIndex va lv * 8)
    let n := if lv == 0 then 2 ^ 26 else 8192
    if bit e.toNat 0 && !s.malformed ctx e lv && !bit e.toNat 1 then
      ⟨ctx, va / 2 ^ 16 / n * n, n, e, lv⟩ :: s.walkTrail ctx va fuel (leafOA e * 2 ^ 16) (lv + 1)
    else []

/-- The entries of the walk cache of a die. DESIGN CHOICE: Table 13.5 gives no number (log entry 131). -/
def walkEntries : Nat := 64

/-- The addresses of the table entries that a walk reads from memory: those that the walk cache does not hold. -/
def State.walkReads (s : State) (cache : List TlbEntry) (ctx va : Nat) : Nat → Nat → Nat → List Nat
  | 0, _, _ => []
  | fuel + 1, t, lv =>
    let a := t + levelIndex va lv * 8
    match cachedEntry cache ctx va lv with
    | some e => s.walkReads cache ctx va fuel (leafOA e * 2 ^ 16) (lv + 1)
    | none =>
      let e := s.entryAt a
      a :: (if bit e.toNat 0 && !s.malformed ctx e lv && !bit e.toNat 1 then s.walkReads cache ctx va fuel (leafOA e * 2 ^ 16) (lv + 1) else [])

/-- What a walk does to the caches of the entries that it reads: they are read through the coherent L2 (R286). A busy line is called in by what made it busy (log entry 34). -/
def State.walkTouch (s : State) (cache : List TlbEntry) (ctx va : Nat) : State :=
  (s.walkReads cache ctx va 3 (s.context ctx).root 0).foldl (fun s a =>
    (if s.quietAt a 8 then s.homeRead a 8 else s).l2Access (a / 128) .normal false false) s

/-- The caches of a core, its cluster and its die filled by a walk that succeeded. Whether a run is held as one entry is not fixed (R287). -/
def State.fillTlbs (s : State) (core ctx va : Nat) (e : DWord) (lv : Nat) : State :=
  let x := leafEntry ctx va e lv (Config.freeNat s.tick % 2 == 1)
  let c := s.core core
  let die := core / 128
  let trail := s.walkTrail ctx va 2 (s.context ctx).root 0
  { s with
    cores := tabSet s.cores core { c with tlb := addEntry 64 c.tlb x }
    clusterTlb := tabSet s.clusterTlb (core / 8) (addEntry 2048 (tabGet s.clusterTlb (core / 8) []) x)
    walkCache := tabSet s.walkCache die (trail.foldl (addEntry walkEntries) (tabGet s.walkCache die [])) }

/-- The caches after a core's access to an address: a miss is walked, and what the walk finds is cached; a fault is not (R288). A hit of the cluster's entry fills the core's. -/
def State.fillFor (s : State) (core ctx va0 : Nat) (k : AccessKind) : State :=
  let va := va0 % 2 ^ 55
  match (s.core core).tlb.find? (·.covers ctx va), (tabGet s.clusterTlb (core / 8) []).find? (·.covers ctx va) with
  | some _, _ => s
  | none, some x => { s with cores := tabSet s.cores core { s.core core with tlb := addEntry 64 (s.core core).tlb x } }
  | none, none =>
    let s1 := s.walkTouch (s.walkCacheOf core) ctx va
    match s.walk (s.walkCacheOf core) ctx va k with
    | .ok (e, lv) => s1.fillTlbs core ctx va e lv
    | .error _ => s1

/-- Whether an access to an address reaches the page tables: not a non-canonical one, nor one in the private window's range or in the backing region (R150, R151, R192). -/
def State.reachesTables (s : State) (ctx va : Nat) : Bool := canonical va && !s.inWindow ctx va && !s.inBacking ctx va

/-- The caches after an access that a program makes. -/
def State.fillAccess (s : State) (core ctx va : Nat) (k : AccessKind) : State := if s.reachesTables ctx va then s.fillFor core ctx va k else s

/-! ### Remote memory -/

/-- A peer with nothing known. -/
def Peer.empty : Peer where
  member := false
  mac := 0
  lost := false
  nextReq := 1
  outstanding := []
  performed := []
  paths := []
  backlog := []

/-- A peer by package id. -/
def State.peer (s : State) (p : Nat) : Peer := tabGet s.peers p Peer.empty

/-- Whether every path to a peer is lost (R421). -/
def State.lostPeer (s : State) (p : Nat) : Bool := (s.peer p).lost

/-- A path that has not come up. -/
def Path.empty : Path where
  up := false
  downSince := 0
  nextSeq := 0
  ackSeq := 0
  unacked := []
  sentAt := 0
  resends := 0

/-- A peer's path at a local port. -/
def Peer.path (x : Peer) (port : Nat) : Path := nth x.paths port Path.empty

/-- A peer with the path of a port replaced. -/
def Peer.setPath (x : Peer) (port : Nat) (p : Path) : Peer :=
  { x with paths := (upto 8).map fun i => if i == port then p else x.path i }

/-- The path of a line among the live ones: that on which frames of the line are not yet acknowledged, so that they keep their order when a path comes up, else the one that the hash
chooses (R414; log entry 88). -/
def Peer.pathFor (x : Peer) (line : Nat) (live : List Nat) : Nat :=
  (live.find? fun i => (x.path i).unacked.any fun f => f.2.line == line).getD (nth live (Config.pathHash line live.length % live.length) 0)

/-- A frame sent on the live path that serves its line, under the path's next SEQ; it is kept where no path is live (R414). -/
def Peer.send (x : Peer) (clock : Nat) (f : KltFrame) : Peer :=
  match (upto 8).filter fun i => (x.path i).up with
  | [] => { x with backlog := x.backlog ++ [f] }
  | live =>
    let port := x.pathFor f.line live
    let p := x.path port
    x.setPath port { p with
      nextSeq := (p.nextSeq + 1) % 2 ^ 32, unacked := p.unacked ++ [(p.nextSeq, f)]
      sentAt := if p.unacked.isEmpty then clock else p.sentAt }

/-- The physical address that a remote operation names. -/
def RemoteOp.pa : RemoteOp → Nat
  | .load pa _ => pa
  | .store pa _ _ => pa
  | .atomic _ _ pa _ _ => pa
  | .claim pa _ => pa
  | .tally pa _ => pa

/-- A frame with the next REQID of a pair sent to a peer (R413, R414). -/
def State.sendNew (s : State) (p line : Nat) (b : FrameBody) : State :=
  let x := s.peer p
  { s with peers := tabSet s.peers p ({ x with nextReq := x.nextReq + 1 }.send s.clock ⟨x.nextReq, line, b⟩) }

/-- A remote request sent: it takes the next REQID of the pair and waits for its answer (R413, R414). -/
def State.request (s : State) (p : Nat) (op : RemoteOp) (who : Requester) (tag va : Nat) : State :=
  let x := s.peer p
  let r : RemoteRequest := ⟨x.nextReq, op, who, tag, va, false⟩
  let s1 : State := { s with peers := tabSet s.peers p { x with outstanding := x.outstanding ++ [r] } }
  s1.sendNew p (RemoteOp.pa op / 128) (.request op)

/-! ### Reading and writing through a translation -/

/-- Whether reading meets poison: a poisoned local word, or a lost peer, whose loads return poison (R399, R421). -/
def State.physPoison (s : State) (p : Phys) (n : Nat) : Bool :=
  if p.fab then s.lostPeer p.pkg else isPoisoned s.poison p.pa n

/-- The address of the leaf entry at which a walk meets a clear access flag. -/
def State.flagEntry (s : State) (ctx va : Nat) : Nat → Nat → Nat → Option Nat
  | 0, _, _ => none
  | fuel + 1, t, lv =>
    let a := t + levelIndex va lv * 8
    let e := s.entryAt a
    if !bit e.toNat 0 || s.malformed ctx e lv then none
    else if !bit e.toNat 1 then s.flagEntry ctx va fuel (leafOA e * 2 ^ 16) (lv + 1)
    else if bit e.toNat 5 then none
    else some a

/-- The leaf entry of an address whose access flag is clear. -/
def State.clearFlag (s : State) (ctx va : Nat) : Option Nat := s.flagEntry ctx (va % 2 ^ 55) 3 (s.context ctx).root 0

/-- Whether local bytes are held back from an access at their home: by the lock on a sector (R303), or by a busy line (R273). -/
def State.heldBack (s : State) (pa n : Nat) : Bool :=
  (sectorsOf pa n).any (fun x => (tabFind s.locks x).isSome) || !s.quietAt pa n

/-- The access flag of an address's page set by an atomic write of the control processors, where it is clear and nothing holds the entry back (R273, R289). -/
def State.setFlag (s : State) (ctx va : Nat) : State :=
  match s.clearFlag ctx va with
  | some a => if s.heldBack a 8 then s else s.homeStore a (leBytes 8 (Nat.lor (s.entryAt a).toNat 32)) .normal
  | none => s

/-- A store of a core: through its L1, or written at the home where the warp's own irrevocable lane holds the sector (R303) or the store is performed at a meeting (`now`, R345, R388);
a remote store is a request of the warp (R415). -/
def State.coreStore (s : State) (now : Bool) (core w ctx va : Nat) (p : Phys) (bs : List Byte) (cls : CacheClass) (na : Bool) : State :=
  if p.fab then s.request p.pkg (.store p.pa bs false) (.warp w) 0 va
  else if now || (tabFind s.locks (p.pa / 32)).isSome then s.homeWrite p.pa bs cls na
  else s.storeTouch core ⟨w, ctx, va, p.pa, bs⟩ cls na

/-- Whether an access of a warp at the home must wait for the warp's own stores to some of the bytes (R96). -/
def State.ownFirst (s : State) (core w : Nat) (p : Phys) (n : Nat) : Bool :=
  !p.fab && (s.unperformed core w).any fun x => x.touches p.pa n

/-- Whether a plain store of a warp must wait for the warp's own stores that are posted to the home: one that does not join them would not keep their order (R96). -/
def State.postsFirst (s : State) (core w : Nat) (p : Phys) (n : Nat) (cls : CacheClass) (na : Bool) : Bool :=
  !p.fab && (s.net ++ s.arrived).any fun m => m.kind == .homeWrite && m.data.any (fun x => x.warp == w && x.touches p.pa n)
    && !s.joinsPost core w p.pa cls na m

/-- Whether an access of a warp performed at the home must wait: for a lock (R303), for the warp's own stores to the bytes (R96), or for a busy line (R273). At a meeting (`now`) the
lines were free when it began, and it is one event (R345). -/
def State.homeWaits (s : State) (now : Bool) (core w : Nat) (p : Phys) (n : Nat) : Bool :=
  !p.fab && ((s.lockFor w p.pa).isSome || s.ownFirst core w p n || (!now && !s.quietAt p.pa n))

/-- Whether a plain store of a warp must wait: for a lock (R303), or for the warp's own stores posted to the home. Under a lock of the warp's own irrevocable lane it is performed at the
home (R307). -/
def State.storeWaits (s : State) (now : Bool) (core w : Nat) (p : Phys) (n : Nat) (cls : CacheClass) (na : Bool) : Bool :=
  if now || (!p.fab && (tabFind s.locks (p.pa / 32)).isSome) then s.homeWaits now core w p n else s.postsFirst core w p n cls na

/-- Whether a remote operation is an atomic. -/
def isAtomicOp : RemoteOp → Bool
  | .atomic .. | .claim .. | .tally .. => true
  | _ => false

/-- The answer that an asker holds for a remote operation, and whether it is poisoned. An atomic performed once answers its instruction whatever the operands read when it
issues again. -/
def State.answerTo (s : State) (who : Requester) (tag pkg : Nat) (op : RemoteOp) : Option (List Byte × Bool) :=
  (s.answers.find? fun a => a.who == who && a.tag == tag && ((a.pkg == pkg && a.op == op) || (isAtomicOp op && isAtomicOp a.op))).map
    fun a => (a.data, a.bad)

/-- Whether an asker's answer was asked for before the copies of its address were dropped (R416). -/
def State.staleAnswer (s : State) (who : Requester) (tag : Nat) : Bool := s.answers.any fun a => a.who == who && a.tag == tag && a.stale

/-- A remote load by an asker: from a kept copy of a read-only line, else from the peer's answer; without one, the request to send
(R415, R416). Of a line that holds poison no copy is kept, and the bytes are asked for alone; none is kept of a stale answer. -/
def State.remoteLoad (s : State) (who : Requester) (tag ctx va : Nat) (p : Phys) (n : Nat) :
    Except RemoteOp (State × List Byte × Bool) :=
  if p.readOnly then
    let line := p.pa / 128
    let part (bs : List Byte) : List Byte := (bs.drop (p.pa % 128)).take n
    match s.readOnlyCopies.find? fun c => c.pkg == p.pkg && c.line == line && c.ctx == ctx with
    | some c => .ok (s, part c.data, false)
    | none =>
      let op := RemoteOp.load (line * 128) 128
      match s.answerTo who tag p.pkg op, s.answerTo who tag p.pkg (.load p.pa n) with
      | some (bs, false), _ =>
        .ok (if s.staleAnswer who tag then s
          else { s with readOnlyCopies := s.readOnlyCopies ++ [⟨p.pkg, line, ctx, va / 128 * 128, bs⟩] }, part bs, false)
      | some (_, true), some (bs, bad) => .ok (s, bs, bad)
      | some (_, true), none => .error (.load p.pa n)
      | none, _ => .error op
  else
    let op := RemoteOp.load p.pa n
    match s.answerTo who tag p.pkg op with
    | some (bs, bad) => .ok (s, bs, bad)
    | none => .error op

/-- A load of a warp's lane: local through the L1, or remote (R193, R415). -/
def State.coreLoad (s : State) (core k tag ctx va : Nat) (p : Phys) (n : Nat) (cls : CacheClass) (na : Bool) :
    Except Stop (State × List Byte) :=
  if p.fab then
    match s.remoteLoad (.warp k) tag ctx va p n with
    | .ok (s1, bs, bad) => stopIf bad (.abort 0x11 (BitVec.ofNat 64 va)) (.ok (s1, bs))
    | .error op => .error (.remote tag p.pkg op va)
  else .ok (s.loadTouch core p.pa n cls na, s.seenAt core k p.pa n)

/-- The launch's written pages with one written now (R401). -/
def State.noteWrite (s : State) (id va : Nat) : State :=
  match tabFind s.launches id with
  | none => s
  | some x =>
    { s with launches := tabSet s.launches id { x with pagesWritten := tabSet x.pagesWritten (va / 2 ^ 16) s.clock } }

/-! ### Where an access goes -/

/-- Where an access of `n` bytes at a lane's address goes: its own private bytes (an offset from the window's base), private
range, or global memory (R150, R152). -/
inductive Place where
  | priv (off : Nat)
  | outside
  | global
  deriving DecidableEq, Repr

/-- The classification of R152. -/
def placeOf (env : Env) (a n : Nat) : Place :=
  if a + n ≤ env.base || env.base + 2 ^ 18 ≤ a then .global
  else if env.base ≤ a && a + n ≤ env.top then .priv (a - env.base)
  else .outside

/-- Where one lane's access ends up once translated; private bytes lie in memory, in pieces of a physical address and a size. -/
inductive Target where
  | priv (ps : List (Nat × Nat))
  | shared (off : Nat)
  | global (va : Nat) (p : Phys)
  | fault (cause : Nat) (addr : DWord)
  | doom (cause : Nat)
  deriving DecidableEq, Repr

/-- The translation fault of a lane's access. A speculative lane is doomed with cause fault by any fault but an access-flag one (R299); otherwise a fault is serviced, or aborts the
launch where it cannot be (R162, R289). -/
def lanesFault (env : Env) (x : Lane) (va : Nat) (k : AccessKind) : XKind → Except Stop Target
  | .accessFlag => .error (.translation env.ctx va k)
  | .malformed => if x.speculative then .ok (.doom 7) else .error (.abort 0x10 (BitVec.ofNat 64 va))
  | _ => if x.speculative then .ok (.doom 7) else .error (.translation env.ctx va k)

/-- A global access of a lane translated. A speculative lane is doomed with cause fault by a fabric page (R295, R299); an irrevocable lane's fabric access is an unserviceable fault
(R295). -/
def resolveGlobal (s : State) (env : Env) (x : Lane) (va : Nat) (k : AccessKind) : Except Stop Target :=
  match s.translate env.core env.ctx va k with
  | .ok p =>
    if p.fab && x.tx.isSome then (if x.speculative then .ok (.doom 7) else .error (.abort 0x10 (BitVec.ofNat 64 va)))
    else .ok (.global va p)
  | .error e => lanesFault env x va k e.1

/-! ### The private window (R151, R152) -/

/-- The backing address of a byte of lane `l`'s window, `off` bytes above its base (R151). -/
def backingOf (env : Env) (l off : Nat) : Nat := env.seg + off / 4 * 4 * env.width + 4 * l + off % 4

/-- The backing addresses of the words, or the part of a word, that make up `n` bytes of a lane's window. -/
def privWords (env : Env) (l off n : Nat) : List (Nat × Nat) :=
  if n < 4 then [(backingOf env l off, n)] else (upto (n / 4)).map fun i => (backingOf env l (off + 4 * i), 4)

/-- Backing addresses translated, without a check of permission (R151): the physical pieces, or the fault with its address. A page of another package backs nothing: DESIGN CHOICE, the
spec gives no such mapping of the region (log entry 118). -/
def State.privPhys (s : State) (env : Env) (k : AccessKind) : List (Nat × Nat) → Except (XKind × Nat) (List (Nat × Nat))
  | [] => .ok []
  | (va, n) :: r => match s.translateAt env.core env.ctx va k with
    | .ok p => if p.fab then .error (.malformed, va) else (s.privPhys env k r).map fun ps => (p.pa, n) :: ps
    | .error e => .error (e.1, va)

/-- A lane's access of `n` bytes of its own window translated. -/
def resolvePriv (s : State) (env : Env) (x : Lane) (l off n : Nat) (k : AccessKind) : Except Stop Target :=
  match s.privPhys env k (privWords env l off n) with
  | .ok ps => .ok (.priv ps)
  | .error e => lanesFault env x e.2 k e.1

/-- The bytes of physical pieces. -/
def State.piecesAt (s : State) (ps : List (Nat × Nat)) : List Byte := ps.flatMap fun p => s.bytesAt p.1 p.2

/-- Whether a physical piece is poisoned (R399). -/
def State.piecesBad (s : State) (ps : List (Nat × Nat)) : Bool := ps.any fun p => isPoisoned s.poison p.1 p.2

/-- Bytes written to physical pieces, through the L2 (R349). No other agent observes them (R153), so that no copy in an L1 is called in. -/
def State.putPieces (s : State) : List (Nat × Nat) → List Byte → State
  | [], _ => s
  | (pa, n) :: r, bs => ((s.writeBytes pa (bs.take n)).l2Access (pa / 128) .normal false true).putPieces r (bs.drop n)

/-- The L2 side of a read of physical pieces (R349). -/
def State.touchPieces (s : State) (ps : List (Nat × Nat)) : State := ps.foldl (fun s p => s.l2Access (p.1 / 128) .normal false false) s

/-- A read of private bytes; a poisoned word aborts the launch (R163). -/
def readPriv {α : Type} (s : State) (a : DWord) (ps : List (Nat × Nat)) (f : List Byte → Except Stop α) : Except Stop α :=
  stopIf (s.piecesBad ps) (.abort 0x11 a) <| f (s.piecesAt ps)

/-- The access of lane `l` to global memory or the private window, alignment first (R152, R197). -/
def resolve (s : State) (env : Env) (x : Lane) (l : Nat) (a : DWord) (n : Nat) (k : AccessKind) : Except Stop Target :=
  if a.toNat % n != 0 then .ok (.fault 0x08 a)
  else match placeOf env a.toNat n with
  | .priv off => resolvePriv s env x l off n k
  | .outside => .ok (.fault 0x09 a)
  | .global => resolveGlobal s env x a.toNat k

/-- The access of an instruction that reaches global memory alone: the whole private window is private range, and its backing is not looked at (Table 6.1). -/
def resolveOutside (s : State) (env : Env) (x : Lane) (a : DWord) (n : Nat) (k : AccessKind) : Except Stop Target :=
  if a.toNat % n != 0 then .ok (.fault 0x08 a)
  else match placeOf env a.toNat n with
  | .global => resolveGlobal s env x a.toNat k
  | _ => .ok (.fault 0x09 a)

/-- A lane's access to the team's shared memory: alignment, then the window (R194, R198). -/
def resolveShared (env : Env) (a : DWord) (n : Nat) : Target :=
  if a.toNat % n != 0 then .fault 0x08 a else if a.toNat + n ≤ env.shm then .shared a.toNat else .fault 0x09 a

/-- The key by which logs name a sector of shared memory, beyond every physical sector. -/
def sharedSector (off : Nat) : Nat := 2 ^ 60 + off / 32

/-- The key by which logs name a byte of shared memory. -/
def sharedKey (off : Nat) : Nat := 2 ^ 65 + off

end Sys2Proof.Machine
end

