-- ==== Sys2Proof/Machine/Front.lean ====
section
/-! DEFINITION. The front end's own side of memory: event records, its reads and writes, and completion events (R289, R303, R362, R399, R402, R415). -/

namespace Sys2Proof.Machine

/-! ### Event records (R402) -/

/-- The die of a core. -/
def dieOf (core : Nat) : Nat := core / 128

/-- The die whose ring takes the records of the front end: IOD0. -/
def frontDie : Nat := 8

/-- A record appended to a die's ring of 4,096, unless the rings are frozen (R402). -/
def State.log (s : State) (die : Nat) (e : EventRecord) : State :=
  if s.frozen then s
  else
    let r := tabGet s.rings die [] ++ [e]
    { s with rings := tabSet s.rings die (r.drop (r.length - 4096)) }

/-- A record of TYPE `typ` with the present clock (Table 19.4). -/
def State.record (s : State) (die typ ctx core code launch data : Nat) : State :=
  s.log die ⟨s.clock, typ, ctx, core, code, launch, data⟩

/-- The 64 bytes of a fault record (Table 6.4). -/
def FaultRecord.bytes (r : FaultRecord) : List Byte :=
  [r.cause, BitVec.ofNat 8 (ofBit r.nested + 2 * ofBit r.laneClass + 4 * ofBit r.noHandler + 8 * ofBit r.dropped),
    BitVec.ofNat 8 r.warp, 0] ++ leBytes 2 r.core ++ leBytes 2 r.mode.toNat ++ leBytes 8 r.launch ++ leBytes 8 r.team
    ++ leBytes 8 r.trapc.toNat ++ leBytes 8 r.taddr.toNat ++ leBytes 8 r.tlanes.toNat ++ leBytes 8 r.tlive.toNat
    ++ leBytes 8 r.repc.toNat

/-! ### Accesses of the front end -/

/-- The translation of an access by the front end, which uses no TLB and reaches neither the private window nor the backing region (R150, R151). -/
def State.translateFront (s : State) (ctx va : Nat) (k : AccessKind) : Option Phys :=
  if !s.reachesTables ctx va then none
  else match s.walk [] ctx (va % 2 ^ 55) k with
  | .ok (e, lv) => some (leafPhys e lv (va % 2 ^ 55 / 2 ^ 16) (va % 2 ^ 55))
  | .error _ => none

/-- The pages of a range that an access to it translates: an address in each. -/
def State.pagesOf (s : State) (ctx va n : Nat) : List Nat :=
  ((upto ((va % 2 ^ 16 + n + 2 ^ 16 - 1) / 2 ^ 16)).map fun i => max va (va / 2 ^ 16 * 2 ^ 16 + i * 2 ^ 16)).filter (s.reachesTables ctx)

/-- The access flags of the pages of a range set, as the control processors do for an access of the front end (R289). -/
def State.setFlags (s : State) (ctx va n : Nat) : State := (s.pagesOf ctx va n).foldl (fun s a => s.setFlag ctx a) s

/-- Whether the access flag of some page of a range could not be set yet. -/
def State.flagsHeld (s : State) (ctx va n : Nat) : Bool := (s.pagesOf ctx va n).any fun a => (s.clearFlag ctx a).isSome

/-- The walks of an access to a range: the entries of its pages read through the L2 (R286). -/
def State.walkRange (s : State) (ctx va n : Nat) : State := (s.pagesOf ctx va n).foldl (fun s a => s.walkTouch [] ctx (a % 2 ^ 55)) s

/-- Why an access of the front end does not go on: it cannot be made, it waits for a lock or a busy line, or it needs a peer's answer. -/
inductive FrontStop where
  | bad
  | wait
  | ask (pkg : Nat) (op : RemoteOp) (tag va : Nat)
  deriving DecidableEq, Repr

/-- Words of a poison list with those that some bytes touch added. -/
def addPoison (poison : List Nat) (a n : Nat) : List Nat := poison ++ (wordsTouched a n).filter fun k => !poison.contains k

/-- Whether the front end has asked a peer for something. -/
def State.asked (s : State) (pkg tag : Nat) (op : RemoteOp) : Bool :=
  (s.peer pkg).outstanding.any fun r => r.who == .front && r.tag == tag && r.op == op

/-- A request of the front end to a peer, made once. -/
def State.askOnce (s : State) (pkg : Nat) (op : RemoteOp) (tag va : Nat) : State :=
  if s.asked pkg tag op then s else s.request pkg op .front tag va

/-- The answers to the front end with some tags dropped. -/
def State.dropTags (s : State) (tag n : Nat) : State :=
  { s with answers := s.answers.filter fun a => !(a.who == .front && decide (tag ≤ a.tag) && decide (a.tag < tag + n)) }

/-- Whether a write of the front end with some tags was lost with its peer (R421). -/
def State.tagsLost (s : State) (tag n : Nat) : Bool :=
  s.answers.any fun a => a.who == .front && a.bad && decide (tag ≤ a.tag) && decide (a.tag < tag + n) && match a.op with
    | .store .. => true
    | _ => false

/-- Whether requests of the front end with some tags are outstanding. -/
def State.tagsOut (s : State) (tag n : Nat) : Bool :=
  s.peers.any fun e => e.2.outstanding.any fun r => r.who == .front && decide (tag ≤ r.tag) && decide (r.tag < tag + n)

/-- A range cut at the 64-bit words: the address and the length of each piece. -/
def wordPieces : Nat → Nat → Nat → List (Nat × Nat)
  | 0, _, _ => []
  | fuel + 1, va, n =>
    if n == 0 then []
    else
      let k := min n (8 - va % 8)
      (va, k) :: wordPieces fuel (va + k) (n - k)

/-- Some bytes of one 64-bit word read by the front end, and whether they are poisoned; bytes on another package come with the peer's answer (R415). -/
def State.frontPiece (s : State) (ctx tag va n : Nat) : Except FrontStop (List Byte × Bool) :=
  match s.translateFront ctx va .read with
  | none => .error .bad
  | some p =>
    if p.fab then
      if s.lostPeer p.pkg then .error .bad
      else match s.answerTo .front tag p.pkg (.load p.pa n) with
      | some x => .ok x
      | none => .error (.ask p.pkg (.load p.pa n) tag va)
    else if s.heldBack p.pa n then .error .wait
    else .ok (s.bytesAt p.pa n, isPoisoned s.poison p.pa n)

/-- Pieces read, one tag each from `tag` on. -/
def State.frontPieces (s : State) (ctx : Nat) : Nat → List (Nat × Nat) → Except FrontStop (List Byte × Bool)
  | _, [] => .ok ([], false)
  | tag, (va, n) :: r => match s.frontPiece ctx tag va n with
    | .error e => .error e
    | .ok (bs, bad) => match s.frontPieces ctx (tag + 1) r with
      | .error e => .error e
      | .ok (cs, bad') => .ok (bs ++ cs, bad || bad')

/-- What a piece read at its home does to the copies of its line and to the L2 (R349). -/
def State.frontTouch (s : State) (ctx : Nat) (x : Nat × Nat) : State :=
  match s.translateFront ctx x.1 .read with
  | some p => if p.fab then s else (s.homeRead p.pa x.2).l2Access (p.pa / 128) .normal false false
  | none => s

/-- A range read at its homes, and whether it holds poison. -/
def State.rangeRead (s : State) (ctx tag va n : Nat) : Except FrontStop (State × List Byte × Bool) :=
  let ps := wordPieces (n + 1) va n
  match s.frontPieces ctx tag ps with
  | .error e => .error e
  | .ok x => .ok ((ps.foldl (fun s x => s.frontTouch ctx x) (s.walkRange ctx va n)).dropTags tag (ps.length + 1), x)

/-- A range read by the front end, whose control processors set the access flags (R289), and whether it holds poison. -/
def State.frontRead (s : State) (ctx tag va n : Nat) : Except FrontStop (State × List Byte × Bool) :=
  let s0 := s.setFlags ctx va n
  if s0.flagsHeld ctx va n then .error .wait else s0.rangeRead ctx tag va n

/-- A packet or a descriptor read by the front end. Poison is taken like a byte that cannot be read (DEDUCED; log entry 119). -/
def State.frontFetch (s : State) (ctx tag va n : Nat) : Except FrontStop (State × List Byte) :=
  match s.frontRead ctx tag va n with
  | .error e => .error e
  | .ok (_, _, true) => .error .bad
  | .ok (s1, bs, false) => .ok (s1, bs)

/-- What a read that does not go on asks of a peer. -/
def State.askFor (s : State) : FrontStop → State
  | .ask pkg op tag va => s.askOnce pkg op tag va
  | _ => s

/-- Whether a read that does not go on can only be waited for. -/
def State.stuckFor (s : State) : FrontStop → Bool
  | .bad => false
  | .wait => true
  | .ask pkg op tag _ => s.asked pkg tag op

/-- Bytes of one 64-bit word written where a translation leads, poisoned or not. -/
def State.putPiece (s : State) (p : Phys) (tag va : Nat) (bs : List Byte) (bad : Bool) (c : CacheClass) (na : Bool) : State :=
  if p.fab then s.request p.pkg (.store p.pa bs bad) .front tag va
  else
    let s1 := s.homeWrite p.pa bs c na
    if bad then { s1 with poison := addPoison s1.poison p.pa bs.length } else s1

/-- Where a write of some bytes of one 64-bit word leads. -/
def State.frontPlace (s : State) (ctx va n : Nat) : Except FrontStop Phys :=
  match s.translateFront ctx va .write with
  | none => .error .bad
  | some p => if p.fab && s.lostPeer p.pkg then .error .bad else if !p.fab && s.heldBack p.pa n then .error .wait else .ok p

/-- Where the pieces of a write lead; a write is made whole or not at all. -/
def State.frontPlaces (s : State) (ctx : Nat) : List (Nat × Nat) → Except FrontStop (List Phys)
  | [] => .ok []
  | (va, n) :: r => match s.frontPlace ctx va n with
    | .error e => .error e
    | .ok p => (s.frontPlaces ctx r).map fun ps => p :: ps

/-- The pieces written. -/
def State.putPlaces (s : State) (tag : Nat) : List (Nat × Nat) → List Phys → List Byte → State
  | (va, n) :: r, p :: ps, bs => (s.putPiece p tag va (bs.take n) false .normal false).putPlaces tag r ps (bs.drop n)
  | _, _, _ => s

/-- Bytes written at their homes at a virtual address. -/
def State.rangeWrite (s : State) (ctx tag va : Nat) (bs : List Byte) : Except FrontStop State :=
  let ps := wordPieces (bs.length + 1) va bs.length
  match s.frontPlaces ctx ps with
  | .error e => .error e
  | .ok places => .ok ((s.walkRange ctx va bs.length).putPlaces tag ps places bs)

/-- Bytes written by the front end, whose control processors set the access flags (R289), at a virtual address. -/
def State.frontWrite (s : State) (ctx tag va : Nat) (bs : List Byte) : Except FrontStop State :=
  let s0 := s.setFlags ctx va bs.length
  if s0.flagsHeld ctx va bs.length then .error .wait else s0.rangeWrite ctx tag va bs

/-! ### Completion events (R362) -/

/-- A queue-table entry with its reset values (Table 17.3). -/
def Queue.empty : Queue where
  ring := 0
  size := 0
  ctx := 0
  cls := 3
  enabled := false
  halted := false
  errcode := 0
  tail := 0
  head := 0
  current := none
  raised := false
  inFlight := []
  lastDone := 0
  pages := []

/-- A queue by number. -/
def State.stream (s : State) (q : Nat) : Queue := tabGet s.queues q Queue.empty

/-- The tag of what a completion event sends to peers. -/
def signalTag (id : Nat) : Nat := 2 ^ 160 + id

/-- A completion event that is misaligned, cannot be translated or cannot be reached: skipped and logged. -/
def State.skipSignal (s : State) (g : Signal) : State := s.record frontDie 8 g.ctx 0xFFFF g.code 0 (g.va.getD 0)

/-- The addition to VALUE, with a release at fabric scope: none where it waits. -/
def State.addValue (s0 : State) (g : Signal) : Option State :=
  let va := g.va.getD 0
  let s := s0.setFlags g.ctx va 8
  if s.flagsHeld g.ctx va 8 then none
  else match s.translateFront g.ctx va .readWrite with
  | none => some (s0.skipSignal g)
  | some p =>
    if p.fab then
      some (if s.lostPeer p.pkg then s0.skipSignal g else s.request p.pkg (.atomic .add .n64 p.pa g.add 0) .front (signalTag g.id) va)
    else if s.heldBack p.pa 8 then none
    else some (if isPoisoned s.poison p.pa 8 then s0.skipSignal g
      else s.homeStore p.pa (leBytes 8 (natOfBytes (s.bytesAt p.pa 8) + g.add)) .normal)

/-- The next stage of a completion event, each after what the one before has written on a peer is performed: none where it waits. -/
def State.stepSignal (s : State) (g : Signal) : Option (State × SignalStage) :=
  if s.tagsOut (signalTag g.id) 1 then none
  else match g.stage with
  | .record => match g.record with
    | none => some (s, .status)
    | some (a, bs) => match s.frontWrite g.ctx (signalTag g.id) a bs with
      | .ok s1 => some (s1, .status)
      | .error .bad => some (s, .status)
      | .error _ => none
  | .status => match g.va with
    | none => some (s, .done)
    | some va =>
    if va % 16 != 0 then some (s.skipSignal g, .done)
    else match s.frontWrite g.ctx (signalTag g.id) (va + 8) (leBytes 8 (g.code + g.kind * 256)) with
    | .ok s1 => some (s1, .value)
    | .error .bad => some (s.skipSignal g, .done)
    | .error _ => none
  | .value => (s.addValue g).map fun s1 => (s1, .done)
  | .done => some ((s.dropTags (signalTag g.id) 1), .done)

/-- The number of a packet that has left the head and has not completed. -/
def InFlight.number : InFlight → Nat
  | .launch n _ | .copy n _ _ _ | .invalidate n _ _ | .signal n _ => n

/-- A stream with what is left in flight once something of packet `n` has ended: the packet has completed where nothing of it is left (R401). -/
def Queue.settle (x : Queue) (clock n : Nat) (left : List InFlight) : Queue :=
  if left.any fun i => i.number == n then { x with inFlight := left } else { x with inFlight := left, lastDone := clock, pages := [] }

/-- A stream with something that is in flight ended. -/
def Queue.drop (x : Queue) (clock : Nat) (p : InFlight → Bool) : Queue :=
  match x.inFlight.find? p with
  | some i => x.settle clock i.number (x.inFlight.filter fun i => !p i)
  | none => x

/-- A completion event ended: the packet that it completes is no longer in flight. -/
def State.endSignal (s : State) (g : Signal) : State :=
  let mine (i : InFlight) : Bool := match i with
    | .signal _ id => id == g.id
    | _ => false
  let s1 : State := { s with signals := s.signals.filter fun h => h.id != g.id }
  match g.queue with
  | none => s1
  | some q => { s1 with queues := tabSet s1.queues q ((s1.stream q).drop s.clock mine) }

/-- A completion event taken as far as it goes now; what is left of it is kept. -/
def State.runSignal : Nat → State → Signal → State
  | 0, s, _ => s
  | fuel + 1, s, g => match s.stepSignal g with
    | none => s
    | some (s1, st) =>
      let h := { g with stage := st }
      if g.stage == .done then s1.endSignal g
      else State.runSignal fuel { s1 with signals := s1.signals.map fun x => if x.id == g.id then h else x } h

/-- The stages of a completion event. -/
def signalStages : Nat := 4

/-- A completing packet's event begun (R362). `source` is the queue and the number of the packet, none for a child grid, and `record` the fault record with its address. -/
def State.signal (s : State) (source : Option (Nat × Nat)) (ctx : Nat) (va : Option Nat) (code kind add : Nat)
    (record : Option (Nat × List Byte)) : State :=
  let g : Signal := ⟨s.nextId, source.map (·.1), ctx, va, code, kind, add, record, .record⟩
  let s1 : State := { s with nextId := s.nextId + 1, signals := s.signals ++ [g] }
  let s2 : State := match source with
    | some (q, n) => { s1 with queues := tabSet s1.queues q { s1.stream q with inFlight := (s1.stream q).inFlight ++ [.signal n g.id] } }
    | none => s1
  State.runSignal signalStages s2 g

/-- The event that a packet names, which is none where the packet holds 0 (Tables 17.4 and 17.7). -/
def State.fireEvent (s : State) (source : Option (Nat × Nat)) (ctx va code kind add : Nat) : State :=
  if va == 0 then s else s.signal source ctx (some va) code kind add none

end Sys2Proof.Machine
end

