-- ==== Sys2Proof/Machine/Ops.lean ====
section
/-! DEFINITION. The shared operations over the whole state: the end of queues, teams and launches, what a warp sees of its launch, taking an exception and returning from one, and the issue of one instruction by the current warp (R160 to R169, R191, R259, R362, R385, R402). -/

namespace Sys2Proof.Machine

/-! ### Lookups -/

/-- A launch's packet field. -/
def Launch.field (x : Launch) (o n : Nat) : Nat := fieldAt x.packet o n

/-- The warp width of a launch (R14, Table 17.4). -/
def Launch.width (x : Launch) : Nat := if bit (x.field 1 1) 1 then 32 else 64

/-- The team-cluster size C (R249). -/
def Launch.clusterSize (x : Launch) : Nat := x.field 2 1

/-- The quantum Q of a deterministic launch, else 0 (R387). -/
def Launch.quantum (x : Launch) : Nat := x.field 0x1C 4

/-- The threads of a team. -/
def KernelDesc.threads (d : KernelDesc) : Nat := d.teamX * d.teamY * d.teamZ

/-- The bytes of a team's shared-memory window (R175). -/
def Launch.shmSize (x : Launch) : Nat := x.desc.split.shm / x.perCore * 16384

/-- The private window P (R150). -/
def Launch.privSize (x : Launch) : Nat := x.field 6 2 * 64

/-- Whether a team is on its core and has not been killed. -/
def TeamStatus.present : TeamStatus → Bool
  | .running | .stopping _ | .halted => true
  | .saved | .killed => false

/-- The team of a rank in a team's team cluster: its key (R249). -/
def State.teamOfRank (s : State) (tm : Team) (c r : Nat) : Option Nat :=
  (s.teams.find? fun e => e.2.launch == tm.launch && e.2.flat == tm.flat / c * c + r && e.2.status.present).map (·.1)

/-- What a warp's instruction sees of its launch, team and core; none where the warp has none. -/
def State.env? (s : State) (w : Warp) : Option Env :=
  match tabFind s.teams w.team with
  | none => none
  | some tm => match tabFind s.launches tm.launch with
    | none => none
    | some x =>
      let gx := x.field 0x10 4
      let gy := x.field 0x14 4
      let base := (s.context x.ctx).winBase
      some {
        budget := x.desc.regs
        base := base
        top := base + x.privSize
        seg := w.segment.toNat
        width := w.width
        spill := w.segment + BitVec.ofNat 64 (x.privSize * w.width)
        clock := s.clock
        core := w.core
        team := (tm.flat % gx, tm.flat / gx % gy, tm.flat / (gx * gy))
        dim := x.desc.teamX + x.desc.teamY * 2 ^ 16 + x.desc.teamZ * 2 ^ 32
        launch := x.number
        depth := x.depth
        flat := tm.flat
        seed := x.field 0x28 8
        bank := tm.active.bind fun i => tm.banks[i]?
        det := x.quantum != 0
        shm := x.shmSize
        ctx := x.ctx
        rlog := x.field 3 1
        wlog := x.field 4 1
        val := bit (x.field 1 1) 2
        cluster := x.clusterSize
        rank := tm.flat % x.clusterSize
        meeting := false }

/-- The handler's entry address: the `.trap` of the kernel descriptor, none for 0xFFFF_FFFF (R165, Table 18.6). -/
def State.handlerOf (s : State) (w : Warp) : Option DWord :=
  match tabFind s.teams w.team with
  | none => none
  | some tm => match tabFind s.launches tm.launch with
    | none => none
    | some x => if x.desc.trap == 0xFFFFFFFF then none else some (BitVec.ofNat 64 (x.desc.code + x.desc.trap))

/-! ### Fetch (R385) -/

/-- The bytes of a frame of a code version. -/
def State.frameBytes (s : State) (f : Frame) (o n : Nat) : List Byte :=
  match f with
  | .physical pa => s.bytesAt (pa + o) n
  | .copied bs => (upto n).map fun i => tabGet bs (o + i) 0

/-- The first element of a list that a function accepts, with its index. -/
def findIdx {α β : Type} (f : Nat → α → Option β) : Nat → List α → Option β
  | _, [] => none
  | i, x :: r => match f i x with
    | some y => some y
    | none => findIdx f (i + 1) r

/-- The code region, bound version and unit that hold an address, for a launch (R382, R383). -/
def State.unitAt (s : State) (x : Launch) (a : Nat) : Option (Nat × CodeRegion × CodeVersion × CodeUnit) :=
  findIdx (fun i (r : CodeRegion) =>
    if r.ctx == x.ctx && decide (r.base ≤ a) && decide (a < r.base + r.len) then
      match tabFind x.versions i with
      | none => none
      | some n => match tabFind r.versions n with
        | none => none
        | some v => (v.units.find? fun u => decide (u.offset ≤ a - r.base) && decide (a - r.base < u.offset + u.size)).map
            fun u => (i, r, v, u)
    else none) 0 s.code

/-- The word at an address of a launch's bound versions, with the region and offset of its unit. -/
def State.fetchWord (s : State) (x : Launch) (a : DWord) : Option ((Nat × Nat) × Nat) :=
  match s.unitAt x a.toNat with
  | none => none
  | some (i, r, v, u) =>
    let o := a.toNat - r.base
    match v.frames[o / 2 ^ 16]? with
    | none => none
    | some f => some ((i, u.offset), natOfBytes (s.frameBytes f (o % 2 ^ 16) 4))

/-- Whether bytes of a frame of a code version lie in a poisoned word of memory. -/
def State.frameBad (s : State) (f : Frame) (o n : Nat) : Bool :=
  match f with
  | .physical pa => isPoisoned s.poison (pa + o) n
  | .copied _ => false

/-- Whether the word at an address of a launch's bound versions lies in a poisoned word of memory, which a fetch consumes (R163, R399). -/
def State.wordBad (s : State) (x : Launch) (a : DWord) : Bool :=
  match s.unitAt x a.toNat with
  | none => false
  | some (_, r, v, _) =>
    let o := a.toNat - r.base
    match v.frames[o / 2 ^ 16]? with
    | none => false
    | some f => s.frameBad f (o % 2 ^ 16) 4

/-- Whether an address is the entry of a function of the bound versions, the OFFSET of a KIND 1 unit of any size, and its declared budget (R103, R382). -/
def State.funcBudget (s : State) (x : Launch) (a : Nat) : Option Nat :=
  findIdx (fun i (r : CodeRegion) =>
    if r.ctx == x.ctx && decide (r.base ≤ a) then
      match (tabFind x.versions i).bind (tabFind r.versions) with
      | none => none
      | some v => (v.units.find? fun u => u.kind == 1 && u.offset == a - r.base).map (·.regs)
    else none) 0 s.code

/-- An island's frequency in MHz (R403): that of the cores 2i and 2i + 1. -/
def State.frequency (s : State) (i : Nat) : Nat := tabGet s.islands i 1600

/-- The clocks of `%clock` that some clocks of a core's island take (R403). -/
def State.clocksOf (s : State) (core n : Nat) : Nat :=
  let f := s.frequency (core / 2)
  (n * 1600 + f - 1) / f

/-- The launch of a warp. -/
def State.launchOf (s : State) (w : Warp) : Option Launch :=
  (tabFind s.teams w.team).bind fun tm => tabFind s.launches tm.launch

/-! ### Queues, teams and launches end -/

/-- A queue register set that nothing owns. -/
def QueueRegs.empty : QueueRegs where
  owner := none
  base := 0
  esize := 0
  opened := false
  armed := false
  count := 0
  head := 0
  filled := 0
  free := 0
  prod := 0
  requests := []

/-- A core's queue register set. -/
def Core.queue (c : Core) (q : Nat) : QueueRegs := nth c.queues q QueueRegs.empty

/-- The sixteen queue register sets of a core with one replaced. -/
def Core.setQueue (c : Core) (q : Nat) (x : QueueRegs) : Core :=
  { c with queues := (upto 16).map fun i => if i == q then x else c.queue i }

/-- A core's queue register set replaced. -/
def State.setQueue (s : State) (core q : Nat) (x : QueueRegs) : State :=
  { s with cores := tabSet s.cores core ((s.core core).setQueue q x) }

/-- Waiting warps made ready again, so that each issues its instruction anew. -/
def State.wake (s : State) (ks : List Nat) : State :=
  { s with warps := s.warps.map fun e => if ks.contains e.1 then (e.1, { e.2 with status := .ready }) else e }

/-- A queue freed with its entries (R259): the appends that wait for a grant issue again, and find no open queue. -/
def State.freeQueue (s : State) (core q : Nat) : State :=
  let x := (s.core core).queue q
  (s.setQueue core q QueueRegs.empty).wake x.requests

/-- The queues owned by a team on a core freed. -/
def State.freeQueues (s : State) (core team : Nat) : State :=
  (upto 16).foldl (fun s q => if ((s.core core).queue q).owner == some team then s.freeQueue core q else s) s

/-- A warp detached from every queue it is attached to (R259), and out of every list of waiting appends. -/
def State.detachAll (s : State) (k : Nat) (w : Warp) : State :=
  let s1 := { s with cores := s.cores.map fun e =>
    (e.1, { e.2 with queues := e.2.queues.map fun q => { q with requests := q.requests.filter (· != k) } }) }
  match tabFind s.teams w.team with
  | none => s1
  | some tm => match tabFind s.launches tm.launch with
    | none => s1
    | some x => (upto 128).foldl (fun s b =>
        if w.attached.getLsbD b then
          match s.teamOfRank tm x.clusterSize (b / 16) with
          | some t => match tabFind s.teams t with
            | some tm' =>
              let q := (s.core tm'.core).queue (b % 16)
              if q.owner == some t then s.setQueue tm'.core (b % 16) { q with prod := q.prod - 1 } else s
            | none => s
          | none => s
        else s) s1

/-- The locks of a warp released; the sectors that an irrevocable lane wrote take fresh versions (R307). -/
def State.releaseLocks (s : State) (k : Nat) (w : Warp) : State :=
  let written := w.lanes.flatMap fun x => match x.tx with
    | some t => if t.irrevocable then t.written else []
    | none => []
  written.foldl State.freshen { s with locks := s.locks.filter fun e => e.2.warp != k }

/-- The token and the requests for it, without those of a warp (R307). -/
def State.releaseToken (s : State) (k : Nat) : State :=
  { s with
    token := s.token.bind fun t => if t.1 == k then none else some t
    tokenQueue := s.tokenQueue.filter fun t => t.1 != k }

/-- The engine operations of some warps or a team cancelled, with what they have done so far (R191, R232, R39). The remote writes that they have sent become their warps'. -/
def State.cancelOps (s : State) (f : EngineOp → Bool) : State :=
  let gone := (s.ops.filter fun e => f e.2).map (·.1)
  let keep (l : List Nat) : List Nat := l.filter fun n => !gone.contains n
  let heir (r : RemoteRequest) : RemoteRequest := match r.who with
    | .op n => if gone.contains n then { r with who := .warp (((tabFind s.ops n).map (·.warp)).getD 0) } else r
    | _ => r
  { s with
    ops := s.ops.filter fun e => !f e.2
    peers := s.peers.map fun e => (e.1, { e.2 with outstanding := e.2.outstanding.map heir })
    cores := s.cores.map fun e =>
      (e.1, { e.2 with copyQueue := keep e.2.copyQueue, matrixQueue := keep e.2.matrixQueue, actQueue := keep e.2.actQueue }) }

/-- What a warp holds outside itself given up: queues, locks, token and arrivals. -/
def State.dropHoldings (s : State) (k : Nat) : State :=
  match tabFind s.warps k with
  | none => s
  | some w => ((s.detachAll k w).releaseLocks k w).releaseToken k

/-- A warp of a killed team: it issues nothing more, and stays only until what it has issued has completed (R191). -/
def Warp.killed (w : Warp) : Warp :=
  { w with
    status := .retired, live := 0, active := 0, attached := 0, pending := [], commit := none, handler := none, openOps := [], batches := []
    detWrites := [], detVas := [], detPushes := [], detChildren := [], detArrivals := [] }

/-- A team killed: its warps stop, its operations are cancelled, its spawned threads are discarded, and its queues end (R191, R259). Its reservation ends with the
last of its stores, atomics and pushes, a saved team's at once. Its collectives fail on every member (R420). -/
def State.killTeam (s : State) (t : Nat) : State :=
  let ks := (s.warps.filter fun e => e.2.team == t).map (·.1)
  let s1 := ks.foldl State.dropHoldings s
  let core := (tabFind s1.teams t).map (·.core)
  let s2 := match core with
    | some c => s1.freeQueues c t
    | none => s1
  let s3 := s2.cancelOps fun o => o.team == t
  let gone := ks.isEmpty || ((tabFind s3.teams t).map (·.status)) == some .saved
  { s3 with
    warps := if gone then s3.warps.filter fun e => e.2.team != t
      else s3.warps.map fun e => if e.2.team == t then (e.1, e.2.killed) else e
    teams := if gone then tabDel s3.teams t
      else s3.teams.map fun e => if e.1 == t then (e.1, { e.2 with status := .killed, barArrived := [], cbarArrived := [] }) else e
    cores := s3.cores.map fun e =>
      (e.1, { e.2 with bins := e.2.bins.filter fun b => b.team != t, sealed := e.2.sealed.filter fun b => b.team != t })
    collectives := s3.collectives.map fun e => if e.2.team == t then (e.1, { e.2 with error := e.2.error ||| 32 }) else e
    turn := s3.turn.bind fun k => if ks.contains k then none else some k }

/-- Whether a launch has an ancestor, itself included. -/
def State.descends (s : State) (a : Nat) : Nat → Nat → Bool
  | 0, _ => false
  | fuel + 1, x => x == a || match tabFind s.launches x with
    | some l => match l.parent with
      | some p => s.descends a fuel p
      | none => false
    | none => false

/-- The pending descendants of a grid discarded with status CANCELLED (R370, Table 17.5). -/
def State.cancelChildren (s : State) (a : Nat) : State :=
  let gone := s.children.filter fun c => s.descends a 11 c.parent
  gone.foldl (fun s c => s.fireEvent none c.ctx (fieldAt c.packet 0x30 8) 3 (fieldAt c.packet 0 1) 1)
    { s with children := s.children.filter fun c => !s.descends a 11 c.parent }

/-- A launch ended early with a status: its teams, saved ones included, are killed and its pending descendants discarded. -/
def State.endLaunch (s : State) (id : Nat) (st : LaunchStatus) (r : Option FaultRecord) : State :=
  match tabFind s.launches id with
  | none => s
  | some x =>
    match x.record, r with
    | some old, some _ => { s with launches := tabSet s.launches id { x with record := some { old with dropped := true } } }
    | _, _ =>
      let s1 := { s with launches := tabSet s.launches id { x with status := st, record := r } }
      let ts := (s1.teams.filter fun e => e.2.launch == id).map (·.1)
      (ts.foldl State.killTeam s1).cancelChildren id

/-- A launch aborted by a trap or fault with one fault record (R169, R191). -/
def State.abortLaunch (s : State) (w : Warp) (cause : Nat) (nested lane noHandler : Bool) (trapc taddr : DWord) (tlanes : Mask) :
    State :=
  match tabFind s.teams w.team with
  | none => s
  | some tm => match tabFind s.launches tm.launch with
    | none => s
    | some x =>
      let r : FaultRecord := {
        cause := BitVec.ofNat 8 cause
        nested := nested
        laneClass := lane
        noHandler := noHandler
        dropped := false
        warp := w.warpid
        core := w.core
        mode := w.mode
        launch := x.number
        team := tm.flat
        trapc := trapc
        taddr := taddr
        tlanes := tlanes
        tlive := w.live
        repc := w.repc }
      (s.record (dieOf w.core) 1 x.ctx w.core cause x.number trapc.toNat).endLaunch tm.launch .aborted (some r)

/-! ### Taking an exception and returning from one -/

/-- The warp put in its place in the state. -/
def State.putWarp (s : State) (k : Nat) (w : Warp) : State := { s with warps := tabSet s.warps k w }

/-- A lane's record in the handler reserve (Table 6.3). -/
def laneRecord (x : Lane) (repc : BitVec 7) : List Byte :=
  let p := x.parked.getD ⟨0, 0, 0⟩
  leBytes 8 p.pc.toNat ++ leBytes 8 p.addr.toNat ++ [p.cause, 0, 0, 0, 0, 0, 0, 0] ++ leBytes 8 repc.toNat

/-- The warp in its handler: steps 1, 2 and 4 to 6 of R165 and the trap registers. -/
def Warp.enter (w0 : Warp) (entry : DWord) (cause : Nat) (addr : DWord) (lanes : Mask) : Warp :=
  let w := w0.drain
  { w with
    handler := some ⟨w.mode, w.active ||| w.parked, w.stack.length, w.meld, w.path⟩
    lanes := (upto w.lanes.length).map fun l =>
      let x := w.lane l
      if inMask w.live l then { x with parked := none } else x
    active := w.live
    mode := 0x004F
    meld := none
    path := 0
    tcause := BitVec.ofNat 8 cause
    taddr := addr
    tlanes := lanes
    tlive := w.live
    trapc := w.pc
    repResume := false
    repOpen := false
    marker := false
    prev := none
    status := .ready
    pc := entry }

/-- The lane records of the live lanes of a warp written in the handler reserves (R165, step 3), or the translation fault that one meets. -/
def State.writeRecords (env : Env) (w : Warp) : List Nat → State → Except (XKind × Nat) State
  | [], s => .ok s
  | l :: r, s => match s.privPhys env .write (privWords env l 0 32) with
    | .ok ps => State.writeRecords env w r (s.putPieces ps (laneRecord (w.lane l) w.repc))
    | .error e => .error e

/-- A handler entry that meets a translation fault on a record: the instruction is made anew once the fault has been serviced (R162, R165). An unserviceable one aborts the launch. -/
def State.entryFault (s : State) (k : Nat) (env : Env) (w : Warp) (x : XKind) (va : Nat) : State :=
  match x, tabFind s.warps k with
  | .malformed, _ => s.abortLaunch w 0x10 false false false w.pc (BitVec.ofNat 64 va) w.active
  | _, some w0 => s.putWarp k { w0 with status := .waiting (.translation env.ctx va .write false) }
  | _, none => s

/-- Taking an exception: the warp enters its handler with a cause, an address and the lanes implicated (R165). In handler state it
is a nested trap (R168); without a handler, or with s31 outside the stack, the launch is aborted instead (R165, R166). -/
def State.takeTrap (s : State) (k : Nat) (w : Warp) (cause : Nat) (addr : DWord) (lanes : Mask) (lane : Bool) : State :=
  match s.env? w with
  | none => s
  | some env =>
    if w.handler.isSome then s.abortLaunch w cause true lane false w.pc addr lanes
    else match s.handlerOf w with
    | none => s.abortLaunch w cause false lane true w.pc addr lanes
    | some entry =>
      let s31 := (w.scal 31).toNat
      if s31 < env.stklim || env.top < s31 then s.abortLaunch w 0x06 false false false w.pc (w.scal 31) lanes
      else match State.writeRecords env w (lanesOf w.width w.live) s with
        | .error (x, va) => s.entryFault k env w x va
        | .ok s1 => (s1.record (dieOf w.core) 1 env.ctx w.core cause env.launch w.pc.toNat).putWarp k (w.enter entry cause addr lanes)

/-- The handler entered for the parked lanes, with the cause and address of the lowest of them (R161). In handler state their fault is a nested trap, whose record
names the instruction that faulted (R168). -/
def State.enterParked (s : State) (k : Nat) (w : Warp) : State :=
  match lowestLane w.width w.parked with
  | none => s
  | some l =>
    let p := (w.lane l).parked.getD ⟨0, 0, 0⟩
    if w.handler.isSome then s.abortLaunch w p.cause.toNat true true false p.pc p.addr w.parked
    else s.takeTrap k w p.cause.toNat p.addr w.parked true

/-- Every active lane with an open speculative transaction doomed with cause fault (R299). -/
def Warp.doomActive (w : Warp) : Warp :=
  { w with lanes := (upto w.lanes.length).map fun l =>
      let x := w.lane l
      if inMask w.active l && x.speculative && !x.isDoomed then
        { x with tx := x.tx.map fun t => { t with doomed := some (7, 0) } }
      else x }

/-- Whether a warp-class trap would only doom lanes: every active lane is left doomed, so that it is raised for none (R299). -/
def Warp.onlyDooms (w : Warp) : Bool :=
  w.anyTx && w.doomActive.active &&& ~~~w.doomActive.doomed == 0 && w.active != 0

/-- A warp-class trap (R164): the speculative lanes are doomed, and the trap is raised for the active lanes that are not doomed
(R299). Where none is left the instruction only ends. -/
def State.raise (s : State) (k : Nat) (w : Warp) (len : Nat) (cause : Nat) (addr : DWord) (lanes : Mask) : State :=
  let w1 := w.doomActive
  let rest := w1.active &&& ~~~w1.doomed
  if w.onlyDooms then s.putWarp k (w1.finish (.after len))
  else s.takeTrap k w1 cause addr (if w.anyTx then lanes &&& rest else lanes) false

/-- A lane-class fault of a scalar access, charged to the lowest-numbered live lane (R97): the lane parks or is doomed, and the
instruction has no other effect. Where that lane is parked already, the record of the later fault replaces the earlier one. DESIGN CHOICE: R97 charges each such fault to that
lane and R160 lets a lane record one fault, and neither says which of two is kept (log entry 109). -/
def Warp.charge (w : Warp) (cause : Nat) (addr : DWord) : Warp := applyLane w w.lowestLive (.error (cause, addr))

/-- Return from the handler (R167, R113): mode, mask and stretch restored, PC from `%trapc`; `%repc` stays in force only where the
target is a `REP` word. -/
def Warp.leave (w : Warp) (h : Handler) (targetIsRep : Bool) : Warp :=
  let resume := targetIsRep && w.repc != 0
  { w with
    mode := h.mode
    active := h.resume &&& w.live
    meld := h.meld
    path := h.path &&& w.live
    handler := none
    repResume := resume
    repOpen := false
    repc := if resume then w.repc else 0 }

/-! ### The issue of one instruction -/

/-- The warp with an issued instruction counted (R387). -/
def Warp.countIssue (w : Warp) : Warp := { w with count := w.count + 1 }

/-- What a stop does to the warp and the state; `len` is the instruction's length in bytes. A remote atomic that has been sent cannot be recalled, so that the region is
tainted from then on (R38; log entry 29). -/
def State.halt (s : State) (k : Nat) (w : Warp) (len : Nat) : Stop → State
  | .trap cause addr lanes => s.raise k w.countIssue len cause addr lanes
  | .raised cause addr lanes => s.takeTrap k w.countIssue cause addr lanes false
  | .parked => s.enterParked k w
  | .charged cause addr =>
    let w1 := w.countIssue.charge cause addr
    if w1.handler.isSome && w1.parked != 0 then s.enterParked k w1 else s.putWarp k (w1.finish (.after len))
  | .translation ctx va kd => s.putWarp k { w with status := .waiting (.translation ctx va kd false) }
  | .abort cause addr => s.abortLaunch w cause false false false w.pc addr w.active
  | .remote tag pkg op va =>
    let w1 := if isAtomicOp op then { w with region := { w.region with tainted := true } } else w
    (s.request pkg op (.warp k) tag va).putWarp k { w1 with status := .waiting .remote }
  | .wait wt => s.putWarp k { w with status := .waiting wt }

/-- The counters of a warp's lanes noted with its team (R397). -/
def State.noteDraws (s : State) (w : Warp) : State :=
  match tabFind s.teams w.team with
  | some tm =>
    let counters := w.lanes.map fun x => (x.drawc, x.srdraw)
    { s with teams := tabSet s.teams w.team { tm with draws := tabSet tm.draws w.warpid counters } }
  | none => s

/-- A warp after its instruction took effect: retired where no lane is live (R31), its random counters kept for its `%warpid` (R397); in its handler where a lane
faulted in handler state (R168), else as it is. -/
def State.settle (s : State) (k : Nat) (w : Warp) : State :=
  if w.handler.isSome && w.parked != 0 then s.enterParked k w
  else if w.live == 0 then ((s.detachAll k w).noteDraws w).putWarp k { w with status := .retired, attached := 0 }
  else s.putWarp k w.countIssue

/-- The warp with its region tainted (R38). -/
def Warp.taint (w : Warp) : Warp := { w with region := { w.region with tainted := true } }

/-- What an instruction does: the state and the warp after it, and where the warp goes on; or why it stops. -/
abbrev Effect := Except Stop (State × Warp × Next)

/-- The answers kept for a warp dropped, its instruction having used them. -/
def State.forget (s : State) (k : Nat) : State := { s with answers := s.answers.filter fun a => a.who != .warp k }

/-- The issue of an instruction of `len` bytes by a warp. -/
def State.issueBy (s : State) (k : Nat) (w : Warp) (len : Nat) (f : State → Nat → Env → Warp → Effect) : State :=
  let w0 := { w with status := .ready }
  match s.env? w with
  | none => s
  | some env => match f s k env w0 with
    | .ok (s1, w1, next) => (s1.forget k).settle k (w1.finish next)
    | .error e => s.halt k w0 len e

/-- The issue of an instruction by the current warp; without one there is nothing to execute it (R13). -/
def State.issueOf (s : State) (len : Nat) (f : State → Nat → Env → Warp → Effect) : Host.Outcome State Fault Refusal :=
  match s.turn with
  | none => .fault .noWarp
  | some k => match tabFind s.warps k with
    | none => .fault .noWarp
    | some w => .next (s.issueBy k w len f)

/-- The issue of an instruction that parks as at a marker: its pending results are written and its latches cleared whatever comes of it (R24, R25). -/
def State.issueParked (s : State) (len : Nat) (f : State → Nat → Env → Warp → Effect) : Host.Outcome State Fault Refusal :=
  match s.turn with
  | none => .fault .noWarp
  | some k => match tabFind s.warps k with
    | none => .fault .noWarp
    | some w => .next (s.issueBy k w.drain len f)

/-- The issue of an instruction that changes the warp alone and goes on to the next word. -/
def State.issue (s : State) (f : Env → Warp → Except Stop Warp) : Host.Outcome State Fault Refusal :=
  s.issueOf 4 fun s _ env w => (f env w).map fun w' => (s, w', .after 4)

/-- The warp with a reuse latch filled with the register `n`, as read at issue, where the word carries the mark (R25, R79). The
latch is filled before the instruction's destinations clear latches. -/
def Warp.mark (w : Warp) (reuse : Bool) (n : Nat) : Warp := if reuse then w.fillLatch w n else w

/-- The issue of an instruction that changes the state and goes on to the next word. -/
def State.issueMem (s : State) (f : State → Nat → Env → Warp → Except Stop (State × Warp)) : Host.Outcome State Fault Refusal :=
  s.issueOf 4 fun s k env w => (f s k env w).map fun r => (r.1, r.2, .after 4)

/-- The issue of a control instruction that changes the warp and chooses where it goes on. -/
def State.issueControl (s : State) (len : Nat) (f : Env → Warp → Except Stop (Warp × Next)) : Host.Outcome State Fault Refusal :=
  s.issueOf len fun s _ env w => (f env w).map fun r => (s, r.1, r.2)

end Sys2Proof.Machine
end

