-- ==== Sys2Proof/Machine/Scalar.lean ====
section
/-! DEFINITION. The scalar instructions: arithmetic, scalar memory access and atomics, and the special registers (R18, R91 to R99, R135). -/

namespace Sys2Proof.Machine

/-! ### Scalar arithmetic (R92 to R94) -/

/-- The offset and width of a scalar bit field (R92). -/
def scalarField (c : Nat) : Nat × Nat := (bits c 5 0, min (bits c 14 8) 64)

/-- The functions of Table 4.2; `old` is the old destination, which `bfi` reads. -/
def scalarAlu (f : ScalarOp) (old a b : DWord) : DWord :=
  match f with
  | .add => a + b
  | .sub => a - b
  | .mul => a * b
  | .mulh => BitVec.ofInt 64 (a.toInt * b.toInt / (2 ^ 64 : Nat))
  | .mulhn => BitVec.ofNat 64 (a.toNat * b.toNat / 2 ^ 64)
  | .and => a &&& b
  | .or => a ||| b
  | .xor => a ^^^ b
  | .shl => a <<< (b.toNat % 64)
  | .shr => a >>> (b.toNat % 64)
  | .sra => a.sshiftRight (b.toNat % 64)
  | .min => if a.toInt ≤ b.toInt then a else b
  | .max => if a.toInt ≤ b.toInt then b else a
  | .minn => if a ≤ b then a else b
  | .maxn => if a ≤ b then b else a
  | .slt => boolD (decide (a.toInt < b.toInt))
  | .sltn => boolD (decide (a < b))
  | .clz => BitVec.ofNat 64 (leadingZeros 64 a.toNat)
  | .popc => BitVec.ofNat 64 (popcount 64 a.toNat)
  | .bfe =>
    let (o, n) := scalarField b.toNat
    BitVec.ofNat 64 (a.toNat / 2 ^ o % 2 ^ n)
  | .bfi =>
    let (o, n) := scalarField b.toNat
    let k := BitVec.ofNat 64 ((2 ^ n - 1) * 2 ^ o)
    (old &&& ~~~k) ||| ((a <<< o) &&& k)
  | .mov => a

/-- The functions of R93 on a sign-extended immediate. -/
def scalarImm (f : ScalarImmOp) (a : DWord) (i : Int) : DWord :=
  let b := sextAddr i
  match f with
  | .addi => a + b
  | .andi => a &&& b
  | .ori => a ||| b
  | .xori => a ^^^ b
  | .slli => a <<< (b.toNat % 64)
  | .srli => a >>> (b.toNat % 64)
  | .srai => a.sshiftRight (b.toNat % 64)
  | .slti => boolD (decide (a.toInt < b.toInt))

/-- An upper immediate: imm20 << 12, sign-extended from 32 bits (R94). -/
def upperImm (i : Nat) : DWord := (BitVec.ofNat 32 (i * 2 ^ 12)).signExtend 64

/-- `SALU` (R92). Computes a 64-bit scalar function of s[sa] and s[sb] into s[sd]. -/
def execSalu (f : ScalarOp) (d a b : Nat) (s : State) : Host.Outcome State Fault Refusal :=
  s.issue fun _ w => .ok (w.setScal d (scalarAlu f (w.scal d) (w.scal a) (w.scal b)))

/-- `SALUI` (R93). Computes a scalar function of s[sa] and a sign-extended 12-bit immediate. -/
def execSalui (f : ScalarImmOp) (d a : Nat) (i : Int) (s : State) : Host.Outcome State Fault Refusal :=
  s.issue fun _ w => .ok (w.setScal d (scalarImm f (w.scal a) i))

/-- `SLUI` (R94). Writes the sign-extended 20-bit immediate shifted left 12 into s[sd]. -/
def execSlui (d i : Nat) (s : State) : Host.Outcome State Fault Refusal := s.issue fun _ w => .ok (w.setScal d (upperImm i))

/-- `SAUIPC` (R94). Writes PC plus the shifted 20-bit immediate into s[sd]. -/
def execSauipc (d i : Nat) (s : State) : Host.Outcome State Fault Refusal :=
  s.issue fun _ w => .ok (w.setScal d (w.pc + upperImm i))

/-! ### Accesses of the warp (R95 to R98) -/

/-- The key of a byte of memory in a warp's deterministic stores: its physical address, or one beyond it for a peer's memory. -/
def physKey (p : Phys) : Nat := if p.fab then 2 ^ 70 * (p.pkg + 1) + p.pa else p.pa

/-- Bytes under the warp's own stores of the quantum, the latest store to each byte first (R345). -/
def Warp.overlay (w : Warp) (key : Nat) (bs : List Byte) : List Byte :=
  (upto bs.length).map fun i => (tabFind w.detWrites (key + i)).getD (nth bs i 0)

/-- Bytes noted as the warp's latest stores (R345). -/
def Warp.noteStores (w : Warp) (key : Nat) (bs : List Byte) : Warp :=
  { w with detWrites := (upto bs.length).foldl (fun m i => tabSet m (key + i) (nth bs i 0)) w.detWrites }

/-- The virtual addresses of a store noted (R203, R401, R415). -/
def Warp.noteVas (w : Warp) (p : Phys) (va n : Nat) : Warp :=
  { w with detVas := (upto n).foldl (fun m i => tabSet m (physKey p + i) (va + i)) w.detVas }

/-- The sector entry of a write log with bytes stored at an offset within the sector. -/
def WriteEntry.store (e : WriteEntry) (o : Nat) (bs : List Byte) : WriteEntry :=
  { e with
    wmask := e.wmask ||| BitVec.ofNat 32 ((2 ^ bs.length - 1) * 2 ^ o)
    data := (upto 32).map fun i => if o ≤ i && i < o + bs.length then nth bs (i - o) 0 else nth e.data i 0 }

/-- An empty sector entry of a write log (Table 14.2). -/
def WriteEntry.new (sect : Nat) : WriteEntry := ⟨sect, 0, List.replicate 32 0⟩

/-- A store entered in a log of at most `limit` sectors; none where it needs a new entry and the log is full (R297, R388). -/
def logStore (log : List WriteEntry) (limit sect o : Nat) (bs : List Byte) : Option (List WriteEntry) :=
  if log.any fun e => e.sect == sect then some (log.map fun e => if e.sect == sect then e.store o bs else e)
  else if log.length < limit then some (log ++ [(WriteEntry.new sect).store o bs])
  else none

/-- The launch key of a warp. -/
def State.launchKey (s : State) (w : Warp) : Nat := (tabFind s.teams w.team).map (·.launch) |>.getD 0

/-- Where a warp's scalar access goes, in the window that of lane `l` (R152, R162, R192). -/
def resolveScalar (s : State) (env : Env) (l : Nat) (a : DWord) (n : Nat) (k : AccessKind) : Except Stop Target :=
  if a.toNat % n != 0 then .error (.charged 0x08 a)
  else match resolve s env Lane.start l a n k with
  | .ok (.fault cause addr) => .error (.charged cause addr)
  | r => r

/-- Where a warp's access at a home goes: global memory alone, without a look at what backs the window (Table 6.1). -/
def resolveHome (s : State) (env : Env) (a : DWord) (n : Nat) (k : AccessKind) : Except Stop Target :=
  match resolveOutside s env Lane.start a n k with
  | .ok (.fault cause addr) => .error (.charged cause addr)
  | r => r

/-- The bytes of a scalar access, with what a load does to the state (R95, R96, R303). -/
def loadScalar (s : State) (k : Nat) (env : Env) (w : Warp) (i : Instr) (a : DWord) (n : Nat) :
    Except Stop (State × List Byte) :=
  match resolveScalar s env w.lowestLive a n .read with
  | .ok (.priv ps) => readPriv s a ps fun bs => .ok (s.touchPieces ps, bs)
  | .ok (.global va p) =>
    stopIf (!p.fab && (sectorsOf p.pa n).any fun x => (s.lockFor k (x * 32)).isSome) (.wait (.retry i)) <|
    stopIf (s.physPoison p n) (.abort 0x11 a) <|
    (s.coreLoad env.core k 64 env.ctx va p n .normal false).map fun r => (r.1, w.overlay (physKey p) r.2)
  | .ok _ => .error (.charged 0x09 a)
  | .error e => .error e

/-- The bytes that an `SLD` reads and whether they are sign-extended (R95). -/
def LoadSize.shape : LoadSize → Nat × Bool
  | .i8 => (1, true) | .n8 => (1, false) | .i16 => (2, true) | .n16 => (2, false) | .i32 => (4, true) | .n32 => (4, false)
  | .w64 => (8, false)

/-- A number of `8n` bits as a 64-bit value. -/
def extendLoad (isSigned : Bool) (n v : Nat) : DWord :=
  if isSigned then (BitVec.ofNat (8 * n) v).signExtend 64 else BitVec.ofNat 64 v

/-- `SLD` (R95 to R97): the loaded value is a variable-latency result. -/
def sld (f : LoadSize) (d a : Nat) (i : Int) (s : State) (k : Nat) (env : Env) (w : Warp) : Except Stop (State × Warp) :=
  let (n, sg) := LoadSize.shape f
  (loadScalar s k env w (.sld f d a i) (w.scal a + sextAddr i) n).map fun r =>
    (r.1, w.defer [.scal d (extendLoad sg n (natOfBytes r.2))])

/-- The bytes that an `SST` stores (R95). -/
def StoreSize.bytes : StoreSize → Nat
  | .b8 => 1 | .b16 => 2 | .b32 => 4 | .b64 => 8

/-- The private bytes of some lanes written: a scalar store to the window (Table 6.1). -/
def storePriv (env : Env) (a : DWord) (bs : List Byte) : List Nat → State → Except Stop State
  | [], s => .ok s
  | l :: r, s => match resolveScalar s env l a bs.length .write with
    | .ok (.priv ps) => storePriv env a bs r (s.putPieces ps bs)
    | .ok _ => .error (.charged 0x09 a)
    | .error e => .error e

/-- A scalar store to global memory: at once, or in a deterministic launch into the log of the lowest live lane (R388, R345). -/
def storeGlobal (s : State) (k : Nat) (env : Env) (w : Warp) (i : Instr) (va : Nat) (p : Phys) (bs : List Byte) :
    Except Stop (State × Warp) :=
  if env.logs then
    let l := w.lowestLive
    let x := w.lane l
    match logStore x.storeLog env.wlog (physKey p / 32) (p.pa % 32) bs with
    | some log => .ok (s.noteWrite (s.launchKey w) va, ((w.setLane l { x with storeLog := log }).noteStores (physKey p) bs).noteVas p va bs.length)
    | none => .error (.wait (.meeting (some i)))
  else
    stopIf (s.storeWaits env.meeting env.core k p bs.length .normal false) (.wait (.retry i)) <|
    stopIf (p.fab && s.lostPeer p.pkg) (.abort 0x10 (BitVec.ofNat 64 va)) <|
    .ok ((s.coreStore env.meeting env.core k env.ctx va p bs .normal false).noteWrite (s.launchKey w) va, w)

/-- `SST` (R95 to R97, Table 14.1). -/
def sst (f : StoreSize) (d a : Nat) (i : Int) (s : State) (k : Nat) (env : Env) (w : Warp) : Except Stop (State × Warp) :=
  let n := StoreSize.bytes f
  let addr := w.scal a + sextAddr i
  let bs := leBytes n (w.scal d).toNat
  stopIf w.anyTx (w.trap 0x03) <|
  match resolveScalar s env w.lowestLive addr n .write with
  | .ok (.priv _) => (storePriv env addr bs (lanesOf w.width w.live) s).map fun s1 => (s1, w)
  | .ok (.global va p) => storeGlobal s k env w (.sst f d a i) va p bs
  | .ok _ => .error (.charged 0x09 addr)
  | .error e => .error e

/-- The new value of an atomic on `8n`-bit integers, none where a cas does not write (R98, R200). -/
def atomicInt (op : AtomicOp) (isSigned : Bool) (bitsN old x swap : Nat) : Option Nat :=
  let less := decide (toIntBy isSigned (BitVec.ofNat bitsN old) ≤ toIntBy isSigned (BitVec.ofNat bitsN x))
  match op with
  | .add => some ((old + x) % 2 ^ bitsN)
  | .min => some (if less then old else x)
  | .max => some (if less then x else old)
  | .and => some (Nat.land old x)
  | .or => some (Nat.lor old x)
  | .xor => some (Nat.xor old x)
  | .exch => some x
  | .cas => if old == x then some swap else none

/-- Whether an order has a release half, and an acquire half (Table 3.7). -/
def MemOrder.releases : MemOrder → Bool
  | .release | .acqRel | .sc => true
  | _ => false

/-- Whether an order has an acquire half (Table 3.7). -/
def MemOrder.acquires : MemOrder → Bool
  | .acquire | .acqRel | .sc => true
  | _ => false

/-- The context's copies of read-only fabric pages dropped, where `p` accepts the line's address; what was asked for before makes no copy (R416). -/
def State.dropCopies (s : State) (ctx : Nat) (p : Nat → Bool) : State :=
  { s with
    readOnlyCopies := s.readOnlyCopies.filter fun c => !(c.ctx == ctx && p c.va)
    answers := s.answers.map fun a => { a with stale := a.stale || p (a.va / 128 * 128) }
    peers := s.peers.map fun e => (e.1, { e.2 with outstanding := e.2.outstanding.map fun r => { r with stale := r.stale || p (r.va / 128 * 128) } }) }

/-- An acquire of a warp at a scope: at fabric scope it drops the context's read-only copies (R416). -/
def State.acquire (s : State) (env : Env) (scope : Scope) : State :=
  if scope == .fabric then s.dropCopies env.ctx fun _ => true else s

/-- Whether a virtual span is in a range, none being the whole space (R203). -/
def spanIn (range : Option (Nat × Nat)) (va n : Nat) : Bool :=
  match range with
  | none => true
  | some (lo, hi) => decide (va < hi) && decide (lo < va + n)

/-- The bytes that a remote operation names. -/
def RemoteOp.size : RemoteOp → Nat
  | .load _ n => n
  | .store _ bs _ => bs.length
  | .atomic _ t _ _ _ => if ElemType.is64 t then 8 else 4
  | .claim _ _ => 24
  | .tally _ _ => 32

/-- Whether a release of warp `k` must still wait, over a range: for pushes not acknowledged, beyond thread scope for stores not yet performed, and at fabric scope for remote
accesses not performed (R203, R267, R332, R344). -/
def State.unreleased (s : State) (k : Nat) (w : Warp) (scope : Scope) (range : Option (Nat × Nat)) : Bool :=
  (w.pushesOut.any fun p => p.spans.any fun x => spanIn range x.1 x.2)
    || (scope != .thread && (s.unperformed w.core k).any fun x => spanIn range x.va x.bytes.length)
    || (scope == .fabric && s.peers.any fun e => e.2.outstanding.any fun q => q.who == .warp k && spanIn range q.va (RemoteOp.size q.op))

/-- A release waits for what `State.unreleased` names. -/
def State.released {α : Type} (s : State) (k : Nat) (w : Warp) (releases : Bool) (scope : Scope) (c : Except Stop α) :
    Except Stop α :=
  stopIf (releases && s.unreleased k w scope none) (.wait .pushes) c

/-- A 64-bit field of a Slalom object at a physical address (Table 14.5). -/
def State.slalomField (s : State) (pa o : Nat) : Nat := natOfBytes (s.bytesAt (pa + o) 8)

/-- A number of 8 bytes written at a home. -/
def State.put64 (s : State) (pa v : Nat) : State := s.homeStore pa (leBytes 8 v) .normal

/-- NEXTCOMMIT and FLAGS of a Slalom object after `n` commits (R313). -/
def State.countCommits (s : State) (pa n : Nat) : State :=
  let next := (s.slalomField pa 8 + n) % 2 ^ 64
  (s.put64 (pa + 8) next).put64 (pa + 0x18) (ofBit (next == s.slalomField pa 0x10))

/-- Where the Slalom object of a hidden reference lies: on this package, or by the reference's mark on another (R312, R326). -/
def slalomPhys (a : Nat) : Phys := if 2 ^ 63 ≤ a then ⟨a % 2 ^ 52, true, a / 2 ^ 52 % 64, 0, false⟩ else ⟨a, false, 0, 0, false⟩

/-- An atomic of a lane at its home, local or remote (R98, R201, R415): the state and the old value. One that a peer has performed is not performed again, wherever its page has come
to lie. `f` gives the new value; one that writes nothing still calls the copies in. -/
def State.homeAtomic (s : State) (now : Bool) (core k tag : Nat) (i : Instr) (va : Nat) (p : Phys) (n id : Nat) (remote : RemoteOp) (f : Nat → Option Nat) :
    Except Stop (State × Nat) :=
  match s.answerTo (.warp k) tag p.pkg remote with
  | some (bs, bad) => stopIf bad (.abort 0x11 (BitVec.ofNat 64 va)) (.ok (s.noteWrite id va, natOfBytes bs))
  | none =>
    stopIf (s.homeWaits now core k p n) (.wait (.retry i)) <|
    stopIf (p.fab && s.lostPeer p.pkg) (.abort 0x10 (BitVec.ofNat 64 va)) <|
    stopIf (s.physPoison p n) (.abort 0x11 (BitVec.ofNat 64 va)) <|
    if p.fab then .error (.remote tag p.pkg remote va)
    else
      let old := natOfBytes (s.bytesAt p.pa n)
      .ok (match f old with
        | some v => (s.homeStore p.pa (leBytes n v) .normal).noteWrite id va
        | none => (s.callIn (p.pa / 128) (lineMask p.pa n) true).l2Access (p.pa / 128) .normal false false, old)

/-- `SATOM` (R98): one read-modify-write of a 64-bit word; the old value is a variable-latency result. -/
def satom (op : AtomicOp) (scope : Scope) (order : MemOrder) (d a b : Nat) (s : State) (k : Nat) (env : Env) (w : Warp) :
    Except Stop (State × Warp) :=
  let i := Instr.satom op scope order d a b
  let addr := w.scal a
  stopIf w.anyTx (w.trap 0x03) <|
  env.atMeeting i <|
  match resolveHome s env addr 8 .readWrite with
  | .ok (.global va p) =>
    s.released k w (MemOrder.releases order) scope <|
    let x := (w.scal b).toNat
    let swap := (w.scal (b + 1)).toNat
    (s.homeAtomic env.meeting env.core k 64 i va p 8 (s.launchKey w) (.atomic op .i64 p.pa x swap) fun old => atomicInt op true 64 old x swap).map
      fun r => (if MemOrder.acquires order then r.1.acquire env scope else r.1,
        (w.defer [.scal d (BitVec.ofNat 64 r.2)]).taint)
  | .ok _ => .error (.charged 0x09 addr)
  | .error e => .error e

/-- `SLD` (R95). Loads a scalar of the selected size from s[sa] plus imm12, extending it to 64 bits. -/
def execSld (f : LoadSize) (d a : Nat) (i : Int) (s : State) : Host.Outcome State Fault Refusal := s.issueMem (sld f d a i)

/-- `SST` (R95). Stores the low bytes of s[sd] to s[sa] plus imm12. -/
def execSst (f : StoreSize) (d a : Nat) (i : Int) (s : State) : Host.Outcome State Fault Refusal := s.issueMem (sst f d a i)

/-- `SATOM` (R98). Performs one indivisible 64-bit read-modify-write at the home with the given scope and order. -/
def execSatom (op : AtomicOp) (scope : Scope) (order : MemOrder) (d a b : Nat) (s : State) :
    Host.Outcome State Fault Refusal := s.issueMem (satom op scope order d a b)

/-! ### Special registers (R18, R99, R135, Table 1.1) -/

/-- `%txstat` of a lane (Table 14.4). -/
def Lane.txstat (x : Lane) : Nat :=
  x.txCause.toNat + x.txCode.toNat * 2 ^ 8 + min x.aborts 255 * 2 ^ 16
    + match x.tx with
      | some t => ofBit t.irrevocable * 2 ^ 24 + 2 ^ 25
      | none => 0

/-- A special register marked lane (Table 1.1), in lane `l`. -/
def laneSpecial (w : Warp) (l n : Nat) : Option DWord :=
  let x := w.lane l
  match n with
  | 0x001 => some (BitVec.ofNat 64 l)
  | 0x028 => some (BitVec.ofNat 64 x.txstat)
  | 0x029 => some x.iter
  | 0x030 => some (x.drawc.setWidth 64)
  | 0x031 => some (x.srdraw.setWidth 64)
  | _ => none

/-- A special register of the warp (Table 1.1). -/
def warpSpecial (env : Env) (w : Warp) (n : Nat) : Option DWord :=
  match n with
  | 0x000 => some (BitVec.ofNat 64 w.width)
  | 0x002 => some (BitVec.ofNat 64 w.warpid)
  | 0x003 => some (BitVec.ofNat 64 env.team.1)
  | 0x004 => some (BitVec.ofNat 64 env.team.2.1)
  | 0x005 => some (BitVec.ofNat 64 env.team.2.2)
  | 0x006 => some (BitVec.ofNat 64 env.dim)
  | 0x007 => some (BitVec.ofNat 64 env.launch)
  | 0x008 => some (BitVec.ofNat 64 w.core)
  | 0x009 => some (BitVec.ofNat 64 (w.core / 8))
  | 0x00A => some (BitVec.ofNat 64 (w.core / 128))
  | 0x00B => some (BitVec.ofNat 64 env.depth)
  | 0x010 => some (BitVec.ofNat 64 env.clock)
  | 0x011 => some (w.mode.setWidth 64)
  | 0x012 => some (w.repc.setWidth 64)
  | 0x013 => some w.fpctl
  | 0x014 => some (BitVec.ofNat 64 env.stklim)
  | 0x018 => some w.gset
  | 0x019 => some w.gref
  | 0x01A => some (w.batch.setWidth 64)
  | 0x020 => some (w.tcause.setWidth 64)
  | 0x021 => some w.taddr
  | 0x022 => some w.tlanes
  | 0x023 => some w.tlive
  | 0x024 => some w.trapc
  | _ => none

/-- A special register as `SSR` reads it: a lane register of the lowest-numbered active lane, 0 if no lane is active (R18). -/
def readSpecial (env : Env) (w : Warp) (n : Nat) : Option DWord :=
  match laneSpecial w 0 n with
  | some _ => match lowestLane w.width w.active with
    | some l => laneSpecial w l n
    | none => some 0
  | none => warpSpecial env w n

/-- A new mode register value: the reserved values of R20 raise illegal instruction, and inside a stretch a GUARD that names the
predicate of `MELD.ON`, once the stretch has written it, raises illegal state (R35). -/
def setMode (w : Warp) (m : BitVec 16) : Except Stop Warp :=
  stopIf (!modeOk m) (w.trap 0x01) <|
  stopIf (match w.meld with
    | some st => st.wrote && bits m.toNat 3 0 == st.pred
    | none => false) (w.trap 0x03) <|
  .ok { w with mode := m }

/-- A special register written by `SSR` (R18, R99). -/
def writeSpecial (w : Warp) (n : Nat) (v : DWord) : Except Stop Warp :=
  match n with
  | 0x011 => stopIf (decide (2 ^ 16 ≤ v.toNat)) (w.trap 0x01) (setMode w (v.setWidth 16))
  | 0x013 => stopIf (bits v.toNat 63 13 != 0 || bits v.toNat 7 5 != 0) (w.trap 0x01) (.ok { w with fpctl := v })
  | 0x019 => .ok { w with gref := v }
  | 0x024 => .ok { w with trapc := v &&& ~~~3 }
  | _ => .error (w.trap 0x01)

/-- `SSR_READ` (R99). Reads a special register into s[sd]. -/
def execSsrRead (d r : Nat) (s : State) : Host.Outcome State Fault Refusal :=
  s.issue fun env w => match readSpecial env w r with
    | some v => .ok (w.setScal d v)
    | none => .error (w.trap 0x01)

/-- `SSR_WRITE` (R99). Writes s[sa] to a writable special register, with the write checks of that register. -/
def execSsrWrite (r a : Nat) (s : State) : Host.Outcome State Fault Refusal := s.issue fun _ w => writeSpecial w r (w.scal a)

/-- `VMOV` from a special register (R135): a lane register supplies the lane's own value. -/
def vmovSpecial (env : Env) (w : Warp) (d n : Nat) : Except Stop Warp :=
  let t := w.typ
  w.typeCheck (fun _ => (readSpecial env w n).isSome) [d] <|
  w.rangeCheck env (t.span d) <|
  .ok ((w.eachLane w.executing fun l =>
    let v := ((laneSpecial w l n).orElse fun _ => warpSpecial env w n).getD 0
    .ok (w.putVal t l d (w.lane l) v.toNat, noFlags)).dropLatches (t.span d))

/-- `VMOV_SPECIAL` (R135). Writes a special register's per-lane or warp value into vd. -/
def execVmovSpecial (d n : Nat) (s : State) : Host.Outcome State Fault Refusal := s.issue fun env w => vmovSpecial env w d n

end Sys2Proof.Machine
end

