-- ==== Sys2Proof/Machine/Control.lean ====
section
/-! DEFINITION. Branches, calls, divergence, Pairs execution, regions and the mode register (R27 to R41, R100 to R111, R155, R156, R292, R293). -/

namespace Sys2Proof.Machine

/-! ### Branches, jumps and calls (R100 to R103) -/

/-- The conditions of `BR` (R100). -/
def BrCond.holds (c : BrCond) (a b : DWord) : Bool :=
  match c with
  | .eq => a == b
  | .ne => a != b
  | .lt => decide (a.toInt < b.toInt)
  | .ge => decide (b.toInt ≤ a.toInt)
  | .ltn => decide (a < b)
  | .gen => decide (b ≤ a)
  | .and => a &&& b != 0

/-- The target of an offset of words (R70). -/
def Warp.target (w : Warp) (o : Int) : DWord := w.pc + sextAddr (o * 4)

/-- `BR` (R100). Compares two scalars and branches by a 12-bit word offset if the condition holds. -/
def execBr (c : BrCond) (a b : Nat) (o : Int) (s : State) : Host.Outcome State Fault Refusal :=
  s.issueControl 4 fun _ w => .ok (w, if BrCond.holds c (w.scal a) (w.scal b) then .jump (w.target o) else .after 4)

/-- `JMP` (R100). Jumps by a 25-bit word offset. -/
def execJmp (o : Int) (s : State) : Host.Outcome State Fault Refusal := s.issueControl 4 fun _ w => .ok (w, .jump (w.target o))

/-- Illegal state inside a melded stretch (R35). -/
def Warp.notMelded {α : Type} (w : Warp) (k : Except Stop α) : Except Stop α := stopIf w.meld.isSome (w.trap 0x03) k

/-- A computed target that is not a multiple of 4 is a fetch fault at the instruction (R102). -/
def Warp.alignedTarget {α : Type} (w : Warp) (t : DWord) (k : Except Stop α) : Except Stop α :=
  stopIf (t.toNat % 4 != 0) (.trap 0x07 t w.active) k

/-- The warp with its link register set to the next word (R101). -/
def Warp.link (w : Warp) : Warp := w.setScal 30 (w.pc + 4)

/-- `CALL` (R101). Writes the return address to s30 and jumps by a 25-bit word offset. -/
def execCall (o : Int) (s : State) : Host.Outcome State Fault Refusal :=
  s.issueControl 4 fun _ w => w.notMelded <| .ok (w.link, .jump (w.target o))

/-- `CALLI` (R101). Calls the address held in s[y], writing the return address to s30. -/
def execCalli (y : Nat) (s : State) : Host.Outcome State Fault Refusal :=
  s.issueControl 4 fun _ w => w.notMelded <| w.alignedTarget (w.scal y) <| .ok (w.link, .jump (w.scal y))

/-- `JMPI` (R101). Jumps to the address held in s[y]. -/
def execJmpi (y : Nat) (s : State) : Host.Outcome State Fault Refusal :=
  s.issueControl 4 fun _ w => w.alignedTarget (w.scal y) <| .ok (w, .jump (w.scal y))

/-- `RET` (R101). Returns to the address in s30. -/
def execRet (s : State) : Host.Outcome State Fault Refusal :=
  s.issueControl 4 fun _ w => w.notMelded <| w.alignedTarget (w.scal 30) <| .ok (w, .jump (w.scal 30))

/-- The depth of the divergence stack (R27). -/
def stackDepth : Nat := 160

/-- The room for `n` pushes is checked before any effect (R27, R156). -/
def Warp.room {α : Type} (w : Warp) (env : Env) (n : Nat) (k : Except Stop α) : Except Stop α :=
  stopIf (decide (stackDepth < w.stack.length + n)) (.trap 0x06 env.spill w.active) k

/-- Entries pushed, the last of the list on top. -/
def Warp.push (w : Warp) (es : List StackEntry) : Warp := { w with stack := es.reverse ++ w.stack }

/-- The top entry popped: the mask and PC it restores (R28). -/
def Warp.pop (w : Warp) : Warp × DWord :=
  match w.stack with
  | [] => (w, w.pc)
  | e :: r => ({ w with stack := r, active := e.mask &&& w.live }, e.pc)

/-- A number in an ascending list without repeats. -/
def insertSorted (n : Nat) : List Nat → List Nat
  | [] => [n]
  | x :: r => if n < x then n :: x :: r else if n == x then x :: r else x :: insertSorted n r

/-- The active lanes that are not doomed (R298). -/
def Warp.counted (w : Warp) : Mask := w.active &&& ~~~w.doomed

/-- The target that a lane names in a `CALLV` (R103). -/
def Warp.callTarget (w : Warp) (x l : Nat) : Nat := (w.reg l x).toNat + 2 ^ 32 * (w.reg l (x + 1)).toNat

/-- The targets that the active lanes name, ascending and without repeats; a doomed lane names none (R103, R298). -/
def Warp.callTargets (w : Warp) (x : Nat) : List Nat :=
  (lanesOf w.width w.counted).foldl (fun t l => insertSorted (w.callTarget x l) t) []

/-- The declared budget of the function at an address of the warp's code, none where it is no function's entry. -/
def State.budgetAt (s : State) (w : Warp) (t : Nat) : Option Nat := (s.launchOf w).bind fun y => s.funcBudget y t

/-- The stack entry of the lanes that name a target. -/
def Warp.callGroup (w : Warp) (x t : Nat) : StackEntry :=
  ⟨BitVec.ofNat 64 t, maskOf ((lanesOf w.width w.counted).filter fun l => w.callTarget x l == t), w.pc + 4⟩

/-- The calls of a `CALLV` that has passed its checks on targets: one for all lanes, or a group for each target (R103). -/
def Warp.callAll (w : Warp) (env : Env) (x : Nat) : List Nat → Except Stop (Warp × Next)
  | [] => .ok (w.link, .jump (w.pc + 4))
  | [t] => .ok (w.link, .jump (BitVec.ofNat 64 t))
  | ts =>
    w.room env (ts.length + 1) <|
    let r := (w.link.push (⟨w.pc + 4, w.active, w.pc + 4⟩ :: ts.reverse.map (w.callGroup x))).pop
    .ok (r.1, .jump r.2)

/-- `CALLV` (R103, R81). -/
def callv (x : Nat) (s : State) (env : Env) (w : Warp) : Except Stop (Warp × Next) :=
  let ts := w.callTargets x
  let bad := ts.find? fun t => t % 4 != 0 || (s.budgetAt w t).isNone
  w.notMelded <|
  w.rangeCheck env [x, x + 1] <|
  stopIf bad.isSome (.trap 0x07 (BitVec.ofNat 64 (bad.getD 0)) w.active) <|
  stopIf (ts.any fun t => decide (env.budget < (s.budgetAt w t).getD 0)) (w.trap 0x04) <|
  w.callAll env x ts

/-- `CALLV` (R103). Calls per-lane 64-bit targets, grouping lanes by target on the divergence stack. -/
def execCallv (x : Nat) (s : State) : Host.Outcome State Fault Refusal :=
  s.issueControl 4 fun env w => callv x s env w

/-- `SPADJ` (R155). -/
def spadj (i : Int) (env : Env) (w : Warp) : Except Stop Warp :=
  let n := w.scal 31 + sextAddr (i * 64)
  stopIf (n.toNat < env.stklim || env.top < n.toNat) (.trap 0x06 n w.active) (.ok (w.setScal 31 n))

/-- `SPADJ` (R155). Adds a signed multiple of 64 to s31, raising stack limit if the result leaves the stack. -/
def execSpadj (i : Int) (s : State) : Host.Outcome State Fault Refusal := s.issue fun env w => spadj i env w

/-! ### Divergence (R29, R30, R106, R107) -/

/-- `SPLIT` (R29): a doomed lane goes with the group that runs first (R298). -/
def split (p : Nat) (sense : Bool) (els join : Int) (env : Env) (w : Warp) : Except Stop (Warp × Next) :=
  let chosen := if sense then w.pred p else ~~~(w.pred p)
  let thenM := w.counted &&& chosen
  let elseM := w.counted &&& ~~~chosen
  let j := w.target join
  w.notMelded <|
  if elseM == 0 then .ok (w, .after 8)
  else if thenM == 0 then .ok (w, .jump (w.target els))
  else
    w.room env 2 <|
    .ok ({ w.push [⟨j, w.active, j⟩, ⟨w.target els, elseM, j⟩] with active := w.active &&& ~~~elseM }, .after 8)

/-- `SPLIT` (R29). Divides the active lanes on a predicate, pushing the else-path and join entries. -/
def execSplit (p : Nat) (sense : Bool) (els join : Int) (s : State) : Host.Outcome State Fault Refusal :=
  s.issueControl 8 fun env w => split p sense els join env w

/-- A case key as a 32-bit value (R107). -/
def keyValue (k : KeyType) (n : Nat) : Word :=
  match k with
  | .i32 => (BitVec.ofNat 16 n).signExtend 32
  | .n32 => BitVec.ofNat 32 n

/-- The groups of `SWITCH` (R30): each case's lanes among those that no earlier case took, then the default's. -/
def switchGroups (value : Nat → Word) (k : KeyType) (dflt : Int) : List (Nat × Int) → List Nat → List (Int × List Nat)
  | [], ls => [(dflt, ls)]
  | (n, o) :: r, ls =>
    (o, ls.filter fun l => value l == keyValue k n) ::
      switchGroups value k dflt r (ls.filter fun l => value l != keyValue k n)

/-- `SWITCH` (R30, R107): doomed lanes join the group that runs first (R298). -/
def switch (a : Nat) (k : KeyType) (cases : List (Nat × Int)) (dflt join : Int) (env : Env) (w : Warp) :
    Except Stop (Warp × Next) :=
  let gs := switchGroups (fun l => w.reg l a) k dflt cases (lanesOf w.width w.counted)
  let j := w.target join
  w.notMelded <|
  w.rangeCheck env [a] <|
  match gs.filter fun g => !g.2.isEmpty with
  | [] => .ok (w, .jump (w.target ((gs.head?.map (·.1)).getD dflt)))
  | [g] => .ok (w, .jump (w.target g.1))
  | g :: r =>
    w.room env (r.length + 2) <|
    let others : Mask := maskOf (r.flatMap (·.2))
    .ok ({ w.push (⟨j, w.active, j⟩ :: r.reverse.map fun x => ⟨w.target x.1, maskOf x.2, j⟩) with
      active := w.active &&& ~~~others }, .jump (w.target g.1))

/-- `SWITCH` (R30). Groups active lanes by case key and runs each group in turn through the divergence stack. -/
def execSwitch (a : Nat) (k : KeyType) (cases : List (Nat × Int)) (dflt join : Int) (s : State) :
    Host.Outcome State Fault Refusal :=
  s.issueControl (4 * (cases.length + 2)) fun env w => switch a k cases dflt join env w

/-! ### Pairs execution (R33 to R35, R108) -/

/-- `MELD.ON` (R34): the warp parks as at a marker first, which also ends every earlier `MELD.LDT`. -/
def meldOn (p : Nat) (env : Env) (w0 : Warp) : Except Stop Warp :=
  let w := w0.drain
  w.point <|
  w.notMelded <|
  w.converged <|
  stopIf (w.pairs.any fun b => decide (env.budget ≤ b.toNat)) (w.trap 0x05) <|
  .ok { w with meld := some ⟨p, false⟩, path := w.live &&& w.pred p }

/-- `MELD_ON` (R34). Opens a melded stretch, giving each live lane its path bit from a predicate. -/
def execMeldOn (p : Nat) (s : State) : Host.Outcome State Fault Refusal :=
  s.issueParked 4 fun s _ env w => (meldOn p env w).map fun w1 => (s, w1, .after 4)

/-- `MELD.OFF` (R34, R108): every path bit becomes 0 and the table stays loaded. -/
def meldOff (w : Warp) : Except Stop Warp :=
  stopIf w.meld.isNone (w.trap 0x03) (.ok { w.clearLatches with meld := none, path := 0 })

/-- `MELD_OFF` (R108). Closes the melded stretch and clears every path bit. -/
def execMeldOff (s : State) : Host.Outcome State Fault Refusal := s.issue fun _ w => meldOff w

/-- `MELD.LDT` (R33, R108): the table becomes 64 bytes of memory, as a load whose result `MELD.ON` waits for. -/
def meldLdt (y : Nat) (s : State) (k : Nat) (env : Env) (w : Warp) : Except Stop (State × Warp) :=
  w.notMelded <|
  (loadScalar s k env w (.meldLdt y) (w.scal y) 64).map fun r => (r.1, (w.defer [.pairs r.2]).clearLatches)

/-- `MELD_LDT` (R33). Loads the 64-byte Pairs table from the address in s[y]. -/
def execMeldLdt (y : Nat) (s : State) : Host.Outcome State Fault Refusal := s.issueMem (meldLdt y)

/-! ### Regions (R36 to R41, R109, R110, R292, R293) -/

/-- The vector registers `base` to `base + n − 1` of a lane. -/
def keepRange (v : Tab Word) (base n : Nat) : Tab Word := v.filter fun e => decide (base ≤ e.1) && decide (e.1 < base + n)

/-- The record of a region's inputs and of the state that R40 names, as the warp stands. -/
def recordOf (w : Warp) (scalars : BitVec 32) (vbase vcount : Nat) (preds : BitVec 12) : RegionRecord where
  s := (upto 32).map fun i => if scalars.getLsbD i || i == 31 then w.scal i else 0
  v := w.lanes.map fun x => keepRange x.v vbase vcount
  p := (upto 12).map fun i => if preds.getLsbD i then w.pred i else 0
  mode := w.mode
  live := w.live
  active := w.active
  stack := w.stack
  drawc := w.lanes.map (·.drawc)
  srdraw := w.lanes.map (·.srdraw)
  fpctl := w.fpctl
  pairs := w.pairs

/-- The region that a `REGION` opens (R36, R109). -/
def regionOf (w : Warp) (kind : RegionKind) (retries : Nat) (noback value : Bool) (scalars : BitVec 32) (vbase vcount : Nat)
    (preds : BitVec 12) (acclive : Bool) : Region where
  entry := w.pc
  kind := kind
  retries := retries
  noback := noback
  value := value
  scalars := scalars
  vbase := vbase
  vcount := vcount
  preds := preds
  acclive := acclive
  tainted := false
  record := recordOf w scalars vbase vcount preds

/-- A transaction as `REGION` opens it (R292). -/
def newTx (ordered irrevocable : Bool) (clock : Nat) : Tx := ⟨ordered, irrevocable, none, clock, [], [], [], [], []⟩

/-- Transactions opened in the active lanes, and the restart point (R292, R307, R309). A re-execution keeps its abort counts. -/
def Warp.openTx (w : Warp) (k clock : Nat) (token : Option (Nat × Nat)) (ordered again : Bool) : Warp :=
  { w with
    lanes := (upto w.lanes.length).map fun l =>
      let x := w.lane l
      if inMask w.active l then
        { x with tx := some (newTx ordered (token == some (k, l)) clock), aborts := if again then x.aborts else 0 }
      else x
    restart := some ⟨w.pc, w.stack.length, w.mode, w.active, again && (w.restart.map (·.joined)).getD false⟩ }

/-- The counts of aborts cleared by a `REGION` that the program issues (R309). -/
def Warp.clearAborts (w : Warp) : Warp :=
  { w with lanes := (upto w.lanes.length).map fun l =>
      if inMask w.active l then { w.lane l with aborts := 0 } else w.lane l }

/-- Whether the warp's team has been asked to stop, in a launch that stops at regions (R39, R394). -/
def State.stopRequested (s : State) (env : Env) (w : Warp) : Bool :=
  match tabFind s.teams w.team with
  | some tm => !env.det && (match tm.status with
    | .stopping _ => true
    | _ => false)
  | none => false

/-- `REGION` (R36, R109, R110, R293). A warp whose team is being pre-empted stops here, before the new region begins, and its operations in flight are cancelled without
arrival (R39, R211). DESIGN CHOICE: a warp that stops at a `REGION` issued again gives up the token and its request for it, as one that stops elsewhere does (log entry 128). -/
def region (kind : RegionKind) (retries : Nat) (noback value : Bool) (scalars : BitVec 32) (vbase vcount : Nat)
    (preds : BitVec 12) (acclive : Bool) (s : State) (k : Nat) (env : Env) (w0 : Warp) : Effect :=
  let w := w0.drain
  let ordered := kind == .ordered
  let again := match w.restart with
    | some r => r.entry == w.pc
    | none => false
  w.notMelded <|
  stopIf w.anyTx (w.trap 0x03) <|
  stopIf (kind != .plain && (env.det || (value && !env.val)
    || (ordered && (lanesOf w.width w.active).any fun l => (w.lane l).slalom.isNone))) (w.trap 0x03) <|
  stopIf (decide (env.budget < vbase + vcount)) (w.trap 0x05) <|
  let w1 := { w with region := regionOf w kind retries noback value scalars vbase vcount preds acclive }
  if s.stopRequested env w && w.handler.isNone then
    .ok ((s.cancelOps fun o => o.warp == k).releaseToken k, { w1 with status := .stopped, openOps := [], batches := [] }, .stay)
  else if kind == .plain then .ok (s, { w1.clearAborts with restart := none }, .after 12)
  else .ok (s, w1.openTx k s.clock s.token ordered again, .after 12)

/-- `REGION` (R109). Ends the current region and opens a new one with its inputs, opening transactions for kinds 1 and 2. -/
def execRegion (kind : RegionKind) (retries : Nat) (noback value : Bool) (scalars : BitVec 32) (vbase vcount : Nat)
    (preds : BitVec 12) (acclive : Bool) (s : State) : Host.Outcome State Fault Refusal :=
  s.issueParked 12 (region kind retries noback value scalars vbase vcount preds acclive)

/-! ### The mode register (R20, R111) -/

/-- `MODE` (R111). Writes the mode register from a 16-bit immediate. -/
def execMode (i : BitVec 16) (s : State) : Host.Outcome State Fault Refusal := s.issue fun _ w => setMode w i

/-- `MODE_SCALAR` (R111). Writes the mode register from bits [15:0] of a scalar. -/
def execModeScalar (a : Nat) (s : State) : Host.Outcome State Fault Refusal :=
  s.issue fun _ w => setMode w ((w.scal a).setWidth 16)

end Sys2Proof.Machine
end

