-- ==== Sys2Proof/Machine/Sys.lean ====
section
/-! DEFINITION. The `SYS` minors: NOP, EXIT, YIELD, TRAP, BKPT, ERET, barriers, fences, SLEEP and PREF, and the trap of a reserved encoding (R80, R114 to R119, R167, R189, R202 to R205, R268). -/

namespace Sys2Proof.Machine

/-- `NOP` (R114). Does nothing; with S set it places a marker. -/
def execNop (s : State) : Host.Outcome State Fault Refusal := s.issue fun _ w => .ok w

/-- `EXIT` (R115): the active lanes leave the live and active masks, and the region is tainted. -/
def exit (env : Env) (w : Warp) : Except Stop Warp :=
  w.point <|
  stopIf w.anyTx (w.trap 0x03) <|
  env.atMeeting .exit <|
  .ok { w with live := w.live &&& ~~~w.active, active := 0 }.taint

/-- `EXIT` (R115). Removes the active lanes from the live mask and retires the warp when none remains. -/
def execExit (s : State) : Host.Outcome State Fault Refusal := s.issue fun env w => exit env w

/-! ### Quarters (R116, R181) -/

/-- A quarter of a core; none has a current warp at first. -/
def Core.quarter (c : Core) (q : Nat) : Quarter := nth c.quarters q ⟨none, 0, false, 0⟩

/-- A core's quarter replaced. -/
def State.setQuarter (s : State) (core q : Nat) (x : Quarter) : State :=
  let c := s.core core
  { s with cores := tabSet s.cores core { c with quarters := (upto 4).map fun i => if i == q then x else c.quarter i } }

/-- `YIELD` (R116): the warp's greedy run ends and its count starts again. DEDUCED: a warp that filled a gap of the held warp becomes the current one by it, which ends the held
warp's run, since R116 restarts the count for every `YIELD` (R181; log entry 135). -/
def yield (s : State) (k : Nat) (_ : Env) (w : Warp) : Except Stop (State × Warp) :=
  .ok (s.setQuarter w.core w.quarter { (s.core w.core).quarter w.quarter with current := some k, count := 0, yielded := true }, w)

/-- `YIELD` (R116). Ends the warp's greedy run on its quarter. -/
def execYield (s : State) : Host.Outcome State Fault Refusal := s.issueMem yield

/-- `SLEEP` (R117): the warp waits without a slot, `SLEEP 0` yields, and in a deterministic launch it only ends the quantum. -/
def sleep (i : Nat) (s : State) (k : Nat) (env : Env) (w : Warp) : Except Stop (State × Warp) :=
  env.atMeeting (.sleep i) <|
  if env.det then .ok (s, w)
  else if i == 0 then yield s k env w
  else .ok (s, { w with status := .waiting (.sleep (s.clock + i * 16)) })

/-- `SLEEP` (R117). Parks the warp for imm16 x 16 clocks without holding an issue slot. -/
def execSleep (i : Nat) (s : State) : Host.Outcome State Fault Refusal := s.issueMem (sleep i)

/-! ### Traps and the return from the handler (R118, R119, R167) -/

/-- `TRAP` (R118). Raises cause 0x0B and enters the handler with the immediate in %taddr. -/
def execTrap (i : Nat) (s : State) : Host.Outcome State Fault Refusal :=
  s.issue fun _ w => .error (.trap 0x0B (BitVec.ofNat 64 i) w.active)

/-- `BKPT` (R118). Raises cause 0x0C and enters the handler with the immediate in %taddr. -/
def execBkpt (i : Nat) (s : State) : Host.Outcome State Fault Refusal :=
  s.issue fun _ w => .error (.trap 0x0C (BitVec.ofNat 64 i) w.active)

/-- An encoding that R80 reserves: illegal instruction, with no effect. -/
def execReservedEncoding (s : State) : Host.Outcome State Fault Refusal := s.issue fun _ w => .error (w.trap 0x01)

/-- Whether the word at an address is a `REP` (R113). -/
def State.repAt (s : State) (w : Warp) (a : DWord) : Bool :=
  match (s.launchOf w).bind fun x => s.fetchWord x a with
  | some (_, v) => bits v 30 25 == 0x3D
  | none => false

/-- `ERET` (R119, R167). -/
def eret (s : State) (w : Warp) : Except Stop (Warp × Next) :=
  match w.handler with
  | none => .error (w.trap 0x03)
  | some h =>
    stopIf (w.stack.length != h.depth) (w.trap 0x03) <|
    .ok (w.leave h (s.repAt w w.trapc), .jump w.trapc)

/-- `ERET` (R167). Leaves handler state and resumes at %trapc with the saved mode and resume mask. -/
def execEret (s : State) : Host.Outcome State Fault Refusal := s.issueControl 4 fun _ w => eret s w

/-! ### Barriers (R189, R205, R268) -/

/-- The team of a warp changed. -/
def State.updateTeam (s : State) (t : Nat) (f : Team → Team) : State :=
  match tabFind s.teams t with
  | some tm => { s with teams := tabSet s.teams t (f tm) }
  | none => s

/-- `BAR` (R205): the warp arrives at its team's unit and waits for the release. -/
def bar (s : State) (k : Nat) (env : Env) (w0 : Warp) : Effect :=
  let w := w0.drain
  w.point <|
  stopIf (w.handler.isSome || w.anyTx) (w.trap 0x03) <|
  w.converged <|
  env.atMeeting .bar <|
  s.released k w true .team <|
  .ok (s.updateTeam w.team fun tm => { tm with barArrived := insertSorted k tm.barArrived },
    { w with status := .waiting .bar }, .stay)

/-- `BAR` (R205). Arrives at the team barrier unit and waits for its release. -/
def execBar (s : State) : Host.Outcome State Fault Refusal := s.issueParked 4 bar

/-- `CBAR` (R268): the barrier of the team cluster, none in a launch with C = 1. -/
def cbar (s : State) (k : Nat) (env : Env) (w0 : Warp) : Effect :=
  let w := w0.drain
  w.point <|
  stopIf (env.cluster == 1 || w.handler.isSome || w.anyTx) (w.trap 0x03) <|
  w.converged <|
  env.atMeeting .cbar <|
  s.released k w true .cluster <|
  .ok (s.updateTeam w.team fun tm => { tm with cbarArrived := insertSorted k tm.cbarArrived },
    { w with status := .waiting .cbar }, .stay)

/-- `CBAR` (R268). Arrives at the team cluster's barrier and waits for its release. -/
def execCbar (s : State) : Host.Outcome State Fault Refusal := s.issueParked 4 cbar

/-! ### Fences and prefetch (R202 to R204) -/

/-- `FENCE` (R202, R267): its release half waits for the pushes, stores and remote accesses of the warp that are not yet performed, at every scope for the pushes. Loads read their values
when they issue, so its acquire half waits for nothing. -/
def fence (sc : Scope) (o : MemOrder) (s : State) (k : Nat) (env : Env) (w : Warp) : Except Stop (State × Warp) :=
  env.atMeeting (.fence sc o) <|
  s.released k w (MemOrder.releases o) sc <|
  .ok (if MemOrder.acquires o then s.acquire env sc else s, w)

/-- `FENCE` (R202). Orders the warp's accesses at the given order and scope. -/
def execFence (sc : Scope) (o : MemOrder) (s : State) : Host.Outcome State Fault Refusal := s.issueMem (fence sc o)

/-- `RFENCE` (R203, R416): a fence over the global range [s[a], s[a] + s[b]), a `NOP` where the length is 0. -/
def rfence (a : Nat) (sc : Scope) (b : Nat) (o : MemOrder) (s : State) (k : Nat) (env : Env) (w : Warp) :
    Except Stop (State × Warp) :=
  let lo := (w.scal a).toNat
  let hi := min (lo + (w.scal b).toNat) (2 ^ 64 - 1)
  if w.scal b == 0 then .ok (s, w)
  else
    env.atMeeting (.rfence a sc b o) <|
    stopIf (MemOrder.releases o && s.unreleased k w sc (some (lo, hi))) (.wait .pushes) <|
    .ok (if MemOrder.acquires o && sc == .fabric then s.dropCopies env.ctx fun va => spanIn (some (lo, hi)) va 128 else s, w)

/-- `RFENCE` (R203). Fences only the accesses within a virtual address range. -/
def execRfence (a : Nat) (sc : Scope) (b : Nat) (o : MemOrder) (s : State) : Host.Outcome State Fault Refusal :=
  s.issueMem (rfence a sc b o)

/-- `PREF` (R204): a request for a line at one level, dropped where the address cannot be used. -/
def pref (a : Nat) (lv : PrefLevel) (i : Int) (s : State) (_ : Nat) (env : Env) (w : Warp) : Except Stop (State × Warp) :=
  let va := ((w.scal a + sextAddr (i * 128)) &&& ~~~127).toNat
  match placeOf env va 128 with
  | .global => match s.translate env.core env.ctx va .read with
    | .ok p =>
      if p.fab then .ok (s, w)
      else match lv with
      | .l1 => .ok (s.l1Read env.core p.pa 128 .normal false false, w)
      | .l2 => .ok (s.l2Access (p.pa / 128) .normal false false, w)
      | .msc => .ok (s.mscTouch (p.pa / 128) .normal, w)
    | .error _ => .ok (s, w)
  | _ => .ok (s, w)

/-- `PREF` (R204). Requests a 128-byte line into L1, L2 or the MSC without waiting. -/
def execPref (a : Nat) (lv : PrefLevel) (i : Int) (s : State) : Host.Outcome State Fault Refusal := s.issueMem (pref a lv i)

end Sys2Proof.Machine
end

