-- ==== Sys2Proof/Machine/Vector.lean ====
section
/-! DEFINITION. The element-wise vector instructions: arithmetic, logic, comparison, selection, shifts, bit fields, conversion, moves, register indexing, special functions and random numbers (R120 to R141, R147). -/

namespace Sys2Proof.Machine

/-! ### Elements -/

/-- Element `j` of a packed word or pair (R45). -/
def elem (t : ElemType) (v j : Nat) : Nat := v / 2 ^ (t.width * j) % 2 ^ t.width

/-- The integer that an element of an integer type stands for (R53). -/
def intElem (t : ElemType) (x : Nat) : Int := toIntBy t.isSigned (BitVec.ofNat t.width x)

/-- The results of all elements packed, with the union of their flags (R59, R122). -/
def perElem (t : ElemType) (f : Nat → Nat × Flags) : Nat × Flags :=
  let rs := (upto t.count).map f
  (t.join (rs.map (·.1)), rs.foldl (fun x r => x.or r.2) noFlags)

/-- A format B immediate as an element: the low bits of its sign extension, or under F the exact integer (R124). -/
def immElem (t : ElemType) (i : Int) : Nat :=
  match t.fmt? with
  | some f => (f.round .rne false false (exactly (decide (i < 0)) i.natAbs 0)).1
  | none => (BitVec.ofInt t.width i).toNat

/-- The same element in every position of a word or pair. -/
def splat (t : ElemType) (x : Nat) : Nat := t.join (List.replicate t.count x)

/-- An element-wise operation under N: exact, then rounded or brought into range (R53, R55, R58, R123). -/
def arith (t : ElemType) (sat ftz : Bool) (fop : Rounding → FNum → FNum → FNum × Flags) (iop : Int → Int → Int)
    (r : Rounding) (x y : Nat) : Nat × Flags :=
  match t.fmt? with
  | some f =>
    let (v, fl) := fop r (f.decode (f.flush ftz x)) (f.decode (f.flush ftz y))
    let (c, fl') := f.deliver r sat ftz v
    (c, fl.or fl')
  | none => (fitInt t.isSigned t.width sat (iop (intElem t x) (intElem t y)), noFlags)

/-- The floating-point sum (R55). -/
def addF (r : Rounding) (a b : FNum) : FNum × Flags := a.add r.isDown b

/-- The floating-point difference: the sum with the negated subtrahend. -/
def subF (r : Rounding) (a b : FNum) : FNum × Flags := a.add r.isDown b.neg

/-- The floating-point product. -/
def mulF (_ : Rounding) (a b : FNum) : FNum × Flags := a.mul b

/-- The floating-point minimum (R57). -/
def minF (_ : Rounding) (a b : FNum) : FNum × Flags :=
  (if a.isNan || b.isNan then .nan false else if a.minIsLeft b then a else b, { invalid := a.isSignalling || b.isSignalling })

/-- The floating-point maximum (R57). -/
def maxF (_ : Rounding) (a b : FNum) : FNum × Flags :=
  (if a.isNan || b.isNan then .nan false else if a.maxIsLeft b then a else b, { invalid := a.isSignalling || b.isSignalling })

/-- The fused multiply-add of an element: exact product and sum, rounded once (R125). -/
def fma (t : ElemType) (sat ftz : Bool) (r : Rounding) (x y z : Nat) : Nat × Flags :=
  match t.fmt? with
  | some f =>
    let (p, f1) := (f.decode (f.flush ftz x)).mul (f.decode (f.flush ftz y))
    let (v, f2) := p.add r.isDown (f.decode (f.flush ftz z))
    let (c, f3) := f.deliver r sat ftz v
    (c, (f1.or f2).or f3)
  | none => (fitInt t.isSigned t.width sat (intElem t x * intElem t y + intElem t z), noFlags)

/-! ### Shapes -/

/-- Whether the instruction draws for rounding under the warp's type: some result is a floating-point one (R56). -/
def Warp.rounds (w : Warp) : Bool := w.typ.fmt?.isSome

/-- Each executing lane writes a typed value to vd (R122, R123): the value and its flags are computed from the warp at issue. -/
def Warp.produce (w : Warp) (env : Env) (t : ElemType) (d : Nat) (draws : Bool) (val : Nat → (Nat → Rounding) → Nat × Flags) :
    Warp :=
  let w1 := w.takeDraws draws
  (w1.eachLane w.executing fun l =>
    let r := val l (w.rounding env l)
    .ok (w.putVal t l d (w1.lane l) r.1, r.2)).dropLatches (t.span d)

/-- The shape of a format A instruction on vd, va and the second source, under the types `ok`. -/
def binary (ok : ElemType → Bool) (draws : Bool) (op : ElemType → (Nat → Rounding) → Nat → Nat → Nat × Flags)
    (env : Env) (w : Warp) (d a : Nat) (b : SrcB) : Except Stop Warp :=
  let t := w.typ
  w.typeCheck ok (d :: a :: operandOf b) <|
  w.rangeCheck env (t.span d ++ t.span a ++ namesOf t b) <|
  .ok (w.produce env t d (draws && w.rounds) fun l rs => op t rs (w.val t l a) (w.second t l b))

/-- The shape of a format B instruction on vd, va and an immediate word or pair. -/
def withImm (ok : ElemType → Bool) (draws : Bool) (op : ElemType → (Nat → Rounding) → Nat → Nat → Nat × Flags)
    (imm : ElemType → Nat) (env : Env) (w : Warp) (d a : Nat) : Except Stop Warp :=
  let t := w.typ
  w.typeCheck ok [d, a] <|
  w.rangeCheck env (t.span d ++ t.span a) <|
  .ok (w.produce env t d (draws && w.rounds) fun l rs => op t rs (w.val t l a) (imm t))

/-- The shape of an instruction on vd and va. -/
def unary (ok : ElemType → Bool) (op : ElemType → Nat → Nat × Flags) (env : Env) (w : Warp) (d a : Nat) : Except Stop Warp :=
  withImm ok false (fun t _ x _ => op t x) (fun _ => 0) env w d a

/-- Any type (Table 5.1). -/
def anyType (_ : ElemType) : Bool := true

/-- An element-wise arithmetic operation as a function of packed words. -/
def arithWord (w : Warp) (fop : Rounding → FNum → FNum → FNum × Flags) (iop : Int → Int → Int)
    (t : ElemType) (rs : Nat → Rounding) (x y : Nat) : Nat × Flags :=
  perElem t fun j => arith t w.sat w.ftz fop iop (rs j) (elem t x j) (elem t y j)

/-- A whole word or pair without flags. -/
def plain (x : Nat) : Nat × Flags := (x, noFlags)

/-! ### Arithmetic and logic (R124 to R127) -/

/-- What `VADD` does to a warp (R124). -/
def vadd (env : Env) (w : Warp) (d a : Nat) (b : SrcB) : Except Stop Warp :=
  binary ElemType.inN true (arithWord w addF (· + ·)) env w d a b

/-- What `VSUB` does to a warp (R124). -/
def vsub (env : Env) (w : Warp) (d a : Nat) (b : SrcB) : Except Stop Warp :=
  binary ElemType.inN true (arithWord w subF (· - ·)) env w d a b

/-- What `VMUL` does to a warp (R124). -/
def vmul (env : Env) (w : Warp) (d a : Nat) (b : SrcB) : Except Stop Warp :=
  binary ElemType.inN true (arithWord w mulF (· * ·)) env w d a b

/-- What `VMIN` does to a warp (R124). -/
def vmin (env : Env) (w : Warp) (d a : Nat) (b : SrcB) : Except Stop Warp :=
  binary ElemType.inN false (fun t _ => arithWord w minF min t fun _ => .rne) env w d a b

/-- What `VMAX` does to a warp (R124). -/
def vmax (env : Env) (w : Warp) (d a : Nat) (b : SrcB) : Except Stop Warp :=
  binary ElemType.inN false (fun t _ => arithWord w maxF max t fun _ => .rne) env w d a b

/-- `VMAD` reads vd as its third source (R125). -/
def vmad (env : Env) (w : Warp) (d a : Nat) (b : SrcB) : Except Stop Warp :=
  let t := w.typ
  w.typeCheck ElemType.inMad (d :: a :: operandOf b) <|
  w.rangeCheck env (t.span d ++ t.span a ++ namesOf t b) <|
  .ok (w.produce env t d w.rounds fun l rs =>
    perElem t fun j => fma t w.sat w.ftz (rs j) (elem t (w.val t l a) j) (elem t (w.second t l b) j) (elem t (w.val t l d) j))

/-- What `VADDI` does to a warp (R124). -/
def vaddi (env : Env) (w : Warp) (d a : Nat) (i : Int) : Except Stop Warp :=
  withImm ElemType.inN true (arithWord w addF (· + ·)) (fun t => splat t (immElem t i)) env w d a

/-- What `VMULI` does to a warp (R124). -/
def vmuli (env : Env) (w : Warp) (d a : Nat) (i : Int) : Except Stop Warp :=
  withImm ElemType.inN true (arithWord w mulF (· * ·)) (fun t => splat t (immElem t i)) env w d a

/-- A bitwise operation on whole words or pairs (Table 5.3). -/
def logic (f : Nat → Nat → Nat) (_ : ElemType) (_ : Nat → Rounding) (x y : Nat) : Nat × Flags := plain (f x y)

/-- What `VAND` does to a warp (R124). -/
def vand (env : Env) (w : Warp) (d a : Nat) (b : SrcB) : Except Stop Warp := binary anyType false (logic Nat.land) env w d a b

/-- What `VOR` does to a warp (R124). -/
def vor (env : Env) (w : Warp) (d a : Nat) (b : SrcB) : Except Stop Warp := binary anyType false (logic Nat.lor) env w d a b

/-- What `VXOR` does to a warp (R124). -/
def vxor (env : Env) (w : Warp) (d a : Nat) (b : SrcB) : Except Stop Warp := binary anyType false (logic Nat.xor) env w d a b

/-- The immediate of `VANDI` and `VORI`: sign-extended to 32 bits, or 64 under the 64-bit types (R124). -/
def logicImm (i : Int) (t : ElemType) : Nat := (BitVec.ofInt (if t.is64 then 64 else 32) i).toNat

/-- What `VANDI` does to a warp (R124). -/
def vandi (env : Env) (w : Warp) (d a : Nat) (i : Int) : Except Stop Warp :=
  withImm anyType false (logic Nat.land) (logicImm i) env w d a

/-- What `VORI` does to a warp (R124). -/
def vori (env : Env) (w : Warp) (d a : Nat) (i : Int) : Except Stop Warp :=
  withImm anyType false (logic Nat.lor) (logicImm i) env w d a

/-- What `VNOT` does to a warp (R124). Like the other instructions on whole words it writes all 32 bits under the 6-bit types too, bits [31:30] with them.
DEDUCED: R124 has the logical instructions ignore element boundaries, and R46 speaks of words written as elements (log entry 105). -/
def vnot (env : Env) (w : Warp) (d a : Nat) : Except Stop Warp :=
  unary anyType (fun t x => plain (2 ^ (if t.is64 then 64 else 32) - 1 - x)) env w d a

/-- A sign operation under F: the sign bit replaced, a NaN made canonical, and invalid only for a signalling NaN (R124). -/
def signOp (f : Fmt) (neg : Bool → Bool) (x : Nat) : Nat × Flags :=
  let v := f.decode x
  if v.isNan then (f.nanCode, { invalid := v.isSignalling })
  else (x % f.signBit + (if neg (decide (f.signBit ≤ x)) then f.signBit else 0), noFlags)

/-- `VABS` and `VNEG` of an element (R124). -/
def signElem (w : Warp) (neg : Bool → Bool) (iop : Int → Int) (t : ElemType) (x : Nat) : Nat × Flags :=
  perElem t fun j => match t.fmt? with
    | some f => signOp f neg (elem t x j)
    | none => plain (fitInt t.isSigned t.width w.sat (iop (intElem t (elem t x j))))

/-- What `VABS` does to a warp (R124). -/
def vabs (env : Env) (w : Warp) (d a : Nat) : Except Stop Warp :=
  unary ElemType.inS (signElem w (fun _ => false) fun i => (i.natAbs : Int)) env w d a

/-- What `VNEG` does to a warp (R124). -/
def vneg (env : Env) (w : Warp) (d a : Nat) : Except Stop Warp := unary ElemType.inS (signElem w (!·) fun i => -i) env w d a

/-- What `VCLZ` does to a warp (R121). -/
def vclz (env : Env) (w : Warp) (d a : Nat) : Except Stop Warp :=
  unary ElemType.inI (fun t x => perElem t fun j => plain (leadingZeros t.width (elem t x j))) env w d a

/-- What `VPOPC` does to a warp (R121). -/
def vpopc (env : Env) (w : Warp) (d a : Nat) : Except Stop Warp :=
  unary ElemType.inI (fun t x => perElem t fun j => plain (popcount t.width (elem t x j))) env w d a

/-- The upper half of the exact product (R126). -/
def vmulh (env : Env) (w : Warp) (d a : Nat) (b : SrcB) : Except Stop Warp :=
  binary ElemType.inI false (fun t _ x y => perElem t fun j =>
    plain (fitInt t.isSigned t.width false (intElem t (elem t x j) * intElem t (elem t y j) / ((2 ^ t.width : Nat) : Int)))) env w d a b

/-- The exact sum of a group of products, from its first product on, with the invalid flag of ∞ − ∞. -/
def groupSum : List FNum → FNum × Flags
  | [] => (.fin false 0 0, noFlags)
  | p :: r => r.foldl (fun a q => let (v, fl) := a.1.add false q; (v, a.2.or fl)) (p, noFlags)

/-- The exact sum of the products of a `VDOT`, with the invalid flags met (R60, R127). A NaN product makes the sum NaN, and products that are both
infinite then raise nothing more. Without one, infinite products of both signs are an invalid sum. A group of negative zeros sums to −0, the exact sum by IEEE 754.
DEDUCED: R60 and R127 say neither what both infinities raise nor what sign such a zero has (log entry 106). -/
def dotSum (f : Fmt) (ftz : Bool) (t : ElemType) (x y : Nat) : FNum × Flags :=
  let ps := (upto t.count).map fun j => (f.decode (f.flush ftz (elem t x j))).mul (f.decode (f.flush ftz (elem t y j)))
  let fl := ps.foldl (fun a p => a.or p.2) noFlags
  if ps.any fun p => p.1.isNan then (.nan false, fl)
  else
    let (g, f1) := groupSum (ps.map (·.1))
    (g, fl.or f1)

/-- The accumulator of a `VDOT` after one instruction (R60, R127). With FTZ = 1 a subnormal accumulator is flushed as any f32 input of a `VDOT` (R58;
log entry 21). -/
def dot (w : Warp) (t : ElemType) (acc x y : Nat) : Nat × Flags :=
  match t.fmt? with
  | some f =>
    let (g, f1) := dotSum f w.ftz t x y
    let (v, f2) := (Fmt.f32.decode (Fmt.f32.flush w.ftz acc)).add false g
    let (c, f3) := Fmt.f32.deliver .rne w.sat w.ftz v
    (c, (f1.or f2).or f3)
  | none =>
    let s := (upto t.count).foldl (fun i j => i + intElem t (elem t x j) * intElem t (elem t y j)) 0
    plain (fitInt true 32 w.sat (intElem .i32 acc + s))

/-- What `VDOT` does to a warp (R127). -/
def vdot (env : Env) (w : Warp) (d a : Nat) (b : SrcB) : Except Stop Warp :=
  let t := w.typ
  w.typeCheck ElemType.inD (d :: a :: operandOf b) <|
  w.rangeCheck env (t.span d ++ t.span a ++ namesOf t b) <|
  .ok (w.produce env .i32 d false fun l _ => dot w t (w.val .i32 l d) (w.val t l a) (w.second t l b))

/-! ### Comparison and selection (R128, R129) -/

/-- A condition on the order of two elements, none where either is NaN (R128). -/
def Cmp.holds : Cmp → Option Ordering → Bool
  | .ne, none | .unord, none => true
  | _, none => false
  | .eq, some o => o == .eq
  | .ne, some o => o != .eq
  | .lt, some o => o == .lt
  | .le, some o => o != .gt
  | .gt, some o => o == .gt
  | .ge, some o => o != .lt
  | .ord, some _ => true
  | .unord, some _ => false

/-- Whether a condition is one of those that need a type of F (R73). -/
def Cmp.needsF : Cmp → Bool
  | .ord | .unord => true
  | _ => false

/-- The order of two elements and the flags of the comparison (R128). -/
def orderElem (t : ElemType) (ftz : Bool) (x y : Nat) : Option Ordering × Flags :=
  match t.fmt? with
  | some f =>
    let a := f.decode (f.flush ftz x)
    let b := f.decode (f.flush ftz y)
    (if a.isNan || b.isNan then none else some (a.cmp b), { invalid := a.isSignalling || b.isSignalling })
  | none => (some (compare (intElem t x) (intElem t y)), noFlags)

/-- A comparison of packed operands: every element satisfies the condition, and the union of the flags. -/
def compareWord (t : ElemType) (ftz : Bool) (c : Cmp) (x y : Nat) : Bool × Flags :=
  let rs := (upto t.count).map fun j => orderElem t ftz (elem t x j) (elem t y j)
  (rs.all fun r => Cmp.holds c r.1, rs.foldl (fun f r => f.or r.2) noFlags)

/-- Each executing lane compares; the lanes that do not park write their bit of p[p] (R17, R128). -/
def Warp.compareLanes (w : Warp) (p : Nat) (r : Nat → Bool × Flags) : Warp :=
  let w1 := w.eachLane w.executing fun l => .ok (w.lane l, (r l).2)
  let wrote := w.executing &&& w1.active &&& ~~~w1.doomed
  w1.setPred p (mergeMask wrote (w.pred p) (maskOf ((lanesOf w.width wrote).filter fun l => (r l).1)))

/-- What `VCMP` does to a warp (R128). -/
def vcmp (env : Env) (w : Warp) (c : Cmp) (p a : Nat) (b : SrcB) : Except Stop Warp :=
  let t := w.typ
  w.typeCheck (fun t => t.inN && (!Cmp.needsF c || t.inF)) (a :: operandOf b) <|
  w.rangeCheck env (t.span a ++ namesOf t b) <|
  .ok (w.compareLanes p fun l => compareWord t w.ftz c (w.val t l a) (w.second t l b))

/-- What `VCMPI` does to a warp (R128). -/
def vcmpi (env : Env) (w : Warp) (c : Cmp) (p a : Nat) (i : Int) : Except Stop Warp :=
  let t := w.typ
  w.typeCheck (fun t => t.inN && (!Cmp.needsF c || t.inF)) [a] <|
  w.rangeCheck env (t.span a) <|
  .ok (w.compareLanes p fun l => compareWord t w.ftz c (w.val t l a) (splat t (immElem t i)))

/-- `VSEL`: the guard selects, and every active lane that is not doomed writes (R129). -/
def vsel (env : Env) (w : Warp) (d a : Nat) (b : SrcB) : Except Stop Warp :=
  let t := w.typ
  w.typeCheck anyType (d :: a :: operandOf b) <|
  w.rangeCheck env (t.span d ++ t.span a ++ namesOf t b) <|
  .ok ((w.eachLane (w.active &&& ~~~w.doomed) fun l =>
    .ok (w.putVal t l d (w.lane l) (if inMask w.guarded l then w.val t l a else w.second t l b), noFlags)).dropLatches (t.span d))

/-! ### Shifts and bit fields (R130, R131) -/

/-- A shift of an element by a count (R130). -/
def shiftElem (t : ElemType) (k : ShiftKind) (x n : Nat) : Nat :=
  match k with
  | .shl => if n < t.width then x * 2 ^ n % 2 ^ t.width else 0
  | .shr => if n < t.width then x / 2 ^ n else 0
  | .sra => ((BitVec.ofNat t.width x).sshiftRight (min n (t.width - 1))).toNat

/-- A shift of every element by the count in the same element; under the 64-bit types the count is vb's low word (R130). -/
def shiftWord (k : ShiftKind) (t : ElemType) (_ : Nat → Rounding) (x y : Nat) : Nat × Flags :=
  perElem t fun j => plain (shiftElem t k (elem t x j) (if t.is64 then y % 2 ^ 32 else elem t y j))

/-- What `VSHL` does to a warp (R130). -/
def vshl (env : Env) (w : Warp) (d a : Nat) (b : SrcB) : Except Stop Warp := binary ElemType.inI false (shiftWord .shl) env w d a b

/-- What `VSHR` does to a warp (R130). -/
def vshr (env : Env) (w : Warp) (d a : Nat) (b : SrcB) : Except Stop Warp := binary ElemType.inI false (shiftWord .shr) env w d a b

/-- What `VSRA` does to a warp (R130). -/
def vsra (env : Env) (w : Warp) (d a : Nat) (b : SrcB) : Except Stop Warp := binary ElemType.inI false (shiftWord .sra) env w d a b

/-- What `VSHI` does to a warp (R130). -/
def vshi (env : Env) (w : Warp) (d a : Nat) (k : ShiftKind) (n : Nat) : Except Stop Warp :=
  unary ElemType.inI (fun t x => perElem t fun j => plain (shiftElem t k (elem t x j) n)) env w d a

/-- The types of the bit-field instructions: i32 and n32 (Table 5.2). -/
def fieldType : ElemType → Bool
  | .i32 | .n32 => true
  | _ => false

/-- The offset and width of a bit-field operand (R131). -/
def fieldOf (c : Nat) : Nat × Nat := (bits c 4 0, if bits c 12 8 == 0 then 32 else bits c 12 8)

/-- The field extracted by `VBFE` (R131). -/
def extractField (isSigned : Bool) (x c : Nat) : Nat :=
  let (o, wid) := fieldOf c
  let f := x / 2 ^ o % 2 ^ wid
  let n := min wid (32 - o)
  if isSigned && decide (n < 32) then ((BitVec.ofNat n f).signExtend 32).toNat else f

/-- The word with a field replaced by `VBFI` (R131). -/
def insertField (old x c : Nat) : Nat :=
  let (o, wid) := fieldOf c
  let k := (2 ^ wid - 1) * 2 ^ o % 2 ^ 32
  Nat.lor (Nat.land old (2 ^ 32 - 1 - k)) (Nat.land (x * 2 ^ o) k)

/-- What `VBFE` does to a warp (R131). -/
def vbfe (env : Env) (w : Warp) (d a : Nat) (b : SrcB) : Except Stop Warp :=
  binary fieldType false (fun t _ x y => plain (extractField t.isSigned x y)) env w d a b

/-- `VBFI` reads vd (R131). -/
def vbfi (env : Env) (w : Warp) (d a : Nat) (b : SrcB) : Except Stop Warp :=
  let t := w.typ
  w.typeCheck fieldType (d :: a :: operandOf b) <|
  w.rangeCheck env (t.span d ++ t.span a ++ namesOf t b) <|
  .ok (w.produce env t d false fun l _ => plain (insertField (w.val t l d) (w.val t l a) (w.second t l b)))

/-! ### Conversion (R132, R133) -/

/-- One element converted (R54, R133). -/
def convert (ts td : ElemType) (sat ftz : Bool) (r : Rounding) (x : Nat) : Nat × Flags :=
  match ts.fmt?, td.fmt? with
  | some f, some g => g.deliver r sat ftz (f.decode (f.flush ftz x))
  | some f, none => numToInt td.isSigned td.width r (f.decode (f.flush ftz x))
  | none, some g => g.round r sat ftz (exactly (decide (intElem ts x < 0)) (intElem ts x).natAbs 0)
  | none, none => plain (fitInt td.isSigned td.width sat (intElem ts x))

/-- The registers of a conversion's span: words, or pairs, for `k` elements (R132). -/
def convSpan (t : ElemType) (k n : Nat) : List Nat :=
  (upto ((k + t.count - 1) / t.count * (if t.is64 then 2 else 1))).map (n + ·)

/-- The typed operand at span position `q` (R132). -/
def convPos (t : ElemType) (n q : Nat) : Nat := n + q * (if t.is64 then 2 else 1)

/-- The converted span written to a lane, position by position, unused slots 0 (R132). -/
def putSpan (w : Warp) (t : ElemType) (l d : Nat) (out : List Nat) : List Nat → Lane → Lane
  | [], x => x
  | q :: r, x => putSpan w t l d out r (w.putVal t l (convPos t d q) x (t.join ((out.drop (q * t.count)).take t.count)))

/-- What `VCVT` does to a warp (R132). -/
def vcvt (env : Env) (w : Warp) (d a : Nat) (td : ElemType) : Except Stop Warp :=
  let ts := w.typ
  let k := max ts.count td.count
  let draws := ts.fmt?.isSome || td.fmt?.isSome
  stopIf ((ts.is64 && a % 2 == 1) || (td.is64 && d % 2 == 1)) (w.trap 0x01) <|
  w.rangeCheck env (convSpan ts k a ++ convSpan td k d) <|
  let w1 := w.takeDraws draws
  .ok ((w1.eachLane w.executing fun l =>
    let rs := w.rounding env l
    let out := (upto k).map fun i =>
      convert ts td w.sat w.ftz (rs i) (elem ts (w.val ts l (convPos ts a (i / ts.count))) (i % ts.count))
    .ok (putSpan w td l d (out.map (·.1)) (upto ((k + td.count - 1) / td.count)) (w1.lane l),
      out.foldl (fun x r => x.or r.2) noFlags)).dropLatches (convSpan td k d))

/-! ### Moves, immediates and register indexing (R134 to R138) -/

/-- What `VMOVI` does to a warp (R134). -/
def vmovi (env : Env) (w : Warp) (d i : Nat) (h : Bool) : Except Stop Warp :=
  w.rangeCheck env [d] <|
  .ok (w.produce env .i32 d false fun l _ =>
    plain (if h then i * 2 ^ 16 + (w.reg l d).toNat % 2 ^ 16 else ((BitVec.ofNat 16 i).signExtend 32).toNat))

/-- What `VMOV` does to a warp (R135). -/
def vmov (env : Env) (w : Warp) (d a : Nat) : Except Stop Warp := unary anyType (fun _ x => plain x) env w d a

/-- `VLANE` (R136). -/
def vlane (env : Env) (w : Warp) (d a : Nat) : Except Stop Warp :=
  let t := w.typ
  w.typeCheck anyType [d] <|
  w.rangeCheck env (t.span d) <|
  .ok (w.produce env t d false fun l _ => plain (((w.scal a).toNat + l) % 2 ^ (if t.is64 then 64 else 32)))

/-- The register index of `VRDX` and `VWRX` in a lane, none where it is out of range (R137, R35). -/
def indexOf (env : Env) (w : Warp) (l a : Nat) (i : Int) : Option Nat :=
  let x := (w.reg l a).toInt + i
  if 0 ≤ x && w.nameOk env x.toNat then some x.toNat else none

/-- What `VRDX` does to a warp (R137). -/
def vrdx (env : Env) (w : Warp) (d a : Nat) (i : Int) : Except Stop Warp :=
  w.rangeCheck env [d, a] <|
  .ok ((w.eachLane w.executing fun l => match indexOf env w l a i with
    | some x => .ok (w.putVal .i32 l d (w.lane l) (w.reg l x).toNat, noFlags)
    | none => .error (0x05, 0)).dropLatches [d])

/-- `VWRX` clears both latches of its quarter, which here are those of the warp that issues (R137, R25). -/
def vwrx (env : Env) (w : Warp) (d a : Nat) (i : Int) : Except Stop Warp :=
  w.rangeCheck env [d, a] <|
  .ok (w.eachLane w.executing fun l => match indexOf env w l a i with
    | some x => .ok (w.putVal .i32 l x (w.lane l) (w.reg l d).toNat, noFlags)
    | none => .error (0x05, 0)).clearLatches

/-- The registers of a `VPACK` source or `VUNPK` destination: one word for each element, or the typed operand where n = 1. -/
def packSpan (t : ElemType) (n : Nat) : List Nat := if t.count == 1 then t.span n else (upto t.count).map (n + ·)

/-- What `VPACK` does to a warp (R138). -/
def vpack (env : Env) (w : Warp) (d a : Nat) : Except Stop Warp :=
  let t := w.typ
  w.typeCheck anyType [d, a] <|
  w.rangeCheck env (t.span d ++ packSpan t a) <|
  .ok (w.produce env t d false fun l _ =>
    plain (if t.count == 1 then w.val t l a else t.join ((upto t.count).map fun j => (w.reg l (a + j)).toNat)))

/-- An element as a 32-bit word: sign-extended under the i types (R138). -/
def widen (t : ElemType) (x : Nat) : Nat := if t.isSigned then ((BitVec.ofNat t.width x).signExtend 32).toNat else x

/-- A list of words written to successive registers of a lane. -/
def putWords (w : Warp) (l : Nat) : Nat → List Nat → Lane → Lane
  | _, [], x => x
  | n, v :: r, x => putWords w l (n + 1) r (w.putVal .i32 l n x v)

/-- What `VUNPK` does to a warp (R138). -/
def vunpk (env : Env) (w : Warp) (d a : Nat) : Except Stop Warp :=
  let t := w.typ
  w.typeCheck anyType [d, a] <|
  w.rangeCheck env (t.span a ++ packSpan t d) <|
  .ok ((w.eachLane w.executing fun l =>
    .ok (if t.count == 1 then w.putVal t l d (w.lane l) (w.val t l a)
      else putWords w l d ((t.split (w.val t l a)).map (widen t)) (w.lane l), noFlags)).dropLatches (packSpan t d))

/-! ### Special functions and the activation function (R139 to R141) -/

/-- The shape of a special function: element by element under F, variable latency (R23, R139). -/
def special (fn : FNum → SpecialValue) (env : Env) (w : Warp) (d a : Nat) : Except Stop Warp :=
  let t := w.typ
  w.typeCheck ElemType.inF [d, a] <|
  w.rangeCheck env [d, a] <|
  .ok (w.later w.executing [d] (w.produce env t d true fun l rs =>
    perElem t fun j => match t.fmt? with
      | some f =>
        let x := f.decode (f.flush w.ftz (elem t (w.val t l a) j))
        let (c, fl) := (fn x).deliver f (rs j) w.sat w.ftz
        (c, fl.or { invalid := x.isSignalling })
      | none => plain 0))

/-- What `VRCP` does to a warp (R139). -/
def vrcp (env : Env) (w : Warp) (d a : Nat) : Except Stop Warp := special rcp env w d a
/-- What `VRSQ` does to a warp (R139). -/
def vrsq (env : Env) (w : Warp) (d a : Nat) : Except Stop Warp := special rsq env w d a
/-- What `VEXP2` does to a warp (R139). -/
def vexp2 (env : Env) (w : Warp) (d a : Nat) : Except Stop Warp := special exp2 env w d a
/-- What `VLOG2` does to a warp (R139). -/
def vlog2 (env : Env) (w : Warp) (d a : Nat) : Except Stop Warp := special log2 env w d a
/-- What `VSIN` does to a warp (R139). -/
def vsin (env : Env) (w : Warp) (d a : Nat) : Except Stop Warp := special sinValue env w d a
/-- What `VCOS` does to a warp (R139). -/
def vcos (env : Env) (w : Warp) (d a : Nat) : Except Stop Warp := special cosValue env w d a

/-- `VACT`: every element and lane reads the bank that is current at issue (R140). -/
def vact (env : Env) (w : Warp) (d a : Nat) : Except Stop Warp :=
  let t := w.typ
  w.typeCheck ElemType.inF [d, a] <|
  w.rangeCheck env [d, a] <|
  .ok (w.later w.executing [d] (w.produce env t d true fun l rs =>
    perElem t fun j => match t.fmt? with
      | some f =>
        let (v, fl) := activate env.bank (rs j).isDown (f.decode (f.flush w.ftz (elem t (w.val t l a) j)))
        let (c, fl') := f.deliver (rs j) w.sat w.ftz v
        (c, fl.or fl')
      | none => plain 0))

/-! ### Random numbers (R147) -/

/-- `VRAND`: one draw of the lane's `%drawc` counter, counted on (R147, R396, R397). -/
def vrand (env : Env) (w : Warp) (d : Nat) : Except Stop Warp :=
  let names := [d, d + 1, d + 2, d + 3]
  w.rangeCheck env names <|
  .ok ((w.eachLane w.executing fun l =>
    let x := w.lane l
    let y := putWords w l d (philox env.seed env.launch env.flat (w.drawLane l) x.drawc.toNat) x
    .ok ({ y with drawc := y.drawc + 1 }, noFlags)).dropLatches names)

/-! ### Meanings -/

/-- `VADD` (R124). Adds the elements of va and vb, or of va and a broadcast scalar, into vd in each executing lane. -/
def execVadd (d a : Nat) (b : SrcB) (s : State) : Host.Outcome State Fault Refusal :=
  s.issue fun env w => vadd env w d a b

/-- `VSUB` (R124). Subtracts vb from va element by element into vd. -/
def execVsub (d a : Nat) (b : SrcB) (s : State) : Host.Outcome State Fault Refusal :=
  s.issue fun env w => vsub env w d a b

/-- `VMUL` (R124). Multiplies va and vb element by element into vd. -/
def execVmul (d a : Nat) (b : SrcB) (s : State) : Host.Outcome State Fault Refusal :=
  s.issue fun env w => vmul env w d a b

/-- `VMAD` (R125). Computes vd = va x vb + vd element by element, fused under F. -/
def execVmad (d a : Nat) (b : SrcB) (s : State) : Host.Outcome State Fault Refusal :=
  s.issue fun env w => vmad env w d a b

/-- `VMIN` (R124). Writes the element-wise minimum of va and vb to vd. -/
def execVmin (d a : Nat) (b : SrcB) (s : State) : Host.Outcome State Fault Refusal :=
  s.issue fun env w => vmin env w d a b

/-- `VMAX` (R124). Writes the element-wise maximum of va and vb to vd. -/
def execVmax (d a : Nat) (b : SrcB) (s : State) : Host.Outcome State Fault Refusal :=
  s.issue fun env w => vmax env w d a b

/-- `VAND` (R124). Writes the bitwise AND of va and vb to vd. -/
def execVand (d a : Nat) (b : SrcB) (s : State) : Host.Outcome State Fault Refusal :=
  s.issue fun env w => vand env w d a b

/-- `VOR` (R124). Writes the bitwise OR of va and vb to vd. -/
def execVor (d a : Nat) (b : SrcB) (s : State) : Host.Outcome State Fault Refusal :=
  s.issue fun env w => vor env w d a b

/-- `VXOR` (R124). Writes the bitwise XOR of va and vb to vd. -/
def execVxor (d a : Nat) (b : SrcB) (s : State) : Host.Outcome State Fault Refusal :=
  s.issue fun env w => vxor env w d a b

/-- `VSHL` (R130). Shifts each element of va left by the count in vb. -/
def execVshl (d a : Nat) (b : SrcB) (s : State) : Host.Outcome State Fault Refusal :=
  s.issue fun env w => vshl env w d a b

/-- `VSHR` (R130). Shifts each element of va right logically by the count in vb. -/
def execVshr (d a : Nat) (b : SrcB) (s : State) : Host.Outcome State Fault Refusal :=
  s.issue fun env w => vshr env w d a b

/-- `VSRA` (R130). Shifts each element of va right arithmetically by the count in vb. -/
def execVsra (d a : Nat) (b : SrcB) (s : State) : Host.Outcome State Fault Refusal :=
  s.issue fun env w => vsra env w d a b

/-- `VMULH` (R126). Writes the upper half of the exact product of each element pair. -/
def execVmulh (d a : Nat) (b : SrcB) (s : State) : Host.Outcome State Fault Refusal :=
  s.issue fun env w => vmulh env w d a b

/-- `VDOT` (R127). Sums the products of the packed elements of va and vb into the 32-bit accumulator vd. -/
def execVdot (d a : Nat) (b : SrcB) (s : State) : Host.Outcome State Fault Refusal :=
  s.issue fun env w => vdot env w d a b

/-- `VSEL` (R129). Selects va or vb per active lane by the guard bit. -/
def execVsel (d a : Nat) (b : SrcB) (s : State) : Host.Outcome State Fault Refusal :=
  s.issue fun env w => vsel env w d a b

/-- `VBFE` (R131). Extracts a bit field of va selected by vb into vd. -/
def execVbfe (d a : Nat) (b : SrcB) (s : State) : Host.Outcome State Fault Refusal :=
  s.issue fun env w => vbfe env w d a b

/-- `VBFI` (R131). Inserts a field of va into vd at the offset and width in vb. -/
def execVbfi (d a : Nat) (b : SrcB) (s : State) : Host.Outcome State Fault Refusal :=
  s.issue fun env w => vbfi env w d a b

/-- `VCMP` (R128). Compares va with vb and writes each executing lane's bit of predicate pd. -/
def execVcmp (c : Cmp) (p a : Nat) (b : SrcB) (s : State) : Host.Outcome State Fault Refusal :=
  s.issue fun env w => vcmp env w c p a b

/-- `VCVT` (R132). Converts elements from the mode's type to the destination type across register spans. -/
def execVcvt (d a : Nat) (t : ElemType) (s : State) : Host.Outcome State Fault Refusal :=
  s.issue fun env w => vcvt env w d a t

/-- `VADDI` (R124). Adds a signed 9-bit immediate to each element of va. -/
def execVaddi (d a : Nat) (i : Int) (s : State) : Host.Outcome State Fault Refusal :=
  s.issue fun env w => vaddi env w d a i

/-- `VMULI` (R124). Multiplies each element of va by a signed 9-bit immediate. -/
def execVmuli (d a : Nat) (i : Int) (s : State) : Host.Outcome State Fault Refusal :=
  s.issue fun env w => vmuli env w d a i

/-- `VANDI` (R124). ANDs va with the sign-extended immediate. -/
def execVandi (d a : Nat) (i : Int) (s : State) : Host.Outcome State Fault Refusal :=
  s.issue fun env w => vandi env w d a i

/-- `VORI` (R124). ORs va with the sign-extended immediate. -/
def execVori (d a : Nat) (i : Int) (s : State) : Host.Outcome State Fault Refusal :=
  s.issue fun env w => vori env w d a i

/-- `VRDX` (R137). Reads the register whose index is computed per lane from va and the immediate into vd. -/
def execVrdx (d a : Nat) (i : Int) (s : State) : Host.Outcome State Fault Refusal :=
  s.issue fun env w => vrdx env w d a i

/-- `VWRX` (R137). Writes vd into the register whose index is computed per lane, clearing the reuse latches. -/
def execVwrx (d a : Nat) (i : Int) (s : State) : Host.Outcome State Fault Refusal :=
  s.issue fun env w => vwrx env w d a i

/-- `VSHI` (R130). Shifts every element of va by an immediate count, left, logically right or arithmetically right by kind. -/
def execVshi (d a : Nat) (k : ShiftKind) (n : Nat) (s : State) : Host.Outcome State Fault Refusal :=
  s.issue fun env w => vshi env w d a k n

/-- `VCMPI` (R128). Compares va with an immediate and writes predicate pd. -/
def execVcmpi (c : Cmp) (p a : Nat) (i : Int) (s : State) : Host.Outcome State Fault Refusal :=
  s.issue fun env w => vcmpi env w c p a i

/-- `VMOVI` (R134). Writes a sign-extended 16-bit immediate to vd, or with H set replaces its upper half. -/
def execVmovi (d i : Nat) (h : Bool) (s : State) : Host.Outcome State Fault Refusal :=
  s.issue fun env w => vmovi env w d i h

/-- `VNOT` (R124). Writes the bitwise complement of va to vd. -/
def execVnot (d a : Nat) (reuse : Bool) (s : State) : Host.Outcome State Fault Refusal :=
  s.issue fun env w => vnot env (w.mark reuse a) d a

/-- `VABS` (R124). Writes the absolute value of each element of va. -/
def execVabs (d a : Nat) (reuse : Bool) (s : State) : Host.Outcome State Fault Refusal :=
  s.issue fun env w => vabs env (w.mark reuse a) d a

/-- `VNEG` (R124). Writes the negation of each element of va. -/
def execVneg (d a : Nat) (reuse : Bool) (s : State) : Host.Outcome State Fault Refusal :=
  s.issue fun env w => vneg env (w.mark reuse a) d a

/-- `VCLZ` (R121). Writes the leading-zero count of each element. -/
def execVclz (d a : Nat) (reuse : Bool) (s : State) : Host.Outcome State Fault Refusal :=
  s.issue fun env w => vclz env (w.mark reuse a) d a

/-- `VPOPC` (R121). Writes the set-bit count of each element. -/
def execVpopc (d a : Nat) (reuse : Bool) (s : State) : Host.Outcome State Fault Refusal :=
  s.issue fun env w => vpopc env (w.mark reuse a) d a

/-- `VRCP` (R139). Writes the correctly rounded reciprocal of each element. -/
def execVrcp (d a : Nat) (reuse : Bool) (s : State) : Host.Outcome State Fault Refusal :=
  s.issue fun env w => vrcp env (w.mark reuse a) d a

/-- `VRSQ` (R139). Writes the correctly rounded reciprocal square root of each element. -/
def execVrsq (d a : Nat) (reuse : Bool) (s : State) : Host.Outcome State Fault Refusal :=
  s.issue fun env w => vrsq env (w.mark reuse a) d a

/-- `VEXP2` (R139). Writes 2 to the power of each element, correctly rounded. -/
def execVexp2 (d a : Nat) (reuse : Bool) (s : State) : Host.Outcome State Fault Refusal :=
  s.issue fun env w => vexp2 env (w.mark reuse a) d a

/-- `VLOG2` (R139). Writes the base-2 logarithm of each element, correctly rounded. -/
def execVlog2 (d a : Nat) (reuse : Bool) (s : State) : Host.Outcome State Fault Refusal :=
  s.issue fun env w => vlog2 env (w.mark reuse a) d a

/-- `VSIN` (R139). Writes sin(2 pi x) of each element, with the argument in turns. -/
def execVsin (d a : Nat) (reuse : Bool) (s : State) : Host.Outcome State Fault Refusal :=
  s.issue fun env w => vsin env (w.mark reuse a) d a

/-- `VCOS` (R139). Writes cos(2 pi x) of each element, with the argument in turns. -/
def execVcos (d a : Nat) (reuse : Bool) (s : State) : Host.Outcome State Fault Refusal :=
  s.issue fun env w => vcos env (w.mark reuse a) d a

/-- `VACT` (R140). Evaluates the team's bound activation bank on each element. -/
def execVact (d a : Nat) (reuse : Bool) (s : State) : Host.Outcome State Fault Refusal :=
  s.issue fun env w => vact env (w.mark reuse a) d a

/-- `VPACK` (R138). Gathers elements from consecutive registers into one packed word. -/
def execVpack (d a : Nat) (reuse : Bool) (s : State) : Host.Outcome State Fault Refusal :=
  s.issue fun env w => vpack env (w.mark reuse a) d a

/-- `VUNPK` (R138). Scatters the packed elements of va into consecutive registers. -/
def execVunpk (d a : Nat) (reuse : Bool) (s : State) : Host.Outcome State Fault Refusal :=
  s.issue fun env w => vunpk env (w.mark reuse a) d a

/-- `VMOV` (R135). Copies va to vd. -/
def execVmov (d a : Nat) (s : State) : Host.Outcome State Fault Refusal :=
  s.issue fun env w => vmov env w d a

/-- `VRAND` (R147). Draws one Philox output per executing lane into four registers and advances %drawc. -/
def execVrand (d : Nat) (s : State) : Host.Outcome State Fault Refusal :=
  s.issue fun env w => vrand env w d

/-- `VLANE` (R136). Writes s[sa] plus %laneid into vd per executing lane. -/
def execVlane (d a : Nat) (s : State) : Host.Outcome State Fault Refusal :=
  s.issue fun env w => vlane env w d a

end Sys2Proof.Machine
end

