-- ==== Sys2Proof/Machine/VectorMem.lean ====
section
/-! DEFINITION. The vector memory instructions: loads, stores, Gondola stores and atomics of lanes, in global memory, shared memory and the private window, with transactional accesses (R152 to R154, R196 to R201, R261, R262, R295 to R299, R303, R307). -/

namespace Sys2Proof.Machine

/-! ### Lanes in turn -/

/-- What one lane's access does to the state and its warp. -/
abbrev LaneAccess := Nat → State → Warp → Except Stop (State × Warp)

/-- The accesses of a list of lanes, one after another; a lane that stops the instruction leaves nothing changed (R162). -/
def memLanes (f : LaneAccess) : List Nat → State → Warp → Except Stop (State × Warp)
  | [], s, w => .ok (s, w)
  | l :: r, s, w => match f l s w with
    | .ok (s', w') => memLanes f r s' w'
    | .error e => .error e

/-- The bytes of an element of a vector access under a type (R196). -/
def memSize (t : ElemType) : Nat := if t.is64 then 8 else 4

/-- A lane's address or shared offset: s[base] plus its sign-extended voff (R197). -/
def Warp.address (w : Warp) (b o l : Nat) : DWord := w.scal b + (w.reg l o).signExtend 64

/-- A lane whose open transaction is doomed with a cause and a code (R298). -/
def Lane.doom (x : Lane) (cause code : Nat) : Lane := { x with tx := x.tx.map fun t => { t with doomed := some (cause, code) } }

/-- A lane with a lane-class fault, in the warp. -/
def Warp.faultLane (w : Warp) (l cause : Nat) (addr : DWord) : Warp := applyLane w l (.error (cause, addr))

/-! ### Shared memory (R194, R198) -/

/-- Bytes of a team's shared memory. -/
def State.shmBytes (s : State) (t off n : Nat) : List Byte :=
  match tabFind s.teams t with
  | some tm => (upto n).map fun i => tabGet tm.shm (off + i) 0
  | none => []

/-- Whether shared bytes touch a poisoned word (R222, R399). -/
def State.shmPoisoned (s : State) (t off n : Nat) : Bool :=
  match tabFind s.teams t with
  | some tm => isPoisoned tm.shmPoison off n
  | none => false

/-- A team's shared memory with bytes written. -/
def State.shmWrite (s : State) (t off : Nat) (bs : List Byte) : State :=
  match tabFind s.teams t with
  | some tm =>
    let tm' := { tm with shm := putBytes tm.shm off bs, shmPoison := clearPoison tm.shmPoison off bs.length }
    { s with teams := tabSet s.teams t tm' }
  | none => s

/-- Whether an arrival or a waiter is pending on the barrier object at an offset of a team's shared memory (R213). -/
def State.objectPending (s : State) (t o : Nat) : Bool :=
  (s.ops.any fun e => e.2.team == t && e.2.bar == some o) || (s.collectives.any fun e => e.2.team == t && e.2.bar == o)
    || s.warps.any fun e => e.2.team == t && match e.2.status with
      | .waiting (.bwait _ off _) => off == o
      | _ => false

/-- The barrier objects whose PHASE, EXPECT or ARRIVED lie among `n` bytes at an offset. -/
def objectsAt (off n : Nat) : List Nat := ((upto ((off + n + 15) / 16 - off / 16)).map fun i => (off / 16 + i) * 16).filter
  fun o => decide (off < o + 8) && decide (o < off + n)

/-- A plain shared store: one to the first 8 bytes of a barrier object with an arrival or a waiter pending leaves its next phase change
undefined (R213). -/
def State.plainShm (s : State) (t off : Nat) (bs : List Byte) : State :=
  let hit := (objectsAt off bs.length).filter (s.objectPending t)
  let s1 := s.shmWrite t off bs
  if hit.isEmpty then s1
  else match tabFind s1.teams t with
  | some tm => { s1 with teams := tabSet s1.teams t { tm with raced := tm.raced ++ hit.filter fun o => !tm.raced.contains o } }
  | none => s1

/-! ### Locks of an irrevocable lane (R307) -/

/-- A commit's lane made to fail: an irrevocable lane took a sector that it had locked in phase 1 (R307). -/
def State.failCommit (s : State) (k l : Nat) : State :=
  match tabFind s.warps k with
  | none => s
  | some w =>
    let s1 : State := { s with locks := s.locks.filter fun e => e.2.warp != k || e.2.lane != l || e.2.irrevocable }
    let fail (x : CommitLane) : CommitLane := if x.lane == l then { x with passing := false } else x
    s1.putWarp k { w with commit := w.commit.map fun c => { c with lanes := c.lanes.map fail } }

/-- A sector locked by an irrevocable lane at its first access; none while it waits for a phase-2 lock (R307). -/
def State.lockSector (s : State) (k l sect : Nat) : Option State :=
  let taken := { s with locks := tabSet s.locks sect ⟨k, l, true, 1⟩ }
  match tabFind s.locks sect with
  | none => some taken
  | some x => if x.irrevocable then some s else if x.phase == 1 then some (taken.failCommit x.warp x.lane) else none

/-- A list with a number added. -/
def insertNat (n : Nat) (l : List Nat) : List Nat := if l.contains n then l else l ++ [n]

/-! ### One lane's global access -/

/-- The epoch of each home is checked with the version (R301, R303). -/
def Tx.readEntry (t : Tx) (sect : Nat) : Option ReadEntry := t.reads.find? fun e => e.sect == sect

/-- The write entry of a sector. -/
def Tx.writeEntry (t : Tx) (sect : Nat) : WriteEntry := (t.writes.find? fun e => e.sect == sect).getD (WriteEntry.new sect)

/-- The bytes of a speculative load: those in WMASK from the write log, the others from `src` (R297). -/
def WriteEntry.over (e : WriteEntry) (o n : Nat) (src : List Byte) : List Byte :=
  (upto n).map fun i => if e.wmask.getLsbD (o + i) then nth e.data (o + i) 0 else nth src i 0

/-- The bytes of a sector that an access touches. -/
def sectorMask (pa n : Nat) : BitVec 32 := BitVec.ofNat 32 ((2 ^ n - 1) * 2 ^ (pa % 32))

/-- Whether a speculative load takes some of its bytes from memory (R297). -/
def Tx.fetches (t : Tx) (p : Phys) (n : Nat) : Bool := sectorMask p.pa n &&& ~~~(t.writeEntry (p.pa / 32)).wmask != 0

/-- Whether a core's L1 holds the bytes of a line for a load. -/
def State.holdsLine (s : State) (core line : Nat) : Bool :=
  match s.l1Line core line with
  | some x => x.st == .s || x.st == .sm || x.st == .m
  | none => false

/-- The version of a sector as a core reads it: with the copy in its L1, else from the home (R193, R297). -/
def State.versionSeen (s : State) (core sect : Nat) : BitVec 40 :=
  match s.l1Line core (sect / 4) with
  | some x => if s.holdsLine core (sect / 4) then nth x.vers (sect % 4) (s.version sect) else s.version sect
  | none => s.version sect

/-- Whether a transactional load that reads memory must wait: for the warp's own stores to the sector (R96), or for a busy line. -/
def State.txWaits (s : State) (core k : Nat) (t : Tx) (p : Phys) (n : Nat) : Bool :=
  t.fetches p n && (s.ownFirst core k { p with pa := p.pa / 32 * 32 } 32 || (!s.holdsLine core (p.pa / 128) && !s.quietAt p.pa n))

/-- The copies of a line called in by a transactional load that its core's L1 does not serve: an owner's is recalled, and a privatised line is merged (R277, R279). -/
def State.txFetch (s : State) (core : Nat) (t : Tx) (p : Phys) (n : Nat) : State :=
  if t.fetches p n && !s.holdsLine core (p.pa / 128) && (s.dir (p.pa / 128)).st != .s then s.callIn (p.pa / 128) (lineMask p.pa n) false else s

/-- A speculative load of `n` bytes in one sector (R297, R299): the lane's new log and the bytes, or the cause that dooms it. -/
def txLoad (s : State) (env : Env) (i : Instr) (value : Bool) (t : Tx) (va : Nat) (p : Phys) (n : Nat) :
    Except Stop (Except Nat (Tx × List Byte)) :=
  let sect := p.pa / 32
  let o := p.pa % 32
  let m := sectorMask p.pa n
  let e := t.writeEntry sect
  if !t.fetches p n then .ok (.ok (t, e.over o n []))
  else match tabFind s.locks sect with
  | some x => if x.irrevocable then .ok (.error 9) else .error (.wait (.retry i))
  | none =>
    stopIf (s.physPoison p n) (.abort 0x11 (BitVec.ofNat 64 va)) <|
    match t.readEntry sect with
    | none =>
      if env.rlog ≤ t.reads.length then .ok (.error 3)
      else
        let r : ReadEntry :=
          if value then ⟨sect, 0, s.epoch sect, m, s.bytesAt (sect * 32) 32⟩ else ⟨sect, s.versionSeen env.core sect, s.epoch sect, 0, []⟩
        .ok (.ok ({ t with reads := t.reads ++ [r] }, e.over o n (s.bytesAt p.pa n)))
    | some r =>
      if value then
        let reads := t.reads.map fun y => if y.sect == sect then { y with rmask := y.rmask ||| m } else y
        .ok (.ok ({ t with reads := reads }, e.over o n ((r.copy.drop o).take n)))
      else if r.ver == s.versionSeen env.core sect then .ok (.ok (t, e.over o n (s.bytesAt p.pa n)))
      else .ok (.error 2)

/-- A lane's load from global memory: plain, speculative or irrevocable (R197, R297, R303, R307). It answers the state, the lane and
the bytes, none where the lane is doomed. -/
def laneLoad (s : State) (k l : Nat) (env : Env) (w : Warp) (i : Instr) (va : Nat) (p : Phys) (n : Nat) (c : CacheClass)
    (na : Bool) : Except Stop (State × Lane × Option (List Byte)) :=
  let x := w.lane l
  match x.tx with
  | none =>
    stopIf (!p.fab && (s.lockFor k p.pa).isSome) (.wait (.retry i)) <|
    stopIf (s.physPoison p n) (.abort 0x11 (BitVec.ofNat 64 va)) <|
    (s.coreLoad env.core k l env.ctx va p n c na).map fun r => (r.1, x, some (w.overlay (physKey p) r.2))
  | some t =>
    if t.irrevocable then
      stopIf (s.txWaits env.core k t p n) (.wait (.retry i)) <|
      match (s.txFetch env.core t p n).lockSector k l (p.pa / 32) with
      | none => .error (.wait (.retry i))
      | some s1 =>
        stopIf (s.physPoison p n) (.abort 0x11 (BitVec.ofNat 64 va)) <|
        .ok (s1.loadTouch env.core p.pa n c na,
          { x with tx := some { t with locked := insertNat (p.pa / 32) t.locked } }, some (s.seenAt env.core k p.pa n))
    else
      stopIf (s.txWaits env.core k t p n) (.wait (.retry i)) <|
      let s1 := s.txFetch env.core t p n
      (txLoad s1 env i w.region.value t va p n).map fun r => match r with
      | .ok (t', bs) => (if t.fetches p n then s1.loadTouch env.core p.pa n c na else s, { x with tx := some t' }, some bs)
      | .error cause => (s1, x.doom cause 0, none)

/-- A lane's store to global memory: plain, logged by a deterministic launch, speculative or irrevocable (R197, R297, R307, R388). -/
def laneStore (s : State) (k l : Nat) (env : Env) (i : Instr) (va : Nat) (p : Phys) (bs : List Byte) (c : CacheClass)
    (na : Bool) (w : Warp) : Except Stop (State × Warp) :=
  let x := w.lane l
  let id := s.launchKey w
  match x.tx with
  | none =>
    if env.logs then
      match logStore x.storeLog env.wlog (physKey p / 32) (p.pa % 32) bs with
      | some log => .ok (s.noteWrite id va, ((w.setLane l { x with storeLog := log }).noteStores (physKey p) bs).noteVas p va bs.length)
      | none => .error (.wait (.meeting (some i)))
    else
      stopIf (s.storeWaits env.meeting env.core k p bs.length c na) (.wait (.retry i)) <|
      stopIf (p.fab && s.lostPeer p.pkg) (.abort 0x10 (BitVec.ofNat 64 va)) <|
      .ok ((s.coreStore env.meeting env.core k env.ctx va p bs c na).noteWrite id va, w)
  | some t =>
    if t.irrevocable then
      stopIf (s.ownFirst env.core k p bs.length || (!env.meeting && !s.quietAt p.pa bs.length)) (.wait (.retry i)) <|
      match s.lockSector k l (p.pa / 32) with
      | none => .error (.wait (.retry i))
      | some s1 =>
        let s2 := s1.homeWrite p.pa bs c na
        let t' := { t with locked := insertNat (p.pa / 32) t.locked, written := insertNat (p.pa / 32) t.written }
        .ok (s2.noteWrite id va, w.setLane l { x with tx := some t' })
    else match logStore t.writes env.wlog (p.pa / 32) (p.pa % 32) bs with
      | some log => .ok (s.noteWrite id va, w.setLane l { x with tx := some { t with writes := log, pages := insertNat (va / 2 ^ 16) t.pages } })
      | none => .ok (s, w.setLane l (x.doom 4 0))

/-- A lane's access where it has been resolved: its faults taken, and its bytes handled by `priv` in the window or `global` in memory. -/
def targetAccess (r : Except Stop Target) (l : Nat) (s : State) (w : Warp)
    (priv : List (Nat × Nat) → Except Stop (State × Warp)) (global : Nat → Phys → Except Stop (State × Warp)) : Except Stop (State × Warp) :=
  match r with
  | .error e => .error e
  | .ok (.fault cause addr) => .ok (s, w.faultLane l cause addr)
  | .ok (.doom cause) => .ok (s, w.setLane l ((w.lane l).doom cause 0))
  | .ok (.priv ps) => priv ps
  | .ok (.shared _) => .ok (s, w)
  | .ok (.global va p) => global va p

/-- A lane's access resolved, its faults taken, and its bytes handled by `priv` in the window or `global` in memory. -/
def laneAccess (env : Env) (a : DWord) (n : Nat) (kd : AccessKind) (l : Nat) (s : State) (w : Warp)
    (priv : List (Nat × Nat) → Except Stop (State × Warp)) (global : Nat → Phys → Except Stop (State × Warp)) : Except Stop (State × Warp) :=
  targetAccess (resolve s env (w.lane l) l a n kd) l s w priv global

/-- A lane's shared access: its fault, or what `f` does with its offset. -/
def sharedAccess (env : Env) (a : DWord) (n l : Nat) (s : State) (w : Warp) (f : Nat → Except Stop (State × Warp)) :
    Except Stop (State × Warp) :=
  match resolveShared env a n with
  | .fault cause addr => .ok (s, w.faultLane l cause addr)
  | .shared off => f off
  | _ => .ok (s, w)

/-! ### Loads and stores -/

/-- The checks of a vector memory instruction: type, then register range (R196, Table 3.8). -/
def memChecks {α : Type} (env : Env) (w : Warp) (ok : ElemType → Bool) (d o : Nat) (k : Except Stop α) : Except Stop α :=
  w.typeCheck ok [d] <| w.rangeCheck env (o :: w.typ.span d) k

/-- A load's outcome as a variable-latency result; its destination clears latches at issue (R23, R25). -/
def loaded (w : Warp) (d : Nat) (r : State × Warp) : State × Warp :=
  (r.1, (w.later w.executing (w.typ.span d) r.2).dropLatches (w.typ.span d))

/-- One lane of a `VLD`; `w` is the warp at issue. -/
def vldLane (d b o : Nat) (c : CacheClass) (na reuse : Bool) (k : Nat) (env : Env) (w : Warp) : LaneAccess := fun l s' w' =>
  let t := w.typ
  let n := memSize t
  laneAccess env (w.address b o l) n .read l s' w'
    (fun ps => readPriv s' (w.address b o l) ps fun bs => .ok (s'.touchPieces ps, w'.setLane l (w.putVal t l d (w'.lane l) (natOfBytes bs))))
    (fun va p => (laneLoad s' k l env w' (.vld d b o c na reuse) va p n c na).map fun (s1, x, bs) =>
      (s1, w'.setLane l (match bs with
        | some v => w.putVal t l d x (natOfBytes v)
        | none => x)))

/-- `VLD` (R197). -/
def vld (d b o : Nat) (c : CacheClass) (na reuse : Bool) (s : State) (k : Nat) (env : Env) (w0 : Warp) :
    Except Stop (State × Warp) :=
  let w := w0.mark reuse o
  memChecks env w anyType d o <|
  (memLanes (vldLane d b o c na reuse k env w) (lanesOf w.width w.executing) s w).map (loaded w d)

/-- One lane of a `VST`; `w` is the warp at issue. -/
def vstLane (d b o : Nat) (c : CacheClass) (na reuse : Bool) (k : Nat) (env : Env) (w : Warp) : LaneAccess := fun l s' w' =>
  let n := memSize w.typ
  let bs := leBytes n (w.val w.typ l d)
  laneAccess env (w.address b o l) n .write l s' w'
    (fun ps => .ok (s'.putPieces ps bs, w'))
    (fun va p => laneStore s' k l env (.vst d b o c na reuse) va p bs c na w')

/-- `VST` (R197). -/
def vst (d b o : Nat) (c : CacheClass) (na reuse : Bool) (s : State) (k : Nat) (env : Env) (w0 : Warp) :
    Except Stop (State × Warp) :=
  let w := w0.mark reuse o
  memChecks env w anyType d o <|
  memLanes (vstLane d b o c na reuse k env w) (lanesOf w.width w.executing) s w

/-- One lane of a `VLDS`; `w` is the warp at issue. -/
def vldsLane (d b o : Nat) (env : Env) (w : Warp) : LaneAccess := fun l s' w' =>
  let t := w.typ
  let n := memSize t
  let a := w.address b o l
  sharedAccess env a n l s' w' fun off =>
    stopIf (s'.shmPoisoned w.team off n) (.abort 0x11 a) <|
    .ok (s', w'.setLane l (w.putVal t l d (w'.lane l)
      (natOfBytes (w'.overlay (sharedKey off) (s'.shmBytes w.team off n)))))

/-- `VLDS` (R198). -/
def vlds (d b o : Nat) (reuse : Bool) (s : State) (_ : Nat) (env : Env) (w0 : Warp) : Except Stop (State × Warp) :=
  let w := w0.mark reuse o
  memChecks env w anyType d o <|
  (memLanes (vldsLane d b o env w) (lanesOf w.width w.executing) s w).map (loaded w d)

/-- A lane's store to shared memory: at once, or into the lane's log in a deterministic launch (R198, R388). -/
def sharedStore (env : Env) (i : Instr) (l off : Nat) (bs : List Byte) (s : State) (w : Warp) : Except Stop (State × Warp) :=
  if env.logs then
    match logStore (w.lane l).storeLog env.wlog (sharedSector off) (off % 32) bs with
    | some log => .ok (s, (w.setLane l { w.lane l with storeLog := log }).noteStores (sharedKey off) bs)
    | none => .error (.wait (.meeting (some i)))
  else .ok (s.plainShm w.team off bs, w)

/-- One lane of a `VSTS`; `w` is the warp at issue. -/
def vstsLane (d b o : Nat) (reuse : Bool) (env : Env) (w : Warp) : LaneAccess := fun l s' w' =>
  let n := memSize w.typ
  sharedAccess env (w.address b o l) n l s' w' fun off =>
    sharedStore env (.vsts d b o reuse) l off (leBytes n (w.val w.typ l d)) s' w'

/-- `VSTS` (R198). -/
def vsts (d b o : Nat) (reuse : Bool) (s : State) (_ : Nat) (env : Env) (w0 : Warp) : Except Stop (State × Warp) :=
  let w := w0.mark reuse o
  memChecks env w anyType d o <|
  memLanes (vstsLane d b o reuse env w) (lanesOf w.width w.executing) s w

/-! ### Gondola stores (R261, R262) -/

/-- Whether `%gset` may be interpreted, for team clusters of `c` teams (Table 12.4, R262). -/
def gsetOk (g : DWord) (c : Nat) : Bool :=
  match bits g.toNat 63 62 with
  | 0 => bits g.toNat 61 8 == 0 && decide (g.toNat < 2 ^ c)
  | 1 => bits g.toNat 61 40 == 0
  | _ => false

/-- A list without repeats, each element at its first place. -/
def dedup : List Nat → List Nat
  | [] => []
  | x :: r => x :: (dedup r).filter (· != x)

/-- The cores that `%gset` targets (Table 12.4). -/
def State.pushTargets (s : State) (w : Warp) (c : Nat) : List Nat :=
  if bits w.gset.toNat 63 62 == 1 then
    dedup (((upto 4).map fun i => bits w.gset.toNat (10 * i + 9) (10 * i)).filter (· != 0x3FF))
  else match tabFind s.teams w.team with
  | none => []
  | some tm => dedup ((upto c).filterMap fun r =>
      if w.gset.getLsbD r then ((s.teamOfRank tm c r).bind fun t => tabFind s.teams t).map (·.core) else none)

/-- The targets of `%gset` in MODE 0 whose team has retired: no core holds it, and each push to it counts as a refusal (R262, Table 12.5; log entry 130). -/
def State.absentTargets (s : State) (w : Warp) (c : Nat) : Nat :=
  if bits w.gset.toNat 63 62 == 1 then 0
  else match tabFind s.teams w.team with
  | none => 0
  | some tm => ((upto c).filter fun r => w.gset.getLsbD r && (s.teamOfRank tm c r).isNone).length

/-- The home's message for a written line, which names the warp and the targets of its pushes, and carries the stores (R262, R265). -/
def pushMsg (k ctx line : Nat) (ts : List Nat) (c : CacheClass) (ws : List WaitingStore) : Msg :=
  { mkMsg .homeWrite 0 line (storeMask ws) c with warp := k, ctx := ctx, targets := ts, data := ws }

/-- The lines that a `GST` wrote with their stores, lowest lane first. -/
def addLine (ls : Tab (List WaitingStore)) (x : WaitingStore) : Tab (List WaitingStore) := tabSet ls (x.pa / 128) (tabGet ls (x.pa / 128) [] ++ [x])

/-- The pushes of a message without its stores, which a deterministic launch has logged. -/
def Msg.pushesOnly (m : Msg) : Msg := { m with data := [] }

/-- Pushes made: the homes get their messages, and the warp keeps one entry for each line and target until it is acknowledged (R265 to
R267). Those of a meeting, whose stores are performed, leave the homes at its end (`State.flushPushes`). -/
def makePushes (ms : List (Msg × List (Nat × Nat))) (s : State) (w : Warp) : State × Warp :=
  ({ s with net := s.net ++ ms.map (·.1) },
    { w with pushesOut := w.pushesOut ++ ms.flatMap fun m => m.1.targets.map fun _ => ⟨m.1.line, m.2⟩ })

/-- The pushes of a `GST` made, or held with the log until its commit (R262). -/
def pushLines (env : Env) (ms : List (Msg × List (Nat × Nat))) (refused : Nat) (s : State) (w : Warp) : State × Warp :=
  let w1 := { w with gref := w.gref + BitVec.ofNat 64 refused }
  if env.logs then (s, { w1 with detPushes := w1.detPushes ++ ms.map fun m => (m.1.pushesOnly, m.2) })
  else makePushes (if env.meeting then ms.map fun m => (m.1.pushesOnly, m.2) else ms) s w1

/-- A lane's store of a `GST`, which is performed at the line's home with the message of its line, or at a meeting at once (R262, R388); `ts` are the targets. -/
def gondolaStore (s : State) (k l : Nat) (env : Env) (i : Instr) (va : Nat) (p : Phys) (bs : List Byte) (c : CacheClass) (ts : List Nat) (w : Warp) :
    Except Stop (State × Warp) :=
  if env.logs then laneStore s k l env i va p bs .normal false w
  else
    stopIf (!p.fab && ((s.lockFor k p.pa).isSome || s.ownFirst env.core k p bs.length)) (.wait (.retry i)) <|
    stopIf (p.fab && s.lostPeer p.pkg) (.abort 0x10 (BitVec.ofNat 64 va)) <|
    let s1 := if p.fab then s.request p.pkg (.store p.pa bs false) (.warp k) 0 va
      else if env.meeting then s.homeWriteBut p.pa bs c false ts else s
    .ok (s1.noteWrite (s.launchKey w) va, w)

/-- One lane of a `GST`; `w` is the warp at issue. -/
def gstLane (d b o : Nat) (c : CacheClass) (reuse : Bool) (ts : List Nat) (k : Nat) (env : Env) (w : Warp) : LaneAccess := fun l s' w' =>
  let n := memSize w.typ
  let a := w.address b o l
  targetAccess (resolveOutside s' env (w'.lane l) a n .write) l s' w' (fun _ => .ok (s', w'.faultLane l 0x09 a))
    (fun va p => gondolaStore s' k l env (.gst d b o c reuse) va p (leBytes n (w.val w.typ l d)) c ts w')

/-- The global stores of a `GST`, each with its translation, lowest lane first. -/
def gstSites (d b o : Nat) (s : State) (k : Nat) (env : Env) (w : Warp) : List (Phys × WaitingStore) :=
  let n := memSize w.typ
  (lanesOf w.width w.executing).filterMap fun l => match resolveOutside s env (w.lane l) (w.address b o l) n .write with
    | .ok (.global va p) => some (p, ⟨k, env.ctx, va, p.pa, leBytes n (w.val w.typ l d)⟩)
    | _ => none

/-- `GST` (R262). The lines written follow from the translations of the lanes that stored. -/
def gst (d b o : Nat) (c : CacheClass) (reuse : Bool) (s : State) (k : Nat) (env : Env) (w0 : Warp) : Except Stop (State × Warp) :=
  let w := w0.mark reuse o
  let ls := lanesOf w.width w.executing
  w.typeCheck anyType [d] <|
  stopIf (!gsetOk w.gset env.cluster || w.anyTx) (w.trap 0x03) <|
  w.rangeCheck env (o :: w.typ.span d) <|
  let sites := gstSites d b o s k env w
  let lines := (sites.filterMap fun x => if x.1.fab then none else some x.2).foldl addLine ([] : Tab (List WaitingStore))
  let remote := dedup ((sites.filter (·.1.fab)).map fun x => physKey x.1 / 128)
  let ts := s.pushTargets w env.cluster
  (memLanes (gstLane d b o c reuse ts k env w) ls s w).map fun r =>
    pushLines env (lines.map fun e => (pushMsg k env.ctx e.1 ts c e.2, e.2.map fun x => (x.va, x.bytes.length)))
      (remote.length * ts.length + lines.length * s.absentTargets w env.cluster) r.1 r.2

/-! ### Atomics (R200, R201) -/

/-- The new value of a vector atomic under a type, none where a cas does not write (R200). -/
def atomicValue (op : AtomicOp) (t : ElemType) (old x swap : Nat) : Option Nat :=
  match t, op with
  | .f32, .add => some (Fmt.f32.deliver .rne false false ((Fmt.f32.decode old).add false (Fmt.f32.decode x)).1).1
  | .f32, .min => some (Fmt.f32.deliver .rne false false (minF .rne (Fmt.f32.decode old) (Fmt.f32.decode x)).1).1
  | .f32, .max => some (Fmt.f32.deliver .rne false false (maxF .rne (Fmt.f32.decode old) (Fmt.f32.decode x)).1).1
  | _, _ => atomicInt op t.isSigned (8 * memSize t) old x swap

/-- The registers of a vector atomic's destination, and of its swap value for cas. -/
def atomicNames (op : AtomicOp) (t : ElemType) (d : Nat) : List Nat :=
  t.span d ++ (if op == .cas then t.span (d + memSize t / 4) else [])

/-- A lane's atomic in global memory (R200, R201). -/
def laneAtomic (s : State) (now : Bool) (k l : Nat) (i : Instr) (va : Nat) (p : Phys) (n : Nat) (w : Warp) (remote : RemoteOp)
    (f : Nat → Option Nat) : Except Stop (State × Nat) :=
  s.homeAtomic now w.core k l i va p n (s.launchKey w) remote f

/-- The new value of a lane's atomic from the old one; `w` is the warp at issue. -/
def Warp.atomicNew (w : Warp) (op : AtomicOp) (d l old : Nat) : Option Nat :=
  atomicValue op w.typ old (w.val w.typ l d) (w.val w.typ l (d + memSize w.typ / 4))

/-- Whether some lane of a vector atomic performed it: an executing lane that its access has not parked. -/
def Warp.performedIn (w : Warp) (m : Mask) : Bool := (lanesOf w.width m).any fun l => (w.lane l).parked.isNone

/-- The frame shared by the vector atomics: checks, lanes ascending, the old value as a variable-latency result, and the taint where some lane performed its atomic (R38, R201). -/
def vectorAtomic (op : AtomicOp) (d o : Nat) (i : Instr) (s : State) (env : Env) (w : Warp) (f : LaneAccess) :
    Except Stop (State × Warp) :=
  let t := w.typ
  w.typeCheck ElemType.inK [d] <|
  stopIf w.anyTx (w.trap 0x03) <|
  w.rangeCheck env (o :: atomicNames op t d) <|
  env.atMeeting i <|
  (memLanes f (lanesOf w.width w.executing) s w).map fun r =>
      let r' := loaded w d r
      (r'.1, if r.2.performedIn w.executing then r'.2.taint else r'.2)

/-- One lane of a `VATOM`; `w` is the warp at issue. -/
def vatomLane (d b o : Nat) (op : AtomicOp) (reuse : Bool) (k : Nat) (env : Env) (w : Warp) : LaneAccess := fun l s' w' =>
  let t := w.typ
  let n := memSize t
  laneAccess env (w.address b o l) n .readWrite l s' w'
    (fun ps => readPriv s' (w.address b o l) ps fun bs =>
      let old := natOfBytes bs
      .ok (match w.atomicNew op d l old with
        | some v => s'.putPieces ps (leBytes n v)
        | none => s'.touchPieces ps, w'.setLane l (w.putVal t l d (w'.lane l) old)))
    (fun va p => (laneAtomic s' env.meeting k l (.vatom d b o op reuse) va p n w
        (.atomic op t p.pa (w.val t l d) (w.val t l (d + n / 4))) (w.atomicNew op d l)).map fun r =>
      (r.1, w'.setLane l (w.putVal t l d (w'.lane l) r.2)))

/-- `VATOM` (R200). -/
def vatom (d b o : Nat) (op : AtomicOp) (reuse : Bool) (s : State) (k : Nat) (env : Env) (w0 : Warp) :
    Except Stop (State × Warp) :=
  let w := w0.mark reuse o
  vectorAtomic op d o (.vatom d b o op reuse) s env w (vatomLane d b o op reuse k env w)

/-- One lane of a `VATOMS`; `w` is the warp at issue. -/
def vatomsLane (d b o : Nat) (op : AtomicOp) (env : Env) (w : Warp) : LaneAccess := fun l s' w' =>
  let t := w.typ
  let n := memSize t
  let a := w.address b o l
  sharedAccess env a n l s' w' fun off =>
    stopIf (s'.shmPoisoned w.team off n) (.abort 0x11 a) <|
    let old := natOfBytes (s'.shmBytes w.team off n)
    .ok (match w.atomicNew op d l old with
      | some v => s'.plainShm w.team off (leBytes n v)
      | none => s', w'.setLane l (w.putVal t l d (w'.lane l) old))

/-- `VATOMS` (R200). -/
def vatoms (d b o : Nat) (op : AtomicOp) (reuse : Bool) (s : State) (_ : Nat) (env : Env) (w0 : Warp) :
    Except Stop (State × Warp) :=
  let w := w0.mark reuse o
  vectorAtomic op d o (.vatoms d b o op reuse) s env w (vatomsLane d b o op env w)

/-! ### Spill and fill (R154) -/

/-- The frame shared by `VSPL` and `VFIL`: one lane's access to its own word at an address that is the same in every lane; `f` is what is done with the word's place. -/
def spillLane (env : Env) (a : DWord) (k : AccessKind) (f : List (Nat × Nat) → LaneAccess) : LaneAccess := fun l s w =>
  if a.toNat % 4 != 0 then .ok (s, w.faultLane l 0x08 a)
  else if a.toNat < env.base || env.top < a.toNat + 4 then .ok (s, w.faultLane l 0x09 a)
  else match resolvePriv s env (w.lane l) l (a.toNat - env.base) 4 k with
  | .ok (.priv ps) => f ps l s w
  | .ok (.doom cause) => .ok (s, w.setLane l ((w.lane l).doom cause 0))
  | .ok _ => .ok (s, w)
  | .error e => .error e

/-- The address of a spill slot. -/
def Warp.slot (w : Warp) (i : Nat) : DWord := w.scal 31 + BitVec.ofNat 64 (i * 4)

/-- One lane of a `VSPL`; `w` is the warp at issue. -/
def vsplLane (d i : Nat) (env : Env) (w : Warp) : LaneAccess :=
  spillLane env (w.slot i) .write fun ps l s' w' => .ok (s'.putPieces ps (leBytes 4 (w.reg l d).toNat), w')

/-- `VSPL` (R154). -/
def vspl (d i : Nat) (s : State) (_ : Nat) (env : Env) (w : Warp) : Except Stop (State × Warp) :=
  w.rangeCheck env [d] <| memLanes (vsplLane d i env w) (lanesOf w.width w.executing) s w

/-- One lane of a `VFIL`; `w` is the warp at issue. -/
def vfilLane (d i : Nat) (env : Env) (w : Warp) : LaneAccess :=
  spillLane env (w.slot i) .read fun ps l s' w' => readPriv s' (w.slot i) ps fun bs =>
    .ok (s'.touchPieces ps, w'.setLane l (w.putVal .i32 l d (w'.lane l) (natOfBytes bs)))

/-- `VFIL` (R154). -/
def vfil (d i : Nat) (s : State) (_ : Nat) (env : Env) (w : Warp) : Except Stop (State × Warp) :=
  w.rangeCheck env [d] <|
  (memLanes (vfilLane d i env w) (lanesOf w.width w.executing) s w).map fun r => (r.1, r.2.dropLatches [d])

/-! ### Meanings -/

/-- `VLD` (R197). Loads n bytes per executing lane from a global address into vd. -/
def execVld (d b o : Nat) (c : CacheClass) (na reuse : Bool) (s : State) : Host.Outcome State Fault Refusal :=
  s.issueMem (vld d b o c na reuse)

/-- `VST` (R197). Stores n bytes of vd per executing lane to a global address. -/
def execVst (d b o : Nat) (c : CacheClass) (na reuse : Bool) (s : State) : Host.Outcome State Fault Refusal :=
  s.issueMem (vst d b o c na reuse)

/-- `VLDS` (R198). Loads per lane from the team's shared memory into vd. -/
def execVlds (d b o : Nat) (reuse : Bool) (s : State) : Host.Outcome State Fault Refusal := s.issueMem (vlds d b o reuse)

/-- `VSTS` (R198). Stores vd per lane to the team's shared memory. -/
def execVsts (d b o : Nat) (reuse : Bool) (s : State) : Host.Outcome State Fault Refusal := s.issueMem (vsts d b o reuse)

/-- `GST` (R262). Stores like VST at the home and pushes each written line to the cores named by %gset. -/
def execGst (d b o : Nat) (c : CacheClass) (reuse : Bool) (s : State) : Host.Outcome State Fault Refusal :=
  s.issueMem (gst d b o c reuse)

/-- `VATOM` (R200). Performs one read-modify-write per executing lane on global memory at the home, returning the old value. -/
def execVatom (d b o : Nat) (op : AtomicOp) (reuse : Bool) (s : State) : Host.Outcome State Fault Refusal :=
  s.issueMem (vatom d b o op reuse)

/-- `VATOMS` (R200). Performs one read-modify-write per executing lane on shared memory, returning the old value. -/
def execVatoms (d b o : Nat) (op : AtomicOp) (reuse : Bool) (s : State) : Host.Outcome State Fault Refusal :=
  s.issueMem (vatoms d b o op reuse)

/-- `VSPL` (R154). Stores a vector register to the lane's private stack at s31 plus a word offset. -/
def execVspl (d i : Nat) (s : State) : Host.Outcome State Fault Refusal := s.issueMem (vspl d i)

/-- `VFIL` (R154). Loads a vector register from the lane's private stack at s31 plus a word offset. -/
def execVfil (d i : Nat) (s : State) : Host.Outcome State Fault Refusal := s.issueMem (vfil d i)

end Sys2Proof.Machine
end

