-- ==== Sys2Proof/Machine/Async.lean ====
section
/-! DEFINITION. Asynchronous operations at issue: engine queues, batches, barrier objects and tensor copies (R206 to R219, R224). -/

namespace Sys2Proof.Machine

/-! ### Objects in shared memory, as an instruction sees them -/

/-- Shared bytes as the warp sees them, its own logged stores included (R345). -/
def State.seenBytes (s : State) (w : Warp) (off n : Nat) : List Byte := w.overlay (sharedKey off) (s.shmBytes w.team off n)

/-- The checks of an object of `n` bytes at a shared offset (R217): alignment, then the window. -/
def sharedPlace {α : Type} (env : Env) (o : DWord) (align n : Nat) (k : Nat → Except Stop α) : Except Stop α :=
  stopIf (o.toNat % align != 0) (.charged 0x08 o) <|
  stopIf (decide (env.shm < o.toNat + n)) (.charged 0x09 o) <|
  k o.toNat

/-- An object of `n` bytes at a shared offset that the instruction reads (R217): the checks of its place, and a poisoned object aborts the
launch (R163). -/
def sharedObject {α : Type} (s : State) (env : Env) (w : Warp) (o : DWord) (align n : Nat) (k : Nat → Except Stop α) :
    Except Stop α :=
  sharedPlace env o align n fun _ =>
  stopIf (s.shmPoisoned w.team o.toNat n) (.abort 0x11 o) <|
  k o.toNat

/-! ### Queues of the engines (R218, R228, R243) -/

/-- The three queues of a core's engines. -/
inductive EngineQueue where
  | copy | matrix | act
  deriving DecidableEq, Repr

/-- The queue that an operation enters. -/
def OpKind.queue : OpKind → EngineQueue
  | .copy _ => .copy
  | .actld _ _ => .act
  | _ => .matrix

/-- The operations in a queue. -/
def Core.opQueue (c : Core) : EngineQueue → List Nat
  | .copy => c.copyQueue
  | .matrix => c.matrixQueue
  | .act => c.actQueue

/-- A core with a queue replaced. -/
def Core.setOpQueue (c : Core) (l : List Nat) : EngineQueue → Core
  | .copy => { c with copyQueue := l }
  | .matrix => { c with matrixQueue := l }
  | .act => { c with actQueue := l }

/-- Whether a queue has no room: 32 copies or 16 matrix operations (R218, R228). -/
def Core.queueFull (c : Core) : EngineQueue → Bool
  | .copy => decide (32 ≤ c.copyQueue.length)
  | .matrix => decide (16 ≤ c.matrixQueue.length)
  | .act => false

/-- An operation entered in its queue. -/
def State.enqueue (s : State) (n : Nat) (o : EngineOp) : State :=
  let c := s.core o.core
  let q := o.kind.queue
  { s with
    nextId := s.nextId + 1
    cores := tabSet s.cores o.core (c.setOpQueue (c.opQueue q ++ [n]) q)
    ops := tabSet s.ops n { o with issued := some s.nextId } }

/-- A new operation of a warp. -/
def newOp (k : Nat) (w : Warp) (kind : OpKind) (bar : Option Nat) (batched : Bool) (names : List (List Nat)) : EngineOp where
  warp := k
  team := w.team
  core := w.core
  kind := kind
  bar := bar
  batched := batched
  names := names
  issued := none
  done := false
  work := none
  fault := none
  denied := []

/-- An operation issued: it enters its queue, or in a deterministic launch waits for the meeting (R390); it joins the open set
(R206). -/
def addOp (env : Env) (o : EngineOp) (s : State) (w : Warp) : State × Warp :=
  let n := s.nextId
  let s1 := { s with nextId := n + 1, ops := tabSet s.ops n o }
  let id := s.launchKey w
  (if env.logs then
      match tabFind s1.launches id with
      | some x => { s1 with launches := tabSet s1.launches id { x with heldOps := x.heldOps ++ [n] } }
      | none => s1
    else s1.enqueue n o,
    if o.batched then { w with openOps := w.openOps ++ [n] } else w)

/-- An instruction that finds its queue full stalls before taking effect (R218, R228). -/
def queueRoom {α : Type} (s : State) (env : Env) (w : Warp) (q : EngineQueue) (i : Instr) (k : Except Stop α) : Except Stop α :=
  stopIf (!env.logs && (s.core w.core).queueFull q) (.wait (.retry i)) k

/-! ### Batches (R208 to R210) -/

/-- The batches without those that have completed: one closed with operations completes with the last of them, one closed with none
when no earlier batch is left (R208). `earlier` says that one is. -/
def pruneBatches (earlier : Bool) : List Batch → List Batch
  | [] => []
  | b :: r => if b.ops.isEmpty && (!b.empty || !earlier) then pruneBatches earlier r else b :: pruneBatches true r

/-- The next batch number closed over some operations (R208). -/
def Warp.closeBatch (w : Warp) (s : State) (ids : List Nat) : Warp :=
  let n := w.batch + 1
  let left := ids.filter fun i => (tabFind s.ops i).isSome
  { w with batch := n, batches := pruneBatches false (w.batches ++ [⟨n, left, ids.isEmpty⟩]) }

/-- The closed batches that a warp may hold (R208). -/
def maxBatches : Nat := 16

/-- `AFENCE` (R208). -/
def afence (d : Nat) (s : State) (w : Warp) : Except Stop Warp :=
  stopIf (decide (maxBatches ≤ w.batches.length)) (.wait (.retry (.afence d))) <|
  let w1 := { w.closeBatch s w.openOps with openOps := [] }
  .ok (w1.setScal d (w1.batch.setWidth 64))

/-- `AFENCE` (R208). Closes the warp's open asynchronous operations into a numbered batch. -/
def execAfence (d : Nat) (s : State) : Host.Outcome State Fault Refusal := s.issue fun _ w => afence d s w

/-- Whether batch `m` precedes or equals batch `n` (R209). -/
def batchLe (m n : BitVec 16) : Bool := decide ((n - m).toNat < 32768)

/-- Whether every closed batch up to `n` has completed. -/
def Warp.batchesDone (w : Warp) (n : BitVec 16) : Bool := !w.batches.any fun b => batchLe b.number n

/-- The end of an `AWAIT`: the status accumulator returned and cleared (R209, R210). -/
def Warp.awaited (w : Warp) (d : Nat) : Warp := { w.setScal d w.statusAcc with statusAcc := 0 }

/-- `AWAIT` (R209). -/
def await (d n : Nat) (s : State) (_ : Nat) (env : Env) (w0 : Warp) : Effect :=
  let b := (w0.scal n).setWidth 16
  let w := w0.drain
  stopIf (b != w0.batch && batchLe w0.batch b) (w0.trap 0x03) <|
  env.atMeeting (.await d n) <|
  if w.batchesDone b then .ok (s, w.awaited d, .after 4)
  else .ok (s, { w with status := .waiting (.await d b.toNat) }, .stay)

/-- `AWAIT` (R209). Waits until every closed batch up to the given number has completed and returns the status accumulator. -/
def execAwait (d n : Nat) (s : State) : Host.Outcome State Fault Refusal := s.issueParked 4 (await d n)

/-! ### Barrier objects (R212 to R217) -/

/-- A status word with the error bits of one operation and its count (Table 9.5, R210). -/
def addStatus (v : DWord) (errors : Nat) : DWord :=
  if errors == 0 then v
  else
    let n := min (bits v.toNat 47 32 + 1) 65535
    BitVec.ofNat 64 (Nat.lor (v.toNat % 2 ^ 32) errors + n * 2 ^ 32 + bits v.toNat 63 48 * 2 ^ 48)

/-- An arrival of `c` counts on the object at an offset of a team's shared memory (R213); `errors` are an engine's error bits. In the
case that R213 leaves undefined the phase is a free value. -/
def State.arrive (s : State) (t off c errors : Nat) : State :=
  let at' (o n : Nat) : Nat := natOfBytes (s.shmBytes t (off + o) n)
  let expect := at' 4 2
  let total := at' 6 2 + c
  let flips := if expect == 0 then 0 else total / expect
  let phase := at' 0 4
  let raced := match tabFind s.teams t with
    | some tm => tm.raced.contains off
    | none => false
  let phase' := if raced then Config.freeNat s.tick % 2 else Nat.xor phase (flips % 2)
  s.shmWrite t off (leBytes 4 phase' ++ leBytes 2 expect ++ leBytes 2 (if expect == 0 then total % 65536 else total % expect)
    ++ leBytes 8 (addStatus (BitVec.ofNat 64 (at' 8 8)) errors).toNat)

/-- `BINIT` (R214): a plain store of the object. -/
def binit (c y : Nat) (s : State) (_ : Nat) (env : Env) (w : Warp) : Except Stop (State × Warp) :=
  let n := (w.scal c).toNat
  stopIf (n == 0 || decide (65535 < n)) (w.trap 0x01) <|
  sharedPlace env (w.scal y) 16 16 fun off =>
  (sharedStore env (.binit c y) w.lowestLive off (leBytes 4 0 ++ leBytes 2 n ++ leBytes 2 0 ++ leBytes 8 0) s w).map fun r =>
    (if s.objectPending w.team off then r.1
      else r.1.updateTeam w.team fun tm => { tm with raced := tm.raced.filter (· != off) }, r.2)

/-- `BINIT` (R214). Initialises a barrier object in shared memory with an expected count. -/
def execBinit (c y : Nat) (s : State) : Host.Outcome State Fault Refusal := s.issueMem (binit c y)

/-- `BARV` (R215): a release at team scope that taints the region. In a deterministic launch its arrival is held for the commit of the warp's log, like the stores that it releases (R345;
log entry 117). -/
def barv (y c : Nat) (s : State) (k : Nat) (env : Env) (w : Warp) : Except Stop (State × Warp) :=
  stopIf w.anyTx (w.trap 0x03) <|
  sharedObject s env w (w.scal y) 16 16 fun off =>
  s.released k w true .team <|
  .ok (if env.logs then (s, { w with detArrivals := w.detArrivals ++ [(off, c)] }.taint) else (s.arrive w.team off c 0, w.taint))

/-- `BARV` (R215). Makes a release arrival of c counts on a barrier object. -/
def execBarv (y c : Nat) (s : State) : Host.Outcome State Fault Refusal := s.issueMem (barv y c)

/-- Whether a waiter with phase argument `q` may return: PHASE ≠ q, or a free choice in the case that R213 leaves undefined. -/
def State.phaseReached (s : State) (t off : Nat) (q : Bool) : Bool :=
  match tabFind s.teams t with
  | some tm =>
    if tm.raced.contains off then Config.freeNat s.tick % 2 == 1
    else bit (natOfBytes (s.shmBytes t off 4)) 0 != q
  | none => false

/-- The end of a `BWAIT`: STATUS returned (R216). -/
def Warp.phaseSeen (w : Warp) (s : State) (d off : Nat) : Warp :=
  w.setScal d (BitVec.ofNat 64 (natOfBytes (s.shmBytes w.team (off + 8) 8)))

/-- `BWAIT` (R216). -/
def bwait (d y : Nat) (q : Bool) (s : State) (_ : Nat) (env : Env) (w0 : Warp) : Effect :=
  let w := w0.drain
  sharedObject s env w (w.scal y) 16 16 fun off =>
  env.atMeeting (.bwait d y q) <|
  if s.phaseReached w.team off q then .ok (s, w.phaseSeen s d off, .after 4)
  else .ok (s, { w with status := .waiting (.bwait d off q) }, .stay)

/-- `BWAIT` (R216). Waits until a barrier object's phase differs from q and returns its status. -/
def execBwait (d y : Nat) (q : Bool) (s : State) : Host.Outcome State Fault Refusal := s.issueParked 4 (bwait d y q)

/-! ### Tensor copy at issue (R218, R219, R224) -/

/-- A signed 64-bit field. -/
def fieldInt (bs : List Byte) (o : Nat) : Int := (BitVec.ofNat 64 (fieldAt bs o 8)).toInt

/-- A copy descriptor from its 256 bytes (Table 9.6). -/
def CopyDesc.ofBytes (bs : List Byte) : CopyDesc where
  src := fieldAt bs 0 8
  dst := fieldAt bs 8 8
  ctl := fieldAt bs 0x10 4
  reservedZero := zeroAt bs 0x14 0x2C
  extents := (upto 16).map fun i => fieldAt bs (0x40 + 4 * i) 4
  strides := (upto 16).map fun i => fieldInt bs (0x80 + 8 * i)

/-- A barrier register's offset. -/
def Warp.barOf (w : Warp) (b : Option Nat) : Option Nat := b.map fun n => (w.scal n).toNat

/-- `TCOPY` (R218). -/
def tcopy (b : Option Nat) (y : Nat) (s : State) (k : Nat) (env : Env) (w : Warp) : Except Stop (State × Warp) :=
  stopIf w.anyTx (w.trap 0x03) <|
  sharedObject s env w (w.scal y) 64 256 fun off =>
  queueRoom s env w .copy (.tcopy b y) <|
  .ok (addOp env (newOp k w (.copy (CopyDesc.ofBytes (s.seenBytes w off 256))) (w.barOf b) true []) s w)

/-- `TCOPY` (R218). Reads a tensor-copy descriptor and queues a copy on the core's tensor-copy engine. -/
def execTcopy (b : Option Nat) (y : Nat) (s : State) : Host.Outcome State Fault Refusal := s.issueMem (tcopy b y)

/-- `TCOPY.Y` (R224): the open operations and the copy are closed into batches, and the warp waits for the copy's. -/
def tcopyY (b : Option Nat) (y c : Nat) (s : State) (k : Nat) (env : Env) (w : Warp) : Effect :=
  let i := Instr.tcopyY b y c
  let need := if w.openOps.isEmpty then 1 else 2
  stopIf w.anyTx (w.trap 0x03) <|
  sharedObject s env w (w.scal y) 64 256 fun off =>
  env.atMeeting i <|
  queueRoom s env w .copy i <|
  stopIf (decide (maxBatches < w.batches.length + need)) (.wait (.retry i)) <|
  let w1 := if w.openOps.isEmpty then w else { w.closeBatch s w.openOps with openOps := [] }
  let r := addOp env (newOp k w (.copy (CopyDesc.ofBytes (s.seenBytes w off 256))) (w.barOf b) true []) s w1
  let w2 := { r.2.closeBatch r.1 r.2.openOps with openOps := [] }
  .ok (r.1, { w2 with status := .waiting (.tcopyY w2.batch.toNat (w.pc + BitVec.ofNat 64 (c * 16))) }, .stay)

/-- `TCOPY_Y` (R224). Issues a copy in its own batch and yields until it completes, then resumes at the continuation. -/
def execTcopyY (b : Option Nat) (y c : Nat) (s : State) : Host.Outcome State Fault Refusal := s.issueOf 4 (tcopyY b y c)

end Sys2Proof.Machine
end

