-- ==== Sys2Proof/Machine/Matrix.lean ====
section
/-! DEFINITION. The matrix engine's instructions at issue: tile descriptors, format blocks, and the operations they queue (R225 to R228, R233, R234, R239, R241, R243). -/

namespace Sys2Proof.Machine

/-- The bytes of a team's accumulator allocation (R225). -/
def State.accSize (s : State) (w : Warp) : Nat := ((s.launchOf w).map fun x => x.desc.acc).getD 0

/-- The status bits of Table 9.5. -/
def stEcc : Nat := 1
/-- Table 9.5: XLATE, a fault that could not be serviced or an engine operand in the private window. -/
def stXlate : Nat := 2
/-- Table 9.5: FMT, a format-block error. -/
def stFmt : Nat := 4
/-- Table 9.5: PERM, a permutation out of range. -/
def stPerm : Nat := 8
/-- Table 9.5: GATHER, a gather index out of range. -/
def stGather : Nat := 16
/-- Table 9.5: COLL, a collective error. -/
def stColl : Nat := 32
/-- Table 9.5: DESC, a descriptor error. -/
def stDesc : Nat := 64
/-- Table 9.5: SHMRANGE, a shared-memory operand outside the team's window. -/
def stShm : Nat := 128

/-- A tile descriptor from its 16 bytes, none where order 3 of R227 fails. -/
def tileOf? (bs : List Byte) : Option Tile :=
  let base := fieldAt bs 0 4
  let m := fieldAt bs 4 2
  let n := fieldAt bs 6 2
  let p := fieldAt bs 8 2
  let t := fieldAt bs 10 1
  if zeroAt bs 11 5 && (t == 0 || t == 2) && decide (1 ≤ m) && decide (m ≤ 256) && decide (1 ≤ n) && decide (n ≤ 256)
      && (p == 0 || decide (n ≤ p)) && base % 4 == 0 then
    some ⟨base, m, n, if p == 0 then n else p, t == 2⟩
  else none

/-- The bytes from a tile's base to its footprint's end (R226). -/
def Tile.extent (t : Tile) : Nat := ((t.m - 1) * t.pitch + t.n) * 4

/-- The checks of R227 on the descriptor that a register names: the tile, or none where it only reports DESC. -/
def tileCheck {α : Type} (s : State) (env : Env) (w : Warp) (o : DWord) (k : Option Tile → Except Stop α) : Except Stop α :=
  sharedObject s env w o 16 16 fun off =>
  match tileOf? (s.seenBytes w off 16) with
  | none => k none
  | some t => stopIf (decide (s.accSize w < t.base + t.extent)) (.charged 0x09 (BitVec.ofNat 64 t.base)) (k (some t))

/-- An operation of the matrix queue over a tile, or the one that only reports DESC. -/
def queueTile (s : State) (k : Nat) (env : Env) (w : Warp) (i : Instr) (t : Option Tile) (bar : Option Nat) (batched : Bool)
    (names : List (List Nat)) (f : Tile → OpKind) : Except Stop (State × Warp) :=
  queueRoom s env w .matrix i <|
  .ok (addOp env (newOp k w (match t with
    | some x => f x
    | none => .failed stDesc) bar batched names) s w)

/-- One operand's half of a format block (Table 10.3). -/
def OperandFormat.ofBytes (bs : List Byte) (o : Nat) : OperandFormat where
  fmt := fieldAt bs o 1
  blk := fieldAt bs (o + 1) 1
  scf := fieldAt bs (o + 2) 1
  reserved := fieldAt bs (o + 3) 1
  ld := fieldAt bs (o + 4) 4
  scale := fieldAt bs (o + 8) 4
  reserved2 := fieldAt bs (o + 12) 4

/-- A format block from its 64 bytes (Table 10.3). -/
def FormatBlock.ofBytes (bs : List Byte) : FormatBlock where
  a := OperandFormat.ofBytes bs 0
  b := OperandFormat.ofBytes bs 0x10
  k := fieldAt bs 0x20 4
  perm := fieldAt bs 0x24 4
  plen := fieldAt bs 0x28 4
  gidx := fieldAt bs 0x2C 4
  grows := fieldAt bs 0x30 4
  bar := fieldAt bs 0x34 4
  flags := fieldAt bs 0x38 4
  reserved := fieldAt bs 0x3C 4

/-- The barrier object that a format block names (R234). -/
def FormatBlock.barrier (f : FormatBlock) : Option Nat := if bit f.flags 0 then some f.bar else none

/-- `MMA` and `MMAG` (R233). -/
def matrixMultiply (gather : Bool) (i : Instr) (d a b f : Nat) (s : State) (k : Nat) (env : Env) (w : Warp) :
    Except Stop (State × Warp) :=
  w.point <|
  w.converged <|
  sharedObject s env w (w.scal f) 64 64 fun off =>
  tileCheck s env w (w.scal d) fun t =>
  let fb := FormatBlock.ofBytes (s.seenBytes w off 64)
  queueTile s k env w i t fb.barrier true [] fun x => .mma gather x (w.scal a).toNat (w.scal b).toNat fb w.sat

/-- `MMA` (R236). Queues a block-scaled matrix multiply-accumulate of shared operands into an accumulator tile. -/
def execMma (d a b f : Nat) (s : State) : Host.Outcome State Fault Refusal := s.issueMem (matrixMultiply false (.mma d a b f) d a b f)

/-- `MMAG` (R236). Queues a matrix multiply-accumulate whose A rows are gathered by an index vector. -/
def execMmag (d a b f : Nat) (s : State) : Host.Outcome State Fault Refusal := s.issueMem (matrixMultiply true (.mmag d a b f) d a b f)

/-- `ACCZ` (R239): in the queue, but in no batch. -/
def accz (y : Nat) (s : State) (k : Nat) (env : Env) (w : Warp) : Except Stop (State × Warp) :=
  tileCheck s env w (w.scal y) fun t => queueTile s k env w (.accz y) t none false [] .accz

/-- `ACCZ` (R240). Queues the zeroing of an accumulator tile. -/
def execAccz (y : Nat) (s : State) : Host.Outcome State Fault Refusal := s.issueMem (accz y)

/-- `ACCLD` (R239, R240). -/
def accld (b : Option Nat) (shm : Bool) (a y : Nat) (s : State) (k : Nat) (env : Env) (w : Warp) : Except Stop (State × Warp) :=
  stopIf w.anyTx (w.trap 0x03) <|
  tileCheck s env w (w.scal y) fun t =>
  queueTile s k env w (.accld b shm a y) t (w.barOf b) true [] fun x => .accld shm (w.scal a).toNat x

/-- `ACCLD` (R240). Queues a bit-for-bit copy of a memory image into an accumulator tile. -/
def execAccld (b : Option Nat) (shm : Bool) (a y : Nat) (s : State) : Host.Outcome State Fault Refusal := s.issueMem (accld b shm a y)

/-- `ACCST` to memory (R239, R240). -/
def accst (b : Option Nat) (shm : Bool) (a y : Nat) (s : State) (k : Nat) (env : Env) (w : Warp) : Except Stop (State × Warp) :=
  stopIf w.anyTx (w.trap 0x03) <|
  tileCheck s env w (w.scal y) fun t =>
  queueTile s k env w (.accst b shm a y) t (w.barOf b) true [] fun x => .accst shm (w.scal a).toNat x

/-- `ACCST` (R240). Queues a bit-for-bit copy of an accumulator tile into a global or shared image. -/
def execAccst (b : Option Nat) (shm : Bool) (a y : Nat) (s : State) : Host.Outcome State Fault Refusal := s.issueMem (accst b shm a y)

/-- The physical registers `d` to `d + n − 1` of each live lane below `m`, none for the other lanes (R35, R240, R241). A doomed lane writes nothing (R298). -/
def Warp.rowNames (w : Warp) (d n first m : Nat) : List (List Nat) :=
  (upto w.width).map fun l =>
    if inMask (w.live &&& ~~~w.doomed) l && decide (first + l < m) then (upto n).map fun j => w.phys l (d + j) else []

/-- An operation queued with the latches of its register destinations cleared at issue (R25); its writes at completion clear none (R231). -/
def clearing (names : List Nat) : Except Stop (State × Warp) → Except Stop (State × Warp)
  | .ok x => .ok (x.1, x.2.dropLatches names)
  | .error e => .error e

/-- `ACCST.r` (R240): N above 32 or a register beyond the budget is DESC, also where vd itself is beyond it. DEDUCED: check 6 of Table 3.8 would raise register range there,
and R240 gives every register of this instruction at or above the budget to DESC (log entry 113). -/
def accstR (d y : Nat) (s : State) (k : Nat) (env : Env) (w : Warp) : Except Stop (State × Warp) :=
  stopIf w.anyTx (w.trap 0x03) <|
  tileCheck s env w (w.scal y) fun t =>
  let fits (x : Tile) : Bool := decide (x.n ≤ 32) && (upto x.n).all fun j => w.nameOk env (d + j)
  let t' := t.bind fun x => if fits x then some x else none
  clearing ((upto ((t'.map (·.n)).getD 1)).map (d + ·)) <|
  queueTile s k env w (.accstR d y) t' none true ((t'.map fun x => w.rowNames d x.n 0 x.m).getD []) fun x => .accstR d x

/-- `ACCST_R` (R240). Queues the copy of tile row l into registers vd to vd+N-1 of lane l. -/
def execAccstR (d y : Nat) (s : State) : Host.Outcome State Fault Refusal := s.issueMem (accstR d y)

/-- `RSTAT` (R241). -/
def rstat (d y r : Nat) (s : State) (k : Nat) (env : Env) (w : Warp) : Except Stop (State × Warp) :=
  w.point <|
  w.converged <|
  w.rangeCheck env [d, d + 1, d + 2] <|
  tileCheck s env w (w.scal y) fun t =>
  clearing [d, d + 1, d + 2] <|
  queueTile s k env w (.rstat d y r) t none true ((t.map fun x => w.rowNames d 3 r x.m).getD []) fun x => .rstat d r x

/-- `RSTAT` (R241). Queues the row maximum, sum and sum of squares of tile rows into three registers per lane. -/
def execRstat (d y r : Nat) (s : State) : Host.Outcome State Fault Refusal := s.issueMem (rstat d y r)

/-- `ACTLD` (R243). -/
def actld (b : Option Nat) (shm : Bool) (y : Nat) (s : State) (k : Nat) (env : Env) (w : Warp) : Except Stop (State × Warp) :=
  stopIf w.anyTx (w.trap 0x03) <|
  .ok (addOp env (newOp k w (.actld shm (w.scal y).toNat) (w.barOf b) true []) s w)

/-- `ACTLD` (R243). Loads an activation image into the inactive bank of the team's activation table. -/
def execActld (b : Option Nat) (shm : Bool) (y : Nat) (s : State) : Host.Outcome State Fault Refusal := s.issueMem (actld b shm y)

end Sys2Proof.Machine
end

