-- ==== Sys2Proof/Machine/Engine.lean ====
section
/-! DEFINITION. The engines at work: what a tensor copy, a matrix operation, a tile move, row statistics and an activation load read and write, and how an operation completes (R61, R64 to R66, R208 to R213, R220 to R223, R229 to R231, R235 to R243). -/

namespace Sys2Proof.Machine

/-! ### Engine accesses to memory -/

/-- What an engine's read of some bytes finds. -/
inductive Got where
  | data (bs : List Byte) (poisoned : Bool)
  | outside
  | xlate
  deriving DecidableEq, Repr

/-- Where a global address of an engine or a collective lies: none where it reports XLATE, as on the pages that the host refused to serve; a fault that the host can serve is waited
for (R222). -/
def State.servedPhys (s : State) (core ctx : Nat) (denied : List Nat) (a : Nat) (k : AccessKind) : Except Stop (Option Phys) :=
  match s.translate core ctx a k with
  | .ok p => .ok (some p)
  | .error (.malformed, _) => .ok none
  | .error _ => if denied.contains (a / 2 ^ 16) then .ok none else .error (.translation ctx a k)

/-- The place of an engine's global access: none where it reports XLATE (R222). -/
def engineAddr (s : State) (env : Env) (o : EngineOp) (a n : Nat) (k : AccessKind) : Except Stop (Option Phys) :=
  if placeOf env a n != .global then .ok none else s.servedPhys env.core env.ctx o.denied a k

/-- An engine's access that has to wait: for the lock on a sector (R303), or for a busy line (R273). -/
def engineWaits {α : Type} (s : State) (pa n : Nat) (k : Except Stop α) : Except Stop α :=
  stopIf (s.heldBack pa n) (.wait .pushes) k

/-- A read of `n` global bytes where they lie, on this package or, by an asker's request `tag`, on another (R222, R415); `touch` is what it does in the caches. -/
def State.fetchGlobal (s : State) (who : Requester) (ctx a n tag : Nat) (touch : State → Nat → State) : Option Phys → Except Stop (State × Got)
  | none => .ok (s, .xlate)
  | some p =>
    if p.fab then
      if s.lostPeer p.pkg then .ok (s, .xlate)
      else match s.remoteLoad who tag ctx a p n with
      | .ok (s1, bs, bad) => .ok (s1, .data bs bad)
      | .error op => .error (.remote tag p.pkg op a)
    else engineWaits s p.pa n <|
      .ok (touch (s.homeRead p.pa n) (p.pa / 128), .data (s.bytesAt p.pa n) (isPoisoned s.poison p.pa n))

/-- An engine's read of `n` bytes, global or shared (R222, R230, R415); `tag` names the read among the operation's remote ones, and `touch` is what it does in the caches. -/
def engineRead (s0 : State) (id : Nat) (env : Env) (o : EngineOp) (shm : Bool) (a n tag : Nat) (touch : State → Nat → State) :
    Except Stop (State × Got) :=
  let s := if shm then s0 else s0.fillAccess env.core env.ctx a .read
  if shm then
    .ok (s, if a + n ≤ env.shm then .data (s.shmBytes o.team a n) (s.shmPoisoned o.team a n) else .outside)
  else match engineAddr s env o a n .read with
  | .error e => .error e
  | .ok p => s.fetchGlobal (.op id) env.ctx a n tag touch p

/-- A read through the L2 with a class (R271). -/
def throughL2 (c : CacheClass) (na : Bool) (s : State) (line : Nat) : State := s.l2Access line c na false

/-- Bytes poisoned in a team's shared memory. -/
def State.poisonShm (s : State) (t off n : Nat) : State :=
  s.updateTeam t fun tm => { tm with shmPoison := addPoison tm.shmPoison off n }

/-- A write of an operation or a collective performed where it goes, poisoned or not (R222, R399, R415). -/
def State.putWrite (s : State) (who : Requester) (team : Nat) (h : HeldWrite) : State :=
  let n := h.bytes.length
  if h.shm then
    let s1 := s.shmWrite team h.pa h.bytes
    if h.bad then s1.poisonShm team h.pa n else s1
  else
    let s1 := match tabFind s.teams team with
      | some tm => s.noteWrite tm.launch h.va
      | none => s
    if h.fab then s1.request h.pkg (.store h.pa h.bytes h.bad) who 0 h.va
    else
      let s2 := s1.homeWrite h.pa h.bytes h.cls h.na
      if h.bad then { s2 with poison := addPoison s2.poison h.pa n } else s2

/-- A write of an operation, at once, or held in a deterministic launch (R390). -/
def emitWrite (s : State) (id : Nat) (env : Env) (o : EngineOp) (w : Work) (h : HeldWrite) : State × Work :=
  if env.logs then (s, { w with held := w.held ++ [h] }) else (s.putWrite (.op id) o.team h, w)

/-- Work with status bits added. -/
def Work.report (w : Work) (bits : Nat) : Work := { w with bits := Nat.lor w.bits bits }

/-- An engine's write, poisoned or not; the status bit is reported where the bytes are not written (R222). -/
def engineWrite (s0 : State) (id : Nat) (env : Env) (o : EngineOp) (w : Work) (shm : Bool) (a : Nat) (bs : List Byte) (bad : Bool)
    (c : CacheClass) (na : Bool) : Except Stop (State × Work) :=
  let n := bs.length
  let s := if shm then s0 else s0.fillAccess env.core env.ctx a .write
  if shm then
    .ok (if a + n ≤ env.shm then emitWrite s id env o w ⟨true, false, 0, a, a, bs, bad, c, na⟩ else (s, w.report stShm))
  else match engineAddr s env o a n .write with
  | .error e => .error e
  | .ok none => .ok (s, w.report stXlate)
  | .ok (some p) =>
    if p.fab then
      .ok (if s.lostPeer p.pkg then (s, w.report stXlate) else emitWrite s id env o w ⟨false, true, p.pkg, p.pa, a, bs, bad, c, na⟩)
    else engineWaits s p.pa n <| .ok (emitWrite s id env o w ⟨false, false, 0, p.pa, a, bs, bad, c, na⟩)

/-! ### Tensor copy (R220 to R222) -/

/-- The destination kinds of a copy. -/
inductive CopyTarget where
  | global | shared | l2 | msc
  deriving DecidableEq, Repr

/-- The element size of a copy. -/
def CopyDesc.size (d : CopyDesc) : Nat := 2 ^ bits d.ctl 6 4

/-- The rank of a copy. -/
def CopyDesc.rank (d : CopyDesc) : Nat := bits d.ctl 3 0 + 1

/-- Whether the source lies in shared memory. -/
def CopyDesc.fromShared (d : CopyDesc) : Bool := bit d.ctl 8

/-- The destination kind; a reserved one is reported before it matters. -/
def CopyDesc.target (d : CopyDesc) : CopyTarget :=
  match bits d.ctl 11 9 with
  | 0 => .global
  | 1 => .shared
  | 2 => .l2
  | _ => .msc

/-- Whether the strides apply to the destination. -/
def CopyDesc.scatter (d : CopyDesc) : Bool := bit d.ctl 16

/-- The cache class of a copy. -/
def CopyDesc.cls (d : CopyDesc) : CacheClass :=
  match bits d.ctl 18 17 with
  | 0 => .normal
  | 1 => .evictFirst
  | 2 => .keep
  | _ => .keepHigh

/-- Whether a copy's descriptor is in error (R221, R222). -/
def CopyDesc.bad (d : CopyDesc) : Bool :=
  let e := d.size
  let used := d.strides.take d.rank
  let cacheOnly := d.target == .l2 || d.target == .msc
  bits d.ctl 31 20 != 0 || bits d.ctl 15 12 != 0 || bit d.ctl 7 || decide (4 < bits d.ctl 6 4) || decide (3 < bits d.ctl 11 9)
    || !d.reservedZero || d.src % e != 0 || d.dst % e != 0 || (used.any fun x => x % (e : Int) != 0)
    || (cacheOnly && (d.dst != 0 || d.fromShared || d.scatter))
    || (d.fromShared && decide (2 ^ 32 ≤ d.src)) || (d.target == .shared && decide (2 ^ 32 ≤ d.dst))

/-- The strided displacement of the element of linear index `l` (R220). -/
def stridedAt : List Nat → List Int → Nat → Int
  | e :: es, x :: xs, l => ((l % e : Nat) : Int) * x + stridedAt es xs (l / e)
  | _, _, _ => 0

/-- An address on one side of a copy: a 64-bit virtual address, or a shared offset, where none stands for one below 0. DEDUCED: a global address wraps at 64 bits, and a shared offset is
the exact sum, so that one beyond the window is outside it (R220, R222; log entry 132). -/
def sideAddr (shm : Bool) (base : Nat) (o : Int) : Option Nat :=
  let a := (base : Int) + o
  if shm then (if 0 ≤ a then some a.toNat else none) else some (BitVec.ofInt 64 a).toNat

/-- The pieces of at most 8 bytes of an element, so that poison stays with its word (R222). -/
def pieces (e : Nat) : List (Nat × Nat) := if e ≤ 8 then [(0, e)] else (upto (e / 8)).map fun i => (8 * i, 8)

/-- The no-allocate bit of a copy. -/
def CopyDesc.na (d : CopyDesc) : Bool := bit d.ctl 19

/-- What a copy's reads of global lines do in the caches: through the L2, or with the MSC alone as destination into the MSC (R221). -/
def CopyDesc.touch (d : CopyDesc) (s : State) (line : Nat) : State :=
  if d.target == .msc then s.mscAccess line d.cls d.na false else s.l2Access line d.cls d.na false

/-- Whether the element at an offset lies wholly in the window, so that it moves whole or not at all (R222). -/
def sideOk (env : Env) (shm : Bool) (a : Option Nat) (e : Nat) : Bool :=
  match a with
  | none => false
  | some x => !shm || decide (x + e ≤ env.shm)

/-- The source and the destination of the element of linear index `l` (R220). -/
def CopyDesc.source (d : CopyDesc) (l : Nat) : Option Nat :=
  sideAddr d.fromShared d.src (if d.scatter then ((l * d.size : Nat) : Int) else stridedAt (d.extents.take d.rank) (d.strides.take d.rank) l)

/-- The destination of the element of linear index `l` (R220). -/
def CopyDesc.dest (d : CopyDesc) (l : Nat) : Option Nat :=
  sideAddr (d.target == .shared) d.dst
    (if d.scatter then stridedAt (d.extents.take d.rank) (d.strides.take d.rank) l else ((l * d.size : Nat) : Int))

/-- Why one side of an element of a copy cannot be reached, in the bits of Table 9.5 (R222): 0 where it can. -/
def copySide (s : State) (env : Env) (o : EngineOp) (shm : Bool) (a : Option Nat) (e : Nat) (k : AccessKind) : Except Stop Nat :=
  if shm then .ok (if sideOk env shm a e then 0 else stShm)
  else match a with
  | none => .ok 0
  | some x => (engineAddr s env o x e k).map fun p => if p.isNone then stXlate else 0

/-- The pieces of an element read: the bytes of each and whether they are poisoned, or the bit that says why the element does not move. `tag` names the first among the operation's remote
reads. -/
def copyReads (id : Nat) (env : Env) (o : EngineOp) (d : CopyDesc) (a : Nat) : List (Nat × Nat) → Nat → State →
    Except Stop (State × Except Nat (List (Nat × List Byte × Bool)))
  | [], _, s => .ok (s, .ok [])
  | x :: r, tag, s => match engineRead s id env o d.fromShared (a + x.1) x.2 tag d.touch with
    | .error e => .error e
    | .ok (s1, .outside) => .ok (s1, .error stShm)
    | .ok (s1, .xlate) => .ok (s1, .error stXlate)
    | .ok (s1, .data bs bad) => (copyReads id env o d a r (tag + 1) s1).map fun y => (y.1, y.2.map fun l => (x.1, bs, bad) :: l)

/-- The pieces of an element written. -/
def copyWrites (id : Nat) (env : Env) (o : EngineOp) (d : CopyDesc) (b : Nat) : List (Nat × List Byte × Bool) → State → Work → Except Stop (State × Work)
  | [], s, w => .ok (s, w)
  | (x, bs, bad) :: r, s, w =>
    match engineWrite s id env o (w.report (if bad then stEcc else 0)) (d.target == .shared) (b + x) bs bad d.cls d.na with
    | .error e => .error e
    | .ok (s1, w1) => copyWrites id env o d b r s1 w1

/-- The elements of a copy, in the order of linear indices (R220). -/
def CopyDesc.elements (d : CopyDesc) : List Nat := upto ((d.extents.take d.rank).foldl (· * ·) 1)

/-- Whether the copy writes a byte of the source of its element `l` (R220). -/
def CopyDesc.overlaps (d : CopyDesc) (l : Nat) : Bool :=
  d.fromShared == (d.target == .shared) && d.elements.any fun m => match d.dest m, d.source l with
    | some a, some b => bytesMeet a d.size b d.size
    | _, _ => false

/-- The pieces of element `u / 2` that move with part `u`: the two halves of 16 bytes move each on its own (R322), but together where the copy writes what it reads, so that no
element takes one half from before the copy and one from it (R220). -/
def CopyDesc.moved (d : CopyDesc) (u : Nat) : List (Nat × Nat) :=
  if d.size == 16 && !d.overlaps (u / 2) then [(8 * (u % 2), 8)] else if u % 2 == 0 then pieces d.size else []

/-- One part of a copy: pieces of an element read and then written (R220 to R222). -/
def copyElement (id : Nat) (env : Env) (o : EngineOp) (d : CopyDesc) (u : Nat) (s : State) (w : Work) : Except Stop (State × Work) :=
  let l := u / 2
  let cacheOnly := d.target == .l2 || d.target == .msc
  match copySide s env o d.fromShared (d.source l) d.size .read,
      (if cacheOnly then .ok 0 else copySide s env o (d.target == .shared) (d.dest l) d.size .write) with
  | .error e, _ | _, .error e => .error e
  | .ok x, .ok y =>
    if Nat.lor x y != 0 then .ok (s, w.report (Nat.lor x y))
    else match copyReads id env o d ((d.source l).getD 0) (d.moved u) u s with
    | .error e => .error e
    | .ok (s1, .error b) => .ok (s1, w.report b)
    | .ok (s1, .ok ps) =>
      if cacheOnly then .ok (s1, w.report (if ps.any fun p => p.2.2 then stEcc else 0)) else copyWrites id env o d ((d.dest l).getD 0) ps s1 w

/-- The parts of a copy (R220, R322). -/
def CopyDesc.units (d : CopyDesc) : List Nat := if d.bad then [] else d.elements.flatMap fun l => if d.size == 16 then [2 * l, 2 * l + 1] else [2 * l]

/-- Whether two parts of a copy are of elements that write some byte both, so that the later must prevail (R220). -/
def CopyDesc.collide (d : CopyDesc) (u v : Nat) : Bool :=
  match d.dest (u / 2), d.dest (v / 2) with
  | some a, some b => bytesMeet a d.size b d.size
  | _, _ => false

/-! ### Accumulator elements (R225, R226, R399) -/

/-- The word index of an element of a tile. -/
def Tile.word (t : Tile) (i j : Nat) : Nat := t.base / 4 + i * t.pitch + j

/-- An accumulator word of a team. -/
def Team.accWord (tm : Team) (n : Nat) : Word := tabGet tm.acc n 0

/-- The other half of the 64-bit word of an accumulator word. -/
def pairOf (n : Nat) : Nat := Nat.xor n 1

/-- Whether an accumulator element is poisoned. -/
def Team.accBad (tm : Team) (n : Nat) : Bool := tm.accPoison.contains n

/-- A team with an accumulator element written, poisoned or sound. Poison marks the whole 64-bit word, both its elements (R399). A sound write clears the poison of its element where
`whole` says so: `ACCZ` and `ACCLD` write the whole word (R236). -/
def Team.putAcc (tm : Team) (n : Nat) (v : Word) (bad whole : Bool) : Team :=
  let p := if bad then tm.accPoison.filter (fun i => i != n && i != pairOf n) else if whole then tm.accPoison.filter (· != n) else tm.accPoison
  { tm with acc := tabPut tm.acc 0 n v, accPoison := if bad then n :: pairOf n :: p else p }

/-- The element of a tile by its number, row by row. -/
def Tile.element (t : Tile) (u : Nat) : Nat × Nat := (u / t.n, u % t.n)

/-- The word index of an element by its number. -/
def Tile.wordAt (t : Tile) (u : Nat) : Nat := t.word (t.element u).1 (t.element u).2

/-- The numbers of a tile's elements. -/
def Tile.units (t : Tile) : List Nat := upto (t.m * t.n)

/-- The errors of a tile image that move nothing (R240). -/
def imageError (env : Env) (shm : Bool) (a : Nat) (t : Tile) : Nat :=
  if shm then (if a + t.m * t.n * 4 ≤ env.shm then 0 else stShm) else if a % 4 == 0 then 0 else stDesc

/-- The address of an element of a dense image, by its number. -/
def imageAddr (shm : Bool) (a u : Nat) : Nat := if shm then a + u * 4 else (a + u * 4) % 2 ^ 64

/-- One element of an `ACCLD` (R240). -/
def accldUnit (id : Nat) (env : Env) (o : EngineOp) (shm : Bool) (a : Nat) (t : Tile) (u : Nat) (s : State) (w : Work) : Except Stop (State × Work) :=
  match engineRead s id env o shm (imageAddr shm a u) 4 u (throughL2 .normal false) with
  | .error x => .error x
  | .ok (s1, .outside) => .ok (s1, w.report stShm)
  | .ok (s1, .xlate) => .ok (s1, w.report stXlate)
  | .ok (s1, .data bs bad) =>
    .ok (s1.updateTeam o.team fun tm => tm.putAcc (t.wordAt u) (BitVec.ofNat 32 (natOfBytes bs)) bad true, w.report (if bad then stEcc else 0))

/-- One element of an `ACCST` to memory (R240). -/
def accstUnit (id : Nat) (env : Env) (o : EngineOp) (shm : Bool) (a : Nat) (t : Tile) (u : Nat) (s : State) (w : Work) : Except Stop (State × Work) :=
  match tabFind s.teams o.team with
  | none => .ok (s, w)
  | some tm =>
    let bad := tm.accBad (t.wordAt u)
    engineWrite s id env o (w.report (if bad then stEcc else 0)) shm (imageAddr shm a u) (leBytes 4 (tm.accWord (t.wordAt u)).toNat) bad .normal false

/-- One lane's registers written by an operation; no latch is cleared (R231, R26). -/
def writeRow (s : State) (k l : Nat) (names : List Nat) (vals : List Word) : State :=
  match tabFind s.warps k with
  | none => s
  | some w => s.putWarp k (w.setLane l ((names.zip vals).foldl (fun x e => x.put e.1 e.2) (w.lane l)))

/-- One row of a tile handed to a lane's registers as `f` computes them from its words; a poisoned element aborts the launch (R163, R241). -/
def rowUnit (o : EngineOp) (t : Tile) (row l : Nat) (f : List Word → List Word) (s : State) (w : Work) : Except Stop (State × Work) :=
  match tabFind s.teams o.team with
  | none => .ok (s, w)
  | some tm =>
    stopIf ((upto t.n).any fun j => tm.accBad (t.word row j)) (.abort 0x11 0) <|
    .ok (writeRow s o.warp l (nth o.names l []) (f ((upto t.n).map fun j => tm.accWord (t.word row j))), w)

/-- The lanes that an operation writes. -/
def EngineOp.lanes (o : EngineOp) : List Nat := (upto o.names.length).filter fun l => !(nth o.names l []).isEmpty

/-! ### Row statistics (R64, R241) -/

/-- A list cut into groups of `n`; `fuel` bounds their number. -/
def groupsOf {α : Type} (n : Nat) : Nat → List α → List (List α)
  | 0, _ => []
  | _, [] => []
  | fuel + 1, l => l.take n :: groupsOf n fuel (l.drop n)

/-- The f32 value of an accumulator word: an i32 element is converted with RNE (R64). -/
def accValue (isF32 : Bool) (v : Word) : FNum :=
  if isF32 then Fmt.f32.decode v.toNat else rneF32 (.fin (decide (v.toInt < 0)) v.toInt.natAbs 0)

/-- RNE addition in f32. -/
def addF32 (a b : FNum) : FNum := rneF32 (a.add false b).1

/-- A fold from a list's first element. -/
def foldFirst (f : FNum → FNum → FNum) : List FNum → FNum
  | [] => .fin false 0 0
  | x :: r => r.foldl f x

/-- Maximum with the NaN rule of R57. -/
def maxNan (a b : FNum) : FNum := if a.isNan || b.isNan then .nan false else if a.maxIsLeft b then a else b

/-- The maximum, sum and sum of squares of a row (R64). -/
def rowStats (xs : List FNum) : List Word :=
  let gs := groupsOf 32 xs.length xs
  let squares (g : List FNum) : FNum := match g with
    | [] => .fin false 0 0
    | x :: r => r.foldl (fun acc y => addF32 acc (y.mul y).1) (rneF32 (x.mul x).1)
  let code (v : FNum) : Word := BitVec.ofNat 32 (Fmt.f32.deliver .rne false false v).1
  [code (foldFirst maxNan xs), code (foldFirst addF32 (gs.map (foldFirst addF32))), code (foldFirst addF32 (gs.map squares))]

/-! ### Matrix multiply (R61, R65, R66, R234 to R237) -/

/-- The element type of a format code. -/
def OperandFormat.elem (f : OperandFormat) : ElemType := (elemType? f.fmt).getD .i32

/-- Whether an operand's format is a floating-point one of R234. -/
def OperandFormat.isFloat (f : OperandFormat) : Bool := [5, 6, 9, 10, 11, 12, 13, 14, 15].contains f.fmt

/-- Whether an operand's format is an integer one of R234. -/
def OperandFormat.isInt (f : OperandFormat) : Bool := [7, 8, 16].contains f.fmt

/-- A block length. -/
def OperandFormat.block (f : OperandFormat) : Nat := match f.blk with
  | 1 => 16
  | 2 => 32
  | _ => 64

/-- Whether one operand's half of a format block is in error (Table 10.4). -/
def OperandFormat.bad (f : OperandFormat) : Bool :=
  !(f.isFloat || f.isInt) || f.reserved != 0 || f.reserved2 != 0 || decide (3 < f.blk) || decide (1 < f.scf) || f.ld % 4 != 0
    || (f.blk == 0 && (f.scf != 0 || f.scale != 0)) || (f.blk != 0 && f.isInt)

/-- The FMT condition of Table 10.4. -/
def formatBad (gather : Bool) (t : Tile) (f : FormatBlock) : Bool :=
  let size (n : Nat) : Bool := n == 64 || n == 128 || n == 256
  f.a.bad || f.b.bad || f.a.isFloat != f.b.isFloat || t.isF32 != f.a.isFloat
    || decide (f.k < 64) || decide (65536 < f.k) || f.k % 64 != 0 || (f.plen != 0 && f.plen != f.k) || f.perm % 2 != 0
    || f.gidx % 2 != 0 || (!gather && (f.gidx != 0 || f.grows != 0)) || (gather && (f.grows == 0 || decide (65535 < f.grows)))
    || decide (1 < f.flags) || f.reserved != 0 || !size t.m || !size t.n

/-- The bytes of a stored row of `k` elements (R235). -/
def rowBytes (e : ElemType) (k : Nat) : Nat := (k + e.count - 1) / e.count * 4

/-- The spans of shared memory that one operand's rows and scales occupy (Table 10.4). -/
def operandSpans (f : OperandFormat) (base rows k : Nat) : List (Nat × Nat) :=
  (base, (rows - 1) * f.ld + rowBytes f.elem k) :: (if f.blk == 0 then [] else [(f.scale, rows * (k / f.block))])

/-! Operand data are read part by part: a word or a scale byte at an offset of shared memory, an entry of the permutation table, or one of the gather vector. -/

/-- The key of the operand word at an offset. -/
def wordKey (off : Nat) : Nat := 4 * off
/-- The key of the scale byte at an offset. -/
def scaleKey (off : Nat) : Nat := 4 * off + 1
/-- The key of an entry of the permutation table. -/
def permKey (i : Nat) : Nat := 4 * i + 2
/-- The key of an entry of the gather vector. -/
def gatherKey (i : Nat) : Nat := 4 * i + 3

/-- The offset and size of the data that a key names. -/
def FormatBlock.place (f : FormatBlock) (key : Nat) : Nat × Nat :=
  match key % 4 with
  | 0 => (key / 4, 4)
  | 1 => (key / 4, 1)
  | 2 => (f.perm + 2 * (key / 4), 2)
  | _ => (f.gidx + 2 * (key / 4), 2)

/-- Data of an operand read (R230, R341). -/
def mmaRead (o : EngineOp) (f : FormatBlock) (key : Nat) (s : State) (w : Work) : Work :=
  let (off, n) := f.place key
  { w with
    got := tabSet w.got key (natOfBytes (s.shmBytes o.team off n))
    bad := if s.shmPoisoned o.team off n then key :: w.bad else w.bad }

/-- Whether the data that a key names lie in the window. -/
def FormatBlock.within (f : FormatBlock) (env : Env) (key : Nat) : Bool := decide ((f.place key).1 + (f.place key).2 ≤ env.shm)

/-- The entries of the permutation table and the gather vector that lie in the window. -/
def tableKeys (env : Env) (gather : Bool) (x : Tile) (f : FormatBlock) : List Nat :=
  ((if f.plen == 0 then [] else (upto f.k).map permKey) ++ (if gather then (upto x.m).map gatherKey else [])).filter (f.within env)

/-- The bits of Table 10.4 that a well-formed operation reports, from the table entries read (R237). -/
def operandErrors (env : Env) (gather : Bool) (x : Tile) (a b : Nat) (f : FormatBlock) (w : Work) : Nat :=
  let rows := if gather then f.grows else x.m
  let spans := operandSpans f.a a rows f.k ++ operandSpans f.b b x.n f.k
    ++ (if f.plen == 0 then [] else [(f.perm, 2 * f.k)]) ++ (if gather then [(f.gidx, 2 * x.m)] else [])
  let shm := decide (2 ^ 32 ≤ a) || decide (2 ^ 32 ≤ b) || spans.any fun p => !decide (p.1 + p.2 ≤ env.shm)
  let above (r bound : Nat) : Bool := w.got.any fun e => e.1 % 4 == r && decide (bound ≤ e.2)
  (if shm then stShm else 0) + (if above 2 f.k then stPerm else 0) + (if above 3 f.grows then stGather else 0)

/-- The columns and rows that a multiplication reads, from its table entries. -/
def Work.col (w : Work) (f : FormatBlock) (k : Nat) : Nat := if f.plen == 0 then k else tabGet w.got (permKey k) 0
/-- The row of A's source that row `i` of the tile reads. -/
def Work.row (w : Work) (gather : Bool) (i : Nat) : Nat := if gather then tabGet w.got (gatherKey i) 0 else i

/-- The keys of the words of a stored row that some columns lie in, and of the row's scales (R235). -/
def OperandFormat.rowKeys (f : OperandFormat) (base r k : Nat) (cols : List Nat) : List Nat :=
  dedup (cols.map fun c => wordKey (base + r * f.ld + c / f.elem.count * 4))
    ++ (if f.blk == 0 then [] else (upto (k / f.block)).map fun b => scaleKey (f.scale + r * (k / f.block) + b))

/-- The keys of the operand data that a multiplication reads. -/
def operandKeys (gather : Bool) (x : Tile) (a b : Nat) (f : FormatBlock) (w : Work) : List Nat :=
  let cols := (upto f.k).map (w.col f)
  dedup ((dedup ((upto x.m).map (w.row gather))).flatMap (fun r => f.a.rowKeys a r f.k cols) ++ (upto x.n).flatMap fun j => f.b.rowKeys b j f.k cols)

/-- The code of element `c` of a stored row (R235). -/
def rowElem (w : Work) (e : ElemType) (row c : Nat) : Nat :=
  tabGet w.got (wordKey (row + c / e.count * 4)) 0 / 2 ^ (e.width * (c % e.count)) % 2 ^ e.width

/-- A floating-point element times its block's scale, at position `pos` reading column `c` of stored row `r` (R65, R235). -/
def scaledElem (w : Work) (f : OperandFormat) (base r k pos c : Nat) : FNum :=
  let x := match f.elem.fmt? with
    | some m => m.decode (rowElem w f.elem (base + r * f.ld) c)
    | none => .nan false
  if f.blk == 0 then x
  else
    let v := tabGet w.got (scaleKey (f.scale + r * (k / f.block) + pos / f.block)) 0
    (x.mul (if f.scf == 0 then decodeE8M0 v else Fmt.e4m3.decode v)).1

/-- An integer element. -/
def operandInt (w : Work) (f : OperandFormat) (base r c : Nat) : Int :=
  toIntBy f.elem.isSigned (BitVec.ofNat f.elem.width (rowElem w f.elem (base + r * f.ld) c))

/-- One accumulator element's new value (R236). -/
def mmaElem (w : Work) (x : Tile) (a b : Nat) (f : FormatBlock) (sat : Bool) (row j : Nat) (old : Word) : Word :=
  let group (g : Nat) : List Nat := (upto 32).map (32 * g + ·)
  if x.isF32 then
    let acc := (upto (f.k / 32)).foldl (fun acc g =>
      let sum := (group g).foldl (fun v k =>
        (v.add false ((scaledElem w f.a a row f.k k (w.col f k)).mul (scaledElem w f.b b j f.k k (w.col f k))).1).1) (FNum.fin false 0 0)
      addF32 acc sum) (Fmt.f32.decode old.toNat)
    BitVec.ofNat 32 (Fmt.f32.deliver .rne false false acc).1
  else
    (upto (f.k / 32)).foldl (fun (acc : Word) g =>
      let sum := (group g).foldl (fun v k => v + operandInt w f.a a row (w.col f k) * operandInt w f.b b j (w.col f k)) (0 : Int)
      BitVec.ofNat 32 (fitInt true 32 sat (acc.toInt + sum))) old

/-- Whether poisoned data feed element (i, j): a table entry, a word of a column read or a scale (R237). -/
def elemPoisoned (w : Work) (gather : Bool) (a b : Nat) (f : FormatBlock) (i j : Nat) : Bool :=
  let cols := (upto f.k).map (w.col f)
  let keys := (if f.plen == 0 then [] else (upto f.k).map permKey) ++ (if gather then [gatherKey i] else [])
    ++ f.a.rowKeys a (w.row gather i) f.k cols ++ f.b.rowKeys b j f.k cols
  keys.any w.bad.contains

/-- One element of an `MMA` or `MMAG` (R236, R237). -/
def mmaUnit (o : EngineOp) (gather : Bool) (x : Tile) (a b : Nat) (f : FormatBlock) (sat : Bool) (u : Nat) (s : State) (w : Work) : State :=
  let (i, j) := x.element u
  s.updateTeam o.team fun tm =>
    tm.putAcc (x.wordAt u) (mmaElem w x a b f sat (w.row gather i) j (tm.accWord (x.wordAt u)))
      (tm.accBad (x.wordAt u) || (!w.bad.isEmpty && elemPoisoned w gather a b f i j)) false

/-! ### The activation table (R242, R243) -/

/-- RNE(256 / x) of a positive finite value, as an f32 code. -/
def scaleCode (v : FNum) : Nat :=
  match v with
  | .fin n m e =>
    if m == 0 then Fmt.f32.infCode
    else
      let k := 192 + Nat.log2 m
      (Fmt.f32.round .rne false false ⟨n, 2 ^ k / m, 8 - e - (k : Int), 2 ^ k % m != 0⟩).1
  | _ => Fmt.f32.nanCode

/-- Whether a value is finite. -/
def FNum.isFinite : FNum → Bool
  | .fin _ _ _ => true
  | _ => false

/-- A bank from an image, with the FMT condition of R243. -/
def bankOf (bs : List Byte) : ActBank × Bool :=
  let w (o : Nat) : Word := BitVec.ofNat 32 (fieldAt bs o 4)
  let lo := Fmt.f32.decode (fieldAt bs 0 4)
  let hi := Fmt.f32.decode (fieldAt bs 4 4)
  let scale := scaleCode (hi.add false lo.neg).1
  (⟨w 0, w 4, BitVec.ofNat 32 scale, (upto 256).map fun i => (w (0x10 + 12 * i), w (0x14 + 12 * i), w (0x18 + 12 * i))⟩,
    !lo.isFinite || !hi.isFinite || lo.cmp hi != .lt || !(Fmt.f32.decode scale).isFinite)

/-- The 4-byte words of an activation image, each of which is read by itself (Table 16.1). -/
def imageWords : Nat := 772

/-- One word of an activation image read (R243). -/
def actldUnit (id : Nat) (env : Env) (o : EngineOp) (shm : Bool) (a u : Nat) (s : State) (w : Work) : Except Stop (State × Work) :=
  match engineRead s id env o shm (if shm then a + 4 * u else (a + 4 * u) % 2 ^ 64) 4 u (throughL2 .normal false) with
  | .error x => .error x
  | .ok (s1, .outside) => .ok (s1, w.report stShm)
  | .ok (s1, .xlate) => .ok (s1, w.report stXlate)
  | .ok (s1, .data bs bad) => .ok (s1, { w.report (if bad then stEcc else 0) with got := tabSet w.got u (natOfBytes bs) })

/-- A bank published (R243). -/
def Team.publish (tm : Team) (b : ActBank) : Team :=
  let i := if tm.active == some 0 then 1 else 0
  let old (j : Nat) : ActBank := nth tm.banks j ⟨0, 0, 0, []⟩
  { tm with banks := (upto 2).map fun j => if j == i then b else old j, active := some i, version := tm.version + 1 }

/-- The bank of an activation image that has been read, and the bits that its load reports (R243). -/
def actldResult (a : Nat) (w : Work) : ActBank × Nat :=
  let bs := (upto imageWords).flatMap fun i => leBytes 4 (tabGet w.got i 0)
  let (b, fmt) := bankOf bs
  (b, if a % 16 != 0 then stDesc
    else if Nat.land w.bits (stShm + stXlate) != 0 then Nat.land w.bits (stShm + stXlate)
    else (if zeroAt bs 8 8 then 0 else stDesc) + (if fmt then stFmt else 0) + w.bits)

/-! ### Operations part by part (R223, R230 to R232) -/

/-- The last stage of an operation. -/
def lastStage : Nat := 2

/-- The parts of a stage of an operation, from what it has read before: `MMA` and `MMAG` read their tables, then their operands, and then write the elements. -/
def EngineOp.units (env : Env) (o : EngineOp) (w : Work) (stage : Nat) : List Nat :=
  match o.kind, stage with
  | .copy d, 0 => d.units
  | .mma g t _ _ f _, 0 => if formatBad g t f then [] else tableKeys env g t f
  | .mma g t a b f _, 1 => if formatBad g t f || operandErrors env g t a b f w != 0 then [] else operandKeys g t a b f w
  | .mma g t a b f _, 2 => if formatBad g t f || operandErrors env g t a b f w != 0 then [] else t.units
  | .accz t, 0 => t.units
  | .accld shm a t, 0 => if imageError env shm a t != 0 then [] else t.units
  | .accst shm a t, 0 => if imageError env shm a t != 0 then [] else t.units
  | .accstR _ _, 0 => o.lanes
  | .rstat _ _ _, 0 => o.lanes
  | .actld _ a, 0 => if a % 16 != 0 then [] else upto imageWords
  | _, _ => []

/-- One part of an operation done. -/
def doUnit (id : Nat) (env : Env) (o : EngineOp) (u : Nat) (s : State) (w : Work) : Except Stop (State × Work) :=
  match o.kind with
  | .copy d => copyElement id env o d u s w
  | .mma g t a b f sat => .ok (if w.stage == lastStage then (mmaUnit o g t a b f sat u s w, w) else (s, mmaRead o f u s w))
  | .accz t => .ok (s.updateTeam o.team fun tm => tm.putAcc (t.wordAt u) 0 false true, w)
  | .accld shm a t => accldUnit id env o shm a t u s w
  | .accst shm a t => accstUnit id env o shm a t u s w
  | .accstR _ t => rowUnit o t u u (fun r => r) s w
  | .rstat _ row t => rowUnit o t (row + u) u (fun r => rowStats (r.map (accValue t.isF32))) s w
  | .actld shm a => actldUnit id env o shm a u s w
  | .failed _ => .ok (s, w)

/-- The status bits that an operation reports. -/
def EngineOp.result (env : Env) (o : EngineOp) (w : Work) : Nat :=
  match o.kind with
  | .copy d => if d.bad then stDesc else w.bits
  | .mma g t a b f _ => if formatBad g t f then stFmt else operandErrors env g t a b f w + (if w.bad.isEmpty then 0 else stEcc)
  | .accld shm a t | .accst shm a t => if imageError env shm a t != 0 then imageError env shm a t else w.bits
  | .actld _ a => (actldResult a w).2
  | .failed b => b
  | _ => 0

/-- An operation as it begins. -/
def EngineOp.begin (env : Env) (o : EngineOp) : Work :=
  o.work.getD ⟨0, o.units env ⟨0, [], 0, [], [], []⟩ 0, 0, [], [], []⟩

/-- Work at its next stage. -/
def EngineOp.nextStage (env : Env) (o : EngineOp) (w : Work) : Work := { w with stage := w.stage + 1, todo := o.units env w (w.stage + 1) }

/-- Some parts of a stage done one after another, up to one that must wait or stops the launch. -/
def runUnits (id : Nat) (env : Env) (o : EngineOp) : List Nat → State → Work → State × Work × Option Stop
  | [], s, w => (s, { w with todo := [] }, none)
  | u :: r, s, w => match doUnit id env o u s w with
    | .ok (s1, w1) => runUnits id env o r s1 w1
    | .error e => (s, { w with todo := u :: r }, some e)

/-- The rest of an operation; `n` bounds its stages. -/
def runStages (id : Nat) (env : Env) (o : EngineOp) : Nat → State → Work → State × Work × Option Stop
  | 0, s, w => (s, w, none)
  | n + 1, s, w => match runUnits id env o w.todo s w with
    | (s1, w1, none) => if lastStage ≤ w1.stage then (s1, w1, none) else runStages id env o n s1 (o.nextStage env w1)
    | r => r

/-- What is left of an operation, done: the state and the work, and why it has to wait or stops the launch. -/
def runOp (id : Nat) (env : Env) (o : EngineOp) (s : State) : State × Work × Option Stop := runStages id env o (lastStage + 1) s (o.begin env)

/-- The part of an operation that comes next by a free choice. The elements of a copy that write the same bytes keep their order (R220). -/
def EngineOp.choose (o : EngineOp) (w : Work) (n : Nat) : Nat :=
  let u := nth w.todo (n % w.todo.length) 0
  match o.kind with
  | .copy d => if w.todo.any fun v => decide (v / 2 < u / 2) && d.collide v u then nth w.todo 0 0 else u
  | _ => u

/-- The tile that an operation works on. -/
def OpKind.tile : OpKind → Option Tile
  | .mma _ t _ _ _ _ | .accz t | .accld _ _ t | .accst _ _ t | .accstR _ t | .rstat _ _ t => some t
  | _ => none

/-- Whether two footprints overlap (R226, R229). -/
def Tile.meets (t u : Tile) : Bool := decide (t.base < u.base + u.extent) && decide (u.base < t.base + t.extent)

/-- Whether an operation must wait for an earlier one of its queue: one whose footprint or registers overlap its own, or, for `ACTLD`,
any of its team (R229, R243). -/
def mustFollow (o e : EngineOp) : Bool :=
  e.team == o.team && match o.kind, e.kind with
    | .actld _ _, .actld _ _ => true
    | a, b => (match a.tile, b.tile with
      | some t, some u => t.meets u
      | _, _ => false)
      || (e.warp == o.warp && (upto o.names.length).any fun l => (nth o.names l []).any fun r => (nth e.names l []).contains r)

/-- Whether an operation may run: it is in its queue, no earlier operation that it must follow is, and, before it begins, every store of its warp has been performed (R206). -/
def State.opReady (s : State) (id : Nat) (o : EngineOp) : Bool :=
  o.issued.isSome && ((s.core o.core).opQueue o.kind.queue).contains id
    && (((s.core o.core).opQueue o.kind.queue).takeWhile (· != id)).all (fun n => match tabFind s.ops n with
      | some e => !mustFollow o e
      | none => true)
    && (o.work.isSome || (s.unperformed o.core o.warp).isEmpty)

/-- The warp's status accumulator and batches after one of its operations completed with some bits (R208, R210). -/
def Warp.opDone (w : Warp) (id bits : Nat) : Warp :=
  { w with
    statusAcc := addStatus w.statusAcc bits
    batches := pruneBatches false (w.batches.map fun b => { b with ops := b.ops.filter (· != id) }) }

/-- An operation completed with some status bits: it leaves its queue, its warp's accumulator takes the bits, and it arrives on its
barrier object; an object offset that fails R217 adds SHMRANGE and no arrival is made. -/
def State.finishOp (s : State) (id : Nat) (env : Env) (o : EngineOp) (errors : Nat) : State :=
  let barOk (b : Nat) : Bool := b % 16 == 0 && decide (b + 16 ≤ env.shm)
  let all := match o.bar with
    | some b => if barOk b then errors else Nat.lor errors stShm
    | none => errors
  let c := s.core o.core
  let q := o.kind.queue
  let s1 : State := { s with
    ops := tabDel s.ops id
    cores := tabSet s.cores o.core (c.setOpQueue ((c.opQueue q).filter (· != id)) q)
    answers := s.answers.filter fun a => a.who != .op id
    warps := s.warps.map fun e => if e.1 == o.warp then (e.1, e.2.opDone id all) else e }
  match o.bar with
  | some b => if barOk b then s1.arrive o.team b 1 errors else s1
  | none => s1

/-- An operation with its progress kept. -/
def State.keepWork (s : State) (id : Nat) (w : Work) : State :=
  match tabFind s.ops id with
  | some o => { s with ops := tabSet s.ops id { o with work := some w } }
  | none => s

/-- Whether remote writes of an operation have not been performed. -/
def State.opOutstanding (s : State) (id : Nat) : Bool := s.peers.any fun e => e.2.outstanding.any fun r => r.who == .op id

/-- The bank of an activation load published at its completion (R243). -/
def State.publishOp (s : State) (o : EngineOp) (w : Work) : State :=
  match o.kind with
  | .actld _ a => if (actldResult a w).2 == 0 then s.updateTeam o.team fun tm => tm.publish (actldResult a w).1 else s
  | _ => s

/-- An operation that waits for a translation or a peer, or aborts its launch (R163, R222). -/
def State.haltOp (s : State) (id : Nat) (w : Warp) : Stop → State
  | .translation _ va k => match tabFind s.ops id with
    | some o => { s with ops := tabSet s.ops id { o with fault := some (va, k, false) } }
    | none => s
  | .remote tag pkg op va =>
    if (s.peer pkg).outstanding.any fun r => r.who == .op id && r.tag == tag && r.op == op then s else s.request pkg op (.op id) tag va
  | .abort cause addr => s.abortLaunch w cause false false false w.pc addr w.active
  | _ => s

/-- Whether an operation belongs to a deterministic launch, whose writes are held for a meeting (R390). -/
def State.opDeterministic (s : State) (o : EngineOp) : Bool :=
  match (tabFind s.warps o.warp).bind s.launchOf with
  | some x => x.quantum != 0
  | none => false

/-- An operation whose parts are all done: it completes once its remote writes have been performed; in a deterministic launch it leaves its queue and waits for a
meeting (R390). -/
def State.endOp (s : State) (id : Nat) (env : Env) (o : EngineOp) (w : Work) : State :=
  if s.opDeterministic o then
    let c := s.core o.core
    let q := o.kind.queue
    { s with
      ops := tabSet s.ops id { o with done := true, work := some w }
      cores := tabSet s.cores o.core (c.setOpQueue ((c.opQueue q).filter (· != id)) q) }
  else if s.opOutstanding id then s.keepWork id w
  else (s.publishOp o w).finishOp id env o (o.result env w)

/-- An operation run to its completion, as far as it comes. -/
def State.performOp (s : State) (id : Nat) (o : EngineOp) : State :=
  match tabFind s.warps o.warp with
  | none => s
  | some w => match s.env? w with
    | none => s
    | some env => match runOp id env o s with
      | (s1, x, none) => s1.endOp id env o x
      | (s1, x, some e) => (s1.keepWork id x).haltOp id w e

/-- One part of an operation done, by a free choice among those of its stage, or its next stage begun. -/
def State.stepOp (s : State) (id n : Nat) : State :=
  match tabFind s.ops id with
  | none => s
  | some o =>
    if !s.opReady id o || o.fault.isSome || o.done then s
    else match tabFind s.warps o.warp with
    | none => s
    | some w => match s.env? w with
      | none => s
      | some env =>
        let x := o.begin env
        if x.todo.isEmpty then (if lastStage ≤ x.stage then s else s.keepWork id (o.nextStage env x))
        else
          let u := o.choose x n
          match doUnit id env o u s x with
          | .ok (s1, x1) => s1.keepWork id { x1 with todo := x.todo.filter (· != u) }
          | .error e => (s.keepWork id x).haltOp id w e

/-- A finished operation of a deterministic launch at a meeting: its held writes are performed, and it completes once those to other packages have been (R390); one to a lost peer is
reported as XLATE (R421). -/
def State.meetOp (s : State) (id : Nat) (o : EngineOp) : State :=
  match tabFind s.warps o.warp with
  | none => s
  | some w => match s.env? w with
    | none => s
    | some env =>
      let x0 := o.begin env
      let lost (h : HeldWrite) : Bool := h.fab && s.lostPeer h.pkg
      let x := if x0.held.any lost then x0.report stXlate else x0
      let s1 := ((x.held.filter fun h => !lost h).foldl (fun s h => s.putWrite (.op id) o.team h) s).keepWork id { x with held := [] }
      if s1.opOutstanding id then s1 else (s1.publishOp o x).finishOp id env o (o.result env x)

/-- An engine operation finishes (R208): its effects come about at once, or in a deterministic launch at the next meeting. -/
def State.completeOp (s : State) (act : Bool) (id : Nat) : State :=
  match tabFind s.ops id with
  | none => s
  | some o => if (o.kind.queue == .act) != act || !s.opReady id o || o.fault.isSome || o.done then s else s.performOp id o

/-- `ASYNC_OPERATION_COMPLETE` (R208). An engine operation finishes its writes, ORs its status and arrives on its barrier object. -/
def execAsyncOperationComplete (op : Nat) (s : State) : Host.Outcome State Fault Refusal := .next (s.completeOp false op)

/-- `ACTLD_COMPLETE` (R243). An ACTLD writes its image into the inactive bank and publishes it under a new version. -/
def execActldComplete (op : Nat) (s : State) : Host.Outcome State Fault Refusal := .next (s.completeOp true op)

/-! ### Waits for operations end (R209, R216, R224) -/

/-- Whether a warp waits outside a deterministic launch, where waits end at meetings. -/
def State.mayReturn (s : State) (w : Warp) : Bool := ((s.launchOf w).map fun x => x.quantum == 0).getD false

/-- A warp whose wait has ended: it goes on after its instruction's `len` bytes. -/
def State.resumeAfter (s : State) (k : Nat) (w : Warp) (len : Nat) : State :=
  s.putWarp k ({ w with status := .ready }.finish (.after len))

/-- A warp's event: what `f` does where the warp exists. -/
def State.onWarp (s : State) (k : Nat) (f : Warp → State) : Host.Outcome State Fault Refusal :=
  .next (match tabFind s.warps k with
    | some w => f w
    | none => s)

/-- `AWAIT_RETURN` (R209). A waiting AWAIT returns the status accumulator once its batches have completed. -/
def execAwaitReturn (k : Nat) (s : State) : Host.Outcome State Fault Refusal :=
  s.onWarp k fun w => match w.status with
    | .waiting (.await d n) =>
      if s.mayReturn w && w.batchesDone (BitVec.ofNat 16 n) then s.resumeAfter k (w.awaited d) 4 else s
    | _ => s

/-- `BWAIT_RETURN` (R216). A waiting BWAIT returns STATUS once the object's phase differs from q. -/
def execBwaitReturn (k : Nat) (s : State) : Host.Outcome State Fault Refusal :=
  s.onWarp k fun w => match w.status with
    | .waiting (.bwait d off q) =>
      if s.mayReturn w && s.phaseReached w.team off q then s.resumeAfter k (w.phaseSeen s d off) 4 else s
    | _ => s

/-- The resumption of a `TCOPY.Y` whose batch has completed: a marker wait, then the continuation (R224). -/
def Warp.continueAt (w : Warp) (pc : DWord) : Warp := { ({ w.drain with status := .ready }.finish (.jump pc)) with marker := false }

/-- `TCOPY_Y_RESUME` (R224). A warp waiting in TCOPY.Y resumes at its continuation once the copy's batch completes. -/
def execTcopyYResume (k : Nat) (s : State) : Host.Outcome State Fault Refusal :=
  s.onWarp k fun w => match w.status with
    | .waiting (.tcopyY n pc) =>
      if s.mayReturn w && !(w.batches.any fun b => b.number == BitVec.ofNat 16 n) then s.putWarp k (w.continueAt pc) else s
    | _ => s

end Sys2Proof.Machine
end

