-- ==== Sys2Proof/Machine/Coll.lean ====
section
/-! DEFINITION. LAUNCH, which appends child grids, and COLL with the collective that it starts (R369, R370, R417 to R420). -/

namespace Sys2Proof.Machine

/-! ### LAUNCH (R369) -/

/-- The pending grids that the package holds (R370). -/
def maxChildren : Nat := 8192

/-- The packet address of a lane. -/
def Warp.packetAddr (w : Warp) (x l : Nat) : DWord := BitVec.ofNat 64 (w.val .i64 l x)

/-- A lane's fault at its packet address, by the pseudocode of R369. -/
def packetFault (env : Env) (a : DWord) : Option Nat :=
  if a.toNat % 64 != 0 then some 0x08
  else if placeOf env a.toNat 64 != .global then some 0x09
  else none

/-- A lane's packet read, 64 bytes (R369). -/
def readPacket (s : State) (k l : Nat) (env : Env) (w : Warp) (i : Instr) (a : DWord) : Except Stop (State × List Byte) :=
  match resolveGlobal s env Lane.start a.toNat .read with
  | .ok (.global va p) =>
    stopIf (!p.fab && (sectorsOf p.pa 64).any fun x => (s.lockFor k (x * 32)).isSome) (.wait (.retry i)) <|
    stopIf (s.physPoison p 64) (.abort 0x11 a) <|
    (s.coreLoad env.core k l env.ctx va p 64 .normal false).map fun r => (r.1, w.overlay (physKey p) r.2)
  | .ok _ => .error (.charged 0x09 a)
  | .error e => .error e

/-- The child grids pending in the package: those appended, and those that warps of deterministic launches hold for their commits (R370). -/
def State.pendingChildren (s : State) : Nat := s.warps.foldl (fun n e => n + e.2.detChildren.length) s.children.length

/-- `LAUNCH` (R369): the children are appended at once, or held for the meeting in a deterministic launch (R391). It is a release at device scope, so it waits for the warp's
stores and pushes (R343); where it is held, the log commits before it. -/
def launchGrids (x : Nat) (s : State) (k : Nat) (env : Env) (w : Warp) : Except Stop (State × Warp) :=
  let i := Instr.launch x
  let ls := lanesOf w.width w.executing
  stopIf w.anyTx (w.trap 0x03) <|
  w.rangeCheck env [x, x + 1] <|
  stopIf (!ls.isEmpty && env.depth == 10) (w.trap 0x13) <|
  let w1 := ls.foldl (fun w' l => match packetFault env (w.packetAddr x l) with
    | some c => w'.faultLane l c (w.packetAddr x l)
    | none => w') w
  let good := ls.filter fun l => (packetFault env (w.packetAddr x l)).isNone
  stopIf (decide (maxChildren < s.pendingChildren + good.length)) (.wait (.retry i)) <|
  s.released k w (!good.isEmpty && !env.logs) .device <|
  (foldE (fun (r : State × List (List Byte)) l =>
      (readPacket r.1 k l env w i (w.packetAddr x l)).map fun q => (q.1, r.2 ++ [q.2])) (s, []) good).map fun r =>
    let queue := ((s.launchOf w).map (·.queue)).getD 0
    let new := r.2.map fun p => (⟨p, s.launchKey w, env.depth + 1, queue, env.ctx⟩ : Child)
    if good.isEmpty then (s, w1)
    else if env.logs then (r.1, { w1 with detChildren := w1.detChildren ++ new }.taint)
    else ({ r.1 with children := r.1.children ++ new }, w1.taint)

/-- `LAUNCH` (R369). Appends a child grid per executing lane from a 64-byte packet address. -/
def execLaunch (x : Nat) (s : State) : Host.Outcome State Fault Refusal := s.issueMem (launchGrids x)

/-! ### Collective descriptors (R417, R418) -/

/-- A collective descriptor from its 128 bytes (Table 20.5). -/
def CollDesc.ofBytes (bs : List Byte) : CollDesc where
  op := fieldAt bs 0 1
  red := fieldAt bs 1 1
  typ := fieldAt bs 2 1
  root := fieldAt bs 3 1
  tag := fieldAt bs 4 4
  members := BitVec.ofNat 64 (fieldAt bs 8 8)
  count := fieldAt bs 0x10 8
  src := fieldAt bs 0x18 8
  dst := fieldAt bs 0x20 8
  ctl := fieldAt bs 0x28 4
  reservedZero := zeroAt bs 0x2C 0x54

/-- The element type of a descriptor. -/
def CollDesc.elem (d : CollDesc) : ElemType := (elemType? d.typ).getD .i32

/-- The element size (R418). -/
def CollDesc.size (d : CollDesc) : Nat := ElemType.width d.elem / 8

/-- The members in ascending order. -/
def CollDesc.ids (d : CollDesc) : List Nat := (upto 64).filter fun i => d.members.getLsbD i

/-- The rank of a member (R418). -/
def CollDesc.rank (d : CollDesc) (m : Nat) : Nat := (d.ids.filter fun i => decide (i < m)).length

/-- The elements of a member's SRC and of its DST (R418). -/
def CollDesc.srcCount (d : CollDesc) (me : Nat) : Nat :=
  match d.op with
  | 3 => d.ids.length * d.count
  | 4 => if me == d.root then d.count else 0
  | _ => d.count

/-- The elements of DST: operation 2 receives one run from each member (R418). -/
def CollDesc.dstCount (d : CollDesc) : Nat := if d.op == 2 then d.ids.length * d.count else d.count

/-- The descriptor errors of R418 and R420. DEDUCED: SRC of a broadcast, which is not read elsewhere than at ROOT, overlaps nothing there (log entry 76). -/
def CollDesc.bad (d : CollDesc) (me : Option Nat) : Bool :=
  !d.reservedZero || decide (8 ≤ d.ctl) || d.op == 0 || decide (4 < d.op)
    || (if d.op == 1 || d.op == 3 then decide (2 < d.red) else d.red != 0)
    || !([0, 1, 2, 5, 6, 17, 18].contains d.typ)
    || (if d.op == 4 then !(decide (d.root < 64) && d.members.getLsbD d.root) else d.root != 0)
    || d.count == 0 || decide (2 ^ 32 < d.count)
    || d.src % d.size != 0 || d.dst % d.size != 0
    || match me with
      | none => true
      | some m => !d.members.getLsbD m || (d.src != d.dst && d.srcCount m != 0
          && decide (d.src < d.dst + d.dstCount * d.size) && decide (d.dst < d.src + d.srcCount m * d.size))

/-- The class of the writes (Table 9.2). -/
def CollDesc.cls (d : CollDesc) : CacheClass :=
  match bits d.ctl 2 1 with
  | 0 => .normal
  | 1 => .evictFirst
  | 2 => .keep
  | _ => .keepHigh

/-- The no-allocate bit of the writes. -/
def CollDesc.na (d : CollDesc) : Bool := bit d.ctl 0

/-! ### Reductions (R419) -/

/-- One step of a reduction. -/
def reduceStep (t : ElemType) (red a b : Nat) : Nat :=
  match ElemType.fmt? t with
  | some f =>
    let x := f.decode a
    let y := f.decode b
    let v := match red with
      | 0 => (x.add false y).1
      | 1 => x.min' y
      | _ => x.max' y
    (f.deliver .rne false false v).1
  | none =>
    let n := ElemType.width t
    let less := decide (toIntBy (ElemType.isSigned t) (BitVec.ofNat n a) ≤ toIntBy (ElemType.isSigned t) (BitVec.ofNat n b))
    match red with
    | 0 => (a + b) % 2 ^ n
    | 1 => if less then a else b
    | _ => if less then b else a

/-- The members' values reduced in ascending package id; none where one is missing. -/
def reduceAll (t : ElemType) (red : Nat) : List (Option Nat) → Option Nat
  | [] => none
  | x :: r => r.foldl (fun acc y => match acc, y with
    | some a, some b => some (reduceStep t red a b)
    | _, _ => none) x

/-- Element `i` of a member's DST from the members' contributions, in ascending package id (R418). -/
def CollDesc.element (d : CollDesc) (me : Nat) (xs : List (List (Option Nat))) (i : Nat) : Option Nat :=
  match d.op with
  | 1 => reduceAll d.elem d.red (xs.map fun x => nth x i none)
  | 2 => nth (nth xs (i / d.count) []) (i % d.count) none
  | 3 => reduceAll d.elem d.red (xs.map fun x => nth x (d.rank me * d.count + i) none)
  | _ => nth (nth xs (d.rank d.root) []) i none

/-! ### The issue of a collective (R417, R420) -/

/-- The core of a team, resident or saved. -/
def State.teamCore (s : State) (t : Nat) : Nat := ((tabFind s.teams t).map (·.core)).getD 0

/-- The number of earlier `COLL`s of a context with a TAG and MEMBERS. -/
def State.collCount (s : State) (key : Nat × Nat × BitVec 64) : Nat :=
  ((s.collCounts.find? fun e => e.1 == key).map (·.2)).getD 0

/-- Bytes cut into pieces, with the offset of each. -/
def cutBytes (n : Nat) : Nat → Nat → List Byte → List (Nat × List Byte)
  | 0, _, _ => []
  | fuel + 1, off, bs => if bs.isEmpty then [] else (off, bs.take n) :: cutBytes n fuel (off + n) (bs.drop n)

/-- The bytes of a contribution that a frame carries: its payload takes up to 4,096 bytes (R413). -/
def framePiece : Nat := Config.framePiece % 4096 + 1

/-- The elements of SRC that this member has read, none for one that could not be. -/
def Collective.src (c : Collective) (me : Nat) : List (Option Nat) := (upto (c.desc.srcCount me)).map fun i => tabFind c.work.got i

/-- The frames by which a member tells the others its contribution, or that it failed. -/
def Collective.frames (c : Collective) (me : Nat) (failed : Bool) : List CollFrame :=
  let data := (c.src me).flatMap fun x => leBytes c.desc.size (x.getD 0)
  let one (x : Nat × List Byte) : CollFrame := {
    ctx := c.ctx
    member := me
    tag := c.desc.tag
    members := c.desc.members
    occurrence := c.occurrence
    op := c.desc.op
    red := c.desc.red
    typ := c.desc.typ
    root := c.desc.root
    count := c.desc.count
    failed := failed
    offset := x.1
    data := x.2
    bad := c.work.bad.filter fun i => bytesMeet (i * c.desc.size) c.desc.size x.1 x.2.length }
  if failed || data.isEmpty then [one (0, [])] else (cutBytes framePiece data.length 0 data).map one

/-- Collective frames sent to every other member. -/
def State.tellMembers (s : State) (d : CollDesc) (me : Nat) (fs : List CollFrame) : State :=
  (d.ids.filter (· != me)).foldl (fun s p => fs.foldl (fun s f => s.sendNew p 0 (.collective f)) s) s

/-- The parts of a collective's first stage: element `i` of SRC is read by part `2 * i`, and the place of element `i` of DST found by part `2 * i + 1`. -/
def CollDesc.parts (d : CollDesc) (me : Nat) : List Nat :=
  ((upto (d.srcCount me)).map fun i => 2 * i) ++ (upto d.dstCount).map fun i => 2 * i + 1

/-- The last stage of a collective, which writes DST. In the first it reads SRC and finds where DST lies; in the second the other members are waited for. -/
def collLast : Nat := 2

/-- A collective issued: it takes its number. With a descriptor error there is no traffic and nothing to do (R420). -/
def State.issueColl (s : State) (id : Nat) (c : Collective) : State :=
  let d := c.desc
  let key := (c.ctx, d.tag, d.members)
  let n := s.collCount key
  let counts := (s.collCounts.filter fun e => e.1 != key) ++ [(key, n + 1)]
  let s1 : State := { s with collCounts := counts, nextId := s.nextId + 1 }
  let c1 := if d.bad s.packageId then { c with error := Nat.lor c.error stDesc, work := { c.work with stage := collLast } }
    else { c with work := { c.work with todo := d.parts (s.packageId.getD 0) } }
  { s1 with collectives := tabSet s1.collectives id { c1 with issued := some s.nextId, occurrence := n } }

/-- The collectives that the package holds in flight (R417). -/
def maxCollectives : Nat := 64

/-- `COLL` (R417). In a deterministic launch the collective is issued at the meeting (R390). Both offsets are checked as scalar accesses (R217, R417). -/
def coll (b y : Nat) (s : State) (k : Nat) (env : Env) (w : Warp) : Except Stop (State × Warp) :=
  let i := Instr.coll b y
  stopIf w.anyTx (w.trap 0x03) <|
  sharedObject s env w (w.scal y) 64 128 fun off =>
  sharedPlace env (w.scal b) 16 16 fun bar =>
  s.released k w true .fabric <|
  stopIf (decide (maxCollectives ≤ s.collectives.length)) (.wait (.retry i)) <|
  let c : Collective := {
    desc := CollDesc.ofBytes (s.seenBytes w off 128)
    occurrence := 0
    warp := k
    team := w.team
    ctx := env.ctx
    bar := bar
    error := 0
    work := ⟨0, [], 0, [], [], []⟩
    issued := none
    done := false
    fault := none
    denied := [] }
  let id := s.nextId
  let s1 : State := { s with nextId := id + 1, collectives := tabSet s.collectives id c }
  .ok (if env.logs then
      match tabFind s1.launches (s.launchKey w) with
      | some x => { s1 with launches := tabSet s1.launches (s.launchKey w) { x with heldOps := x.heldOps ++ [id] } }
      | none => s1
    else s1.issueColl id c, w.taint)

/-- `COLL` (R417). Reads a collective descriptor and starts a fabric collective reporting on a barrier object. -/
def execColl (b y : Nat) (s : State) : Host.Outcome State Fault Refusal := s.issueMem (coll b y)

/-! ### What the members have said (R420) -/

/-- Whether a frame belongs to a collective of this package. -/
def CollFrame.matchesColl (f : CollFrame) (c : Collective) : Bool :=
  f.ctx == c.ctx && f.tag == c.desc.tag && f.members == c.desc.members && f.occurrence == c.occurrence

/-- Whether the descriptor behind a frame agrees with a collective's. -/
def CollFrame.agrees (f : CollFrame) (d : CollDesc) : Bool :=
  !f.failed && f.op == d.op && f.red == d.red && f.typ == d.typ && f.root == d.root && f.count == d.count

/-- The frames that a member has sent for a collective. -/
def State.framesFrom (s : State) (c : Collective) (m : Nat) : List CollFrame :=
  s.collFrames.filter fun f => f.member == m && CollFrame.matchesColl f c

/-- The bytes of a member's contribution that have come. -/
def State.bytesFrom (s : State) (c : Collective) (m : Nat) : Tab Byte :=
  (s.framesFrom c m).foldl (fun t f => (upto f.data.length).foldl (fun t i => tabSet t (f.offset + i) (nth f.data i 0)) t) []

/-- The bytes of a member's contribution. -/
def CollDesc.lengthOf (d : CollDesc) (m : Nat) : Nat := d.srcCount m * d.size

/-- Whether a member has said all that it has to say: it failed, its descriptor is another, or its whole contribution has come. -/
def State.heard (s : State) (c : Collective) (m : Nat) : Bool :=
  let fs := s.framesFrom c m
  !fs.isEmpty && ((fs.any fun f => !CollFrame.agrees f c.desc) || (s.bytesFrom c m).length == c.desc.lengthOf m)

/-- Whether a member can no longer contribute: lost, or out of the domain (R420, R421). -/
def State.memberGone (s : State) (m : Nat) : Bool := s.lostPeer m || !s.members.getLsbD m

/-- The members but this package. -/
def State.others (s : State) (d : CollDesc) : List Nat := d.ids.filter fun m => some m != s.packageId

/-- Whether the team of a collective has been killed. -/
def State.collKilled (s : State) (c : Collective) : Bool :=
  match tabFind s.teams c.team with
  | some tm => tm.status == .killed
  | none => true

/-- Whether a collective fails on this member, so that each byte of DST holds its old value or any value written to it: its launch is killed, a member is lost or has failed, or the
descriptors disagree (R420). -/
def State.collFailed (s : State) (c : Collective) : Bool :=
  Nat.land c.error stColl != 0 || (s.others c.desc).any fun m => !s.heard c m || (s.framesFrom c m).any fun f => !CollFrame.agrees f c.desc

/-- The elements of a frame's bytes. -/
def elementsOf (size : Nat) : Nat → List Byte → List (Option Nat)
  | 0, _ => []
  | n + 1, bs => some (natOfBytes (bs.take size)) :: elementsOf size n (bs.drop size)

/-- A member's contribution. -/
def State.contribution (s : State) (c : Collective) (m : Nat) : List (Option Nat) :=
  if some m == s.packageId then c.src m
  else
    let t := s.bytesFrom c m
    elementsOf c.desc.size (c.desc.srcCount m) ((upto (c.desc.lengthOf m)).map fun i => tabGet t i 0)

/-- The elements of a member's SRC that were read as poisoned. -/
def State.badOf (s : State) (c : Collective) (m : Nat) : List Nat :=
  if some m == s.packageId then c.work.bad
  else (s.framesFrom c m).flatMap (·.bad)

/-- Whether an element of DST depends on an element that was read as poisoned (R399, R420). -/
def CollDesc.tainted (d : CollDesc) (me i : Nat) (bad : Nat → List Nat) : Bool :=
  match d.op with
  | 2 => (bad (nth d.ids (i / d.count) 0)).contains (i % d.count)
  | 3 => d.ids.any fun m => (bad m).contains (d.rank me * d.count + i)
  | 4 => (bad d.root).contains i
  | _ => d.ids.any fun m => (bad m).contains i

/-! ### The work of a collective (R342, R415, R420) -/

/-- Where a collective's access to a named buffer lies: none for a byte of the private window or one whose translation is not served (R420). -/
def State.collAddr (s : State) (c : Collective) (va n : Nat) (k : AccessKind) : Except Stop (Option Phys) :=
  let base := (s.context c.ctx).winBase
  if decide (base < va + n) && decide (va < base + 2 ^ 18) then .ok none else s.servedPhys (s.teamCore c.team) c.ctx c.denied va k

/-- The address of an element of SRC. -/
def CollDesc.srcAt (d : CollDesc) (i : Nat) : Nat := (d.src + i * d.size) % 2 ^ 64

/-- The address of an element of DST. -/
def CollDesc.dstAt (d : CollDesc) (i : Nat) : Nat := (d.dst + i * d.size) % 2 ^ 64

/-- One element of SRC read (R342, R415). -/
def readCollElem (id : Nat) (c : Collective) (i : Nat) (s : State) (w : Work) : Except Stop (State × Work) :=
  let va := c.desc.srcAt i
  let n := c.desc.size
  let s1 := s.fillAccess (s.teamCore c.team) c.ctx va .read
  match s1.collAddr c va n .read with
  | .error e => .error e
  | .ok p => (s1.fetchGlobal (.coll id) c.ctx va n i (throughL2 .normal false) p).map fun r => match r with
    | (s2, .data bs bad) =>
      (s2, { w.report (if bad then stEcc else 0) with got := tabSet w.got i (natOfBytes bs), bad := if bad then w.bad ++ [i] else w.bad })
    | (s2, _) => (s2, w.report stXlate)

/-- The place of one element of DST found, so that the other members learn of one that cannot be written (R420). -/
def findCollElem (c : Collective) (i : Nat) (s : State) (w : Work) : Except Stop (State × Work) :=
  let va := c.desc.dstAt i
  let s1 := s.fillAccess (s.teamCore c.team) c.ctx va .write
  (s1.collAddr c va c.desc.size .write).map fun p => (s1, if p.isNone then w.report stXlate else w)

/-- Whether a collective belongs to a deterministic launch. -/
def State.collDeterministic (s : State) (c : Collective) : Bool :=
  !s.collKilled c && (((tabFind s.teams c.team).bind fun tm => tabFind s.launches tm.launch).map fun x => x.quantum != 0).getD false

/-- A byte of a failed collective's DST: its old value, or one that the spec leaves open (R420). -/
def State.openByte (s : State) (i : Nat) (old : Byte) : Byte :=
  let n := Config.freeNat (s.tick * 2 ^ 64 + i)
  if n % 2 == 0 then old else BitVec.ofNat 8 (n / 2)

/-- What a failed collective writes to an element of DST, if anything: on this package any mixture of old bytes and open ones, on another open bytes or nothing. -/
def State.openElement (s : State) (c : Collective) (i : Nat) (p : Phys) : Option (List Byte × Bool) :=
  let n := c.desc.size
  let old (j : Nat) : Byte := if p.fab then 0 else s.byte (p.pa + j)
  if p.fab && Config.freeNat (s.tick * 2 ^ 64 + 2 ^ 63 + i) % 2 == 0 then none
  else some ((upto n).map fun j => s.openByte (i * n + j) (old j), false)

/-- What a collective writes to element `i` of DST, and whether it is poisoned: none where nothing is written. -/
def State.collElement (s : State) (c : Collective) (i : Nat) (p : Phys) : Option (List Byte × Bool) :=
  let d := c.desc
  let me := s.packageId.getD 0
  if s.collFailed c then s.openElement c i p
  else (d.element me (d.ids.map (s.contribution c)) i).map fun v => (leBytes d.size v, d.tainted me i (s.badOf c))

/-- One element of DST written, or held for a meeting (R342, R390, R415). -/
def writeCollElem (id : Nat) (c : Collective) (i : Nat) (s : State) (w : Work) : Except Stop (State × Work) :=
  let d := c.desc
  let va := d.dstAt i
  let s1 := s.fillAccess (s.teamCore c.team) c.ctx va .write
  match s1.collAddr c va d.size .write with
  | .error e => .error e
  | .ok none => .ok (s1, w.report stXlate)
  | .ok (some p) =>
    if p.fab && s1.lostPeer p.pkg then .ok (s1, w.report stXlate)
    else stopIf (!p.fab && s1.heldBack p.pa d.size) (.wait .pushes) <| .ok (match s1.collElement c i p with
      | none => (s1, w)
      | some (bs, bad) =>
        let h : HeldWrite := ⟨false, p.fab, p.pkg, p.pa, va, bs, bad, d.cls, d.na⟩
        if s1.collDeterministic c then (s1, { w with held := w.held ++ [h] }) else (s1.putWrite (.coll id) c.team h, w))

/-- One part of a collective done. -/
def doCollPart (id : Nat) (c : Collective) (u : Nat) (s : State) (w : Work) : Except Stop (State × Work) :=
  if w.stage != 0 then writeCollElem id c u s w
  else if u % 2 == 0 then readCollElem id c (u / 2) s w
  else findCollElem c (u / 2) s w

/-- A collective with its progress kept. -/
def State.keepColl (s : State) (id : Nat) (w : Work) : State :=
  match tabFind s.collectives id with
  | some c => { s with collectives := tabSet s.collectives id { c with work := w } }
  | none => s

/-- A collective that waits for a translation or for a peer. -/
def State.haltColl (s : State) (id : Nat) : Stop → State
  | .translation _ va k => match tabFind s.collectives id with
    | some c => { s with collectives := tabSet s.collectives id { c with fault := some (va, k, false) } }
    | none => s
  | .remote tag pkg op va =>
    if (s.peer pkg).outstanding.any fun r => r.who == .coll id && r.tag == tag && r.op == op then s else s.request pkg op (.coll id) tag va
  | _ => s

/-- Whether a collective ends without doing what it was issued for: a descriptor error, or a killed launch (R420). -/
def Collective.fails (c : Collective) : Bool := Nat.land c.error (stDesc + stColl) != 0

/-- The next stage of a collective whose parts are done, if it may begin: the others are told this member's contribution, or that a byte of its buffers cannot be reached, once SRC has
been read; DST is written once every member's SRC has been read or the member is gone (R420). -/
def State.nextCollStage (s : State) (id : Nat) (c : Collective) : Option State :=
  let w := c.work
  let last : State := s.keepColl id { w with stage := collLast, todo := upto c.desc.dstCount }
  if w.stage == collLast then none
  else if c.fails then some last
  else if !w.todo.isEmpty then none
  else if w.stage == 0 then
    let me := s.packageId.getD 0
    some ((s.keepColl id { w with stage := 1 }).tellMembers c.desc me (c.frames me (Nat.land w.bits stXlate != 0)))
  else if (s.others c.desc).all fun m => s.heard c m || s.memberGone m then some last
  else none

/-- Whether a collective has a part or a stage to begin. -/
def State.collBusy (s : State) (id : Nat) (c : Collective) : Bool :=
  c.issued.isSome && c.fault.isNone && !c.done && (!c.work.todo.isEmpty || (s.nextCollStage id c).isSome)

/-- A step of a collective: its next stage, or one part by a free choice (R342). -/
def State.stepColl (s : State) (id n : Nat) : State :=
  match tabFind s.collectives id with
  | none => s
  | some c =>
    if !s.collBusy id c then s
    else match s.nextCollStage id c with
    | some s1 => s1
    | none =>
      let w := c.work
      let u := nth w.todo (n % w.todo.length) 0
      match doCollPart id c u s w with
      | .ok (s1, w1) => s1.keepColl id { w1 with todo := w.todo.filter (· != u) }
      | .error e => s.haltColl id e

/-! ### Completion (R420) -/

/-- Whether remote writes of a collective have not been performed. -/
def State.collOutstanding (s : State) (id : Nat) : Bool := s.peers.any fun e => e.2.outstanding.any fun r => r.who == .coll id

/-- Whether a collective can complete on this member: DST is final (R420). In a deterministic launch it holds its writes for a meeting. -/
def State.collReady (s : State) (id : Nat) (c : Collective) : Bool :=
  c.issued.isSome && c.work.stage == collLast && c.work.todo.isEmpty && !s.collOutstanding id

/-- The status bits of a completed collective (R420). -/
def State.collStatus (s : State) (c : Collective) : Nat :=
  if Nat.land c.error stDesc != 0 then c.error
  else
    let failed := s.collFailed c
    let bad := !failed && (upto c.desc.dstCount).any fun i => c.desc.tainted (s.packageId.getD 0) i (s.badOf c)
    Nat.lor (Nat.lor c.error c.work.bits) ((if failed then stColl else 0) + if bad then stEcc else 0)

/-- A collective completed: its arrival on the barrier object, in the save image where its team is saved, the acquire of R416, and its slot free. A killed team's
members learn that it failed. -/
def State.performColl (s : State) (id : Nat) (c : Collective) : State :=
  let gone := s.collKilled c
  let s1 := if gone then s else s.arrive c.team c.bar 1 (s.collStatus c)
  let s2 : State := { s1.dropCopies c.ctx fun _ => true with
    collectives := tabDel s1.collectives id, collFrames := s1.collFrames.filter fun f => !CollFrame.matchesColl f c
    answers := s1.answers.filter fun a => a.who != .coll id }
  if gone then s2.tellMembers c.desc (s.packageId.getD 0) (c.frames (s.packageId.getD 0) true) else s2

/-- A finished collective of a deterministic launch at a meeting: its held writes are performed, and it completes once those to other packages have been (R390); one to a lost peer is
reported as XLATE (R421). -/
def State.meetColl (s : State) (id : Nat) (c : Collective) : State :=
  let lost (h : HeldWrite) : Bool := h.fab && s.lostPeer h.pkg
  let w := { (if c.work.held.any lost then c.work.report stXlate else c.work) with held := [] }
  let s1 := ((c.work.held.filter fun h => !lost h).foldl (fun s h => s.putWrite (.coll id) c.team h) s).keepColl id w
  if s1.collOutstanding id then s1 else s1.performColl id { c with work := w }

/-- `COLL_COMPLETE` (R420). A collective completes on a member and arrives on its barrier object with status. -/
def execCollComplete (id : Nat) (s : State) : Host.Outcome State Fault Refusal :=
  .next (match tabFind s.collectives id with
    | some c =>
      if s.collReady id c && !c.done then
        if s.collDeterministic c then { s with collectives := tabSet s.collectives id { c with done := true } }
        else s.performColl id c
      else s
    | none => s)

end Sys2Proof.Machine
end

