-- ==== Sys2Proof/Machine/Queue.lean ====
section
/-! DEFINITION. Message queues between the teams of a team cluster, and GSET: QAPPEND, QAPPEND.try, QPOP, QATT, QATT.own, QDET, QDET.own (R250 to R261). -/

namespace Sys2Proof.Machine

/-! ### Handles (R252) -/

/-- A queue that a handle names: the core, the queue number and the team that must own it. -/
structure QueueRef where
  core : Nat
  q : Nat
  team : Nat
  deriving DecidableEq, Repr

/-- Whether a handle is legal (R252). -/
def Env.handleOk (env : Env) (h : DWord) : Bool := decide (h.toNat < 128) && decide (h.toNat / 16 < env.cluster)

/-- The queue that a handle names; none for an illegal handle and for a rank without a resident team. -/
def State.queueRef (s : State) (env : Env) (w : Warp) (h : DWord) : Option QueueRef :=
  if env.handleOk h then
    match (tabFind s.teams w.team).bind fun tm => s.teamOfRank tm env.cluster (h.toNat / 16) with
    | some t => (tabFind s.teams t).map fun tm => ⟨tm.core, h.toNat % 16, t⟩
    | none => none
  else none

/-- The register set of a named queue. -/
def State.queueRegs (s : State) (r : QueueRef) : QueueRegs := (s.core r.core).queue r.q

/-- Whether a queue is open for the team that its handle names. -/
def QueueRegs.openFor (x : QueueRegs) (team : Nat) : Bool := x.opened && x.owner == some team

/-- The instruction's queue: illegal state for a bad handle and for a queue that is not open (R252, R254, R256). -/
def openQueue {α : Type} (s : State) (env : Env) (w : Warp) (y : Nat) (k : QueueRef → QueueRegs → Except Stop α) : Except Stop α :=
  match s.queueRef env w (w.scal y) with
  | none => .error (w.trap 0x03)
  | some r => stopIf (!(s.queueRegs r).openFor r.team) (w.trap 0x03) (k r (s.queueRegs r))

/-- The words of an entry. -/
def QueueRegs.words (q : QueueRegs) : Nat := q.esize / 4

/-- The vector registers of an entry. -/
def entryRegs (q : QueueRegs) (x : Nat) : List Nat := (upto q.words).map (x + ·)

/-! ### QAPPEND (R255, R256, R258) -/

/-- Entries written in consecutive slots after the filled ones: FILLED and FREE follow (R255, R256). -/
def State.writeEntries (s : State) (r : QueueRef) : List (List Byte) → State
  | [] => s
  | e :: rest =>
    let q := s.queueRegs r
    let slot := if q.count == 0 then 0 else (q.head + q.filled) % q.count
    ((s.shmWrite r.team (q.base + slot * q.esize) e).setQueue r.core r.q
      { q with filled := q.filled + 1, free := q.free - 1 }).writeEntries r rest

/-- The entry of a lane, little-endian. -/
def Warp.entryOf (w : Warp) (q : QueueRegs) (x l : Nat) : List Byte := (entryRegs q x).flatMap fun n => leBytes 4 (w.reg l n).toNat

/-- A warp's waiting request out of a queue's list. -/
def State.unlist (s : State) (r : QueueRef) (k : Nat) : State :=
  let q := s.queueRegs r
  s.setQueue r.core r.q { q with requests := q.requests.filter (· != k) }

/-- `QAPPEND` (R256): the request is granted when it is at the head of the list and FREE suffices, and otherwise waits in the list; it
has taken effect once its entries are written. -/
def qappend (x y : Nat) (s : State) (k : Nat) (env : Env) (w : Warp) : Effect :=
  let i := Instr.qappend x y
  stopIf w.anyTx (w.trap 0x03) <|
  env.atMeeting i <|
  openQueue s env w y fun r q =>
  let ls := lanesOf w.width w.executing
  stopIf (!w.attached.getLsbD (w.scal y).toNat) (w.trap 0x03) <|
  stopIf (decide (q.count < ls.length)) (w.trap 0x03) <|
  w.rangeCheck env (entryRegs q x) <|
  if ls.isEmpty then .ok (s, w, .after 4)
  else
    s.released k w true .cluster <|
    let first := match q.requests with
      | [] => true
      | j :: _ => j == k
    if first && decide (ls.length ≤ q.free) then
      .ok ((s.unlist r k).writeEntries r (ls.map (w.entryOf q x)), w.taint, .after 4)
    else
      let listed := if q.requests.contains k then s else s.setQueue r.core r.q { q with requests := q.requests ++ [k] }
      .ok (listed, { w with status := .waiting (.append i r.core r.q ls.length) }, .stay)

/-- `QAPPEND` (R256). Waits for a grant and appends one entry per executing lane to a message queue. -/
def execQappend (x y : Nat) (s : State) : Host.Outcome State Fault Refusal := s.issueOf 4 (qappend x y)

/-- `QAPPEND.try` (R256): it appends what the queue has room for at once, and tells each lane whether its entry went in. -/
def qappendTry (x y p : Nat) (s : State) (k : Nat) (env : Env) (w : Warp) : Except Stop (State × Warp) :=
  stopIf w.anyTx (w.trap 0x03) <|
  env.atMeeting (.qappendTry x y p) <|
  openQueue s env w y fun r q =>
  let ls := lanesOf w.width w.executing
  stopIf (!w.attached.getLsbD (w.scal y).toNat) (w.trap 0x03) <|
  w.rangeCheck env (entryRegs q x) <|
  if ls.isEmpty then .ok (s, w)
  else
    s.released k w true .cluster <|
    let n := if q.requests.isEmpty then min ls.length q.free else 0
    let went := ls.take n
    let w1 := w.setPred p (mergeMask w.executing (w.pred p) (maskOf went))
    .ok (s.writeEntries r (went.map (w.entryOf q x)), if n == 0 then w1 else w1.taint)

/-- `QAPPEND_TRY` (R256). Appends as many entries as are granted at once and records which lanes appended. -/
def execQappendTry (x y p : Nat) (s : State) : Host.Outcome State Fault Refusal := s.issueMem (qappendTry x y p)

/-! ### QPOP (R257, R258) -/

/-- Whether a queue is closed (R257). -/
def QueueRegs.closed (q : QueueRegs) : Bool := q.armed && q.prod == 0 && q.filled == 0 && q.free == q.count

/-- The shared offset of the i-th filled entry. -/
def QueueRegs.slot (q : QueueRegs) (i : Nat) : Nat := q.base + (if q.count == 0 then 0 else (q.head + i) % q.count) * q.esize

/-- The writes of a `QPOP` that gives its first `n` lanes an entry each (R257). DEDUCED: an entry is what shared memory holds when it is popped, so that a plain write to its slot after
the append is what is popped, one of the two values that R258 allows (log entry 137). -/
def popWrites (s : State) (w : Warp) (t x pv pc n : Nat) (q : QueueRegs) (ls : List Nat) : List RegWrite :=
  ((upto n).flatMap fun i =>
    let l := nth ls i 0
    let bs := s.shmBytes t (q.slot i) q.esize
    (upto q.words).map fun j => .vec l (w.phys l (x + j)) (BitVec.ofNat 32 (fieldAt bs (4 * j) 4)))
    ++ (upto ls.length).flatMap fun i => [.pred pv (nth ls i 0) (decide (i < n)), .pred pc (nth ls i 0) (n == 0)]

/-- `QPOP` (R257). Its predicates count as written by the stretch from its issue on (R35), though their values arrive later. -/
def qpop (x y pv pc : Nat) (s : State) (_ : Nat) (env : Env) (w : Warp) : Effect :=
  let i := Instr.qpop x y pv pc
  stopIf w.anyTx (w.trap 0x03) <|
  env.atMeeting i <|
  openQueue s env w y fun r q =>
  stopIf (r.team != w.team) (w.trap 0x03) <|
  w.rangeCheck env (entryRegs q x) <|
  let ls := lanesOf w.width w.executing
  let n := min ls.length q.filled
  if ls.isEmpty then .ok (s, w, .after 4)
  else if n == 0 && !q.closed then .ok (s, { w with status := .waiting (.pop i) }, .stay)
  else
    stopIf ((upto n).any fun j => s.shmPoisoned r.team (q.slot j) q.esize) (.abort 0x11 (BitVec.ofNat 64 q.base)) <|
    let noted := (w.setPred pv (w.pred pv)).setPred pc (w.pred pc)
    let w1 := (noted.defer (popWrites s w r.team x pv pc n q ls)).dropLatches (entryRegs q x)
    let q1 := { q with head := (q.head + n) % q.count, filled := q.filled - n, free := q.free + n }
    .ok (if n == 0 then (s, w1, .after 4) else (s.setQueue r.core r.q q1, w1.taint, .after 4))

/-- `QPOP` (R257). Pops entries of an owned queue into executing lanes, waiting while the queue is empty and not closed. -/
def execQpop (x y pv pc : Nat) (s : State) : Host.Outcome State Fault Refusal := s.issueOf 4 (qpop x y pv pc)

/-! ### Attachment (R251, R254) -/

/-- `QATT` (R254). -/
def qatt (y : Nat) (s : State) (_ : Nat) (env : Env) (w : Warp) : Except Stop (State × Warp) :=
  openQueue s env w y fun r q =>
  let b := (w.scal y).toNat
  .ok (if w.attached.getLsbD b then (s, w)
    else (s.setQueue r.core r.q { q with prod := q.prod + 1, armed := true }, { w with attached := w.attached ||| BitVec.ofNat 128 (2 ^ b) }))

/-- `QATT` (R254). Attaches the warp as a producer to an open queue. -/
def execQatt (y : Nat) (s : State) : Host.Outcome State Fault Refusal := s.issueMem (qatt y)

/-- `QATT.own` (R251, R254): it opens a queue from its descriptor. -/
def qattOwn (y q : Nat) (s : State) (_ : Nat) (env : Env) (w : Warp) : Except Stop (State × Warp) :=
  let x := (s.core w.core).queue q
  stopIf (x.owner.isSome && x.owner != some w.team) (w.trap 0x03) <|
  sharedObject s env w (w.scal y) 16 16 fun off =>
  let bs := s.seenBytes w off 16
  let base := fieldAt bs 0 4
  let esize := fieldAt bs 4 2
  let count := fieldAt bs 6 2
  stopIf (!zeroAt bs 8 8 || decide (esize < 4) || decide (64 < esize) || esize % 4 != 0 || count == 0 || base % 16 != 0) (w.trap 0x03) <|
  stopIf (decide (env.shm < base + esize * count)) (.charged 0x09 (BitVec.ofNat 64 base)) <|
  match x.owner with
  | some _ => stopIf (x.base != base || x.esize != esize || x.count != count) (w.trap 0x03) (.ok (s, w))
  | none =>
    .ok (s.setQueue w.core q { QueueRegs.empty with
      owner := some w.team, base := base, esize := esize, opened := true, count := count, free := count }, w)

/-- `QATT_OWN` (R254). Opens queue q for the warp's team from a shared queue descriptor. -/
def execQattOwn (y q : Nat) (s : State) : Host.Outcome State Fault Refusal := s.issueMem (qattOwn y q)

/-- `QDET` (R254). -/
def qdet (y : Nat) (s : State) (_ : Nat) (env : Env) (w : Warp) : Except Stop (State × Warp) :=
  let b := (w.scal y).toNat
  stopIf (!env.handleOk (w.scal y)) (w.trap 0x03) <|
  if w.attached.getLsbD b then
    let w1 := { w with attached := w.attached &&& ~~~(BitVec.ofNat 128 (2 ^ b)) }
    .ok (match s.queueRef env w (w.scal y) with
      | some r =>
        let q := s.queueRegs r
        if q.openFor r.team then (s.setQueue r.core r.q { q with prod := q.prod - 1 }, w1) else (s, w1)
      | none => (s, w1))
  else .ok (s, w)

/-- `QDET` (R254). Detaches the warp as a producer from a queue. -/
def execQdet (y : Nat) (s : State) : Host.Outcome State Fault Refusal := s.issueMem (qdet y)

/-- `QDET.own` (R254): it waits until no entry is granted and unwritten, and frees the registers with the entries. -/
def qdetOwn (q : Nat) (s : State) (_ : Nat) (_ : Env) (w : Warp) : Effect :=
  let x := (s.core w.core).queue q
  match x.owner with
  | none => .ok (s, w, .after 4)
  | some t =>
    stopIf (t != w.team || x.prod != 0) (w.trap 0x03) <|
    if x.free + x.filled == x.count then .ok (s.freeQueue w.core q, w, .after 4)
    else .ok (s, { w with status := .waiting (.freeQueue q) }, .stay)

/-- `QDET_OWN` (R254). Closes an owned queue once every grant is written, discarding entries and freeing its registers. -/
def execQdetOwn (q : Nat) (s : State) : Host.Outcome State Fault Refusal := s.issueOf 4 (qdetOwn q)

/-- `GSET` (R261). -/
def execGset (y : Nat) (s : State) : Host.Outcome State Fault Refusal := s.issue fun _ w => .ok { w with gset := w.scal y }

/-! ### Grants and wake-ups (R254, R255, R257) -/

/-- The warp at the head of a queue's list of requests (R255). -/
def State.firstRequest (s : State) (core q : Nat) : Option Nat := ((s.core core).queue q).requests.head?

/-- Whether the request at the head of a list may be granted (R255); a deterministic launch grants at its meetings (R389). -/
def State.grantDue (s : State) (core q : Nat) : Bool :=
  match (s.firstRequest core q).bind fun k => tabFind s.warps k with
  | some w => (match w.status with
    | .waiting (.append _ c p n) => c == core && p == q && decide (n ≤ ((s.core core).queue q).free)
    | _ => false) && !((s.launchOf w).map fun x => x.quantum != 0).getD false
  | none => false

/-- `QAPPEND_GRANT` (R255). The consumer grants room to the head request of its list and the entries are written. -/
def execQappendGrant (core q : Nat) (s : State) : Host.Outcome State Fault Refusal :=
  .next (match s.grantDue core q, s.firstRequest core q with
    | true, some k => match tabFind s.warps k with
      | some w => match w.status with
        | .waiting (.append (.qappend x y) _ _ _) => s.issueBy k w 4 (qappend x y)
        | _ => s
      | none => s
    | _, _ => s)

/-- Whether a waiting `QPOP` can go on: entries, a closed queue, or a queue that is no longer open (R257, R259). -/
def State.popDue (s : State) (w : Warp) : Bool :=
  match w.status, s.env? w with
  | .waiting (.pop (.qpop _ y _ _)), some env => !env.det && match s.queueRef env w (w.scal y) with
    | none => true
    | some r => let q := s.queueRegs r; !q.openFor r.team || decide (0 < q.filled) || q.closed
  | _, _ => false

/-- `QPOP_WAKE` (R257). A waiting QPOP receives entries or finds the queue closed. -/
def execQpopWake (k : Nat) (s : State) : Host.Outcome State Fault Refusal :=
  .next (match tabFind s.warps k with
    | some w => match w.status with
      | .waiting (.pop (.qpop x y pv pc)) => if s.popDue w then s.issueBy k w 4 (qpop x y pv pc) else s
      | _ => s
    | none => s)

/-- Whether a waiting `QDET.own` may free its queue (R254). -/
def State.freeDue (s : State) (w : Warp) : Bool :=
  match w.status with
  | .waiting (.freeQueue q) => let x := (s.core w.core).queue q; x.free + x.filled == x.count
  | _ => false

/-- `QDET_OWN_FREE` (R254). A waiting QDET.own frees the queue once every granted entry is written. -/
def execQdetOwnFree (k : Nat) (s : State) : Host.Outcome State Fault Refusal :=
  .next (match tabFind s.warps k with
    | some w => match w.status with
      | .waiting (.freeQueue q) => if s.freeDue w then s.issueBy k w 4 (qdetOwn q) else s
      | _ => s
    | none => s)

end Sys2Proof.Machine
end

