-- ==== Sys2Proof/Machine/Spawn.lean ====
section
/-! DEFINITION. SPAWN and SPAWNO: the spawn bins of a core, their seals, and the threads of a Slalom object (R184 to R188, R312). -/

namespace Sys2Proof.Machine

/-! ### Bins (R185, R186) -/

/-- The bins of a core and the sealed warps that its pending queue holds. -/
def maxBins : Nat := 16

/-- The clocks from a bin's first thread to its expiry (R186). -/
def Launch.spawnTimer (x : Launch) : Nat := if x.desc.timer == 0 then 1024 else x.desc.timer

/-- Whether a bin has the key of another (R185, R312). -/
def SpawnBin.sameKey (a b : SpawnBin) : Bool := a.team == b.team && a.entry == b.entry && a.slalom == b.slalom

/-- Threads added to a bin one by one: the groups that fill are sealed, and the bin starts again with a new timer (R185). `fresh` is the
empty bin of the key, started now. -/
def fillBin (width : Nat) (fresh : SpawnBin) : SpawnBin → List SpawnThread → List SpawnBin × SpawnBin
  | b, [] => ([], b)
  | b, t :: r =>
    let b1 := { b with threads := b.threads ++ [t] }
    if b1.threads.length == width then let (full, rest) := fillBin width fresh fresh r; (b1 :: full, rest)
    else fillBin width fresh b1 r

/-- The bin that started first. -/
def oldestBin : List SpawnBin → Option SpawnBin
  | [] => none
  | b :: r => match oldestBin r with
    | none => some b
    | some c => if c.started < b.started then some c else some b

/-- A list with the first element that satisfies a test replaced by a list. -/
def replaceFirst {α : Type} (p : α → Bool) (new : List α) : List α → List α
  | [] => []
  | x :: r => if p x then new ++ r else x :: replaceFirst p new r

/-- Threads appended to the bin of their key, taking a free bin, or flushing the oldest where none is free (R185): the core afterwards,
none where the pending queue has too few free entries for the seals. -/
def Core.spawn (c : Core) (width : Nat) (fresh : SpawnBin) (ts : List SpawnThread) : Option Core :=
  let keep (b : SpawnBin) : List SpawnBin := if b.threads.isEmpty then [] else [b]
  let (full, bins) := match c.bins.find? (·.sameKey fresh) with
    | some b =>
      let r := fillBin width fresh b ts
      (r.1, replaceFirst (SpawnBin.sameKey fresh) (keep r.2) c.bins)
    | none =>
      let r := fillBin width fresh fresh ts
      if c.bins.length < maxBins then (r.1, c.bins ++ keep r.2)
      else match oldestBin c.bins with
        | some o => (o :: r.1, replaceFirst (SpawnBin.sameKey o) (keep r.2) c.bins)
        | none => (r.1, keep r.2)
  if c.sealed.length + full.length ≤ maxBins then some { c with bins := bins, sealed := c.sealed ++ full } else none

/-! ### The instructions -/

/-- The checks of R185: the entry address, its function's budget and the argument registers. -/
def spawnChecks {α : Type} (x y : Nat) (s : State) (env : Env) (w : Warp) (k : DWord → Except Stop α) : Except Stop α :=
  let e := w.scal y
  let budget := if e.toNat % 4 == 0 then (s.launchOf w).bind fun l => s.funcBudget l e.toNat else none
  stopIf budget.isNone (.trap 0x07 e w.active) <|
  stopIf (decide (env.budget < budget.getD 0)) (w.trap 0x04) <|
  w.rangeCheck env ((upto 4).map (x + ·)) <|
  k e

/-- The argument words of a lane's new thread. -/
def Warp.spawnArgs (w : Warp) (x l : Nat) : List Word := (upto 4).map fun j => w.reg l (x + j)

/-- New threads entered in the bins of the warp's core; the instruction stalls where its seals have no room (R185). -/
def spawnThreads (i : Instr) (entry : DWord) (slalom : Option DWord) (ts : List SpawnThread) (s : State) (w : Warp) :
    Except Stop State :=
  let timer := ((s.launchOf w).map Launch.spawnTimer).getD 1024
  let fresh : SpawnBin := ⟨w.team, entry, slalom, [], s.clock, s.clock + timer, false⟩
  match (s.core w.core).spawn w.width fresh ts with
  | some c => .ok { s with cores := tabSet s.cores w.core c }
  | none => .error (.wait (.retry i))

/-- `SPAWN` (R184, R185). -/
def spawn (x y : Nat) (s : State) (_ : Nat) (env : Env) (w : Warp) : Except Stop (State × Warp) :=
  stopIf w.anyTx (w.trap 0x03) <|
  spawnChecks x y s env w fun e =>
  let ts := (lanesOf w.width w.executing).map fun l => (⟨w.spawnArgs x l, 0⟩ : SpawnThread)
  if ts.isEmpty then .ok (s, w) else (spawnThreads (.spawn x y) e none ts s w).map fun s1 => (s1, w.taint)

/-- `SPAWN` (R185). Creates one thread per executing lane into the core's spawn bins. -/
def execSpawn (x y : Nat) (s : State) : Host.Outcome State Fault Refusal := s.issueMem (spawn x y)

/-- The iterations that a `SPAWNO` of `n` lanes takes: the first, and how many (R312). -/
def slalomTake (next limit n : Nat) : Nat := if next < limit then min n (limit - next) else 0

/-- NEXTSPAWN of a Slalom object, and how many of `n` iterations are left to take (R312). -/
def State.slalomNext (s : State) (pa n : Nat) : Nat × Nat :=
  let next := natOfBytes (s.bytesAt pa 8)
  (next, slalomTake next (natOfBytes (s.bytesAt (pa + 16) 8)) n)

/-- The atomic of a `SPAWNO` at the object's home: NEXTSPAWN advances by the iterations taken (R312). -/
def State.claim (s : State) (pa n : Nat) : State :=
  let x := s.slalomNext pa n
  if x.2 == 0 then s.homeRead pa 24 else s.homeStore pa (leBytes 8 (x.1 + x.2)) .normal

/-- The hidden reference to an object; one on another package is marked (R312, R326). -/
def slalomRef (p : Phys) : DWord := BitVec.ofNat 64 (if p.fab then 2 ^ 63 + p.pkg * 2 ^ 52 + p.pa else p.pa)

/-- `SPAWNO` (R312): the lanes take the next iterations of the object with one atomic at its home, local or remote (R326). -/
def spawno (x y sb : Nat) (s : State) (k : Nat) (env : Env) (w : Warp) : Except Stop (State × Warp) :=
  let i := Instr.spawno x y sb
  let a := w.scal sb
  stopIf (w.anyTx || env.det) (w.trap 0x03) <|
  spawnChecks x y s env w fun e =>
  stopIf (a.toNat % 32 != 0) (.charged 0x08 a) <|
  match resolveHome s env a 8 .readWrite with
  | .ok (.global va p) =>
    let ls := lanesOf w.width w.executing
    let start (x1 : Nat × Nat) (f : State → State) : Except Stop (State × Warp) :=
      let ts := (upto x1.2).map fun j => (⟨w.spawnArgs x (nth ls j 0), BitVec.ofNat 64 (x1.1 + j)⟩ : SpawnThread)
      if x1.2 == 0 then .ok (f s, w)
      else (spawnThreads i e (some (slalomRef p)) ts s w).map fun s1 => (f s1, w.taint)
    match s.answerTo (.warp k) 64 p.pkg (.claim p.pa ls.length) with
    | some (bs, bad) => stopIf bad (.abort 0x11 a) (start (fieldAt bs 0 8, fieldAt bs 8 8) fun s1 => s1.noteWrite (s.launchKey w) va)
    | none =>
      stopIf (p.fab && s.lostPeer p.pkg) (.abort 0x10 a) <|
      stopIf (s.homeWaits false env.core k p 24) (.wait (.retry i)) <|
      stopIf (s.physPoison p 24) (.abort 0x11 a) <|
      if p.fab then .error (.remote 64 p.pkg (.claim p.pa ls.length) va)
      else start (s.slalomNext p.pa ls.length) fun s1 => (s1.claim p.pa ls.length).noteWrite (s.launchKey w) va
  | .ok _ => .error (.charged 0x09 a)
  | .error e => .error e

/-- `SPAWNO` (R312). Claims Slalom iterations from an object and spawns one ordered thread per iteration. -/
def execSpawno (x y sb : Nat) (s : State) : Host.Outcome State Fault Refusal := s.issueMem (spawno x y sb)

end Sys2Proof.Machine
end

