-- ==== Sys2Proof/Machine/Redo.lean ====
section
/-! DEFINITION. Instructions tried again: those that stalled before taking effect, and those that a deterministic warp performs at a meeting (R185, R208, R218, R228, R369, R389, R417). -/

namespace Sys2Proof.Machine

/-- An instruction that goes on to the next word, as an effect. -/
def onward (f : State → Nat → Env → Warp → Except Stop (State × Warp)) : State → Nat → Env → Warp → Effect :=
  fun s k env w => (f s k env w).map fun r => (r.1, r.2, .after 4)

/-- The effect of an instruction that can stall or end a quantum; every other instruction only goes on. -/
def redo : Instr → State → Nat → Env → Warp → Effect
  | .vld d b o c na r => onward (vld d b o c na r)
  | .vst d b o c na r => onward (vst d b o c na r)
  | .vlds d b o r => onward (vlds d b o r)
  | .vsts d b o r => onward (vsts d b o r)
  | .gst d b o c r => onward (gst d b o c r)
  | .vatom d b o op r => onward (vatom d b o op r)
  | .vatoms d b o op r => onward (vatoms d b o op r)
  | .sld f d a i => onward (sld f d a i)
  | .sst f d a i => onward (sst f d a i)
  | .satom op sc o d a b => onward (satom op sc o d a b)
  | .meldLdt y => onward (meldLdt y)
  | .tcopy b y => onward (tcopy b y)
  | .tcopyY b y c => tcopyY b y c
  | .afence d => onward fun s _ _ w => (afence d s w).map fun w1 => (s, w1)
  | .await d n => await d n
  | .binit c y => onward (binit c y)
  | .barv y c => onward (barv y c)
  | .bwait d y q => bwait d y q
  | .mma d a b f => onward (matrixMultiply false (.mma d a b f) d a b f)
  | .mmag d a b f => onward (matrixMultiply true (.mmag d a b f) d a b f)
  | .accz y => onward (accz y)
  | .accld b m a y => onward (accld b m a y)
  | .accst b m a y => onward (accst b m a y)
  | .accstR d y => onward (accstR d y)
  | .rstat d y r => onward (rstat d y r)
  | .spawn x y => onward (spawn x y)
  | .spawno x y sb => onward (spawno x y sb)
  | .launch x => onward (launchGrids x)
  | .qappend x y => qappend x y
  | .qappendTry x y p => onward (qappendTry x y p)
  | .qpop x y v c => qpop x y v c
  | .qdetOwn q => qdetOwn q
  | .coll b y => onward (coll b y)
  | .exit => onward fun s _ env w => (exit env w).map fun w1 => (s, w1)
  | .bar => bar
  | .cbar => cbar
  | .fence sc o => onward (fence sc o)
  | .rfence a sc b o => onward (rfence a sc b o)
  | .sleep i => onward (sleep i)
  | _ => fun s _ _ w => .ok (s, w, .after 4)

/-! ### The translations of an instruction (R286, R288) -/

/-- The accesses to global memory and the private window that an instruction of a warp makes: lane, address, size and kind. -/
def accessesOf (w : Warp) (i : Instr) : List (Nat × DWord × Nat × AccessKind) :=
  let ls := lanesOf w.width w.executing
  let vec (b o : Nat) (k : AccessKind) : List (Nat × DWord × Nat × AccessKind) := ls.map fun l => (l, w.address b o l, memSize w.typ, k)
  match i with
  | .vld _ b o _ _ _ => vec b o .read
  | .vst _ b o _ _ _ => vec b o .write
  | .gst _ b o _ _ => vec b o .write
  | .vatom _ b o _ _ => vec b o .readWrite
  | .vspl _ n => ls.map fun l => (l, w.slot n, 4, .write)
  | .vfil _ n => ls.map fun l => (l, w.slot n, 4, .read)
  | .sld f _ a n => [(w.lowestLive, w.scal a + sextAddr n, (LoadSize.shape f).1, .read)]
  | .sst f _ a n => (lanesOf w.width w.live).map fun l => (l, w.scal a + sextAddr n, StoreSize.bytes f, .write)
  | .satom _ _ _ _ a _ => [(w.lowestLive, w.scal a, 8, .readWrite)]
  | .meldLdt y => [(w.lowestLive, w.scal y, 64, .read)]
  | .spawno _ _ sb => [(w.lowestLive, w.scal sb, 8, .readWrite)]
  | .launch x => ls.map fun l => (l, w.packetAddr x l, 64, .read)
  | .pref a _ n => [(w.lowestLive, w.scal a + sextAddr (n * 128), 1, .read)]
  | _ => []

/-- Whether the accesses of an instruction may lie in the private window: not those that are performed at a home, and no prefetch (R204, Table 6.1). -/
def usesWindow : Instr → Bool
  | .gst .. | .satom .. | .spawno .. | .pref .. => false
  | _ => true

/-- The state in which an instruction of a warp is executed: its translations are in the caches. -/
def State.translated (s : State) (w : Warp) (i : Instr) : State :=
  match s.env? w with
  | none => s
  | some env => (accessesOf w i).foldl (fun s x =>
      if x.2.1.toNat % x.2.2.1 != 0 then s
      else match placeOf env x.2.1.toNat x.2.2.1 with
      | .global => s.fillAccess env.core env.ctx x.2.1.toNat x.2.2.2
      | .priv off => if !usesWindow i then s else (privWords env x.1 off x.2.2.1).foldl (fun s p => s.fillFor env.core env.ctx p.1 x.2.2.2) s
      | .outside => s) s

/-- Whether the lanes of an instruction make accesses of their own, whose misses proceed in parallel (R288). -/
def perLane : Instr → Bool
  | .vld .. | .vst .. | .gst .. | .vatom .. | .vspl .. | .vfil .. | .launch _ => true
  | _ => false

/-- The pages, by an address and a kind, that the lanes of an instruction of a warp access and whose faults are to be served. -/
def State.pagesAwaited (s : State) (w : Warp) (i : Instr) : List (Nat × AccessKind) :=
  match s.env? w with
  | none => []
  | some env => if !perLane i then [] else ((accessesOf w i).filterMap fun x =>
      match (if usesWindow i then resolve s env (w.lane x.1) x.1 x.2.1 x.2.2.1 x.2.2.2 else resolveOutside s env (w.lane x.1) x.2.1 x.2.2.1 x.2.2.2) with
      | .error (.translation _ va k) => some (va, k)
      | _ => none).foldl (fun l p => if l.any fun q => q.1 / 2 ^ 16 == p.1 / 2 ^ 16 then l else l ++ [p]) []

/-- A warp that issues an instruction, with the pages that the instruction may have to wait for. -/
def State.awaits (s : State) (w : Warp) (i : Instr) : Warp := { w with pages := s.pagesAwaited w i }

/-- Whether a stalled instruction has no retry event of its own: an access that found a lock polls (R303). -/
def polls : Instr → Bool
  | .vld .. | .vst .. | .vlds .. | .vsts .. | .gst .. | .vatom .. | .vatoms .. | .sld .. | .sst .. | .satom .. | .meldLdt .. => true
  | _ => false

/-- Whether an instruction is a `SPAWN` or `SPAWNO`. -/
def isSpawn : Instr → Bool
  | .spawn .. | .spawno .. => true
  | _ => false

/-- Whether an instruction is an `AFENCE`. -/
def isAfence : Instr → Bool
  | .afence _ => true
  | _ => false

/-- Whether an instruction is a tensor copy. -/
def isCopy : Instr → Bool
  | .tcopy .. | .tcopyY .. => true
  | _ => false

/-- Whether an instruction enters the matrix queue. -/
def isMatrix : Instr → Bool
  | .mma .. | .mmag .. | .accz .. | .accld .. | .accst .. | .accstR .. | .rstat .. => true
  | _ => false

/-- Whether an instruction is a `LAUNCH`. -/
def isLaunch : Instr → Bool
  | .launch _ => true
  | _ => false

/-- Whether an instruction is a `COLL`. -/
def isColl : Instr → Bool
  | .coll .. => true
  | _ => false

/-- The stalled instruction of a warp. -/
def Warp.stalled (w : Warp) : Option Instr :=
  match w.status with
  | .waiting (.retry i) => some i
  | _ => none

/-- The retry of a stalled instruction of one kind: it is tried anew from its start. A deterministic launch retries at its meetings. -/
def State.retry (s : State) (k : Nat) (p : Instr → Bool) : State :=
  match tabFind s.warps k with
  | none => s
  | some w => match w.stalled with
    | some i => if p i && s.mayReturn w then (s.translated w i).issueBy k (s.awaits w i) 4 (redo i) else s
    | none => s

/-- `SPAWN_STALL_RETRY` (R185). -/
def execSpawnStallRetry (k : Nat) (s : State) : Host.Outcome State Fault Refusal := .next (s.retry k isSpawn)

/-- `AFENCE_STALL_RETRY` (R208). -/
def execAfenceStallRetry (k : Nat) (s : State) : Host.Outcome State Fault Refusal := .next (s.retry k isAfence)

/-- `TCOPY_STALL_RETRY` (R218). -/
def execTcopyStallRetry (k : Nat) (s : State) : Host.Outcome State Fault Refusal := .next (s.retry k isCopy)

/-- `MATRIX_QUEUE_STALL_RETRY` (R228). -/
def execMatrixQueueStallRetry (k : Nat) (s : State) : Host.Outcome State Fault Refusal := .next (s.retry k isMatrix)

/-- `LAUNCH_STALL_RETRY` (R369). -/
def execLaunchStallRetry (k : Nat) (s : State) : Host.Outcome State Fault Refusal := .next (s.retry k isLaunch)

/-- `COLL_STALL_RETRY` (R417). -/
def execCollStallRetry (k : Nat) (s : State) : Host.Outcome State Fault Refusal := .next (s.retry k isColl)

/-! ### Waits that end (R116, R117, R162, R182, R189, R268) -/

/-- `INSTRUCTION_REPLAY` (R162): a warp whose translation has been serviced issues its instruction anew. -/
def execInstructionReplay (k : Nat) (s : State) : Host.Outcome State Fault Refusal :=
  s.onWarp k fun w => match w.status with
    | .waiting (.translation _ _ _ true) => s.putWarp k { w with status := .ready }
    | _ => s

/-- `SLEEP_EXPIRY` (R117). -/
def execSleepExpiry (k : Nat) (s : State) : Host.Outcome State Fault Refusal :=
  s.onWarp k fun w => match w.status with
    | .waiting (.sleep t) => if t ≤ s.clock then s.putWarp k { w with status := .ready } else s
    | _ => s

/-- The clocks of its core's island after which a ready warp that has not issued is promoted (R182, R403). -/
def promotionDelay : Nat := 4096

/-- `WARP_PROMOTION` (R182). -/
def execWarpPromotion (k : Nat) (s : State) : Host.Outcome State Fault Refusal :=
  s.onWarp k fun w =>
    if w.status == .ready && w.idleSince + s.clocksOf w.core promotionDelay ≤ s.clock then s.putWarp k { w with promoted := true } else s

/-- Whether a register write lies in some lanes; a scalar or the Pairs table always does. -/
def RegWrite.inLanes (m : Mask) : RegWrite → Bool
  | .vec l _ _ => inMask m l
  | .pred _ l _ => inMask m l
  | .scal _ _ => true
  | .pairs _ => true

/-- A warp with the writes of its pending result `n` in some lanes made; the result is gone once all its writes are (R23). -/
def Warp.arriveResult (w : Warp) (n : Nat) (m : Mask) : Warp :=
  match w.pending[n]? with
  | none => w
  | some rs =>
    let left := rs.filter fun r => !r.inLanes m
    let rest := if left.isEmpty then w.pending.take n ++ w.pending.drop (n + 1) else setNth w.pending n left
    { w.applyAll (rs.filter (RegWrite.inLanes m)) with pending := rest }

/-- `VARIABLE_LATENCY_RESULT` (R22, R23). -/
def execVariableLatencyResult (k n : Nat) (m : Mask) (s : State) : Host.Outcome State Fault Refusal :=
  s.onWarp k fun w => s.putWarp k (w.arriveResult n m)

/-- Warps that waited at a barrier go on after it. -/
def State.releaseWarps (s : State) (ks : List Nat) : State :=
  ks.foldl (fun s k => match tabFind s.warps k with
    | some w => s.resumeAfter k w 4
    | none => s) s

end Sys2Proof.Machine
end

