-- ==== Sys2Proof/Machine/Start.lean ====
section
/-! DEFINITION. Warps, teams and their resources: what a team reserves, where a warp is placed and what it starts with, retirement, stopping for pre-emption, saving and resuming (R12, R19, R39 to R42, R115, R151, R173 to R179, R187, R371, R372). -/

namespace Sys2Proof.Machine

/-! ### What a team needs (R175, R176) -/

/-- The bytes of a granule. -/
def granule : Nat := 16384

/-- The declared warps W of a team. -/
def warpsOf (d : KernelDesc) (width : Nat) : Nat := (d.threads + width - 1) / width

/-- The register bytes of one warp. -/
def warpRegBytes (d : KernelDesc) (width : Nat) : Nat := d.regs * width * 4

/-- The accumulator store of a core, in bytes. -/
def accStore : Nat := 2097152

/-- The teams per core k of a descriptor at a width (R175). -/
def teamsPerCore (d : KernelDesc) (width : Nat) : Nat :=
  let w := warpsOf d width
  let k := min (64 / w) (d.split.reg * granule / (w * warpRegBytes d width))
  if d.acc == 0 then k else min k (accStore / d.acc)

/-- The warps of a team with their keys. -/
def State.warpsOfTeam (s : State) (t : Nat) : List (Nat × Warp) := s.warps.filter fun e => e.2.team == t

/-- The warps of a team that have started and not retired (R189). -/
def State.liveWarps (s : State) (t : Nat) : List (Nat × Warp) := (s.warpsOfTeam t).filter fun e => e.2.status != .retired

/-- The teams resident on a core. -/
def State.residents (s : State) (core : Nat) : List (Nat × Team) := s.teams.filter fun e => e.2.core == core && e.2.status != .saved

/-- The amounts of Table 8.1 for a team of a launch with `n` warp slots and the registers of `m` warps: warp slots, register bytes, shared granules, log granules and
accumulator bytes. -/
def Launch.amounts (x : Launch) (n m : Nat) : Nat × Nat × Nat × Nat × Nat :=
  (n, m * warpRegBytes x.desc x.width, x.desc.split.shm / x.perCore, x.desc.split.log / x.perCore, x.desc.acc)

/-- What a team occupies on its core. The warp part is what was reserved for the declared warps, or more while spawned warps run beside them (R176, R187); a retired
warp has no slot, and keeps its registers until what it issued has completed (R115). -/
def State.occupied (s : State) (t : Nat) (tm : Team) : Nat × Nat × Nat × Nat × Nat :=
  match tabFind s.launches tm.launch with
  | none => (0, 0, 0, 0, 0)
  | some x =>
    let w := warpsOf x.desc x.width
    x.amounts (max w (s.liveWarps t).length) (max w (s.warpsOfTeam t).length)

/-- The sum of two amounts. -/
def addAmounts (a b : Nat × Nat × Nat × Nat × Nat) : Nat × Nat × Nat × Nat × Nat :=
  (a.1 + b.1, a.2.1 + b.2.1, a.2.2.1 + b.2.2.1, a.2.2.2.1 + b.2.2.2.1, a.2.2.2.2 + b.2.2.2.2)

/-- What the residents of a core occupy. -/
def State.used (s : State) (core : Nat) : Nat × Nat × Nat × Nat × Nat :=
  ((s.residents core).map fun e => s.occupied e.1 e.2).foldl addAmounts (0, 0, 0, 0, 0)

/-- The free warp slots of a core. -/
def State.freeSlots (s : State) (core : Nat) : Nat := 64 - (s.used core).1

/-- Whether amounts fit a split's capacities (Table 8.1). -/
def fits (p : Split) (u : Nat × Nat × Nat × Nat × Nat) : Bool :=
  decide (u.1 ≤ 64) && decide (u.2.1 ≤ p.reg * granule) && decide (u.2.2.1 ≤ p.shm) && decide (u.2.2.2.1 ≤ p.log)
    && decide (u.2.2.2.2 ≤ accStore)

/-- What a team brings with it to the core that it is placed on: its warps, its spawn bins and its sealed warps, which for a saved team may be more than the
declared ones, and the sets of queue registers that it owns (R188, R260, R371). -/
structure Load where
  warps : Nat
  bins : Nat
  sealed : Nat
  queues : List Nat
  deriving DecidableEq, Repr

/-- The load of a team that has not run. -/
def Launch.freshLoad (x : Launch) : Load := ⟨warpsOf x.desc x.width, 0, 0, []⟩

/-- Whether a core admits one more team of a launch with a load (R176); a core without a split can take the launch's. The bins and sealed warps of a saved
team must find room in the core's (R185), and its sets of queue registers must belong to no other team (R250; log entry 101). -/
def State.admits (s : State) (core : Nat) (x : Launch) (n : Load) : Bool :=
  let c := s.core core
  (c.split.isNone || c.split == some x.desc.split) && !c.draining
    && fits x.desc.split (addAmounts (s.used core) (x.amounts n.warps n.warps))
    && decide (c.bins.length + n.bins ≤ maxBins) && decide (c.sealed.length + n.sealed ≤ maxBins)
    && n.queues.all fun q => (c.queue q).owner.isNone

/-! ### Private segments (R151, R355) -/

/-- The bytes of a warp's segment. -/
def segmentSize (x : Launch) : Nat := x.privSize * x.width + 4096

/-- The segments in use in a context, as first byte and size. -/
def State.segments (s : State) (ctx : Nat) : List (Nat × Nat) :=
  s.warps.filterMap fun e => match s.launchOf e.2 with
    | some x => if x.ctx == ctx then some (e.2.segment.toNat, segmentSize x) else none
    | none => none

/-- The lowest free place for a segment in a context's backing region, after some further segments are taken. -/
def State.freeSegment (s : State) (x : Launch) (taken : List (Nat × Nat)) : Option Nat :=
  let c := s.context x.ctx
  let n := segmentSize x
  let used := s.segments x.ctx ++ taken
  let tries := (c.privBase :: used.map fun u => u.1 + u.2).filter fun a =>
    decide (c.privBase ≤ a) && decide (a + n ≤ c.privBase + c.privSize) && used.all fun u => decide (a + n ≤ u.1) || decide (u.1 + u.2 ≤ a)
  tries.foldl (fun m a => some (min a (m.getD a))) none

/-- Whether `n` warps of a launch can all have segments (R355). -/
def State.segmentsFor (s : State) (x : Launch) : Nat → List (Nat × Nat) → Bool
  | 0, _ => true
  | n + 1, taken => match s.freeSegment x taken with
    | some a => s.segmentsFor x n ((a, segmentSize x) :: taken)
    | none => false

/-! ### A warp's start (R19, R178, R179) -/

/-- The quarter for a new warp: the one with the fewest resident warps, the lowest-numbered on a tie (R178). Warps of `unseated` are not placed yet. -/
def State.quarterFor (s : State) (core : Nat) (unseated : List Nat) : Nat :=
  let count (q : Nat) : Nat := (s.warps.filter fun e => e.2.core == core && e.2.quarter == q && e.2.status != .retired && !unseated.contains e.1
    && match tabFind s.teams e.2.team with
      | some tm => tm.status != .saved
      | none => false).length
  (upto 4).foldl (fun best q => if count q < count best then q else best) 0

/-- The lowest free `%warpid` of a team: that of a retired warp is free (R187). -/
def State.freeWarpid (s : State) (t : Nat) : Nat :=
  let used := (s.liveWarps t).map fun e => e.2.warpid
  ((upto (used.length + 1)).find? fun i => !used.contains i).getD 0

/-- The 64-bit word `i` of an argument block (R361). -/
def Launch.argScalar (x : Launch) (i : Nat) : DWord := BitVec.ofNat 64 (fieldAt x.args (8 * i) 8)

/-- The BASE and STEP of vector register `i` (R361). -/
def Launch.argVector (x : Launch) (i : Nat) : Nat × Nat := (fieldAt x.args (0x40 + 8 * i) 4, fieldAt x.args (0x44 + 8 * i) 4)

/-- The vector inputs of the declared thread `t` (R361). -/
def Launch.inputs (x : Launch) (t : Nat) : List Word :=
  (upto 8).map fun i => BitVec.ofNat 32 ((x.argVector i).1 + t * (x.argVector i).2)

/-- The first registers of a lane. -/
def firstRegs (vals : List Word) : Tab Word := (upto vals.length).foldl (fun t i => tabPut t 0 i (nth vals i 0)) []

/-- A region over the entry inputs of a descriptor (R36, Table 18.6). -/
def entryRegion (w : Warp) (d : KernelDesc) : Region :=
  regionOf w .plain 0 false false (BitVec.ofNat 32 d.live0) (bits d.live1 31 24) (bits d.live1 23 16)
    (BitVec.ofNat 12 (bits d.live1 15 4)) (bit d.live1 3)

/-- A region that holds nothing. -/
def Region.none : Region where
  entry := 0
  kind := .plain
  retries := 0
  noback := false
  value := false
  scalars := 0
  vbase := 0
  vcount := 0
  preds := 0
  acclive := false
  tainted := false
  record := ⟨[], [], [], 0, 0, 0, [], [], [], 0, []⟩

/-- A warp as it starts (R19), before its region opens. -/
def newWarp (team warpid core quarter clock width segment : Nat) (pc : DWord) (live : Mask) (s : List DWord) (lanes : List Lane) : Warp where
  team := team
  warpid := warpid
  core := core
  quarter := quarter
  age := clock
  idleSince := clock
  promoted := false
  width := width
  pc := pc
  prev := none
  live := live
  active := live
  s := s
  p := List.replicate 12 0
  mode := 0x004F
  stack := []
  pairs := List.replicate 64 0
  meld := none
  path := 0
  lanes := lanes
  fpctl := 0
  repc := 0
  repResume := false
  repOpen := false
  gset := 0
  gref := 0
  batch := 0
  statusAcc := 0
  tcause := 0
  taddr := 0
  tlanes := 0
  tlive := 0
  trapc := 0
  handler := none
  region := Region.none
  restart := none
  commit := none
  pending := []
  latches := [none, none]
  openOps := []
  batches := []
  attached := 0
  status := .ready
  marker := false
  pushesOut := []
  segment := BitVec.ofNat 64 segment
  count := 0
  detWrites := []
  detVas := []
  detPushes := []
  detChildren := []
  detArrivals := []
  pages := []

/-- The scalar registers of a warp at its start: s0 to s7 from the arguments, s31 the initial stack pointer, 0 elsewhere (R19, R150). -/
def startScalars (x : Launch) (top : Nat) : List DWord :=
  (upto 32).map fun i => if i < 8 then x.argScalar i else if i == 31 then BitVec.ofNat 64 top else 0

/-- A thread that a warp starts with: its vector inputs and its `%iter`. -/
structure NewThread where
  regs : List Word
  iter : DWord
  deriving DecidableEq, Repr

/-- A warp started in a team with its threads in lanes 0 upwards (R19, R178, R187, R397). -/
def State.startWarp (s : State) (t : Nat) (entry : DWord) (slalom : Option DWord) (threads : List NewThread) : State :=
  match tabFind s.teams t with
  | none => s
  | some tm => match tabFind s.launches tm.launch with
    | none => s
    | some x => match s.freeSegment x [] with
      | none => s
      | some seg =>
        let warpid := s.freeWarpid t
        let draws := tabGet tm.draws warpid []
        let lanes := (upto x.width).map fun l =>
          let d := nth draws l (0, 0)
          match threads[l]? with
          | some th => { Lane.start with v := firstRegs th.regs, iter := th.iter, slalom := slalom, drawc := d.1, srdraw := d.2 }
          | none => { Lane.start with drawc := d.1, srdraw := d.2 }
        let live := allLanes (min threads.length x.width)
        let top := (s.context x.ctx).winBase + x.privSize
        let w := newWarp t warpid tm.core (s.quarterFor tm.core []) s.clock x.width seg entry live (startScalars x top) lanes
        let w1 := { w with region := entryRegion w x.desc }
        { s with nextId := s.nextId + 1, warps := tabSet s.warps s.nextId w1 }

/-- The flat id of the threads of a declared warp, with their inputs (R361). -/
def Launch.warpThreads (x : Launch) (i : Nat) : List NewThread :=
  (upto (min x.width (x.desc.threads - i * x.width))).map fun l => ⟨x.inputs (i * x.width + l), 0⟩

/-- The accumulators and shared memory of a new team are zero, its unit and banks empty (R177, R242). -/
def newTeam (launch flat core : Nat) : Team where
  launch := launch
  flat := flat
  core := core
  status := .running
  shm := []
  shmPoison := []
  acc := []
  accPoison := []
  banks := []
  active := none
  version := 0
  draws := []
  barArrived := []
  cbarArrived := []
  raced := []
  savedQueues := []
  savedBins := []
  savedSealed := []

/-- A team placed on a core: its declared warps start in ascending `%warpid` (R176 to R178). -/
def State.placeTeam (s : State) (id : Nat) (x : Launch) (flat core : Nat) : State :=
  let t := s.nextId
  let s1 : State := { s with nextId := t + 1, teams := tabSet s.teams t (newTeam id flat core) }
  (upto (warpsOf x.desc x.width)).foldl (fun s i =>
    s.startWarp t (BitVec.ofNat 64 (x.desc.code + x.desc.entry)) none (x.warpThreads i)) s1

/-! ### Retirement (R42, R115, R188) -/

/-- Whether a warp's stores, atomics and pushes have all been performed. -/
def State.performedAll (s : State) (k : Nat) (w : Warp) : Bool :=
  w.pushesOut.isEmpty && (s.unperformed w.core k).isEmpty && !(s.peers.any fun e => e.2.outstanding.any fun r => r.who == .warp k)

/-- Whether a warp's asynchronous operations, stores, pushes, remote accesses and held effects have all completed. -/
def State.settled (s : State) (k : Nat) (w : Warp) : Bool :=
  s.performedAll k w && !(s.ops.any fun e => e.2.warp == k) && !(s.collectives.any fun e => e.2.warp == k)
    && w.detChildren.isEmpty && w.detArrivals.isEmpty

/-- Whether a team still has threads: a warp, or a spawned thread in a bin or the pending queue (R188). -/
def State.teamAlive (s : State) (t : Nat) : Bool :=
  s.warps.any (fun e => e.2.team == t) || s.cores.any fun e => e.2.bins.any (fun b => b.team == t) || e.2.sealed.any fun b => b.team == t

/-- A team's retirement: its queues are freed and its reservation ends (R42, R259). -/
def State.retireTeam (s : State) (t : Nat) : State :=
  match tabFind s.teams t with
  | none => s
  | some tm =>
    let s1 := s.freeQueues tm.core t
    { s1 with teams := tabDel s1.teams t }

/-- A retired warp's resources released (R115), and its team retired with its last thread (R42). -/
def State.releaseWarp (s : State) (k : Nat) (w : Warp) : State :=
  let s1 : State := { s with warps := tabDel s.warps k }
  if s1.teamAlive w.team then s1 else s1.retireTeam w.team

/-- The place of a warp in the list order of its wave (R393): its team cluster's place in the list, its flat team id and its warp id. -/
def State.listPlace (s : State) (w : Warp) : List Nat :=
  match tabFind s.teams w.team, s.launchOf w with
  | some tm, some x => [x.waveList.length - (x.waveList.dropWhile (· != tm.flat / x.clusterSize)).length, tm.flat, w.warpid]
  | _, _ => []

/-- Whether a retired warp's release is in its turn: of the warps of a deterministic launch that retire at one meeting, the first in list order (R393); a warp whose operations
are still to be performed retires at a later one. -/
def State.retireTurn (s : State) (w : Warp) : Bool :=
  match tabFind s.teams w.team, s.launchOf w with
  | some tm, some x => x.quantum == 0 || s.warps.all fun e =>
      e.2.status != .retired || ((tabFind s.teams e.2.team).map (·.launch)) != some tm.launch || s.ops.any (fun o => o.2.warp == e.1)
        || s.collectives.any (fun c => c.2.warp == e.1) || !lexLt (s.listPlace e.2) (s.listPlace w)
  | _, _ => true

/-- `WARP_RETIRE`. -/
def execWarpRetire (k : Nat) (s : State) : Host.Outcome State Fault Refusal :=
  .next (match tabFind s.warps k with
    | some w => if w.status == .retired && s.settled k w && s.retireTurn w then s.releaseWarp k w else s
    | none => s)

/-! ### Spawned warps (R186, R187) -/

/-- The warps of a team that may run at once (R187). -/
def Launch.warpLimit (x : Launch) : Nat := if x.width == 32 then 32 else 16

/-- Whether every participant of a team's barrier has arrived (R189, R268). -/
def arrivedAll (ws : List (Nat × Warp)) (wait : Wait) (arrived : List Nat) : Bool :=
  ws.all fun e => arrived.contains e.1 && e.2.status == .waiting wait && e.2.handler.isNone

/-- Whether a team's `BAR` is to be released. -/
def State.barDue (s : State) (t : Nat) (tm : Team) : Bool :=
  !tm.barArrived.isEmpty && arrivedAll (s.liveWarps t) .bar tm.barArrived

/-- The teams of a team cluster. -/
def State.clusterTeams (s : State) (launch c n : Nat) : List (Nat × Team) :=
  s.teams.filter fun e => e.2.launch == launch && e.2.flat / c == n && e.2.status.present

/-- Whether a team cluster's `CBAR` is to be released. -/
def State.cbarDue (s : State) (launch n : Nat) : Bool :=
  match tabFind s.launches launch with
  | none => false
  | some x =>
    let ts := s.clusterTeams launch x.clusterSize n
    ts.any (fun e => !e.2.cbarArrived.isEmpty) && ts.all fun e => arrivedAll (s.liveWarps e.1) .cbar e.2.cbarArrived

/-- A team's `BAR` released: every arrived warp goes on (R189, R205). -/
def State.releaseBar (s : State) (t : Nat) : State :=
  match tabFind s.teams t with
  | none => s
  | some tm => ({ s with teams := tabSet s.teams t { tm with barArrived := [] } }).releaseWarps tm.barArrived

/-- `BAR_RELEASE`. A deterministic launch releases its barriers at its meetings (R389). -/
def execBarRelease (t : Nat) (s : State) : Host.Outcome State Fault Refusal :=
  .next (match tabFind s.teams t with
    | some tm =>
      let det := ((tabFind s.launches tm.launch).map fun x => x.quantum != 0).getD false
      if s.barDue t tm && !det then s.releaseBar t else s
    | none => s)

/-- A team cluster's `CBAR` released (R268). -/
def State.releaseCbar (s : State) (launch c n : Nat) : State :=
  let ts := s.clusterTeams launch c n
  let ks := ts.flatMap fun e => e.2.cbarArrived
  let keep (e : Nat × Team) : Nat × Team := if ts.any fun t => t.1 == e.1 then (e.1, { e.2 with cbarArrived := [] }) else e
  ({ s with teams := s.teams.map keep }).releaseWarps ks

/-- `CBAR_RELEASE`. -/
def execCbarRelease (launch n : Nat) (s : State) : Host.Outcome State Fault Refusal :=
  .next (match tabFind s.launches launch with
    | some x => if s.cbarDue launch n && x.quantum == 0 then s.releaseCbar launch x.clusterSize n else s
    | none => s)

/-- Whether a sealed warp may start now (R187). A barrier release comes before a start (R189, R268). DEDUCED: a warp for which no private segment is free waits in the pending queue,
since R187 allocates one at the start (log entry 136). -/
def State.mayStart (s : State) (core : Nat) (b : SpawnBin) : Bool :=
  match tabFind s.teams b.team with
  | none => false
  | some tm => match tabFind s.launches tm.launch with
    | none => false
    | some x =>
      let n := (s.liveWarps b.team).length
      let more (n : Nat) : Nat := if n < warpsOf x.desc x.width then 0 else 1
      let u := s.used core
      decide (n < x.warpLimit) && tm.core == core && tm.status.present
        && fits x.desc.split (u.1 + more n, u.2.1 + more (s.warpsOfTeam b.team).length * warpRegBytes x.desc x.width, u.2.2)
        && (s.freeSegment x []).isSome && !s.barDue b.team tm && !s.cbarDue tm.launch (tm.flat / x.clusterSize)

/-- The launch of a bin's team is deterministic. -/
def State.binDet (s : State) (b : SpawnBin) : Bool :=
  (((tabFind s.teams b.team).bind fun tm => tabFind s.launches tm.launch).map fun x => x.quantum != 0).getD false

/-- The index of the first element that satisfies a test. -/
def firstIndex {α : Type} (p : α → Bool) : List α → Option Nat
  | [] => none
  | x :: r => if p x then some 0 else (firstIndex p r).map (· + 1)

/-- A list without its element at an index. -/
def dropAt {α : Type} : Nat → List α → List α
  | _, [] => []
  | 0, _ :: r => r
  | n + 1, x :: r => x :: dropAt n r

/-- The `i`-th sealed warp of a core started. -/
def State.startSealed (s : State) (core i : Nat) : State :=
  let c := s.core core
  match c.sealed[i]? with
  | none => s
  | some b =>
    let s1 : State := { s with cores := tabSet s.cores core { c with sealed := dropAt i c.sealed } }
    s1.startWarp b.team b.entry b.slalom (b.threads.map fun t => ⟨t.args, t.iter⟩)

/-- The first sealed warp of a core that may start outside a deterministic launch. -/
def State.startable (s : State) (core : Nat) : Option Nat :=
  firstIndex (fun b => s.mayStart core b && !s.binDet b) (s.core core).sealed

/-- `SPAWNED_WARP_START`. -/
def execSpawnedWarpStart (core : Nat) (s : State) : Host.Outcome State Fault Refusal :=
  .next (match s.startable core with
    | some i => s.startSealed core i
    | none => s)

/-- Whether a bin's timer event is due: its time is up, or it is expired and may now be sealed (R186). Deterministic launches use no timer
(R391). -/
def State.timerDue (s : State) (core : Nat) (b : SpawnBin) : Bool :=
  !s.binDet b && (if b.expired then decide ((s.core core).sealed.length < maxBins) else decide (b.deadline ≤ s.clock))

/-- `SPAWN_TIMER_EXPIRY`: the bin is sealed, or left expired while the pending queue is full (R186). -/
def execSpawnTimerExpiry (core n : Nat) (s : State) : Host.Outcome State Fault Refusal :=
  let c := s.core core
  .next (match c.bins[n]? with
    | some b =>
      if s.timerDue core b then
        if c.sealed.length < maxBins then
          { s with cores := tabSet s.cores core { c with bins := dropAt n c.bins, sealed := c.sealed ++ [b] } }
        else { s with cores := tabSet s.cores core { c with bins := setNth c.bins n { b with expired := true } } }
      else s
    | none => s)

/-! ### Pre-emption (R39 to R41, R260, R371, R372) -/

/-- Whether a warp may be stopped at once: its region is untainted, and no irrevocable transaction or commit is in progress; a warp in its
handler is stopped once it has left it. -/
def Warp.stoppable (w : Warp) : Bool :=
  !w.region.tainted && w.handler.isNone && w.commit.isNone && !(w.lanes.any fun x => match x.tx with
    | some t => t.irrevocable
    | none => false)

/-- A lane whose transaction a pre-emption aborts (R41). -/
def Lane.preempt (x : Lane) : Lane :=
  match x.tx with
  | some _ => { x with tx := none, txCause := 6, txCode := 0 }
  | none => x

/-- A warp stopped for pre-emption (R39 to R41): its waits end without effect, its operations are cancelled, its transactions abort. -/
def State.stopWarp (s : State) (k : Nat) (w : Warp) : State :=
  let s1 := (s.cancelOps fun o => o.warp == k).releaseToken k
  let out (l : List Nat) : List Nat := l.filter (· != k)
  let s2 : State := { s1 with
    cores := s1.cores.map fun e => (e.1, { e.2 with queues := e.2.queues.map fun q => { q with requests := out q.requests } })
    teams := s1.teams.map fun e => (e.1, { e.2 with barArrived := out e.2.barArrived, cbarArrived := out e.2.cbarArrived })
    turn := if s1.turn == some k then none else s1.turn }
  let d := w.drain
  s2.putWarp k { d with
    status := .stopped, openOps := [], batches := [], restart := none, repResume := false, repOpen := false, repc := 0, prev := none, marker := false
    lanes := d.lanes.map Lane.preempt }

/-- A stop request for one warp: it stops at once where it may; a sleep ends (R39, R117). -/
def State.askStop (s : State) (k : Nat) : State :=
  match tabFind s.warps k with
  | none => s
  | some w =>
    if w.status == .retired || w.status == .stopped then s
    else if w.stoppable then s.stopWarp k w
    else match w.status with
    | .waiting (.sleep _) => s.putWarp k { w with status := .ready }
    | _ => s

/-- A pre-emption request for every team of a team cluster that is running (R39, R249). A deterministic launch stops as a whole wave at its
next meeting (R394). -/
def State.preempt (s : State) (t : Nat) : State :=
  match tabFind s.teams t with
  | none => s
  | some tm => match tabFind s.launches tm.launch with
    | none => s
    | some x =>
      let all := if x.quantum == 0 then s.clusterTeams tm.launch x.clusterSize (tm.flat / x.clusterSize)
        else s.teams.filter fun e => e.2.launch == tm.launch
      let ts := (all.filter fun e => e.2.status == .running).map (·.1)
      let s1 : State := { s with
        teams := s.teams.map fun e => if ts.contains e.1 then (e.1, { e.2 with status := .stopping s.clock }) else e }
      if x.quantum != 0 then s1
      else (ts.flatMap fun t => (s1.warpsOfTeam t).map (·.1)).foldl State.askStop s1

/-- Whether a warp of a deterministic launch waits with an instruction that a meeting could not complete (R389). -/
def Warp.pends (w : Warp) : Bool :=
  match w.status with
  | .waiting (.append ..) | .waiting (.pop _) | .waiting (.await ..) | .waiting (.bwait ..) | .waiting .bar | .waiting .cbar
  | .waiting (.freeQueue _) | .waiting (.tcopyY ..) => true
  | .waiting (.retry i) => !polls i
  | _ => false

/-- The limit of R39 and R394. -/
def Launch.stopLimit (x : Launch) : Nat := 32768 + 64 * x.quantum

/-- `PREEMPTION_OVERRUN`: the team is killed and its launch aborted (R39, Table 8.4). -/
def State.overrunDue (s : State) (t : Nat) : Option (Nat × Warp) :=
  match tabFind s.teams t with
  | none => none
  | some tm => match tm.status, tabFind s.launches tm.launch with
    | .stopping since, some x =>
      if since + x.stopLimit < s.clock then (s.liveWarps t).find? fun e => e.2.status != .stopped else none
    | _, _ => none

/-- `PREEMPTION_OVERRUN` (R39). A team that has not reached stopping points within the limit is killed with cause 0x12. -/
def execPreemptionOverrun (t : Nat) (s : State) : Host.Outcome State Fault Refusal :=
  .next (match s.overrunDue t with
    | some (_, w) => s.abortLaunch w 0x12 false false false w.pc 0 w.active
    | none => s)

/-- A queue's record of Table 12.1. -/
def QueueRegs.bytes (q : QueueRegs) : List Byte :=
  leBytes 4 q.base ++ leBytes 1 q.esize ++ leBytes 1 ((if q.opened then 1 else 0) + if q.armed then 2 else 0) ++ leBytes 2 q.count
    ++ leBytes 2 q.head ++ leBytes 2 q.filled ++ leBytes 2 q.free ++ leBytes 2 q.prod

/-- The queue that a record describes, owned by a team. -/
def QueueRegs.ofBytes (t : Nat) (bs : List Byte) : QueueRegs where
  owner := some t
  base := fieldAt bs 0 4
  esize := fieldAt bs 4 1
  opened := bit (fieldAt bs 5 1) 0
  armed := bit (fieldAt bs 5 1) 1
  count := fieldAt bs 6 2
  head := fieldAt bs 8 2
  filled := fieldAt bs 0xA 2
  free := fieldAt bs 0xC 2
  prod := fieldAt bs 0xE 2
  requests := []

/-- What the save image keeps of a warp: its region record; every other register reads 0 after the resumption (R40, R371). A lane keeps `%iter` and its hidden
reference to the Slalom object. DEDUCED: R40 and R371 do not list them, and a re-executed iteration could not commit in its place without them (R313, R314; log entry 114). In a
deterministic launch the whole state is kept (R394) but for what R371 says is not saved. -/
def Warp.saved (w : Warp) : Warp :=
  let r := w.region.record
  { w with
    pc := w.region.entry
    live := r.live
    active := r.active
    s := r.s
    p := r.p
    mode := r.mode
    stack := r.stack
    pairs := r.pairs
    meld := none
    path := 0
    fpctl := r.fpctl
    gset := 0
    gref := 0
    batch := 0
    statusAcc := 0
    tcause := 0
    taddr := 0
    tlanes := 0
    tlive := 0
    trapc := 0
    pending := []
    latches := [none, none]
    lanes := (upto w.lanes.length).map fun l => { w.lane l with
      v := nth r.v l [], drawc := nth r.drawc l 0, srdraw := nth r.srdraw l 0, aborts := 0, parked := none, storeLog := [] } }

/-- What the save image keeps of a warp of a deterministic launch: its whole state (R394), but for `%gset`, `%gref`, `%batch` and the status accumulator, which read 0
after the resumption (R371); its latches are clear. -/
def Warp.savedWhole (w : Warp) : Warp :=
  { w with gset := 0, gref := 0, batch := 0, statusAcc := 0, openOps := [], batches := [], latches := [none, none] }

/-- Whether a team has been asked to stop where its warps stop each on its own, or has stopped with its wave at a meeting (R39, R394). -/
def TeamStatus.stops : TeamStatus → Bool → Bool
  | .stopping _, det => !det
  | .halted, det => det
  | _, _ => false

/-- Whether a warp keeps its team's save image from being written no longer: it has stopped, at the meeting or on its own, or exited with its operations complete (R211), and its
stores, atomics and pushes have completed (R371). A collective is not waited for, an exited warp's included (R420). -/
def State.restsForSave (s : State) (det : Bool) (k : Nat) (w : Warp) : Bool :=
  s.performedAll k w && (w.status == .stopped || (w.status == .retired && !(s.ops.any fun e => e.2.warp == k)) || (det && w.status != .retired))

/-- Whether a team's save image can be written: its team cluster has been stopped, in a deterministic launch at a meeting (R394), and no warp of it keeps the image waiting
(R191, R249, R371). -/
def State.saveDue (s : State) (t : Nat) : Bool :=
  match tabFind s.teams t with
  | none => false
  | some tm => match tabFind s.launches tm.launch with
    | none => false
    | some x => (s.clusterTeams tm.launch x.clusterSize (tm.flat / x.clusterSize)).all fun e =>
        e.2.status.stops (x.quantum != 0) && (s.warpsOfTeam e.1).all fun w => s.restsForSave (x.quantum != 0) w.1 w.2

/-- One team saved (R188, R260, R371): its queues and spawn records go into the image, and its core's resources are released. A warp that is stopped has left the
arrival masks; one of a deterministic launch that is pending at `BAR` or `CBAR` stays arrived, as part of its pending instruction (R394). -/
def State.saveTeam (s : State) (x : Launch) (t : Nat) : State :=
  match tabFind s.teams t with
  | none => s
  | some tm =>
    let c := s.core tm.core
    let mine (b : SpawnBin) : Bool := b.team == t
    let owned := (upto 16).filter fun q => (c.queue q).owner == some t
    let c1 := { c with
      bins := c.bins.filter fun b => !mine b, sealed := c.sealed.filter fun b => !mine b
      queues := (upto 16).map fun q => if owned.contains q then QueueRegs.empty else c.queue q }
    let tm1 := { tm with
      status := .saved
      savedQueues := owned.map fun q => (q, (c.queue q).bytes)
      savedBins := c.bins.filter mine, savedSealed := c.sealed.filter mine }
    let s1 : State := { s with
      teams := tabSet s.teams t tm1, cores := tabSet s.cores tm.core c1
      warps := s.warps.map fun e => if e.2.team == t && e.2.status != .retired then (e.1, if x.quantum == 0 then e.2.saved else e.2.savedWhole)
        else e }
    s1.record (dieOf tm.core) 2 x.ctx tm.core 0 x.number tm.flat

/-- `TEAM_SAVE`: the team cluster's teams are saved together (R249, R371). -/
def execTeamSave (t : Nat) (s : State) : Host.Outcome State Fault Refusal :=
  .next (match tabFind s.teams t with
    | some tm => match tabFind s.launches tm.launch with
      | some x =>
        if s.saveDue t then
          ((s.clusterTeams tm.launch x.clusterSize (tm.flat / x.clusterSize)).map (·.1)).foldl (fun s t => s.saveTeam x t) s
        else s
      | none => s
    | none => s)

/-- Saved warps placed on their new core in ascending `%warpid`, each on the quarter with the fewest warps placed before it (R40, R178, R179). -/
def State.seatWarps (s : State) (core : Nat) : List Nat → State
  | [] => s
  | k :: r => match tabFind s.warps k with
    | none => s.seatWarps core r
    | some w =>
      let st : Status := if w.status == .stopped then .ready else w.status
      let q := s.quarterFor core (k :: r)
      (s.putWarp k { w with core := core, quarter := q, age := s.clock, idleSince := s.clock, promoted := false, status := st }).seatWarps core r

/-- The warps of a team in ascending `%warpid`. -/
def State.byWarpid (s : State) (t : Nat) : List Nat :=
  (s.warpsOfTeam t).foldl (fun l e => ins e.2.warpid e.1 l) [] |>.map (·.2)
where
  /-- A warp placed before the first of larger `%warpid`. -/
  ins (n k : Nat) : List (Nat × Nat) → List (Nat × Nat)
    | [] => [(n, k)]
    | e :: r => if n < e.1 then (n, k) :: e :: r else e :: ins n k r

/-- A saved team resumed on a core (R372): its queues, bins and warps return, with its spawn timers starting anew (R188). -/
def State.resumeTeam (s : State) (x : Launch) (t core : Nat) : State :=
  match tabFind s.teams t with
  | none => s
  | some tm =>
    let c := s.core core
    let fresh (b : SpawnBin) : SpawnBin := { b with started := s.clock, deadline := s.clock + x.spawnTimer, expired := false }
    let c1 := { tm.savedQueues.foldl (fun c e => c.setQueue e.1 (QueueRegs.ofBytes t e.2)) c with
      bins := c.bins ++ tm.savedBins.map fresh, sealed := c.sealed ++ tm.savedSealed }
    let tm1 := { tm with core := core, status := .running, savedQueues := [], savedBins := [], savedSealed := [] }
    let s1 : State := { s with teams := tabSet s.teams t tm1, cores := tabSet s.cores core c1 }
    s1.seatWarps core (s1.byWarpid t)

end Sys2Proof.Machine
end

