-- ==== Sys2Proof/Machine/Coherence.lean ====
section
/-! DEFINITION. The coherence protocol of a die: what a line's home does with each request (Table 13.2), what an L1 does with each message (Table 13.1), pushes (Table 12.5), and L2 fills and evictions (R263 to R280, R350). Values lie in memory; the protocol moves copies, masks, permissions and versions. -/

namespace Sys2Proof.Machine

/-! ### Directory entries -/

/-- Whether a core is in the record of sharers. -/
def DirEntry.isSharer (d : DirEntry) (c : Nat) : Bool :=
  match d.coarse with
  | some m => m.getLsbD (c / 8)
  | none => d.sharers.contains c

/-- The record with a sharer added: a fifth one makes it coarse (R275). -/
def DirEntry.addSharer (d : DirEntry) (c : Nat) : DirEntry :=
  match d.coarse with
  | some m => { d with coarse := some (m ||| BitVec.ofNat 128 (2 ^ (c / 8))) }
  | none =>
    if d.sharers.contains c then d
    else if d.sharers.length < 4 then { d with sharers := d.sharers ++ [c] }
    else { d with sharers := [], coarse := some ((d.sharers ++ [c]).foldl (fun m x => m ||| BitVec.ofNat 128 (2 ^ (x / 8))) 0) }

/-- The record of some sharers alone. -/
def DirEntry.only (d : DirEntry) (cs : List Nat) : DirEntry := cs.foldl DirEntry.addSharer { d with sharers := [], coarse := none }

/-- The record without a sharer that holds no copy; a coarse record keeps its cluster (R275). -/
def DirEntry.dropSharer (d : DirEntry) (c : Nat) : DirEntry :=
  let left := d.sharers.filter (· != c)
  { d with sharers := left, st := if d.st == .s && d.coarse.isNone && left.isEmpty then .i else d.st }

/-- The clocks of an upgrade window, and the upgrades in it that make a line contended (R276). -/
def upgradeWindow : Nat := 4096
/-- The upgrades within the window that make a line contended (R276). -/
def upgradeLimit : Nat := 9

/-- An upgrade counted (R276). -/
def DirEntry.countUpgrade (d : DirEntry) (clock : Nat) : DirEntry :=
  let n := if d.upgrades == 0 || d.window + upgradeWindow < clock then 0 else d.upgrades
  let start := if n == 0 then clock else d.window
  if n + 1 == upgradeLimit then { d with contended := true, upgrades := 1, window := clock }
  else { d with upgrades := n + 1, window := start }

/-- Whether a core holds a privatised copy. -/
def DirEntry.holds (d : DirEntry) (c : Nat) : Bool := d.holders.any fun h => h.1 == c

/-! ### Messages and the order of arrival (R273, R282) -/

/-- A message to or from a core about a line. -/
def State.message? (s : State) (k : MsgKind) (core line : Nat) : Option Msg :=
  s.net.find? fun m => m.kind == k && m.core == core && m.line == line

/-- A message taken off the network, or off the requests that have arrived. -/
def State.take (s : State) (m : Msg) : State := { s with net := s.net.erase m, arrived := s.arrived.erase m }

/-- Whether a message is a request to a home (R282). -/
def MsgKind.isRequest : MsgKind → Bool
  | .gets | .getm | .upg | .maskExt | .putm | .putmm | .homeWrite => true
  | _ => false

/-- The next request for a line that a test accepts: the first that has arrived for the line, or, where none has, one that arrives now. -/
def State.nextRequest (s : State) (line : Nat) (f : Msg → Bool) : Option Msg :=
  match s.arrived.find? fun m => m.line == line with
  | some m => if f m then some m else none
  | none => s.net.find? fun m => m.line == line && f m

/-- The bank of a line in its slice (R271). -/
def bankOfLine (line : Nat) : Nat := Config.l2Bank line % 4

/-- Whether a line's home can serve a request: the line is not busy, and no fill blocks its set (R273). -/
def State.idleLine (s : State) (line : Nat) : Bool := (s.dir line).action.isNone && !s.setBlocked line

/-- The entries of the bypass queue of a bank of a slice (R273). -/
def bypassEntries : Nat := 16

/-- Whether a request may arrive at its slice: its line's turn is its own, or it waits for a blocked set or a busy line, or its bank's bypass queue has an entry free (R273). -/
def State.mayArrive (s : State) (m : Msg) : Bool :=
  !s.idleLine m.line || decide ((s.arrived.filter fun n =>
    homeOf (n.line * 128) == homeOf (m.line * 128) && bankOfLine n.line == bankOfLine m.line && s.idleLine n.line).length < bypassEntries)

/-- A request arrives at its slice, where it keeps its place. -/
def State.arriveRequest (s : State) (m : Msg) : State :=
  if s.net.contains m && m.kind.isRequest && s.mayArrive m then { s with net := s.net.erase m, arrived := s.arrived ++ [m] } else s

/-- Messages of one kind sent to some cores. -/
def State.sendAll (s : State) (k : MsgKind) (line : Nat) (cs : List Nat) : State :=
  cs.foldl (fun s c => s.send (mkMsg k c line 0 .normal)) s

/-- The versions that a home sends with a line (R278). -/
def State.lineVers (s : State) (line : Nat) : List (BitVec 40) := (s.l2Line line).vers

/-- A request that waits for its line's fill: it keeps its place among the requests of the line, and the line is asked of the MSC unless it is on its way (R271, R273). -/
def State.awaitFill (s : State) (m : Msg) : State :=
  (if s.arrived.contains m then s else { s with net := s.net.erase m, arrived := s.arrived ++ [m] }).askMsc m.line m.cls true false

/-- A request served at its line's home. A line that is not resident is first asked of the MSC (R271), unless the request allocates nothing there (Table 9.2) or only returns bytes, and a
busy line or blocked set makes it wait. -/
def State.serve (s : State) (k : MsgKind) (core line : Nat) (f : State → Msg → DirEntry → State) : Host.Outcome State Fault Refusal :=
  .next (match s.nextRequest line fun m => m.kind == k && m.core == core with
    | none => s
    | some m =>
      if !s.idleLine line then s
      else if k == .putm || k == .putmm then f s m (s.dir line)
      else if (tabFind s.l2 line).isNone && !m.na then s.awaitFill m
      else f (s.l2Access line m.cls m.na false) m (s.dir line))

/-- A line made busy: messages to some cores, whose acknowledgements are awaited before an action. -/
def State.await (s : State) (line : Nat) (d : DirEntry) (k : MsgKind) (cs : List Nat) (a : HomeAction) : State :=
  (s.setDir line { d with awaiting := cs, action := some a }).sendAll k line cs

/-- A grant of a line to a core, with the line's versions and, for a privatised copy, its mask (R278). -/
def State.grant (s : State) (k : MsgKind) (c line : Nat) (mask : BitVec 128) (flag : Bool) (cls : CacheClass) : State :=
  s.send { mkMsg k c line mask cls with flag := flag, vers := s.lineVers line }

/-- A copy of a line granted: state M for one core. -/
def State.grantM (s : State) (line : Nat) (d : DirEntry) (k : MsgKind) (c : Nat) : State :=
  (s.setDir line { d.toI with st := .m, sharers := [c] }).grant k c line 0 false .normal

/-- A merge begun (R277): a request that touches a byte of a holder clears the contended flag and the count. -/
def State.merge (s : State) (line : Nat) (d : DirEntry) (overlap : Bool) : State :=
  let d1 := if overlap then { d with contended := false, upgrades := 0 } else d
  s.await line d1 .mergeRecall (d.holders.map (·.1)) .toI

/-! ### Requests at the home (Table 13.2) -/

/-- `GETS` (R279). A request for the bytes of one load alone takes no copy: the message's flag says so. Data for a request that a push has satisfied says so too (R280). -/
def execGets (core line : Nat) (s : State) : Host.Outcome State Fault Refusal :=
  s.serve .gets core line fun s m d =>
    let data (s : State) : State :=
      let s1 := s.take m
      s1.send { mkMsg .data core line (if m.flag then m.mask else 0) m.cls with flag := m.flag, targets := m.targets, vers := s1.lineVers line }
    match d.st with
    | .i => data (if m.flag then s else s.setDir line { d.toI with st := .s, sharers := [core] })
    | .s => data (if m.flag then s else s.setDir line (d.addSharer core))
    | .m => if m.flag then s.await line d .recallS d.sharers .toS else (s.take m).await line d .recallS d.sharers (.data core)
    | .p =>
      if m.mask &&& d.otherMask core == 0 then
        let s1 := s.take m
        s1.send { mkMsg .data core line m.mask m.cls with flag := true, targets := m.targets, vers := s1.lineVers line }
      else s.merge line d true

/-- A request for an owned copy with its mask, as `GETM` or an upgrade from a core without a copy (Table 13.2, R276). -/
def State.serveOwn (s : State) (m : Msg) (d : DirEntry) (core line : Nat) (counted : Bool) : State :=
  match d.st with
  | .i => (s.take m).grantM line d .datam core
  | .s =>
    let others := d.copies.filter (· != core)
    let d1 := if others.isEmpty || !counted then d else d.countUpgrade s.clock
    if others.isEmpty then (s.take m).grantM line d1 .datam core else (s.take m).await line d1 .inv others (.datam core)
  | .m =>
    let d1 := if d.sharers == [core] || !counted then d else d.countUpgrade s.clock
    let owner := (d.sharers.head?).getD core
    let written := ((s.l1Line owner line).map (·.mask)).getD 0
    if d1.contended && owner != core && m.mask &&& written == 0 then
      (s.take m).await line d1 .recallP [owner] (.privatise core m.mask)
    else (s.take m).await line d1 .recallI [owner] (.datam core)
  | .p =>
    let d1 := if counted then d.countUpgrade s.clock else d
    if d.holds core then s.merge line d1 (m.mask &&& d.otherMask core != 0)
    else if m.mask &&& d.otherMask core != 0 then s.merge line d1 true
    else if 4 ≤ d.holders.length then s.merge line d1 false
    else ((s.take m).setDir line { d1 with holders := d1.holders ++ [(core, m.mask)] }).grant .datam core line m.mask true m.cls

/-- `GETM` (R276, R279). -/
def execGetm (core line : Nat) (s : State) : Host.Outcome State Fault Refusal :=
  s.serve .getm core line fun s m d => s.serveOwn m d core line true

/-- `UPG` (R279): from a sharer an acknowledgement suffices, and from any other core it is served as a GetM. -/
def execUpg (core line : Nat) (s : State) : Host.Outcome State Fault Refusal :=
  s.serve .upg core line fun s m d =>
    if d.st == .s && d.isSharer core then
      let others := d.copies.filter (· != core)
      if others.isEmpty then (s.take m).grantM line d .upgack core
      else (s.take m).await line (d.countUpgrade s.clock) .inv others (.upgack core)
    else s.serveOwn m d core line true

/-- `MASK_EXTENSION` (R279): granted to a holder whose new bytes no other holder has written. -/
def execMaskExtension (core line : Nat) (mask : BitVec 128) (s : State) : Host.Outcome State Fault Refusal :=
  s.serve .maskExt core line fun s m d =>
    if m.mask != mask then s
    else if d.st == .p && d.holds core then
      if mask &&& d.otherMask core == 0 then
        let grow (h : Nat × BitVec 128) : Nat × BitVec 128 := if h.1 == core then (core, h.2 ||| mask) else h
        ((s.take m).setDir line { d with holders := d.holders.map grow }).grant .upgack core line mask true m.cls
      else s.merge line d true
    else s.serveOwn m d core line true

/-- `PUTM` (R279): the owner's write-back, whose sectors take fresh versions; from any other core it is stale. -/
def execPutm (core line : Nat) (s : State) : Host.Outcome State Fault Refusal :=
  s.serve .putm core line fun s m d =>
    let s1 := if d.st == .m && d.sharers == [core] then (s.freshenMask line m.mask).setDir line d.toI else s
    (s1.take m).send (mkMsg .putack core line 0 .normal)

/-- `PUTMM` (R279): a holder's bytes return, with fresh versions, and it is removed; from any other core it is stale. -/
def execPutmm (core line : Nat) (s : State) : Host.Outcome State Fault Refusal :=
  s.serve .putmm core line fun s m d =>
    if d.st == .p && d.holds core then
      let left := d.holders.filter fun h => h.1 != core
      ((s.freshenMask line m.mask).take m).setDir line (if left.isEmpty then d.toI else { d with holders := left })
    else (s.take m).send (mkMsg .putack core line 0 .normal)

/-- The pushes that follow a home write by `GST` (R265). -/
def State.pushLine (s : State) (m : Msg) (d : DirEntry) : State :=
  let s1 := s.take m
  if m.targets.isEmpty then s1
  else
    let out := m.targets.map fun c => { m with kind := .push, core := c, targets := [], data := [], vers := s1.lineVers m.line }
    { s1.setDir m.line { d with awaiting := m.targets, action := some .pushes } with net := s1.net ++ out }

/-- The stores of a home write performed, the sectors that they touch with fresh versions (R272). -/
def State.writeStores (s : State) (ws : List WaitingStore) : State :=
  ws.foldl (fun s w => (s.writeBytes w.pa w.bytes).freshenAll w.pa w.bytes.length) s

/-- `HOME_WRITE` (R262, R279): the copies are called in first, but for the S copies of the cores that the line will be pushed to, whose bytes the push replaces (Table 12.5, row 4); then
the stores are performed, and the pushes of a `GST` follow. It waits for a lock on a sector that it writes (R303). -/
def execHomeWrite (line : Nat) (mask : BitVec 128) (s : State) : Host.Outcome State Fault Refusal :=
  .next (match s.nextRequest line fun m => m.kind == .homeWrite && m.mask == mask with
    | none => s
    | some m =>
      let d := s.dir line
      let away := d.copies.filter fun c => !m.targets.contains c
      if !s.idleLine line || m.data.any (fun w => (s.lockFor w.warp w.pa).isSome) then s
      else if d.st == .m then s.await line d .recallI d.sharers .toI
      else if d.st == .p then s.merge line d (mask &&& d.otherMask 1024 != 0)
      else if d.st == .s && !away.isEmpty then
        s.await line (d.only (d.copies.filter m.targets.contains)) .inv away (if d.copies.any m.targets.contains then .toS else .toI)
      else if m.data.isEmpty && m.targets.isEmpty then s.take m
      else if (tabFind s.l2 line).isNone && !m.na then s.awaitFill m
      else ((s.l2Access line m.cls m.na (!m.data.isEmpty)).writeStores m.data).pushLine m d)

/-! ### Acknowledgements at the home -/

/-- What a home does once the last acknowledgement of a line has come. A privatisation whose owner has come to write the bytes asked for is a merge instead (R276, R277). -/
def State.homeAct (s : State) (line : Nat) (d : DirEntry) (a : HomeAction) (returned : BitVec 128) : State :=
  let idle := { d with awaiting := [], action := none }
  match a with
  | .data c => (s.setDir line { idle.addSharer c with st := .s }).grant .data c line 0 false .normal
  | .datam c => s.grantM line idle .datam c
  | .upgack c => s.grantM line idle .upgack c
  | .privatise c m =>
    let owner := (d.sharers.head?).getD c
    if returned &&& m == 0 then
      (s.setDir line { idle with st := .p, sharers := [], holders := [(owner, returned), (c, m)] }).grant .datam c line m true .normal
    else s.await line { idle with contended := false, upgrades := 0 } .mergeRecall [owner] (.datam c)
  | .toI => s.setDir line idle.toI
  | .toS => s.setDir line { idle with st := .s }
  | .pushes => s.setDir line idle

/-- `PROTOCOL_ACK` (R272, R273, R279): an acknowledgement of an invalidation or a recall reaches the home; the sectors of the bytes that it returns take fresh versions. -/
def execProtocolAck (core line : Nat) (s : State) : Host.Outcome State Fault Refusal :=
  .next (match s.message? .ack core line with
    | none => s
    | some m =>
      let d := s.dir line
      let d1 := { d with awaiting := d.awaiting.filter (· != core) }
      let s1 := (s.take m).freshenMask line m.mask
      match d.action with
      | none => s1
      | some a => if d1.awaiting.isEmpty then s1.homeAct line d1 a m.mask else s1.setDir line d1)

/-! ### Messages at the L1 (Table 13.1) -/

/-- What an L1 does with a message about a line: the event takes the message and `f` acts on the copy, if there is one. -/
def State.deliver (s : State) (k : MsgKind) (core line : Nat) (f : State → Msg → Option L1Line → State) :
    Host.Outcome State Fault Refusal :=
  .next (match s.message? k core line with
    | none => s
    | some m => f (s.take m) m (s.l1Line core line))

/-- A copy in S for a core's waiting loads; stores that wait in it ask for an upgrade. -/
def State.installS (s : State) (core line : Nat) (x : L1Line) (vers : List (BitVec 40)) : State :=
  let y := { x with mask := 0, want := 0, vers := vers }
  if x.waiting.isEmpty then s.setL1 core line { y with st := .s }
  else (s.setL1 core line { y with st := .sm, untouched := false }).send (mkMsg .upg core line (storeMask x.waiting) x.cls)

/-- `DATA` (R278): a copy in S, or with the flag the bytes of one load alone. In IS_I it serves the loads that waited at the invalidation, and those issued since ask again. Data for a
request that a push has satisfied is discarded, whatever the line's state. -/
def execData (core line : Nat) (s : State) : Host.Outcome State Fault Refusal :=
  s.deliver .data core line fun s m o => match o with
    | none => s
    | some x => if !m.targets.isEmpty then s else match x.st with
      | .is | .im => if m.flag then s.reask core line { x with want := 0 } else s.installS core line x m.vers
      | .isI => s.reask core line x
      | .mmWait => if m.flag then s.performStores core line { x with st := .mm, want := 0 } else s
      | _ => s

/-- `DATAM` (R278): a copy in M, or in Mm where the line is privatised; the waiting stores are performed, and their bytes are its written mask. -/
def execDatam (core line : Nat) (s : State) : Host.Outcome State Fault Refusal :=
  s.deliver .datam core line fun s m o => match o with
    | none => s
    | some x => match x.st with
      | .im | .sm | .mmWait =>
        s.performStores core line { x with st := if m.flag then .mm else .m, mask := m.mask, want := 0, vers := m.vers, untouched := false }
      | _ => s

/-- `UPGACK` (R278): the waiting stores are performed; a mask extension adds its bytes to the mask. -/
def execUpgack (core line : Nat) (s : State) : Host.Outcome State Fault Refusal :=
  s.deliver .upgack core line fun s m o => match o with
    | none => s
    | some x => match x.st with
      | .sm => s.performStores core line { x with st := .m, mask := 0, want := 0 }
      | .mmWait => s.performStores core line { x with st := .mm, mask := x.mask ||| m.mask, want := 0 }
      | _ => s

/-- `PUTACK` (R278): the line leaves the L1; accesses that came meanwhile ask for it. -/
def execPutack (core line : Nat) (s : State) : Host.Outcome State Fault Refusal :=
  s.deliver .putack core line fun s _ o => match o with
    | some x => if x.st == .mi then s.reask core line x else s
    | none => s

/-- Whether a line's owned copy has waiting stores that may be performed or asked for, the locks that they met being gone (R303). -/
def State.storesDue (s : State) (x : L1Line) : Bool :=
  (x.st == .m || x.st == .mm) && x.waiting.any fun w => (s.lockFor w.warp w.pa).isNone

/-- The waiting stores of an owned copy performed once no lock holds them back. -/
def State.retryStores (s : State) (core line : Nat) : State :=
  match s.l1Line core line with
  | some x => if s.storesDue x then s.performStores core line x else s
  | none => s

/-- An acknowledgement sent to a line's home, with the mask of the bytes returned. -/
def State.acknowledge (s : State) (core line : Nat) (mask : BitVec 128) : State := s.send (mkMsg .ack core line mask .normal)

/-- `INV` (R278). -/
def execInv (core line : Nat) (s : State) : Host.Outcome State Fault Refusal :=
  s.deliver .inv core line fun s _ _ => (s.l1Inv core line).acknowledge core line 0

/-- Whether a recall waits at a core for a grant of the line that it has overtaken. -/
def State.granting (s : State) (core line : Nat) : Bool := (s.message? .datam core line).isSome || (s.message? .upgack core line).isSome

/-- A recall at an L1: it returns the mask of the copy, and of a write-back that it has sent and that is on its way, and `f` acts on the copy. One that has overtaken the grant of the
copy waits for it. DEDUCED: Table 13.1 has no row for a recall in IM or SM (log entry 34). -/
def State.recalled (s : State) (k : MsgKind) (core line : Nat) (f : State → State) : Host.Outcome State Fault Refusal :=
  if s.granting core line then .next s
  else s.deliver k core line fun s _ o =>
    let back := ((s.net ++ s.arrived).filter fun m => m.kind == .putmm && m.core == core && m.line == line).foldl (fun m x => m ||| x.mask) 0
    (f s).acknowledge core line (returnedOf o ||| back)

/-- `RECALL_S` (R278): the owner returns its bytes and keeps a copy in S. -/
def execRecallS (core line : Nat) (s : State) : Host.Outcome State Fault Refusal := s.recalled .recallS core line fun s => s.l1RecallS core line

/-- `RECALL_I` (R278). -/
def execRecallI (core line : Nat) (s : State) : Host.Outcome State Fault Refusal := s.recalled .recallI core line fun s => s.l1RecallI core line

/-- An owner's part in a privatisation: it keeps its copy in Mm. -/
def State.l1RecallP (s : State) (core line : Nat) : State :=
  match s.l1Line core line with
  | some x => if x.st == .m then s.setL1 core line { x with st := .mm } else s
  | none => s

/-- `RECALL_P` (R278): the owner returns the bytes of its mask and keeps the copy in Mm. -/
def execRecallP (core line : Nat) (s : State) : Host.Outcome State Fault Refusal := s.recalled .recallP core line fun s => s.l1RecallP core line

/-- `MERGE_RECALL` (R278): a holder returns the bytes of its mask and drops its copy; an access that waits goes on as a miss (R280). -/
def execMergeRecall (core line : Nat) (s : State) : Host.Outcome State Fault Refusal :=
  s.recalled .mergeRecall core line fun s => s.l1Merge core line

/-! ### Pushes (R263 to R267) -/

/-- Whether a team counts as resident for a push: from its dispatch until it retires, but not stopped for pre-emption (R263). -/
def State.teamResident (s : State) (t : Nat) (tm : Team) : Bool :=
  match tm.status with
  | .running => true
  | .stopping _ => s.warps.any fun e => e.2.team == t && e.2.status != .stopped && e.2.status != .retired
  | .halted | .saved | .killed => false

/-- Whether a core has a resident team of a context and is not draining (Table 12.5, row 1). -/
def State.hasTeamOf (s : State) (core ctx : Nat) : Bool :=
  !(s.core core).draining && s.teams.any fun e => e.2.core == core && s.teamResident e.1 e.2
    && ((tabFind s.launches e.2.launch).map (·.ctx)) == some ctx

/-- The pushed-untouched count of a core (R263, R264). -/
def State.untouched (s : State) (core : Nat) : Nat := ((s.core core).l1.filter fun e => e.2.untouched).length

/-- A quarter of the lines of a core's L1 (R263). -/
def State.pushQuota (s : State) (core : Nat) : Nat := (((s.core core).split).map fun p => p.l1 * 32).getD 0

/-- Whether a message is a `GETS` of a core for a line, or the data that answers it, and no push has satisfied it. -/
def Msg.getting (m : Msg) (core line : Nat) : Bool := (m.kind == .gets || m.kind == .data) && m.core == core && m.line == line && m.targets.isEmpty

/-- Whether a core has a `GETS` of a line outstanding. -/
def State.hasGets (s : State) (core line : Nat) : Bool := (s.net ++ s.arrived).any fun m => m.getting core line

/-- The outstanding `GETS` of a core for a line satisfied by a push: the home serves it as ever, and its data will be discarded (Table 13.1, IS). -/
def State.satisfyGets (s : State) (core line : Nat) : State :=
  let mark (m : Msg) : Msg := if m.getting core line then { m with targets := [core] } else m
  { s with net := s.net.map mark, arrived := s.arrived.map mark }

/-- What a push that a core refuses leaves of a copy in S: none, so that no copy older than the write is left. -/
def State.refusePush (s : State) (core line : Nat) : State :=
  match s.l1Line core line with
  | some x => if x.st == .s then s.dropL1 core line else s
  | none => s

/-- A push's outcome by the first row of Table 12.5 that holds: the state, and whether it was installed. `room` says that a way of
the set is outside a transient state (row 7). A refusal leaves a line in a transient state as it is (Table 13.1). Where the `GETS` of row 3 has no line in the L1, of a load that
allocates nothing, the push satisfies it and installs nothing (log entry 38). -/
def State.receivePush (s : State) (m : Msg) (room : Bool) : State × Bool :=
  let c := m.core
  let refused := (s.refusePush c m.line, false)
  if !s.hasTeamOf c m.ctx then refused
  else match s.l1Line c m.line with
  | some x => match x.st with
    | .is => ((s.satisfyGets c m.line).installS c m.line x m.vers, true)
    | .s => (s.setL1 c m.line { x with vers := m.vers, used := s.recent }, true)
    | _ => refused
  | none =>
    if s.hasGets c m.line then (s.satisfyGets c m.line, true)
    else if s.pushQuota c ≤ s.untouched c || !room then refused
    else ((s.roomL1 c m.line).setL1 c m.line ⟨.s, 0, 0, [], m.vers, true, s.recent, .normal⟩, true)

/-- `PUSH` (R263): the receiving L1 installs or refuses the line, and acknowledges. -/
def execPush (core line : Nat) (room : Bool) (s : State) : Host.Outcome State Fault Refusal :=
  .next (match s.message? .push core line with
    | none => s
    | some m =>
      let (s1, ok) := (s.take m).receivePush m room
      { s1 with net := s1.net ++ [{ m with kind := .pushAck, flag := ok }] })

/-- A warp's push acknowledged: one entry of the line leaves its list, a refusal is counted, and a release that waited goes on with the
last of them (R266, R267). -/
def Warp.pushDone (w : Warp) (line : Nat) (installed : Bool) : Warp :=
  let left := match firstIndex (fun p : Push => p.line == line) w.pushesOut with
    | some i => dropAt i w.pushesOut
    | none => w.pushesOut
  { w with
    pushesOut := left
    gref := if installed then w.gref else w.gref + 1
    status := if w.status == .waiting .pushes && left.isEmpty then .ready else w.status }

/-- `PUSH_ACK` (R265, R266): the home records an installed copy, and forgets one refused; the line is free after the last acknowledgement. -/
def execPushAck (core line : Nat) (s : State) : Host.Outcome State Fault Refusal :=
  .next (match s.message? .pushAck core line with
    | none => s
    | some m =>
      let d := s.dir line
      let d1 := if m.flag then { d.addSharer core with st := .s } else d.dropSharer core
      let d2 := { d1 with awaiting := d1.awaiting.filter (· != core) }
      let d3 := if d2.awaiting.isEmpty then { d2 with action := none } else d2
      let s1 := (s.take m).setDir line d3
      match tabFind s1.warps m.warp with
      | some w => s1.putWarp m.warp (w.pushDone line m.flag)
      | none => s1)

/-! ### Fills and evictions (R271, R272, R349, R350) -/

/-- The victim of a fill: none where the set has room, else the least recently used line of the lowest class, one without an L1 copy before
one with a copy (R271, R350). -/
def State.l2Victim (s : State) (line : Nat) : Option Nat :=
  let peers := s.l2Peers line
  if peers.length < setWays then none
  else (minBy (fun e : Nat × L2Line => [classRank e.2.cls, if (s.dir e.1).st == .i then 0 else 1, e.2.used]) peers).map (·.1)

/-- A line that leaves a slice raises its floor to the largest version of its sectors (R272); a dirty one is written to the MSC (R271). -/
def State.evictL2 (s : State) (line : Nat) : State :=
  match tabFind s.l2 line with
  | none => s
  | some x =>
    let h := homeOf (line * 128)
    let floor := x.vers.foldl (fun m v => if m < v then v else m) (s.slice h).floor
    let s1 := if x.dirty then s.mscAccess line x.cls false true else s
    { s1 with l2 := tabDel s.l2 line, slices := tabSet s.slices h { s.slice h with floor := floor }, dirs := tabDel s.dirs line }

/-- A line filled: each sector takes the floor as its version (R272), and its class is held to the cap of its set (R350). Bytes written at the home meanwhile make it dirty. -/
def State.fillL2 (s : State) (f : MscFill) : State :=
  let s1 := s.mscTouch f.line f.cls
  let x := { s1.l2Line f.line with
    cls := s.capL2 f.line f.cls, used := s.insertAt f.cls ((s.l2Peers f.line).map (·.2.used)), dirty := f.dirty, fresh := f.waits }
  { s1 with l2 := tabSet s1.l2 f.line x, mscFills := s1.mscFills.filter fun g => g.line != f.line }

/-- A line's copies called in before it is evicted from its slice (R271, R279). -/
def State.recallLine (s : State) (line : Nat) : State :=
  let d := s.dir line
  match d.st with
  | .i => s
  | .s => s.await line d .inv d.copies .toI
  | .m => s.await line d .recallI d.sharers .toI
  | .p => s.merge line d false

/-- `MSC_FILL` (R271, R272, R350): the line enters its slice once its victim, if the set is full, has been called in and evicted. -/
def execMscFill (line : Nat) (victim : Option Nat) (s : State) : Host.Outcome State Fault Refusal :=
  .next (match s.mscFills.find? fun f => f.line == line with
    | none => s
    | some f =>
      if victim != s.l2Victim line then s
      else match victim with
      | none => s.fillL2 f
      | some v =>
        if (s.dir v).action.isSome then s
        else if (s.dir v).st == .i then (s.evictL2 v).fillL2 f
        else s.recallLine v)

/-! ### A change of split (R173, R174) -/

/-- Whether a draining core has no team, operation, push, store or spawn record of an earlier team left. -/
def State.coreEmpty (s : State) (core : Nat) : Bool :=
  (s.residents core).isEmpty && (s.core core).bins.isEmpty && (s.core core).sealed.isEmpty
    && !(s.ops.any fun e => e.2.core == core) && !(s.warps.any fun e => e.2.core == core && !e.2.pushesOut.isEmpty)
    && (s.core core).l1.all fun e => e.2.waiting.isEmpty

/-- The core's stable lines given up: S copies are dropped and owned ones written back. -/
def State.flushL1 (s : State) (core : Nat) : State := (s.core core).l1.foldl (fun s e => s.evictL1 core e.1 e.2) s

/-- Whether a core's change of split has something to do: an empty draining core whose L1 is empty or has a stable line. -/
def State.splitDue (s : State) (core : Nat) : Bool :=
  (s.core core).draining && s.coreEmpty core
    && ((s.core core).l1.isEmpty || (s.core core).l1.any fun e => e.2.st == .s || e.2.st == .m || e.2.st == .mm)

/-- `CORE_SPLIT_CHANGE` (R173, R174): dirty lines are written back, and once the L1 is empty the core takes its new split. -/
def execCoreSplitChange (core : Nat) (s : State) : Host.Outcome State Fault Refusal :=
  .next (if s.splitDue core then
      let s1 := s.flushL1 core
      let c := s1.core core
      if c.l1.isEmpty then { s1 with cores := tabSet s1.cores core { c with split := c.next, draining := false, next := none } } else s1
    else s)

end Sys2Proof.Machine
end

