-- ==== Sys2Proof/Machine/Xlate.lean ====
section
/-! DEFINITION. Translation at work: page walks, the translation caches they fill, fault reports, and the service of the access flag (R286 to R290). -/

namespace Sys2Proof.Machine

/-! ### Who waits for a translation -/

/-- The contexts, addresses and kinds that a warp waits for, until their faults have been serviced: that at which its instruction stopped, and those of its other lanes (R288). -/
def Warp.missing (w : Warp) : List (Nat × Nat × AccessKind) :=
  let others (ctx va : Nat) : List (Nat × Nat × AccessKind) :=
    (w.pages.filter fun p => p.1 / 2 ^ 16 != va / 2 ^ 16).map fun p => (ctx, p.1, p.2)
  match w.status with
  | .waiting (.translation ctx va k false) => (ctx, va, k) :: others ctx va
  | .waiting (.translation ctx va _ true) => others ctx va
  | _ => []

/-- The context of an operation. -/
def State.opCtx (s : State) (o : EngineOp) : Nat := (((tabFind s.warps o.warp).bind s.launchOf).map (·.ctx)).getD 0

/-- A request for a translation: the core, the context, the address, the kind of access, whether an engine made it, and the launch. -/
structure Missing where
  core : Nat
  ctx : Nat
  va : Nat
  kind : AccessKind
  engine : Bool
  launch : Nat
  deriving DecidableEq, Repr

/-- The core whose translations a collective uses, that of its team, and its launch's number. -/
def State.collPlace (s : State) (c : Collective) : Nat × Nat :=
  match tabFind s.teams c.team with
  | some tm => (tm.core, ((tabFind s.launches tm.launch).map (·.number)).getD 0)
  | none => (0, 0)

/-- Whether a collective waits for a page of a context. -/
def Collective.waitsOn (c : Collective) (ctx va : Nat) : Bool := c.fault.any fun f => ctx == c.ctx && va / 2 ^ 16 == f.1 / 2 ^ 16

/-- Every request for a translation, of warps and then of engine operations and collectives. -/
def State.missing (s : State) : List Missing :=
  (s.warps.flatMap fun e => e.2.missing.map fun m =>
    ⟨e.2.core, m.1, m.2.1, m.2.2, false, ((s.launchOf e.2).map (·.number)).getD 0⟩)
  ++ (s.ops.filterMap fun e => e.2.fault.map fun f =>
    ⟨e.2.core, s.opCtx e.2, f.1, f.2.1, true, (((tabFind s.warps e.2.warp).bind s.launchOf).map (·.number)).getD 0⟩)
  ++ s.collectives.filterMap fun e => e.2.fault.map fun f => ⟨(s.collPlace e.2).1, e.2.ctx, f.1, f.2.1, true, (s.collPlace e.2).2⟩

/-- Whether a page of a context is the one of an address. -/
def samePage (ctx va ctx' va' : Nat) : Bool := ctx == ctx' && va / 2 ^ 16 == va' / 2 ^ 16

/-- The requests of some cores for a page answered: their accesses are made anew (R162, R222, R289). -/
def State.servicePage (s : State) (on : Nat → Bool) (ctx va : Nat) : State :=
  { s with
    warps := s.warps.map fun e => match e.2.status with
      | .waiting (.translation c v k done) =>
        if on e.2.core && ctx == c then (e.1, { e.2 with
          status := .waiting (.translation c v k (done || samePage ctx va c v)), pages := e.2.pages.filter fun p => !samePage ctx va c p.1 })
        else e
      | _ => e
    ops := s.ops.map fun e => match e.2.fault with
      | some f => if on e.2.core && samePage ctx va (s.opCtx e.2) f.1 then (e.1, { e.2 with fault := none }) else e
      | none => e
    collectives := s.collectives.map fun e =>
      if on (s.collPlace e.2).1 && e.2.waitsOn ctx va then (e.1, { e.2 with fault := none }) else e }

/-! ### The caches (R288) -/

/-- The leaf entry that a permission fault used removed from the caches that served it (R289). -/
def State.dropLeaf (s : State) (core ctx va : Nat) : State :=
  let c := s.core core
  let out (l : List TlbEntry) : List TlbEntry := l.filter fun x => !x.covers ctx va
  { s with
    cores := tabSet s.cores core { c with tlb := out c.tlb }
    clusterTlb := tabSet s.clusterTlb (core / 8) (out (tabGet s.clusterTlb (core / 8) [])) }

/-! ### Walks and reports (R286, R289) -/

/-- What a request for a translation meets: a cached leaf, or a walk. -/
def State.lookup (s : State) (core ctx va : Nat) (k : AccessKind) : WalkResult :=
  match s.cached core ctx va with
  | some x => if s.mayUse ctx va x.leaf k then .ok (x.leaf, x.level) else .error (.permission, x.level)
  | none => s.walk (s.walkCacheOf core) ctx (va % 2 ^ 55) k

/-- Whether two cores lie in one cluster, whose misses of one page coalesce into one request (R288). -/
def sameCluster (a b : Nat) : Bool := a / 8 == b / 8

/-- Whether the host has been told of a fault at a page for a core's cluster. -/
def State.reported (s : State) (core ctx va : Nat) : Bool :=
  s.faults.any fun e => sameCluster e.2.core core && samePage ctx va e.2.ctx e.2.va

/-- The request that a walk of a core serves. -/
def State.request? (s : State) (core ctx va : Nat) (k : AccessKind) : Option Missing :=
  s.missing.find? fun m => m.core == core && m.ctx == ctx && m.va == va && m.kind == k

/-- A request as the die's walkers take it: its cluster, context and page (R288). -/
def Missing.key (m : Missing) : Nat × Nat × Nat := (m.core / 8, m.ctx, m.va / 2 ^ 16)

/-- The walks that a die has in progress at once (Table 13.5). -/
def walkerPool : Nat := 64

/-- Whether a walk of a core's request has something to do: an access-flag fault is left to the control processors. -/
def State.walkDue (s : State) (m : Missing) : Bool :=
  !s.reported m.core m.ctx m.va && match s.lookup m.core m.ctx m.va m.kind with
    | .error (.accessFlag, _) => false
    | _ => true

/-- Whether a request has one of the walkers of its die: those beyond 64 wait in the order in which they came (R288). -/
def State.hasWalker (s : State) (m : Missing) : Bool :=
  let mine := s.walkers.filter fun x => x.1 / 16 == m.core / 128 && s.missing.any fun y => y.key == x && s.walkDue y
  (mine.take walkerPool).contains m.key

/-- The requests in the order in which they came: those that are still waited for, then the new ones. -/
def State.queueWalks (s : State) : List (Nat × Nat × Nat) :=
  let ks := s.missing.map Missing.key
  let old := s.walkers.filter ks.contains
  ks.foldl (fun l x => if l.contains x then l else l ++ [x]) old

/-- The ACCESS field of a report (Table 13.6). -/
def accessBits (k : AccessKind) (engine : Bool) : Nat :=
  (match k with
    | .read => 1
    | .write => 2
    | .readWrite => 3
    | .fetch => 4) + if engine then 8 else 0

/-- The 32 bytes of a report (Table 13.6). -/
def FaultReport.bytes (r : FaultReport) : List Byte :=
  leBytes 8 r.va ++ leBytes 8 r.launch ++ leBytes 2 r.ctx ++ leBytes 1 r.kind ++ leBytes 1 r.level ++ leBytes 4 r.access ++ leBytes 8 r.core

/-- A fault reported to the host (R289, Table 13.6). -/
def State.report (s : State) (m : Missing) (kind level : Nat) : State :=
  let r : FaultReport := ⟨m.va, m.launch, m.ctx, kind, level, accessBits m.kind m.engine, m.core⟩
  let told (o : EngineOp) : EngineOp := match o.fault with
    | some f => if sameCluster o.core m.core && samePage m.ctx m.va (s.opCtx o) f.1 then { o with fault := some (f.1, f.2.1, true) } else o
    | none => o
  { s with
    nextId := s.nextId + 1, faults := tabSet s.faults s.nextId r, outbox := s.outbox ++ [.fault r]
    ops := s.ops.map fun e => (e.1, told e.2)
    collectives := s.collectives.map fun e =>
      if sameCluster (s.collPlace e.2).1 m.core && e.2.waitsOn m.ctx m.va then (e.1, { e.2 with fault := e.2.fault.map fun f => (f.1, f.2.1, true) }) else e }

/-- `PAGE_WALK` (R286, R288, R289): the request of a core is translated and its accesses go on, or its fault is reported; an
unserviceable fault is left to the access itself, which meets it when it is made anew. -/
def execPageWalk (core ctx va : Nat) (k : AccessKind) (s : State) : Host.Outcome State Fault Refusal :=
  .next (match s.request? core ctx va k with
    | none => s
    | some m =>
      if !s.walkDue m then s
      else
        let s1 := if (s.cached core ctx va).isSome then s else s.walkTouch (s.walkCacheOf core) ctx (va % 2 ^ 55)
        match s.lookup core ctx va k with
        | .ok (e, lv) => (s1.fillTlbs core ctx (va % 2 ^ 55) e lv).servicePage (sameCluster core) ctx va
        | .error (.notPresent, lv) => s1.report m 0 lv
        | .error (.permission, lv) => (s1.dropLeaf core ctx (va % 2 ^ 55)).report m 1 lv
        | .error _ => s1.servicePage (sameCluster core) ctx va)

/-! ### The access flag (R289) -/

/-- Whether some request waits for the access flag of a page, whose entry nothing holds back. -/
def State.flagDue (s : State) (ctx va : Nat) : Bool :=
  (s.missing.any fun m => m.ctx == ctx && m.va == va) && (s.clearFlag ctx va).any fun a => !s.heldBack a 8

/-- `ACCESS_FLAG_SERVICE` (R289): the control processors set AF by an atomic write to the entry, and the accesses are made anew. -/
def execAccessFlagService (ctx va : Nat) (s : State) : Host.Outcome State Fault Refusal :=
  .next (if s.flagDue ctx va then
      (s.setFlag ctx va).servicePage (fun _ => true) ctx va
    else s)

/-! ### The host's answers (R289) -/

/-- The first report with a number, with its key. -/
def State.findReport (s : State) (n : Nat) : Option FaultReport := tabFind s.faults n

/-- A report answered with RETRY: the accesses are made anew. -/
def State.answerRetry (s : State) (n : Nat) (r : FaultReport) : State :=
  ({ s with faults := tabDel s.faults n }).servicePage (sameCluster r.core) r.ctx r.va

/-- A report answered with ABORT: the launches of the waiting warps abort with cause 0x10, each at the address that its warp waits for, and engine operations and collectives report XLATE for the page. -/
def State.answerAbort (s : State) (n : Nat) (r : FaultReport) : State :=
  let meets (w : Warp) : Option (Nat × Nat × AccessKind) := w.missing.find? fun m => samePage r.ctx r.va m.1 m.2.1
  let hit := s.warps.filter fun e => sameCluster e.2.core r.core && (meets e.2).isSome
  let deny (o : EngineOp) : EngineOp := match o.fault with
    | some f =>
      if sameCluster o.core r.core && samePage r.ctx r.va (s.opCtx o) f.1 then { o with fault := none, denied := o.denied ++ [f.1 / 2 ^ 16] } else o
    | none => o
  let refuse (c : Collective) : Collective :=
    if sameCluster (s.collPlace c).1 r.core && c.waitsOn r.ctx r.va then { c with fault := none, denied := c.denied ++ [r.va / 2 ^ 16] } else c
  let s1 : State := { s with
    faults := tabDel s.faults n, ops := s.ops.map fun e => (e.1, deny e.2), collectives := s.collectives.map fun e => (e.1, refuse e.2) }
  hit.foldl (fun s e => match tabFind s.warps e.1 with
    | some w => s.abortLaunch w 0x10 false false false w.pc (BitVec.ofNat 64 (((meets w).map (·.2.1)).getD r.va)) w.active
    | none => s) s1

end Sys2Proof.Machine
end

