-- ==== Sys2Proof/Machine/FrontEnd.lean ====
section
/-! DEFINITION. The front end: queues and their packets, the start of launches, WAIT, SIGNAL, WINDOW, INVALIDATE and COPY packets, address monitors, and the completion of grids (R351 to R366, R369, R370, R380, R383). -/

namespace Sys2Proof.Machine

/-! ### Streams (R354 to R357) -/

/-- The physical address of a queue-table entry. -/
def queueEntry (q : Nat) : Nat := Config.queueTable + 64 * q

/-- The physical address of a context-table entry. -/
def contextEntry (c : Nat) : Nat := Config.contextTable + 128 * c

/-- The STATE byte of a queue-table entry. -/
def Queue.stateByte (x : Queue) : Nat := (if x.enabled then 1 else 0) + if x.halted then 2 else 0

/-- Bytes of a table written in memory, where they change. -/
def State.mirror (s : State) (pa : Nat) (old new : List Byte) : State := if old == new then s else s.controlWrite pa new

/-- A queue's fields changed, and with them the fields that its entry in memory shows: STATE, ERRCODE and HEAD. -/
def State.putStream (s : State) (q : Nat) (x : Queue) : State :=
  let old := s.stream q
  let a := queueEntry q
  let s1 : State := { s with queues := tabSet s.queues q x }
  ((s1.mirror (a + 0xE) (leBytes 1 old.stateByte) (leBytes 1 x.stateByte)).mirror (a + 0xF) (leBytes 1 old.errcode) (leBytes 1 x.errcode)).mirror
    (a + 0x18) (leBytes 8 old.head) (leBytes 8 x.head)

/-- The STATE byte of a context-table entry. -/
def Context.stateByte (c : Context) : Nat := (if c.enabled then 1 else 0) + if c.suspended then 2 else 0

/-- A context's fields changed, and with them STATE and PINNED of its entry in memory. -/
def State.putContext (s : State) (n : Nat) (c : Context) : State :=
  let old := s.context n
  let a := contextEntry n
  let s1 : State := { s with contexts := tabSet s.contexts n c }
  (s1.mirror (a + 0x1D) (leBytes 1 old.stateByte) (leBytes 1 c.stateByte)).mirror (a + 0x40) (leBytes 4 old.pinned) (leBytes 4 c.pinned)

/-- Whether a queue's packets are read: it is an enabled stream of a context that is enabled and not suspended (R355, R357, R373). -/
def State.streamOpen (s : State) (x : Queue) : Bool :=
  x.enabled && !x.halted && (s.context x.ctx).enabled && !(s.context x.ctx).suspended

/-- A stream's effective class (R366). -/
def State.streamClass (s : State) (q : Nat) : Nat :=
  let x := s.stream q
  let c := max x.cls (s.context x.ctx).ceil
  if x.raised && c == 3 then 2 else c

/-- The virtual address of a packet. -/
def Queue.packetAt (x : Queue) (n : Nat) : Nat := x.ring + 64 * (if x.size == 0 then 0 else n % x.size)

/-- The FLAGS bits that a KIND reserves (R357). -/
def reservedFlags (kind : Nat) : Nat := if kind == 1 then 0xF8 else 0xFE

/-- The tags of what the front end reads for a stream: its packets, descriptors, argument blocks and events. -/
def fetchTag (what q : Nat) : Nat := 2 ^ 200 * (what + 1) + q * 2 ^ 40

/-- The packet at a stream's HEAD read. -/
def State.packetRead (s : State) (q : Nat) : Except FrontStop (State × List Byte) :=
  let x := s.stream q
  s.frontFetch x.ctx (fetchTag 0 q) (x.packetAt x.head) 64

/-- The ERRCODE of a packet with a bad KIND or FLAGS (R357). -/
def packetError (p : List Byte) : Option Nat :=
  let kind := fieldAt p 0 1
  if kind == 0 || 7 ≤ kind then some 1 else if Nat.land (fieldAt p 1 1) (reservedFlags kind) != 0 then some 2 else none

/-- The ERRCODE of a stream's head: a TAIL beyond the ring, a packet that cannot be read, or a bad KIND or FLAGS (R357, R359, Table 17.3). -/
def State.headError (s : State) (q : Nat) : Option Nat :=
  let x := s.stream q
  if x.size < x.tail - x.head then some 3
  else if x.tail ≤ x.head || x.current.isSome then none
  else match s.packetRead q with
  | .error .bad => some 4
  | .error _ => none
  | .ok (_, p) => packetError p

/-- The ERRCODE with which a stream is to be halted: a TAIL beyond the ring halts every queue that is enabled, its context suspended or not (R359), and the head's error one whose packets
are read. -/
def State.haltDue (s : State) (q : Nat) : Option Nat :=
  let x := s.stream q
  if !x.enabled || x.halted then none
  else if x.size < x.tail - x.head then some 3
  else if s.streamOpen x then s.headError q else none

/-- Whether a packet may start: one with BARRIER, and every SIGNAL, only after all earlier packets of the stream have completed (R358). -/
def Queue.mayStart (x : Queue) (p : List Byte) : Bool :=
  x.inFlight.isEmpty || !(bit (fieldAt p 1 1) 0 || fieldAt p 0 1 == 3)

/-- Whether a stream has a packet to read. -/
def State.packetDue (s : State) (x : Queue) : Bool := s.streamOpen x && decide (x.head < x.tail) && decide (x.tail - x.head ≤ x.size)

/-- A stream's head packet read whole, once it is the head, and the clock noted at which it became ready (R356, R366, R367). -/
def State.loadHead (s : State) (q : Nat) : State :=
  let x := s.stream q
  match x.current with
  | some h => if h.since.isNone && x.mayStart h.packet then s.putStream q { x with current := some { h with since := some s.clock } } else s
  | none =>
    if !s.packetDue x then s
    else match s.packetRead q with
    | .ok (s1, p) =>
      if (packetError p).isSome then s
      else s1.putStream q { s1.stream q with current := some ⟨p, if x.mayStart p then some s.clock else none, none, false⟩ }
    | .error e => s.askFor e

/-- Whether reading a stream's head goes on: a packet that could not be read before, or one that has become ready. -/
def State.loadDue (s : State) (q : Nat) : Bool :=
  let x := s.stream q
  match x.current with
  | some h => h.since.isNone && x.mayStart h.packet
  | none => s.packetDue x && match s.packetRead q with
    | .ok (_, p) => (packetError p).isNone
    | .error e => e != .bad && !s.stuckFor e

/-- A packet leaves its stream's head: HEAD advances past it, and the next one is read (R356, R366). -/
def State.leaveHead (s : State) (q : Nat) (flight : List InFlight) : State :=
  let x := s.stream q
  (s.putStream q ({ x with head := x.head + 1, current := none, raised := false }.settle s.clock x.head (x.inFlight ++ flight))).loadHead q

/-- A packet that has left the head completes. -/
def State.endFlight (s : State) (q : Nat) (p : InFlight → Bool) : State :=
  (s.putStream q ((s.stream q).drop s.clock p)).loadHead q

/-- Whether what stands at a head has not started. -/
def Head.waits (h : Head) : Bool := h.started.isNone && !h.waiting

/-- A stream's head packet of a KIND that is ready to start and has not started. -/
def State.headOf (s : State) (q kind : Nat) : Option Head :=
  let x := s.stream q
  match x.current with
  | some h => if s.streamOpen x && h.waits && fieldAt h.packet 0 1 == kind && x.mayStart h.packet then some h else none
  | none => none

/-- The queue and the number of the packet at a head. -/
def State.headSource (s : State) (q : Nat) : Option (Nat × Nat) := some (q, (s.stream q).head)

/-- The bytes of a packet outside some ranges (offset and length) are all 0. -/
def restZero (p : List Byte) (used : List (Nat × Nat)) : Bool :=
  (upto 64).all fun i => (used.any fun r => decide (r.1 ≤ i) && decide (i < r.1 + r.2)) || nth p i 0 == 0

/-! ### Starting a launch (R360, R380, R383) -/

/-- A kernel descriptor from its 64 bytes (Table 18.6). -/
def KernelDesc.ofBytes (bs : List Byte) : KernelDesc where
  code := fieldAt bs 0 8
  entry := fieldAt bs 8 4
  trap := fieldAt bs 0xC 4
  regs := fieldAt bs 0x10 2
  split := ⟨fieldAt bs 0x12 1, fieldAt bs 0x13 1, fieldAt bs 0x14 1, fieldAt bs 0x15 1⟩
  teamX := fieldAt bs 0x16 2
  teamY := fieldAt bs 0x18 2
  teamZ := fieldAt bs 0x1A 2
  acc := fieldAt bs 0x1C 4
  timer := fieldAt bs 0x20 2
  flags := fieldAt bs 0x22 2
  live0 := fieldAt bs 0x24 4
  live1 := fieldAt bs 0x28 4
  reservedZero := zeroAt bs 0x2C 0x14

/-- Whether a split meets R87. -/
def Split.ok (p : Split) : Bool :=
  decide (8 ≤ p.reg) && decide (p.shm ≤ 64) && decide (8 ≤ p.l1) && decide (p.log ≤ 16) && p.reg + p.shm + p.l1 + p.log == 96

/-- The version that a new launch binds in a code region: none in one that has been dropped (R383, R384). -/
def CodeRegion.bindable (r : CodeRegion) : Option CodeVersion := if r.dropped then none else tabFind r.versions r.current

/-- The units of the region of a context whose base is `base`. -/
def State.unitsAt (s : State) (ctx base : Nat) : List CodeUnit :=
  ((s.code.filter fun r => r.ctx == ctx && r.base == base).filterMap CodeRegion.bindable).flatMap (·.units)

/-- The checks of R380 on a descriptor's fields, with the units of the region whose base is CODE. -/
def KernelDesc.fieldsOk (d : KernelDesc) (units : List CodeUnit) : Bool :=
  decide (8 ≤ d.regs) && decide (d.regs ≤ 256) && d.regs % 8 == 0 && d.split.ok && decide (1 ≤ d.threads) && decide (d.threads ≤ 1024)
    && d.acc % 16384 == 0 && decide (d.acc ≤ accStore) && (d.timer == 0 || decide (64 ≤ d.timer))
    && bits d.live1 2 0 == 0 && decide (bits d.live1 31 24 + bits d.live1 23 16 ≤ d.regs)
    && (units.any fun u => u.kind == 2 && u.offset == d.entry)
    && (d.trap == 0xFFFFFFFF || (d.trap % 4 == 0 && units.any fun u => decide (u.offset ≤ d.trap) && decide (d.trap < u.offset + u.size)))

/-- The checks of R380 for a launch of a width. -/
def KernelDesc.ok (d : KernelDesc) (units : List CodeUnit) (width : Nat) : Bool := d.fieldsOk units && decide (0 < teamsPerCore d width)

/-- Whether the fields of a KERNEL packet lie in their ranges (Table 17.4, R12, R360). -/
def kernelFieldsOk (p : List Byte) : Bool :=
  let gx := fieldAt p 0x10 4
  let gy := fieldAt p 0x14 4
  let gz := fieldAt p 0x18 4
  let c := fieldAt p 2 1
  let priv := fieldAt p 6 2
  let q := fieldAt p 0x1C 4
  let extent (n : Nat) : Bool := decide (1 ≤ n) && decide (n < 2 ^ 31)
  decide (1 ≤ c) && decide (c ≤ 8) && fieldAt p 5 1 == 0 && decide (16 ≤ priv) && decide (priv ≤ 4096)
    && extent gx && extent gy && extent gz && decide (gx * gy * gz < 2 ^ 63) && gx * gy * gz % c == 0
    && (q == 0 || (decide (256 ≤ q) && decide (q ≤ 65536))) && fieldAt p 0x20 8 % 64 == 0

/-- The bytes of one thread's log (R296). -/
def logBytes (p : List Byte) : Nat :=
  16 * fieldAt p 3 1 + 48 * fieldAt p 4 1 + if bit (fieldAt p 1 1) 2 then 32 * fieldAt p 3 1 else 0

/-- The versions of a context's regions that a launch binds, by region index (R383). -/
def State.bindVersions (s : State) (ctx : Nat) : Tab Nat :=
  (upto s.code.length).filterMap fun i => match s.code[i]? with
    | some r => if r.ctx == ctx && r.bindable.isSome then some (i, r.current) else none
    | none => none

/-- A launch made from a KERNEL packet, its descriptor and its argument block, none where R360 refuses it. -/
def State.makeLaunch (s : State) (q ctx depth : Nat) (parent : Option Nat) (p db args : List Byte) : Option Launch :=
  let width := if bit (fieldAt p 1 1) 1 then 32 else 64
  let d := KernelDesc.ofBytes db
  let k := teamsPerCore d width
  if fieldAt p 0 1 == 1 && Nat.land (fieldAt p 1 1) 0xF8 == 0 && kernelFieldsOk p && d.ok (s.unitsAt ctx d.code) width
      && decide (logBytes p * 1024 ≤ d.split.log / k * granule) && !(fieldAt p 0x1C 4 != 0 && bit d.flags 0) then
    some {
      queue := q
      number := s.nextLaunch
      ctx := ctx
      depth := depth
      parent := parent
      packet := p
      desc := d
      args := args
      versions := s.bindVersions ctx
      perCore := k
      dispatched := 0
      waveList := []
      status := .running
      record := none
      pagesWritten := []
      heldOps := [] }
  else none

/-- The descriptor and the argument block of a KERNEL packet or child, which are read as it starts (R360). -/
def State.launchReads (s : State) (ctx tag : Nat) (p : List Byte) : Except FrontStop (State × List Byte × List Byte) :=
  match s.frontFetch ctx tag (fieldAt p 8 8) 64 with
  | .error e => .error e
  | .ok (s1, db) => match s1.frontFetch ctx (tag + 2 ^ 20) (fieldAt p 0x20 8) 128 with
    | .error e => .error e
    | .ok (s2, args) => .ok (s2, db, args)

/-- A launch with what has been read for it (R360): it takes the next `%launchid`; a refused one, among them one whose descriptor or argument block cannot be read, completes at
once. The answer names the launch made. -/
def State.beginLaunch (s : State) (source : Option (Nat × Nat)) (q ctx depth : Nat) (parent : Option Nat) (p : List Byte)
    (read : Option (List Byte × List Byte)) : State × Option Nat :=
  let n := s.nextLaunch
  let s1 := ({ s with nextLaunch := n + 1 }).record frontDie 6 ctx 0xFFFF 0 n (fieldAt p 8 8)
  match read.bind fun r => s.makeLaunch q ctx depth parent p r.1 r.2 with
  | some x => ({ s1 with nextId := s1.nextId + 1, launches := tabSet s1.launches s1.nextId x }, some s1.nextId)
  | none => ((s1.record frontDie 7 ctx 0xFFFF 2 n 0).fireEvent source ctx (fieldAt p 0x30 8) 2 (fieldAt p 0 1) 1, none)

/-- A KERNEL packet or child started (R360), or what its start waits for. -/
def State.startLaunch (s : State) (source : Option (Nat × Nat)) (tag q ctx depth : Nat) (parent : Option Nat) (p : List Byte) :
    Except FrontStop (State × Option Nat) :=
  match s.launchReads ctx tag p with
  | .ok (s1, r) => .ok (s1.beginLaunch source q ctx depth parent p (some r))
  | .error .bad => .ok (s.beginLaunch source q ctx depth parent p none)
  | .error e => .error e

/-- A KERNEL packet at the head of a stream starts: it holds the head until its last team has been dispatched, and a refused one leaves
it at once (R356, R360). -/
def State.startKernel (s : State) (q : Nat) (h : Head) : State :=
  match s.startLaunch (s.headSource q) (fetchTag 1 q) q (s.stream q).ctx 1 none h.packet with
  | .error e => s.askFor e
  | .ok (s1, some id) => s1.putStream q { s1.stream q with current := some { h with started := some id } }
  | .ok (s1, none) => s1.leaveHead q []

/-- The oldest pending child grid of a stream (R370). -/
def State.firstChild (s : State) (q : Nat) : Option Child := s.children.find? fun c => c.queue == q

/-- A pending child grid starts (R370). -/
def State.startChild (s : State) (c : Child) : State :=
  match { s with children := s.children.erase c }.startLaunch none (fetchTag 2 c.queue) c.queue c.ctx c.depth (some c.parent) c.packet with
  | .error e => s.askFor e
  | .ok (s1, _) => s1

/-- Whether the start of a KERNEL packet or child can only wait for a peer's answer, a lock or a busy line. -/
def State.launchStuck (s : State) (ctx tag : Nat) (p : List Byte) : Bool :=
  match s.launchReads ctx tag p with
  | .error e => s.stuckFor e
  | .ok _ => false

/-! ### Completion of grids (R169, R362, R370) -/

/-- The teams of a grid. -/
def Launch.teams (x : Launch) : Nat := x.field 0x10 4 * x.field 0x14 4 * x.field 0x18 4

/-- Whether a grid has completed: its teams have all been dispatched, unless it ended early, and have retired, and all its descendants
have completed (R370). -/
def State.gridDone (s : State) (id : Nat) (x : Launch) : Bool :=
  (x.status != .running || x.dispatched == x.teams) && !(s.teams.any fun e => e.2.launch == id)
    && !(s.children.any fun c => s.descends id 11 c.parent) && !(s.launches.any fun e => e.1 != id && s.descends id 11 e.1)

/-- The completion code of a grid (Table 17.5). -/
def Launch.code (x : Launch) : Nat :=
  match x.status with
  | .aborted => 1
  | .cancelled => 3
  | _ => 0

/-- Pages added to others, each with the later of its clocks. -/
def addPages (new old : Tab Nat) : Tab Nat := new.foldl (fun t e => tabSet t e.1 (max e.2 (tabGet t e.1 0))) old

/-- The pages that an ended grid wrote kept with its parent, or, until its packet has completed, with its stream (R401). -/
def State.keepPages (s : State) (x : Launch) : State :=
  match x.parent with
  | none => s.putStream x.queue { s.stream x.queue with pages := addPages x.pagesWritten (s.stream x.queue).pages }
  | some p => match tabFind s.launches p with
    | none => s
    | some y => { s with launches := tabSet s.launches p { y with pagesWritten := addPages x.pagesWritten y.pagesWritten } }

/-- Whether an entry in flight is a launch. -/
def InFlight.isLaunch (i : InFlight) (id : Nat) : Bool :=
  match i with
  | .launch _ j => j == id
  | _ => false

/-- The queue and the number of the packet of a launch, none for a child grid. -/
def State.launchSource (s : State) (id : Nat) (x : Launch) : Option (Nat × Nat) :=
  let y := s.stream x.queue
  let number := y.inFlight.findSome? fun i => match i with
    | .launch n j => if j == id then some n else none
    | _ => none
  if x.parent.isSome then none else some (x.queue, number.getD y.head)

/-- The fault record of a launch that was aborted, with the address that its packet names for it (R169, R362). -/
def Launch.recordOut (x : Launch) : Option (Nat × List Byte) :=
  let at' := x.field 0x38 8
  x.record.bind fun r => if at' == 0 then none else some (at', r.bytes)

/-- The completion event of a launch, with its fault record (R362). -/
def State.endEvent (s : State) (id : Nat) (x : Launch) : State :=
  let va := x.field 0x30 8
  if va == 0 && x.recordOut.isNone then s
  else s.signal (s.launchSource id x) x.ctx (if va == 0 then none else some va) x.code 1 1 x.recordOut

/-- `GRID_COMPLETE` (R362, R370): the fault record, the event, and the end of the packet. -/
def execGridComplete (id : Nat) (s : State) : Host.Outcome State Fault Refusal :=
  .next (match tabFind s.launches id with
    | none => s
    | some x =>
      if !s.gridDone id x then s
      else
        let s1 := (s.endEvent id x).record frontDie 7 x.ctx 0xFFFF x.code x.number 0
        let s2 : State := { s1.keepPages x with launches := tabDel s1.launches id }
        let held := ((s2.stream x.queue).current.bind (·.started)) == some id && x.parent.isNone
        (if held then s2.leaveHead x.queue [] else s2).endFlight x.queue fun i => i.isLaunch id)

/-! ### WAIT and SIGNAL (R359, R362, R363) -/

/-- The events that a WAIT names, with their targets. -/
def waitEvents (p : List Byte) : List (Nat × Nat) := (upto (fieldAt p 2 1)).map fun i => (fieldAt p (8 + 8 * i) 8, fieldAt p (0x28 + 4 * i) 4)

/-- Whether some bytes cannot be read at all. -/
def State.unreachable (s : State) (ctx va n : Nat) : Bool :=
  (wordPieces (n + 1) va n).any fun x => match s.translateFront ctx x.1 .read with
    | none => true
    | some p => p.fab && s.lostPeer p.pkg

/-- Whether a WAIT is refused: its count, its reserved bytes, or an event that cannot be translated. -/
def State.waitBad (s : State) (ctx : Nat) (p : List Byte) : Bool :=
  let n := fieldAt p 2 1
  n == 0 || decide (4 < n) || !zeroAt p 3 5 || !zeroAt p 0x38 8 || (waitEvents p).any fun e => s.unreachable ctx e.1 8

/-- The tag of the `i`-th event of a stream's WAIT. -/
def waitTag (q i : Nat) : Nat := fetchTag 3 q + i * 16

/-- The event words of a WAIT as they are known: those of other packages from their answers. -/
def State.waitWords (s : State) (q ctx : Nat) (p : List Byte) : List (Except FrontStop Nat × Nat) :=
  let es := waitEvents p
  (upto es.length).map fun i =>
    let e := nth es i (0, 0)
    (match s.frontPieces ctx (waitTag q i) (wordPieces 9 e.1 8) with
      | .ok (bs, false) => .ok (natOfBytes bs)
      | .ok (_, true) => .error .bad
      | .error e => .error e, e.2)

/-- Whether the condition of a WAIT holds. -/
def State.waitHolds (s : State) (q ctx : Nat) (p : List Byte) : Bool :=
  (s.waitWords q ctx p).all fun e => match e.1 with
    | .ok v => decide ((v + 2 ^ 32 - e.2) % 2 ^ 32 < 2 ^ 31)
    | .error _ => false

/-- The words that a WAIT of a context watches. -/
def watchWords (ctx : Nat) (p : List Byte) : List (Nat × Nat) := (waitEvents p).map fun e => (ctx, e.1)

/-- A WAIT that watches its events completes: an acquire at fabric scope, and its words are watched no more (R363, R416). -/
def State.endWait (s : State) (q : Nat) (p : List Byte) : State :=
  let ctx := (s.stream q).ctx
  let left := (watchWords ctx p).foldl (fun l w => l.erase w) s.watched
  (({ s with watched := left }.dropTags (waitTag q 0) 64).dropCopies ctx fun _ => true).leaveHead q []

/-- What `WAIT` does (R363): it completes at once where its condition holds or it is refused, and otherwise watches its events. -/
def State.startWait (s : State) (q : Nat) (h : Head) : State :=
  let ctx := (s.stream q).ctx
  let s0 := (waitEvents h.packet).foldl (fun s e => s.setFlags ctx e.1 8) s
  if (waitEvents h.packet).any fun e => s0.flagsHeld ctx e.1 8 then s0
  else if s0.waitBad ctx h.packet then s0.leaveHead q []
  else if s0.waitHolds q ctx h.packet then (s0.dropCopies ctx fun _ => true).leaveHead q []
  else { s0.putStream q { s0.stream q with current := some { h with waiting := true } } with
    watched := s0.watched ++ watchWords ctx h.packet }

/-- The packet of a WAIT that watches. -/
def State.waiting? (s : State) (q : Nat) : Option (List Byte) :=
  match (s.stream q).current with
  | some h => if s.streamOpen (s.stream q) && h.waiting then some h.packet else none
  | none => none

/-- What a WAIT asks of peers for its events on other packages, none where it has nothing to ask now (DEDUCED: no monitor of this package sees those words, so the front end polls
them; log entry 73). -/
def State.waitAsks (s : State) (q ctx : Nat) (p : List Byte) : Option FrontStop :=
  (s.waitWords q ctx p).findSome? fun e => match e.1 with
    | .error (.ask pkg op tag va) => if s.asked pkg tag op then none else some (.ask pkg op tag va)
    | _ => none

/-- Whether a WAIT has an answer of a peer. -/
def State.waitAnswered (s : State) (q : Nat) : Bool :=
  s.answers.any fun a => a.who == .front && decide (waitTag q 0 ≤ a.tag) && decide (a.tag < waitTag q 0 + 64)

/-- The poll of the events of a WAIT that lie on other packages: a word is asked for, and once every word is known the WAIT completes or asks anew. -/
def State.pollWait (s : State) (q : Nat) : State :=
  match s.waiting? q with
  | none => s
  | some p =>
    let ctx := (s.stream q).ctx
    match s.waitAsks q ctx p with
    | some e => s.askFor e
    | none =>
      if s.waitHolds q ctx p then s.endWait q p
      else if s.tagsOut (waitTag q 0) 64 then s else s.dropTags (waitTag q 0) 64

/-- Whether the events of a WAIT are to be polled. -/
def State.pollDue (s : State) (q : Nat) : Bool :=
  match s.waiting? q with
  | none => false
  | some p => (s.waitAsks q (s.stream q).ctx p).isSome || (s.waitAnswered q && !s.tagsOut (waitTag q 0) 64)

/-- The event words that the monitors hold at once (R359). -/
def monitorWords : Nat := 4096

/-- The queues whose WAIT watches a word that `p` accepts and whose condition now holds. -/
def State.waitsDone (s : State) (p : Nat × Nat → Bool) : List Nat :=
  (s.queues.filter fun e => match s.waiting? e.1 with
    | some pk => (watchWords e.2.ctx pk).any p && s.waitHolds e.1 e.2.ctx pk
    | none => false).map (·.1)

/-- WAITs completed. -/
def State.endWaits (s : State) (qs : List Nat) : State :=
  qs.foldl (fun s q => match s.waiting? q with
    | some p => s.endWait q p
    | none => s) s

/-- The TAIL word of a queue as it stands in memory. -/
def State.tailWord (s : State) (q : Nat) : Nat := natOfBytes (s.bytesAt (queueEntry q + 0x10) 8)

/-- `ADDRESS_MONITOR_WRITE` (R359): a write to a TAIL word or a watched event word is noticed. -/
def execAddressMonitorWrite (m : Monitored) (s : State) : Host.Outcome State Fault Refusal :=
  .next (match m with
    | .tail q v =>
      if s.tailWord q == v && (s.stream q).tail != v && (tabFind s.queues q).isSome then
        (s.putStream q { s.stream q with tail := v }).loadHead q
      else s
    | .event ctx va =>
      if (s.watched.take monitorWords).contains (ctx, va) then s.endWaits (s.waitsDone (· == (ctx, va))) else s)

/-- `MONITOR_POLL` (R359): the words beyond those that the monitors hold are polled. -/
def execMonitorPoll (s : State) : Host.Outcome State Fault Refusal :=
  .next (s.endWaits (s.waitsDone fun w => (s.watched.drop monitorWords).contains w))

/-- What `SIGNAL` does (R363). -/
def State.startSignal (s : State) (q : Nat) (h : Head) : State :=
  let ctx := (s.stream q).ctx
  let at' := some (fieldAt h.packet 8 8)
  let ok := restZero h.packet [(0, 2), (8, 16)]
  (s.signal (s.headSource q) ctx at' (if ok then 0 else 2) 3 (if ok then fieldAt h.packet 0x10 8 else 0) none).leaveHead q []

/-! ### Windows (R351 to R353, R364) -/

/-- A MiB. -/
def mib : Nat := 1048576

/-- The MiB that windows charge to their context. -/
def Window.charge (w : Window) : Nat := (w.length + mib - 1) / mib

/-- The bytes of a page that lie in a stack. -/
def frameShare (frame stack : Nat) : Nat :=
  ((upto 16).filter fun i => stackOf (frame * 65536 + i * 4096) == stack).length * 4096

/-- The bytes that a window charges to a slice. -/
def Window.share (w : Window) (stack : Nat) : Nat := w.frames.foldl (fun n f => n + frameShare f stack) 0

/-- The physical pages of a range; none where a page is not present, not readable, or on another package. -/
def State.framesOf (s : State) (ctx base : Nat) : Nat → Option (List Nat)
  | 0 => some []
  | n + 1 => match s.translateFront ctx (base + n * 65536) .read, s.framesOf ctx base n with
    | some p, some r => if p.fab then none else some (r ++ [p.pa / 65536])
    | _, _ => none

/-- The MiB charged by a context's windows. -/
def State.pinnedBy (s : State) (ctx : Nat) : Nat := (s.windows.filter fun e => e.2.ctx == ctx).foldl (fun n e => n + e.2.charge) 0

/-- The window that a create packet makes, none where R352 refuses it. -/
def State.newWindow (s : State) (ctx wid : Nat) (pin : Bool) (base len : Nat) : Option Window :=
  if decide (64 ≤ wid) || (tabFind s.windows wid).isSome || base % 65536 != 0 || len == 0 || len % 65536 != 0 || decide (2 ^ 55 < len) then none
  else match s.framesOf ctx base (len / 65536) with
  | none => none
  | some fs =>
    let w : Window := ⟨ctx, base, len, pin, fs⟩
    let total (t : Nat) : Nat := s.windows.foldl (fun n e => n + e.2.share t) (w.share t)
    if (s.context ctx).pinLim < s.pinnedBy ctx + w.charge || (upto 16).any fun t => decide (768 * mib < total t) then none else some w

/-- A context's PINNED brought up to date. -/
def State.countPinned (s : State) (ctx : Nat) : State := s.putContext ctx { s.context ctx with pinned := s.pinnedBy ctx }

/-- A window destroyed: its lines in the MSC take class normal, and its number is free (R352). -/
def State.dropWindow (s : State) (wid : Nat) (w : Window) : State :=
  let plain (e : Nat × MscLine) : Nat × MscLine := if w.frames.contains (e.1 / 512) then (e.1, { e.2 with cls := .cls .normal }) else e
  ({ s with windows := tabDel s.windows wid, msc := s.msc.map plain }).countPinned w.ctx

/-- Whether a WINDOW packet has the fields that Table 17.7 gives it, with an OP. -/
def windowFieldsOk (p : List Byte) : Bool := restZero p [(0, 5), (8, 16), (0x30, 8)] && decide (fieldAt p 4 1 < 2)

/-- A packet completes at the head with a status: its event, and HEAD advances. -/
def State.endHead (s : State) (q : Nat) (p : List Byte) (status : Nat) : State :=
  (s.fireEvent (s.headSource q) (s.stream q).ctx (fieldAt p 0x30 8) status (fieldAt p 0 1) 1).leaveHead q []

/-- What `WINDOW_CREATE` does (R352, R364); a WINDOW packet with any other OP than 2 is refused here. -/
def State.startWindowCreate (s : State) (q : Nat) (h : Head) : State :=
  let p := h.packet
  let ctx := (s.stream q).ctx
  if !windowFieldsOk p || fieldAt p 2 1 != 1 then s.endHead q p 2
  else
    let s0 := if fieldAt p 0x10 8 ≤ 2 ^ 40 then s.setFlags ctx (fieldAt p 8 8) (fieldAt p 0x10 8) else s
    if decide (fieldAt p 0x10 8 ≤ 2 ^ 40) && s0.flagsHeld ctx (fieldAt p 8 8) (fieldAt p 0x10 8) then s0
    else match s0.newWindow ctx (fieldAt p 3 1) (fieldAt p 4 1 == 0) (fieldAt p 8 8) (fieldAt p 0x10 8) with
    | some w => ({ s0 with windows := tabSet s0.windows (fieldAt p 3 1) w }.countPinned ctx).endHead q p 0
    | none => s0.endHead q p 2

/-- What `WINDOW_DESTROY` does (R352, R364). -/
def State.startWindowDestroy (s : State) (q : Nat) (h : Head) : State :=
  let p := h.packet
  match tabFind s.windows (fieldAt p 3 1) with
  | some w =>
    if windowFieldsOk p && w.ctx == (s.stream q).ctx then (s.dropWindow (fieldAt p 3 1) w).endHead q p 0 else s.endHead q p 2
  | none => s.endHead q p 2

/-! ### INVALIDATE and COPY (R290, R365) -/

/-- Whether a range is wholly canonical and does not pass 2^64. -/
def rangeCanonical (base len : Nat) : Bool :=
  decide (base + len ≤ 2 ^ 64) && (decide (base + len ≤ 2 ^ 54) || decide (2 ^ 64 - 2 ^ 54 ≤ base))

/-- The cached translations of a context that meet a range of pages removed everywhere, and the copies of its remote lines (R290, R416). -/
def State.invalidate (s : State) (ctx : Nat) (range : Option (Nat × Nat)) : State :=
  let hit (x : TlbEntry) : Bool := x.ctx == ctx && match range with
    | none => true
    | some (base, len) =>
      let lo := base % 2 ^ 55 / 65536
      let hi := (base % 2 ^ 55 + len + 65535) / 65536
      decide (x.page < hi) && decide (lo < x.page + x.pages)
  let out (l : List TlbEntry) : List TlbEntry := l.filter fun x => !hit x
  let s1 : State := { s with
    cores := s.cores.map fun e => (e.1, { e.2 with tlb := out e.2.tlb })
    clusterTlb := s.clusterTlb.map fun e => (e.1, out e.2)
    walkCache := s.walkCache.map fun e => (e.1, out e.2) }
  s1.dropCopies ctx fun va => match range with
    | none => true
    | some (base, len) => spanIn (some (base, base + len)) va 128

/-- The range of an INVALIDATE packet: none for the whole context. -/
def invalidateRange (p : List Byte) : Option (Nat × Nat) := if fieldAt p 0x10 8 == 0 then none else some (fieldAt p 8 8, fieldAt p 0x10 8)

/-- The context of an access that a warp or an engine operation has made. -/
def State.requesterCtx (s : State) : Requester → Option Nat
  | .warp k => ((tabFind s.warps k).bind s.launchOf).map (·.ctx)
  | .op n => (tabFind s.ops n).map s.opCtx
  | .coll n => (tabFind s.collectives n).map (·.ctx)
  | .front => none

/-- Whether a warp of a context holds stores in a log, by physical address: of a transaction opened by a clock, or of a deterministic quantum. -/
def State.logsHeld (s : State) (ctx since : Nat) : Bool :=
  s.warps.any fun e => ((s.launchOf e.2).map (·.ctx)) == some ctx
    && (!e.2.detWrites.isEmpty || e.2.lanes.any fun x => x.tx.any fun t => !t.writes.isEmpty && decide (t.opened ≤ since))

/-- Whether every access of a context in a range that cores and engines had made by a clock is performed: no request to a peer and no store is outstanding, no engine operation holds a
write for a meeting, and no log holds a store (R290). -/
def State.accessesDone (s : State) (ctx since : Nat) (range : Option (Nat × Nat)) : Bool :=
  let inside (va n : Nat) : Bool := match range with
    | none => true
    | some (base, len) => bytesMeet va n base len
  let store (w : WaitingStore) : Bool := w.ctx == ctx && inside w.va w.bytes.length
  !(s.peers.any fun e => e.2.outstanding.any fun r => (r.who == .front || s.requesterCtx r.who == some ctx) && inside r.va (RemoteOp.size r.op))
    && !(s.ops.any fun e => s.opCtx e.2 == ctx && e.2.work.any fun w => w.held.any fun h => !h.shm && inside h.va h.bytes.length)
    && !(s.collectives.any fun e => e.2.ctx == ctx && e.2.work.held.any fun h => inside h.va h.bytes.length)
    && !s.logsHeld ctx since
    && !((s.net ++ s.arrived).any fun m => m.data.any store) && !(s.cores.any fun e => e.2.l1.any fun x => x.2.waiting.any store)

/-- What `INVALIDATE` does (R290, R365): the translations go, and the packet completes once the accesses that used them are performed. -/
def State.startInvalidate (s : State) (q : Nat) (h : Head) : State :=
  let p := h.packet
  let ctx := (s.stream q).ctx
  if !restZero p [(0, 2), (8, 16), (0x30, 8)] || (fieldAt p 0x10 8 != 0 && !rangeCanonical (fieldAt p 8 8) (fieldAt p 0x10 8)) then s.endHead q p 2
  else
    let s1 := s.invalidate ctx (invalidateRange p)
    if s1.accessesDone ctx s.clock (invalidateRange p) then s1.endHead q p 0 else s1.leaveHead q [.invalidate (s.stream q).head p s.clock]

/-- The first INVALIDATE in flight of a stream that can complete. -/
def State.invalidated (s : State) (q : Nat) : Option (Nat × List Byte) :=
  (s.stream q).inFlight.findSome? fun i => match i with
    | .invalidate n p since => if s.accessesDone (s.stream q).ctx since (invalidateRange p) then some (n, p) else none
    | _ => none

/-- A packet in flight completes with a status. -/
def State.endPacket (s : State) (q n : Nat) (p : List Byte) (status : Nat) (f : InFlight → Bool) : State :=
  (s.fireEvent (some (q, n)) (s.stream q).ctx (fieldAt p 0x30 8) status (fieldAt p 0 1) 1).endFlight q f

/-- The completion of an INVALIDATE that has waited. -/
def State.finishInvalidate (s : State) (q : Nat) : State :=
  match s.invalidated q with
  | some (n, p) => s.endPacket q n p 0 fun i => match i with
    | .invalidate m _ _ => m == n
    | _ => false
  | none => s

/-- Whether a COPY packet's fields are legal (Table 17.7). -/
def copyFieldsOk (p : List Byte) : Bool := restZero p [(0, 2), (8, 28), (0x30, 8)] && decide (fieldAt p 0x20 4 < 8)

/-- What `COPY` does (R365): it starts at the head and completes once its bytes have moved. -/
def State.startCopy (s : State) (q : Nat) (h : Head) : State :=
  if copyFieldsOk h.packet then s.leaveHead q [.copy (s.stream q).head h.packet 0 none] else s.endHead q h.packet 2

/-- The class of a COPY (Table 17.7). -/
def copyClass (p : List Byte) : CacheClass :=
  match bits (fieldAt p 0x20 4) 2 1 with
  | 0 => .normal
  | 1 => .evictFirst
  | 2 => .keep
  | _ => .keepHigh

/-- The bytes that a copy moves at once: what is left of a destination word, of the source's line or of the range. A word so written is poisoned where one of its source words is (R399). -/
def copyStep (src dst left : Nat) : Nat := min left (min (8 - dst % 8) (128 - src % 128))

/-- One piece of a COPY: read and written, each at its home and through the caches with the class and the no-allocate bit of CTL (R365). -/
def State.copyWord (s0 : State) (ctx tag src dst n : Nat) (c : CacheClass) (na : Bool) : Except FrontStop State :=
  let s2 := (s0.setFlags ctx src n).setFlags ctx dst n
  let s := (s2.walkRange ctx src n).walkRange ctx dst n
  if s2.flagsHeld ctx src n || s2.flagsHeld ctx dst n then .error .wait
  else match s2.frontPiece ctx tag src n with
  | .error e => .error e
  | .ok (bs, bad) => match s2.frontPlace ctx dst n with
    | .error e => .error e
    | .ok d =>
      let s1 := match s.translateFront ctx src .read with
        | some p => if p.fab then s else (s.homeRead p.pa n).l2Access (p.pa / 128) c na false
        | none => s
      .ok (s1.putPiece d tag dst bs bad c na)

/-- Pieces of a COPY moved in ascending order, up to some number of them and up to the first that does not go on: the state, the bytes that have now moved, and why it stopped, if it has
not moved them all. -/
def State.copyRun (s : State) (ctx tag : Nat) (p : List Byte) : Nat → Nat → State × Nat × Option FrontStop
  | 0, moved => (s, moved, none)
  | fuel + 1, moved =>
    let len := fieldAt p 0x18 8
    let src := fieldAt p 8 8 + moved
    let dst := fieldAt p 0x10 8 + moved
    if len ≤ moved then (s, moved, none)
    else
      let n := copyStep src dst (len - moved)
      match s.copyWord ctx (tag + moved) src dst n (copyClass p) (bit (fieldAt p 0x20 4) 0) with
      | .error e => (s, moved, some e)
      | .ok s1 => s1.copyRun ctx tag p fuel (moved + n)

/-- The oldest COPY in flight of a stream: its number, its packet, the bytes moved and its status. -/
def Queue.copying (x : Queue) : Option (Nat × List Byte × Nat × Option Nat) :=
  x.inFlight.findSome? fun i => match i with
    | .copy n p m st => some (n, p, m, st)
    | _ => none

/-- The tag of the first byte of a COPY among the front end's remote accesses. -/
def copyTag (q n : Nat) : Nat := (q * 2 ^ 64 + n) * 2 ^ 64

/-- Whether an entry in flight is a COPY with a number. -/
def InFlight.isCopy (i : InFlight) (n : Nat) : Bool :=
  match i with
  | .copy m _ _ _ => m == n
  | _ => false

/-- How far a COPY in flight has come noted. -/
def State.noteCopy (s : State) (q n moved : Nat) (status : Option Nat) : State :=
  let x := s.stream q
  let set (i : InFlight) : InFlight := match i with
    | .copy m p a st => if m == n then .copy m p moved status else .copy m p a st
    | i => i
  { s with queues := tabSet s.queues q { x with inFlight := x.inFlight.map set } }

/-- A COPY that moves nothing more: it completes once what it has written on other packages is performed, which makes its completion a release at fabric scope (R334, R365), or with XLATE
where a peer was lost with some of it (R421). -/
def State.endCopy (s : State) (q n : Nat) (p : List Byte) (moved status : Nat) : State :=
  if s.tagsOut (copyTag q n) (2 ^ 64) then s.noteCopy q n moved (some status)
  else (s.dropTags (copyTag q n) (2 ^ 64)).endPacket q n p (if s.tagsLost (copyTag q n) (2 ^ 64) then 4 else status) fun i => i.isCopy n

/-- A COPY taken further by at most some number of pieces; the packet completes where none is left or a byte cannot be translated. -/
def State.runCopy (s : State) (q n : Nat) (p : List Byte) (moved pieces : Nat) : State :=
  match s.copyRun (s.stream q).ctx (copyTag q n) p pieces moved with
  | (s1, m, some .bad) => s1.endCopy q n p m 4
  | (s1, m, some e) => (s1.noteCopy q n m none).askFor e
  | (s1, m, none) => if fieldAt p 0x18 8 ≤ m then s1.endCopy q n p m 0 else s1.noteCopy q n m none

/-- The oldest COPY of a stream taken further by at most some number of pieces. -/
def State.moveCopy (s : State) (q : Nat) (pieces : Nat → Nat) : State :=
  match (s.stream q).copying with
  | none => s
  | some (n, p, m, none) => s.runCopy q n p m (pieces (fieldAt p 0x18 8))
  | some (n, p, m, some st) => s.endCopy q n p m st

/-- `COPY_COMPLETE` (R362, R365): the bytes that are left move, as far as both sides can be translated, and the packet completes. -/
def execCopyComplete (q : Nat) (s : State) : Host.Outcome State Fault Refusal := .next (s.moveCopy q fun len => len + 1)

/-- Whether a COPY goes on. -/
def State.copyDue (s : State) (q : Nat) : Bool :=
  match (s.stream q).copying with
  | none => false
  | some (n, _, _, some _) => !s.tagsOut (copyTag q n) (2 ^ 64)
  | some (n, p, m, none) => match (s.copyRun (s.stream q).ctx (copyTag q n) p 1 m).2.2 with
    | some e => !s.stuckFor e
    | none => true

/-! ### Halts and aging (R357, R366) -/

/-- `STREAM_HALT` (R357, R359): HALTED and ERRCODE are set, and HEAD stays. -/
def execStreamHalt (q : Nat) (s : State) : Host.Outcome State Fault Refusal :=
  let x := s.stream q
  .next (match s.haltDue q with
    | some e => s.putStream q { x with halted := true, errcode := e }
    | none => s)

/-- The clocks after which a stream of class 3 is raised (R366). -/
def agingLimit : Nat := 160000000

/-- Whether a stream is due to be raised. -/
def State.agingDue (s : State) (q : Nat) : Bool :=
  let x := s.stream q
  !x.raised && s.streamClass q == 3 && match x.current.bind (·.since) with
    | some t => decide (t + agingLimit < s.clock)
    | none => false

/-- `STREAM_AGING` (R366). -/
def execStreamAging (q : Nat) (s : State) : Host.Outcome State Fault Refusal :=
  .next (if s.agingDue q then s.putStream q { s.stream q with raised := true } else s)

end Sys2Proof.Machine
end

