-- ==== Sys2Proof/Machine/Dispatcher.lean ====
section
/-! DEFINITION. The dispatcher: which stream acts, where teams are placed, when cores are drained and teams pre-empted, and the waves of a deterministic launch (R366 to R368, R372, R391 to R394). -/

namespace Sys2Proof.Machine

/-! ### What a launch has to place -/

/-- The saved team clusters of a launch, lowest first (R367, R372). -/
def State.savedClusters (s : State) (id : Nat) (c : Nat) : List Nat :=
  let ns := (s.teams.filter fun e => e.2.launch == id && e.2.status == .saved).map fun e => e.2.flat / c
  ns.foldl (fun l n => insertSorted n l) []

/-- The next team cluster of a launch to place: a saved one is resumed before any of higher flat id is dispatched (R367). -/
def State.nextCluster (s : State) (id : Nat) (x : Launch) : Option Nat :=
  if x.status != .running then none
  else match s.savedClusters id x.clusterSize with
  | n :: _ => some n
  | [] => if x.dispatched < x.teams then some (x.dispatched / x.clusterSize) else none

/-- The launches of a stream in the order in which they are served: child grids before the stream's own, each in the order of their
start (R367). -/
def State.servedLaunches (s : State) (q : Nat) : List (Nat × Launch) :=
  let mine := s.launches.filter fun e => e.2.queue == q && (s.nextCluster e.1 e.2).isSome
  (mine.filter fun e => e.2.parent.isSome) ++ mine.filter fun e => e.2.parent.isNone

/-! ### Placement (R176, R368) -/

/-- The hardware clusters of the package, and the cores of one (R3). -/
def hwClusters : Nat := 128
/-- The cores of a hardware cluster (R3). -/
def clusterCores (cl : Nat) : List Nat := (upto 8).map fun i => cl * 8 + i

/-- A list in ascending order of a key. -/
def sortBy {α : Type} (key : α → List Nat) (l : List α) : List α :=
  l.foldr (fun x r => ins x r) []
where
  /-- An element placed before the first one of larger or equal key. -/
  ins (x : α) : List α → List α
    | [] => [x]
    | y :: r => if lexLt (key y) (key x) then y :: ins x r else x :: y :: r

/-- The saved team of a launch with a flat id. -/
def State.savedTeam (s : State) (id flat : Nat) : Option Nat :=
  (s.teams.find? fun e => e.2.launch == id && e.2.flat == flat && e.2.status == .saved).map (·.1)

/-- The ranks of a team cluster whose teams are to be placed: of one that has been saved those with a saved team, since a team that had retired before the save does not run again
(R42, R372); of any other all. -/
def State.ranksToPlace (s : State) (id : Nat) (x : Launch) (n : Nat) : List Nat :=
  let saved := (upto x.clusterSize).filter fun r => (s.savedTeam id (n * x.clusterSize + r)).isSome
  if saved.isEmpty then upto x.clusterSize else saved

/-- The load of the team that a rank of a team cluster places. -/
def State.loadOf (s : State) (id : Nat) (x : Launch) (n r : Nat) : Load :=
  match (s.savedTeam id (n * x.clusterSize + r)).bind fun t => (tabFind s.teams t).map fun tm => (t, tm) with
  | some (t, tm) => ⟨max (warpsOf x.desc x.width) (s.liveWarps t).length, tm.savedBins.length, tm.savedSealed.length, tm.savedQueues.map (·.1)⟩
  | none => x.freshLoad

/-- The larger of two loads, in each amount, with the queue sets of both. -/
def Load.max (a b : Load) : Load := ⟨Nat.max a.warps b.warps, Nat.max a.bins b.bins, Nat.max a.sealed b.sealed, a.queues ++ b.queues⟩

/-- What a team cluster asks of the cores that it is placed on: how many cores, and the load that each must admit (the largest of its teams; log entry 101). -/
structure Wanted where
  cores : Nat
  load : Load
  deriving DecidableEq, Repr

/-- What placing a team cluster asks for. -/
def State.wanted (s : State) (id : Nat) (x : Launch) (n : Nat) : Wanted :=
  let rs := s.ranksToPlace id x n
  ⟨rs.length, rs.foldl (fun m r => m.max (s.loadOf id x n r)) x.freshLoad⟩

/-- The admitting cores of a hardware cluster in the order of R368's step 1: most free warp slots first, then the lowest `%coreid`. -/
def State.admitting (s : State) (x : Launch) (u : Wanted) (cl : Nat) : List Nat :=
  sortBy (fun c => [64 - s.freeSlots c, c]) ((clusterCores cl).filter fun c => s.admits c x u.load)

/-- The cores on which a team cluster is placed among some hardware clusters: the cluster whose best cores, one for each team, have the most free
warp slots in total, the lowest on a tie (R368). -/
def State.placeFor (s : State) (x : Launch) (u : Wanted) (cls : List Nat) : Option (List Nat) :=
  let c := u.cores
  let options := (cls.map fun cl => (cl, (s.admitting x u cl).take c)).filter fun o => o.2.length == c
  let free (o : Nat × List Nat) : Nat := (o.2.map s.freeSlots).foldl (· + ·) 0
  (minBy (fun o => [64 * c - free o, o.1]) options).map (·.2)

/-- Whether every warp of one more team cluster can have its private segment (R355). -/
def State.segmentsOk (s : State) (x : Launch) : Bool := s.segmentsFor x (x.clusterSize * warpsOf x.desc x.width) []

/-- A core that has had no split since reset takes that of its first launch (DESIGN CHOICE: the spec gives no split at reset). -/
def State.takeSplit (s : State) (x : Launch) (core : Nat) : State :=
  let c := s.core core
  if c.split.isNone then { s with cores := tabSet s.cores core { c with split := some x.desc.split } } else s

/-- A team cluster placed on its cores, its ranks in ascending order: resumed where it was saved, else dispatched (R176, R249, R372). -/
def State.placeCluster (s : State) (id : Nat) (x : Launch) (n : Nat) (cores : List Nat) : State :=
  let rs := s.ranksToPlace id x n
  (upto rs.length).foldl (fun s i =>
    let flat := n * x.clusterSize + nth rs i 0
    let core := nth cores i 0
    let s1 := s.takeSplit x core
    match s1.savedTeam id flat with
    | some t => s1.resumeTeam x t core
    | none => s1.placeTeam id x flat core) s

/-- The cores for the next team cluster of a launch that may act now. A deterministic launch is placed in waves instead. -/
def State.roomFor (s : State) (id : Nat) (x : Launch) : Option (Nat × List Nat) :=
  if x.quantum != 0 then none
  else match s.nextCluster id x with
  | none => none
  | some n =>
    if (s.savedClusters id x.clusterSize).isEmpty && !s.segmentsOk x then none
    else (s.placeFor x (s.wanted id x n) (upto hwClusters)).map fun cs => (n, cs)

/-! ### The wave of a deterministic launch (R392, R393) -/

/-- The curve of R393. -/
def hilbert : Nat → Nat → Nat → Nat → Nat → Nat
  | 0, _, _, _, _ => 0
  | fuel + 1, n, s, x, y =>
    if s == 0 then 0
    else
      let rx := if Nat.land x s != 0 then 1 else 0
      let ry := if Nat.land y s != 0 then 1 else 0
      let d := s * s * Nat.xor (3 * rx) ry
      if ry == 0 then
        let x' := if rx == 1 then n - 1 - x else x
        let y' := if rx == 1 then n - 1 - y else y
        d + hilbert fuel n (s / 2) y' x'
      else d + hilbert fuel n (s / 2) x y

/-- The smallest power of 2 that is at least `m`; `fuel` bounds the doublings. -/
def powerAtLeast : Nat → Nat → Nat → Nat
  | 0, p, _ => p
  | fuel + 1, p, m => if m ≤ p then p else powerAtLeast fuel (2 * p) m

/-- The Hilbert index of a team cluster's rank-0 team, with its z (R393). -/
def Launch.curve (x : Launch) (n : Nat) : List Nat :=
  let gx := x.field 0x10 4
  let gy := x.field 0x14 4
  let flat := n * x.clusterSize
  let side := powerAtLeast 32 1 (max gx gy)
  [flat / (gx * gy), hilbert 33 side (side / 2) (flat % gx) (flat / gx % gy)]

/-- The team clusters of a full wave (R392). -/
def Launch.waveSize (x : Launch) : Nat := max 1 (128 * (8 / x.clusterSize) * x.perCore)

/-- The sorted list of the wave that a deterministic launch starts or resumes next (R393): that of a wave which has been saved stays what it was at its start, so that no entry
moves to another die. -/
def State.waveClusters (s : State) (id : Nat) (x : Launch) : List Nat :=
  if (s.savedClusters id x.clusterSize).isEmpty then
    let first := x.dispatched / x.clusterSize
    let left := x.teams / x.clusterSize - first
    sortBy (fun n => x.curve n ++ [n]) ((upto (min x.waveSize left)).map (first + ·))
  else x.waveList

/-- The runs of a wave: run i goes to CD i (R393). -/
def waveRuns (ns : List Nat) : List (List Nat) :=
  let r := (ns.length + 7) / 8
  (upto 8).map fun i => (ns.drop (i * r)).take r

/-- The hardware clusters of a compute die. -/
def dieClusters (die : Nat) : List Nat := (upto 16).map fun i => die * 16 + i

/-- A run placed on its die, or as much of it as the die can hold, with the first team cluster that it cannot hold. -/
def State.placeRun (s : State) (id : Nat) (x : Launch) (die : Nat) : List Nat → Except (Nat × State) State
  | [] => .ok s
  | n :: r =>
    if (s.savedClusters id x.clusterSize).isEmpty && !s.segmentsOk x then .error (n, s)
    else match s.placeFor x (s.wanted id x n) (dieClusters die) with
    | none => .error (n, s)
    | some cs => (s.placeCluster id x n cs).placeRun id x die r

/-- The runs placed on their dies from `die` on: the state, or the first die that cannot hold its run, with the team cluster and what could be placed. -/
def State.placeRuns (s : State) (id : Nat) (x : Launch) (die : Nat) : List (List Nat) → Except (Nat × Nat × State) State
  | [] => .ok s
  | run :: r => match s.placeRun id x die run with
    | .ok s1 => s1.placeRuns id x (die + 1) r
    | .error e => .error (die, e)

/-- Whether a deterministic launch waits to start or resume a wave: no team of it runs, and its operations and their effects are done. -/
def State.waveWaits (s : State) (id : Nat) (x : Launch) : Bool :=
  x.quantum != 0 && x.status == .running && x.heldOps.isEmpty
    && (s.teams.all fun e => e.2.launch != id || e.2.status == .saved) && (s.nextCluster id x).isSome

/-- A wave placed as a whole (R392): the state, or the die that cannot hold its run, with the team cluster and what could be placed. Of a saved wave the team clusters that are
left are placed, each in the run that it was cut into at the wave's start (R393). -/
def State.placeWave (s : State) (id : Nat) (x : Launch) : Except (Nat × Nat × State) State :=
  let saved := s.savedClusters id x.clusterSize
  s.placeRuns id x 0 ((waveRuns (s.waveClusters id x)).map fun run => run.filter fun n => saved.isEmpty || saved.contains n)

/-- A launch's dispatch counted, and its packet off the head with its last team (R356). -/
def State.countDispatch (s : State) (id n : Nat) : State :=
  match tabFind s.launches id with
  | none => s
  | some x =>
    let x1 := { x with dispatched := x.dispatched + n }
    let s1 : State := { s with launches := tabSet s.launches id x1 }
    let held := ((s1.stream x.queue).current.bind (·.started)) == some id && x.parent.isNone
    if held && x1.dispatched == x.teams then s1.leaveHead x.queue [.launch (s1.stream x.queue).head id] else s1

/-- The list of the present wave kept with its launch. -/
def State.noteWave (s : State) (id : Nat) (ns : List Nat) : State :=
  match tabFind s.launches id with
  | none => s
  | some x => { s with launches := tabSet s.launches id { x with waveList := ns } }

/-! ### Making room (R174, R368) -/

/-- The effective class of a launch. -/
def State.launchClass (s : State) (id : Nat) : Nat := ((tabFind s.launches id).map fun x => s.streamClass x.queue).getD 3

/-- The class of a core's teams: the best of them. -/
def State.coreClass (s : State) (core : Nat) : Nat := (s.residents core).foldl (fun m e => min m (s.launchClass e.2.launch)) 3

/-- What the dispatcher can do to make a core fit for a launch. -/
inductive Room where
  | nothing
  | drain (core : Nat)
  | preempt (team : Nat)
  deriving DecidableEq, Repr

/-- The running team of a core that is pre-empted first: lowest class first, highest flat id first (R368). -/
def State.victim (s : State) (core : Nat) : Option Nat :=
  (minBy (fun e : Nat × Team => [3 - s.launchClass e.2.launch, 2 ^ 63 - e.2.flat]) ((s.residents core).filter fun e => e.2.status == .running)).map (·.1)

/-- The pre-emption that a core of lower class offers, if any of its teams still runs. -/
def State.askCore (s : State) (core : Nat) : Room := ((s.victim core).map Room.preempt).getD .nothing

/-- A core's place in the order of R368 for a launch of effective class `e`, with what to do there; none for a core of no use. `more` says that one
more core may be drained. -/
def State.rankCore (s : State) (x : Launch) (u : Wanted) (e : Nat) (more : Bool) (core : Nat) : Option (List Nat × Room) :=
  let c := s.core core
  let n := (s.residents core).length
  let cls := s.coreClass core
  let key (r : Nat) : List Nat := [r, 3 - cls, n, core]
  let lower := decide (e < cls)
  let gap := decide (e + 2 ≤ cls)
  if s.admits core x u.load then some (key 0, .nothing)
  else if c.draining then
    if c.next != some x.desc.split then none
    else if n == 0 then some (key 1, .nothing)
    else if gap then some (key 3, s.askCore core)
    else some (key 6, .nothing)
  else if c.split != some x.desc.split then
    if !more then none
    else if n == 0 then some (key 2, .drain core)
    else if lower then some (key 4, .drain core) else none
  else if gap && n != 0 then some (key 5, s.askCore core)
  else none

/-- The teams of a launch still unplaced. -/
def State.unplaced (s : State) (id : Nat) (x : Launch) : Nat :=
  x.teams - x.dispatched + (s.teams.filter fun e => e.2.launch == id && e.2.status == .saved).length

/-- The first thing to do for a team cluster that no hardware cluster of a list admits (R368): the hardware cluster is the one whose best
cores, one for each team, rank best, judged by the worst of them. -/
def State.makeRoom (s : State) (id : Nat) (x : Launch) (n : Nat) (cls : List Nat) : Room :=
  let u := s.wanted id x n
  let e := s.streamClass x.queue
  let draining := (s.cores.filter fun c => c.2.draining && c.2.next == some x.desc.split).length
  let more := decide (draining < s.unplaced id x)
  let ranked (cl : Nat) : List (List Nat × Room) :=
    (sortBy (fun r : List Nat × Room => r.1) ((clusterCores cl).filterMap fun c => s.rankCore x u e more c)).take u.cores
  let options := (cls.map fun cl => (cl, ranked cl)).filter fun o => o.2.length == u.cores
  let worst (o : Nat × List (List Nat × Room)) : List Nat := ((o.2.getLast?).map (·.1)).getD []
  match minBy (fun o => worst o ++ [o.1]) options with
  | none => .nothing
  | some o => ((o.2.find? fun r => r.2 != .nothing).map (·.2)).getD .nothing

/-- The room made. -/
def State.doRoom (s : State) (x : Launch) : Room → State
  | .nothing => s
  | .drain core => { s with cores := tabSet s.cores core { s.core core with draining := true, next := some x.desc.split } }
  | .preempt t => s.preempt t

/-- What the dispatcher does for a launch of a stream whose next team cluster, or wave, cannot be placed. -/
def State.roomWanted (s : State) (id : Nat) (x : Launch) : Room :=
  if x.quantum != 0 then
    if !s.waveWaits id x then .nothing
    else match s.placeWave id x with
    | .ok _ => .nothing
    | .error (die, n, s1) => s1.makeRoom id x n (dieClusters die)
  else match s.nextCluster id x with
  | none => .nothing
  | some n => if (s.roomFor id x).isSome then .nothing else s.makeRoom id x n (upto hwClusters)

/-! ### Which stream acts (R367) -/

/-- An action of a stream. -/
inductive Action where
  | start
  | child
  | team (id n : Nat) (cores : List Nat)
  | wave (id : Nat)
  deriving DecidableEq, Repr

/-- A launch's action, where it has one now. -/
def State.launchAction (s : State) (e : Nat × Launch) : Option Action :=
  if e.2.quantum != 0 then
    if s.waveWaits e.1 e.2 then (match s.placeWave e.1 e.2 with
      | .ok _ => some (.wave e.1)
      | .error _ => none)
    else none
  else (s.roomFor e.1 e.2).map fun r => .team e.1 r.1 r.2

/-- Whether a stream's head packet can start. -/
def State.headStarts (s : State) (q : Nat) : Bool :=
  let x := s.stream q
  match x.current with
  | some h => s.streamOpen x && h.waits && x.mayStart h.packet
    && !(fieldAt h.packet 0 1 == 1 && s.launchStuck x.ctx (fetchTag 1 q) h.packet)
  | none => false

/-- What a stream would do at its turn (R367): the started child grids, the next child, and the ring head. -/
def State.streamAction (s : State) (q : Nat) : Option Action :=
  if !s.streamOpen (s.stream q) then none
  else
    let ls := s.servedLaunches q
    match (ls.filter fun e => e.2.parent.isSome).findSome? s.launchAction with
    | some a => some a
    | none =>
      if (s.firstChild q).any fun c => !s.launchStuck c.ctx (fetchTag 2 q) c.packet then some .child
      else if (s.firstChild q).isSome then none
      else match (ls.filter fun e => e.2.parent.isNone).findSome? s.launchAction with
      | some a => some a
      | none => if s.headStarts q then some .start else none

/-- The streams of a class in the order of its rotating pointer (R367). -/
def State.turnOrder (s : State) (cls : Nat) : List Nat :=
  let p := nth s.roundRobin cls 0
  let qs := (s.queues.map (·.1)).filter fun q => s.streamClass q == cls
  (qs.filter fun q => decide (p ≤ q)) ++ qs.filter fun q => decide (q < p)

/-- The stream that acts next and what it does: the highest class first, and within it the first stream from the pointer that can act. -/
def State.nextAction (s : State) : Option (Nat × Action) :=
  ((upto 4).flatMap s.turnOrder).findSome? fun q => (s.streamAction q).map fun a => (q, a)

/-- The pointer of a stream's class moved past it. -/
def State.served (s : State) (q : Nat) : State := { s with roundRobin := setNth s.roundRobin (s.streamClass q) ((q + 1) % 1024) }

/-- Whether it is a stream's turn to start its head packet. -/
def State.startTurn (s : State) (q : Nat) : Bool := s.nextAction == some (q, .start)

/-- The start of a stream's head packet of a KIND, at the stream's turn (R358, R367). -/
def State.onTurn (s : State) (q kind : Nat) (f : State → Nat → Head → State) : State :=
  match s.startTurn q, s.headOf q kind with
  | true, some h => f (s.served q) q h
  | _, _ => s

/-- Whether the head packet of a stream is a WINDOW destroy. -/
def State.destroys (s : State) (q : Nat) : Bool := ((s.headOf q 4).map fun h => fieldAt h.packet 2 1 == 2).getD false

/-- `KERNEL` (R360). -/
def execKernel (q : Nat) (s : State) : Host.Outcome State Fault Refusal := .next (s.onTurn q 1 State.startKernel)

/-- `WAIT` (R363). -/
def execWait (q : Nat) (s : State) : Host.Outcome State Fault Refusal := .next (s.onTurn q 2 State.startWait)

/-- `SIGNAL` (R363). -/
def execSignal (q : Nat) (s : State) : Host.Outcome State Fault Refusal := .next (s.onTurn q 3 State.startSignal)

/-- `WINDOW_CREATE` (R352, R364); a WINDOW packet with an OP that does not exist is refused here. -/
def execWindowCreate (q : Nat) (s : State) : Host.Outcome State Fault Refusal :=
  .next (if s.destroys q then s else s.onTurn q 4 State.startWindowCreate)

/-- `WINDOW_DESTROY` (R352, R364). -/
def execWindowDestroy (q : Nat) (s : State) : Host.Outcome State Fault Refusal :=
  .next (if s.destroys q then s.onTurn q 4 State.startWindowDestroy else s)

/-- `INVALIDATE` (R290, R365). -/
def execInvalidate (q : Nat) (s : State) : Host.Outcome State Fault Refusal := .next (s.onTurn q 5 State.startInvalidate)

/-- `COPY` (R365). -/
def execCopy (q : Nat) (s : State) : Host.Outcome State Fault Refusal := .next (s.onTurn q 6 State.startCopy)

/-- `CHILD_GRID_START` (R370). -/
def execChildGridStart (q : Nat) (s : State) : Host.Outcome State Fault Refusal :=
  .next (match s.nextAction == some (q, .child), s.firstChild q with
    | true, some c => (s.served q).startChild c
    | _, _ => s)

/-- The launch of a stream for which the dispatcher drains or pre-empts. -/
def State.roomLaunch (s : State) (q : Nat) : Option (Nat × Launch) :=
  if s.streamOpen (s.stream q) then (s.servedLaunches q).find? fun e => s.roomWanted e.1 e.2 != .nothing else none

/-- `TEAM_DISPATCH` (R367, R368): at its stream's turn a team cluster is placed; for one that cannot be, a core is drained or teams are
pre-empted. -/
def execTeamDispatch (q : Nat) (s : State) : Host.Outcome State Fault Refusal :=
  .next (match s.nextAction with
    | some (p, .team id n cores) =>
      if p == q then
        match tabFind s.launches id with
        | some x =>
          let fresh := (s.savedClusters id x.clusterSize).isEmpty
          ((s.served q).placeCluster id x n cores).countDispatch id (if fresh then x.clusterSize else 0)
        | none => s
      else (s.roomLaunch q).elim s fun e => s.doRoom e.2 (s.roomWanted e.1 e.2)
    | _ => (s.roomLaunch q).elim s fun e => s.doRoom e.2 (s.roomWanted e.1 e.2))

/-! ### The spawned warps of a deterministic launch (R391) -/

/-- Whether a bin is one of a launch's. -/
def State.binOf (s : State) (id : Nat) (b : SpawnBin) : Bool := ((tabFind s.teams b.team).map (·.launch)) == some id

/-- The bins of a launch on a core sealed in bin order, as far as the pending queue holds them (R391). -/
def State.sealBins (s : State) (id core : Nat) : State :=
  let c := s.core core
  let mine := c.bins.filter (s.binOf id)
  let room := maxBins - c.sealed.length
  let now := mine.take room
  if now.isEmpty then s
  else { s with cores := tabSet s.cores core { c with bins := c.bins.filter (fun b => !now.contains b), sealed := c.sealed ++ now } }

/-- The bins of a launch on a core sealed, and its sealed warps started in sealing order, as far as R187 lets them; a start makes room for the next seals. -/
def State.startAll (id core : Nat) : Nat → State → State
  | 0, s => s
  | fuel + 1, s =>
    let s1 := s.sealBins id core
    match firstIndex (fun b => s1.binOf id b && s1.mayStart core b) (s1.core core).sealed with
    | some i => State.startAll id core fuel (s1.startSealed core i)
    | none => s1

/-- Every bin of a launch sealed, and its warps started for the next quantum (R391), which for a wave that stops begins after its resumption. -/
def State.spawnAll (s : State) (id : Nat) (stops : Bool) : State :=
  (s.cores.map (·.1)).foldl (fun s c => if stops then s.sealBins id c else State.startAll id c (4 * maxBins) s) s

/-- `WAVE_START` (R392, R393). A wave that is resumed starts its sealed warps with its quantum (R391). -/
def execWaveStart (id : Nat) (s : State) : Host.Outcome State Fault Refusal :=
  .next (match s.nextAction, tabFind s.launches id with
    | some (q, .wave j), some x =>
      if j == id then
        let fresh := (s.savedClusters id x.clusterSize).isEmpty
        let ns := s.waveClusters id x
        match (s.served q).placeWave id x with
        | .ok s1 =>
          let s2 := (s1.noteWave id ns).countDispatch id (if fresh then ns.length * x.clusterSize else 0)
          if fresh then s2 else s2.spawnAll id false
        | .error _ => s
      else s
    | _, _ => s)

end Sys2Proof.Machine
end

