-- ==== Sys2Proof/Machine/Determ.lean ====
section
/-! DEFINITION. Deterministic execution: the end of a quantum and the meeting of a wave (R345, R387 to R391, R394). -/

namespace Sys2Proof.Machine

/-! ### The end of a quantum (R387) -/

/-- Whether a warp has used up the quantum of a deterministic launch (R387). -/
def State.quantumUsed (s : State) (w : Warp) : Bool :=
  match s.launchOf w with
  | some x => x.quantum != 0 && decide (x.quantum ≤ w.count)
  | none => false

/-- `QUANTUM_END` (R387). -/
def execQuantumEnd (k : Nat) (s : State) : Host.Outcome State Fault Refusal :=
  s.onWarp k fun w =>
    if w.status == .ready && s.quantumUsed w then s.putWarp k { w with status := .waiting (.meeting none), count := 0 } else s

/-! ### Who meets (R389) -/

/-- The warps of a deterministic launch that are on a core, in the order of R345: flat team id, then warp id. -/
def State.waveWarps (s : State) (id : Nat) : List (Nat × Warp) :=
  let flat (w : Warp) : Nat := ((tabFind s.teams w.team).map (·.flat)).getD 0
  sortBy (fun e => [flat e.2, e.2.warpid]) (s.warps.filter fun e => match tabFind s.teams e.2.team with
    | some tm => tm.launch == id && tm.status.present
    | none => false)

/-- Whether a warp has ended its quantum: it waits at the meeting, its instruction is pending, or it has stopped or retired. -/
def Warp.attends (w : Warp) : Bool :=
  w.pends || match w.status with
  | .waiting (.meeting _) | .stopped | .retired => true
  | _ => false

/-- Whether no store, push or remote access of a warp is still on its way. -/
def State.quiet (s : State) (k : Nat) (w : Warp) : Bool :=
  w.pushesOut.isEmpty && !(s.peers.any fun e => e.2.outstanding.any fun r => r.who == .warp k) && (s.unperformed w.core k).isEmpty

/-- Whether no lock and no busy line keeps a meeting from some bytes of this package (R273, R303). -/
def State.openAt (s : State) (pa n : Nat) : Bool := (sectorsOf pa n).all (fun x => (tabFind s.locks x).isNone) && s.quietAt pa n

/-- Whether a commit lies open to a warp: no transaction has locked a sector that it writes, and no line that it writes is busy (R273, R303). -/
def State.commitFree (s : State) (w : Warp) : Bool := w.detWrites.all fun e => decide (2 ^ 60 ≤ e.1) || s.openAt e.1 1

/-- The pending instruction of a warp that has ended its quantum. -/
def Warp.pendingInstr (w : Warp) : Option Instr :=
  match w.status with
  | .waiting (.meeting (some i)) | .waiting (.retry i) => some i
  | _ => none

/-- Whether the accesses to global memory that a warp's pending instruction makes lie open, so that it is performed at the meeting in one event (R345). -/
def State.pendingFree (s : State) (w : Warp) : Bool :=
  match w.pendingInstr, s.env? w with
  | some i, some env => (accessesOf w i).all fun x =>
      x.2.1.toNat % x.2.2.1 != 0 || placeOf env x.2.1.toNat x.2.2.1 != .global || match s.translate env.core env.ctx x.2.1.toNat x.2.2.2 with
        | .ok p => p.fab || s.openAt p.pa x.2.2.1
        | .error _ => true
  | _, _ => true

/-- Whether a finished operation has something to do at a meeting: it holds writes, or none of its remote writes is on its way. -/
def State.opMeets (s : State) (id : Nat) (o : EngineOp) : Bool :=
  o.done && (((o.work.map (·.held)).getD []) != [] || !s.opOutstanding id)

/-- Whether no lock and no busy line keeps the held writes of the finished operations and collectives of a launch from memory (R273, R303). -/
def State.heldFree (s : State) (id : Nat) : Bool :=
  let mine (t : Nat) : Bool := ((tabFind s.teams t).map (·.launch)) == some id
  let free (h : HeldWrite) : Bool := h.shm || h.fab || !s.heldBack h.pa h.bytes.length
  (s.ops.all fun e => !e.2.done || !mine e.2.team || ((e.2.work.map (·.held)).getD []).all free)
    && s.collectives.all fun e => !e.2.done || !mine e.2.team || e.2.work.held.all free

/-- The engine operations of a launch that have finished and have something to do at a meeting, with their places in the order of issue. -/
def State.opsDone (s : State) (id : Nat) : List (Nat × Nat) :=
  (s.ops.filter fun e => s.opMeets e.1 e.2 && ((tabFind s.teams e.2.team).map (·.launch)) == some id).map fun e => (e.2.issued.getD 0, e.1)

/-- The collectives of a launch that have finished and have something to do at a meeting. -/
def State.collsDone (s : State) (id : Nat) : List (Nat × Nat) :=
  (s.collectives.filter fun e => e.2.done && (e.2.work.held != [] || !s.collOutstanding e.1) && ((tabFind s.teams e.2.team).map (·.launch)) == some id).map fun e => (e.2.issued.getD 0, e.1)

/-- Whether a warp has not come to its end. -/
def Warp.unfinished (w : Warp) : Bool := w.status != .retired && w.status != .stopped

/-- Whether some core holds spawned threads of a launch. -/
def State.hasBins (s : State) (id : Nat) : Bool := s.cores.any fun c => (c.2.bins ++ c.2.sealed).any (s.binOf id)

/-- Whether a wave is being pre-empted and has not come to the meeting that stops it (R394). -/
def State.waveStopping (s : State) (id : Nat) : Bool :=
  s.teams.any fun e => e.2.launch == id && match e.2.status with
    | .stopping _ => true
    | _ => false

/-- Whether a wave has stopped at a meeting and waits to be saved (R394). -/
def State.waveHalted (s : State) (id : Nat) : Bool := s.teams.any fun e => e.2.launch == id && e.2.status == .halted

/-- Whether a meeting has something to do for the wave's warps: one that goes on, a wave to be stopped, or the spawned threads of a wave that has ended. -/
def State.waveMeets (s : State) (id : Nat) : Bool :=
  let ws := s.waveWarps id
  !s.waveHalted id && (s.waveStopping id || ws.any (fun e => e.2.unfinished) || (s.hasBins id && ws.all fun e => e.2.status == .retired))

/-- Whether a meeting has something to do for what warps and engines have held for it. -/
def State.heldMeets (s : State) (id : Nat) (x : Launch) : Bool :=
  (s.waveWarps id).any (fun e => !e.2.detArrivals.isEmpty || (!e.2.detChildren.isEmpty && decide (s.children.length < maxChildren)))
    || !(s.opsDone id).isEmpty || !(s.collsDone id).isEmpty || !x.heldOps.isEmpty

/-- Whether a meeting of a launch begins: every warp of its wave has ended its quantum or retired, and something is left to do (R389). A wave that has stopped meets only for what is
still held. -/
def State.meetingDue (s : State) (id : Nat) : Bool :=
  match tabFind s.launches id with
  | none => false
  | some x =>
    let ws := s.waveWarps id
    x.quantum != 0 && ws.all (fun e => e.2.attends && s.quiet e.1 e.2 && s.commitFree e.2 && s.pendingFree e.2)
      && s.heldFree id && (s.waveMeets id || s.heldMeets id x)

/-! ### The commit of a warp (R345, R388, R390, R391) -/

/-- Logged bytes as runs of rising addresses within one sector; `vas` are the virtual addresses of those in global memory, which rise with them. -/
def writeRuns (vas : Tab Nat) : Tab Byte → List (Nat × List Byte)
  | [] => []
  | (a, b) :: r => match writeRuns vas r with
    | (c, bs) :: t =>
      if c == a + 1 && c % 32 != 0 && tabFind vas c == (tabFind vas a).map (· + 1) then (a, b :: bs) :: t else (a, [b]) :: (c, bs) :: t
    | [] => [(a, [b])]

/-- The cores that the held pushes of a warp target with a line. -/
def Warp.heldTargets (w : Warp) (line : Nat) : List Nat := w.detPushes.flatMap fun m => if m.1.line == line then m.1.targets else []

/-- One run of a warp's logged bytes performed where its key says: another package, the team's shared memory, or this package, where the S copies of the cores that the line will be
pushed to are kept (R262). The page counts as written now (R401). -/
def State.commitRun (k team : Nat) (w : Warp) (s : State) (r : Nat × List Byte) : State :=
  let s1 := match tabFind w.detVas r.1 with
    | some va => s.noteWrite (s.launchKey w) va
    | none => s
  if 2 ^ 70 ≤ r.1 then s1.request (r.1 / 2 ^ 70 - 1) (.store (r.1 % 2 ^ 70) r.2 false) (.warp k) 0 (tabGet w.detVas r.1 0)
  else if 2 ^ 65 ≤ r.1 then s1.plainShm team (r.1 - 2 ^ 65) r.2
  else s1.homeWriteBut r.1 r.2 .normal false (w.heldTargets (r.1 / 128))

/-- Whether a warp's log holds a store to a lost peer (R421). -/
def State.logLost (s : State) (w : Warp) : Bool :=
  w.detWrites.any fun e => decide (2 ^ 70 ≤ e.1) && s.lostPeer (e.1 / 2 ^ 70 - 1)

/-- The operations and collectives of a warp held for the meeting are issued, in the order of their instructions (R390). One that finds its queue full waits for a later meeting, and
with it every later one of the warp in that queue (R218, R228). -/
def State.issueHeld (s : State) (id k : Nat) : State :=
  match tabFind s.launches id with
  | none => s
  | some x =>
    let mine (n : Nat) : Bool := ((tabFind s.ops n).map (·.warp)) == some k || ((tabFind s.collectives n).map (·.warp)) == some k
    let drop (s : State) (n : Nat) : State := match tabFind s.launches id with
      | some y => { s with launches := tabSet s.launches id { y with heldOps := y.heldOps.filter (· != n) } }
      | none => s
    (x.heldOps.filter mine).foldl (fun s n => match tabFind s.ops n, tabFind s.collectives n with
      | some o, _ => if (s.core o.core).queueFull o.kind.queue then s else drop (s.enqueue n o) n
      | none, some c => drop (s.issueColl n c) n
      | none, none => drop s n) s

/-- A warp's logs committed: its stores, its pushes, its child grids as far as the package holds them (R370), its operations, and its barrier arrivals, which wait for a later commit
while a push of this one is to be acknowledged (R267). -/
def State.commitWarp (s : State) (id k : Nat) : State :=
  match tabFind s.warps k with
  | none => s
  | some w =>
    if s.logLost w then s.abortLaunch w 0x10 false false false w.pc 0 w.active
    else
      let held := if w.detPushes.isEmpty then [] else w.detArrivals
      let room := maxChildren - s.children.length
      let w1 := { w with
        detWrites := [], detVas := [], detPushes := [], detChildren := w.detChildren.drop room, detArrivals := held
        lanes := w.lanes.map fun x => { x with storeLog := [] } }
      let s1 := (writeRuns w.detVas w.detWrites).foldl (State.commitRun k w.team w) (s.putWarp k w1)
      let (s2, w2) := makePushes w.detPushes s1 w1
      let s3 := if held.isEmpty then w.detArrivals.foldl (fun s a => s.arrive w.team a.1 a.2 0) s2 else s2
      ({ s3 with children := s3.children ++ w.detChildren.take room }.putWarp k w2).issueHeld id k

/-! ### The pending instruction (R345, R389) -/

/-- What a wait becomes that an instruction performed at the meeting is left with: it is tried again at the next one. -/
def Warp.pending? (w : Warp) (i : Instr) : Warp :=
  match w.status with
  | .waiting .pushes | .waiting .remote | .waiting (.retry _) => { w with status := .waiting (.meeting (some i)) }
  | _ => w

/-- An instruction performed at the meeting. -/
def State.redoAt (s : State) (k : Nat) (w : Warp) (i : Instr) : State :=
  let s1 := (s.translated w i).issueBy k (s.awaits w i) 4 fun s k env w => redo i s k { env with meeting := true } w
  match tabFind s1.warps k with
  | some w1 => s1.putWarp k (w1.pending? i)
  | none => s1

/-- A warp's pending instruction tried (R389). -/
def State.tryPending (s : State) (k : Nat) : State :=
  match tabFind s.warps k with
  | none => s
  | some w => match w.status with
    | .waiting (.meeting (some i)) => s.redoAt k w i
    | .waiting (.retry i) => s.redoAt k w i
    | .waiting (.append i _ _ _) => s.redoAt k w i
    | .waiting (.pop i) => s.redoAt k w i
    | .waiting (.freeQueue q) => s.redoAt k w (.qdetOwn q)
    | .waiting (.await d n) => if w.batchesDone (BitVec.ofNat 16 n) then s.resumeAfter k (w.awaited d) 4 else s
    | .waiting (.bwait d off q) => if s.phaseReached w.team off q then s.resumeAfter k (w.phaseSeen s d off) 4 else s
    | .waiting (.tcopyY n pc) =>
      if w.batches.any fun b => b.number == BitVec.ofNat 16 n then s else s.putWarp k (w.continueAt pc)
    | _ => s

/-- A warp's turn in a meeting: its commit, then its pending instruction. -/
def State.meetWarp (id : Nat) (s : State) (k : Nat) : State := (s.commitWarp id k).tryPending k

/-! ### After the last commit (R389 to R391) -/

/-- The finished operations and collectives of a launch performed in the order of their issue (R390). -/
def State.performDone (s : State) (id : Nat) : State :=
  (sortBy (fun e : Nat × Nat => [e.1]) (s.opsDone id ++ s.collsDone id)).foldl (fun s e =>
    match tabFind s.ops e.2, tabFind s.collectives e.2 with
    | some o, _ => s.meetOp e.2 o
    | none, some c => s.meetColl e.2 c
    | none, none => s) s

/-- The barriers of a launch whose participants have all arrived release (R389). -/
def State.releaseAll (s : State) (id c : Nat) : State :=
  let ts := s.teams.filter fun e => e.2.launch == id && e.2.status.present
  let s1 := ts.foldl (fun s e => match tabFind s.teams e.1 with
    | some tm => if s.barDue e.1 tm then s.releaseBar e.1 else s
    | none => s) s
  ((ts.map fun e => e.2.flat / c).foldl (fun l n => insertSorted n l) []).foldl (fun s n =>
    if s.cbarDue id n then s.releaseCbar id c n else s) s1

/-- A warp after the meeting: it begins its next quantum, or stops with the wave (R394). -/
def Warp.afterMeeting (w : Warp) (stops : Bool) : Warp :=
  let w1 := { w with count := 0 }
  match w.status with
  | .waiting (.meeting none) => { w1 with status := if stops then .stopped else .ready }
  | .waiting (.meeting (some _)) => if stops then { w1 with status := .stopped } else w1
  | .ready => if stops then { w1 with status := .stopped } else w1
  | _ => w1

/-- The operations of a wave that stops cancelled, those that still waited for a meeting included; an exited warp's complete (R211, R232, R243). DEDUCED: R394 keeps each warp's whole
state, but no operation is part of the save image of R371 (log entry 116). -/
def State.cancelWave (s : State) (id : Nat) : State :=
  let ks := ((s.waveWarps id).filter fun e => e.2.status != .retired).map (·.1)
  let s1 := s.cancelOps fun o => ks.contains o.warp
  match tabFind s1.launches id with
  | some x => { s1 with launches := tabSet s1.launches id { x with heldOps := x.heldOps.filter fun n => (tabFind s1.ops n).isSome || (tabFind s1.collectives n).isSome } }
  | none => s1

/-- The teams of a wave that is being pre-empted stopped (R394). -/
def State.haltWave (s : State) (id : Nat) : State :=
  { s with teams := s.teams.map fun e => if e.2.launch == id && e.2.status.present then (e.1, { e.2 with status := .halted }) else e }

/-- The end of a meeting: the wave's warps begin their next quantum, or the wave stops. -/
def State.endMeeting (s0 : State) (id : Nat) : State :=
  let stops := s0.waveStopping id
  let s := if stops then (s0.cancelWave id).haltWave id else s0
  let ks := (s.waveWarps id).map (·.1)
  { s with warps := s.warps.map fun e => if ks.contains e.1 then (e.1, e.2.afterMeeting stops) else e }

/-- The pushes of a meeting sent by the homes of the lines that it wrote, which are busy from here on (R262, R265, R391). Those of a line for which others are on their way follow
them. -/
def State.flushPushes (s : State) : State :=
  s.net.foldl (fun s m =>
    if m.kind == .homeWrite && m.data.isEmpty && !m.targets.isEmpty && s.net.contains m && s.lineFree m.line then s.pushLine m (s.dir m.line) else s) s

/-- A meeting of a launch (R345, R388 to R391). A wave that has stopped only commits what is still held (R394). -/
def State.meet (s : State) (id c : Nat) : State :=
  let ks := (s.waveWarps id).map (·.1)
  if s.waveHalted id then ((ks.foldl (fun s k => s.commitWarp id k) s).performDone id).flushPushes
  else
    let s2 := ((ks.foldl (State.meetWarp id) s).performDone id).releaseAll id c
    ((s2.spawnAll id (s2.waveStopping id)).endMeeting id).flushPushes

/-- `MEETING` (R389). -/
def execMeeting (id : Nat) (s : State) : Host.Outcome State Fault Refusal :=
  .next (match s.meetingDue id, tabFind s.launches id with
    | true, some x => s.meet id x.clusterSize
    | _, _ => s)

end Sys2Proof.Machine
end

