-- ==== Sys2Proof/Machine/Mgmt.lean ====
section
/-! DEFINITION. The management queue: its connection, its commands and their answers (R289, R296, R354 to R356, R373, R382, R384, R402, R405, R406, R411, R412). -/

namespace Sys2Proof.Machine

/-! ### Answers (R411) -/

/-- An answer to a command: its code, its TAG, a status of Table 20.1 and a payload. -/
def State.answer (s : State) (code tag status : Nat) (payload : List Byte) : State :=
  { s with outbox := s.outbox ++ [.answer code tag status payload] }

/-- Whether a command is taken although rings are frozen or an image is being verified: EVREAD, EVRELEASE, REFLASH and ATTEST (R411). -/
def whileFrozen (code : Nat) : Bool := [9, 10, 12, 13].contains code

/-- Whether a package whose image failed takes a command: reflash, event reads and attestation (R405). -/
def whileLimited (code : Nat) : Bool := [9, 12, 13].contains code

/-- What a payload is found to be. -/
inductive Verdict where
  | done (s : State) (payload : List Byte)
  | later (s : State)
  | badPayload
  | refused

/-- A command performed on a connected management queue, one at a time (R411). -/
def State.onCommand (s : State) (code tag : Nat) (f : State → Verdict) : Host.Outcome State Fault Refusal :=
  .next (if !s.mgmtUp || s.command.isSome then s
    else if s.boot == .limited && !whileLimited code then s.answer code tag 3 []
    else if (s.frozen || s.boot == .verifying) && !whileFrozen code then s.answer code tag 4 []
    else match f s with
    | .done s1 p => s1.answer code tag 0 p
    | .later s1 => s1
    | .badPayload => s.answer code tag 2 []
    | .refused => s.answer code tag 3 [])

/-- The bytes of the longest payload (Table 20.1). -/
def maxPayload : Nat := 2 ^ 20

/-- Whether what a command carries fits a payload. DEDUCED: the bytes of its image, pages and unit table alone are counted, since no layout places its other fields (log entry 84). -/
def fitsPayload (n : Nat) : Bool := decide (n ≤ maxPayload)

/-- `MANAGEMENT_CONNECT` (R411): only the address of the flash configuration is accepted. -/
def execManagementConnect (host : Nat) (s : State) : Host.Outcome State Fault Refusal :=
  .next (if s.boot != .off && host == Config.hostAddress then { s with mgmtUp := true } else s)

/-- `MANAGEMENT_UNKNOWN_CODE` (R411, Table 20.1): a message that is none of the commands that the other inputs stand for. One whose code is in Table 20.2 breaks that command's layout, or
the header's, and is answered with STATUS 2 (DESIGN CHOICE that this input stands for both; log entry 121). -/
def execManagementUnknownCode (code tag : Nat) (s : State) : Host.Outcome State Fault Refusal :=
  if decide (1 ≤ code) && decide (code ≤ 14) then s.onCommand code tag fun _ => .badPayload
  else .next (if !s.mgmtUp || s.command.isSome then s else s.answer code tag (if s.frozen || s.boot == .verifying then 4 else 1) [])

/-! ### The bytes of a message to the host (Tables 13.6, 19.3 and 20.1) -/

/-- What an uncorrectable-error report says of a stream, its ranges at an offset (Table 19.3). -/
def StreamReport.bytes (r : StreamReport) (off : Nat) : List Byte :=
  leBytes 2 r.queue ++ leBytes 1 r.ctx ++ [0] ++ leBytes 4 r.ranges.length ++ leBytes 8 r.oldest ++ leBytes 8 off ++ leBytes 8 0

/-- The entries of a report's streams, the ranges of the first at an offset. -/
def streamEntries : Nat → List StreamReport → List Byte
  | _, [] => []
  | off, r :: rs => r.bytes off ++ streamEntries (off + 16 * r.ranges.length) rs

/-- The payload of a message: that of an answer, or the report of Table 13.6 or 19.3. -/
def HostMessage.payload : HostMessage → List Byte
  | .answer _ _ _ p => p
  | .fault r => r.bytes
  | .uncorrectable clock die kind index rs =>
    leBytes 8 clock ++ leBytes 8 (die + kind * 2 ^ 8 + index * 2 ^ 16) ++ leBytes 4 rs.length ++ leBytes 4 0
      ++ streamEntries (0x18 + 32 * rs.length) rs ++ rs.flatMap fun r => r.ranges.flatMap fun x => leBytes 8 x.1 ++ leBytes 8 x.2
  | .fabric event peer => Config.fabricPayload event peer

/-- The CODE, FLAGS, TAG and STATUS of a message (Table 20.1). -/
def HostMessage.head : HostMessage → Nat × Nat × Nat × Nat
  | .answer code tag status _ => (code, 1, tag, status)
  | .fault _ => (0x8000 + Config.reportKind 0, 0, 0, 0)
  | .uncorrectable .. => (0x8000 + Config.reportKind 1, 0, 0, 0)
  | .fabric .. => (0x8000 + Config.reportKind 2, 0, 0, 0)

/-- A message to the host as it is sent. -/
def HostMessage.bytes (m : HostMessage) : List Byte :=
  let h := m.head
  leBytes 2 h.1 ++ leBytes 2 h.2.1 ++ leBytes 4 m.payload.length ++ leBytes 8 h.2.2.1 ++ leBytes 4 h.2.2.2 ++ List.replicate 12 0 ++ m.payload

/-! ### Contexts (R354, R355, R373, R409) -/

/-- The streams of a context read again from their heads. -/
def State.loadHeads (s : State) (ctx : Nat) : State :=
  ((s.queues.filter fun e => e.2.ctx == ctx).map (·.1)).foldl State.loadHead s

/-- Whether an entry of 128 bytes keeps the layout of Table 17.2. -/
def contextEntryOk (e : List Byte) : Bool :=
  let winBase := fieldAt e 0x48 8
  e.length == 128 && fieldAt e 0 8 % 65536 == 0 && fieldAt e 8 8 % 65536 == 0 && decide (fieldAt e 0x1C 1 ≤ 3)
    && decide (fieldAt e 0x1D 1 < 4) && zeroAt e 0x1E 2 && zeroAt e 0x3E 2 && zeroAt e 0x44 4 && zeroAt e 0x50 48
    && winBase % 65536 == 0 && canonical winBase && canonical (winBase + 2 ^ 18 - 1)

/-- The context that an entry describes; SUSPENDED and PINNED are not the host's to write. -/
def Context.ofEntry (old : Context) (gen : Nat) (e : List Byte) : Context where
  root := fieldAt e 0 8
  privBase := fieldAt e 8 8
  privSize := fieldAt e 0x10 8
  pinLim := fieldAt e 0x18 4
  ceil := fieldAt e 0x1C 1
  enabled := bit (fieldAt e 0x1D 1) 0
  suspended := old.suspended
  sset := (upto 15).map fun i => BitVec.ofNat 16 (fieldAt e (0x20 + 2 * i) 2)
  pinned := old.pinned
  winBase := fieldAt e 0x48 8
  generation := BitVec.ofNat 24 gen

/-- The bytes that a context's entry shows: what was written, with STATE and PINNED as they are. -/
def Context.show (c : Context) (e : List Byte) : List Byte :=
  e.take 0x1D ++ leBytes 1 c.stateByte ++ (e.drop 0x1E).take 0x22 ++ leBytes 4 c.pinned ++ e.drop 0x44

/-- A context's entry and generation written. -/
def State.writeContext (s : State) (n gen : Nat) (e : List Byte) : State :=
  let c := (s.context n).ofEntry gen e
  (({ s with contexts := tabSet s.contexts n c }).controlWrite (contextEntry n) (c.show e)).loadHeads n

/-- The teams of a context that are on a core. -/
def State.contextTeams (s : State) (ctx : Nat) : List (Nat × Team) :=
  s.teams.filter fun e => e.2.status.present && match tabFind s.launches e.2.launch with
    | some x => x.ctx == ctx
    | none => false

/-- A context suspended: no packet of its streams starts, and every team of it on a core is asked to stop (R373). -/
def State.suspendContext (s : State) (ctx : Nat) : State :=
  let s1 := s.putContext ctx { s.context ctx with suspended := true }
  ((s1.contextTeams ctx).map (·.1)).foldl State.preempt s1

/-- `CTXWRITE` (R354, R355): an enabled context can only be disabled, which first suspends it. -/
def execCtxwrite (tag ctx gen : Nat) (entry : List Byte) (s : State) : Host.Outcome State Fault Refusal :=
  s.onCommand 1 tag fun s =>
    if decide (256 ≤ ctx) || decide (2 ^ 24 ≤ gen) || !contextEntryOk entry then .badPayload
    else if !(s.context ctx).enabled then .done (s.writeContext ctx gen entry) []
    else if bit (fieldAt entry 0x1D 1) 0 then .refused
    else .later { s.suspendContext ctx with command := some (.disable tag ctx gen entry) }

/-- `SUSPEND` (R373). -/
def execSuspend (tag ctx : Nat) (s : State) : Host.Outcome State Fault Refusal :=
  s.onCommand 6 tag fun s =>
    if 256 ≤ ctx then .badPayload else .later { s.suspendContext ctx with command := some (.suspend tag ctx) }

/-- `RESUME` (R373). -/
def execResume (tag ctx : Nat) (s : State) : Host.Outcome State Fault Refusal :=
  s.onCommand 7 tag fun s =>
    if 256 ≤ ctx then .badPayload else .done ((s.putContext ctx { s.context ctx with suspended := false }).loadHeads ctx) []

/-- A context disabled once it is suspended: its windows are destroyed and its translations removed (R355). -/
def State.disableContext (s : State) (ctx gen : Nat) (e : List Byte) : State :=
  let s1 := (s.windows.filter fun w => w.2.ctx == ctx).foldl (fun s w => s.dropWindow w.1 w.2) s
  (s1.invalidate ctx none).writeContext ctx gen e

/-- The context whose teams a command waits for. -/
def PendingCommand.ctx : PendingCommand → Nat
  | .suspend _ c => c
  | .disable _ c _ _ => c

/-- Whether the command that waits can be answered: every team of its context is saved or killed (R373). -/
def State.commandDone (s : State) : Bool :=
  match s.command with
  | some c => (s.contextTeams c.ctx).isEmpty
  | none => false

/-- The answer to a command that has waited. -/
def State.finishCommand (s : State) : State :=
  if s.commandDone then
    let s1 : State := { s with command := none }
    match s.command with
    | some (.suspend tag _) => s1.answer 6 tag 0 []
    | some (.disable tag ctx gen e) => (s1.disableContext ctx gen e).answer 1 tag 0 []
    | none => s
  else s

/-! ### Queues (R356, R357) -/

/-- Whether a number is a power of 2 from 16 to 65,536. -/
def ringSizeOk (n : Nat) : Bool := (upto 13).any fun i => n == 2 ^ (i + 4)

/-- Whether an entry of 64 bytes keeps the layout of Table 17.3. -/
def queueEntryOk (e : List Byte) : Bool :=
  let enabled := bit (fieldAt e 0xE 1) 0
  e.length == 64 && fieldAt e 0 8 % 64 == 0 && (ringSizeOk (fieldAt e 8 4) || (!enabled && fieldAt e 8 4 == 0))
    && decide (fieldAt e 0xD 1 ≤ 3) && decide (fieldAt e 0xE 1 < 4) && zeroAt e 0x20 32

/-- A queue as an entry writes it: HALTED, ERRCODE and HEAD are not the host's to write, but a halted stream restarts with ENABLE = 1. The front end keeps the packet that it
holds (R356). -/
def Queue.ofEntry (old : Queue) (e : List Byte) : Queue :=
  let enabled := bit (fieldAt e 0xE 1) 0
  { old with
    ring := fieldAt e 0 8
    size := fieldAt e 8 4
    ctx := fieldAt e 0xC 1
    cls := fieldAt e 0xD 1
    enabled := enabled
    halted := old.halted && !enabled
    errcode := if enabled then 0 else old.errcode
    tail := fieldAt e 0x10 8 }

/-- The bytes that a queue's entry shows. -/
def Queue.show (x : Queue) (e : List Byte) : List Byte :=
  e.take 0xE ++ leBytes 1 x.stateByte ++ leBytes 1 x.errcode ++ (e.drop 0x10).take 8 ++ leBytes 8 x.head ++ e.drop 0x20

/-- `QWRITE` (R356, R357). -/
def execQwrite (tag q : Nat) (entry : List Byte) (s : State) : Host.Outcome State Fault Refusal :=
  s.onCommand 2 tag fun s =>
    if decide (1024 ≤ q) || !queueEntryOk entry then .badPayload
    else
      let x := (s.stream q).ofEntry entry
      .done ((({ s with queues := tabSet s.queues q x }).controlWrite (queueEntry q) (x.show entry)).loadHead q) []

/-! ### Code regions (R382 to R384) -/

/-- A unit table from its bytes, none where it breaks its layout (R382). -/
def codeUnits : Nat → List Byte → Option (List CodeUnit)
  | 0, bs => if bs.isEmpty then some [] else none
  | n + 1, bs =>
    if bs.isEmpty then some []
    else
      let k := fieldAt bs 0xA 1
      if bs.length < 16 || !zeroAt bs 0xB 5 || (k != 1 && k != 2) then none
      else (codeUnits n (bs.drop 16)).map fun r => ⟨fieldAt bs 0 4, fieldAt bs 4 4, fieldAt bs 8 2, k⟩ :: r

/-- A unit table sorted by offset. -/
def unitsSorted : List CodeUnit → Bool
  | u :: v :: r => decide (u.offset ≤ v.offset) && unitsSorted (v :: r)
  | _ => true

/-- The unit table of a payload. -/
def unitsOf (bs : List Byte) : Option (List CodeUnit) :=
  match codeUnits (bs.length / 16 + 1) bs with
  | some us => if unitsSorted us then some us else none
  | none => none

/-- Whether the units of a table lie in [0, LEN) and apart from each other. -/
def unitsFit (len : Nat) : List CodeUnit → Bool
  | [] => true
  | u :: r => decide (u.offset + u.size ≤ len) && (r.all fun v => decide (u.offset + u.size ≤ v.offset) || decide (v.offset + v.size ≤ u.offset))
      && unitsFit len r

/-- The physical page of a page of code: its walk for a fetch succeeds (R286), and it is not writable and on this package (R382). -/
def State.codeFrame (s : State) (ctx va : Nat) : Option Nat :=
  if !canonical va then none
  else match s.walk [] ctx (va % 2 ^ 55) .fetch with
  | .ok (e, lv) =>
    if permits e .fetch && !bit e.toNat 3 && !bit e.toNat 7 then
      some (leafPhys e lv (va % 2 ^ 55 / 65536) (va % 2 ^ 55)).pa
    else none
  | .error _ => none

/-- The frames of consecutive pages; none where one cannot hold code. -/
def State.codeFrames (s : State) (ctx base : Nat) : Nat → Option (List Frame)
  | 0 => some []
  | n + 1 => match s.codeFrame ctx (base + n * 65536), s.codeFrames ctx base n with
    | some p, some r => some (r ++ [.physical p])
    | _, _ => none

/-- The pages of a region. -/
def regionPages (len : Nat) : Nat := (len + 65535) / 65536

/-- Whether a launch is bound to a version of the region with an index (R383). -/
def State.bound (s : State) (i n : Nat) : Bool := s.launches.any fun e => tabFind e.2.versions i == some n

/-- The versions of a region that are still needed: the current one, unless the region is dropped, and those that are bound (R384). -/
def State.pruneRegion (s : State) (i : Nat) (r : CodeRegion) : CodeRegion :=
  { r with versions := r.versions.filter fun v => (v.1 == r.current && !r.dropped) || s.bound i v.1 }

/-- A list with its elements changed by index. -/
def mapIdx {α β : Type} (f : Nat → α → β) : Nat → List α → List β
  | _, [] => []
  | i, x :: r => f i x :: mapIdx f (i + 1) r

/-- Every version freed that nothing needs (R384). -/
def State.pruneCode (s : State) : State := { s with code := mapIdx s.pruneRegion 0 s.code }

/-- The regions of a context that hold frames. -/
def State.regionsOf (s : State) (ctx : Nat) : List CodeRegion := s.code.filter fun r => r.ctx == ctx && !r.versions.isEmpty

/-- `CODEREG` (R382). -/
def execCodereg (tag ctx base len : Nat) (units : List Byte) (s : State) : Host.Outcome State Fault Refusal :=
  s.onCommand 3 tag fun s0 =>
    let s := s0.pruneCode
    match unitsOf units with
    | none => .badPayload
    | some us =>
      if !fitsPayload units.length || decide (256 ≤ ctx) || base % 65536 != 0 || decide (2 ^ 64 ≤ base) || len == 0 || decide (2 ^ 32 ≤ len) then .badPayload
      else if decide (64 ≤ (s.regionsOf ctx).length)
        || ((s.regionsOf ctx).any fun r => decide (r.base < base + len) && decide (base < r.base + r.len)) || !unitsFit len us then .refused
      else match s.codeFrames ctx base (regionPages len) with
      | none => .refused
      | some fs => .done { s with code := s.code ++ [⟨ctx, base, len, [(1, ⟨us, fs⟩)], 1, false⟩] } []

/-- The open region of a context at a base, with its index. -/
def State.findRegion (s : State) (ctx base : Nat) : Option (Nat × CodeRegion) :=
  findIdx (fun i (r : CodeRegion) => if r.ctx == ctx && r.base == base && !r.dropped then some (i, r) else none) 0 s.code

/-- The frames of the next version: fresh copies for the pages replaced, the others shared (R384). -/
def replaceFrames (pages : List (Nat × List Byte)) (fs : List Frame) : List Frame :=
  mapIdx (fun i f => match pages.find? fun p => p.1 == i with
    | some p => .copied (putBytes [] 0 p.2)
    | none => f) 0 fs

/-- A code region replaced. -/
def State.setRegion (s : State) (i : Nat) (r : CodeRegion) : State := { s with code := setNth s.code i r }

/-- `CODEMOD` (R384). -/
def execCodemod (tag ctx base : Nat) (pages : List (Nat × List Byte)) (units : Option (List Byte)) (s : State) :
    Host.Outcome State Fault Refusal :=
  s.onCommand 4 tag fun s0 =>
    let s := s0.pruneCode
    if decide (256 ≤ ctx) || (pages.any fun p => p.2.length != 65536) || !fitsPayload (65536 * pages.length + (units.getD []).length) then .badPayload
    else match s.findRegion ctx base, (units.map unitsOf).getD (some []) with
    | _, none => .badPayload
    | none, _ => .refused
    | some (i, r), some us => match tabFind r.versions r.current with
      | none => .refused
      | some v =>
        let us' := if units.isSome then us else v.units
        if (pages.any fun p => decide (regionPages r.len ≤ p.1)) then .badPayload
        else if decide (16 ≤ (r.versions.filter fun x => s.bound i x.1).length) || !unitsFit r.len us' then .refused
        else
          let n := r.current + 1
          let r1 := { r with versions := tabSet r.versions n ⟨us', replaceFrames pages v.frames⟩, current := n }
          .done ((s.setRegion i r1).pruneCode) []

/-- `CODEDROP` (R384). -/
def execCodedrop (tag ctx base : Nat) (s : State) : Host.Outcome State Fault Refusal :=
  s.onCommand 5 tag fun s =>
    if 256 ≤ ctx then .badPayload
    else match s.findRegion ctx base with
    | some (i, r) => .done ((s.setRegion i { r with dropped := true }).pruneCode) []
    | none => .refused

/-! ### Answers to fault reports (R289) -/

/-- `FAULTANSWER` with RETRY. -/
def execFaultanswerRetry (tag report : Nat) (s : State) : Host.Outcome State Fault Refusal :=
  s.onCommand 8 tag fun s => match s.findReport report with
    | some r => .done (s.answerRetry report r) []
    | none => .refused

/-- `FAULTANSWER` with ABORT. -/
def execFaultanswerAbort (tag report : Nat) (s : State) : Host.Outcome State Fault Refusal :=
  s.onCommand 8 tag fun s => match s.findReport report with
    | some r => .done (s.answerAbort report r) []
    | none => .refused

/-! ### Event rings and logs (R296, R402) -/

/-- The 32 bytes of an event record (Table 19.4). -/
def EventRecord.bytes (e : EventRecord) : List Byte :=
  leBytes 8 e.clock ++ leBytes 1 e.typ ++ leBytes 1 e.ctx ++ leBytes 2 e.core ++ leBytes 1 e.code ++ [0, 0, 0] ++ leBytes 8 e.launch
    ++ leBytes 8 e.data

/-- `EVREAD` (R402). -/
def execEvread (tag die : Nat) (s : State) : Host.Outcome State Fault Refusal :=
  s.onCommand 9 tag fun s => if 10 ≤ die then .badPayload else .done s ((tabGet s.rings die []).flatMap EventRecord.bytes)

/-- `EVRELEASE` (R402). -/
def execEvrelease (tag : Nat) (s : State) : Host.Outcome State Fault Refusal :=
  s.onCommand 10 tag fun s => .done { s with frozen := false } []

/-- A read entry of a log in its 16 bytes (Table 14.2). -/
def ReadEntry.bytes (e : ReadEntry) (value : Bool) (slot : Nat) : List Byte :=
  leBytes 16 (e.sect * 32 + (if value then slot * 2 ^ 88 + e.rmask.toNat * 2 ^ 96 else e.ver.toNat * 2 ^ 88))

/-- A write entry of a log in its 48 bytes (Table 14.2). -/
def WriteEntry.bytes (e : WriteEntry) : List Byte := leBytes 12 (e.sect * 32) ++ leBytes 4 e.wmask.toNat ++ e.data

/-- A byte of a log granule that no entry holds: the spec does not say what it reads as. -/
def State.staleByte (s : State) (i : Nat) : Byte := BitVec.ofNat 8 (Config.freeNat (s.tick * 2 ^ 64 + i))

/-- A part of a log slot: the bytes of its entries, the rest stale. -/
def State.slotPart (s : State) (at' size : Nat) (bs : List Byte) : List Byte :=
  bs.take size ++ (upto (size - bs.length)).map fun i => s.staleByte (at' + bs.length + i)

/-- A thread's log slot: read entries, write entries, and in value mode the copies (R296). -/
def State.logSlot (s : State) (x : Launch) (at' size : Nat) (l : Lane) : List Byte :=
  let rlog := x.field 3 1
  let wlog := x.field 4 1
  let value := bit (x.field 1 1) 2
  let reads := (l.tx.map (·.reads)).getD []
  let writes := (l.tx.map (·.writes)).getD l.storeLog
  let r := s.slotPart at' (16 * rlog) (mapIdx (fun i e => ReadEntry.bytes e value i) 0 reads).flatten
  let w := s.slotPart (at' + 16 * rlog) (48 * wlog) (writes.flatMap WriteEntry.bytes)
  let v := if value then s.slotPart (at' + 16 * rlog + 48 * wlog) (32 * rlog) (reads.flatMap (·.copy)) else []
  s.slotPart at' size (r ++ w ++ v)

/-- The log granules of a team: 1,024 equal thread slots (R296). -/
def State.logBytes (s : State) (t : Nat) (x : Launch) : List Byte :=
  let size := x.desc.split.log / x.perCore * 16
  (upto 1024).flatMap fun i =>
    let lane := (s.warps.find? fun e => e.2.team == t && e.2.warpid == i / x.width).bind fun e => e.2.lanes[i % x.width]?
    match lane with
    | some l => s.logSlot x (i * size) size l
    | none => s.slotPart (i * size) size []

/-- `LOGREAD` (R296): the log granules of a stopped team. -/
def execLogread (tag team : Nat) (s : State) : Host.Outcome State Fault Refusal :=
  s.onCommand 11 tag fun s => match tabFind s.teams team with
    | none => .refused
    | some tm => match tabFind s.launches tm.launch with
      | none => .refused
      | some x =>
        let stopped : Bool := match tm.status with
          | .running => false
          | .stopping _ => x.quantum == 0 && (s.liveWarps team).all fun e => e.2.status == .stopped
          | .halted | .saved | .killed => true
        if stopped then .done s (s.logBytes team x) else .refused

/-! ### Firmware and attestation (R405, R406) -/

/-- `REFLASH` (R405): the image is taken at the next cold reset. -/
def execReflash (tag : Nat) (image : List Byte) (s : State) : Host.Outcome State Fault Refusal :=
  s.onCommand 12 tag fun s => if image.isEmpty || !fitsPayload image.length then .badPayload else .done { s with flash := some image } []

/-- `ATTEST` (R406): a quote over the nonce, the firmware image hash, the decode-table hash and the fuse state. -/
def execAttest (tag : Nat) (nonce : List Byte) (s : State) : Host.Outcome State Fault Refusal :=
  s.onCommand 13 tag fun s =>
    if nonce.length != 32 then .badPayload
    else
      let image := s.image.getD []
      .done s (Config.quote (nonce ++ Config.sha256 image ++ Config.sha256 s.decodeTables ++ Config.fuseState))

end Sys2Proof.Machine
end

