-- ==== Sys2Proof/Machine/Fabric.lean ====
section
/-! DEFINITION. The fabric: ports, KLT paths and frames, remote requests and responses, collective frames, lost peers and the DOMAIN command (R407, R412 to R416, R420, R421). -/

namespace Sys2Proof.Machine

/-! ### Fabric events (R421) -/

/-- A fabric event: recorded with TYPE 3, and reported to the host while the management queue is connected. Events: 1 link up, 2 path down,
3 peer lost, 4 queue pair broken, 5 frames re-sent. -/
def State.fabricEvent (s : State) (die event peer : Nat) : State :=
  let s1 := s.record die 3 0xFF 0xFFFF event 0 peer
  if s1.mgmtUp then { s1 with outbox := s1.outbox ++ [.fabric event peer] } else s1

/-- The I/O die of a port (R407). -/
def portDie (port : Nat) : Nat := if port < 4 then 8 else 9

/-! ### Paths (R414) -/

/-- Frames in ascending order of REQID. -/
def byReqid (fs : List KltFrame) : List KltFrame := sortBy (fun f => [f.reqid]) fs

/-- Frames sent one after another on the paths that are live. -/
def Peer.sendAll (x : Peer) (clock : Nat) (fs : List KltFrame) : Peer := fs.foldl (fun x f => x.send clock f) x

/-- A path taken down: its unacknowledged frames are sent again on the live paths, in REQID order. -/
def Peer.pathDown (x : Peer) (clock port : Nat) : Peer :=
  let fs := (x.path port).unacked.map (·.2)
  (x.setPath port { Path.empty with downSince := clock }).sendAll clock (byReqid fs)

/-- A path brought up: its numbering starts anew, and frames that no path carried are sent. -/
def Peer.pathUp (x : Peer) (clock port : Nat) : Peer :=
  let x1 := x.setPath port { Path.empty with up := true, downSince := clock }
  { x1 with backlog := [] }.sendAll clock (byReqid x1.backlog)

/-- A member peer's record changed. -/
def State.putPeer (s : State) (p : Nat) (x : Peer) : State := { s with peers := tabSet s.peers p x }

/-- Every peer of the domain changed. -/
def State.mapPeers (s : State) (f : Peer → Peer) : State := { s with peers := s.peers.map fun e => (e.1, if e.2.member then f e.2 else e.2) }

/-- `LINK_UP` (R407, R414). -/
def execLinkUp (port : Nat) (s : State) : Host.Outcome State Fault Refusal :=
  .next (if decide (8 ≤ port) || nth s.ports port false then s
    else (({ s with ports := setNth s.ports port true }).mapPeers fun x => x.pathUp s.clock port).fabricEvent (portDie port) 1 port)

/-- `LINK_DOWN` (R407, R414, R421). -/
def execLinkDown (port : Nat) (s : State) : Host.Outcome State Fault Refusal :=
  .next (if nth s.ports port false then
      (({ s with ports := setNth s.ports port false }).mapPeers fun x => if (x.path port).up then x.pathDown s.clock port else x).fabricEvent
        (portDie port) 2 port
    else s)

/-! ### Lost peers (R421) -/

/-- An engine operation that has lost a write with a peer: it reports XLATE (Table 9.5). -/
def EngineOp.lose (o : EngineOp) : EngineOp := { o with work := o.work.map fun w => { w with bits := Nat.lor w.bits 2 } }

/-- A request that a lost peer will not answer: a store or atomic of a warp aborts its launch with cause 0x10, a store of an engine operation ends with XLATE, one of the front end is
known as lost, and whatever else waited is tried anew and finds the peer lost. -/
def State.endRequest (p : Nat) (s : State) (r : RemoteRequest) : State :=
  match r.who with
  | .warp k => match tabFind s.warps k with
    | none => s
    | some w => match r.op with
      | .load _ _ =>
        if w.status == .waiting .remote || w.status == .waiting .pushes then s.putWarp k { w with status := .ready } else s
      | _ => s.abortLaunch w 0x10 false false false w.pc (BitVec.ofNat 64 r.va) w.active
  | .op n => match tabFind s.ops n, r.op with
    | some o, .store .. => { s with ops := tabSet s.ops n o.lose }
    | _, _ => s
  | .coll n => match tabFind s.collectives n, r.op with
    | some c, .store .. => { s with collectives := tabSet s.collectives n { c with work := { c.work with bits := Nat.lor c.work.bits 2 } } }
    | _, _ => s
  | .front => match r.op with
    | .store .. => { s with answers := s.answers ++ [⟨.front, r.tag, p, r.op, [], true, r.va, r.stale⟩] }
    | _ => s

/-- A peer lost: everything asked of it ends. -/
def State.losePeer (s : State) (p : Nat) : State :=
  let x := s.peer p
  let s1 := s.putPeer p { x with lost := true, outstanding := [], backlog := [], paths := x.paths.map fun q => { q with unacked := [] } }
  x.outstanding.foldl (State.endRequest p) s1

/-- The clocks for which all paths to a peer may be down (R421). -/
def peerTimeout : Nat := 1600000

/-- Whether a peer is to be counted as lost. -/
def State.peerLate (s : State) (p : Nat) : Bool :=
  let x := s.peer p
  x.member && !x.lost && (upto 8).all fun i => !(x.path i).up && decide ((x.path i).downSince + peerTimeout ≤ s.clock)

/-- `PEER_LOST` (R421): all its paths have been down for 1,600,000 clocks, or it reports a reset. -/
def execPeerLost (p : Nat) (reset : Bool) (s : State) : Host.Outcome State Fault Refusal :=
  .next (if s.peerLate p || (reset && (s.peer p).member && !(s.peer p).lost) then (s.losePeer p).fabricEvent frontDie 3 p else s)

/-! ### DOMAIN (R412) -/

/-- A peer as it joins: REQID and SEQ start afresh, and its paths are the ports whose link is up (R414, R421). -/
def freshPeer (mac clock : Nat) (ports : List Bool) : Peer :=
  { Peer.empty with
    member := true, mac := mac, paths := (upto 8).map fun i => { Path.empty with up := nth ports i false, downSince := clock } }

/-- Whether the payload of a DOMAIN command is well formed: ids below 64, this package among the members, an address for each peer. -/
def domainOk (id : Nat) (members : BitVec 64) (macs : List (Nat × Nat)) (priorities : Nat × Nat) : Bool :=
  decide (id < 64) && members.getLsbD id && decide (priorities.1 < 8) && decide (priorities.2 < 8)
    && ((upto 64).all fun p => p == id || !members.getLsbD p || macs.any fun m => m.1 == p)
    && (macs.all fun m => decide (m.1 < 64) && members.getLsbD m.1 && m.1 != id && decide (m.2 < 2 ^ 48))

/-- The table of peers that a DOMAIN command leaves: members that stay keep their traffic, others join afresh. -/
def State.joinPeers (s : State) (same : Bool) (macs : List (Nat × Nat)) : Tab Peer :=
  macs.foldl (fun t m =>
    let x := s.peer m.1
    tabSet t m.1 (if same && x.member && !x.lost then { x with mac := m.2 } else freshPeer m.2 s.clock s.ports)) []

/-- The cached translations to packages that are no members, or to this one, removed: an entry that names such a package is malformed (R285, R412). -/
def State.purgeFabric (s : State) : State :=
  let out (l : List TlbEntry) : List TlbEntry := l.filter fun x => !bit x.leaf.toNat 7 || s.fabricOk (bits x.leaf.toNat 13 8)
  { s with
    cores := s.cores.map fun e => (e.1, { e.2 with tlb := out e.2.tlb })
    clusterTlb := s.clusterTlb.map fun e => (e.1, out e.2)
    walkCache := s.walkCache.map fun e => (e.1, out e.2) }

/-- `DOMAIN` (R412): the traffic with every peer that it removes ends first. -/
def execDomain (tag id : Nat) (members : BitVec 64) (macs : List (Nat × Nat)) (priorities : Nat × Nat) (s : State) :
    Host.Outcome State Fault Refusal :=
  s.onCommand 14 tag fun s =>
    if !domainOk id members macs priorities then .badPayload
    else
      let same := s.packageId == some id || s.packageId.isNone
      let gone := (s.peers.filter fun e => e.2.member && !(same && members.getLsbD e.1)).map (·.1)
      let s1 := gone.foldl State.losePeer s
      .done (State.purgeFabric { s1 with
        packageId := some id, members := members, priorities := priorities, peers := s1.joinPeers same macs
        readOnlyCopies := s1.readOnlyCopies.filter fun c => !gone.contains c.pkg }) []

/-! ### Frames accepted (R413, R414) -/

/-- Whether a frame's header is accepted: its CRC, its receiver, a sender of the domain, and no reserved value. -/
def State.headerOk (s : State) (h : KltHeader) (typ : Nat) : Bool :=
  h.crcOk && h.ver == 1 && h.reserved == 0 && h.typ == typ && s.packageId == some h.dst && h.src != h.dst && (s.peer h.src).member && !(s.peer h.src).lost
    && decide (h.path < 8) && decide (h.seq < 2 ^ 32) && decide (h.ackseq < 2 ^ 32)
    && (if typ == 3 || typ == 4 || typ == 6 then h.reqid == 0 else true)

/-- The TYPE of a frame. -/
def FrameBody.typ : FrameBody → Nat
  | .request _ => 1
  | .response _ _ => 2
  | .collective _ => 5

/-- The header under which a frame goes to a peer on a path with a SEQ (Table 20.3). -/
def State.sentHeader (s : State) (peer port seq : Nat) (f : KltFrame) : KltHeader :=
  ⟨1, f.body.typ, s.packageId.getD 0, peer, port, 0, seq, ((s.peer peer).path port).ackSeq, f.reqid, true⟩

/-- The header of an ACK or NAK (Table 20.3). -/
def State.controlHeader (s : State) (c : ControlFrame) : KltHeader :=
  ⟨1, if c.nak then 4 else 3, s.packageId.getD 0, c.peer, c.path, 0, 0, c.ackseq, 0, true⟩

/-- Whether SEQ `a` precedes `b`, modulo 2^32. -/
def seqBefore (a b : Nat) : Bool := decide (0 < (b + 2 ^ 32 - a) % 2 ^ 32) && decide ((b + 2 ^ 32 - a) % 2 ^ 32 < 2 ^ 31)

/-- A path with every frame before an ACKSEQ acknowledged. -/
def Path.acked (p : Path) (clock ackseq : Nat) : Path :=
  let left := p.unacked.filter fun f => !seqBefore f.1 ackseq
  if left.length == p.unacked.length then p else { p with unacked := left, sentAt := clock, resends := 0 }

/-- A control frame sent. -/
def State.sendControl (s : State) (peer path : Nat) (nak : Bool) : State :=
  { s with control := s.control ++ [⟨peer, path, nak, ((s.peer peer).path path).ackSeq⟩] }

/-- The acknowledgement that every frame carries. -/
def State.takeAck (s : State) (h : KltHeader) : State :=
  let x := s.peer h.src
  s.putPeer h.src (x.setPath h.path ((x.path h.path).acked s.clock h.ackseq))

/-- A numbered frame: performed by `f` when it is the next in SEQ order, acknowledged again when it is a repetition, and answered with NAK
when it leaves a gap (R414). `size` is the data of its payload, which holds at most 4,096 bytes (R413). -/
def State.onFrame (s : State) (h : KltHeader) (typ size : Nat) (f : State → State) : Host.Outcome State Fault Refusal :=
  .next (if !s.headerOk h typ || decide (4096 < size) then s
    else
      let s1 := s.takeAck h
      let x := s1.peer h.src
      let p := x.path h.path
      if h.seq == p.ackSeq then
        (f (s1.putPeer h.src (x.setPath h.path { p with ackSeq := (p.ackSeq + 1) % 2 ^ 32 }))).sendControl h.src h.path false
      else s1.sendControl h.src h.path (seqBefore p.ackSeq h.seq))

/-- A request of a peer performed at most once (R414). -/
def State.once (s : State) (h : KltHeader) (f : State → State) : State :=
  let x := s.peer h.src
  if x.performed.contains h.reqid then s else f (s.putPeer h.src { x with performed := x.performed ++ [h.reqid] })

/-! ### Requests and responses (R344, R399, R415, R416) -/

/-- A response to a request sent back. -/
def State.respond (s : State) (h : KltHeader) (line : Nat) (data : List Byte) (bad : Bool) : State :=
  s.putPeer h.src ((s.peer h.src).send s.clock ⟨h.reqid, line, .response data bad⟩)

/-- A remote access reaches the L2 and the MSC, where a miss allocates (R349). -/
def State.remoteTouch (s : State) (pa n : Nat) : State :=
  (linesOf pa n).foldl (fun s l => (s.l2Hit l .normal false).mscTouch l .normal) s

/-- A peer's request performed at the home of its bytes, without translation or permission check (R415): the state, the bytes of the response
and whether they are poisoned. -/
def State.performRemote (s0 : State) (r : RemoteOp) : State × List Byte × Bool :=
  let s := s0.remoteTouch (RemoteOp.pa r) (RemoteOp.size r)
  match r with
  | .load pa n => (s.homeRead pa n, s.bytesAt pa n, isPoisoned s.poison pa n)
  | .store pa bs bad =>
    let s1 := s.homeWrite pa bs .normal true
    (if bad then { s1 with poison := addPoison s1.poison pa bs.length } else s1, [], false)
  | .atomic op t pa data swap =>
    let n := memSize t
    if isPoisoned s.poison pa n then (s, s.bytesAt pa n, true)
    else
      let old := natOfBytes (s.bytesAt pa n)
      (match atomicValue op t old data swap with
        | some v => s.homeWrite pa (leBytes n v) .normal true
        | none => s.callIn (pa / 128) (lineMask pa n) true, leBytes n old, false)
  | .claim pa n =>
    if isPoisoned s.poison pa 24 then (s, s.bytesAt pa 16, true)
    else
      let x := s.slalomNext pa n
      (s.claim pa n, leBytes 8 x.1 ++ leBytes 8 x.2, false)
  | .tally pa n =>
    if isPoisoned s.poison (pa + 8) 16 then (s, s.bytesAt (pa + 8) 8, true)
    else (s.countCommits pa n, s.bytesAt (pa + 8) 8, false)

/-- Whether a request names bytes of local physical memory. -/
def remoteInside (r : RemoteOp) : Bool := decide (RemoteOp.pa r + RemoteOp.size r ≤ 2 ^ 40)

/-- The bytes of a request's data. -/
def RemoteOp.payload : RemoteOp → Nat
  | .store _ bs _ => bs.length
  | _ => 0

/-- `KLT_REQUEST` (R413 to R415): a request that meets a locked sector or a busy line is not accepted yet, and the peer sends it again (R273, R303). -/
def execKltRequest (h : KltHeader) (r : RemoteOp) (s : State) : Host.Outcome State Fault Refusal :=
  if s.heldBack (RemoteOp.pa r) (RemoteOp.size r) then .next s
  else s.onFrame h 1 (RemoteOp.payload r) fun s => s.once h fun s =>
    let line := RemoteOp.pa r / 128
    if remoteInside r then
      let x := s.performRemote r
      x.1.respond h line x.2.1 x.2.2
    else s.respond h line (List.replicate (RemoteOp.size r) 0) true

/-- Whether an operation's answer is kept for its asker. -/
def RemoteOp.answers : RemoteOp → Bool
  | .load _ _ => true
  | .store _ _ _ => false
  | .atomic .. | .claim .. | .tally .. => true

/-- A warp that waits for remote accesses issues its instruction anew. -/
def State.wakeRemote (s : State) (k : Nat) : State :=
  match tabFind s.warps k with
  | some w => if w.status == .waiting .remote || w.status == .waiting .pushes then s.putWarp k { w with status := .ready } else s
  | none => s

/-- `KLT_RESPONSE` (R415): the request it answers is no longer outstanding, and its asker goes on. -/
def execKltResponse (h : KltHeader) (data : List Byte) (bad : Bool) (s : State) : Host.Outcome State Fault Refusal :=
  s.onFrame h 2 data.length fun s =>
    let x := s.peer h.src
    match x.outstanding.find? fun r => r.reqid == h.reqid with
    | none => s
    | some r =>
      let s1 := s.putPeer h.src { x with outstanding := x.outstanding.filter fun y => y.reqid != h.reqid }
      let s2 : State := if RemoteOp.answers r.op then { s1 with answers := s1.answers ++ [⟨r.who, r.tag, h.src, r.op, data, bad, r.va, r.stale⟩] } else s1
      match r.who with
      | .warp k => s2.wakeRemote k
      | _ => s2

/-! ### Control frames (R414) -/

/-- The frames of a path sent again from the first unacknowledged one; after 8 such re-sendings the path is down. -/
def State.resend (s : State) (peer path : Nat) : State :=
  let x := s.peer peer
  let p := x.path path
  if p.unacked.isEmpty then s
  else if 8 ≤ p.resends then (s.putPeer peer (x.pathDown s.clock path)).fabricEvent (portDie path) 2 path
  else (s.putPeer peer (x.setPath path { p with sentAt := s.clock, resends := p.resends + 1 })).fabricEvent (portDie path) 5 peer

/-- `KLT_ACK` (R414). -/
def execKltAck (h : KltHeader) (s : State) : Host.Outcome State Fault Refusal := .next (if s.headerOk h 3 then s.takeAck h else s)

/-- `KLT_NAK` (R414). -/
def execKltNak (h : KltHeader) (s : State) : Host.Outcome State Fault Refusal :=
  .next (if s.headerOk h 4 then (s.takeAck h).resend h.src h.path else s)

/-- `KLT_PROBE` (R413): it is answered with the next SEQ expected. -/
def execKltProbe (h : KltHeader) (s : State) : Host.Outcome State Fault Refusal :=
  .next (if s.headerOk h 6 then (s.takeAck h).sendControl h.src h.path false else s)

/-- The clocks without an ACK after which frames are sent again (R414). -/
def resendAfter : Nat := 16000

/-- Whether a path is due to be sent again. -/
def Path.resendDue (p : Path) (clock : Nat) : Bool := p.up && !p.unacked.isEmpty && decide (p.sentAt + resendAfter ≤ clock)

/-- `KLT_RESEND_TIMEOUT` (R414). -/
def execKltResendTimeout (peer path : Nat) (s : State) : Host.Outcome State Fault Refusal :=
  .next (if ((s.peer peer).path path).resendDue s.clock then s.resend peer path else s)

/-! ### Collective frames (R418 to R420) -/

/-- `KLT_COLLECTIVE` (R420): a member's contribution, or the news that it failed, is kept until the collective completes here. -/
def execKltCollective (h : KltHeader) (c : CollFrame) (s : State) : Host.Outcome State Fault Refusal :=
  s.onFrame h 5 c.data.length fun s => s.once h fun s =>
    if c.member != h.src then s
    else
      let same (f : CollFrame) : Bool :=
        f.ctx == c.ctx && f.member == c.member && f.tag == c.tag && f.members == c.members && f.occurrence == c.occurrence
          && f.offset == c.offset
      { s with collFrames := s.collFrames.filter (fun f => !same f) ++ [c] }

end Sys2Proof.Machine
end

