-- ==== Sys2Proof/Machine/Rdma.lean ====
section
/-! DEFINITION. The host path: RDMA requests on device memory (R408 to R410, R421). -/

namespace Sys2Proof.Machine

/-! ### Keys and translations (R409) -/

/-- The context that a remote key names. -/
def keyContext (key : Nat) : Nat := key % 256

/-- Whether a key is in force: its generation is that of its context, which is enabled. -/
def State.keyOk (s : State) (key : Nat) : Bool :=
  let c := s.context (keyContext key)
  c.enabled && c.generation.toNat == key / 256

/-- The number of queue pairs. -/
def maxPairs : Nat := 4096

/-- A reply on a queue pair. -/
def State.reply (s : State) (r : RdmaReply) : State := { s with rdma := s.rdma ++ [r] }

/-- The tag of the remote accesses of a queue pair's request. -/
def pairTag (qp : Nat) : Nat := 2 ^ 150 + qp * 2 ^ 140

/-- The remote answers of a queue pair's request dropped. -/
def State.dropAnswers (s : State) (qp : Nat) : State := s.dropTags (pairTag qp) (2 ^ 140)

/-! ### The requests (R408 to R410) -/

/-- What comes of a request now: it has its reply, it has gone on and waits, or it only waits. -/
inductive HostStep where
  | done (s : State)
  | going (s : State) (r : RdmaRequest)
  | blocked

/-- The remote form of a host atomic (R326): `data` is what is added, or compared with before `swap` is stored. -/
def hostAtomicOp (op : AtomicOp) (pa data swap : Nat) : RemoteOp := .atomic op .n64 pa data swap

/-- What a request that cannot be finished does: it asks a peer, or waits. -/
def State.hostWait (s : State) (r : RdmaRequest) (e : FrontStop) : HostStep := if s.stuckFor e then .blocked else .going (s.askFor e) r

/-- An atomic of the host on 8 bytes (R326, R409): it waits for a peer's answer where the bytes are remote. -/
def State.hostAtomic (s0 : State) (r : RdmaRequest) (op : AtomicOp) (data swap : Nat) : HostStep :=
  let ctx := keyContext r.key
  if r.va % 8 != 0 then .done (s0.reply (.invalidRequest r.qp))
  else
    let s := s0.walkRange ctx r.va 8
    match s0.frontPlace ctx r.va 8 with
    | .error .bad => .done (s0.reply (.remoteAccessError r.qp))
    | .error _ => .blocked
    | .ok p =>
      let x := hostAtomicOp op p.pa data swap
      if p.fab then
        match s.answerTo .front (pairTag r.qp) p.pkg x with
        | some y => .done ((s.dropAnswers r.qp).reply (if y.2 then .remoteOperationError r.qp else .done r.qp y.1))
        | none => s.hostWait r (.ask p.pkg x (pairTag r.qp) r.va)
      else
        let y := s.performRemote x
        .done (y.1.reply (if y.2.2 then .remoteOperationError r.qp else .done r.qp y.2.1))

/-- A host write: performed whole, or refused where a byte of its range cannot be written, an access-flag fault included (R409). It completes once what it has sent to peers is
performed (R410), and with an error where a peer was lost with some of it (R421). -/
def State.hostWrite (s : State) (r : RdmaRequest) (bs : List Byte) : HostStep :=
  if r.sent then
    if s.tagsOut (pairTag r.qp) (2 ^ 140) then .blocked
    else .done ((s.dropAnswers r.qp).reply (if s.tagsLost (pairTag r.qp) (2 ^ 140) then .remoteAccessError r.qp else .done r.qp []))
  else match s.rangeWrite (keyContext r.key) (pairTag r.qp) r.va bs with
  | .error .bad => .done (s.reply (.remoteAccessError r.qp))
  | .error _ => .blocked
  | .ok s1 => if s1.tagsOut (pairTag r.qp) (2 ^ 140) then .going s1 { r with sent := true } else .done (s1.reply (.done r.qp []))

/-- A host read (R399): poison completes it with an error. -/
def State.hostRead (s : State) (r : RdmaRequest) (n : Nat) : HostStep :=
  match s.rangeRead (keyContext r.key) (pairTag r.qp) r.va n with
  | .error .bad => .done ((s.dropAnswers r.qp).reply (.remoteAccessError r.qp))
  | .error e => s.hostWait r e
  | .ok (s1, bs, bad) => .done (s1.reply (if bad then .remoteOperationError r.qp else .done r.qp bs))

/-- What comes of a request now. -/
def State.hostRequest (s : State) (r : RdmaRequest) : HostStep :=
  if !s.keyOk r.key then .done (s.reply (.remoteAccessError r.qp))
  else match r.op with
  | .write bs => s.hostWrite r bs
  | .read n => s.hostRead r n
  | .fetchAndAdd d => s.hostAtomic r .add d 0
  | .compareAndSwap c x => s.hostAtomic r .cas c x

/-- A request that arrives on a queue pair: it is performed after the earlier ones of the pair (R410). -/
def State.hostArrive (s : State) (r : RdmaRequest) : State :=
  if s.boot != .running || s.brokenPairs.contains r.qp || decide (maxPairs ≤ r.qp) then s
  else if s.rdmaPending.any fun j => j.qp == r.qp then { s with rdmaPending := s.rdmaPending ++ [r] }
  else match s.hostRequest r with
  | .done s1 => s1
  | .going s1 r1 => { s1 with rdmaPending := s1.rdmaPending ++ [r1] }
  | .blocked => { s with rdmaPending := s.rdmaPending ++ [r] }

/-- Whether a waiting request is the first of its queue pair. -/
def State.firstOfPair (s : State) (r : RdmaRequest) : Bool := (s.rdmaPending.find? fun j => j.qp == r.qp) == some r

/-- What the first waiting requests of the queue pairs can do now. -/
def State.hostSteps (s : State) : List State :=
  s.rdmaPending.filterMap fun r =>
    if !s.firstOfPair r then none
    else match s.hostRequest r with
    | .done s1 => some { s1 with rdmaPending := s1.rdmaPending.erase r }
    | .going s1 r1 => some { s1 with rdmaPending := (s1.rdmaPending.takeWhile fun x => x != r) ++ r1 :: (s1.rdmaPending.dropWhile fun x => x != r).drop 1 }
    | .blocked => none

/-- `RDMA_WRITE` (R408 to R410): the bytes are performed at their homes; a fault anywhere in the range refuses the request. -/
def execRdmaWrite (qp key va : Nat) (bytes : List Byte) (s : State) : Host.Outcome State Fault Refusal :=
  .next (s.hostArrive ⟨qp, key, va, .write bytes, false⟩)

/-- `RDMA_READ` (R399, R408 to R410). -/
def execRdmaRead (qp key va size : Nat) (s : State) : Host.Outcome State Fault Refusal := .next (s.hostArrive ⟨qp, key, va, .read size, false⟩)

/-- `RDMA_FETCH_AND_ADD` (R408 to R410). -/
def execRdmaFetchAndAdd (qp key va add : Nat) (s : State) : Host.Outcome State Fault Refusal :=
  .next (s.hostArrive ⟨qp, key, va, .fetchAndAdd add, false⟩)

/-- `RDMA_COMPARE_AND_SWAP` (R408 to R410). -/
def execRdmaCompareAndSwap (qp key va cmp swap : Nat) (s : State) : Host.Outcome State Fault Refusal :=
  .next (s.hostArrive ⟨qp, key, va, .compareAndSwap cmp swap, false⟩)

/-- `RDMA_INVALID_REQUEST` (R408). -/
def execRdmaInvalidRequest (qp : Nat) (_ : RdmaKind) (s : State) : Host.Outcome State Fault Refusal :=
  .next (if s.boot != .running || s.brokenPairs.contains qp || decide (maxPairs ≤ qp) then s else s.reply (.invalidRequest qp))

/-- `QUEUE_PAIR_BROKEN` (R421): its outstanding requests end; what was written stands. -/
def execQueuePairBroken (qp : Nat) (s : State) : Host.Outcome State Fault Refusal :=
  .next (if s.brokenPairs.contains qp || decide (maxPairs ≤ qp) then s
    else ({ s.dropAnswers qp with
      brokenPairs := s.brokenPairs ++ [qp], rdmaPending := s.rdmaPending.filter fun r => r.qp != qp }).fabricEvent frontDie 4 qp)

end Sys2Proof.Machine
end

