-- ==== Sys2Proof/Machine/Reliability.lean ====
section
/-! DEFINITION. Errors, power and boot: corrected and uncorrectable errors, the uncorrectable-error report, island frequencies, power-up and resets (R283, R291, R399 to R406). -/

namespace Sys2Proof.Machine

/-! ### The dirty horizon (R401) -/

/-- The launches of a stream, child grids included. -/
def State.streamLaunches (s : State) (q : Nat) : List (Nat × Launch) := s.launches.filter fun e => e.2.queue == q

/-- A list in ascending order without repeats. -/
def sortedSet (l : List Nat) : List Nat := l.foldl (fun r n => insertSorted n r) []

/-- Page numbers in ascending order as ranges of first page and count. -/
def pageRuns : List Nat → List (Nat × Nat)
  | [] => []
  | p :: r => match pageRuns r with
    | (a, n) :: t => if a == p + 1 then (p, n + 1) :: t else (p, 1) :: (a, n) :: t
    | [] => [(p, 1)]

/-- The smallest gap between neighbouring ranges. -/
def smallestGap : List (Nat × Nat) → Option Nat
  | x :: y :: r =>
    let g := y.1 - (x.1 + x.2)
    match smallestGap (y :: r) with
    | some h => some (min g h)
    | none => some g
  | _ => none

/-- The first two neighbours with a gap merged. -/
def mergeAt (g : Nat) : List (Nat × Nat) → List (Nat × Nat)
  | x :: y :: r => if y.1 - (x.1 + x.2) == g then (x.1, y.1 + y.2 - x.1) :: r else x :: mergeAt g (y :: r)
  | l => l

/-- Ranges merged, closest neighbours first, until at most 255 remain. -/
def mergeRanges : Nat → List (Nat × Nat) → List (Nat × Nat)
  | 0, l => l
  | fuel + 1, l => if l.length ≤ 255 then l
    else match smallestGap l with
      | some g => mergeRanges fuel (mergeAt g l)
      | none => l

/-- The dirty horizon of a stream: the ranges of the pages that its launches have written since the last completion of one of its packets, as address and length. -/
def State.horizon (s : State) (q : Nat) : List (Nat × Nat) :=
  let since := (s.stream q).lastDone
  let all := (s.stream q).pages ++ (s.streamLaunches q).flatMap fun e => e.2.pagesWritten
  let pages := sortedSet ((all.filter fun p => decide (since ≤ p.2)).map (·.1))
  let runs := pageRuns pages
  (mergeRanges runs.length runs).map fun r => (r.1 * 65536, r.2 * 65536)

/-- The oldest packet of a stream that had not completed. -/
def Queue.oldest (x : Queue) : Nat := x.inFlight.foldl (fun m i => min m i.number) x.head

/-- What the report says of a stream (Table 19.3). -/
def State.streamReport (s : State) (q : Nat) : StreamReport := ⟨q, (s.stream q).ctx, (s.stream q).oldest, s.horizon q⟩

/-! ### Uncontained errors (R400) -/

/-- Whether a stream has a launch with a team resident on one of some dies, or a packet in progress in the front end of one. -/
def State.affected (s : State) (dies : List Nat) (q : Nat) : Bool :=
  let x := s.stream q
  ((s.streamLaunches q).any fun e => s.teams.any fun t => t.2.launch == e.1 && t.2.status != .saved && dies.contains (dieOf t.2.core))
    || (dies.contains frontDie && (!x.inFlight.isEmpty || match x.current with
      | some h => !h.waits
      | none => false))

/-- A packet in progress given up: what a WAIT watched is watched no more, and a COPY in flight moves nothing further. -/
def State.dropPackets (s : State) (q : Nat) : State :=
  let x := s.stream q
  let left := match s.waiting? q with
    | some p => (watchWords x.ctx p).foldl (fun l w => l.erase w) s.watched
    | none => s.watched
  let launch (i : InFlight) : Bool := match i with
    | .launch _ _ | .signal _ _ => true
    | .copy .. | .invalidate .. => false
  { s with watched := left }.putStream q { x with current := none, inFlight := x.inFlight.filter launch, halted := true, errcode := 0 }

/-- A stream stopped by an uncontained error (R400, steps 1 to 4): its teams are killed, its launches end with CANCELLED, its pending children
are discarded, and HALTED is set with ERRCODE 0. -/
def State.stopStream (s : State) (q : Nat) : State :=
  let s1 := s.dropPackets q
  let s2 := ((s1.streamLaunches q).filter fun e => e.2.status == .running).foldl (fun s e => s.endLaunch e.1 .cancelled none) s1
  { s2 with children := s2.children.filter fun c => c.queue != q }

/-- An uncontained error in a unit: every affected stream is stopped and reported, and all rings are frozen (R400 to R402). -/
def State.uncontained (s : State) (dies : List Nat) (kind index : Nat) : State :=
  let die := dies.headD 0
  let qs := (s.queues.map (·.1)).filter (s.affected dies)
  let report := qs.map s.streamReport
  let s1 := qs.foldl State.stopStream (s.record die 9 0xFF 0xFFFF kind 0 index)
  let told := if s1.mgmtUp then s1.outbox ++ [.uncorrectable s.clock die kind index report] else s1.outbox
  { s1 with outbox := told, frozen := true }

/-- The die of a line's home (R270). -/
def homeDie (pa : Nat) : Nat := homeOf pa / 192

/-- A line whose tag, version or directory entry cannot be used: it leaves its slice, whose floor it raises (R272), it is poisoned, and its copies are recalled (Table 13.7). The
accesses that wait in an L1 ask for it anew. -/
def State.spoilLine (s : State) (line : Nat) : State :=
  let s1 := s.evictL2 line
  let s2 : State := { s1 with poison := addPoison s1.poison (line * 128) 128, dirs := tabDel s1.dirs line }
  s2.cores.foldl (fun s e => match s.l1Line e.1 line with
    | some x => s.reask e.1 line x
    | none => s) s2

/-- The unit kind of a line's directory in a report. -/
def lineKind : Nat := 0

/-- `UNCORRECTABLE_ERROR` (R291, R398 to R400): a data word, or a line's data in an L2, is poisoned; an error anywhere else stops the streams that it affects. An error of one bit is
corrected in place and logged with TYPE 5 (R291, R402), and one that a port's link corrects is a fabric event (Table 20.6). -/
def execUncorrectableError (site : ErrorSite) (s : State) : Host.Outcome State Fault Refusal :=
  .next (match site with
    | .memory pa =>
      if pa < 2 ^ 40 then { s with poison := addPoison s.poison pa 1 }.record (homeDie pa) 9 0xFF 0xFFFF 0 0 pa else s
    | .shared t off => match tabFind s.teams t with
      | some tm => (s.poisonShm t off 1).record (dieOf tm.core) 9 0xFF tm.core 0 0 off
      | none => s
    | .accumulator t n => match tabFind s.teams t with
      | some tm =>
        let words := [n / 2 * 2, n / 2 * 2 + 1].filter fun i => !tm.accPoison.contains i
        (s.updateTeam t fun tm => { tm with accPoison := tm.accPoison ++ words }).record (dieOf tm.core) 9 0xFF tm.core 0 0 (n * 4)
      | none => s
    | .l2Data pa =>
      if pa < 2 ^ 40 then { s with poison := addPoison s.poison (pa / 128 * 128) 128 }.record (homeDie pa) 9 0xFF 0xFFFF 0 0 pa else s
    | .corrected die ctx core a => s.record die 5 ctx core 0 0 a
    | .fec port => if port < 8 then s.fabricEvent (portDie port) 6 port else s
    | .line pa => if pa < 2 ^ 40 then (s.spoilLine (pa / 128)).uncontained [homeDie pa] lineKind (homeOf pa) else s
    | .unit die kind index => s.uncontained [die] kind index
    | .link die other kind index => s.uncontained [die, other] kind index)

/-! ### Errors on links (R283, R269) -/

/-- The resends after which a flit's error is uncorrectable. -/
def maxResends : Nat := 16

/-- The unit kinds of the links in a report. -/
def flitKind : Nat := 1
/-- The record kind of a UCIe replay (log entry 93). -/
def ucieKind : Nat := 2
/-- The record kind of a crossbar parity error (log entry 93). -/
def crossbarKind : Nat := 3

/-- A flit sent again on a die, of which some resends have failed: logged, or after 16 failures uncontained (R283). -/
def State.flitError (s : State) (die kind index failures : Nat) : State :=
  if failures < maxResends then s.record die 3 0xFF 0xFFFF kind 0 index
  else s.uncontained [die] kind index

/-- `FLIT_CRC_ERROR` (R283). -/
def execFlitCrcError (die failures : Nat) (s : State) : Host.Outcome State Fault Refusal := .next (s.flitError die flitKind die failures)

/-- `UCIE_REPLAY` (R283). -/
def execUcieReplay (die other : Nat) (completed : Bool) (s : State) : Host.Outcome State Fault Refusal :=
  .next (if completed then s.record die 3 0xFF 0xFFFF ucieKind 0 other else s.uncontained [die, other] ucieKind other)

/-- `CROSSBAR_PARITY_ERROR` (R269, Table 12.5). -/
def execCrossbarParityError (cluster failures : Nat) (s : State) : Host.Outcome State Fault Refusal :=
  .next (s.flitError (cluster / 16) crossbarKind cluster failures)

/-- `FIRMWARE_HALT` (R402): every ring is frozen. -/
def execFirmwareHalt (_ : Nat) (s : State) : Host.Outcome State Fault Refusal := .next { s with frozen := true }

/-! ### Power (R403, R404) -/

/-- The number of islands, each of two cores (R403). -/
def islandCount : Nat := 512

/-- The package's power limit in watts. -/
def powerLimit : Nat := 2800

/-- The class of an island's teams: the best class among those resident on its cores, one beyond the lowest where there is none. -/
def State.islandClass (s : State) (i : Nat) : Nat :=
  ((s.residents (2 * i)) ++ s.residents (2 * i + 1)).foldl (fun m e => min m (s.launchClass e.2.launch)) 4

/-- The die of an island. -/
def islandDie (i : Nat) : Nat := i / 64

/-- A count of clocks of an island that is running as its frequency changes, in clocks of `%clock` (R403). -/
def rescaled (old new n : Nat) : Nat := n * old / new

/-- The counts of a core's island carried over a change of its frequency: the idle time of its warps, and the time for which lanes are held. -/
def State.rescale (s : State) (core old new : Nat) : State :=
  let later (t : Nat) : Nat := if s.clock < t then s.clock + rescaled old new (t - s.clock) else t
  let since (t : Nat) : Nat := s.clock - rescaled old new (s.clock - t)
  { s with
    warps := s.warps.map fun e => if e.2.core == core then (e.1, { e.2 with idleSince := since e.2.idleSince }) else e
    cores := s.cores.map fun e =>
      if e.1 == core then (e.1, { e.2 with quarters := e.2.quarters.map fun q => { q with heldUntil := later q.heldUntil } }) else e }

/-- An island set to a frequency, with the record of TYPE 4. -/
def State.setIsland (s : State) (i f : Nat) : State :=
  let s1 := (s.rescale (2 * i) (s.frequency i) f).rescale (2 * i + 1) (s.frequency i) f
  { s1 with islands := tabPut s1.islands 1600 i f }.record (islandDie i) 4 0xFF (2 * i) 0 0 (i * 65536 + f)

/-- The island to lower among those that a test admits: numerically highest class first. -/
def State.islandDown (s : State) (p : Nat → Bool) : Option Nat :=
  minBy (fun i => [4 - s.islandClass i, i]) ((upto islandCount).filter fun i => p i && decide (800 < s.frequency i))

/-- The island to raise: in the reverse order. -/
def State.islandUp (s : State) : Option Nat :=
  minBy (fun i => [s.islandClass i, islandCount - i]) ((upto islandCount).filter fun i => decide (s.frequency i < 1600))

/-- `POWER_MEASUREMENT` (R404): one step down while the package or a die is above its limit, one step up otherwise. An I/O die holds no island, so that any island is lowered for one.
DESIGN CHOICE: R3 and R404 give no reading at which islands are raised again and no order among those of one class; one is raised at every reading that lowers none, and the
lowest-numbered is lowered first (log entry 95). -/
def execPowerMeasurement (r : PowerReading) (s : State) : Host.Outcome State Fault Refusal :=
  let hot := r.hotDies.filter fun d => decide (d < 10)
  let down (p : Nat → Bool) : State := match s.islandDown p with
    | some i => s.setIsland i (s.frequency i - 50)
    | none => s
  .next (if powerLimit < r.watts then down fun _ => true
    else if !hot.isEmpty then down fun i => hot.contains (islandDie i) || hot.any fun d => decide (8 ≤ d)
    else match s.islandUp with
      | some i => s.setIsland i (s.frequency i + 50)
      | none => s)

/-! ### Boot and resets (R402, R405) -/

/-- The tables as the firmware leaves them: every entry of both at its reset values (Tables 17.2 and 17.3). -/
def State.clearTables (s : State) : State :=
  let s1 := (upto 256).foldl (fun s c => s.writeBytes (contextEntry c + 0x1C) [3]) s
  (upto 1024).foldl (fun s q => s.writeBytes (queueEntry q + 0xD) [3]) s1

/-- The boot ROM at work: it reads the image and verifies it against the fused key hash; a good image starts the firmware, any other
leaves the package limited. The firmware writes the decode tables (R405). -/
def State.bootUp (s : State) : State :=
  let image := s.flash.getD Config.flashImage
  if Config.verifies image Config.fusedKeyHash then { s.clearTables with boot := .running, image := some image, decodeTables := Config.decodeTables image }
  else { s with boot := .limited, image := some image }

/-- `POWER_UP` (R405): the boot ROM begins to verify the image. -/
def execPowerUp (s : State) : Host.Outcome State Fault Refusal := .next (if s.boot == .off then { s with boot := .verifying } else s)

/-- `WARM_RESET` (R402): the rings survive. The running image starts anew. -/
def execWarmReset (s : State) : Host.Outcome State Fault Refusal :=
  .next (if s.boot == .off then s
    else
      let s1 : State := { State.reset with
        rings := s.rings, frozen := s.frozen, flash := s.flash, boot := s.boot, image := s.image, decodeTables := s.decodeTables, tick := s.tick, agenda := s.agenda }
      if s.boot == .running then s1.clearTables else s1)

/-- `COLD_RESET` (R402, R405): the rings are cleared, and the package boots from the image now in flash. -/
def execColdReset (s : State) : Host.Outcome State Fault Refusal :=
  .next { State.reset with flash := s.flash, boot := .verifying, tick := s.tick, agenda := s.agenda }

end Sys2Proof.Machine
end

