-- ==== Sys2Proof/Machine/CrossLane.lean ====
section
/-! DEFINITION. The cross-lane instructions: shuffles, reductions and scans, votes, ballots and matches (R62, R63, R142 to R146). -/

namespace Sys2Proof.Machine

/-- The checks of a collective vector instruction in their order (R32, R161, Table 3.8). -/
def collective {α : Type} (env : Env) (w : Warp) (ok : ElemType → Bool) (operands names : List Nat) (k : Except Stop α) :
    Except Stop α :=
  w.point <| w.typeCheck ok operands <| w.converged <| w.rangeCheck env names k

/-! ### Shuffles (R143) -/

/-- The source lane of a shuffle in lane `l`, none where it keeps its own value. -/
def shuffleSource (width : Nat) (k : ShuffleKind) (off idx l : Nat) : Option Nat :=
  match k with
  | .idx => some (idx % width)
  | .up => if off ≤ l then some (l - off) else none
  | .down => if l + off < width then some (l + off) else none
  | .xor => some (Nat.xor l off % width)

/-- What `VSHFL` does to a warp (R143). -/
def vshfl (env : Env) (w : Warp) (d a : Nat) (k : ShuffleKind) (rel : Bool) (n : Nat) : Except Stop Warp :=
  let t := w.typ
  let off := if rel then w.width / 2 ^ n else n
  collective env w anyType [d, a] (t.span d ++ t.span a) <|
  .ok (w.later w.executing (t.span d) (w.produce env t d false fun l _ =>
    match shuffleSource w.width k off (w.reg l d).toNat l with
    | some m => plain (w.val t (if inMask w.executing m then m else l) a)
    | none => plain (w.val t l a)))

/-! ### Reductions and scans (R62, R63, R144) -/

/-- One step of a reduction on element codes: the step's random chunk is number `j` of the draw. -/
abbrev RedStep := Nat → Nat → Nat → Nat × Flags

/-- The pairs of a butterfly step combined, lower lane first: the list's halves. -/
def combine (op : Nat → Nat → Nat × Flags) : List Nat → List Nat → List Nat × Flags
  | x :: xs, y :: ys =>
    let (v, f1) := op x y
    let (vs, f2) := combine op xs ys
    (v :: vs, f1.or f2)
  | _, _ => ([], noFlags)

/-- The butterfly of R62 over 2^k elements; the step at distance 2^(k−1) uses chunk `chunk k`. -/
def butterfly (op : RedStep) (chunk : Nat → Nat) : Nat → List Nat → Nat × Flags
  | 0, xs => (nth xs 0 0, noFlags)
  | k + 1, xs =>
    let (ys, f1) := combine (op (chunk (k + 1))) (xs.take (2 ^ k)) (xs.drop (2 ^ k))
    let (v, f2) := butterfly op chunk k ys
    (v, f1.or f2)

/-- The aligned blocks that tile lanes 0 to n − 1, largest first: start and log₂ of the length (R63). -/
def blocksOf (n : Nat) : Nat → Nat → List (Nat × Nat)
  | 0, s => if bit n 0 then [(s, 0)] else []
  | b + 1, s => if bit n (b + 1) then (s, b + 1) :: blocksOf n b (s + 2 ^ (b + 1)) else blocksOf n b s

/-- Block totals combined from left to right; the `j`-th combination uses chunk (6 + j) mod 8 (R144). -/
def scanBlocks (op : RedStep) (xs : List Nat) : Nat → List (Nat × Nat) → Nat × Flags → Nat × Flags
  | _, [], acc => acc
  | j, (s, b) :: r, (v, fl) =>
    let (x, f1) := butterfly op (· - 1) b ((xs.drop s).take (2 ^ b))
    let (v', f2) := op ((6 + j) % 8) v x
    scanBlocks op xs (j + 1) r (v', (fl.or f1).or f2)

/-- The inclusive prefix of lane `i` (R63). DEDUCED: the prefix of lane 0 takes no step, and R63 and R144 round and deliver steps, so that it is the input as it is, an infinite one
under SAT = 1 too (log entry 133). -/
def scanLane (op : RedStep) (xs : List Nat) (i : Nat) : Nat × Flags :=
  match blocksOf (i + 1) 6 0 with
  | [] => (0, noFlags)
  | (s, b) :: r => scanBlocks op xs 0 r (butterfly op (· - 1) b ((xs.drop s).take (2 ^ b)))

/-- An input element of a reduction: flushed, a NaN made canonical, invalid for a signalling NaN (R57, R58). -/
def redInput (t : ElemType) (ftz : Bool) (x : Nat) : Nat × Flags :=
  match t.fmt? with
  | some f =>
    let v := f.decode (f.flush ftz x)
    if v.isNan then (f.nanCode, { invalid := v.isSignalling }) else plain (f.flush ftz x)
  | none => plain x

/-- Each lane's element `j`, the identity where it does not execute (R62). -/
def redElems (w : Warp) (t : ElemType) (a j identity : Nat) : List Nat :=
  (upto w.width).map fun l => if inMask w.executing l then (redInput t w.ftz (elem t (w.val t l a) j)).1 else identity

/-- The flags of the inputs of a reduction. -/
def redFlags (w : Warp) (t : ElemType) (a : Nat) : Flags :=
  (lanesOf w.width w.executing).foldl
    (fun f l => (upto t.count).foldl (fun f j => f.or (redInput t w.ftz (elem t (w.val t l a) j)).2) f) noFlags

/-- log₂ of the warp's width (R14). -/
def logWidth (w : Warp) : Nat := if w.width == 64 then 6 else 5

/-- The chunks that every step of a reduction uses: those of the lowest-numbered executing lane (R144). -/
def redRounding (env : Env) (w : Warp) : Nat → Rounding := w.rounding env ((lowestLane w.width w.executing).getD 0)

/-- A step of `VREDADD` and `VSCAN` (R144). -/
def addStep (env : Env) (w : Warp) (t : ElemType) : RedStep :=
  let rs := redRounding env w
  fun c x y => arith t w.sat w.ftz addF (· + ·) (rs (c % 8)) x y

/-- A step of `VREDMIN` or `VREDMAX`: one of the two elements, exactly. -/
def pickStep (t : ElemType) (left : FNum → FNum → Bool) (ileft : Int → Int → Bool) : RedStep := fun _ x y =>
  plain (match t.fmt? with
    | some f => if left (f.decode x) (f.decode y) then x else y
    | none => if ileft (intElem t x) (intElem t y) then x else y)

/-- The identity of addition (R62). -/
def addIdentity (t : ElemType) : Nat := match t.fmt? with
  | some f => f.signed true 0
  | none => 0

/-- The identity of minimum and of maximum (R62); every type of F has infinities. -/
def minIdentity (t : ElemType) : Nat := match t.fmt? with
  | some f => f.signed false f.infCode
  | none => fitInt t.isSigned t.width true (intMax t.isSigned t.width)

/-- The identity of maximum (R62). -/
def maxIdentity (t : ElemType) : Nat := match t.fmt? with
  | some f => f.signed true f.infCode
  | none => fitInt t.isSigned t.width true (intMin t.isSigned t.width)

/-- An exact result of a minimum or maximum delivered into its element (R48, R124). -/
def redDeliver (w : Warp) (t : ElemType) (x : Nat) : Nat × Flags := match t.fmt? with
  | some f => f.deliver .rne w.sat w.ftz (f.decode x)
  | none => plain x

/-- The result of a reduction: each element position by the butterfly of R62, step t with chunk t, and the flags that every
executing lane raises. -/
def reduce (w : Warp) (t : ElemType) (op : RedStep) (identity : Nat) (last : Nat → Nat × Flags) (a : Nat) : Nat × Flags :=
  let n := logWidth w
  let r := perElem t fun j =>
    let (v, f1) := butterfly op (n - ·) n (redElems w t a j identity)
    let (c, f2) := last v
    (c, f1.or f2)
  (r.1, r.2.or (redFlags w t a))

/-- Every executing lane receives one result. -/
def broadcastResult (env : Env) (w : Warp) (t : ElemType) (d : Nat) (draws : Bool) (r : Nat × Flags) : Warp :=
  w.later w.executing (t.span d) (w.produce env t d draws fun _ _ => r)

/-- What `VREDADD` does to a warp (R144). -/
def vredadd (env : Env) (w : Warp) (d a : Nat) : Except Stop Warp :=
  let t := w.typ
  collective env w ElemType.inN [d, a] (t.span d ++ t.span a) <|
  .ok (broadcastResult env w t d w.rounds (reduce w t (addStep env w t) (addIdentity t) plain a))

/-- What `VREDMIN` does to a warp (R144). -/
def vredmin (env : Env) (w : Warp) (d a : Nat) : Except Stop Warp :=
  let t := w.typ
  collective env w ElemType.inN [d, a] (t.span d ++ t.span a) <|
  .ok (broadcastResult env w t d false
    (reduce w t (pickStep t FNum.minIsLeft fun x y => decide (x ≤ y)) (minIdentity t) (redDeliver w t) a))

/-- What `VREDMAX` does to a warp (R144). -/
def vredmax (env : Env) (w : Warp) (d a : Nat) : Except Stop Warp :=
  let t := w.typ
  collective env w ElemType.inN [d, a] (t.span d ++ t.span a) <|
  .ok (broadcastResult env w t d false
    (reduce w t (pickStep t FNum.maxIsLeft fun x y => decide (y ≤ x)) (maxIdentity t) (redDeliver w t) a))

/-- A bitwise reduction of whole words or pairs (R144). -/
def reduceBits (env : Env) (w : Warp) (d a : Nat) (f : Nat → Nat → Nat) (identity : Nat) : Except Stop Warp :=
  let t := w.typ
  collective env w anyType [d, a] (t.span d ++ t.span a) <|
  .ok (broadcastResult env w t d false
    (butterfly (fun _ x y => plain (f x y)) id (logWidth w)
      ((upto w.width).map fun l => if inMask w.executing l then w.val t l a else identity)))

/-- What `VREDAND` does to a warp (R144). -/
def vredand (env : Env) (w : Warp) (d a : Nat) : Except Stop Warp := reduceBits env w d a Nat.land (2 ^ 64 - 1)

/-- What `VREDOR` does to a warp (R144). -/
def vredor (env : Env) (w : Warp) (d a : Nat) : Except Stop Warp := reduceBits env w d a Nat.lor 0

/-- What `VREDXOR` does to a warp (R144). -/
def vredxor (env : Env) (w : Warp) (d a : Nat) : Except Stop Warp := reduceBits env w d a Nat.xor 0

/-- The result of a `VSCAN` in lane `l`, with the flags of the inputs (R63, R144). -/
def scanResult (env : Env) (w : Warp) (t : ElemType) (a l : Nat) : Nat × Flags :=
  perElem t fun j => scanLane (addStep env w t) (redElems w t a j (addIdentity t)) l

/-- What `VSCAN` does to a warp (R144). The flags are those of the inputs and of the steps that the executing lanes' own prefixes need.
DEDUCED: R144 raises the flags of any step, and does not say whether a step that only a non-executing lane's prefix needs is one (log entry 108). -/
def vscan (env : Env) (w : Warp) (d a : Nat) : Except Stop Warp :=
  let t := w.typ
  collective env w ElemType.inN [d, a] (t.span d ++ t.span a) <|
  let fl := (lanesOf w.width w.executing).foldl (fun f l => f.or (scanResult env w t a l).2) (redFlags w t a)
  .ok (w.later w.executing (t.span d) (w.produce env t d w.rounds fun l _ => ((scanResult env w t a l).1, fl)))

/-! ### Votes, ballots and matches (R145, R146) -/

/-- A vote over the executing lanes written to their bits of p[d], with variable latency. -/
def vote (w : Warp) (d : Nat) (r : Bool) : Except Stop Warp :=
  w.point <| w.converged <|
  .ok ((w.setPred d (w.pred d)).defer
    ((lanesOf w.width w.executing).map fun l => .pred d l r))

/-- What `VVOTEANY` does to a warp (R145). -/
def vvoteany (w : Warp) (d a : Nat) : Except Stop Warp := vote w d (w.pred a &&& w.executing != 0)

/-- What `VVOTEALL` does to a warp (R145). -/
def vvoteall (w : Warp) (d a : Nat) : Except Stop Warp := vote w d (w.pred a &&& w.executing == w.executing)

/-- A lane mask written to the pair vd:vd+1 of each executing lane (R120). -/
def putMask (w : Warp) (d : Nat) (m : Nat → Mask) : Warp :=
  w.later w.executing [d, d + 1]
    ((w.eachLane w.executing fun l => .ok (putWords w l d [(m l).toNat % 2 ^ 32, (m l).toNat / 2 ^ 32] (w.lane l), noFlags)).dropLatches
      [d, d + 1])

/-- What `VBALLOT` does to a warp (R145). -/
def vballot (env : Env) (w : Warp) (d p : Nat) : Except Stop Warp :=
  w.point <| w.converged <| w.rangeCheck env [d, d + 1] <|
  .ok (putMask w d fun _ => w.pred p &&& w.executing)

/-- Whether two keys match: as bit patterns, or under f32 by value, where a NaN matches nothing (R146). -/
def keysMatch (t : ElemType) (x y : Nat) : Bool :=
  match t.fmt? with
  | some f =>
    let a := f.decode x
    let b := f.decode y
    !a.isNan && !b.isNan && (a.cmp b == .eq)
  | none => x == y

/-- What `VMATCH` does to a warp (R146). DEDUCED: it raises no flag, for a signalling NaN key neither, since R146 names none and R58 does not count it among the comparing
instructions (log entry 134). -/
def vmatch (env : Env) (w : Warp) (d a : Nat) : Except Stop Warp :=
  let t := w.typ
  w.point <| w.typeCheck ElemType.inK [a] <| w.converged <| w.rangeCheck env ([d, d + 1] ++ t.span a) <|
  .ok (putMask w d fun l => maskOf ((lanesOf w.width w.executing).filter fun m => m == l || keysMatch t (w.val t l a) (w.val t m a)))

/-! ### Meanings -/

/-- `VSHFL` (R143). Gives each executing lane the va value of a source lane by index, up, down or xor. -/
def execVshfl (d a : Nat) (k : ShuffleKind) (rel : Bool) (n : Nat) (s : State) : Host.Outcome State Fault Refusal :=
  s.issue fun env w => vshfl env w d a k rel n

/-- `VREDADD` (R144). Reduces va by addition across the warp in butterfly order. -/
def execVredadd (d a : Nat) (reuse : Bool) (s : State) : Host.Outcome State Fault Refusal :=
  s.issue fun env w => vredadd env (w.mark reuse a) d a

/-- `VREDMIN` (R144). Reduces va by minimum across the warp. -/
def execVredmin (d a : Nat) (reuse : Bool) (s : State) : Host.Outcome State Fault Refusal :=
  s.issue fun env w => vredmin env (w.mark reuse a) d a

/-- `VREDMAX` (R144). Reduces va by maximum across the warp. -/
def execVredmax (d a : Nat) (reuse : Bool) (s : State) : Host.Outcome State Fault Refusal :=
  s.issue fun env w => vredmax env (w.mark reuse a) d a

/-- `VREDAND` (R144). Reduces va by bitwise AND across the warp. -/
def execVredand (d a : Nat) (reuse : Bool) (s : State) : Host.Outcome State Fault Refusal :=
  s.issue fun env w => vredand env (w.mark reuse a) d a

/-- `VREDOR` (R144). Reduces va by bitwise OR across the warp. -/
def execVredor (d a : Nat) (reuse : Bool) (s : State) : Host.Outcome State Fault Refusal :=
  s.issue fun env w => vredor env (w.mark reuse a) d a

/-- `VREDXOR` (R144). Reduces va by bitwise XOR across the warp. -/
def execVredxor (d a : Nat) (reuse : Bool) (s : State) : Host.Outcome State Fault Refusal :=
  s.issue fun env w => vredxor env (w.mark reuse a) d a

/-- `VSCAN` (R144). Gives each executing lane the inclusive prefix sum in the block order of R63. -/
def execVscan (d a : Nat) (reuse : Bool) (s : State) : Host.Outcome State Fault Refusal :=
  s.issue fun env w => vscan env (w.mark reuse a) d a

/-- `VMATCH` (R146). Writes to each lane the mask of executing lanes whose key equals its own. -/
def execVmatch (d a : Nat) (reuse : Bool) (s : State) : Host.Outcome State Fault Refusal :=
  s.issue fun env w => vmatch env (w.mark reuse a) d a

/-- `VVOTEANY` (R145). Writes the OR of predicate pa over executing lanes into pd. -/
def execVvoteany (d a : Nat) (s : State) : Host.Outcome State Fault Refusal :=
  s.issue fun _ w => vvoteany w d a

/-- `VVOTEALL` (R145). Writes the AND of predicate pa over executing lanes into pd. -/
def execVvoteall (d a : Nat) (s : State) : Host.Outcome State Fault Refusal :=
  s.issue fun _ w => vvoteall w d a

/-- `VBALLOT` (R145). Writes the 64-bit mask of executing lanes with pa set into vd:vd+1. -/
def execVballot (d p : Nat) (s : State) : Host.Outcome State Fault Refusal :=
  s.issue fun env w => vballot env w d p

end Sys2Proof.Machine
end

