-- ==== Sys2Proof/Machine/Repeat.lean ====
section
/-! DEFINITION. REP: the registers that an iteration steps, the meaning of each word that can be repeated, and one iteration at a time (R76, R112, R113). -/

namespace Sys2Proof.Machine

/-- The second source of a format A word stepped by `n` (R112). -/
def stepSrc (n : Nat) : SrcB → SrcB
  | .v r => .v (r + n)
  | .s r => .s r

/-- A word with its stepped fields moved: vd by `d`, va by `a` and vb by `b` (R76, R112). -/
def stepBody (d a b : Nat) : Instr → Instr
  | .vadd vd va vb => .vadd (vd + d) (va + a) (stepSrc b vb)
  | .vsub vd va vb => .vsub (vd + d) (va + a) (stepSrc b vb)
  | .vmul vd va vb => .vmul (vd + d) (va + a) (stepSrc b vb)
  | .vmad vd va vb => .vmad (vd + d) (va + a) (stepSrc b vb)
  | .vmin vd va vb => .vmin (vd + d) (va + a) (stepSrc b vb)
  | .vmax vd va vb => .vmax (vd + d) (va + a) (stepSrc b vb)
  | .vand vd va vb => .vand (vd + d) (va + a) (stepSrc b vb)
  | .vor vd va vb => .vor (vd + d) (va + a) (stepSrc b vb)
  | .vxor vd va vb => .vxor (vd + d) (va + a) (stepSrc b vb)
  | .vshl vd va vb => .vshl (vd + d) (va + a) (stepSrc b vb)
  | .vshr vd va vb => .vshr (vd + d) (va + a) (stepSrc b vb)
  | .vsra vd va vb => .vsra (vd + d) (va + a) (stepSrc b vb)
  | .vmulh vd va vb => .vmulh (vd + d) (va + a) (stepSrc b vb)
  | .vdot vd va vb => .vdot (vd + d) (va + a) (stepSrc b vb)
  | .vsel vd va vb => .vsel (vd + d) (va + a) (stepSrc b vb)
  | .vbfe vd va vb => .vbfe (vd + d) (va + a) (stepSrc b vb)
  | .vbfi vd va vb => .vbfi (vd + d) (va + a) (stepSrc b vb)
  | .vcmp c p va vb => .vcmp c p (va + a) (stepSrc b vb)
  | .vcvt vd va t => .vcvt (vd + d) (va + a) t
  | .vaddi vd va i => .vaddi (vd + d) (va + a) i
  | .vmuli vd va i => .vmuli (vd + d) (va + a) i
  | .vandi vd va i => .vandi (vd + d) (va + a) i
  | .vori vd va i => .vori (vd + d) (va + a) i
  | .vrdx vd va i => .vrdx (vd + d) (va + a) i
  | .vwrx vd va i => .vwrx (vd + d) (va + a) i
  | .vshi vd va k n => .vshi (vd + d) (va + a) k n
  | .vcmpi c p va i => .vcmpi c p (va + a) i
  | .vshfl vd va k rel n => .vshfl (vd + d) (va + a) k rel n
  | .vnot vd va r => .vnot (vd + d) (va + a) r
  | .vabs vd va r => .vabs (vd + d) (va + a) r
  | .vneg vd va r => .vneg (vd + d) (va + a) r
  | .vclz vd va r => .vclz (vd + d) (va + a) r
  | .vpopc vd va r => .vpopc (vd + d) (va + a) r
  | .vrcp vd va r => .vrcp (vd + d) (va + a) r
  | .vrsq vd va r => .vrsq (vd + d) (va + a) r
  | .vexp2 vd va r => .vexp2 (vd + d) (va + a) r
  | .vlog2 vd va r => .vlog2 (vd + d) (va + a) r
  | .vsin vd va r => .vsin (vd + d) (va + a) r
  | .vcos vd va r => .vcos (vd + d) (va + a) r
  | .vact vd va r => .vact (vd + d) (va + a) r
  | .vpack vd va r => .vpack (vd + d) (va + a) r
  | .vunpk vd va r => .vunpk (vd + d) (va + a) r
  | .vredadd vd va r => .vredadd (vd + d) (va + a) r
  | .vredmin vd va r => .vredmin (vd + d) (va + a) r
  | .vredmax vd va r => .vredmax (vd + d) (va + a) r
  | .vredand vd va r => .vredand (vd + d) (va + a) r
  | .vredor vd va r => .vredor (vd + d) (va + a) r
  | .vredxor vd va r => .vredxor (vd + d) (va + a) r
  | .vscan vd va r => .vscan (vd + d) (va + a) r
  | .vmatch vd va r => .vmatch (vd + d) (va + a) r
  | .vmov vd va => .vmov (vd + d) (va + a)
  | .vballot vd p => .vballot (vd + d) p
  | .vrand vd => .vrand (vd + d)
  | .vlane vd x => .vlane (vd + d) x
  | i => i

/-- The meaning of a word that can be repeated, as a full instruction; any other word is an illegal instruction (R76, R112). -/
def repeated (env : Env) (w : Warp) : Instr → Except Stop Warp
  | .vadd d a b => vadd env w d a b
  | .vsub d a b => vsub env w d a b
  | .vmul d a b => vmul env w d a b
  | .vmad d a b => vmad env w d a b
  | .vmin d a b => vmin env w d a b
  | .vmax d a b => vmax env w d a b
  | .vand d a b => vand env w d a b
  | .vor d a b => vor env w d a b
  | .vxor d a b => vxor env w d a b
  | .vshl d a b => vshl env w d a b
  | .vshr d a b => vshr env w d a b
  | .vsra d a b => vsra env w d a b
  | .vmulh d a b => vmulh env w d a b
  | .vdot d a b => vdot env w d a b
  | .vsel d a b => vsel env w d a b
  | .vbfe d a b => vbfe env w d a b
  | .vbfi d a b => vbfi env w d a b
  | .vcmp c p a b => vcmp env w c p a b
  | .vcvt d a t => vcvt env w d a t
  | .vaddi d a i => vaddi env w d a i
  | .vmuli d a i => vmuli env w d a i
  | .vandi d a i => vandi env w d a i
  | .vori d a i => vori env w d a i
  | .vrdx d a i => vrdx env w d a i
  | .vwrx d a i => vwrx env w d a i
  | .vshi d a k n => vshi env w d a k n
  | .vcmpi c p a i => vcmpi env w c p a i
  | .vshfl d a k rel n => vshfl env w d a k rel n
  | .vnot d a _ => vnot env w d a
  | .vabs d a _ => vabs env w d a
  | .vneg d a _ => vneg env w d a
  | .vclz d a _ => vclz env w d a
  | .vpopc d a _ => vpopc env w d a
  | .vrcp d a _ => vrcp env w d a
  | .vrsq d a _ => vrsq env w d a
  | .vexp2 d a _ => vexp2 env w d a
  | .vlog2 d a _ => vlog2 env w d a
  | .vsin d a _ => vsin env w d a
  | .vcos d a _ => vcos env w d a
  | .vact d a _ => vact env w d a
  | .vpack d a _ => vpack env w d a
  | .vunpk d a _ => vunpk env w d a
  | .vredadd d a _ => vredadd env w d a
  | .vredmin d a _ => vredmin env w d a
  | .vredmax d a _ => vredmax env w d a
  | .vredand d a _ => vredand env w d a
  | .vredor d a _ => vredor env w d a
  | .vredxor d a _ => vredxor env w d a
  | .vscan d a _ => vscan env w d a
  | .vmatch d a _ => vmatch env w d a
  | .vmov d a => vmov env w d a
  | .vvoteany d a => vvoteany w d a
  | .vvoteall d a => vvoteall w d a
  | .vballot d p => vballot env w d p
  | .vrand d => vrand env w d
  | .vlane d a => vlane env w d a
  | _ => .error (w.trap 0x01)

/-- The iterations of a `REP` (R112). -/
def repCount (n : Nat) : Nat := if n == 0 then 64 else n

/-- The first iteration of an issue of the `REP` word: it resumes the pair where an `ERET` has left `%repc` (R113). A count left over that is greater than the
pair's own begins it at iteration 0. DESIGN CHOICE: R113 resumes at iteration n − m and says nothing of m > n, which a handler can bring about by returning to another
pair (log entry 110). -/
def Warp.repFirst (w : Warp) (n : Nat) : Nat := if w.repResume && decide (0 < w.repc.toNat) && decide (w.repc.toNat ≤ n) then n - w.repc.toNat else 0

/-- The warp past a `REP` pair: `%repc` reads 0 (R112). -/
def Warp.endPair (w : Warp) : Warp := { w with repc := 0, repResume := false, repOpen := false }

/-- One iteration of a `REP` (R112): its word takes effect as an instruction of its own, and the warp stays at the pair until the last one. A trap of an iteration that
only dooms the active lanes is not raised (R299) and ends the pair: the doomed lanes execute nothing of the iterations that are left. -/
def repIteration (n i : Nat) (sd sa sb : Bool) (stride : Nat) (body : Instr) (env : Env) (w : Warp) : Except Stop (Warp × Next) :=
  let m := i * 2 ^ stride
  let st (b : Bool) : Nat := if b then m else 0
  stopIf (!repOk sd sa sb stride body) (w.trap 0x01) <|
  match repeated env w (stepBody (st sd) (st sa) (st sb) body) with
  | .ok w1 =>
    .ok (if i + 1 < n then ({ w1 with repc := BitVec.ofNat 7 (n - (i + 1)) }, .stay)
      else (w1.endPair, .after 8))
  | .error (.trap cause addr lanes) =>
    if w.onlyDooms then .ok (w.doomActive.endPair, .after 8) else .error (.trap cause addr lanes)
  | .error e => .error e

/-- `REP` (R112, R113, R180): the issue of the `REP` word, a slot of its own that counts nothing (R387) and finds an illegal pair; then, one issue each, the iterations, with `%repc`
counting them. -/
def execRep (n : Nat) (sd sa sb : Bool) (stride : Nat) (body : Instr) (s : State) : Host.Outcome State Fault Refusal :=
  match s.turn with
  | none => .fault .noWarp
  | some k => match tabFind s.warps k with
    | none => .fault .noWarp
    | some w =>
      let c := repCount n
      .next (if w.repOpen || !repOk sd sa sb stride body then
          s.issueBy k w 8 fun s _ env w => (repIteration c (c - w.repc.toNat) sd sa sb stride body env w).map fun r => (s, r.1, r.2)
        else s.putWarp k { w with repc := BitVec.ofNat 7 (c - w.repFirst c), repResume := false, repOpen := true })

end Sys2Proof.Machine
end

