-- ==== Sys2Proof/Machine/Tx.lean ====
section
/-! DEFINITION. Transactions: TXEND, TXENDO, TXABORT and TXSTAT, the two phases of a commit, aborts and back-off, restarts, the irrevocability token, and Slalom's commit order (R298 to R314). -/

namespace Sys2Proof.Machine

/-! ### Sectors and conflicts (R302) -/

/-- The sectors that a transaction writes; an irrevocable lane's are those it has written. -/
def Tx.writeSet (t : Tx) : List Nat := if t.irrevocable then t.written else t.writes.map (·.sect)

/-- The sectors that a transaction reads; an irrevocable lane's are those it has locked. -/
def Tx.readSet (t : Tx) : List Nat := if t.irrevocable then t.locked else t.reads.map (·.sect)

/-- All sectors of a transaction. -/
def Tx.sectors (t : Tx) : List Nat := dedup (t.writeSet ++ t.readSet)

/-- Whether two transactions meet: one writes a sector that the other reads or writes (R302). -/
def Tx.meets (t u : Tx) : Bool :=
  (t.writeSet.any fun x => u.writeSet.contains x || u.readSet.contains x) || t.readSet.any u.writeSet.contains

/-- A lane's transaction where it is open. -/
def Warp.tx? (w : Warp) (l : Nat) : Option Tx := (w.lane l).tx

/-- Whether lanes `l` and `k` of a warp meet. -/
def Warp.laneMeets (w : Warp) (l k : Nat) : Bool :=
  match w.tx? l, w.tx? k with
  | some t, some u => t.meets u
  | _, _ => false

/-- The active lanes with an open transaction. -/
def Warp.openLanes (w : Warp) : List Nat := (lanesOf w.width w.active).filter fun l => (w.tx? l).isSome

/-- The intra-warp unit of `TXEND` (R302): the survivors and the losers of a list of lanes, in order. -/
def intraWarp (w : Warp) : List Nat → List Nat → List Nat → List Nat × List Nat
  | [], kept, lost => (kept, lost)
  | l :: r, kept, lost => if kept.any (w.laneMeets l) then intraWarp w r kept (lost ++ [l]) else intraWarp w r (kept ++ [l]) lost

/-- The recorded cause and code of a doomed lane. -/
def Warp.doomOf (w : Warp) (l : Nat) : Nat × Nat := ((w.tx? l).bind (·.doomed)).getD (0, 0)

/-! ### Aborts and back-off (R305 to R307) -/

/-- A lane whose transaction aborts with a cause and a code (R305, R309). -/
def Lane.abortTx (x : Lane) (cause code : Nat) : Lane :=
  { x with tx := none, txCause := BitVec.ofNat 8 cause, txCode := BitVec.ofNat 8 code, aborts := x.aborts + 1 }

/-- The clocks that an aborted lane waits; `n` counts its aborts before this one (R306). -/
def backoff (l n warpid : Nat) : Nat := min (32 * 2 ^ n) 8192 + (11 * l + 7 * n + 3 * warpid) % 32

/-- The retry threshold of a region (R307). -/
def Region.threshold (r : Region) : Nat := if r.retries == 0 then 8 else r.retries

/-- Whether a lane may request the token: its abort count has reached the threshold, and an ordered lane is the next to commit (R307,
R313). `w` holds the lanes after their aborts. Of an object on another package the warp knows the NEXTCOMMIT that its commit has left, if it ends one (`seen`); DEDUCED: R313 names no
other reading of it (log entry 120). -/
def State.eligible (s : State) (w : Warp) (seen : Option Nat) (l : Nat) : Bool :=
  decide (w.region.threshold ≤ (w.lane l).aborts) && match w.region.kind with
    | .ordered => match (w.lane l).slalom with
      | some a =>
        let o := slalomPhys a.toNat
        (if o.fab then seen else some (s.slalomField o.pa 8)) == some (w.lane l).iter.toNat
      | none => false
    | _ => true

/-- A lane that re-executes its region: the recorded vector inputs, and the counters of the region's entry, so that its draws are repeated (R40, R41, R147). Its other
registers keep their values (R305). -/
def Lane.reenter (x : Lane) (r : Region) (l : Nat) : Lane :=
  { x with
    v := ((upto r.vcount).map (r.vbase + ·)).foldl (fun v n => tabPut v 0 n (tabGet (nth r.record.v l []) n 0)) x.v
    drawc := nth r.record.drawc l 0
    srdraw := nth r.record.srdraw l 0 }

/-- The warp with the recorded inputs of its region for some lanes that re-execute it: the scalars named, the lanes' bits of the predicates named, and
their vector inputs (R41). DEDUCED: R305 has the registers written inside the region keep their values, which is read of those that are no inputs (log entry 111). -/
def Warp.reenter (w : Warp) (ls : List Nat) : Warp :=
  let r := w.region
  let w1 := ls.foldl (fun w l => w.setLane l ((w.lane l).reenter r l)) w
  { w1 with
    s := (upto w1.s.length).map fun i => if r.scalars.getLsbD i then nth r.record.s i 0 else w1.scal i
    p := (upto w1.p.length).map fun i => if r.preds.getLsbD i then mergeMask (maskOf ls) (w1.pred i) (nth r.record.p i 0) else w1.pred i }

/-- The warp and the token requests after some lanes' aborts, each with its cause and code (R305 to R307): the lanes re-execute from the
restart point after the longest of their waits. `r` is the restart point to use. Results still pending land first, so that the recorded inputs stand as the region's entry finds
them (R41), and an open melded stretch closes. DEDUCED: R300 and R302 name no stretch, and R40 has none open at a region's entry (log entry 127). -/
def State.reexecute (s : State) (k : Nat) (w0 : Warp) (r : Restart) (seen : Option Nat) (gone : List (Nat × Nat × Nat)) : State :=
  let w := w0.drain
  let waits := gone.map fun g => backoff g.1 (w.lane g.1).aborts w.warpid
  let delay := if w.region.noback then 0 else waits.foldl max 0
  let w1 : Warp := { (gone.foldl (fun w g => w.setLane g.1 ((w.lane g.1).abortTx g.2.1 g.2.2)) w).reenter (gone.map (·.1)) with
    restart := some r
    mode := r.mode
    active := r.lanes &&& w.live
    pc := r.entry
    prev := none
    meld := none
    path := 0
    marker := false
    commit := none
    repResume := false
    repOpen := false
    repc := 0
    status := .waiting (.backoff (s.clock + delay)) }
  let asks := match ((lanesOf w.width r.lanes).find? (s.eligible w1 seen)) with
    | some l => if s.tokenQueue.contains (k, l) || s.token == some (k, l) then [] else [(k, l)]
    | none => []
  { s with tokenQueue := s.tokenQueue ++ asks }.putWarp k w1

/-- The end of a `TXEND` or `TXENDO` with aborted lanes: the join entry is pushed unless this instruction has pushed it before, and
the lanes re-execute (R302). -/
def State.rejoin (s : State) (k : Nat) (w : Warp) (r : Restart) (seen : Option Nat) (gone : List (Nat × Nat × Nat)) : State :=
  let pc4 := w.pc + 4
  let joined := r.joined && (w.stack.head?.map (·.rpc)) == some pc4
  let w1 := if joined then w else w.push [⟨pc4, w.active, pc4⟩]
  s.reexecute k w1 ⟨r.entry, w1.stack.length, r.mode, maskOf (gone.map (·.1)), true⟩ seen gone

/-! ### Commit (R301, R303, R313) -/

/-- The home slices of some sectors, without repeats. -/
def slicesOf (sects : List Nat) : List Nat := dedup (sects.map fun x => homeOf (x * 32))

/-- The sectors of some lanes. -/
def Warp.sectorsOfLanes (w : Warp) (ls : List Nat) : List Nat :=
  dedup (ls.flatMap fun l => ((w.tx? l).map Tx.sectors).getD [])

/-- The lanes of a commit that are still passing. -/
def Commit.passing (c : Commit) : List Nat := (c.lanes.filter (·.passing)).map (·.lane)

/-- The Slalom object of a warp's ordered lanes, by physical address. -/
def Warp.slalomOf (w : Warp) (ls : List Nat) : Nat := ((ls.findSome? fun l => (w.lane l).slalom).getD 0).toNat

/-- Where the object of a warp's ordered commit lies. -/
def Warp.slalomPlace (w : Warp) (c : Commit) : Phys := slalomPhys (w.slalomOf (c.passing ++ c.undecided ++ c.aborted.map (·.1)))

/-- The end of a commit: the committed transactions close, the region is tainted, and the warp goes on, waits for the turn of its other
lanes, or re-executes its aborted lanes (R302, R313). -/
def State.endCommit (s : State) (k : Nat) (w : Warp) (c : Commit) : State :=
  let done := c.passing
  let gone := c.aborted.map fun a => (a.1, a.2, if a.2 == (w.doomOf a.1).1 then (w.doomOf a.1).2 else 0)
  let s2 : State := { s with token := s.token.filter fun t => !(t.1 == k && done.contains t.2) }
  let w1 := { done.foldl (fun w l => w.setLane l { w.lane l with tx := none }) w.taint with commit := none, status := .ready }
  if !gone.isEmpty then
    let order := c.undecided.map fun l => (l, 8, 0)
    match w1.restart with
    | some r => s2.rejoin k w1 r (some (c.next + done.length)) (gone ++ order)
    | none => s2.putWarp k w1
  else if !c.undecided.isEmpty then s2.putWarp k { w1 with status := .waiting (.turn true) }
  else s2.settle k ({ w1 with restart := none }.finish (.after 4))

/-- The end of phase 2: an ordered commit counts its lanes with one atomic at the object's home, local or remote, for which it may have to wait (R303, R313, R326). Poison in NEXTCOMMIT or
LIMIT is consumed by it (R163). -/
def State.closeCommit (s : State) (k : Nat) (w : Warp) (c : Commit) : State :=
  if !c.ordered then s.endCommit k w c
  else
    let o := w.slalomPlace c
    let later := { w with commit := some { c with phase := 3, slices := [homeOf o.pa] } }
    if o.fab then (s.request o.pkg (.tally o.pa c.passing.length) (.warp k) 65 0).putWarp k later
    else if s.homeWaits false w.core k o 32 then s.putWarp k later
    else if isPoisoned s.poison (o.pa + 8) 16 then s.abortLaunch w 0x11 false false false w.pc (BitVec.ofNat 64 (o.pa + 8)) w.active
    else (s.countCommits o.pa c.passing.length).endCommit k w c

/-- A commit whose count has had to wait: it is made now, or the peer that makes it has answered. -/
def State.recount (s : State) (k : Nat) (w : Warp) (c : Commit) : State :=
  let o := w.slalomPlace c
  if o.fab then match s.answerTo (.warp k) 65 o.pkg (.tally o.pa c.passing.length) with
    | none => s
    | some (_, true) => s.abortLaunch w 0x11 false false false w.pc (BitVec.ofNat 64 (o.pa + 8)) w.active
    | some (_, false) => (s.forget k).endCommit k w c
  else s.closeCommit k w c

/-- The cut of an ordered run at its first lane that failed: the lanes before it, and the failed lane with every later one as
aborted (R313). -/
def cutRun (lanes : List CommitLane) (aborted : List (Nat × Nat)) : List CommitLane × List (Nat × Nat) :=
  match lanes with
  | [] => ([], aborted)
  | x :: r =>
    if x.passing then let (a, b) := cutRun r aborted; (x :: a, b)
    else ([], (x.lane, 2) :: (r.map fun y => (y.lane, 8)) ++ aborted.map fun y => (y.1, 8))

/-- Whether a read entry still holds at its home (R301, R303). -/
def State.readValid (s : State) (k l : Nat) (value : Bool) (e : ReadEntry) : Bool :=
  let free := match tabFind s.locks e.sect with
    | none => true
    | some x => x.warp == k && x.lane == l
  let same := if value then
      (upto 32).all fun i => !e.rmask.getLsbD i || s.byte (e.sect * 32 + i) == nth e.copy i 0
    else s.version e.sect == e.ver
  free && s.epoch e.sect == e.epoch && same

/-- A lane of a commit as the commit time is chosen: it passes where it has passed and its reads still hold. DEDUCED: R304 has the commit times agree with the order of any two commits that
meet, so that a commit of a sector read here, which comes between the validation and the choice of T, is found (log entry 112). -/
def State.stillPasses (s : State) (k : Nat) (w : Warp) (x : CommitLane) : CommitLane :=
  { x with passing := x.passing && match w.tx? x.lane with
    | some t => t.irrevocable || t.reads.all (s.readValid k x.lane w.region.value)
    | none => false }

/-- The clocks of some slices raised to a value (R301). -/
def State.raiseClocks (s : State) (hs : List Nat) (time : Nat) : State :=
  { s with slices := hs.foldl (fun t h => tabSet t h { s.slice h with clock := BitVec.ofNat 40 (max (s.slice h).clock.toNat time) }) s.slices }

/-- The end of phase 1: the lanes that failed release their locks, and phase 2 begins with one commit time, to which the homes of all its sectors raise their clocks (R301, R303). -/
def State.beginPhase2 (s : State) (k : Nat) (w : Warp) (c0 : Commit) : State :=
  let c := { c0 with lanes := c0.lanes.map (s.stillPasses k w) }
  let (lanes, aborted) :=
    if c.ordered then cutRun c.lanes c.aborted
    else (c.lanes.filter (·.passing), c.aborted ++ (c.lanes.filter fun x => !x.passing).map fun x => (x.lane, 2))
  let kept := lanes.map (·.lane)
  let sects := w.sectorsOfLanes kept
  let time := ((slicesOf sects).map fun h => (s.slice h).clock.toNat).foldl max 0 + 1
  let held := s.locks.filter fun e => e.2.warp != k || e.2.irrevocable || kept.contains e.2.lane
  let final (e : Nat × Lock) : Nat × Lock := if e.2.warp == k && kept.contains e.2.lane then (e.1, { e.2 with phase := 2 }) else e
  let s1 : State := { s with locks := held.map final }.raiseClocks (slicesOf sects) time
  let c1 := { c with phase := 2, lanes := lanes, aborted := aborted, slices := slicesOf sects, time := time }
  if c1.slices.isEmpty then s1.closeCommit k w c1 else s1.putWarp k { w with commit := some c1 }

/-- The sectors of some lanes' transactions whose home is a slice. -/
def Warp.sectorsAt (w : Warp) (f : Tx → List Nat) (h : Nat) (ls : List Nat) : List Nat :=
  (dedup (ls.flatMap fun l => ((w.tx? l).map f).getD [])).filter fun x => homeOf (x * 32) == h

/-- Whether the lines of some sectors can be acted on at their home (R273). -/
def State.quietSectors (s : State) (xs : List Nat) : Bool := xs.all fun x => s.lineFree (x / 4)

/-- The copies of a sector's line called in at its home for an access to some of its bytes: an owner's or the holders', or every copy where `all` says so (R277, R279). -/
def State.callSector (s : State) (all : Bool) (x : Nat) (m : BitVec 32) : State := s.callIn (x / 4) (m.setWidth 128 <<< (32 * (x % 4))) all

/-- Phase 1 of a lane's write sector at its home: the lock, none where another holds it (R303). -/
def lockForCommit (k l : Nat) (s : State) (sect : Nat) : Option State :=
  match tabFind s.locks sect with
  | none => some { s with locks := tabSet s.locks sect ⟨k, l, false, 1⟩ }
  | some _ => none

/-- The locks of phase 1 of one lane at a slice: the state with them, and whether the lane passes. -/
def State.lockLane (s : State) (k : Nat) (w : Warp) (h l : Nat) : State × Bool :=
  match w.tx? l with
  | none => (s, false)
  | some t =>
    if t.irrevocable then (s, true)
    else
      match ((t.writes.map (·.sect)).filter fun x => homeOf (x * 32) == h).foldl (fun o x => o.bind fun s => lockForCommit k l s x) (some s) with
      | none => (s, false)
      | some s1 => (s1, true)

/-- The validation of phase 1 of one lane at a slice: whether every read entry there still holds, once the home has merged the privatised lines and recalled the copies in M (R303). -/
def State.validLane (s : State) (k : Nat) (w : Warp) (h l : Nat) : State × Bool :=
  match w.tx? l with
  | none => (s, false)
  | some t =>
    if t.irrevocable then (s, true)
    else
      let here := t.reads.filter fun e => homeOf (e.sect * 32) == h
      let s1 := here.foldl (fun s e => s.callSector false e.sect (if w.region.value then e.rmask else 0)) s
      (s1, here.all (s1.readValid k l w.region.value))

/-- A lane's phase-1 locks released (R303). -/
def State.unlockLane (s : State) (k l : Nat) : State :=
  { s with locks := s.locks.filter fun e => e.2.warp != k || e.2.lane != l || e.2.irrevocable }

/-- Phase 1 at one slice, for the lanes still passing: the locks while `locking`, else the validation. -/
def State.phase1 (s : State) (k : Nat) (w : Warp) (h : Nat) (locking : Bool) : List CommitLane → State × List CommitLane
  | [] => (s, [])
  | x :: r =>
    if x.passing then
      let (s1, ok) := if locking then s.lockLane k w h x.lane else s.validLane k w h x.lane
      let s2 := if ok then s1 else s1.unlockLane k x.lane
      let (s3, r') := s2.phase1 k w h locking r
      (s3, { x with passing := ok } :: r')
    else
      let (s3, r') := s.phase1 k w h locking r
      (s3, x :: r')

/-- The end of the locks at every slice: validation begins at the slices of the lanes still passing. Every write sector of a commit is locked before any of its read
sectors is compared, whichever home holds it. DEDUCED: R303 says it of one home, and without it at all of them two commits that each read what the other writes
could both pass, which R304 excludes (log entry 112). -/
def State.beginValidation (s : State) (k : Nat) (w : Warp) (c : Commit) : State :=
  let c1 := { c with phase := 1, slices := slicesOf (w.sectorsOfLanes c.passing) }
  if c1.slices.isEmpty then s.beginPhase2 k w c1 else s.putWarp k { w with commit := some c1 }

/-- The runs of written bytes of a sector entry: offset and bytes. -/
def runsOf (mask : BitVec 32) (data : List Byte) : Nat → Nat → List (Nat × List Byte)
  | 0, _ => []
  | fuel + 1, i =>
    if i ≥ 32 then []
    else if mask.getLsbD i then
      let n := ((upto (32 - i)).takeWhile fun j => mask.getLsbD (i + j)).length
      (i, (data.drop i).take n) :: runsOf mask data fuel (i + n)
    else runsOf mask data fuel (i + 1)

/-- A committed write entry at its home: every copy of the line is called in, the bytes are written, and the sector takes the version of T (R303). -/
def State.commitEntry (s : State) (time die : Nat) (e : WriteEntry) : State :=
  let s1 := (runsOf e.wmask e.data 33 0).foldl (fun s x => s.writeBytes (e.sect * 32 + x.1) x.2) (s.callSector true e.sect e.wmask)
  (s1.setVersion e.sect time die).l2Access (e.sect / 4) .normal false true

/-- Phase 2 of one lane at a slice: writes, versions and unlocking (R303, R307). The pages of its stores count as written now (R401). -/
def State.phase2Lane (s : State) (k : Nat) (w : Warp) (h time l : Nat) : State :=
  match w.tx? l with
  | none => s
  | some t =>
    let here (x : Nat) : Bool := homeOf (x * 32) == h
    let die := dieOf w.core
    let s1 := if t.irrevocable then (t.written.filter here).foldl (fun s x => (s.callSector true x 0).setVersion x time die) s
      else (t.writes.filter fun e => here e.sect).foldl (fun s e => s.commitEntry time die e) s
    let s2 := t.pages.foldl (fun s n => s.noteWrite (s.launchKey w) (n * 2 ^ 16)) s1
    { s2 with locks := s2.locks.filter fun e => !(e.2.warp == k && e.2.lane == l && here e.1) }

/-- A poisoned word that the comparison of a read entry consumes (R163, R303). -/
def State.badWord (s : State) (e : ReadEntry) : Option Nat :=
  ((upto 4).find? fun i => e.rmask.extractLsb' (8 * i) 8 != 0 && s.poison.contains (e.sect * 4 + i)).map fun i => e.sect * 32 + 8 * i

/-- A poisoned word that the validation of a commit at a slice consumes, in value mode. -/
def State.badRead (s : State) (w : Warp) (h : Nat) (c : Commit) : Option Nat :=
  if c.phase == 1 && w.region.value then
    (c.passing.flatMap fun l => ((w.tx? l).map (·.reads)).getD []).findSome? fun e => if homeOf (e.sect * 32) == h then s.badWord e else none
  else none

/-- `COMMIT_PHASE_1` (R303). A home locks write sectors and validates read sectors of a committing lane, the latter once no line of theirs is busy. Poisoned bytes that it compares abort
the launch (R163; log entry 27). -/
def execCommitPhase1 (k h : Nat) (s : State) : Host.Outcome State Fault Refusal :=
  s.onWarp k fun w => match w.commit with
    | some c =>
      if decide (c.phase < 2) && c.slices.contains h && (c.phase == 0 || s.quietSectors (w.sectorsAt (fun t => t.reads.map (·.sect)) h c.passing)) then
        match s.badRead w h c with
        | some a => s.abortLaunch w 0x11 false false false w.pc (BitVec.ofNat 64 a) w.active
        | none =>
        let (s1, lanes) := s.phase1 k w h (c.phase == 0) c.lanes
        let c1 := { c with lanes := lanes, slices := c.slices.filter (· != h) }
        let w1 := { w with commit := some c1 }
        if !c1.slices.isEmpty then s1.putWarp k w1
        else if c.phase == 0 then s1.beginValidation k w1 c1 else s1.beginPhase2 k w1 c1
      else s
    | none => s

/-- `COMMIT_PHASE_2` (R303, R313). A home writes committed bytes with the commit time's version, invalidates copies and unlocks, once no line of theirs is busy; the count of an ordered
commit follows, at once or when it can be made. -/
def execCommitPhase2 (k h : Nat) (s : State) : Host.Outcome State Fault Refusal :=
  s.onWarp k fun w => match w.commit with
    | some c =>
      if c.phase == 2 && c.slices.contains h && s.quietSectors (w.sectorsAt Tx.writeSet h c.passing) then
        let s1 := c.passing.foldl (fun s l => s.phase2Lane k w h c.time l) s
        let c1 := { c with slices := c.slices.filter (· != h) }
        let w1 := { w with commit := some c1 }
        if c1.slices.isEmpty then s1.closeCommit k w1 c1 else s1.putWarp k w1
      else if c.phase == 3 && c.slices.contains h then s.recount k w c
      else s
    | none => s

/-! ### TXEND and TXENDO at issue (R302, R313) -/

/-- The checks of R302: an open transaction of the right kind in an active lane, the restart depth, and the room for the join entry, whose want raises stack limit
and dooms no lane. -/
def commitChecks {α : Type} (ordered : Bool) (env : Env) (w : Warp) (k : Restart → Except Stop α) : Except Stop α :=
  stopIf (w.openLanes.isEmpty || w.openLanes.any fun l => match w.tx? l with
    | some t => t.ordered != ordered
    | none => false) (w.trap 0x03) <|
  match w.restart with
  | none => .error (w.trap 0x03)
  | some r =>
    stopIf (w.stack.length != r.depth) (w.trap 0x03) <|
    stopIf (!(r.joined && (w.stack.head?.map (·.rpc)) == some (w.pc + 4)) && decide (stackDepth < w.stack.length + 1))
      (.raised 0x06 env.spill w.active) (k r)

/-- A commit begun: phase 1 at the slices of the surviving lanes' sectors; with none, phase 2 at once. -/
def State.beginCommit (s : State) (k : Nat) (w : Warp) (c : Commit) : State :=
  let w1 := { w with status := .waiting .commit }
  if c.slices.isEmpty then s.beginPhase2 k w1 c else s.putWarp k { w1 with commit := some c }

/-- The warp that a state holds, as an instruction's effect. -/
def stayWith (s : State) (k : Nat) (w : Warp) : State × Warp × Next := (s, (tabFind s.warps k).getD w, .stay)

/-- `TXEND` (R302). -/
def txend (s : State) (k : Nat) (env : Env) (w0 : Warp) : Effect :=
  let w := w0.drain
  commitChecks false env w fun _ =>
  s.released k w true .device <|
  let doomed := w.openLanes.filter fun l => (w.lane l).isDoomed
  let rest := w.openLanes.filter fun l => !(w.lane l).isDoomed
  let first := rest.filter fun l => !(w.lane l).speculative
  let (kept, lost) := intraWarp w (first ++ rest.filter fun l => (w.lane l).speculative) [] []
  let c : Commit := {
    ordered := false
    phase := 0
    lanes := kept.map fun l => ⟨l, true⟩
    aborted := (doomed.map fun l => (l, (w.doomOf l).1)) ++ lost.map fun l => (l, 1)
    undecided := []
    slices := slicesOf (w.sectorsOfLanes kept)
    time := 0
    next := 0 }
  .ok (stayWith (s.beginCommit k w c) k w)

/-- The lanes of a list ordered by `%iter`. -/
def Warp.byIter (w : Warp) (ls : List Nat) : List Nat :=
  ls.foldl (fun acc l => ins l acc) []
where
  /-- A lane placed before the first lane of larger `%iter`. -/
  ins (l : Nat) : List Nat → List Nat
    | [] => [l]
    | x :: r => if (w.lane l).iter < (w.lane x).iter then l :: x :: r else x :: ins l r

/-- The lanes whose `%iter` values run consecutively from `n`, and the others. -/
def Warp.consecutive (w : Warp) : Nat → List Nat → List Nat × List Nat
  | _, [] => ([], [])
  | n, l :: r =>
    if (w.lane l).iter.toNat == n then let (a, b) := w.consecutive (n + 1) r; (l :: a, b) else ([], l :: r)

/-- The unit of an ordered run: the lanes that may commit, and from the first that is doomed or loses, the aborted ones (R313). -/
def orderedRun (w : Warp) : List Nat → List Nat → List Nat × List (Nat × Nat)
  | [], kept => (kept, [])
  | l :: r, kept =>
    if (w.lane l).isDoomed then (kept, (l, (w.doomOf l).1) :: r.map fun x => (x, 8))
    else if kept.any (w.laneMeets l) then (kept, (l, 1) :: r.map fun x => (x, 8))
    else orderedRun w r (kept ++ [l])

/-- NEXTCOMMIT as a `TXENDO` reads it at its object's home, local or remote (R313, R326); `f` goes on with it. It waits at a locked sector or a busy line (R303), and poison in NEXTCOMMIT
or LIMIT is consumed like that of any access (R163). -/
def readTurn (s : State) (k : Nat) (env : Env) (w : Warp) (o : Phys) (f : Nat → Effect) : Effect :=
  let a := BitVec.ofNat 64 (o.pa + 8)
  let ask := RemoteOp.load (o.pa + 8) 16
  if o.fab then
    stopIf (s.lostPeer o.pkg) (.abort 0x11 a) <|
    match s.answerTo (.warp k) 64 o.pkg ask with
    | some (bs, bad) => stopIf bad (.abort 0x11 a) (f (fieldAt bs 0 8))
    | none => .error (.remote 64 o.pkg ask 0)
  else if s.homeWaits false env.core k o 32 then .ok (s, { w with status := .waiting (.turn true) }, .stay)
  else stopIf (isPoisoned s.poison (o.pa + 8) 16) (.abort 0x11 a) (f (s.slalomField o.pa 8))

/-- `TXENDO` (R313): it waits for the turn of its smallest undecided iteration; an abort in the run aborts every later lane. -/
def txendo (s : State) (k : Nat) (env : Env) (w0 : Warp) : Effect :=
  let w := w0.drain
  commitChecks true env w fun _ =>
  s.released k w true .device <|
  let ls := w.byIter w.openLanes
  readTurn s k env w (slalomPhys (w.slalomOf ls)) fun next =>
  let (run, later) := w.consecutive next ls
  if run.isEmpty then .ok (s, { w with status := .waiting (.turn true) }, .stay)
  else
    let (kept, lost) := orderedRun w run []
    let c : Commit := {
      ordered := true
      phase := 0
      lanes := kept.map fun l => ⟨l, true⟩
      aborted := lost
      undecided := later
      slices := slicesOf (w.sectorsOfLanes kept)
      time := 0
      next := next }
    .ok (stayWith (s.beginCommit k w c) k w)

/-- `TXEND` (R302). Commits the active lanes' transactions through the intra-warp unit and two-phase commit, restarting losers. -/
def execTxend (s : State) : Host.Outcome State Fault Refusal := s.issueParked 4 txend

/-- `TXENDO` (R313). Commits ordered transactions in iteration order against the Slalom object's NEXTCOMMIT. -/
def execTxendo (s : State) : Host.Outcome State Fault Refusal := s.issueParked 4 txendo

/-- The turn of a waiting `TXENDO` has come (R313); it reads an object on another package anew. -/
def execTxendoTurn (k : Nat) (s : State) : Host.Outcome State Fault Refusal :=
  s.onWarp k fun w => match w.status with
    | .waiting (.turn _) =>
      let ls := w.byIter w.openLanes
      let o := slalomPhys (w.slalomOf ls)
      if !o.fab && (w.consecutive (s.slalomField o.pa 8) ls).1.isEmpty then s else s.issueBy k w 4 txendo
    | _ => s

/-! ### TXABORT and TXSTAT (R308 to R310) -/

/-- `TXABORT` (R308). With an irrevocable lane among the executing ones the trap is raised for the warp and dooms no lane. -/
def txabort (c : Nat) (w : Warp) : Except Stop Warp :=
  let ls := (lanesOf w.width w.executing).filter fun l => (w.tx? l).isSome
  let held := ls.filter fun l => !(w.lane l).speculative
  stopIf (!held.isEmpty) (.raised 0x03 0 (maskOf held)) <|
  .ok (ls.foldl (fun w l => w.setLane l ((w.lane l).doom 5 c)) w)

/-- `TXABORT` (R308). Dooms each executing lane's speculative transaction with cause explicit and a code. -/
def execTxabort (c : Nat) (s : State) : Host.Outcome State Fault Refusal := s.issue fun _ w => txabort c w

/-- `TXSTAT` (R310). -/
def txstat (d p : Nat) (env : Env) (w : Warp) : Except Stop Warp :=
  let m := w.executing
  let isOpen : Mask := maskOf ((lanesOf w.width m).filter fun l => (w.tx? l).isSome && !(w.lane l).isDoomed)
  w.rangeCheck env [d] <|
  .ok (((w.eachLane m fun l => .ok (w.putVal .i32 l d (w.lane l) ((w.lane l).txstat % 2 ^ 32), noFlags)).dropLatches [d]).setPred p
    (mergeMask m (w.pred p) isOpen))

/-- `TXSTAT` (R310). Writes %txstat to vd and the transaction-open bit to a predicate. -/
def execTxstat (d p : Nat) (s : State) : Host.Outcome State Fault Refusal := s.issue fun env w => txstat d p env w

/-! ### Time limit, restart, back-off and the token (R299, R300, R306, R307) -/

/-- The clocks after which a speculative transaction is doomed (R299). -/
def txLimit : Nat := 1048576

/-- `TX_TIMEOUT` (R299). A speculative transaction open for 1,048,576 clocks is doomed with cause timeout. -/
def execTxTimeout (k l : Nat) (s : State) : Host.Outcome State Fault Refusal :=
  s.onWarp k fun w => match w.tx? l with
    | some t =>
      if !t.irrevocable && t.doomed.isNone && w.commit.isNone && decide (t.opened + txLimit ≤ s.clock) then
        s.putWarp k (w.setLane l ((w.lane l).doom 10 0))
      else s
    | none => s

/-- Whether every active lane is doomed and the restart set holds no token, so that the warp restarts its region (R300). -/
def State.restartDue (s : State) (k : Nat) (w : Warp) : Bool :=
  match w.restart with
  | none => false
  | some r => w.active != 0 && w.active &&& ~~~w.doomed == 0 && w.handler.isNone && w.commit.isNone
    && !(match s.token with
      | some t => t.1 == k && inMask r.lanes t.2
      | none => false)

/-- The restart of R300: every lane of the restart set aborts, a doomed lane with its own cause, and the set re-executes. -/
def State.restartRegion (s : State) (k : Nat) (w : Warp) : State :=
  match w.restart with
  | none => s
  | some r =>
    let ls := (lanesOf w.width r.lanes).filter fun l => (w.tx? l).isSome
    let gone := ls.map fun l => if (w.lane l).isDoomed then (l, (w.doomOf l).1, (w.doomOf l).2) else (l, 11, 0)
    s.reexecute k { w with stack := w.stack.drop (w.stack.length - r.depth) } r none gone

/-- The end of a back-off: the group re-executes, unless a lane of it still waits for the token (R306, R307). -/
def execBackoffExpiry (k : Nat) (s : State) : Host.Outcome State Fault Refusal :=
  s.onWarp k fun w => match w.status with
    | .waiting (.backoff t) =>
      if t ≤ s.clock then
        s.putWarp k { w with status := if s.tokenQueue.any fun q => q.1 == k then .waiting .token else .ready }
      else s
    | _ => s

/-- The token is granted to the oldest request (R307). -/
def execIrrevocabilityTokenGrant (s : State) : Host.Outcome State Fault Refusal :=
  .next (match s.token, s.tokenQueue with
    | none, t :: r =>
      let s1 := { s with token := some t, tokenQueue := r }
      match tabFind s1.warps t.1 with
      | some w => if w.status == .waiting .token then s1.putWarp t.1 { w with status := .ready } else s1
      | none => { s1 with token := none }
    | _, _ => s)

end Sys2Proof.Machine
end

