-- ==== Sys2Proof/Machine/Schedule.lean ====
section
/-! DEFINITION. What comes next: what a warp does before it issues, the fetch of its instruction, the issue choice of each quarter, and the events that are due (R25, R28, R39, R69, R161, R180 to R183, R300, R385). -/

namespace Sys2Proof.Machine

/-- Something that may happen next. -/
abbrev Move := State → Host.Outcome State Fault Refusal

/-! ### Before an instruction (R28, R39, R161, R300) -/

/-- Whether the test of R28 asks for a pop. -/
def Warp.popsNow (w : Warp) : Bool :=
  match w.stack with
  | [] => false
  | e :: _ => e.rpc == w.pc || w.active == 0

/-- The pops of R28; `n` bounds their number. -/
def Warp.popAll : Nat → Warp → Warp
  | 0, w => w
  | n + 1, w =>
    if w.popsNow then
      let r := w.pop
      Warp.popAll n { r.1 with pc := r.2, prev := none, repResume := false, repOpen := false }
    else w

/-- A warp as it stands before its next instruction. -/
def Warp.settled (w : Warp) : Warp := w.popAll (w.stack.length + 1)

/-- Whether the parked lanes of a warp take it to its handler before the next instruction (R161). -/
def Warp.handlerDue (w : Warp) : Bool := w.parked != 0 && (w.popsNow || (w.active == 0 && w.stack.isEmpty))

/-- Whether a warp is to be stopped before its next instruction: its team has been asked to stop, and the warp may be stopped (R39). -/
def State.stopsNow (s : State) (w : Warp) : Bool :=
  w.stoppable && match tabFind s.teams w.team, s.launchOf w with
  | some tm, some x => x.quantum == 0 && (match tm.status with
    | .stopping _ => true
    | _ => false)
  | _, _ => false

/-! ### Fetch (R69, R385) -/

/-- The words of an instruction's length from an address on, each in the unit of the word before it: the words, or the address at which the fetch
faults. `from'` is the unit from which the first word is reached in sequence, if it is. -/
def State.fetchWords (s : State) (x : Launch) : Nat → DWord → Option (Nat × Nat) → Except DWord (List Nat)
  | 0, _, _ => .ok []
  | n + 1, a, before =>
    if a.toNat % 4 != 0 || 2 ^ 64 ≤ a.toNat + 4 then .error a
    else match s.fetchWord x a with
    | none => .error a
    | some (u, w) =>
      if before.isSome && before != some u then .error a
      else match s.fetchWords x n (a + 4) (some u) with
      | .ok r => .ok (w :: r)
      | .error e => .error e

/-- The unit of the word from which a warp reaches its PC in sequence. -/
def State.prevUnit (s : State) (x : Launch) (w : Warp) : Option (Nat × Nat) := (w.prev.bind (s.fetchWord x)).map (·.1)

/-- The words of the instruction at a warp's PC. -/
def State.fetch (s : State) (x : Launch) (w : Warp) : Except DWord (List Nat) :=
  match s.fetchWords x 1 w.pc (s.prevUnit x w) with
  | .error a => .error a
  | .ok ws => s.fetchWords x (lengthOf (nth ws 0 0)) w.pc (s.prevUnit x w)

/-- The first poisoned word of an instruction of some words at a warp's PC, which aborts the launch with cause 0x11 (R163). -/
def State.fetchBad (s : State) (x : Launch) (w : Warp) (words : Nat) : Option DWord :=
  ((upto words).map fun i => w.pc + BitVec.ofNat 64 (4 * i)).find? (s.wordBad x)

/-- The issue class of what a warp issues at an instruction's first word: lane class, or slot class (Table 8.2). A `REP` word is slot class, and each iteration of its pair, which
issues once the word has, is lane class. -/
def laneClass (w : Warp) (v : Nat) : Bool :=
  let m := bits v 30 25
  let minor := bits v 24 17
  decide (m ≤ 0x1E) || (m == 0x3D && w.repOpen) || (m == 0x3E && (decide (minor ≤ 0x1A) || minor == 0x24))

/-- Whether the next instruction of a warp is lane class. -/
def State.nextLane (s : State) (w0 : Warp) : Bool :=
  let w := w0.settled
  match s.launchOf w with
  | some x => match s.fetchWord x w.pc with
    | some (_, v) => laneClass w v
    | none => false
  | none => false

/-! ### Quarters (R180 to R182) -/

/-- The greatest number of issues that a warp makes in a row while others are ready. -/
def issueCap : Nat := 256

/-- The warps of a quarter. -/
def State.quarterWarps (s : State) (core q : Nat) : List (Nat × Warp) := s.warps.filter fun e => e.2.core == core && e.2.quarter == q

/-- Whether a quarter's lanes are held. -/
def State.lanesHeld (s : State) (core q : Nat) : Bool := decide (s.clock < ((s.core core).quarter q).heldUntil)

/-- Whether a warp may issue: it is in the issuing state of R44 and its quantum is not used up. -/
def State.issuing (s : State) (w : Warp) : Bool := w.status == .ready && (s.env? w).isSome && !s.quantumUsed w

/-- Whether a warp's next instruction waits for the lanes (R181). -/
def State.heldWarp (s : State) (w : Warp) : Bool := s.issuing w && s.lanesHeld w.core w.quarter && s.nextLane w

/-- Whether a warp is ready in the sense of R181. -/
def State.readyWarp (s : State) (w : Warp) : Bool := s.issuing w && !(s.lanesHeld w.core w.quarter && s.nextLane w)

/-- The oldest warp of a list (R179). -/
def State.oldest (s : State) (l : List (Nat × Warp)) : Option Nat :=
  let flat (w : Warp) : Nat := ((tabFind s.teams w.team).map (·.flat)).getD 0
  (minBy (fun e : Nat × Warp => [e.2.age, e.2.warpid, flat e.2]) l).map (·.1)

/-- The warp that a quarter issues next (R181, R182, R116). -/
def State.pick (s : State) (core q : Nat) : Option Nat :=
  let x := (s.core core).quarter q
  let ws := s.quarterWarps core q
  let ready := ws.filter fun e => s.readyWarp e.2
  let others := ready.filter fun e => some e.1 != x.current
  let mine := ws.find? fun e => some e.1 == x.current
  let isReady := match mine with
    | some e => s.readyWarp e.2
    | none => false
  let isHeld := match mine with
    | some e => s.heldWarp e.2
    | none => false
  let chosen := (!isReady && !isHeld) || decide (issueCap ≤ x.count)
  let promoted := ready.filter fun e => e.2.promoted
  if x.yielded && !others.isEmpty then s.oldest others
  else if chosen && !promoted.isEmpty then s.oldest promoted
  else if isReady && (decide (x.count < issueCap) || others.isEmpty) then x.current
  else s.oldest others

/-- A quarter after an issue by a warp (R181): the run of its current warp, and the lanes held by a lane-class instruction (R180). -/
def State.noteIssue (s : State) (k : Nat) (w : Warp) (lane : Bool) : State :=
  let x := (s.core w.core).quarter w.quarter
  let held := match x.current.bind (tabFind s.warps) with
    | some c => s.heldWarp c && !x.yielded && !(w.promoted && decide (issueCap ≤ x.count))
    | none => false
  let hold := if lane then s.clock + s.clocksOf w.core (if w.width == 64 then 4 else 2) else x.heldUntil
  let y : Quarter :=
    if x.current == some k then { x with count := x.count + 1, yielded := false }
    else if held then x
    else ⟨some k, 1, false, x.heldUntil⟩
  s.setQuarter w.core w.quarter { y with heldUntil := hold }

/-- The latches of a quarter's other warps cleared by an issue (R25). -/
def State.clearOthers (s : State) (k : Nat) (w : Warp) : State :=
  { s with warps := s.warps.map fun e =>
      if e.1 != k && e.2.core == w.core && e.2.quarter == w.quarter then (e.1, e.2.clearLatches) else e }

/-! ### The issue of a warp's next instruction -/

/-- What comes of a warp's turn. -/
inductive Turn where
  /-- The turn ends with something other than an instruction: a stop, a handler entry, a restart, a fetch fault. -/
  | over (s : State)
  /-- The instruction to execute. -/
  | run (s : State) (i : Instr)
  /-- An encoding that R80 reserves. -/
  | reserved (s : State)

/-- The warp as it issues an instruction with a switch marker: what an issue resets. -/
def Warp.issues (w : Warp) (marker isRep : Bool) (clock : Nat) : Warp :=
  { w with marker := marker, idleSince := clock, promoted := false, repResume := w.repResume && isRep, repOpen := w.repOpen && isRep }

/-- Whether an instruction is a `REP` pair. -/
def isRep : Instr → Bool
  | .rep .. => true
  | _ => false

/-- A warp's instruction decoded, and the state in which it is executed. -/
def State.begin (s : State) (k : Nat) (w : Warp) (ws : List Nat) : Turn :=
  let s1 := (s.noteIssue k w (laneClass w (nth ws 0 0))).clearOthers k w
  match decodeWords ws with
  | .ok d => .run ((s1.putWarp k (s.awaits (w.issues d.sw (isRep d.instr) s.clock) d.instr)).translated w d.instr) d.instr
  | .error _ => .reserved (s1.putWarp k (w.issues false false s.clock))

/-- A fetch fault at a word's address: `%taddr` names the word, and `%trapc` the first word of the instruction (R69, R385). -/
def State.fetchFault (s : State) (k : Nat) (w : Warp) (a : DWord) : State := s.raise k w 4 0x07 a w.active

/-- A warp's turn: what comes before an instruction, then its fetch. -/
def State.turnOf (s : State) (k : Nat) (w0 : Warp) (x : Launch) : Turn :=
  if s.stopsNow w0 then .over (s.stopWarp k w0)
  else if w0.handlerDue then .over (s.enterParked k w0)
  else
    let w := w0.settled
    if w.handlerDue then .over (s.enterParked k w)
    else if s.restartDue k w then .over (s.restartRegion k w)
    else match s.fetch x w with
    | .error a => .over (s.fetchFault k w a)
    | .ok ws => match s.fetchBad x w ws.length with
      | some a => .over (s.abortLaunch w 0x11 false false false w.pc a w.active)
      | none => s.begin k w ws

/-! ### What is due -/

/-- The event of a message of the die network. -/
def messageMove (room : Bool) (m : Msg) : Move :=
  match m.kind with
  | .gets => execGets m.core m.line
  | .getm => execGetm m.core m.line
  | .upg => execUpg m.core m.line
  | .maskExt => execMaskExtension m.core m.line m.mask
  | .putm => execPutm m.core m.line
  | .putmm => execPutmm m.core m.line
  | .homeWrite => execHomeWrite m.line m.mask
  | .data => execData m.core m.line
  | .datam => execDatam m.core m.line
  | .upgack => execUpgack m.core m.line
  | .putack => execPutack m.core m.line
  | .inv => execInv m.core m.line
  | .recallS => execRecallS m.core m.line
  | .recallI => execRecallI m.core m.line
  | .recallP => execRecallP m.core m.line
  | .mergeRecall => execMergeRecall m.core m.line
  | .ack => execProtocolAck m.core m.line
  | .push => execPush m.core m.line room
  | .pushAck => execPushAck m.core m.line

/-- The retry of a stalled instruction. -/
def retryMove (k : Nat) (i : Instr) : List Move :=
  if isSpawn i then [execSpawnStallRetry k]
  else if isAfence i then [execAfenceStallRetry k]
  else if isCopy i then [execTcopyStallRetry k]
  else if isMatrix i then [execMatrixQueueStallRetry k]
  else if isLaunch i then [execLaunchStallRetry k]
  else if isColl i then [execCollStallRetry k]
  else []

/-- The events by which a warp's wait can end, and its end. -/
def statusMoves (s : State) (k : Nat) (w : Warp) : List Move :=
  match w.status with
  | .ready => (if s.quantumUsed w then [execQuantumEnd k] else [])
    ++ if !w.promoted && decide (w.idleSince + s.clocksOf w.core promotionDelay ≤ s.clock) then [execWarpPromotion k] else []
  | .waiting (.retry i) => retryMove k i
  | .waiting (.translation _ _ _ true) => [execInstructionReplay k]
  | .waiting (.sleep t) => if t ≤ s.clock then [execSleepExpiry k] else []
  | .waiting (.backoff t) => if t ≤ s.clock then [execBackoffExpiry k] else []
  | .waiting (.turn _) => [execTxendoTurn k]
  | .waiting (.await _ _) => [execAwaitReturn k]
  | .waiting (.bwait _ _ _) => [execBwaitReturn k]
  | .waiting (.tcopyY _ _) => [execTcopyYResume k]
  | .waiting (.pop _) => if s.popDue w then [execQpopWake k] else []
  | .waiting (.freeQueue _) => if s.freeDue w then [execQdetOwnFree k] else []
  | .waiting .commit => match w.commit with
    | some c => c.slices.map fun h => if c.phase < 2 then execCommitPhase1 k h else execCommitPhase2 k h
    | none => []
  | .retired => if s.settled k w && s.retireTurn w then [execWarpRetire k] else []
  | _ => []

/-- The lanes in which a result arrives: all, or a free choice among them (R23). -/
def arrivalMask (tick : Nat) : Mask :=
  let n := Config.freeNat tick
  if n % 2 == 0 then BitVec.ofNat 64 (2 ^ 64 - 1) else BitVec.ofNat 64 (n / 2)

/-- The events of a warp. No result lands while its instruction waits for a peer's answer or holds one, so that the instruction goes on with the operands that it read. -/
def warpMoves (s : State) (k : Nat) (w : Warp) : List Move :=
  statusMoves s k w
    ++ (if w.status == .waiting .remote || s.answers.any (fun a => a.who == .warp k) then [] else upto w.pending.length).map (fun n => execVariableLatencyResult k n (arrivalMask s.tick))
    ++ ((upto w.lanes.length).filter fun l => match w.tx? l with
      | some t => !t.irrevocable && t.doomed.isNone && decide (t.opened + txLimit ≤ s.clock)
      | none => false).map (fun l => execTxTimeout k l)

/-- The events of a core. -/
def coreMoves (s : State) (c : Nat) (x : Core) : List Move :=
  ((upto x.bins.length).filter fun n => match x.bins[n]? with
      | some b => s.timerDue c b
      | none => false).map (fun n => execSpawnTimerExpiry c n)
    ++ (if (s.startable c).isSome then [execSpawnedWarpStart c] else [])
    ++ ((upto 16).filter fun q => s.grantDue c q).map (fun q => execQappendGrant c q)
    ++ if s.splitDue c then [execCoreSplitChange c] else []

/-- The events of a team. -/
def teamMoves (s : State) (t : Nat) (tm : Team) : List Move :=
  let n := match tabFind s.launches tm.launch with
    | some x => tm.flat / x.clusterSize
    | none => 0
  (if s.barDue t tm then [execBarRelease t] else []) ++ (if s.cbarDue tm.launch n then [execCbarRelease tm.launch n] else [])
    ++ (if (s.overrunDue t).isSome then [execPreemptionOverrun t] else []) ++ if s.saveDue t then [execTeamSave t] else []

/-- The events of a stream. -/
def streamMoves (s : State) (q : Nat) (x : Queue) : List Move :=
  (if (s.haltDue q).isSome then [execStreamHalt q] else [])
    ++ (if s.agingDue q then [execStreamAging q] else [])
    ++ (if s.copyDue q then [execCopyComplete q, fun s => .next (s.moveCopy q fun _ => 1)] else [])
    ++ (if s.loadDue q then [fun s => .next (s.loadHead q)] else [])
    ++ (if s.pollDue q then [fun s => .next (s.pollWait q)] else [])
    ++ (if (s.invalidated q).isSome then [fun s => .next (s.finishInvalidate q)] else [])
    ++ (if s.tailWord q != x.tail then [execAddressMonitorWrite (.tail q (s.tailWord q))] else [])
    ++ (if s.startTurn q then
        [execKernel q, execWait q, execSignal q, execWindowCreate q, execWindowDestroy q, execInvalidate q, execCopy q] else [])
    ++ (if (s.roomLaunch q).isSome then [execTeamDispatch q] else [])
    ++ match s.nextAction with
      | some (p, .child) => if p == q then [execChildGridStart q] else []
      | some (p, .team _ _ _) => if p == q then [execTeamDispatch q] else []
      | some (p, .wave id) => if p == q then [execWaveStart id] else []
      | _ => []

/-- The events of a launch. -/
def launchMoves (s : State) (id : Nat) (x : Launch) : List Move :=
  (if s.gridDone id x then [execGridComplete id] else []) ++ if s.meetingDue id then [execMeeting id] else []

/-- The events of an engine operation: its completion, and before it one part of it at a time (R223, R230 to R232). -/
def opMoves (s : State) (n : Nat) (o : EngineOp) : List Move :=
  if s.opReady n o && o.fault.isNone && !o.done then
    [if o.kind.queue == .act then execActldComplete n else execAsyncOperationComplete n, fun s => .next (s.stepOp n (Config.freeNat s.tick))]
  else []

/-- The events of translations that are waited for. -/
def missMoves (s : State) (m : Missing) : List Move :=
  (if s.walkDue m && s.hasWalker m then [execPageWalk m.core m.ctx m.va m.kind] else [])
    ++ if s.flagDue m.ctx m.va then [execAccessFlagService m.ctx m.va] else []

/-- The events of a peer. -/
def peerMoves (s : State) (p : Nat) (x : Peer) : List Move :=
  ((upto 8).filter fun i => (x.path i).resendDue s.clock).map (fun i => execKltResendTimeout p i)
    ++ if s.peerLate p then [execPeerLost p false] else []

/-- The event words on which a WAIT can end. -/
def watchMoves (s : State) : List Move :=
  ((s.watched.take monitorWords).filter fun w => !(s.waitsDone (· == w)).isEmpty).map
      (fun w => execAddressMonitorWrite (.event w.1 w.2))
    ++ if monitorWords < s.watched.length then [execMonitorPoll] else []

/-- The waiting stores of owned lines that no lock holds back any more (R303). -/
def storeMoves (s : State) : List Move :=
  s.cores.flatMap fun e => (e.2.l1.filter fun x => s.storesDue x.2).map fun x s => .next (s.retryStores e.1 x.1)

/-- A warp given its turn. -/
def turnMove (k : Nat) : Move := fun s => .next { s with turn := some k }

/-- The warps that quarters issue next. -/
def issueMoves (s : State) : List Move :=
  let cores := dedup (s.warps.map fun e => e.2.core)
  (cores.flatMap fun c => (upto 4).filterMap fun q => s.pick c q).map turnMove

/-- Everything that may happen next. -/
def moves (s : State) : List Move :=
  issueMoves s
    ++ s.warps.flatMap (fun e => warpMoves s e.1 e.2)
    ++ s.cores.flatMap (fun e => coreMoves s e.1 e.2)
    ++ s.teams.flatMap (fun e => teamMoves s e.1 e.2)
    ++ s.ops.flatMap (fun e => opMoves s e.1 e.2)
    ++ (s.collectives.filter fun e => s.collBusy e.1 e.2).map (fun e s => .next (s.stepColl e.1 (Config.freeNat s.tick)))
    ++ (s.collectives.filter fun e => s.collReady e.1 e.2 && !e.2.done).map (fun e => execCollComplete e.1)
    ++ s.missing.flatMap (missMoves s)
    ++ (if s.token.isNone && !s.tokenQueue.isEmpty then [execIrrevocabilityTokenGrant] else [])
    ++ s.net.map (fun m => if m.kind.isRequest then fun s => .next (s.arriveRequest m) else messageMove (s.wayFor m.core m.line) m)
    ++ (s.arrived.filter fun m => (s.arrived.find? fun n => n.line == m.line) == some m).map (messageMove true)
    ++ storeMoves s
    ++ s.mscFills.map (fun f => execMscFill f.line (s.l2Victim f.line))
    ++ s.queues.flatMap (fun e => streamMoves s e.1 e.2)
    ++ s.launches.flatMap (fun e => launchMoves s e.1 e.2)
    ++ s.peers.flatMap (fun e => peerMoves s e.1 e.2)
    ++ watchMoves s
    ++ (s.signals.filter fun g => (s.stepSignal g).isSome).map (fun g s => .next (State.runSignal signalStages s g))
    ++ (if s.boot == .verifying then [fun s => .next s.bootUp] else [])
    ++ (if s.commandDone then [fun s => .next s.finishCommand] else [])
    ++ s.readOnlyCopies.map (fun c s => .next { s with readOnlyCopies := s.readOnlyCopies.erase c })
    ++ s.hostSteps.map fun s1 _ => .next s1

/-! ### Time and inputs -/

/-- A clock or more passes: polling warps and those at a release try again, and a warp that is not ready counts as idle from now (R182, R303). -/
def State.advance (s : State) : State :=
  let clock := s.clock + 1 + Config.stepClocks s.tick
  let one (w : Warp) : Warp := match w.status with
    | .ready => w
    | .waiting .pushes => { w with status := .ready, idleSince := clock }
    | .waiting (.retry i) => if polls i then { w with status := .ready, idleSince := clock } else { w with idleSince := clock }
    | _ => { w with idleSince := clock }
  { s with clock := clock, walkers := s.queueWalks, warps := s.warps.map fun e => (e.1, one e.2) }

/-- Whether an input has to wait: a management command while another is being performed (R411). -/
def State.inputWaits (s : State) (i : Instr) : Bool :=
  s.command.isSome && match i with
  | .ctxwrite .. | .qwrite .. | .codereg .. | .codemod .. | .codedrop .. | .suspend .. | .resume .. | .faultanswerRetry ..
  | .faultanswerAbort .. | .evread .. | .evrelease .. | .logread .. | .reflash .. | .attest .. | .domain ..
  | .managementUnknownCode .. => true
  | _ => false

/-- The next input from outside the package: the first on the agenda that need not wait. -/
def State.nextInput (s : State) : Option Instr := s.agenda.find? fun i => !s.inputWaits i

/-- One of the moves that are due, or, where there is none, nothing but the passing of time. -/
def State.background (s0 : State) : Host.Outcome State Fault Refusal :=
  let s := s0.advance
  let ms := moves s
  match ms[Config.schedule s.tick % ms.length]? with
  | some m => m s
  | none => .next s

/-- The warp whose turn it is, with its launch, where it can issue. -/
def State.turnWarp (s : State) : Option (Nat × Warp × Launch) :=
  match s.turn with
  | none => none
  | some k => match tabFind s.warps k with
    | none => none
    | some w => if w.status == .ready then (s.launchOf w).map fun x => (k, w, x) else none

end Sys2Proof.Machine
end

