-- ==== Sys2Proof/Machine/Bench.lean ====
section
/-! DEFINITION. A load from outside: the bytes of an instruction placed where the next step fetches. -/

namespace Sys2Proof.Machine

/-- Bytes stored from an offset on in a frame of a code version. -/
def State.storeFrame (s : State) (x : Launch) (a : Nat) (bs : List Byte) : Option State :=
  match s.unitAt x a with
  | none => none
  | some (i, r, v, u) =>
    let o := a - r.base
    if u.offset + u.size < o + bs.length || 65536 < o % 65536 + bs.length then none
    else match v.frames[o / 65536]? with
    | none => none
    | some (.physical pa) => some (s.writeBytes (pa + o % 65536) bs)
    | some (.copied m) =>
      match tabFind x.versions i with
      | none => none
      | some n =>
        let f := setNth v.frames (o / 65536) (.copied (putBytes m (o % 65536) bs))
        some { s with code := setNth s.code i { r with versions := tabSet r.versions n { v with frames := f } } }

/-- The kernel descriptor of the bench: one thread, all of the pool's registers for it, no handler. -/
def benchKernel : KernelDesc where
  code := 65536
  entry := 0
  trap := 0xFFFFFFFF
  regs := 256
  split := ⟨16, 16, 56, 8⟩
  teamX := 1
  teamY := 1
  teamZ := 1
  acc := 0
  timer := 0
  flags := 0
  live0 := 255
  live1 := 0
  reservedZero := true

/-- The launch of the bench: a grid of one team in context 0, with eight log entries of each kind a thread, a window of 1 KiB, and its code bound to version 1
(Table 17.4). -/
def benchLaunch : Launch where
  queue := 0
  number := 1
  ctx := 0
  depth := 1
  parent := none
  packet := [1, 0, 1, 8, 8, 0, 16, 0] ++ List.replicate 8 0 ++ leBytes 4 1 ++ leBytes 4 1 ++ leBytes 4 1 ++ List.replicate 36 0
  desc := benchKernel
  args := List.replicate 128 0
  versions := [(0, 1)]
  perCore := 4
  dispatched := 1
  waveList := []
  status := .running
  record := none
  pagesWritten := []
  heldOps := []

/-- A running package with nothing in it but one warp of one thread at the start of a code page (R12, R19, R382): what a load from outside
would leave. -/
def State.bench (s : State) : State :=
  let lanes := (upto 64).map fun _ => Lane.start
  { s with
    boot := .running
    contexts := [(0, { Context.empty with enabled := true, privBase := 131072, privSize := 262144 })]
    code := [⟨0, 65536, 65536, [(1, ⟨[⟨0, 65536, 256, 2⟩], [.physical 65536]⟩)], 1, false⟩]
    launches := [(0, benchLaunch)]
    teams := [(0, newTeam 0 0 0)]
    cores := [(0, { Core.empty with split := some ⟨16, 16, 56, 8⟩ })]
    warps := [(0, newWarp 0 0 0 0 s.clock 64 131072 65536 1 (startScalars benchLaunch 1024) lanes)]
    nextId := 1
    nextLaunch := 2
    turn := some 0 }

/-- The state with an instruction's bytes where the next step fetches: at the PC of the warp whose turn it is, or, where no warp can issue,
at the PC of the bench's warp. -/
def State.loadWord (s : State) (nbits w : Nat) : State :=
  let bs := tableBytes nbits w
  let bench := (s.bench).writeBytes 65536 bs
  match s.turnWarp with
  | some (_, k, x) => (s.storeFrame x k.pc.toNat bs).getD bench
  | none => bench

end Sys2Proof.Machine
end

