-- ==== Sys2Proof/Machine/Predicate.lean ====
section
/-! DEFINITION. The predicate instructions (R148, R149). -/

namespace Sys2Proof.Machine

/-- A predicate destination with the executing lanes' bits replaced (R17, R148). -/
def Warp.writePred (w : Warp) (d : Nat) (m : Mask) : Warp := w.setPred d (mergeMask w.executing (w.pred d) m)

/-- What `PAND` does to a warp (R148). -/
def pand (w : Warp) (d a b : Nat) : Warp := w.writePred d (w.pred a &&& w.pred b)

/-- What `POR` does to a warp (R148). -/
def por (w : Warp) (d a b : Nat) : Warp := w.writePred d (w.pred a ||| w.pred b)

/-- What `PXOR` does to a warp (R148). -/
def pxor (w : Warp) (d a b : Nat) : Warp := w.writePred d (w.pred a ^^^ w.pred b)

/-- What `PNOT` does to a warp (R148). -/
def pnot (w : Warp) (d a : Nat) : Warp := w.writePred d (~~~(w.pred a))

/-- What `PMOV` does to a warp (R148). -/
def pmov (w : Warp) (d a : Nat) : Warp := w.writePred d (w.pred a)

/-- `PSET`: the scalar's bits as lanes (R148). -/
def pset (w : Warp) (d a : Nat) : Warp := w.writePred d (w.scal a)

/-- `PPACK`: `n` predicates' bits of the lane as a word (R148). -/
def ppack (env : Env) (w : Warp) (d a n : Nat) : Except Stop Warp :=
  w.rangeCheck env [d] <|
  .ok (w.produce env .i32 d false fun l _ =>
    plain ((upto n).foldl (fun x i => x + ofBit (inMask (w.pred (a + i)) l) * 2 ^ i) 0))

/-- `PUNPK`: a word's low bits to `n` predicates; every source is read from `w0` before any write (R148). -/
def unpackPreds (w0 : Warp) (d a : Nat) : List Nat → Warp → Warp
  | [], w => w
  | i :: r, w =>
    let m := maskOf ((lanesOf w0.width w0.executing).filter fun l => (w0.reg l a).getLsbD i)
    unpackPreds w0 d a r (w.setPred (d + i) (mergeMask w0.executing (w0.pred (d + i)) m))

/-- What `PUNPK` does to a warp (R148). -/
def punpk (env : Env) (w : Warp) (d n a : Nat) : Except Stop Warp :=
  w.rangeCheck env [a] <| .ok (unpackPreds w d a (upto n) w)

/-- `PTOS`: the whole predicate once for the warp (R149). -/
def ptos (w : Warp) (d a : Nat) : Warp := w.setScal d (w.pred a)

/-! ### Meanings -/

/-- `PAND` (R148). ANDs two predicates into pd for executing lanes. -/
def execPand (d a b : Nat) (s : State) : Host.Outcome State Fault Refusal :=
  s.issue fun _ w => .ok (pand w d a b)

/-- `POR` (R148). ORs two predicates into pd for executing lanes. -/
def execPor (d a b : Nat) (s : State) : Host.Outcome State Fault Refusal :=
  s.issue fun _ w => .ok (por w d a b)

/-- `PXOR` (R148). XORs two predicates into pd for executing lanes. -/
def execPxor (d a b : Nat) (s : State) : Host.Outcome State Fault Refusal :=
  s.issue fun _ w => .ok (pxor w d a b)

/-- `PNOT` (R148). Writes the complement of pa into pd. -/
def execPnot (d a : Nat) (s : State) : Host.Outcome State Fault Refusal :=
  s.issue fun _ w => .ok (pnot w d a)

/-- `PMOV` (R148). Copies pa into pd. -/
def execPmov (d a : Nat) (s : State) : Host.Outcome State Fault Refusal :=
  s.issue fun _ w => .ok (pmov w d a)

/-- `PTOS` (R149). Writes a whole predicate into a scalar once for the warp. -/
def execPtos (d a : Nat) (s : State) : Host.Outcome State Fault Refusal :=
  s.issue fun _ w => .ok (ptos w d a)

/-- `PSET` (R148). Sets pd per executing lane from the lane's bit of a scalar. -/
def execPset (d a : Nat) (s : State) : Host.Outcome State Fault Refusal :=
  s.issue fun _ w => .ok (pset w d a)

/-- `PPACK` (R148). Packs n predicates into the low bits of vd per lane. -/
def execPpack (d a n : Nat) (s : State) : Host.Outcome State Fault Refusal :=
  s.issue fun env w => ppack env w d a n

/-- `PUNPK` (R148). Unpacks the low n bits of va into n predicates per lane. -/
def execPunpk (d n a : Nat) (s : State) : Host.Outcome State Fault Refusal :=
  s.issue fun env w => punpk env w d n a

end Sys2Proof.Machine
end

