-- ==== Sys2Proof/Machine/Dispatch.lean ====
section
/-! DEFINITION. The dispatch of an instruction or event to its meaning: one arm for each constructor of `Instr`. -/

namespace Sys2Proof.Machine

def exec (i : Instr) (s : State) : Host.Outcome State Fault Refusal :=
  match i with
  | .vadd d a b => Sys2Proof.Machine.execVadd d a b s
  | .vsub d a b => Sys2Proof.Machine.execVsub d a b s
  | .vmul d a b => Sys2Proof.Machine.execVmul d a b s
  | .vmad d a b => Sys2Proof.Machine.execVmad d a b s
  | .vmin d a b => Sys2Proof.Machine.execVmin d a b s
  | .vmax d a b => Sys2Proof.Machine.execVmax d a b s
  | .vand d a b => Sys2Proof.Machine.execVand d a b s
  | .vor d a b => Sys2Proof.Machine.execVor d a b s
  | .vxor d a b => Sys2Proof.Machine.execVxor d a b s
  | .vshl d a b => Sys2Proof.Machine.execVshl d a b s
  | .vshr d a b => Sys2Proof.Machine.execVshr d a b s
  | .vsra d a b => Sys2Proof.Machine.execVsra d a b s
  | .vmulh d a b => Sys2Proof.Machine.execVmulh d a b s
  | .vdot d a b => Sys2Proof.Machine.execVdot d a b s
  | .vcmp c p a b => Sys2Proof.Machine.execVcmp c p a b s
  | .vcvt d a t => Sys2Proof.Machine.execVcvt d a t s
  | .vaddi d a imm => Sys2Proof.Machine.execVaddi d a imm s
  | .vmuli d a imm => Sys2Proof.Machine.execVmuli d a imm s
  | .vandi d a imm => Sys2Proof.Machine.execVandi d a imm s
  | .vori d a imm => Sys2Proof.Machine.execVori d a imm s
  | .vshi d a k n => Sys2Proof.Machine.execVshi d a k n s
  | .vcmpi c p a imm => Sys2Proof.Machine.execVcmpi c p a imm s
  | .vmovi d imm h => Sys2Proof.Machine.execVmovi d imm h s
  | .vrdx d a imm => Sys2Proof.Machine.execVrdx d a imm s
  | .vwrx d a imm => Sys2Proof.Machine.execVwrx d a imm s
  | .vspl d imm => Sys2Proof.Machine.execVspl d imm s
  | .vfil d imm => Sys2Proof.Machine.execVfil d imm s
  | .vsel d a b => Sys2Proof.Machine.execVsel d a b s
  | .vbfe d a b => Sys2Proof.Machine.execVbfe d a b s
  | .vbfi d a b => Sys2Proof.Machine.execVbfi d a b s
  | .vshfl d a k rel n => Sys2Proof.Machine.execVshfl d a k rel n s
  | .vld d sx o c na reuse => Sys2Proof.Machine.execVld d sx o c na reuse s
  | .vst d sx o c na reuse => Sys2Proof.Machine.execVst d sx o c na reuse s
  | .vlds d sx o reuse => Sys2Proof.Machine.execVlds d sx o reuse s
  | .vsts d sx o reuse => Sys2Proof.Machine.execVsts d sx o reuse s
  | .gst d sx o c reuse => Sys2Proof.Machine.execGst d sx o c reuse s
  | .vatom d sx o op reuse => Sys2Proof.Machine.execVatom d sx o op reuse s
  | .vatoms d sx o op reuse => Sys2Proof.Machine.execVatoms d sx o op reuse s
  | .salu f d a b => Sys2Proof.Machine.execSalu f d a b s
  | .salui f d a imm => Sys2Proof.Machine.execSalui f d a imm s
  | .slui d imm => Sys2Proof.Machine.execSlui d imm s
  | .sauipc d imm => Sys2Proof.Machine.execSauipc d imm s
  | .sld f d a imm => Sys2Proof.Machine.execSld f d a imm s
  | .sst f d a imm => Sys2Proof.Machine.execSst f d a imm s
  | .satom op scope order d a b => Sys2Proof.Machine.execSatom op scope order d a b s
  | .ssrRead d r => Sys2Proof.Machine.execSsrRead d r s
  | .ssrWrite r a => Sys2Proof.Machine.execSsrWrite r a s
  | .br c a b o => Sys2Proof.Machine.execBr c a b o s
  | .jmp o => Sys2Proof.Machine.execJmp o s
  | .call o => Sys2Proof.Machine.execCall o s
  | .calli y => Sys2Proof.Machine.execCalli y s
  | .callv x => Sys2Proof.Machine.execCallv x s
  | .jmpi y => Sys2Proof.Machine.execJmpi y s
  | .ret => Sys2Proof.Machine.execRet s
  | .spadj imm => Sys2Proof.Machine.execSpadj imm s
  | .split p sense els join => Sys2Proof.Machine.execSplit p sense els join s
  | .switch a k cases dflt join => Sys2Proof.Machine.execSwitch a k cases dflt join s
  | .meldOn p => Sys2Proof.Machine.execMeldOn p s
  | .meldOff => Sys2Proof.Machine.execMeldOff s
  | .meldLdt y => Sys2Proof.Machine.execMeldLdt y s
  | .region kind retries noback value scalars vbase vcount preds acclive => Sys2Proof.Machine.execRegion kind retries noback value scalars vbase vcount preds acclive s
  | .mma d a b f => Sys2Proof.Machine.execMma d a b f s
  | .mmag d a b f => Sys2Proof.Machine.execMmag d a b f s
  | .tcopy bar y => Sys2Proof.Machine.execTcopy bar y s
  | .tcopyY bar y c => Sys2Proof.Machine.execTcopyY bar y c s
  | .afence d => Sys2Proof.Machine.execAfence d s
  | .await d n => Sys2Proof.Machine.execAwait d n s
  | .binit c y => Sys2Proof.Machine.execBinit c y s
  | .barv y c => Sys2Proof.Machine.execBarv y c s
  | .bwait d y q => Sys2Proof.Machine.execBwait d y q s
  | .accz y => Sys2Proof.Machine.execAccz y s
  | .accld bar shm a y => Sys2Proof.Machine.execAccld bar shm a y s
  | .accst bar shm a y => Sys2Proof.Machine.execAccst bar shm a y s
  | .accstR d y => Sys2Proof.Machine.execAccstR d y s
  | .rstat d y r => Sys2Proof.Machine.execRstat d y r s
  | .actld bar shm y => Sys2Proof.Machine.execActld bar shm y s
  | .txend => Sys2Proof.Machine.execTxend s
  | .txendo => Sys2Proof.Machine.execTxendo s
  | .txabort c => Sys2Proof.Machine.execTxabort c s
  | .txstat d p => Sys2Proof.Machine.execTxstat d p s
  | .spawn x y => Sys2Proof.Machine.execSpawn x y s
  | .spawno x y sx => Sys2Proof.Machine.execSpawno x y sx s
  | .launch x => Sys2Proof.Machine.execLaunch x s
  | .qappend x y => Sys2Proof.Machine.execQappend x y s
  | .qappendTry x y p => Sys2Proof.Machine.execQappendTry x y p s
  | .qpop x y v c => Sys2Proof.Machine.execQpop x y v c s
  | .qatt y => Sys2Proof.Machine.execQatt y s
  | .qattOwn y q => Sys2Proof.Machine.execQattOwn y q s
  | .qdet y => Sys2Proof.Machine.execQdet y s
  | .qdetOwn q => Sys2Proof.Machine.execQdetOwn q s
  | .gset y => Sys2Proof.Machine.execGset y s
  | .coll sx y => Sys2Proof.Machine.execColl sx y s
  | .mode imm => Sys2Proof.Machine.execMode imm s
  | .modeScalar a => Sys2Proof.Machine.execModeScalar a s
  | .rep n sd sa sb stride body => Sys2Proof.Machine.execRep n sd sa sb stride body s
  | .vnot d a reuse => Sys2Proof.Machine.execVnot d a reuse s
  | .vabs d a reuse => Sys2Proof.Machine.execVabs d a reuse s
  | .vneg d a reuse => Sys2Proof.Machine.execVneg d a reuse s
  | .vclz d a reuse => Sys2Proof.Machine.execVclz d a reuse s
  | .vpopc d a reuse => Sys2Proof.Machine.execVpopc d a reuse s
  | .vrcp d a reuse => Sys2Proof.Machine.execVrcp d a reuse s
  | .vrsq d a reuse => Sys2Proof.Machine.execVrsq d a reuse s
  | .vexp2 d a reuse => Sys2Proof.Machine.execVexp2 d a reuse s
  | .vlog2 d a reuse => Sys2Proof.Machine.execVlog2 d a reuse s
  | .vsin d a reuse => Sys2Proof.Machine.execVsin d a reuse s
  | .vcos d a reuse => Sys2Proof.Machine.execVcos d a reuse s
  | .vact d a reuse => Sys2Proof.Machine.execVact d a reuse s
  | .vmov d a => Sys2Proof.Machine.execVmov d a s
  | .vmovSpecial d n => Sys2Proof.Machine.execVmovSpecial d n s
  | .vredadd d a reuse => Sys2Proof.Machine.execVredadd d a reuse s
  | .vredmin d a reuse => Sys2Proof.Machine.execVredmin d a reuse s
  | .vredmax d a reuse => Sys2Proof.Machine.execVredmax d a reuse s
  | .vredand d a reuse => Sys2Proof.Machine.execVredand d a reuse s
  | .vredor d a reuse => Sys2Proof.Machine.execVredor d a reuse s
  | .vredxor d a reuse => Sys2Proof.Machine.execVredxor d a reuse s
  | .vscan d a reuse => Sys2Proof.Machine.execVscan d a reuse s
  | .vvoteany d a => Sys2Proof.Machine.execVvoteany d a s
  | .vvoteall d a => Sys2Proof.Machine.execVvoteall d a s
  | .vballot d p => Sys2Proof.Machine.execVballot d p s
  | .vmatch d a reuse => Sys2Proof.Machine.execVmatch d a reuse s
  | .vpack d a reuse => Sys2Proof.Machine.execVpack d a reuse s
  | .vunpk d a reuse => Sys2Proof.Machine.execVunpk d a reuse s
  | .vrand d => Sys2Proof.Machine.execVrand d s
  | .pand d a b => Sys2Proof.Machine.execPand d a b s
  | .por d a b => Sys2Proof.Machine.execPor d a b s
  | .pxor d a b => Sys2Proof.Machine.execPxor d a b s
  | .pnot d a => Sys2Proof.Machine.execPnot d a s
  | .pmov d a => Sys2Proof.Machine.execPmov d a s
  | .ppack d a n => Sys2Proof.Machine.execPpack d a n s
  | .punpk d n a => Sys2Proof.Machine.execPunpk d n a s
  | .ptos d a => Sys2Proof.Machine.execPtos d a s
  | .pset d a => Sys2Proof.Machine.execPset d a s
  | .vlane d a => Sys2Proof.Machine.execVlane d a s
  | .nop => Sys2Proof.Machine.execNop s
  | .exit => Sys2Proof.Machine.execExit s
  | .yield => Sys2Proof.Machine.execYield s
  | .trap imm => Sys2Proof.Machine.execTrap imm s
  | .bkpt imm => Sys2Proof.Machine.execBkpt imm s
  | .eret => Sys2Proof.Machine.execEret s
  | .bar => Sys2Proof.Machine.execBar s
  | .cbar => Sys2Proof.Machine.execCbar s
  | .fence sx o => Sys2Proof.Machine.execFence sx o s
  | .rfence a sx b o => Sys2Proof.Machine.execRfence a sx b o s
  | .sleep imm => Sys2Proof.Machine.execSleep imm s
  | .pref a l imm => Sys2Proof.Machine.execPref a l imm s
  | .variableLatencyResult w k lanes => Sys2Proof.Machine.execVariableLatencyResult w k lanes s
  | .instructionReplay w => Sys2Proof.Machine.execInstructionReplay w s
  | .accessFlagService ctx va => Sys2Proof.Machine.execAccessFlagService ctx va s
  | .pageWalk core ctx va k => Sys2Proof.Machine.execPageWalk core ctx va k s
  | .warpPromotion w => Sys2Proof.Machine.execWarpPromotion w s
  | .sleepExpiry w => Sys2Proof.Machine.execSleepExpiry w s
  | .spawnStallRetry w => Sys2Proof.Machine.execSpawnStallRetry w s
  | .spawnTimerExpiry core bin => Sys2Proof.Machine.execSpawnTimerExpiry core bin s
  | .spawnedWarpStart core => Sys2Proof.Machine.execSpawnedWarpStart core s
  | .barRelease team => Sys2Proof.Machine.execBarRelease team s
  | .cbarRelease launch tcluster => Sys2Proof.Machine.execCbarRelease launch tcluster s
  | .afenceStallRetry w => Sys2Proof.Machine.execAfenceStallRetry w s
  | .tcopyStallRetry w => Sys2Proof.Machine.execTcopyStallRetry w s
  | .matrixQueueStallRetry w => Sys2Proof.Machine.execMatrixQueueStallRetry w s
  | .asyncOperationComplete op => Sys2Proof.Machine.execAsyncOperationComplete op s
  | .awaitReturn w => Sys2Proof.Machine.execAwaitReturn w s
  | .bwaitReturn w => Sys2Proof.Machine.execBwaitReturn w s
  | .tcopyYResume w => Sys2Proof.Machine.execTcopyYResume w s
  | .actldComplete op => Sys2Proof.Machine.execActldComplete op s
  | .qappendGrant core q => Sys2Proof.Machine.execQappendGrant core q s
  | .qpopWake w => Sys2Proof.Machine.execQpopWake w s
  | .qdetOwnFree w => Sys2Proof.Machine.execQdetOwnFree w s
  | .launchStallRetry w => Sys2Proof.Machine.execLaunchStallRetry w s
  | .collStallRetry w => Sys2Proof.Machine.execCollStallRetry w s
  | .collComplete c => Sys2Proof.Machine.execCollComplete c s
  | .warpRetire w => Sys2Proof.Machine.execWarpRetire w s
  | .coreSplitChange core => Sys2Proof.Machine.execCoreSplitChange core s
  | .teamDispatch q => Sys2Proof.Machine.execTeamDispatch q s
  | .preemptionOverrun team => Sys2Proof.Machine.execPreemptionOverrun team s
  | .teamSave team => Sys2Proof.Machine.execTeamSave team s
  | .txTimeout w lane => Sys2Proof.Machine.execTxTimeout w lane s
  | .backoffExpiry w => Sys2Proof.Machine.execBackoffExpiry w s
  | .irrevocabilityTokenGrant => Sys2Proof.Machine.execIrrevocabilityTokenGrant s
  | .txendoTurn w => Sys2Proof.Machine.execTxendoTurn w s
  | .commitPhase1 w slice => Sys2Proof.Machine.execCommitPhase1 w slice s
  | .commitPhase2 w slice => Sys2Proof.Machine.execCommitPhase2 w slice s
  | .gets core line => Sys2Proof.Machine.execGets core line s
  | .getm core line => Sys2Proof.Machine.execGetm core line s
  | .upg core line => Sys2Proof.Machine.execUpg core line s
  | .maskExtension core line mask => Sys2Proof.Machine.execMaskExtension core line mask s
  | .putm core line => Sys2Proof.Machine.execPutm core line s
  | .putmm core line => Sys2Proof.Machine.execPutmm core line s
  | .homeWrite line mask => Sys2Proof.Machine.execHomeWrite line mask s
  | .mscFill line victim => Sys2Proof.Machine.execMscFill line victim s
  | .data core line => Sys2Proof.Machine.execData core line s
  | .datam core line => Sys2Proof.Machine.execDatam core line s
  | .upgack core line => Sys2Proof.Machine.execUpgack core line s
  | .putack core line => Sys2Proof.Machine.execPutack core line s
  | .inv core line => Sys2Proof.Machine.execInv core line s
  | .recallS core line => Sys2Proof.Machine.execRecallS core line s
  | .recallI core line => Sys2Proof.Machine.execRecallI core line s
  | .recallP core line => Sys2Proof.Machine.execRecallP core line s
  | .mergeRecall core line => Sys2Proof.Machine.execMergeRecall core line s
  | .protocolAck core line => Sys2Proof.Machine.execProtocolAck core line s
  | .push core line room => Sys2Proof.Machine.execPush core line room s
  | .pushAck core line => Sys2Proof.Machine.execPushAck core line s
  | .flitCrcError die failures => Sys2Proof.Machine.execFlitCrcError die failures s
  | .ucieReplay die other completed => Sys2Proof.Machine.execUcieReplay die other completed s
  | .crossbarParityError cluster failures => Sys2Proof.Machine.execCrossbarParityError cluster failures s
  | .uncorrectableError site => Sys2Proof.Machine.execUncorrectableError site s
  | .kernel q => Sys2Proof.Machine.execKernel q s
  | .wait q => Sys2Proof.Machine.execWait q s
  | .signal q => Sys2Proof.Machine.execSignal q s
  | .windowCreate q => Sys2Proof.Machine.execWindowCreate q s
  | .windowDestroy q => Sys2Proof.Machine.execWindowDestroy q s
  | .invalidate q => Sys2Proof.Machine.execInvalidate q s
  | .copy q => Sys2Proof.Machine.execCopy q s
  | .streamHalt q => Sys2Proof.Machine.execStreamHalt q s
  | .addressMonitorWrite m => Sys2Proof.Machine.execAddressMonitorWrite m s
  | .monitorPoll => Sys2Proof.Machine.execMonitorPoll s
  | .streamAging q => Sys2Proof.Machine.execStreamAging q s
  | .childGridStart q => Sys2Proof.Machine.execChildGridStart q s
  | .gridComplete launch => Sys2Proof.Machine.execGridComplete launch s
  | .quantumEnd w => Sys2Proof.Machine.execQuantumEnd w s
  | .meeting launch => Sys2Proof.Machine.execMeeting launch s
  | .waveStart launch => Sys2Proof.Machine.execWaveStart launch s
  | .powerMeasurement r => Sys2Proof.Machine.execPowerMeasurement r s
  | .powerUp => Sys2Proof.Machine.execPowerUp s
  | .warmReset => Sys2Proof.Machine.execWarmReset s
  | .coldReset => Sys2Proof.Machine.execColdReset s
  | .ctxwrite tag ctx gen entry => Sys2Proof.Machine.execCtxwrite tag ctx gen entry s
  | .qwrite tag q entry => Sys2Proof.Machine.execQwrite tag q entry s
  | .codereg tag ctx base len units => Sys2Proof.Machine.execCodereg tag ctx base len units s
  | .codemod tag ctx base pages units => Sys2Proof.Machine.execCodemod tag ctx base pages units s
  | .codedrop tag ctx base => Sys2Proof.Machine.execCodedrop tag ctx base s
  | .suspend tag ctx => Sys2Proof.Machine.execSuspend tag ctx s
  | .resume tag ctx => Sys2Proof.Machine.execResume tag ctx s
  | .faultanswerRetry tag report => Sys2Proof.Machine.execFaultanswerRetry tag report s
  | .faultanswerAbort tag report => Sys2Proof.Machine.execFaultanswerAbort tag report s
  | .evread tag die => Sys2Proof.Machine.execEvread tag die s
  | .evrelease tag => Sys2Proof.Machine.execEvrelease tag s
  | .logread tag team => Sys2Proof.Machine.execLogread tag team s
  | .reflash tag image => Sys2Proof.Machine.execReflash tag image s
  | .attest tag nonce => Sys2Proof.Machine.execAttest tag nonce s
  | .domain tag id members macs priorities => Sys2Proof.Machine.execDomain tag id members macs priorities s
  | .managementConnect host => Sys2Proof.Machine.execManagementConnect host s
  | .rdmaWrite qp key va bytes => Sys2Proof.Machine.execRdmaWrite qp key va bytes s
  | .rdmaRead qp key va size => Sys2Proof.Machine.execRdmaRead qp key va size s
  | .rdmaFetchAndAdd qp key va add => Sys2Proof.Machine.execRdmaFetchAndAdd qp key va add s
  | .rdmaCompareAndSwap qp key va cmp swap => Sys2Proof.Machine.execRdmaCompareAndSwap qp key va cmp swap s
  | .queuePairBroken qp => Sys2Proof.Machine.execQueuePairBroken qp s
  | .linkUp port => Sys2Proof.Machine.execLinkUp port s
  | .linkDown port => Sys2Proof.Machine.execLinkDown port s
  | .kltRequest h r => Sys2Proof.Machine.execKltRequest h r s
  | .kltResponse h data bad => Sys2Proof.Machine.execKltResponse h data bad s
  | .kltAck h => Sys2Proof.Machine.execKltAck h s
  | .kltNak h => Sys2Proof.Machine.execKltNak h s
  | .kltCollective h c => Sys2Proof.Machine.execKltCollective h c s
  | .kltProbe h => Sys2Proof.Machine.execKltProbe h s
  | .kltResendTimeout peer path => Sys2Proof.Machine.execKltResendTimeout peer path s
  | .peerLost peer reset => Sys2Proof.Machine.execPeerLost peer reset s
  | .reservedEncoding => Sys2Proof.Machine.execReservedEncoding s
  | .copyComplete q => Sys2Proof.Machine.execCopyComplete q s
  | .firmwareHalt die => Sys2Proof.Machine.execFirmwareHalt die s
  | .managementUnknownCode code tag => Sys2Proof.Machine.execManagementUnknownCode code tag s
  | .rdmaInvalidRequest qp k => Sys2Proof.Machine.execRdmaInvalidRequest qp k s

end Sys2Proof.Machine
end

