-- ==== Sys2Proof/Machine/Turn.lean ====
section
/-! DEFINITION. A turn taken, and the choice between a turn, an input and the passing of time. -/

namespace Sys2Proof.Machine

/-- An outcome whose next state gives nobody the turn. -/
def endTurn : Host.Outcome State Fault Refusal → Host.Outcome State Fault Refusal
  | .next s => .next { s with turn := none }
  | .fault e => .fault e
  | .refused e => .refused e

/-- A warp's turn taken. -/
def takeTurn : Turn → Host.Outcome State Fault Refusal
  | .over s => .next { s with turn := none }
  | .run s i => endTurn (exec i s)
  | .reserved s => endTurn (execReservedEncoding s)

/-- One step: the warp whose turn it is issues; otherwise the next input from outside is taken; otherwise time passes and one of the things that
are due happens. -/
def State.oneStep (s : State) : Host.Outcome State Fault Refusal :=
  let s0 := { s with tick := s.tick + 1 }
  match s0.turnWarp with
  | some (k, w, x) => takeTurn (s0.turnOf k w x)
  | none => match s0.nextInput with
    | some i => exec i { s0 with turn := none, agenda := s0.agenda.erase i }
    | none => State.background { s0 with turn := none }

end Sys2Proof.Machine
end

