-- ==== Sys2Proof/Safety.lean ====
section
/-! DEFINITION. The terms in which claims are stated: a warp that can issue, the state after its instruction, the conditions under which instructions run, and the invariant of every step. -/

namespace Sys2Proof.Machine

/-! ### A warp that issues -/

/-- Warp `k` holds the turn, is `w`, is ready, and sees `env` of its launch, team and core. -/
abbrev State.Runs (s : State) (k : Nat) (w : Warp) (env : Env) : Prop :=
  s.turn = some k ∧ tabFind s.warps k = some w ∧ s.env? w = some env ∧ w.status = .ready

/-- The state after an instruction of warp `k` that leaves the warp as `w` and goes on at `next`: the PC moves, a marker takes
effect, and a warp without live lanes retires. -/
def State.ends (s : State) (k : Nat) (w : Warp) (next : Next) : State := (s.forget k).settle k (w.finish next)

/-- The end of an instruction goes by without an event of its own: some lane is live, and no lane has parked in the handler (R31,
R168). -/
abbrev Warp.Quiet (w : Warp) : Prop := w.live ≠ 0 ∧ (w.handler = none ∨ w.parked = 0)

/-! ### The conditions of an instruction (Table 3.8) -/

/-- The mode's TYPE is accepted, and under a 64-bit type every operand register named is even (R46, R120). -/
abbrev Warp.TypeOk (w : Warp) (ok : ElemType → Bool) (operands : List Nat) : Prop :=
  ok w.typ = true ∧ (w.typ.is64 = true → ∀ n ∈ operands, n % 2 = 0)

/-- Every register named is valid (R16). -/
abbrev Warp.NamesOk (w : Warp) (env : Env) (names : List Nat) : Prop := ∀ n ∈ names, w.nameOk env n = true

/-- A collective instruction may run: no lane is parked and the warp is converged (R32, R161). -/
abbrev Warp.Together (w : Warp) : Prop := w.parked = 0 ∧ w.active = w.live

/-- A scalar or shared object of `n` bytes can be used: aligned, inside the window of shared memory, and not poisoned (R217). -/
abbrev State.ObjectOk (s : State) (env : Env) (w : Warp) (o : DWord) (align n : Nat) : Prop :=
  o.toNat % align = 0 ∧ o.toNat + n ≤ env.shm ∧ s.shmPoisoned w.team o.toNat n = false

/-- An access of `n` bytes at an address goes to local memory at `p`: it is aligned, outside the private windows, and translated (R152,
R192, R197). -/
abbrev State.Reaches (s : State) (env : Env) (a : DWord) (n : Nat) (kd : AccessKind) (p : Phys) : Prop :=
  a.toNat % n = 0 ∧ placeOf env a.toNat n = .global ∧ s.translate env.core env.ctx a.toNat kd = .ok p ∧ p.fab = false

/-- An access of lane `l` lies in the private window, and its bytes in memory are the pieces `ps` (R150 to R152). -/
abbrev State.InWindow (s : State) (env : Env) (x : Lane) (l : Nat) (a : DWord) (n : Nat) (kd : AccessKind) (ps : List (Nat × Nat)) : Prop :=
  a.toNat % n = 0 ∧ ∃ off, placeOf env a.toNat n = .priv off ∧ resolvePriv s env x l off n kd = .ok (.priv ps)

/-- Whether `x` lies in none of some spans: address and length. -/
def outsideSpans (spans : List (Nat × Nat)) (x : Nat) : Bool := spans.all fun p => decide (x < p.1) || decide (p.1 + p.2 ≤ x)

/-! ### The instructions that a warp's state refuses -/

/-- The instructions that a warp with an open transaction refuses before any other check (Table 14.1). -/
def refusedInTx : Instr → Bool
  | .sst .. | .satom .. | .qappend .. | .qappendTry .. | .qpop .. | .launch .. | .spawn .. | .spawno .. | .coll .. | .barv .. | .tcopy ..
  | .tcopyY .. | .accld .. | .accst .. | .accstR .. | .actld .. => true
  | _ => false

/-- The instructions that a melded stretch refuses before any other check, with their lengths in bytes (R35). -/
def refusedInStretch : Instr → Option Nat
  | .call .. | .calli .. | .ret | .callv .. | .meldLdt .. => some 4
  | .split .. => some 8
  | .switch _ _ cases _ _ => some (4 * (cases.length + 2))
  | _ => none

/-! ### The accesses of a warp's lanes, one after another -/

/-- What a lane's load of an element of type `t` gives the warp, and does to the state, at the place that its address resolved to: `w` is the
warp `k` at issue, `u` the state and the warp after the lanes before it. -/
def Warp.loadAt (w : Warp) (k : Nat) (env : Env) (c : CacheClass) (na : Bool) (t : ElemType) (d l : Nat) (u : State × Warp) :
    Target → State × Warp
  | .priv ps => (u.1.touchPieces ps, u.2.setLane l (w.putVal t l d (u.2.lane l) (natOfBytes (u.1.piecesAt ps))))
  | .shared off => (u.1, u.2.setLane l (w.putVal t l d (u.2.lane l)
      (natOfBytes (u.2.overlay (sharedKey off) (u.1.shmBytes w.team off (memSize t))))))
  | .global _ p => (u.1.loadTouch env.core p.pa (memSize t) c na, u.2.setLane l (w.putVal t l d (u.2.lane l)
      (natOfBytes (u.2.overlay (physKey p) (u.1.seenAt env.core k p.pa (memSize t))))))
  | .fault cause addr => (u.1, u.2.faultLane l cause addr)
  | .doom cause => (u.1, u.2.setLane l ((u.2.lane l).doom cause 0))

/-- What a lane's plain store does, outside deterministic launches. -/
def Warp.storeAt (w : Warp) (k : Nat) (env : Env) (c : CacheClass) (na : Bool) (bs : List Byte) (l : Nat) (u : State × Warp) :
    Target → State × Warp
  | .priv ps => (u.1.putPieces ps bs, u.2)
  | .shared off => (u.1.plainShm w.team off bs, u.2)
  | .global va p => ((u.1.coreStore env.meeting env.core k env.ctx va p bs c na).noteWrite (u.1.launchKey w) va, u.2)
  | .fault cause addr => (u.1, u.2.faultLane l cause addr)
  | .doom cause => (u.1, u.2.setLane l ((u.2.lane l).doom cause 0))

/-- What a lane's atomic does, outside deterministic launches: it reads the old value, stores the new one if there is one, and gives the
lane the old value. In memory it is performed at the home, which calls in the copies of the line. -/
def Warp.atomicAt (w : Warp) (op : AtomicOp) (d l : Nat) (u : State × Warp) (t : Target) : State × Warp :=
  let n := memSize w.typ
  let give (old : Nat) : Warp := u.2.setLane l (w.putVal w.typ l d (u.2.lane l) old)
  let new (old : Nat) : Option (List Byte) := (w.atomicNew op d l old).map (leBytes n)
  match t with
  | .priv ps =>
    let old := natOfBytes (u.1.piecesAt ps)
    (((new old).map (u.1.putPieces ps)).getD (u.1.touchPieces ps), give old)
  | .shared off =>
    let old := natOfBytes (u.1.shmBytes w.team off n)
    (((new old).map (u.1.plainShm w.team off)).getD u.1, give old)
  | .global va p =>
    let old := natOfBytes (u.1.bytesAt p.pa n)
    (((new old).map fun bs => (u.1.homeStore p.pa bs .normal).noteWrite (u.1.launchKey w) va).getD
      ((u.1.callIn (p.pa / 128) (lineMask p.pa n) true).l2Access (p.pa / 128) .normal false false), give old)
  | .fault cause addr => (u.1, u.2.faultLane l cause addr)
  | .doom cause => (u.1, u.2.setLane l ((u.2.lane l).doom cause 0))

/-- A place that a plain load of `n` bytes can use at once: in memory it is local, not locked and not poisoned, and private or shared bytes
are not poisoned (R303, R399, R415). -/
def State.Usable (s : State) (k : Nat) (w : Warp) (l n : Nat) : Target → Prop
  | .global _ p => (w.lane l).tx = none ∧ p.fab = false ∧ s.lockFor k p.pa = none ∧ isPoisoned s.poison p.pa n = false
  | .priv ps => s.piecesBad ps = false
  | .shared off => s.shmPoisoned w.team off n = false
  | _ => True

/-- A place at which an atomic of `n` bytes can be performed at once: of a line in memory that is not busy, with none of the warp's own
stores to its bytes on their way, and no answer of a peer kept for the warp (R96, R273, R415). -/
def State.Atomable (s : State) (k : Nat) (w : Warp) (l n : Nat) (t : Target) : Prop :=
  s.Usable k w l n t ∧ ∀ va p, t = .global va p → s.homeWaits false w.core k p n = false ∧ ∀ a ∈ s.answers, a.who ≠ .warp k

/-- A place that a plain store of `n` bytes can use at once (R96, R303, R307). -/
def State.Storable (s : State) (k : Nat) (env : Env) (w : Warp) (l n : Nat) (c : CacheClass) (na : Bool) : Target → Prop
  | .global _ p => (w.lane l).tx = none ∧ p.fab = false ∧ s.storeWaits env.meeting env.core k p n c na = false
  | _ => True

/-- Where a spill or a fill of the word at `a` goes for lane `l` (R154). -/
def spillTarget (s : State) (env : Env) (x : Lane) (l : Nat) (a : DWord) (kd : AccessKind) : Except Stop Target :=
  if a.toNat % 4 ≠ 0 then .ok (.fault 0x08 a)
  else if a.toNat < env.base ∨ env.top < a.toNat + 4 then .ok (.fault 0x09 a)
  else resolvePriv s env x l (a.toNat - env.base) 4 kd

/-- A condition that holds at each lane of a list, of the state and the warp that the lanes before it leave. -/
def EachLane (ls : List Nat) (f : State × Warp → Nat → State × Warp) (u : State × Warp) (ok : State × Warp → Nat → Prop) : Prop :=
  ∀ before l after, ls = before ++ l :: after → ok (before.foldl f u) l

/-! ### The destinations of instructions that work lane by lane -/

/-- The vector registers that a repeatable instruction names as destinations under a type (R76, R120, R132, R138, R147). -/
def destsOf (i : Instr) (t : ElemType) : List Nat :=
  match i with
  | .vcmp .. | .vcmpi .. | .vvoteany .. | .vvoteall .. | .vwrx .. => []
  | .vadd d .. | .vsub d .. | .vmul d .. | .vmad d .. | .vmin d .. | .vmax d .. | .vand d .. | .vor d .. | .vxor d .. | .vshl d ..
  | .vshr d .. | .vsra d .. | .vmulh d .. | .vsel d .. | .vbfe d .. | .vbfi d .. | .vaddi d .. | .vmuli d .. | .vandi d .. | .vori d ..
  | .vshi d .. | .vshfl d .. | .vnot d .. | .vabs d .. | .vneg d .. | .vclz d .. | .vpopc d .. | .vpack d .. | .vredadd d ..
  | .vredmin d .. | .vredmax d .. | .vredand d .. | .vredor d .. | .vredxor d .. | .vscan d .. | .vmov d .. | .vlane d .. => t.span d
  | .vdot d .. | .vrdx d .. | .vrcp d .. | .vrsq d .. | .vexp2 d .. | .vlog2 d .. | .vsin d .. | .vcos d .. | .vact d .. => [d]
  | .vcvt d _ td => convSpan td (max t.count td.count) d
  | .vunpk d .. => packSpan t d
  | .vballot d .. | .vmatch d .. => [d, d + 1]
  | .vrand d => [d, d + 1, d + 2, d + 3]
  | _ => []

/-- The predicate register that a repeatable instruction names as its destination. -/
def predDest : Instr → Option Nat
  | .vcmp _ p .. | .vcmpi _ p .. | .vvoteany p _ | .vvoteall p _ => some p
  | _ => none

/-- Whether an instruction is `VSEL`, which writes active lanes whatever their guard says (R129). -/
def isVsel : Instr → Bool
  | .vsel .. => true
  | _ => false

/-- Whether an instruction is `VWRX`, whose destination each lane computes (R137). -/
def isVwrx : Instr → Bool
  | .vwrx .. => true
  | _ => false

/-! ### The invariant of every step -/

/-- Memory is in its canonical form. -/
def State.Inv (s : State) : Prop := Memory.wf s.mem = true

end Sys2Proof.Machine
end

