-- ==== Sys2Proof/Certificates/Slice0/Obligations.lean ====
section
/-! DEFINITION. The statements for the provers: what reset leaves, that decoding and encoding agree, what a step does, the effect of every
instruction and event, and what they leave unchanged. -/

open Sys2Proof Sys2Proof.Machine

/-! ### Reset, decoding and the step -/

/-- The machine after reset: nothing is booted, launched, bound or waiting, every table is empty, no context or stream is enabled, the first launch number
is 1, and no warp can issue (R301, R349, R354, R356, R371). That memory reads 0, the clocks are 0 and the first launch number is 1 is the model's choice,
log entries 1, 4 and 5, and so is the fault of an instruction that no warp executes, log entry 10. -/
def Obligations.ResetState : Prop :=
  let s := State.reset
  s.Inv ∧ s.boot = .off ∧ s.turn = none ∧ s.clock = 0 ∧ s.nextLaunch = 1 ∧ s.launches = [] ∧ s.teams = [] ∧ s.warps = [] ∧ s.windows = []
  ∧ s.children = [] ∧ s.faults = [] ∧ s.poison = [] ∧ s.token = none ∧ s.code = [] ∧ s.locks = [] ∧ s.ops = []
  ∧ (∀ c, (s.context c).enabled = false) ∧ (∀ q, s.streamOpen (s.stream q) = false) ∧ (∀ a, s.byte a = 0)
  ∧ ∀ (t : State) (i : Instr), t.turn = none → i.isEncoded = true → exec i t = .fault .noWarp

/-- Decoding the words of a well-formed instruction gives it back, with its switch marker and its length, whatever words follow (R69 to R81). -/
def Obligations.DecodeEncode : Prop :=
  ∀ (i : Instr) (sw : Bool) (rest : List Nat), i.isEncoded = true → i.wellFormed = true →
    decodeWords (encode i sw ++ rest) = .ok ⟨i, sw, (encode i sw).length⟩

/-- Words that decode are the words of the instruction they decode to: no bit of an encoding is read in two ways, and a bit that must be 0 is 0 (R69 to
R81). -/
def Obligations.DecodeSound : Prop :=
  ∀ (ws : List Nat) (d : Decoded), (∀ x ∈ ws, x < 2 ^ 32) → decodeWords ws = .ok d →
    d.instr.isEncoded = true ∧ d.instr.wellFormed = true ∧ ws.take d.words = encode d.instr d.sw

/-- Words written out from the spec's encodings decode to what they stand for (R71 to R78, R94, R167, R254). -/
def Obligations.DecodedWords : Prop :=
  decodeWords [0x0018060E] = .ok ⟨.vadd 12 3 (.v 7), false, 1⟩
  ∧ decodeWords [0x0018060B] = .ok ⟨.vadd 12 3 (.s 5), false, 1⟩
  ∧ decodeWords [0x60112FFD] = .ok ⟨.br .lt 1 2 (-3), false, 1⟩
  ∧ decodeWords [0x780000D3] = .ok ⟨.mode 0x00D3, false, 1⟩
  ∧ decodeWords [0x7E000000] = .ok ⟨.nop, false, 1⟩
  ∧ decodeWords [0xFE020000] = .ok ⟨.exit, true, 1⟩
  ∧ decodeWords [0x76E10400] = .ok ⟨.qappend 8 4, false, 1⟩
  ∧ decodeWords [0x54412346] = .ok ⟨.slui 4 0x12346, false, 1⟩

/-- A step runs the decoded instruction: when the warp whose turn it is can issue, none of its words is poisoned and they decode, the step is the
instruction's execution in the state that its issue leaves, with the pages that it waits for noted and the translations of its accesses in the caches, and
the turn is given up at the end; words that do not decode are executed as the reserved encoding, and a poisoned one aborts the launch (R28, R69, R80, R161,
R163, R180, R181, R288, R300). With no warp in its turn, the step takes the next input from outside; with none of either, time passes: the turn, the agenda of
inputs and their order are the model's own, log entries 6, 8 and 102. -/
def Obligations.StepRunsDecoded : Prop :=
  ∀ (s : State) (k : Nat) (w : Warp) (x : Launch) (ws : List Nat) (d : Decoded) (e : DecodeError) (i : Instr),
    let s0 : State := { s with tick := s.tick + 1 }
    let v := w.settled
    let s1 := (s0.noteIssue k v (laneClass v (nth ws 0 0))).clearOthers k v
    (s0.turnWarp = some (k, w, x) → s0.stopsNow w = false → w.handlerDue = false → v.handlerDue = false → s0.restartDue k v = false →
      s0.fetch x v = .ok ws →
      (s0.fetchBad x v ws.length = none → decodeWords ws = .ok d →
        step s = endTurn (exec d.instr
          ((s1.putWarp k (s0.awaits (v.issues d.sw (isRep d.instr) s0.clock) d.instr)).translated v d.instr)))
      ∧ (s0.fetchBad x v ws.length = none → decodeWords ws = .error e →
        step s = endTurn (exec .reservedEncoding (s1.putWarp k (v.issues false false s0.clock))))
      ∧ ∀ a, s0.fetchBad x v ws.length = some a →
        step s = .next { s0.abortLaunch v 0x11 false false false v.pc a v.active with turn := none })
    ∧ (s0.turnWarp = none → s0.nextInput = some i → step s = exec i { s0 with turn := none, agenda := s.agenda.erase i })
    ∧ (s0.turnWarp = none → s0.nextInput = none → step s = State.background { s0 with turn := none })

/-- Every step keeps memory in its canonical form. -/
def Obligations.StepKeepsInvariant : Prop :=
  ∀ (s t : State), s.Inv → step s = .next t → t.Inv

/-! ### Vector arithmetic and logic -/

/-- Arithmetic under an accepted type writes, in each executing lane, the element results to vd (R122 to R124, R127). -/
def Obligations.VectorArithmeticCompletes : Prop :=
  ∀ (s : State) (k : Nat) (w : Warp) (env : Env) (d a : Nat) (b : SrcB) (imm : Int), s.Runs k w env →
    let t := w.typ
    let lanes (draws : Bool) (f : Nat → (Nat → Rounding) → Nat × Flags) : Host.Outcome State Fault Refusal :=
      .next (s.ends k (w.produce env t d draws f) (.after 4))
    let both (f : ElemType → (Nat → Rounding) → Nat → Nat → Nat × Flags) (l : Nat) (rs : Nat → Rounding) : Nat × Flags :=
      f t rs (w.val t l a) (w.second t l b)
    let withImm (f : ElemType → (Nat → Rounding) → Nat → Nat → Nat × Flags) (l : Nat) (rs : Nat → Rounding) : Nat × Flags :=
      f t rs (w.val t l a) (splat t (immElem t imm))
    (w.TypeOk ElemType.inN (d :: a :: operandOf b) → w.NamesOk env (t.span d ++ t.span a ++ namesOf t b) →
      exec (.vadd d a b) s = lanes w.rounds (both (arithWord w addF (· + ·)))
      ∧ exec (.vsub d a b) s = lanes w.rounds (both (arithWord w subF (· - ·)))
      ∧ exec (.vmul d a b) s = lanes w.rounds (both (arithWord w mulF (· * ·)))
      ∧ exec (.vmin d a b) s = lanes false (both fun t _ => arithWord w minF min t fun _ => .rne)
      ∧ exec (.vmax d a b) s = lanes false (both fun t _ => arithWord w maxF max t fun _ => .rne))
    ∧ (w.TypeOk ElemType.inN [d, a] → w.NamesOk env (t.span d ++ t.span a) →
      exec (.vaddi d a imm) s = lanes w.rounds (withImm (arithWord w addF (· + ·)))
      ∧ exec (.vmuli d a imm) s = lanes w.rounds (withImm (arithWord w mulF (· * ·))))
    ∧ (w.TypeOk ElemType.inD (d :: a :: operandOf b) → w.NamesOk env (t.span d ++ t.span a ++ namesOf t b) →
      exec (.vdot d a b) s = .next (s.ends k
        (w.produce env .i32 d false fun l _ => dot w t (w.val .i32 l d) (w.val t l a) (w.second t l b)) (.after 4)))

/-- `VMAD` is fused: exact product and sum, brought into the format once (R125). `VMULH` writes the upper w bits of the exact 2w-bit product,
whatever SAT holds, and they are the product divided by 2^w, which is in range (R126). -/
def Obligations.ProductsRule : Prop :=
  (∀ (s : State) (k : Nat) (w : Warp) (env : Env) (d a : Nat) (b : SrcB), s.Runs k w env →
    let t := w.typ
    let both (l : Nat) (f : Nat → Nat → Nat → Nat) : Nat × Flags :=
      plain (t.join ((upto t.count).map fun j => f j (elem t (w.val t l a) j) (elem t (w.second t l b) j)))
    let upper (x y : Nat) : Nat := (BitVec.ofInt (2 * t.width) (intElem t x * intElem t y)).toNat / 2 ^ t.width
    (w.TypeOk ElemType.inI (d :: a :: operandOf b) → w.NamesOk env (t.span d ++ t.span a ++ namesOf t b) →
      exec (.vmulh d a b) s = .next (s.ends k (w.produce env t d false fun l _ => both l fun _ x y => upper x y) (.after 4)))
    ∧ (w.TypeOk ElemType.inMad (d :: a :: operandOf b) → w.NamesOk env (t.span d ++ t.span a ++ namesOf t b) →
      exec (.vmad d a b) s = .next (s.ends k (w.produce env t d w.rounds fun l rs =>
        perElem t fun j => fma t w.sat w.ftz (rs j) (elem t (w.val t l a) j) (elem t (w.second t l b) j) (elem t (w.val t l d) j))
          (.after 4))))
  ∧ ∀ (t : ElemType) (x y : Nat), t.inI = true →
    let p := intElem t x * intElem t y
    let u := (BitVec.ofInt (2 * t.width) p).toNat / 2 ^ t.width
    intElem t u = p / ((2 ^ t.width : Nat) : Int) ∧ u < 2 ^ t.width

/-- Logic, selection and moves take any type and write whole words or pairs (R124, R129, R135), under the 6-bit types too, which is the model's reading,
log entry 105. -/
def Obligations.VectorLogicCompletes : Prop :=
  ∀ (s : State) (k : Nat) (w : Warp) (env : Env) (d a : Nat) (b : SrcB) (i : Int) (reuse : Bool), s.Runs k w env →
    let t := w.typ
    let lanes (w : Warp) (t : ElemType) (f : Nat → Nat) : Host.Outcome State Fault Refusal :=
      .next (s.ends k (w.produce env t d false fun l _ => plain (f l)) (.after 4))
    let ones : Nat := 2 ^ (if t.is64 then 64 else 32)
    let wide : Nat := (BitVec.ofInt (if t.is64 then 64 else 32) i).toNat
    let v := w.mark reuse a
    (w.TypeOk anyType (d :: a :: operandOf b) → w.NamesOk env (t.span d ++ t.span a ++ namesOf t b) →
      exec (.vand d a b) s = lanes w t (fun l => Nat.land (w.val t l a) (w.second t l b))
      ∧ exec (.vor d a b) s = lanes w t (fun l => Nat.lor (w.val t l a) (w.second t l b))
      ∧ exec (.vxor d a b) s = lanes w t (fun l => Nat.xor (w.val t l a) (w.second t l b))
      ∧ exec (.vsel d a b) s = .next (s.ends k
          ((w.eachLane (w.active &&& ~~~w.doomed) fun l =>
            .ok (w.putVal t l d (w.lane l) (if inMask w.guarded l then w.val t l a else w.second t l b), noFlags)).dropLatches
            (t.span d)) (.after 4)))
    ∧ (w.TypeOk anyType [d, a] → w.NamesOk env (t.span d ++ t.span a) →
      exec (.vandi d a i) s = lanes w t (fun l => Nat.land (w.val t l a) wide)
      ∧ exec (.vori d a i) s = lanes w t (fun l => Nat.lor (w.val t l a) wide)
      ∧ exec (.vmov d a) s = lanes w t (fun l => w.val t l a))
    ∧ (v.TypeOk anyType [d, a] → v.NamesOk env (v.typ.span d ++ v.typ.span a) →
      exec (.vnot d a reuse) s = lanes v v.typ (fun l => ones - 1 - v.val v.typ l a))

/-- `VMOVI` writes the sign-extended immediate, or with H = 1 replaces the upper half, whatever TYPE holds (R134). `VLANE` writes the
scalar plus the lane's number, wrapping at 32 bits, or at 64 under the 64-bit types (R136); that it writes all 32 bits under the 6-bit types is the model's
reading, log entry 105. -/
def Obligations.MoveRules : Prop :=
  ∀ (s : State) (k : Nat) (w : Warp) (env : Env) (d a imm : Nat), s.Runs k w env → imm < 2 ^ 16 →
    let t := w.typ
    let writes (t : ElemType) (f : Nat → Nat) : Host.Outcome State Fault Refusal :=
      .next (s.ends k (w.produce env t d false fun l _ => plain (f l)) (.after 4))
    (w.NamesOk env [d] →
      exec (.vmovi d imm false) s = writes .i32 (fun _ => ((BitVec.ofNat 16 imm).signExtend 32).toNat)
      ∧ exec (.vmovi d imm true) s = writes .i32 (fun l =>
        ((BitVec.ofNat 32 imm <<< 16) ||| ((w.reg l d).setWidth 16).setWidth 32).toNat))
    ∧ (w.NamesOk env (t.span d) →
      (t.is64 = false → exec (.vlane d a) s = writes t (fun l => ((w.scal a).setWidth 32 + BitVec.ofNat 32 l).toNat))
      ∧ (t.is64 = true → d % 2 = 0 → exec (.vlane d a) s = writes t (fun l => (w.scal a + BitVec.ofNat 64 l).toNat)))

/-- Shifts, counts and bit fields write their elements under their types, and comparisons write the predicate bits of the executing lanes that
do not park (R17, R73, R121, R128, R130, R131). -/
def Obligations.ShiftsAndComparesComplete : Prop :=
  (∀ (s : State) (k : Nat) (w : Warp) (env : Env) (d a n : Nat) (b : SrcB) (kind : ShiftKind) (reuse : Bool), s.Runs k w env →
     let t := w.typ
     let lanes (w : Warp) (f : Nat → Nat) : Host.Outcome State Fault Refusal :=
       .next (s.ends k (w.produce env w.typ d false fun l _ => plain (f l)) (.after 4))
     let elems (w : Warp) (f : Nat → Nat → Nat × Flags) : Host.Outcome State Fault Refusal :=
       .next (s.ends k (w.produce env w.typ d false fun l _ => perElem w.typ (f l)) (.after 4))
     let count (l j : Nat) : Nat := if t.is64 then w.second t l b % 2 ^ 32 else elem t (w.second t l b) j
     let v := w.mark reuse a
     (w.TypeOk ElemType.inI (d :: a :: operandOf b) → w.NamesOk env (t.span d ++ t.span a ++ namesOf t b) →
       exec (.vshl d a b) s = elems w (fun l j => plain (shiftElem t .shl (elem t (w.val t l a) j) (count l j)))
       ∧ exec (.vshr d a b) s = elems w (fun l j => plain (shiftElem t .shr (elem t (w.val t l a) j) (count l j)))
       ∧ exec (.vsra d a b) s = elems w (fun l j => plain (shiftElem t .sra (elem t (w.val t l a) j) (count l j))))
     ∧ (w.TypeOk ElemType.inI [d, a] → w.NamesOk env (t.span d ++ t.span a) →
       exec (.vshi d a kind n) s = elems w (fun l j => plain (shiftElem t kind (elem t (w.val t l a) j) n)))
     ∧ (v.TypeOk ElemType.inI [d, a] → v.NamesOk env (v.typ.span d ++ v.typ.span a) →
       exec (.vclz d a reuse) s = elems v (fun l j => plain (leadingZeros v.typ.width (elem v.typ (v.val v.typ l a) j)))
       ∧ exec (.vpopc d a reuse) s = elems v (fun l j => plain (popcount v.typ.width (elem v.typ (v.val v.typ l a) j))))
     ∧ (w.TypeOk fieldType (d :: a :: operandOf b) → w.NamesOk env (t.span d ++ t.span a ++ namesOf t b) →
       exec (.vbfe d a b) s = lanes w (fun l => extractField t.isSigned (w.val t l a) (w.second t l b))
       ∧ exec (.vbfi d a b) s = lanes w (fun l => insertField (w.val t l d) (w.val t l a) (w.second t l b))))
  ∧ (∀ (s : State) (k : Nat) (w : Warp) (env : Env) (c : Cmp) (p a : Nat) (b : SrcB) (imm : Int), s.Runs k w env →
       let t := w.typ
       let accepts (t : ElemType) : Bool := t.inN && (!Cmp.needsF c || t.inF)
       (w.TypeOk accepts (a :: operandOf b) → w.NamesOk env (t.span a ++ namesOf t b) →
         exec (.vcmp c p a b) s =
           .next (s.ends k (w.compareLanes p fun l => compareWord t w.ftz c (w.val t l a) (w.second t l b)) (.after 4)))
       ∧ (w.TypeOk accepts [a] → w.NamesOk env (t.span a) →
         exec (.vcmpi c p a imm) s =
           .next (s.ends k (w.compareLanes p fun l => compareWord t w.ftz c (w.val t l a) (splat t (immElem t imm))) (.after 4))))

/-- Signs, conversion, packing and register indexing; and the special functions, the activation function and the random draw, of which all but
the last leave their results pending (R23, R124, R132, R133, R137 to R141, R147). -/
def Obligations.ConversionsAndFunctionsComplete : Prop :=
  (∀ (s : State) (k : Nat) (w : Warp) (env : Env) (d a : Nat) (td : ElemType) (imm : Int) (reuse : Bool), s.Runs k w env →
     let v := w.mark reuse a
     let t := v.typ
     let goes (w1 : Warp) : Host.Outcome State Fault Refusal := .next (s.ends k w1 (.after 4))
     (v.TypeOk ElemType.inS [d, a] → v.NamesOk env (t.span d ++ t.span a) →
       exec (.vabs d a reuse) s =
         goes (v.produce env t d false fun l _ => signElem v (fun _ => false) (fun i => (i.natAbs : Int)) t (v.val t l a))
       ∧ exec (.vneg d a reuse) s = goes (v.produce env t d false fun l _ => signElem v (!·) (fun i => -i) t (v.val t l a)))
     ∧ (v.TypeOk anyType [d, a] → v.NamesOk env (t.span d ++ packSpan t a) →
       exec (.vpack d a reuse) s = goes (v.produce env t d false fun l _ =>
         plain (if t.count == 1 then v.val t l a else t.join ((upto t.count).map fun j => (v.reg l (a + j)).toNat))))
     ∧ (v.TypeOk anyType [d, a] → v.NamesOk env (t.span a ++ packSpan t d) →
       exec (.vunpk d a reuse) s = goes ((v.eachLane v.executing fun l =>
         .ok (if t.count == 1 then v.putVal t l d (v.lane l) (v.val t l a)
           else putWords v l d ((t.split (v.val t l a)).map (widen t)) (v.lane l), noFlags)).dropLatches (packSpan t d)))
     ∧ (let n := max w.typ.count td.count
       (w.typ.is64 = true → a % 2 = 0) → (td.is64 = true → d % 2 = 0) →
       w.NamesOk env (convSpan w.typ n a ++ convSpan td n d) →
       exec (.vcvt d a td) s =
         let w1 := w.takeDraws (w.typ.fmt?.isSome || td.fmt?.isSome)
         let out (l : Nat) : List (Nat × Flags) := (upto n).map fun i =>
           convert w.typ td w.sat w.ftz (w.rounding env l i)
             (elem w.typ (w.val w.typ l (convPos w.typ a (i / w.typ.count))) (i % w.typ.count))
         goes ((w1.eachLane w.executing fun l =>
           .ok (putSpan w td l d ((out l).map (·.1)) (upto ((n + td.count - 1) / td.count)) (w1.lane l),
             (out l).foldl (fun x r => x.or r.2) noFlags)).dropLatches (convSpan td n d)))
     ∧ (w.NamesOk env [d, a] →
       exec (.vrdx d a imm) s = goes ((w.eachLane w.executing fun l => match indexOf env w l a imm with
         | some x => .ok (w.putVal .i32 l d (w.lane l) (w.reg l x).toNat, noFlags)
         | none => .error (0x05, 0)).dropLatches [d])
       ∧ exec (.vwrx d a imm) s = goes (w.eachLane w.executing fun l => match indexOf env w l a imm with
         | some x => .ok (w.putVal .i32 l x (w.lane l) (w.reg l d).toNat, noFlags)
         | none => .error (0x05, 0)).clearLatches))
  ∧ (∀ (s : State) (k : Nat) (w : Warp) (env : Env) (d a : Nat) (reuse : Bool), s.Runs k w env →
       let v := w.mark reuse a
       let t := v.typ
       let input (f : Fmt) (l j : Nat) : FNum := f.decode (f.flush v.ftz (elem t (v.val t l a) j))
       let later (op : Fmt → Nat → Nat → Rounding → Nat × Flags) : Host.Outcome State Fault Refusal :=
         .next (s.ends k (v.later v.executing [d] (v.produce env t d true fun l rs =>
           perElem t fun j => match t.fmt? with
             | some f => op f l j (rs j)
             | none => plain 0)) (.after 4))
       let function (fn : FNum → SpecialValue) : Host.Outcome State Fault Refusal := later fun f l j r =>
         let y := (fn (input f l j)).deliver f r v.sat v.ftz
         (y.1, y.2.or { invalid := (input f l j).isSignalling })
       (v.TypeOk ElemType.inF [d, a] → v.NamesOk env [d, a] →
         exec (.vrcp d a reuse) s = function rcp
         ∧ exec (.vrsq d a reuse) s = function rsq
         ∧ exec (.vexp2 d a reuse) s = function exp2
         ∧ exec (.vlog2 d a reuse) s = function log2
         ∧ exec (.vsin d a reuse) s = function sinValue
         ∧ exec (.vcos d a reuse) s = function cosValue
         ∧ exec (.vact d a reuse) s = later fun f l j r =>
             let y := activate env.bank r.isDown (input f l j)
             let z := f.deliver r v.sat v.ftz y.1
             (z.1, y.2.or z.2))
       ∧ (w.NamesOk env [d, d + 1, d + 2, d + 3] →
         exec (.vrand d) s = .next (s.ends k ((w.eachLane w.executing fun l =>
           let x := w.lane l
           let y := putWords w l d (philox env.seed env.launch env.flat (w.drawLane l) x.drawc.toNat) x
           .ok ({ y with drawc := y.drawc + 1 }, noFlags)).dropLatches [d, d + 1, d + 2, d + 3]) (.after 4))))

/-- Integer results are formed exactly and then brought into range: with SAT = 0 they wrap modulo 2^w, with SAT = 1 they clamp to the type's
range, and no flag is raised (R53). It holds for the sums, differences and products of elements, fused products, negation and absolute value,
dot products, and conversion between integer types. -/
def Obligations.IntegerElements : Prop :=
  ∀ (w : Warp) (t td : ElemType) (sat ftz : Bool) (fop : Rounding → FNum → FNum → FNum × Flags) (iop : Int → Int → Int)
    (neg : Bool → Bool) (f : Int → Int) (r : Rounding) (x y z acc j : Nat), t.inI = true → td.inI = true →
    let lo (isSigned : Bool) (n : Nat) : Int := if isSigned then -(2 ^ (n - 1) : Nat) else 0
    let hi (isSigned : Bool) (n : Nat) : Int := if isSigned then (2 ^ (n - 1) : Nat) - 1 else (2 ^ n : Nat) - 1
    let brings (isSigned : Bool) (n : Nat) (sat : Bool) (exact : Int) (v : Nat × Flags) : Prop :=
      v.2 = noFlags ∧ v.1 < 2 ^ n
      ∧ (sat = false → (v.1 : Int) = exact % ((2 ^ n : Nat) : Int))
      ∧ (sat = true → toIntBy isSigned (BitVec.ofNat n v.1) = max (lo isSigned n) (min (hi isSigned n) exact))
    let into (t : ElemType) (sat : Bool) : Int → Nat × Flags → Prop := brings t.isSigned t.width sat
    into t sat (iop (intElem t x) (intElem t y)) (arith t sat ftz fop iop r x y)
    ∧ into t sat (intElem t x * intElem t y + intElem t z) (fma t sat ftz r x y z)
    ∧ into td sat (intElem t x) (convert t td sat ftz r x)
    ∧ (j < t.count → into t w.sat (f (intElem t (elem t x j)))
      (elem t (signElem w neg f t x).1 j, (signElem w neg f t x).2))
    ∧ brings true 32 w.sat ((BitVec.ofNat 32 acc).toInt
        + ((upto t.count).map fun j => intElem t (elem t x j) * intElem t (elem t y j)).sum) (dot w t acc x y)

/-- What each executing lane ends with: its value in vd where no exception that `%fpctl` enables is raised, and otherwise the lane parks with cause 0x0A
at the instruction's PC, with its registers as they were; the sticky flags are those of every executing lane (R18, R122, R123, R160). -/
def Obligations.LaneResults : Prop :=
  ∀ (w : Warp) (env : Env) (t : ElemType) (d l : Nat) (draws : Bool) (f : Nat → (Nat → Rounding) → Nat × Flags),
    l < w.width → l < w.lanes.length → inMask w.executing l = true → tabWf 0 (w.lane l).v = true →
    let r := f l (w.rounding env l)
    let x := (w.takeDraws draws).lane l
    let w1 := w.produce env t d draws f
    w1.fpctl = (lanesOf w.width w.executing).foldl (fun c m => raiseFlags c (f m (w.rounding env m)).2) w.fpctl
    ∧ x = { w.lane l with srdraw := if draws && w.roundCode == 5 then (w.lane l).srdraw + 1 else (w.lane l).srdraw }
    ∧ (enabledOf w.fpctl r.2 = false →
      w1.lane l = w.putVal t l d x r.1 ∧ inMask w1.active l = true
      ∧ (t.is64 = false → w1.reg l d = BitVec.ofNat 32 r.1)
      ∧ (t.is64 = true → w.meld = none → w1.val t l d = r.1 % 2 ^ 64))
    ∧ (enabledOf w.fpctl r.2 = true → (w.lane l).speculative = false →
      w1.lane l = { x with parked := some ⟨0x0A, w.pc, 0⟩ } ∧ inMask w1.active l = false)
    ∧ (enabledOf w.fpctl r.2 = true → (w.lane l).speculative = true →
      w1.lane l = { x with tx := x.tx.map fun y => { y with doomed := some (7, 0) } } ∧ inMask w1.active l = true)

/-- What an instruction that works lane by lane can change: in the lanes that execute it, or that are active for `VSEL`, the named destinations, the
draw counters, and parking or dooming; the sticky flags, the latches, its predicate, and results to come for those destinations. Everything else in
the warp, and every lane that does not execute, stays as it is (R15, R17, R21, R23, R76, R122, R129). -/
def Obligations.LaneFrame : Prop :=
  ∀ (w w1 : Warp) (env : Env) (i : Instr) (l n : Nat), repeated env w i = .ok w1 → tabWf 0 (w.lane l).v = true →
    let x := w.lane l
    let y := w1.lane l
    w1 = { w with lanes := w1.lanes, fpctl := w1.fpctl, latches := w1.latches, p := w1.p, meld := w1.meld, pending := w1.pending, active := w1.active }
    ∧ w1.lanes.length = w.lanes.length
    ∧ (predDest i ≠ some n → w1.pred n = w.pred n)
    ∧ (inMask w.executing l = false → inMask (w1.pred n) l = inMask (w.pred n) l)
    ∧ y = { x with v := y.v, drawc := y.drawc, srdraw := y.srdraw, tx := y.tx, parked := y.parked }
    ∧ tabWf 0 y.v = true
    ∧ (inMask (w.active &&& ~~~w.doomed) l = false → y = x)
    ∧ (isVsel i = false → inMask w.executing l = false → y = x)
    ∧ (isVwrx i = false → n ∉ (destsOf i w.typ).map (w.phys l) → tabGet y.v n 0 = tabGet x.v n 0)
    ∧ (inMask w.active l = false → inMask w1.active l = false)
    ∧ ∃ rs, w1.pending = w.pending ++ rs ∧ ∀ z ∈ rs.flatten, match z with
      | .vec m r _ => inMask w.executing m = true ∧ r ∈ (destsOf i w.typ).map (w.phys m)
      | .pred p m _ => predDest i = some p ∧ inMask w.executing m = true
      | _ => False

/-! ### Cross-lane instructions and predicates -/

/-- Shuffles, reductions and scans run converged and without parked lanes, and leave their results pending (R32, R62, R63, R143,
R144). That a minimum or maximum is delivered once at the end, with the flags of that delivery, and which steps of a scan raise flags are the model's
readings, log entries 20 and 108. -/
def Obligations.CrossLaneCompletes : Prop :=
  ∀ (s : State) (k : Nat) (w : Warp) (env : Env) (d a n : Nat) (kind : ShuffleKind) (rel reuse : Bool), s.Runs k w env →
    let v := w.mark reuse a
    let t := v.typ
    let one (draws : Bool) (r : Nat × Flags) : Host.Outcome State Fault Refusal :=
      .next (s.ends k (v.later v.executing (t.span d) (v.produce env t d draws fun _ _ => r)) (.after 4))
    let whole (f : Nat → Nat → Nat) (identity : Nat) : Nat × Flags :=
      butterfly (fun _ x y => plain (f x y)) id (logWidth v)
        ((upto v.width).map fun l => if inMask v.executing l then v.val t l a else identity)
    (w.Together → w.TypeOk anyType [d, a] → w.NamesOk env (w.typ.span d ++ w.typ.span a) →
      exec (.vshfl d a kind rel n) s = .next (s.ends k (w.later w.executing (w.typ.span d)
        (w.produce env w.typ d false fun l _ =>
          match shuffleSource w.width kind (if rel then w.width / 2 ^ n else n) (w.reg l d).toNat l with
          | some m => plain (w.val w.typ (if inMask w.executing m then m else l) a)
          | none => plain (w.val w.typ l a))) (.after 4)))
    ∧ (v.Together → v.TypeOk ElemType.inN [d, a] → v.NamesOk env (t.span d ++ t.span a) →
      exec (.vredadd d a reuse) s = one v.rounds (reduce v t (addStep env v t) (addIdentity t) plain a)
      ∧ exec (.vredmin d a reuse) s = one false (reduce v t (pickStep t FNum.minIsLeft fun x y => decide (x ≤ y)) (minIdentity t)
          (redDeliver v t) a)
      ∧ exec (.vredmax d a reuse) s = one false (reduce v t (pickStep t FNum.maxIsLeft fun x y => decide (y ≤ x)) (maxIdentity t)
          (redDeliver v t) a)
      ∧ exec (.vscan d a reuse) s = .next (s.ends k (v.later v.executing (t.span d) (v.produce env t d v.rounds fun l _ =>
          ((scanResult env v t a l).1,
            (lanesOf v.width v.executing).foldl (fun f m => f.or (scanResult env v t a m).2) (redFlags v t a)))) (.after 4)))
    ∧ (v.Together → v.TypeOk anyType [d, a] → v.NamesOk env (t.span d ++ t.span a) →
      exec (.vredand d a reuse) s = one false (whole Nat.land (2 ^ 64 - 1))
      ∧ exec (.vredor d a reuse) s = one false (whole Nat.lor 0)
      ∧ exec (.vredxor d a reuse) s = one false (whole Nat.xor 0))

/-- Under an integer type the butterfly and the block order of prefix sums give the sum and the prefix sums modulo 2^w, whatever order they
combine in (R62, R63, R144). -/
def Obligations.IntegerReductions : Prop :=
  ∀ (w : Warp) (env : Env) (t : ElemType) (xs : List Nat) (k i : Nat) (chunk : Nat → Nat), t.inI = true → w.sat = false →
    (∀ x ∈ xs, x < 2 ^ t.width) →
    let total (ys : List Nat) : Nat × Flags := (ys.sum % 2 ^ t.width, noFlags)
    (xs.length = 2 ^ k → butterfly (addStep env w t) chunk k xs = total xs)
    ∧ (i < xs.length → i < 64 → scanLane (addStep env w t) xs i = total (xs.take (i + 1)))

/-- Votes, ballots and matches look at the executing lanes of a converged warp and leave their results pending; the predicate instructions
write the executing lanes' bits, and `PTOS` a scalar once for the warp (R17, R145, R146, R148, R149). -/
def Obligations.PredicatesAndVotesComplete : Prop :=
  (∀ (s : State) (k : Nat) (w : Warp) (env : Env) (d p a : Nat) (reuse : Bool), s.Runs k w env →
     let v := w.mark reuse a
     let vote (r : Bool) : Host.Outcome State Fault Refusal := .next (s.ends k ((w.setPred d (w.pred d)).defer
       ((lanesOf w.width w.executing).map fun l => .pred d l r)) (.after 4))
     (w.Together →
       exec (.vvoteany d p) s = vote (w.pred p &&& w.executing != 0)
       ∧ exec (.vvoteall d p) s = vote (w.pred p &&& w.executing == w.executing))
     ∧ (w.Together → w.NamesOk env [d, d + 1] →
       exec (.vballot d p) s = .next (s.ends k (putMask w d fun _ => w.pred p &&& w.executing) (.after 4)))
     ∧ (v.Together → v.TypeOk ElemType.inK [a] → v.NamesOk env ([d, d + 1] ++ v.typ.span a) →
       exec (.vmatch d a reuse) s = .next (s.ends k (putMask v d fun l => maskOf ((lanesOf v.width v.executing).filter fun m =>
         m == l || keysMatch v.typ (v.val v.typ l a) (v.val v.typ m a))) (.after 4))))
  ∧ (∀ (s : State) (k : Nat) (w : Warp) (env : Env) (d a b n : Nat), s.Runs k w env →
       let set (m : Mask) : Host.Outcome State Fault Refusal :=
         .next (s.ends k (w.setPred d (mergeMask w.executing (w.pred d) m)) (.after 4))
       exec (.pand d a b) s = set (w.pred a &&& w.pred b)
       ∧ exec (.por d a b) s = set (w.pred a ||| w.pred b)
       ∧ exec (.pxor d a b) s = set (w.pred a ^^^ w.pred b)
       ∧ exec (.pnot d a) s = set (~~~(w.pred a))
       ∧ exec (.pmov d a) s = set (w.pred a)
       ∧ exec (.pset d a) s = set (w.scal a)
       ∧ exec (.ptos d a) s = .next (s.ends k (w.setScal d (w.pred a)) (.after 4))
       ∧ (w.NamesOk env [d] → exec (.ppack d a n) s = .next (s.ends k (w.produce env .i32 d false fun l _ =>
           plain ((upto n).foldl (fun x i => x + ofBit (inMask (w.pred (a + i)) l) * 2 ^ i) 0)) (.after 4)))
       ∧ (w.NamesOk env [a] → exec (.punpk d n a) s = .next (s.ends k (unpackPreds w d a (upto n) w) (.after 4))))

/-! ### Scalars, special registers and control -/

/-- The scalar functions run on whole 64-bit registers, once for the warp; special registers are read into a scalar or each lane and written
from a scalar, and `MODE` writes the mode register, with the checks of each (R18, R20, R91 to R93, R99, R111, R135). -/
def Obligations.ScalarsAndSpecialRegistersComplete : Prop :=
  (∀ (s : State) (k : Nat) (w : Warp) (env : Env) (d a b : Nat) (f : ScalarOp) (g : ScalarImmOp) (i : Int), s.Runs k w env →
     let set (v : DWord) : Host.Outcome State Fault Refusal := .next (s.ends k (w.setScal d v) (.after 4))
     exec (.salu f d a b) s = set (scalarAlu f (w.scal d) (w.scal a) (w.scal b))
     ∧ exec (.salui g d a i) s = set (scalarImm g (w.scal a) i))
  ∧ (∀ (s : State) (k : Nat) (w : Warp) (env : Env) (d a n : Nat) (x v : DWord) (m : BitVec 16), s.Runs k w env →
       let goes (w1 : Warp) : Host.Outcome State Fault Refusal := .next (s.ends k w1 (.after 4))
       let free (m : BitVec 16) : Prop := ∀ st, w.meld = some st → st.wrote = false ∨ bits m.toNat 3 0 ≠ st.pred
       (readSpecial env w n = some v → exec (.ssrRead d n) s = goes (w.setScal d v))
       ∧ (w.scal a = x → x.toNat < 2 ^ 16 → modeOk (x.setWidth 16) = true → free (x.setWidth 16) →
         exec (.ssrWrite 0x011 a) s = goes { w with mode := x.setWidth 16 })
       ∧ (w.scal a = x → bits x.toNat 63 13 = 0 → bits x.toNat 7 5 = 0 → exec (.ssrWrite 0x013 a) s = goes { w with fpctl := x })
       ∧ exec (.ssrWrite 0x019 a) s = goes { w with gref := w.scal a }
       ∧ exec (.ssrWrite 0x024 a) s = goes { w with trapc := w.scal a &&& ~~~3 }
       ∧ ((readSpecial env w n).isSome = true → w.TypeOk anyType [d] → w.NamesOk env (w.typ.span d) →
         exec (.vmovSpecial d n) s = goes ((w.eachLane w.executing fun l =>
           .ok (w.putVal w.typ l d (w.lane l) (((laneSpecial w l n).orElse fun _ => warpSpecial env w n).getD 0).toNat,
             noFlags)).dropLatches (w.typ.span d)))
       ∧ (modeOk m = true → free m → exec (.mode m) s = goes { w with mode := m })
       ∧ (modeOk ((w.scal a).setWidth 16) = true → free ((w.scal a).setWidth 16) →
         exec (.modeScalar a) s = goes { w with mode := (w.scal a).setWidth 16 }))

/-- `SLUI` and `SAUIPC` add nothing but the sign-extended upper immediate, and with `SALUI.addi` on the lower 12 bits form every value of
the window around zero or the PC (R94). -/
def Obligations.UpperImmediates : Prop :=
  (∀ (s : State) (k : Nat) (w : Warp) (env : Env) (d n : Nat), s.Runs k w env →
    exec (.slui d n) s = .next (s.ends k (w.setScal d ((BitVec.ofNat 32 (n * 2 ^ 12)).signExtend 64)) (.after 4))
    ∧ exec (.sauipc d n) s = .next (s.ends k (w.setScal d (w.pc + (BitVec.ofNat 32 (n * 2 ^ 12)).signExtend 64)) (.after 4)))
  ∧ ∀ (base : DWord) (x : Int), -(2 ^ 31 : Int) - 2 ^ 11 ≤ x → x ≤ (2 ^ 31 : Int) - 2 ^ 11 - 1 →
    let hi := unsigned 20 ((x + 0x800) / 2 ^ 12)
    let lo := signed 12 (unsigned 12 x)
    scalarImm .addi (base + (BitVec.ofNat 32 (hi * 2 ^ 12)).signExtend 64) lo = base + BitVec.ofInt 64 x

/-- Branches, jumps, calls and the stack-pointer adjustment move the PC and write only s30 or s31; `CALLV` calls the function that every lane
names, or runs the groups of several targets in ascending order through the stack, once every target is the entry of a function within the
budget of the kernel (R100 to R103, R155, R298). -/
def Obligations.ControlCompletes : Prop :=
  (∀ (s : State) (k : Nat) (w : Warp) (env : Env) (c : BrCond) (a b y : Nat) (o : Int), s.Runs k w env →
     let there : DWord := w.pc + BitVec.ofInt 64 (o * 4)
     let goes (w1 : Warp) (n : Next) : Host.Outcome State Fault Refusal := .next (s.ends k w1 n)
     let aligned (t : DWord) : Prop := t.toNat % 4 = 0
     let n31 : DWord := w.scal 31 + BitVec.ofInt 64 (o * 64)
     (BrCond.holds c (w.scal a) (w.scal b) = true → exec (.br c a b o) s = goes w (.jump there))
     ∧ (BrCond.holds c (w.scal a) (w.scal b) = false → exec (.br c a b o) s = goes w (.after 4))
     ∧ exec (.jmp o) s = goes w (.jump there)
     ∧ (w.meld = none → exec (.call o) s = goes (w.setScal 30 (w.pc + 4)) (.jump there))
     ∧ (w.meld = none → aligned (w.scal y) → exec (.calli y) s = goes (w.setScal 30 (w.pc + 4)) (.jump (w.scal y)))
     ∧ (aligned (w.scal y) → exec (.jmpi y) s = goes w (.jump (w.scal y)))
     ∧ (w.meld = none → aligned (w.scal 30) → exec .ret s = goes w (.jump (w.scal 30)))
     ∧ (env.stklim ≤ n31.toNat → n31.toNat ≤ env.top → exec (.spadj o) s = goes (w.setScal 31 n31) (.after 4)))
  ∧ (∀ (s : State) (k : Nat) (w : Warp) (env : Env) (x : Nat), s.Runs k w env → w.meld = none → w.NamesOk env [x, x + 1] →
       let ts := w.callTargets x
       let ret : DWord := w.pc + 4
       let linked := w.setScal 30 ret
       let group (t : Nat) : StackEntry :=
         ⟨BitVec.ofNat 64 t, maskOf ((lanesOf w.width w.counted).filter fun l => w.callTarget x l == t), ret⟩
       (∀ t ∈ ts, t % 4 = 0 ∧ ∃ n, s.budgetAt w t = some n ∧ n ≤ env.budget) →
       (ts = [] → exec (.callv x) s = .next (s.ends k linked (.jump ret)))
       ∧ (∀ t, ts = [t] → exec (.callv x) s = .next (s.ends k linked (.jump (BitVec.ofNat 64 t))))
       ∧ (2 ≤ ts.length → w.stack.length + ts.length + 1 ≤ 160 →
         let r := (linked.push (⟨ret, w.active, ret⟩ :: ts.reverse.map group)).pop
         exec (.callv x) s = .next (s.ends k r.1 (.jump r.2))))

/-- `SPLIT` takes one path, or pushes the join and the else-path and goes on with the lanes of the then-path; the pop at the join
starts the else-path and the second pop restores the mask that divided (R28, R29). -/
def Obligations.SplitRule : Prop :=
  ∀ (s : State) (k : Nat) (w : Warp) (env : Env) (p : Nat) (sense : Bool) (els join : Int), s.Runs k w env → w.meld = none →
    w.doomed = 0 → w.active ≠ 0 →
    let thenM := w.active &&& (if sense then w.pred p else ~~~(w.pred p))
    let elseM := w.active &&& ~~~thenM
    let elseTarget : DWord := w.pc + BitVec.ofInt 64 (els * 4)
    let joinTarget : DWord := w.pc + BitVec.ofInt 64 (join * 4)
    let i := Instr.split p sense els join
    (thenM = 0 → exec i s = .next (s.ends k w (.jump elseTarget)))
    ∧ (elseM = 0 → exec i s = .next (s.ends k w (.after 8)))
    ∧ (thenM ≠ 0 → elseM ≠ 0 → w.stack.length + 2 ≤ 160 →
      let w1 : Warp := { w with
        stack := ⟨elseTarget, elseM, joinTarget⟩ :: ⟨joinTarget, w.active, joinTarget⟩ :: w.stack
        active := thenM }
      exec i s = .next (s.ends k w1 (.after 8))
      ∧ ∀ (v : Warp), v.stack = w1.stack →
          v.pop.2 = elseTarget ∧ v.pop.1.active = elseM &&& v.live
          ∧ v.pop.1.pop.2 = joinTarget ∧ v.pop.1.pop.1.active = w.active &&& v.live ∧ v.pop.1.pop.1.stack = w.stack)

/-- `SPLIT` with doomed lanes sends them with the group that runs first, and with every lane doomed takes the first path, which is the reading
of the model (log entry 40); `SWITCH` runs the only group of lanes there is, or pushes the join and the later groups and goes on with the
first; and before an instruction the warp pops while the PC is the top reconvergence PC or no lane is active (R28, R30, R107, R298). -/
def Obligations.DivergenceRules : Prop :=
  (∀ (s : State) (k : Nat) (w : Warp) (env : Env) (p : Nat) (sense : Bool) (els join : Int), s.Runs k w env → w.meld = none →
     let chosen := if sense then w.pred p else ~~~(w.pred p)
     let elseM := w.counted &&& ~~~chosen
     let there (o : Int) : DWord := w.pc + BitVec.ofInt 64 (o * 4)
     let i := Instr.split p sense els join
     (w.counted &&& chosen ≠ 0 → elseM ≠ 0 → w.stack.length + 2 ≤ 160 → exec i s = .next (s.ends k { w with
         stack := ⟨there els, elseM, there join⟩ :: ⟨there join, w.active, there join⟩ :: w.stack
         active := w.active &&& ~~~elseM } (.after 8)))
     ∧ (w.counted = 0 → exec i s = .next (s.ends k w (.after 8))))
  ∧ (∀ (s : State) (k : Nat) (w : Warp) (env : Env) (a : Nat) (kt : KeyType) (cases : List (Nat × Int)) (dflt join : Int),
       s.Runs k w env → w.meld = none → w.NamesOk env [a] →
       let groups := (switchGroups (fun l => w.reg l a) kt dflt cases (lanesOf w.width w.counted)).filter fun g => !g.2.isEmpty
       let there (o : Int) : DWord := w.pc + BitVec.ofInt 64 (o * 4)
       let i := Instr.switch a kt cases dflt join
       (∀ g, groups = [g] → exec i s = .next (s.ends k w (.jump (there g.1))))
       ∧ ∀ g h r, groups = g :: h :: r → w.stack.length + r.length + 3 ≤ 160 →
         exec i s = .next (s.ends k { w with
           stack := ((h :: r).map fun x => ⟨there x.1, maskOf x.2, there join⟩) ++ ⟨there join, w.active, there join⟩ :: w.stack
           active := w.active &&& ~~~(maskOf ((h :: r).flatMap (·.2))) } (.jump (there g.1))))
  ∧ (∀ (w : Warp),
       (w.stack = [] → w.settled = w)
       ∧ (∀ e r, w.stack = e :: r → w.pc ≠ e.rpc → w.active ≠ 0 → w.settled = w)
       ∧ ∀ e r, w.stack = e :: r → (w.pc = e.rpc ∨ w.active = 0) →
         w.settled = { w with
           stack := r, active := e.mask &&& w.live, pc := e.pc, prev := none, repResume := false, repOpen := false }.settled)

/-- `MELD.ON` and `MELD.OFF` open and close a stretch, and `MELD.LDT` leaves the bytes of the table pending; `REGION` opens a region, with
transactions in the active lanes for kinds 1 and 2, and in a team that is asked to stop it is where the warp stops, its operations
cancelled; the `REP` word is a slot of its own, after which the pair runs the iteration that is due and stays until its last one, each
iteration doing what its word does as an instruction (R33, R34, R36, R39, R108 to R110, R112, R113, R180, R211, R292, R293). That a trap which only dooms
ends the pair with `%repc` at 0 is the model's choice, log entries 42 and 110; that an illegal pair names the active mask is its reading, log entry 24; and
that a warp which stops here gives up the token is its choice, log entry 128. -/
def Obligations.StretchesRegionsAndRepetition : Prop :=
  (∀ (s : State) (k : Nat) (w : Warp) (env : Env) (p y : Nat) (q : Phys), s.Runs k w env →
     (let v := w.drain; w.meld = none → v.Together → (∀ b ∈ v.pairs, b.toNat < env.budget) →
       exec (.meldOn p) s = .next (s.ends k { v with meld := some ⟨p, false⟩, path := v.live &&& v.pred p } (.after 4)))
     ∧ (w.meld.isSome = true →
       exec .meldOff s = .next (s.ends k { w with latches := [none, none], meld := none, path := 0 } (.after 4)))
     ∧ (w.meld = none → s.Reaches env (w.scal y) 64 .read q → (∀ x ∈ sectorsOf q.pa 64, s.lockFor k (x * 32) = none) →
       isPoisoned s.poison q.pa 64 = false →
       exec (.meldLdt y) s = .next ((s.loadTouch env.core q.pa 64 .normal false).ends k
         (w.defer [.pairs (w.overlay (physKey q) (s.seenAt env.core k q.pa 64))]).clearLatches (.after 4)))
     ∧ (∀ ps, w.meld = none → s.InWindow env .start w.lowestLive (w.scal y) 64 .read ps → s.piecesBad ps = false →
       exec (.meldLdt y) s = .next ((s.touchPieces ps).ends k (w.defer [.pairs (s.piecesAt ps)]).clearLatches (.after 4))))
  ∧ (∀ (s : State) (k : Nat) (w : Warp) (env : Env) (kind : RegionKind) (retries : Nat) (noback value : Bool) (scalars : BitVec 32)
       (vbase vcount : Nat) (preds : BitVec 12) (acclive : Bool), s.Runs k w env →
       let v := w.drain
       let i := Instr.region kind retries noback value scalars vbase vcount preds acclive
       let opened : Warp := { v with region := regionOf v kind retries noback value scalars vbase vcount preds acclive }
       w.meld = none → v.anyTx = false → vbase + vcount ≤ env.budget →
       (kind ≠ .plain → env.det = false ∧ (value = true → env.val = true)
         ∧ (kind = .ordered → ∀ l ∈ lanesOf v.width v.active, (v.lane l).slalom.isSome = true)) →
       (s.stopRequested env v = true → v.handler = none → exec i s =
         .next (((s.cancelOps fun o => o.warp == k).releaseToken k).ends k { opened with status := .stopped, openOps := [], batches := [] } .stay))
       ∧ ((s.stopRequested env v = false ∨ v.handler.isSome = true) →
         (kind = .plain → exec i s = .next (s.ends k { opened.clearAborts with restart := none } (.after 12)))
         ∧ (kind ≠ .plain → exec i s = .next (s.ends k (opened.openTx k s.clock s.token (kind == .ordered)
             (match v.restart with
               | some r => r.entry == v.pc
               | none => false)) (.after 12)))))
  ∧ (∀ (s : State) (k : Nat) (w w1 : Warp) (env : Env) (n stride : Nat) (sd sa sb : Bool) (body : Instr), s.Runs k w env →
       let count := if n = 0 then 64 else n
       let i := count - w.repc.toNat
       let step (b : Bool) : Nat := if b then i * 2 ^ stride else 0
       let iteration := repeated env w (stepBody (step sd) (step sa) (step sb) body)
       let rep := Instr.rep n sd sa sb stride body
       (repOk sd sa sb stride body = false → exec rep s = .next (s.halt k w 8 (w.trap 0x01)))
       ∧ (repOk sd sa sb stride body = true →
         (w.repOpen = false → exec rep s = .next (s.putWarp k { w with
           repc := BitVec.ofNat 7 (count - w.repFirst count), repResume := false, repOpen := true }))
         ∧ (w.repOpen = true → iteration = .ok w1 → exec rep s = .next (
           if i + 1 < count then s.ends k { w1 with repc := BitVec.ofNat 7 (count - (i + 1)) } .stay
           else s.ends k { w1 with repc := 0, repResume := false, repOpen := false } (.after 8)))
         ∧ (∀ c x m, w.repOpen = true → iteration = .error (.trap c x m) →
           (w.onlyDooms = true → exec rep s =
             .next (s.ends k { w.doomActive with repc := 0, repResume := false, repOpen := false } (.after 8)))
           ∧ (w.onlyDooms = false → exec rep s = .next (s.halt k w 8 (.trap c x m))))))
  ∧ (∀ (s : State) (k : Nat) (w w1 : Warp) (env : Env) (i : Instr), s.Runs k w env → i.repSteps.isSome = true →
       repeated env w i = .ok w1 → exec i s = .next (s.ends k w1 (.after 4)))

/-! ### System instructions, traps and barriers -/

/-- `NOP`, `YIELD`, `SLEEP`, `EXIT` and `PREF` take effect and go on to the next word; barriers and fences complete where nothing has to be
waited for, a barrier by arriving and waiting for its release, an acquire at fabric scope by dropping the read-only copies (R114 to R117,
R189, R202 to R205, R268, R416). -/
def Obligations.SystemAndBarriersComplete : Prop :=
  (∀ (s : State) (k : Nat) (w : Warp) (env : Env) (a i : Nat) (lv : PrefLevel) (o : Int) (p : Phys), s.Runs k w env →
     let goes (s1 : State) (w1 : Warp) : Host.Outcome State Fault Refusal := .next (s1.ends k w1 (.after 4))
     let yielded : State := s.setQuarter w.core w.quarter
       { (s.core w.core).quarter w.quarter with current := some k, count := 0, yielded := true }
     let line : Nat := ((w.scal a + sextAddr (o * 128)) &&& ~~~127).toNat
     exec .nop s = goes s w
     ∧ exec .yield s = goes yielded w
     ∧ (env.det = false →
       exec (.sleep 0) s = goes yielded w
       ∧ (0 < i → exec (.sleep i) s = goes s { w with status := .waiting (.sleep (s.clock + i * 16)) })
       ∧ (w.parked = 0 → w.anyTx = false → exec .exit s =
           goes s { w with live := w.live &&& ~~~w.active, active := 0, region := { w.region with tainted := true } }))
     ∧ (placeOf env line 128 ≠ .global → exec (.pref a lv o) s = goes s w)
     ∧ (placeOf env line 128 = .global → s.translate env.core env.ctx line .read = .ok p → p.fab = false →
       exec (.pref a lv o) s = goes (match lv with
         | .l1 => s.l1Read env.core p.pa 128 .normal false false
         | .l2 => s.l2Access (p.pa / 128) .normal false false
         | .msc => s.mscTouch (p.pa / 128) .normal) w))
  ∧ (∀ (s : State) (k : Nat) (w : Warp) (env : Env) (sc : Scope) (o : MemOrder) (a b : Nat), s.Runs k w env → env.det = false →
       let d := w.drain
       let lo := (w.scal a).toNat
       let hi := min (lo + (w.scal b).toNat) (2 ^ 64 - 1)
       (d.parked = 0 → d.handler = none → d.anyTx = false → d.active = d.live →
         (s.unreleased k d .team none = false → exec .bar s = .next
           ((s.updateTeam d.team fun tm => { tm with barArrived := insertSorted k tm.barArrived }).ends k
             { d with status := .waiting .bar } .stay))
         ∧ (env.cluster ≠ 1 → s.unreleased k d .cluster none = false → exec .cbar s = .next
           ((s.updateTeam d.team fun tm => { tm with cbarArrived := insertSorted k tm.cbarArrived }).ends k
             { d with status := .waiting .cbar } .stay)))
       ∧ (s.unreleased k w sc none = false ∨ MemOrder.releases o = false →
         exec (.fence sc o) s = .next ((if MemOrder.acquires o ∧ sc = .fabric then s.dropCopies env.ctx fun _ => true else s).ends k w
           (.after 4)))
       ∧ (w.scal b = 0 → exec (.rfence a sc b o) s = .next (s.ends k w (.after 4)))
       ∧ (w.scal b ≠ 0 → s.unreleased k w sc (some (lo, hi)) = false ∨ MemOrder.releases o = false →
         exec (.rfence a sc b o) s = .next ((if MemOrder.acquires o ∧ sc = .fabric then
             s.dropCopies env.ctx fun va => spanIn (some (lo, hi)) va 128 else s).ends k w (.after 4))))

/-- `TRAP`, `BKPT` and the reserved `SYS` encodings take their exception: with the lane records written, the warp is in its handler with the
cause, the immediate in `%taddr`, and the active lanes that no transaction leaves out in `%tlanes`, which for a reserved encoding is the model's reading,
log entry 24. A record whose translation faults leaves the instruction to be made anew once the fault is serviced (R80, R118, R162, R164, R165, R299). -/
def Obligations.TrapsTaken : Prop :=
  ∀ (s : State) (k : Nat) (w : Warp) (env : Env) (i : Nat) (entry : DWord), s.Runs k w env → w.handler = none →
    s.handlerOf w = some entry → env.stklim ≤ (w.scal 31).toNat → (w.scal 31).toNat ≤ env.top →
    let w1 := w.countIssue.doomActive
    let rest := w1.active &&& ~~~w1.doomed
    w.anyTx = false ∨ rest ≠ 0 →
    let records := State.writeRecords env w1 (lanesOf w1.width w1.live) s
    let taken (s1 : State) (cause : Nat) (addr : DWord) : Host.Outcome State Fault Refusal :=
      .next ((s1.record (dieOf w.core) 1 env.ctx w.core cause env.launch w.pc.toNat).putWarp k
        (w1.enter entry cause addr (if w.anyTx then w.active &&& rest else w.active)))
    (∀ s1, records = .ok s1 →
      exec (.trap i) s = taken s1 0x0B (BitVec.ofNat 64 i)
      ∧ exec (.bkpt i) s = taken s1 0x0C (BitVec.ofNat 64 i)
      ∧ exec .reservedEncoding s = taken s1 0x01 0)
    ∧ ∀ x va, records = .error (x, va) → x ≠ .malformed →
      ∀ j, j = .trap i ∨ j = .bkpt i ∨ j = .reservedEncoding →
        exec j s = .next (s.putWarp k { w with status := .waiting (.translation env.ctx va .write false) })

/-- `ERET`, the word 0x7E0A_0000, raises illegal state outside a handler or where the depth of the stack is not the saved one; otherwise it gives back the
mode, the mask of the live lanes, the path bits of a stretch and the PC, with the `%trapc` of now, and a repetition goes on only at a `REP` word (R113,
R167). That the trap names the active mask in `%tlanes` is the model's reading, log entry 24. -/
def Obligations.TrapReturn : Prop :=
  decodeWords [0x7E0A0000] = .ok ⟨.eret, false, 1⟩
  ∧ ∀ (s : State) (k : Nat) (w : Warp) (env : Env), s.Runs k w env →
    let raises : Prop := exec .eret s = .next (s.halt k w 4 (.trap 0x03 0 w.active))
    (w.handler = none → raises)
    ∧ ∀ h, w.handler = some h →
      (w.stack.length ≠ h.depth → raises)
      ∧ (w.stack.length = h.depth →
        let again := s.repAt w w.trapc && w.repc != 0
        exec .eret s = .next (s.ends k { w with
          mode := h.mode, active := h.resume &&& w.live, meld := h.meld, path := h.path &&& w.live, handler := none
          repResume := again, repOpen := false, repc := if again then w.repc else 0 } (.jump w.trapc)))

/-- What the entry into a handler leaves in the warp: the pending results written, the trap state saved, the live lanes active, the mode of a
handler, and the PC at its entry. The stack, scalars, predicates, batches and region stay as the pending results left them. In memory the
handler reserve of each live lane takes its lane record, at the words of the backing region that hold it, and no other byte changes (R151,
R165, R174). -/
def Obligations.TrapEntry : Prop :=
  (∀ (w : Warp) (entry addr : DWord) (cause : Nat) (lanes : Mask),
    let d := w.drain
    let h := w.enter entry cause addr lanes
    h.handler = some ⟨d.mode, d.active ||| d.parked, d.stack.length, d.meld, d.path⟩
    ∧ h.active = d.live ∧ h.live = d.live ∧ h.mode = 0x004F ∧ h.meld = none ∧ h.pc = entry ∧ h.pending = []
    ∧ h.tcause = BitVec.ofNat 8 cause ∧ h.taddr = addr ∧ h.tlanes = lanes ∧ h.tlive = d.live ∧ h.trapc = d.pc
    ∧ h.stack = w.stack ∧ h.s = d.s ∧ h.p = d.p ∧ h.pairs = d.pairs ∧ h.fpctl = w.fpctl ∧ h.repc = w.repc ∧ h.region = w.region
    ∧ h.openOps = w.openOps ∧ h.batches = w.batches
    ∧ ∀ l, l < d.lanes.length →
      (inMask d.live l = true → h.lane l = { d.lane l with parked := none })
      ∧ (inMask d.live l = false → h.lane l = d.lane l))
  ∧ ∀ (s t u : State) (w : Warp) (env : Env) (before : List Nat) (l x : Nat) (ps : List (Nat × Nat)), s.Inv →
      State.writeRecords env w before s = .ok u → State.writeRecords env w (before ++ [l]) s = .ok t →
      u.privPhys env .write (privWords env l 0 32) = .ok ps →
      t = { s with mem := t.mem, poison := t.poison }
      ∧ ((∀ p ∈ ps, x < p.1 ∨ p.1 + p.2 ≤ x) → t.byte x = u.byte x)
      ∧ (ps.Pairwise (fun p q => p.1 + p.2 ≤ q.1 ∨ q.1 + q.2 ≤ p.1) → t.piecesAt ps = laneRecord (w.lane l) w.repc)
      ∧ (laneRecord (w.lane l) w.repc).length = 32

/-- The checks of an instruction: a warp that fails one takes the trap of the check's cause, in the order of Table 3.8, and the instruction has no other
effect: checks of types, names, convergence and special registers, reserved modes, unaligned targets, the stack's limits, the instructions that a melded
stretch refuses and those that an open transaction refuses (R20, R27, R32, R35, R99, R102, R118, R155, R156, R161, R171, R294). That `%tlanes` is the active
mask is the model's reading, log entry 24. -/
def Obligations.ChecksTrap : Prop :=
  (∀ (s : State) (k : Nat) (w : Warp) (env : Env) (d a p : Nat) (b : SrcB) (i : Instr), s.Runs k w env →
    let traps (i : Instr) (cause : Nat) : Prop := exec i s = .next (s.halt k w 4 (.trap cause 0 w.active))
    (ElemType.inN w.typ = false → traps (.vadd d a b) 0x01)
    ∧ (ElemType.inN w.typ = true → w.typ.is64 = true → (d % 2 = 1 ∨ a % 2 = 1) → traps (.vadd d a b) 0x01)
    ∧ (w.TypeOk ElemType.inN (d :: a :: operandOf b) → ¬ w.NamesOk env (w.typ.span d ++ w.typ.span a ++ namesOf w.typ b) →
      traps (.vadd d a b) 0x05)
    ∧ (w.parked = 0 → w.active ≠ w.live → traps (.vvoteany d p) 0x02)
    ∧ (readSpecial env w a = none → traps (.ssrRead d a) 0x01)
    ∧ (w.parked = 0 → w.anyTx = true → traps .exit 0x03)
    ∧ (w.parked ≠ 0 → (i = .exit ∨ i = .vvoteany d p) → exec i s = .next (s.enterParked k w))
    ∧ (w.anyTx = true → refusedInTx i = true → traps i 0x03)
    ∧ (∀ n, w.meld.isSome = true → refusedInStretch i = some n → exec i s = .next (s.halt k w n (.trap 0x03 0 w.active))))
  ∧ (∀ (s : State) (k : Nat) (w : Warp) (env : Env) (a b d o : Nat) (op : AtomicOp) (c : CacheClass) (reuse : Bool) (m : BitVec 16)
       (kind : RegionKind) (retries : Nat) (noback value : Bool) (scalars : BitVec 32) (vbase vcount : Nat) (preds : BitVec 12) (acclive : Bool),
       s.Runs k w env →
       let traps (i : Instr) (cause : Nat) : Prop := exec i s = .next (s.halt k w 4 (.trap cause 0 w.active))
       let named (m : BitVec 16) : Prop := ∃ st, w.meld = some st ∧ st.wrote = true ∧ bits m.toNat 3 0 = st.pred
       let y := w.drain
       let parks (i : Instr) (len : Nat) : Prop := exec i s = .next (s.halt k y len (.trap 0x03 0 y.active))
       let region := Instr.region kind retries noback value scalars vbase vcount preds acclive
       (modeOk m = false → traps (.mode m) 0x01)
       ∧ (modeOk m = true → named m → traps (.mode m) 0x03)
       ∧ (modeOk ((w.scal a).setWidth 16) = false → traps (.modeScalar a) 0x01)
       ∧ (modeOk ((w.scal a).setWidth 16) = true → named ((w.scal a).setWidth 16) → traps (.modeScalar a) 0x03)
       ∧ (w.anyTx = true → w.TypeOk ElemType.inK [d] → traps (.vatom d b o op reuse) 0x03 ∧ traps (.vatoms d b o op reuse) 0x03)
       ∧ (w.anyTx = true → w.TypeOk anyType [d] → traps (.gst d b o c reuse) 0x03)
       ∧ (y.parked = 0 → y.handler.isSome = true ∨ y.anyTx = true → parks .bar 4 ∧ parks .cbar 4)
       ∧ (y.parked = 0 → y.meld.isSome = true → parks (.meldOn a) 4)
       ∧ (y.meld.isSome = true ∨ y.anyTx = true → parks region 12))
  ∧ (∀ (s : State) (k : Nat) (w : Warp) (env : Env) (p y x a : Nat) (sense : Bool) (els join dflt o : Int) (kt : KeyType)
       (cases : List (Nat × Int)), s.Runs k w env →
       let n31 : DWord := w.scal 31 + BitVec.ofInt 64 (o * 64)
       let fetch (i : Instr) (t : DWord) : Prop := exec i s = .next (s.halt k w 4 (.trap 0x07 t w.active))
       let full (i : Instr) (len : Nat) : Prop := exec i s = .next (s.halt k w len (.trap 0x06 env.spill w.active))
       let chosen := if sense then w.pred p else ~~~(w.pred p)
       let groups := (switchGroups (fun l => w.reg l a) kt dflt cases (lanesOf w.width w.counted)).filter fun g => !g.2.isEmpty
       let ts := w.callTargets x
       (w.meld = none → (w.scal y).toNat % 4 ≠ 0 → fetch (.calli y) (w.scal y))
       ∧ ((w.scal y).toNat % 4 ≠ 0 → fetch (.jmpi y) (w.scal y))
       ∧ (w.meld = none → (w.scal 30).toNat % 4 ≠ 0 → fetch .ret (w.scal 30))
       ∧ (n31.toNat < env.stklim ∨ env.top < n31.toNat → exec (.spadj o) s = .next (s.halt k w 4 (.trap 0x06 n31 w.active)))
       ∧ (w.meld = none → w.counted &&& chosen ≠ 0 → w.counted &&& ~~~chosen ≠ 0 → 160 < w.stack.length + 2 →
         full (.split p sense els join) 8)
       ∧ (w.meld = none → w.NamesOk env [a] → 2 ≤ groups.length → 160 < w.stack.length + groups.length + 1 →
         full (.switch a kt cases dflt join) (4 * (cases.length + 2)))
       ∧ (w.meld = none → w.NamesOk env [x, x + 1] → (∀ t ∈ ts, t % 4 = 0 ∧ ∃ n, s.budgetAt w t = some n ∧ n ≤ env.budget) →
         2 ≤ ts.length → 160 < w.stack.length + ts.length + 1 → full (.callv x) 4))

/-! ### Memory -/

/-- Scalar loads, stores and atomics of global memory and of the private window, whose bytes lie in the backing region of each lane; a load or
an atomic of another package sends its request and waits, and completes with the answer that is kept for it (R38, R95 to R98, R151, R152, R303, R345, R388,
R415). That the region is tainted once a remote atomic is asked for, and that its answer is the instruction's whatever its operands are by then, are the
model's choices, log entries 29 and 120. -/
def Obligations.ScalarMemoryCompletes : Prop :=
  (∀ (s : State) (k : Nat) (w : Warp) (env : Env) (f : LoadSize) (g : StoreSize) (op : AtomicOp) (sc : Scope) (o : MemOrder)
     (d a b : Nat) (i : Int) (p : Phys) (q : Nat → List (Nat × Nat)), s.Runs k w env →
     let addr := w.scal a + BitVec.ofInt 64 i
     let n := (LoadSize.shape f).1
     let m := StoreSize.bytes g
     let bytes := leBytes m (w.scal d).toNat
     let goes (s1 : State) (w1 : Warp) : Host.Outcome State Fault Refusal := .next (s1.ends k w1 (.after 4))
     let given (bs : List Byte) : Warp := w.defer [.scal d (extendLoad (LoadSize.shape f).2 n (natOfBytes bs))]
     (∀ ps, s.InWindow env .start w.lowestLive addr n .read ps → s.piecesBad ps = false →
       exec (.sld f d a i) s = goes (s.touchPieces ps) (given (s.piecesAt ps)))
     ∧ (s.Reaches env addr n .read p → (∀ x ∈ sectorsOf p.pa n, s.lockFor k (x * 32) = none) → isPoisoned s.poison p.pa n = false →
       exec (.sld f d a i) s = goes (s.loadTouch env.core p.pa n .normal false)
         (given (w.overlay (physKey p) (s.seenAt env.core k p.pa n))))
     ∧ (let put (u : State) (l : Nat) : State := u.putPieces (q l) bytes
       let ls := lanesOf w.width w.live
       w.anyTx = false → s.InWindow env .start w.lowestLive addr m .write (q w.lowestLive) →
       (∀ before l after, ls = before ++ l :: after → (before.foldl put s).InWindow env .start l addr m .write (q l)) →
       exec (.sst g d a i) s = goes (ls.foldl put s) w)
     ∧ (w.anyTx = false → s.Reaches env addr m .write p →
       (env.det = false → s.storeWaits false env.core k p m .normal false = false → exec (.sst g d a i) s =
         goes ((s.coreStore false env.core k env.ctx addr.toNat p bytes .normal false).noteWrite (s.launchKey w) addr.toNat) w)
       ∧ (env.det = true → ∀ log, logStore (w.lane w.lowestLive).storeLog env.wlog (physKey p / 32) (p.pa % 32) bytes = some log →
         exec (.sst g d a i) s = goes (s.noteWrite (s.launchKey w) addr.toNat)
           (((w.setLane w.lowestLive { w.lane w.lowestLive with storeLog := log }).noteStores (physKey p) bytes).noteVas p addr.toNat m)))
     ∧ (w.anyTx = false → env.det = false → s.Reaches env (w.scal a) 8 .readWrite p → s.homeWaits false env.core k p 8 = false →
       (∀ x ∈ s.answers, x.who ≠ .warp k) → isPoisoned s.poison p.pa 8 = false → (MemOrder.releases o = true → s.unreleased k w sc none = false) →
       let old := natOfBytes (s.bytesAt p.pa 8)
       let s1 := match atomicInt op true 64 old (w.scal b).toNat (w.scal (b + 1)).toNat with
         | some v => (s.homeStore p.pa (leBytes 8 v) .normal).noteWrite (s.launchKey w) (w.scal a).toNat
         | none => (s.callIn (p.pa / 128) (lineMask p.pa 8) true).l2Access (p.pa / 128) .normal false false
       exec (.satom op sc o d a b) s = goes (if MemOrder.acquires o then s1.acquire env sc else s1)
         (w.defer [.scal d (BitVec.ofNat 64 old)]).taint))
  ∧ (∀ (s : State) (k : Nat) (w : Warp) (env : Env) (f : LoadSize) (d a : Nat) (i : Int) (p : Phys) (bs : List Byte), s.Runs k w env →
       let addr := w.scal a + BitVec.ofInt 64 i
       let n := (LoadSize.shape f).1
       let op := RemoteOp.load p.pa n
       addr.toNat % n = 0 → placeOf env addr.toNat n = .global → s.translate env.core env.ctx addr.toNat .read = .ok p →
       p.fab = true → p.readOnly = false → s.lostPeer p.pkg = false →
       (s.answerTo (.warp k) 64 p.pkg op = none → exec (.sld f d a i) s =
         .next ((s.request p.pkg op (.warp k) 64 addr.toNat).putWarp k { w with status := .waiting .remote }))
       ∧ (s.answerTo (.warp k) 64 p.pkg op = some (bs, false) → exec (.sld f d a i) s =
         .next (s.ends k (w.defer [.scal d (extendLoad (LoadSize.shape f).2 n (natOfBytes (w.overlay (physKey p) bs)))]) (.after 4))))
  ∧ (∀ (s : State) (k : Nat) (w : Warp) (env : Env) (op : AtomicOp) (sc : Scope) (o : MemOrder) (d a b : Nat) (p : Phys) (bs : List Byte),
       s.Runs k w env →
       let va := (w.scal a).toNat
       let remote := RemoteOp.atomic op .i64 p.pa (w.scal b).toNat (w.scal (b + 1)).toNat
       w.anyTx = false → env.det = false → (MemOrder.releases o = true → s.unreleased k w sc none = false) →
       va % 8 = 0 → placeOf env va 8 = .global → s.translate env.core env.ctx va .readWrite = .ok p → p.fab = true →
       s.lostPeer p.pkg = false →
       (s.answerTo (.warp k) 64 p.pkg remote = none → exec (.satom op sc o d a b) s =
         .next ((s.request p.pkg remote (.warp k) 64 va).putWarp k { w.taint with status := .waiting .remote }))
       ∧ (s.answerTo (.warp k) 64 p.pkg remote = some (bs, false) → exec (.satom op sc o d a b) s =
         let s1 := s.noteWrite (s.launchKey w) va
         .next ((if MemOrder.acquires o then s1.acquire env sc else s1).ends k
           (w.defer [.scal d (BitVec.ofNat 64 (natOfBytes bs))]).taint (.after 4))))

/-- Vector loads give each executing lane the bytes at its address as a result to come, lowest lane first, and a fill gives them at once; a
lane whose address is misaligned or outside its range parks (R23, R152, R154, R160, R196 to R198). -/
def Obligations.VectorLoadsComplete : Prop :=
  ∀ (s : State) (k : Nat) (w0 : Warp) (env : Env) (d b o i : Nat) (c : CacheClass) (na reuse : Bool) (t : Nat → Target),
    s.Runs k w0 env →
    let w := w0.mark reuse o
    let n := memSize w.typ
    let ls := lanesOf w.width w.executing
    let put (u : State × Warp) (l : Nat) : State × Warp := w.loadAt k env c na w.typ d l u (t l)
    let r := ls.foldl put (s, w)
    let done : Host.Outcome State Fault Refusal :=
      .next (r.1.ends k ((w.later w.executing (w.typ.span d) r.2).dropLatches (w.typ.span d)) (.after 4))
    (w.TypeOk anyType [d] → w.NamesOk env (o :: w.typ.span d) →
      (EachLane ls put (s, w) (fun u l =>
          resolve u.1 env (u.2.lane l) l (w.address b o l) n .read = .ok (t l) ∧ u.1.Usable k u.2 l n (t l)) →
        exec (.vld d b o c na reuse) s = done)
      ∧ (EachLane ls put (s, w) (fun u l =>
          resolveShared env (w.address b o l) n = t l ∧ u.1.Usable k u.2 l n (t l)) →
        exec (.vlds d b o reuse) s = done))
    ∧ (w0.NamesOk env [d] →
      let a := w0.scal 31 + BitVec.ofNat 64 (i * 4)
      let fill (u : State × Warp) (l : Nat) : State × Warp := w0.loadAt k env .normal false .i32 d l u (t l)
      let gs := lanesOf w0.width w0.executing
      EachLane gs fill (s, w0) (fun u l =>
          spillTarget u.1 env (u.2.lane l) l a .read = .ok (t l) ∧ u.1.Usable k u.2 l 4 (t l)) →
        exec (.vfil d i) s = .next ((gs.foldl fill (s, w0)).1.ends k ((gs.foldl fill (s, w0)).2.dropLatches [d]) (.after 4)))

/-- Each executing lane stores its register at its address, lowest lane first; in a deterministic launch the store enters the log of its lane
and the view of the warp, and memory keeps its bytes until the meeting (R154, R196 to R198, R345, R388). -/
def Obligations.VectorStoresComplete : Prop :=
  (∀ (s : State) (k : Nat) (w0 : Warp) (env : Env) (d b o i : Nat) (c : CacheClass) (na reuse : Bool) (t : Nat → Target),
     s.Runs k w0 env →
     let w := w0.mark reuse o
     let n := memSize w.typ
     let ls := lanesOf w.width w.executing
     let bytes (l : Nat) : List Byte := leBytes n (w.val w.typ l d)
     let put (u : State × Warp) (l : Nat) : State × Warp := w.storeAt k env c na (bytes l) l u (t l)
     let r := ls.foldl put (s, w)
     (env.det = false → w.TypeOk anyType [d] → w.NamesOk env (o :: w.typ.span d) →
       (EachLane ls put (s, w) (fun u l =>
           resolve u.1 env (u.2.lane l) l (w.address b o l) n .write = .ok (t l) ∧ u.1.Storable k env u.2 l n c na (t l)) →
         exec (.vst d b o c na reuse) s = .next (r.1.ends k r.2 (.after 4)))
       ∧ ((∀ l ∈ ls, resolveShared env (w.address b o l) n = t l) →
         exec (.vsts d b o reuse) s = .next (r.1.ends k r.2 (.after 4))))
     ∧ (w0.NamesOk env [d] →
       let a := w0.scal 31 + BitVec.ofNat 64 (i * 4)
       let spill (u : State × Warp) (l : Nat) : State × Warp :=
         w0.storeAt k env .normal false (leBytes 4 (w0.reg l d).toNat) l u (t l)
       let gs := lanesOf w0.width w0.executing
       EachLane gs spill (s, w0) (fun u l => spillTarget u.1 env (u.2.lane l) l a .write = .ok (t l)) →
         exec (.vspl d i) s = .next ((gs.foldl spill (s, w0)).1.ends k (gs.foldl spill (s, w0)).2 (.after 4))))
  ∧ (∀ (s : State) (k l : Nat) (w : Warp) (env : Env) (i : Instr) (va : Nat) (p : Phys) (bs : List Byte) (c : CacheClass) (na : Bool)
       (off : Nat) (log : List WriteEntry), env.det = true → env.meeting = false → (w.lane l).tx = none →
       (logStore (w.lane l).storeLog env.wlog (physKey p / 32) (p.pa % 32) bs = some log →
         laneStore s k l env i va p bs c na w = .ok (s.noteWrite (s.launchKey w) va,
           ((w.setLane l { w.lane l with storeLog := log }).noteStores (physKey p) bs).noteVas p va bs.length))
       ∧ (logStore (w.lane l).storeLog env.wlog (physKey p / 32) (p.pa % 32) bs = none →
         laneStore s k l env i va p bs c na w = .error (.wait (.meeting (some i))))
       ∧ (logStore (w.lane l).storeLog env.wlog (sharedSector off) (off % 32) bs = some log →
         sharedStore env i l off bs s w = .ok (s, (w.setLane l { w.lane l with storeLog := log }).noteStores (sharedKey off) bs))
       ∧ ∀ (v : Warp) (key : Nat), (v.noteStores key bs).overlay key bs = bs
       ∧ (s.noteWrite (s.launchKey w) va).mem = s.mem)

/-- A Gondola store sends each line that it writes to the line's home, with its lanes' stores in order and the cores to push the line to; no
byte of memory changes before the home performs the stores (R262, R265 to R267). A target whose team has retired is counted as a refusal for each line, which
is the model's reading, log entry 130. -/
def Obligations.GondolaStoreCompletes : Prop :=
  ∀ (s : State) (k : Nat) (w0 : Warp) (env : Env) (d b o : Nat) (c : CacheClass) (reuse : Bool) (q : Nat → Phys), s.Runs k w0 env →
    let w := w0.mark reuse o
    let n := memSize w.typ
    let ls := lanesOf w.width w.executing
    let addr (l : Nat) : DWord := w.address b o l
    let noted := ls.foldl (fun u l => u.noteWrite (u.launchKey w) (addr l).toNat) s
    let stores : List WaitingStore := ls.map fun l => ⟨k, env.ctx, (addr l).toNat, (q l).pa, leBytes n (w.val w.typ l d)⟩
    let pushes : List (Msg × List (Nat × Nat)) := (stores.foldl addLine []).map fun e =>
      (pushMsg k env.ctx e.1 (s.pushTargets w env.cluster) c e.2, e.2.map fun x => (x.va, n))
    env.det = false → w.TypeOk anyType [d] → w.NamesOk env (o :: w.typ.span d) → gsetOk w.gset env.cluster = true → w.anyTx = false →
    (∀ l ∈ ls, s.Reaches env (addr l) n .write (q l) ∧ s.lockFor k (q l).pa = none ∧ s.ownFirst env.core k (q l) n = false) →
    let s1 : State := { noted with net := noted.net ++ pushes.map (·.1) }
    let w1 : Warp := { w with
      gref := w.gref + BitVec.ofNat 64 (pushes.length * s.absentTargets w env.cluster)
      pushesOut := w.pushesOut ++ pushes.flatMap fun m => m.1.targets.map fun _ => ⟨m.1.line, m.2⟩ }
    exec (.gst d b o c reuse) s = .next (s1.ends k w1 (.after 4)) ∧ s1.mem = s.mem

/-- Vector atomics, outside deterministic launches: one read-modify-write for each executing lane, lowest lane first, and the old values
as a result to come; the region is tainted where some lane performed its atomic (R38, R200, R201). -/
def Obligations.VectorAtomicsComplete : Prop :=
  ∀ (s : State) (k : Nat) (w0 : Warp) (env : Env) (d b o : Nat) (op : AtomicOp) (reuse : Bool) (t : Nat → Target), s.Runs k w0 env →
    let w := w0.mark reuse o
    let n := memSize w.typ
    let ls := lanesOf w.width w.executing
    let put (u : State × Warp) (l : Nat) : State × Warp := w.atomicAt op d l u (t l)
    let r := ls.foldl put (s, w)
    let v := (w.later w.executing (w.typ.span d) r.2).dropLatches (w.typ.span d)
    let done : Host.Outcome State Fault Refusal :=
      .next (r.1.ends k (if r.2.performedIn w.executing then v.taint else v) (.after 4))
    env.det = false → w.TypeOk ElemType.inK [d] → w.anyTx = false → w.NamesOk env (o :: atomicNames op w.typ d) →
    (EachLane ls put (s, w) (fun u l =>
        resolve u.1 env (u.2.lane l) l (w.address b o l) n .readWrite = .ok (t l) ∧ u.1.Atomable k u.2 l n (t l)) →
      exec (.vatom d b o op reuse) s = done)
    ∧ (EachLane ls put (s, w) (fun u l =>
        resolveShared env (w.address b o l) n = t l ∧ u.1.Usable k u.2 l n (t l)) →
      exec (.vatoms d b o op reuse) s = done)

/-- The bytes of memory that an instruction changes lie where its stores go: those of `SST`, `SATOM`, `VST`, `VATOM` and `VSPL` in the bytes
that a lane's address leads to, in memory or in the lane's backing region, in the state that the lanes before it left. The warp does not
enter its handler, which writes lane records; no store that still waits in an L1 is to the byte; and no child grid is pending, whose
discarding with an aborted launch would write completion events (R95, R151, R154, R197, R200). -/
def Obligations.StoresChangeOnlyTheirBytes : Prop :=
  ∀ (s t : State) (k : Nat) (w0 : Warp) (env : Env) (x d b o j : Nat) (i : Int) (g : StoreSize) (c : CacheClass) (na reuse : Bool)
    (op : AtomicOp) (sc : Scope) (ord : MemOrder), s.Runs k w0 env → s.Inv → s.children = [] →
    (∀ v, tabFind t.warps k = some v → v.handler.isSome = true → w0.handler.isSome = true) →
    (∀ core line y, s.l1Line core line = some y → ∀ z ∈ y.waiting, z.touches x 1 = false) →
    let w := w0.mark reuse o
    let n := memSize w.typ
    let addr := w0.scal b + BitVec.ofInt 64 i
    let m := StoreSize.bytes g
    let same : Prop := t.byte x = s.byte x
    let apartFrom (n : Nat) (tg : Target) : Prop :=
      (∀ va p, tg = .global va p → p.fab = false → x < p.pa ∨ p.pa + n ≤ x) ∧ ∀ ps, tg = .priv ps → ∀ p ∈ ps, x < p.1 ∨ p.1 + p.2 ≤ x
    let apart (w : Warp) (n : Nat) (f : LaneAccess) (place : State → Lane → Nat → Except Stop Target) : Prop :=
      ∀ before l after u tg, lanesOf w.width w.executing = before ++ l :: after →
        memLanes f before s w = .ok u → place u.1 (u.2.lane l) l = .ok tg → apartFrom n tg
    (exec (.sst g d b i) s = .next t →
      (∀ tg, resolveScalar s env w0.lowestLive addr m .write = .ok tg → apartFrom m tg) →
      (∀ before l after u tg, lanesOf w0.width w0.live = before ++ l :: after →
        storePriv env addr (leBytes m (w0.scal d).toNat) before s = .ok u → resolveScalar u env l addr m .write = .ok tg → apartFrom m tg) →
      same)
    ∧ (exec (.satom op sc ord d b o) s = .next t →
      (∀ tg, resolveScalar s env w0.lowestLive (w0.scal b) 8 .readWrite = .ok tg → apartFrom 8 tg) → same)
    ∧ (exec (.vst d b o c na reuse) s = .next t →
      apart w n (vstLane d b o c na reuse k env w) (fun u x l => resolve u env x l (w.address b o l) n .write) → same)
    ∧ (exec (.vatom d b o op reuse) s = .next t →
      apart w n (vatomLane d b o op reuse k env w) (fun u x l => resolve u env x l (w.address b o l) n .readWrite) → same)
    ∧ (exec (.vspl d j) s = .next t →
      apart w0 4 (vsplLane d j env w0) (fun u x l => spillTarget u env x l (w0.slot j) .write) → same)

/-- Every other instruction of the program leaves all of memory as it is when it issues, whatever it ends in but the entry into the handler,
which writes lane records (homes, commits, engines, collectives and meetings write memory later, as events of their own; what `SPAWNO`
writes stands in its own statement), and `TXENDO`, whose commit may end at once where its lanes have touched no sector, changes at most NEXTCOMMIT and FLAGS of
the Slalom objects of its open lanes. No child grid is pending, whose discarding with an aborted launch would write completion events; for
`LAUNCH` itself, which makes one pending, the warp is not in its handler (R95, R197, R200, R262, R311, R313). -/
def Obligations.OtherInstructionsKeepMemory : Prop :=
  ∀ (s t : State) (k x a : Nat) (w : Warp) (env : Env) (i : Instr), i.isEncoded = true → s.children = [] →
    s.turn = some k → tabFind s.warps k = some w →
    (∀ v, tabFind t.warps k = some v → v.handler.isSome = true → w.handler.isSome = true) → exec i s = .next t →
    (match i with
      | .sst .. | .satom .. | .vst .. | .vatom .. | .vspl .. | .spawno .. | .txendo | .launch _ => True
      | _ => t.mem = s.mem)
    ∧ (i = .launch x → s.Runs k w env → w.handler = none → t.mem = s.mem)
    ∧ (i = .txendo → s.Inv → (∀ l ∈ w.drain.openLanes,
        let o := slalomPhys ((w.drain.lane l).slalom.getD 0).toNat
        outsideSpans [(o.pa + 8, 8), (o.pa + 0x18, 8)] a = true) → t.byte a = s.byte a)

/-! ### Asynchronous operations and transactions -/

/-- `AFENCE` closes the open operations, `AWAIT` and `BWAIT` go on when what they wait for has come and wait otherwise, `BINIT` stores a
barrier object and `BARV` arrives on one; every arrival counts, the phase flips each time the expected count is reached, and the errors of
an engine are added to the status of the object (R208 to R217). In a deterministic launch the arrival of `BARV` is held with the log of the warp, which is the
model's choice, log entry 117, and so is the mark of a raced object that `BINIT` takes away, log entry 52. An arrival that races a plain store is apart (R213). -/
def Obligations.BatchesAndBarriersComplete : Prop :=
  (∀ (s : State) (k : Nat) (w : Warp) (env : Env) (d n c y : Nat) (q : Bool), s.Runs k w env →
     let v := w.drain
     let b : BitVec 16 := (v.scal n).setWidth 16
     let off := (w.scal y).toNat
     let closed : Warp := { w.closeBatch s w.openOps with openOps := [] }
     let goes (s1 : State) (w1 : Warp) (x : Next) : Host.Outcome State Fault Refusal := .next (s1.ends k w1 x)
     (w.batches.length < 16 → exec (.afence d) s = goes s (closed.setScal d ((w.batch + 1).setWidth 64)) (.after 4))
     ∧ (env.det = false → (b = w.batch ∨ 32768 ≤ (b - w.batch).toNat) →
       (v.batchesDone b = true → exec (.await d n) s = goes s { v.setScal d v.statusAcc with statusAcc := 0 } (.after 4))
       ∧ (v.batchesDone b = false → exec (.await d n) s = goes s { v with status := .waiting (.await d b.toNat) } .stay))
     ∧ (env.det = false → s.ObjectOk env v (v.scal y) 16 16 →
       let at' := (v.scal y).toNat
       (s.phaseReached v.team at' q = true → exec (.bwait d y q) s =
         goes s (v.setScal d (BitVec.ofNat 64 (natOfBytes (s.shmBytes v.team (at' + 8) 8)))) (.after 4))
       ∧ (s.phaseReached v.team at' q = false → exec (.bwait d y q) s =
         goes s { v with status := .waiting (.bwait d at' q) } .stay))
     ∧ (env.det = false → off % 16 = 0 → off + 16 ≤ env.shm → 1 ≤ (w.scal c).toNat → (w.scal c).toNat ≤ 65535 →
       let s1 := s.plainShm w.team off (leBytes 4 0 ++ leBytes 2 (w.scal c).toNat ++ leBytes 2 0 ++ leBytes 8 0)
       exec (.binit c y) s = goes (if s.objectPending w.team off then s1
         else s1.updateTeam w.team fun tm => { tm with raced := tm.raced.filter (· != off) }) w (.after 4))
     ∧ (s.ObjectOk env w (w.scal y) 16 16 →
       (w.anyTx = false → s.unreleased k w .team none = false →
         (env.det = false → exec (.barv y c) s = goes (s.arrive w.team off c 0) w.taint (.after 4))
         ∧ (env.det = true → exec (.barv y c) s =
           goes s { w with detArrivals := w.detArrivals ++ [(off, c)] }.taint (.after 4)))))
  ∧ (∀ (s : State) (t off c errors : Nat) (tm : Team), tabFind s.teams t = some tm → tm.raced.contains off = false →
       let field (o n : Nat) : Nat := natOfBytes (s.shmBytes t (off + o) n)
       let expect := field 4 2
       let total := field 6 2 + c
       0 < expect →
       let after := s.arrive t off c errors
       after = s.shmWrite t off (leBytes 4 (Nat.xor (field 0 4) (total / expect % 2)) ++ leBytes 2 expect ++ leBytes 2 (total % expect)
         ++ leBytes 8 (addStatus (BitVec.ofNat 64 (field 8 8)) errors).toNat)
       ∧ (total < expect → Nat.xor (field 0 4) (total / expect % 2) = field 0 4 ∧ total % expect = total)
       ∧ (total = expect → Nat.xor (field 0 4) (total / expect % 2) = Nat.xor (field 0 4) 1 ∧ total % expect = 0))

/-- The operations of the engines at issue: each reads its descriptors, enters its queue under a number of its own with the next place in the
order of issue, and joins the open set; in a deterministic launch it is held for the meeting (R206, R218, R224, R228, R233, R239 to R243,
R390). -/
def Obligations.EngineOperationsIssue : Prop :=
  (∀ (s : State) (k : Nat) (w : Warp) (env : Env) (bar : Option Nat) (shm : Bool) (d a b f y r c : Nat) (t : Tile),
     s.Runs k w env → (env.det = true ∨ (s.core w.core).queueFull .matrix = false ∧ (s.core w.core).queueFull .copy = false) →
     let goes (x : State × Warp) : Host.Outcome State Fault Refusal := .next (x.1.ends k x.2 (.after 4))
     let add (kind : OpKind) (bar : Option Nat) (batched : Bool) (names : List (List Nat)) : Host.Outcome State Fault Refusal :=
       goes (addOp env (newOp k w kind bar batched names) s w)
     let rows (kind : OpKind) (dests : List Nat) (names : List (List Nat)) : Host.Outcome State Fault Refusal :=
       let x := addOp env (newOp k w kind none true names) s w
       goes (x.1, x.2.dropLatches dests)
     let tileAt (n : Nat) : Prop := s.ObjectOk env w (w.scal n) 16 16 ∧ tileOf? (s.seenBytes w (w.scal n).toNat 16) = some t
       ∧ t.base + t.extent ≤ s.accSize w
     let copy := OpKind.copy (CopyDesc.ofBytes (s.seenBytes w (w.scal y).toNat 256))
     let fb := FormatBlock.ofBytes (s.seenBytes w (w.scal f).toNat 64)
     (w.anyTx = false →
       (s.ObjectOk env w (w.scal y) 64 256 → exec (.tcopy bar y) s = add copy (w.barOf bar) true [])
       ∧ (s.ObjectOk env w (w.scal y) 64 256 → env.det = false → w.openOps = [] → w.batches.length < 16 →
         let x := addOp env (newOp k w copy (w.barOf bar) true []) s w
         let v : Warp := { x.2.closeBatch x.1 x.2.openOps with openOps := [] }
         exec (.tcopyY bar y c) s = .next (x.1.ends k { v with
           status := .waiting (.tcopyY v.batch.toNat (w.pc + BitVec.ofNat 64 (c * 16))) } .stay))
       ∧ (tileAt y → exec (.accld bar shm a y) s = add (.accld shm (w.scal a).toNat t) (w.barOf bar) true [])
       ∧ (tileAt y → exec (.accst bar shm a y) s = add (.accst shm (w.scal a).toNat t) (w.barOf bar) true [])
       ∧ (tileAt y → t.n ≤ 32 → w.NamesOk env ((upto t.n).map (d + ·)) →
         exec (.accstR d y) s = rows (.accstR d t) ((upto t.n).map (d + ·)) (w.rowNames d t.n 0 t.m))
       ∧ exec (.actld bar shm y) s = add (.actld shm (w.scal y).toNat) (w.barOf bar) true [])
     ∧ (tileAt y → exec (.accz y) s = add (.accz t) none false [])
     ∧ (w.Together → tileAt y → w.NamesOk env [d, d + 1, d + 2] →
       exec (.rstat d y r) s = rows (.rstat d r t) [d, d + 1, d + 2] (w.rowNames d 3 r t.m))
     ∧ (w.Together → tileAt d → s.ObjectOk env w (w.scal f) 64 64 →
       exec (.mma d a b f) s = add (.mma false t (w.scal a).toNat (w.scal b).toNat fb w.sat) fb.barrier true []
       ∧ exec (.mmag d a b f) s = add (.mma true t (w.scal a).toNat (w.scal b).toNat fb w.sat) fb.barrier true []))
  ∧ (∀ (s : State) (k : Nat) (w : Warp) (env : Env) (kind : OpKind) (bar : Option Nat) (batched : Bool) (names : List (List Nat)),
       let o := newOp k w kind bar batched names
       let r := addOp env o s w
       let n := s.nextId
       r.2 = (if batched then { w with openOps := w.openOps ++ [n] } else w)
       ∧ (env.logs = false → tabFind r.1.ops n = some { o with issued := some (n + 1) }
         ∧ (r.1.core w.core).opQueue kind.queue = (s.core w.core).opQueue kind.queue ++ [n] ∧ r.1.launches = s.launches
         ∧ r.1.nextId = n + 2)
       ∧ (env.logs = true → tabFind r.1.ops n = some o ∧ r.1.cores = s.cores ∧ r.1.nextId = n + 1
         ∧ ∀ x, tabFind s.launches (s.launchKey w) = some x →
           tabFind r.1.launches (s.launchKey w) = some { x with heldOps := x.heldOps ++ [n] })
       ∧ ∀ m, m ≠ n → tabFind r.1.ops m = tabFind s.ops m)

/-- What a speculative lane's accesses do: its stores stay in its log, its loads read them back, a first read of a sector logs its version,
and a changed version or a full log dooms the lane (R297 to R299). -/
def Obligations.SpeculativeAccesses : Prop :=
  ∀ (s : State) (k l : Nat) (w : Warp) (env : Env) (i : Instr) (va n : Nat) (p : Phys) (bs : List Byte) (c : CacheClass) (na v : Bool)
    (t : Tx) (log : List WriteEntry) (r : ReadEntry), (w.lane l).tx = some t → t.irrevocable = false →
    let x := w.lane l
    let sect := p.pa / 32
    let o := p.pa % 32
    let stored : Tx := { t with writes := log, pages := insertNat (va / 2 ^ 16) t.pages }
    (logStore t.writes env.wlog sect o bs = some log →
      laneStore s k l env i va p bs c na w = .ok (s.noteWrite (s.launchKey w) va, w.setLane l { x with tx := some stored })
      ∧ (o + bs.length ≤ 32 → ∀ (u : State), txLoad u env i v stored va p bs.length = .ok (.ok (stored, bs))))
    ∧ (logStore t.writes env.wlog sect o bs = none →
      laneStore s k l env i va p bs c na w = .ok (s, w.setLane l (x.doom 4 0)))
    ∧ (t.writes = [] → tabFind s.locks sect = none → s.physPoison p n = false → o + n ≤ 32 → 0 < n →
      (t.readEntry sect = none → t.reads.length < env.rlog → txLoad s env i false t va p n =
        .ok (.ok ({ t with reads := t.reads ++ [⟨sect, s.versionSeen env.core sect, s.epoch sect, 0, []⟩] }, s.bytesAt p.pa n)))
      ∧ (t.readEntry sect = none → env.rlog ≤ t.reads.length → txLoad s env i v t va p n = .ok (.error 3))
      ∧ (t.readEntry sect = some r → r.ver = s.versionSeen env.core sect →
        txLoad s env i false t va p n = .ok (.ok (t, s.bytesAt p.pa n)))
      ∧ (t.readEntry sect = some r → r.ver ≠ s.versionSeen env.core sect → txLoad s env i false t va p n = .ok (.error 2)))

/-- `TXEND` and `TXENDO` begin the commit of the active lanes' transactions, `TXENDO` in the turn of its iterations; `TXABORT` dooms, and
`TXSTAT` reports. `TX_TIMEOUT` dooms its lane, `IRREVOCABILITY_TOKEN_GRANT` gives the token to the oldest request, and `COMMIT_PHASE_1` and
`COMMIT_PHASE_2` bring each phase of a commit to an end at each of its homes once no line of the commit is busy there (R273, R299, R302, R303, R307 to R310,
R313). A `TXENDO` reads NEXTCOMMIT at the home of its object, on another package too, where it waits for the answer, or for a locked sector or a busy line, as
it waits for its turn: log entry 120. -/
def Obligations.TransactionsComplete : Prop :=
  (∀ (s : State) (k : Nat) (w : Warp) (env : Env) (r : Restart) (d p c : Nat), s.Runs k w env →
    let v := w.drain
    let kind (b : Bool) : Prop := v.openLanes ≠ [] ∧ ∀ l ∈ v.openLanes, ∀ t, v.tx? l = some t → t.ordered = b
    let checked : Prop := v.restart = some r ∧ v.stack.length = r.depth
      ∧ (v.stack.length < 160 ∨ r.joined = true ∧ v.stack.head?.map (·.rpc) = some (v.pc + 4))
      ∧ s.unreleased k v .device none = false
    let doomed := v.openLanes.filter fun l => (v.lane l).isDoomed
    let sound := v.openLanes.filter fun l => !(v.lane l).isDoomed
    let unit := intraWarp v ((sound.filter fun l => !(v.lane l).speculative) ++ sound.filter fun l => (v.lane l).speculative) [] []
    let o := slalomPhys (v.slalomOf (v.byIter v.openLanes))
    let ask := RemoteOp.load (o.pa + 8) 16
    let begun (ordered : Bool) (kept : List Nat) (aborted : List (Nat × Nat)) (undecided : List Nat) (next : Nat) : Commit :=
      ⟨ordered, 0, kept.map fun l => ⟨l, true⟩, aborted, undecided, slicesOf (v.sectorsOfLanes kept), 0, next⟩
    let commits (x : Commit) : Host.Outcome State Fault Refusal :=
      let s1 := s.beginCommit k v x
      .next (s1.ends k ((tabFind s1.warps k).getD v) .stay)
    let ls := (lanesOf w.width w.executing).filter fun l => (w.tx? l).isSome
    let waits : Host.Outcome State Fault Refusal := .next (s.ends k { v with status := .waiting (.turn true) } .stay)
    let inTurn (next : Nat) : Prop :=
      let run := v.consecutive next (v.byIter v.openLanes)
      let turn := orderedRun v run.1 []
      (run.1 = [] → exec .txendo s = waits) ∧ (run.1 ≠ [] → exec .txendo s = commits (begun true turn.1 turn.2 run.2 next))
    (kind false → checked →
      exec .txend s = commits (begun false unit.1 ((doomed.map fun l => (l, (v.doomOf l).1)) ++ unit.2.map fun l => (l, 1)) [] 0))
    ∧ (kind true → checked →
      (o.fab = false → s.homeWaits false env.core k o 32 = true → exec .txendo s = waits)
      ∧ (o.fab = false → s.homeWaits false env.core k o 32 = false → isPoisoned s.poison (o.pa + 8) 16 = false → inTurn (s.slalomField o.pa 8))
      ∧ (o.fab = true → s.lostPeer o.pkg = false →
        (∀ bs, s.answerTo (.warp k) 64 o.pkg ask = some (bs, false) → inTurn (fieldAt bs 0 8))
        ∧ (s.answerTo (.warp k) 64 o.pkg ask = none → exec .txendo s =
          .next ((s.request o.pkg ask (.warp k) 64 0).putWarp k { v with status := .waiting .remote }))))
    ∧ ((∀ l ∈ ls, (w.lane l).speculative = true) → exec (.txabort c) s =
      .next (s.ends k (ls.foldl (fun w l => w.setLane l ((w.lane l).doom 5 c)) w) (.after 4)))
    ∧ (w.NamesOk env [d] → exec (.txstat d p) s = .next (s.ends k
        (((w.eachLane w.executing fun l => .ok (w.putVal .i32 l d (w.lane l) ((w.lane l).txstat % 2 ^ 32), noFlags)).dropLatches
          [d]).setPred p (mergeMask w.executing (w.pred p) (maskOf ((lanesOf w.width w.executing).filter fun l =>
            (w.tx? l).isSome && !(w.lane l).isDoomed)))) (.after 4))))
  ∧ (∀ (s : State) (k l : Nat) (w : Warp) (t : Tx), tabFind s.warps k = some w → w.tx? l = some t → t.irrevocable = false →
       t.doomed = none → w.commit = none → t.opened + 1048576 ≤ s.clock →
       ∃ u v, exec (.txTimeout k l) s = .next u ∧ tabFind u.warps k = some v ∧ v.tx? l = some { t with doomed := some (10, 0) })
  ∧ (∀ (s : State) (k l : Nat) (w : Warp) (r : List (Nat × Nat)), s.token = none → s.tokenQueue = (k, l) :: r → tabFind s.warps k = some w →
       ∃ u, exec .irrevocabilityTokenGrant s = .next u ∧ u.token = some (k, l) ∧ u.tokenQueue = r)
  ∧ (∀ (s : State) (k h : Nat) (w : Warp) (c : Commit), tabFind s.warps k = some w → w.commit = some c → h ∈ c.slices →
       let leaves (i : Instr) : Prop := ∃ u, exec i s = .next u ∧ ∀ j ∈ c.slices, j ≠ h → ∃ v x, tabFind u.warps k = some v
         ∧ v.commit = some x ∧ x.phase = c.phase ∧ h ∉ x.slices ∧ j ∈ x.slices
       (c.phase = 0 ∨ c.phase = 1 ∧ s.quietSectors (w.sectorsAt (fun t => t.reads.map (·.sect)) h c.passing) = true ∧ s.badRead w h c = none →
         leaves (.commitPhase1 k h))
       ∧ (c.phase = 2 → s.quietSectors (w.sectorsAt Tx.writeSet h c.passing) = true → leaves (.commitPhase2 k h)))

/-! ### Spawned threads, child grids, queues and collectives -/

/-- The iterations that `SPAWNO` takes, the bins that threads enter, and the taint; an object of another package is asked for its iterations, and its answer
gives them (R184, R185, R312, R326). That the region is tainted while an object of another package is only asked is the model's choice, log entries 29 and
120. -/
def Obligations.SpawnsComplete : Prop :=
  ∀ (s : State) (k : Nat) (w : Warp) (env : Env) (x y sb budget : Nat) (l : Launch) (c : Core) (p : Phys), s.Runs k w env →
    let e := w.scal y
    let ls := lanesOf w.width w.executing
    let fresh (slalom : Option DWord) : SpawnBin := ⟨w.team, e, slalom, [], s.clock, s.clock + l.spawnTimer, false⟩
    let next := natOfBytes (s.bytesAt p.pa 8)
    let m := slalomTake next (natOfBytes (s.bytesAt (p.pa + 16) 8)) ls.length
    let taken (next m : Nat) : List SpawnThread := (upto m).map fun j => ⟨w.spawnArgs x (nth ls j 0), BitVec.ofNat 64 (next + j)⟩
    let goes (s1 : State) (w1 : Warp) : Host.Outcome State Fault Refusal := .next (s1.ends k w1 (.after 4))
    w.anyTx = false → s.launchOf w = some l → e.toNat % 4 = 0 → s.funcBudget l e.toNat = some budget → budget ≤ env.budget →
    w.NamesOk env [x, x + 1, x + 2, x + 3] →
    (ls = [] → exec (.spawn x y) s = goes s w)
    ∧ (ls ≠ [] → (s.core w.core).spawn w.width (fresh none) (ls.map fun l => ⟨w.spawnArgs x l, 0⟩) = some c →
      exec (.spawn x y) s = goes { s with cores := tabSet s.cores w.core c } w.taint)
    ∧ (env.det = false → (w.scal sb).toNat % 32 = 0 → s.Reaches env (w.scal sb) 8 .readWrite p → s.homeWaits false env.core k p 24 = false →
      (∀ z ∈ s.answers, z.who ≠ .warp k) → isPoisoned s.poison p.pa 24 = false →
      (m = 0 → exec (.spawno x y sb) s = goes ((s.homeRead p.pa 24).noteWrite (s.launchKey w) (w.scal sb).toNat) w)
      ∧ (m ≠ 0 → (s.core w.core).spawn w.width (fresh (some (BitVec.ofNat 64 p.pa))) (taken next m) = some c →
        exec (.spawno x y sb) s = goes ((({ s with cores := tabSet s.cores w.core c }).homeStore p.pa (leBytes 8 (next + m))
          .normal).noteWrite (s.launchKey w) (w.scal sb).toNat) w.taint))
    ∧ (env.det = false → (w.scal sb).toNat % 32 = 0 → placeOf env (w.scal sb).toNat 8 = .global →
      s.translate env.core env.ctx (w.scal sb).toNat .readWrite = .ok p → p.fab = true → s.lostPeer p.pkg = false →
      let claim := RemoteOp.claim p.pa ls.length
      let va := (w.scal sb).toNat
      let noted (u : State) : State := u.noteWrite (s.launchKey w) va
      (s.answerTo (.warp k) 64 p.pkg claim = none → exec (.spawno x y sb) s =
        .next ((s.request p.pkg claim (.warp k) 64 va).putWarp k { w.taint with status := .waiting .remote }))
      ∧ ∀ bs, s.answerTo (.warp k) 64 p.pkg claim = some (bs, false) →
        (fieldAt bs 8 8 = 0 → exec (.spawno x y sb) s = goes (noted s) w)
        ∧ (fieldAt bs 8 8 ≠ 0 →
          (s.core w.core).spawn w.width (fresh (some (slalomRef p))) (taken (fieldAt bs 0 8) (fieldAt bs 8 8)) = some c →
          exec (.spawno x y sb) s = goes (noted { s with cores := tabSet s.cores w.core c }) w.taint))

/-- The queue instructions where their queue is open for the team of the handle and the warp is attached to it; a queue is opened from its
descriptor and freed again, and `GSET` names the targets of pushes (R251, R252, R254 to R258, R261). -/
def Obligations.QueuesComplete : Prop :=
  (∀ (s : State) (k : Nat) (w : Warp) (env : Env) (x y p pv pc : Nat) (r : QueueRef), s.Runs k w env →
     let h := w.scal y
     let q := s.queueRegs r
     let ls := lanesOf w.width w.executing
     let b : BitVec 128 := BitVec.ofNat 128 (2 ^ h.toNat)
     let goes (s1 : State) (w1 : Warp) : Host.Outcome State Fault Refusal := .next (s1.ends k w1 (.after 4))
     let waits (s1 : State) (wt : Wait) : Host.Outcome State Fault Refusal := .next (s1.ends k { w with status := .waiting wt } .stay)
     s.queueRef env w h = some r → q.openFor r.team = true →
     (w.anyTx = false → env.det = false → w.NamesOk env (entryRegs q x) → ls ≠ [] → s.unreleased k w .cluster none = false →
       w.attached.getLsbD h.toNat = true →
       (ls.length ≤ q.count → (q.requests = [] ∨ q.requests.head? = some k) → ls.length ≤ q.free →
         exec (.qappend x y) s = goes ((s.unlist r k).writeEntries r (ls.map (w.entryOf q x))) w.taint)
       ∧ (ls.length ≤ q.count → q.requests.contains k = false → (q.requests ≠ [] ∨ q.free < ls.length) →
         exec (.qappend x y) s = waits (s.setQueue r.core r.q { q with requests := q.requests ++ [k] })
           (.append (.qappend x y) r.core r.q ls.length))
       ∧ (let n := if q.requests.isEmpty then min ls.length q.free else 0
         let v := w.setPred p (mergeMask w.executing (w.pred p) (maskOf (ls.take n)))
         exec (.qappendTry x y p) s = goes (s.writeEntries r ((ls.take n).map (w.entryOf q x))) (if n = 0 then v else v.taint)))
     ∧ (w.anyTx = false → env.det = false → w.NamesOk env (entryRegs q x) → ls ≠ [] → r.team = w.team →
       let n := min ls.length q.filled
       let noted := (w.setPred pv (w.pred pv)).setPred pc (w.pred pc)
       let v := (noted.defer (popWrites s w r.team x pv pc n q ls)).dropLatches (entryRegs q x)
       (n = 0 → q.closed = false → exec (.qpop x y pv pc) s = waits s (.pop (.qpop x y pv pc)))
       ∧ (n = 0 → q.closed = true → exec (.qpop x y pv pc) s = goes s v)
       ∧ (n ≠ 0 → (∀ j < n, s.shmPoisoned r.team (q.slot j) q.esize = false) → exec (.qpop x y pv pc) s =
         goes (s.setQueue r.core r.q { q with head := (q.head + n) % q.count, filled := q.filled - n, free := q.free + n }) v.taint))
     ∧ (w.attached.getLsbD h.toNat = false →
       exec (.qatt y) s = goes (s.setQueue r.core r.q { q with prod := q.prod + 1, armed := true }) { w with attached := w.attached ||| b }
       ∧ exec (.qdet y) s = goes s w)
     ∧ (w.attached.getLsbD h.toNat = true →
       exec (.qatt y) s = goes s w
       ∧ exec (.qdet y) s = goes (s.setQueue r.core r.q { q with prod := q.prod - 1 }) { w with attached := w.attached &&& ~~~b }))
  ∧ (∀ (s : State) (k : Nat) (w : Warp) (env : Env) (y q : Nat), s.Runs k w env →
       let x := (s.core w.core).queue q
       let bs := s.seenBytes w (w.scal y).toNat 16
       let base := fieldAt bs 0 4
       let esize := fieldAt bs 4 2
       let count := fieldAt bs 6 2
       let goes (s1 : State) (w1 : Warp) (n : Next) : Host.Outcome State Fault Refusal := .next (s1.ends k w1 n)
       exec (.gset y) s = goes s { w with gset := w.scal y } (.after 4)
       ∧ (s.ObjectOk env w (w.scal y) 16 16 → zeroAt bs 8 8 = true → 4 ≤ esize → esize ≤ 64 → esize % 4 = 0 → 0 < count → base % 16 = 0 →
         base + esize * count ≤ env.shm →
         (x.owner = none → exec (.qattOwn y q) s = goes (s.setQueue w.core q ⟨some w.team, base, esize, true, false, count, 0, 0, count, 0, []⟩)
           w (.after 4))
         ∧ (x.owner = some w.team → x.base = base → x.esize = esize → x.count = count → exec (.qattOwn y q) s = goes s w (.after 4)))
       ∧ (x.owner = none → exec (.qdetOwn q) s = goes s w (.after 4))
       ∧ (x.owner = some w.team → x.prod = 0 →
         (x.free + x.filled = x.count → exec (.qdetOwn q) s = goes (s.freeQueue w.core q) w (.after 4))
         ∧ (x.free + x.filled ≠ x.count → exec (.qdetOwn q) s = goes s { w with status := .waiting (.freeQueue q) } .stay)))

/-- `LAUNCH` appends a child grid for each executing lane whose packet address is legal, lowest lane first, and parks the others, once the stores and pushes of
the warp are performed; `COLL` starts a collective of the descriptor it reads. In a deterministic launch the children are held for the commit of the warp's log
and the collective for the meeting (R325, R343, R369, R370, R390, R391, R417). -/
def Obligations.LaunchAndCollComplete : Prop :=
  ∀ (s : State) (k : Nat) (w : Warp) (env : Env) (x b y : Nat) (l : Launch) (q : Nat → Phys), s.Runs k w env →
    w.anyTx = false → s.launchOf w = some l →
    let ls := lanesOf w.width w.executing
    let addr (l : Nat) : DWord := w.packetAddr x l
    let legal (l : Nat) : Bool := decide ((addr l).toNat % 64 = 0) && decide (placeOf env (addr l).toNat 64 = .global)
    let good := ls.filter legal
    let cause (l : Nat) : Nat := if (addr l).toNat % 64 = 0 then 0x09 else 0x08
    let w1 := (ls.filter fun l => !legal l).foldl (fun w l => w.faultLane l (cause l) (addr l)) w
    let read (r : State × List (List Byte)) (l : Nat) : State × List (List Byte) :=
      (r.1.loadTouch env.core (q l).pa 64 .normal false, r.2 ++ [w.overlay (physKey (q l)) (r.1.seenAt env.core k (q l).pa 64)])
    let s1 := (good.foldl read (s, [])).1
    let new : List Child := (good.foldl read (s, [])).2.map fun p => ⟨p, s.launchKey w, env.depth + 1, l.queue, env.ctx⟩
    let desc := CollDesc.ofBytes (s.seenBytes w (w.scal y).toNat 128)
    let c : Collective := ⟨desc, 0, k, w.team, env.ctx, (w.scal b).toNat, 0, ⟨0, [], 0, [], [], []⟩, none, false, none, []⟩
    (w.NamesOk env [x, x + 1] → env.depth ≠ 10 → s.pendingChildren + good.length ≤ 8192 →
      (∀ l ∈ good, s.Reaches env (addr l) 64 .read (q l) ∧ isPoisoned s.poison (q l).pa 64 = false
        ∧ ∀ z ∈ sectorsOf (q l).pa 64, s.lockFor k (z * 32) = none) →
      (good = [] → exec (.launch x) s = .next (s.ends k w1 (.after 4)))
      ∧ (good ≠ [] → env.det = false → s.unreleased k w .device none = false → exec (.launch x) s =
        .next ({ s1 with children := s1.children ++ new }.ends k w1.taint (.after 4)))
      ∧ (good ≠ [] → env.det = true → exec (.launch x) s =
        .next (s1.ends k { w1 with detChildren := w1.detChildren ++ new }.taint (.after 4))))
    ∧ (s.ObjectOk env w (w.scal y) 64 128 → (w.scal b).toNat % 16 = 0 → (w.scal b).toNat + 16 ≤ env.shm → s.unreleased k w .fabric none = false →
      s.collectives.length < 64 →
      let s2 : State := { s with nextId := s.nextId + 1, collectives := tabSet s.collectives s.nextId c }
      (env.det = false → exec (.coll b y) s = .next ((s2.issueColl s.nextId c).ends k w.taint (.after 4)))
      ∧ (env.det = true → exec (.coll b y) s = .next (({ s2 with
          launches := tabSet s.launches (s.launchKey w) { l with heldOps := l.heldOps ++ [s.nextId] } }).ends k w.taint (.after 4))))

/-! ### Waits, retries and events of warps -/

/-- The events that end a warp's wait, where it has come to its end (R22, R23, R117, R162, R182, R209, R216, R224, R306, R307, R403). -/
def Obligations.WaitsEnd : Prop :=
  ∀ (s : State) (k : Nat) (w : Warp) (n d off t : Nat) (q : Bool) (pc : DWord) (m : Mask) (ctx va : Nat) (kd : AccessKind),
    tabFind s.warps k = some w →
    let ready : Host.Outcome State Fault Refusal := .next (s.putWarp k { w with status := .ready })
    let resumes (w1 : Warp) : Host.Outcome State Fault Refusal :=
      .next (s.putWarp k ({ w1 with status := .ready }.finish (.after 4)))
    exec (.variableLatencyResult k n m) s = .next (s.putWarp k (w.arriveResult n m))
    ∧ (w.status = .waiting (.translation ctx va kd true) → exec (.instructionReplay k) s = ready)
    ∧ (w.status = .waiting (.sleep t) → t ≤ s.clock → exec (.sleepExpiry k) s = ready)
    ∧ (w.status = .ready → w.idleSince + s.clocksOf w.core 4096 ≤ s.clock →
      exec (.warpPromotion k) s = .next (s.putWarp k { w with promoted := true }))
    ∧ (w.status = .waiting (.backoff t) → t ≤ s.clock →
      ((∀ e ∈ s.tokenQueue, e.1 ≠ k) → exec (.backoffExpiry k) s = ready)
      ∧ ((∃ e ∈ s.tokenQueue, e.1 = k) → exec (.backoffExpiry k) s = .next (s.putWarp k { w with status := .waiting .token })))
    ∧ (s.mayReturn w = true →
      (w.status = .waiting (.await d n) → w.batchesDone (BitVec.ofNat 16 n) = true →
        exec (.awaitReturn k) s = resumes { w.setScal d w.statusAcc with statusAcc := 0 })
      ∧ (w.status = .waiting (.bwait d off q) → s.phaseReached w.team off q = true →
        exec (.bwaitReturn k) s = resumes (w.setScal d (BitVec.ofNat 64 (natOfBytes (s.shmBytes w.team (off + 8) 8)))))
      ∧ (w.status = .waiting (.tcopyY n pc) → (∀ b ∈ w.batches, b.number ≠ BitVec.ofNat 16 n) →
        exec (.tcopyYResume k) s = .next (s.putWarp k { w.drain with status := .ready, prev := none, pc := pc, marker := false })))

/-- An instruction that stalled, or waits for a grant, an entry, the end of grants or its turn, is issued anew from its start once the thing
it waits for has come, and does what it does when it issues (R185, R208, R218, R228, R254, R255, R257, R313, R369, R389, R417). -/
def Obligations.RetriesReissue : Prop :=
  (∀ (s : State) (k : Nat) (w : Warp) (i : Instr) (core q n x y pv pc : Nat) (b : Bool), tabFind s.warps k = some w →
     let again (i : Instr) : Host.Outcome State Fault Refusal := .next (s.issueBy k w 4 (redo i))
     let anew : Host.Outcome State Fault Refusal := .next ((s.translated w i).issueBy k (s.awaits w i) 4 (redo i))
     (w.status = .waiting (.retry i) → s.mayReturn w = true →
       (isSpawn i = true → exec (.spawnStallRetry k) s = anew)
       ∧ (isAfence i = true → exec (.afenceStallRetry k) s = anew)
       ∧ (isCopy i = true → exec (.tcopyStallRetry k) s = anew)
       ∧ (isMatrix i = true → exec (.matrixQueueStallRetry k) s = anew)
       ∧ (isLaunch i = true → exec (.launchStallRetry k) s = anew)
       ∧ (isColl i = true → exec (.collStallRetry k) s = anew))
     ∧ (w.status = .waiting (.append (.qappend x y) core q n) → s.firstRequest core q = some k → s.grantDue core q = true →
       exec (.qappendGrant core q) s = again (.qappend x y))
     ∧ (w.status = .waiting (.pop (.qpop x y pv pc)) → s.popDue w = true → exec (.qpopWake k) s = again (.qpop x y pv pc))
     ∧ (w.status = .waiting (.freeQueue q) → s.freeDue w = true → exec (.qdetOwnFree k) s = again (.qdetOwn q))
     ∧ (let o := slalomPhys (w.slalomOf (w.byIter w.openLanes))
        w.status = .waiting (.turn b) → o.fab = true ∨ (w.consecutive (s.slalomField o.pa 8) (w.byIter w.openLanes)).1 ≠ [] →
       exec (.txendoTurn k) s = .next (s.issueBy k w 4 txendo)))
  ∧ (∀ (s : State) (k : Nat) (w : Warp) (env : Env) (i : Instr), s.Runs k w env →
       (isSpawn i || isAfence i || isCopy i || isMatrix i || isLaunch i || isColl i || polls i) = true →
       exec i s = .next (s.issueBy k w 4 (redo i)))

/-- A walk that finds the page fills the translation caches and the accesses go on, one that does not reports its fault, and the control
processors set a clear access flag; an engine operation that is ready does what is left of it, leaves its queue, reports its status and
arrives once its remote writes are performed, and in a deterministic launch its writes are held for the meeting (R208, R210, R213, R222,
R243, R286, R288, R289, R338, R390). -/
def Obligations.TranslationsAndOperationsFinish : Prop :=
  (∀ (s : State) (core ctx va lv : Nat) (kd : AccessKind) (m : Missing) (e : DWord),
     (s.request? core ctx va kd = some m → s.walkDue m = true →
       let s1 := if (s.cached core ctx va).isSome then s else s.walkTouch (s.walkCacheOf core) ctx (va % 2 ^ 55)
       (s.lookup core ctx va kd = .ok (e, lv) →
         exec (.pageWalk core ctx va kd) s = .next ((s1.fillTlbs core ctx (va % 2 ^ 55) e lv).servicePage (sameCluster core) ctx va))
       ∧ (s.lookup core ctx va kd = .error (.notPresent, lv) → exec (.pageWalk core ctx va kd) s = .next (s1.report m 0 lv))
       ∧ (s.lookup core ctx va kd = .error (.permission, lv) →
         exec (.pageWalk core ctx va kd) s = .next ((s1.dropLeaf core ctx (va % 2 ^ 55)).report m 1 lv)))
     ∧ (s.flagDue ctx va = true →
       exec (.accessFlagService ctx va) s = .next ((s.setFlag ctx va).servicePage (fun _ => true) ctx va)
       ∧ ∀ a, s.clearFlag ctx va = some a → s.heldBack a 8 = false → s.setFlag ctx va = s.homeStore a (leBytes 8 (Nat.lor (s.entryAt a).toNat 32)) .normal))
  ∧ (∀ (s s1 : State) (id : Nat) (o : EngineOp) (w : Warp) (env : Env) (x : Work), tabFind s.ops id = some o → s.opReady id o = true →
       o.fault = none → o.done = false → tabFind s.warps o.warp = some w → s.env? w = some env → runOp id env o s = (s1, x, none) →
       let act := o.kind.queue == .act
       let ends (x : State) : Prop := (act = false → exec (.asyncOperationComplete id) s = .next x)
         ∧ (act = true → exec (.actldComplete id) s = .next x)
       let left := (s1.core o.core).setOpQueue (((s1.core o.core).opQueue o.kind.queue).filter (· != id)) o.kind.queue
       let errors := o.result env x
       let finished := (s1.publishOp o x).finishOp id env o errors
       (s1.opDeterministic o = true →
         ends { s1 with ops := tabSet s1.ops id { o with done := true, work := some x }, cores := tabSet s1.cores o.core left })
       ∧ (s1.opDeterministic o = false → s1.opOutstanding id = true → ends (s1.keepWork id x))
       ∧ (s1.opDeterministic o = false → s1.opOutstanding id = false → ends finished
         ∧ tabFind finished.warps o.warp = (tabFind s1.warps o.warp).map fun v => v.opDone id
             (match o.bar with
               | some b => if b % 16 = 0 ∧ b + 16 ≤ env.shm then errors else Nat.lor errors 128
               | none => errors)))

/-- `TX_TIMEOUT` dooms; `IRREVOCABILITY_TOKEN_GRANT` gives the token to the oldest request, whose warp goes on; in `COMMIT_PHASE_1` a home locks every write sector of a
lane or fails it, then validates, and in `COMMIT_PHASE_2` writes with the commit time, or makes the count of an ordered commit that had to wait; of the transactions of a warp
that meet, the one in the lower place commits, and no two that commit meet (R299, R301 to R303, R307, R313). That every home has locked before any validates is a reading of the
model (log entry 112), and that poison in a value that is compared aborts the launch, for which the statement asks that there be none, is another (log entry 27). -/
def Obligations.TransactionEvents : Prop :=
  (∀ (s : State) (k l : Nat) (w : Warp) (t : Tx), tabFind s.warps k = some w → w.tx? l = some t → t.irrevocable = false →
     t.doomed = none → w.commit = none → t.opened + 1048576 ≤ s.clock →
     exec (.txTimeout k l) s = .next (s.putWarp k (w.setLane l ((w.lane l).doom 10 0))))
  ∧ (∀ (s : State) (k l : Nat) (w : Warp) (r : List (Nat × Nat)), s.token = none → s.tokenQueue = (k, l) :: r → tabFind s.warps k = some w →
       let s1 : State := { s with token := some (k, l), tokenQueue := r }
       (w.status = .waiting .token → exec .irrevocabilityTokenGrant s = .next (s1.putWarp k { w with status := .ready }))
       ∧ (w.status ≠ .waiting .token → exec .irrevocabilityTokenGrant s = .next s1))
  ∧ (∀ (s : State) (k h : Nat) (w : Warp) (c : Commit), tabFind s.warps k = some w → w.commit = some c → h ∈ c.slices →
       let left := c.slices.filter (· != h)
       let next (lanes : List CommitLane) : Commit := { c with lanes := lanes, slices := left }
       let held (lanes : List CommitLane) : Warp := { w with commit := some (next lanes) }
       (c.phase = 0 →
         let p := s.phase1 k w h true c.lanes
         exec (.commitPhase1 k h) s = .next (if left = [] then p.1.beginValidation k (held p.2) (next p.2) else p.1.putWarp k (held p.2)))
       ∧ (c.phase = 1 → s.badRead w h c = none → s.quietSectors (w.sectorsAt (fun t => t.reads.map (·.sect)) h c.passing) = true →
         let p := s.phase1 k w h false c.lanes
         exec (.commitPhase1 k h) s = .next (if left = [] then p.1.beginPhase2 k (held p.2) (next p.2) else p.1.putWarp k (held p.2)))
       ∧ (c.phase = 2 → s.quietSectors (w.sectorsAt Tx.writeSet h c.passing) = true →
         let s1 := c.passing.foldl (fun s l => s.phase2Lane k w h c.time l) s
         exec (.commitPhase2 k h) s =
           .next (if left = [] then s1.closeCommit k (held c.lanes) (next c.lanes) else s1.putWarp k (held c.lanes)))
       ∧ (c.phase = 3 → exec (.commitPhase2 k h) s = .next (s.recount k w c)))
  ∧ (∀ (s : State) (k h l : Nat) (w : Warp) (t : Tx), w.tx? l = some t → t.irrevocable = false →
       let here := (t.writes.map (·.sect)).filter fun x => homeOf (x * 32) == h
       let r := s.lockLane k w h l
       (here.Nodup → (∀ x ∈ here, tabFind s.locks x = none) →
         r.2 = true ∧ (∀ x ∈ here, tabFind r.1.locks x = some ⟨k, l, false, 1⟩) ∧ ∀ x ∉ here, tabFind r.1.locks x = tabFind s.locks x)
       ∧ (∀ x ∈ here, tabFind s.locks x ≠ none → r = (s, false)))
  ∧ (∀ (w : Warp) (ls : List Nat),
       let r := intraWarp w ls [] []
       (∀ l ∈ ls, l ∈ r.1 ∨ l ∈ r.2) ∧ (∀ l ∈ r.1, l ∈ ls) ∧ (∀ l ∈ r.2, l ∈ ls ∧ ∃ m ∈ r.1, w.laneMeets l m = true)
       ∧ r.1.Pairwise fun a b => w.laneMeets b a = false)

/-! ### Teams, cores and the dispatcher -/

/-- Spawn bins expire and sealed warps start, barriers release, warps retire with their team, and pre-emption saves or ends a team, where each is due
(R39, R42, R115, R174, R186 to R189, R205, R268, R371). -/
def Obligations.TeamEvents : Prop :=
  ∀ (s : State) (k t i n core : Nat) (w : Warp) (tm : Team) (x : Launch) (b : SpawnBin),
    let c := s.core core
    let goes (s1 : State) : Host.Outcome State Fault Refusal := .next s1
    (c.bins[n]? = some b → s.timerDue core b = true →
      (c.sealed.length < 16 → exec (.spawnTimerExpiry core n) s =
        goes { s with cores := tabSet s.cores core { c with bins := dropAt n c.bins, sealed := c.sealed ++ [b] } })
      ∧ (16 ≤ c.sealed.length → exec (.spawnTimerExpiry core n) s =
        goes { s with cores := tabSet s.cores core { c with bins := setNth c.bins n { b with expired := true } } }))
    ∧ (s.startable core = some i → c.sealed[i]? = some b →
      let threads : List NewThread := b.threads.map fun t => ⟨t.args, t.iter⟩
      exec (.spawnedWarpStart core) s = goes (({ s with cores := tabSet s.cores core { c with sealed := dropAt i c.sealed } }).startWarp
        b.team b.entry b.slalom threads))
    ∧ (tabFind s.warps k = some w → w.status = .retired → s.settled k w = true → s.retireTurn w = true →
      exec (.warpRetire k) s = goes (s.releaseWarp k w))
    ∧ (tabFind s.teams t = some tm → tabFind s.launches tm.launch = some x →
      (x.quantum = 0 → s.barDue t tm = true → exec (.barRelease t) s =
        goes (({ s with teams := tabSet s.teams t { tm with barArrived := [] } }).releaseWarps tm.barArrived))
      ∧ (x.quantum = 0 → s.cbarDue tm.launch n = true →
        exec (.cbarRelease tm.launch n) s = goes (s.releaseCbar tm.launch x.clusterSize n))
      ∧ (s.saveDue t = true → exec (.teamSave t) s =
        goes (((s.clusterTeams tm.launch x.clusterSize (tm.flat / x.clusterSize)).map (·.1)).foldl (fun s t => s.saveTeam x t) s)))
    ∧ (s.overrunDue t = some (k, w) → exec (.preemptionOverrun t) s = goes (s.abortLaunch w 0x12 false false false w.pc 0 w.active))
    ∧ (s.splitDue core = true →
      let s1 := s.flushL1 core
      let c1 : Core := { s1.core core with split := (s1.core core).next, draining := false, next := none }
      ((s1.core core).l1 = [] → exec (.coreSplitChange core) s = goes { s1 with cores := tabSet s1.cores core c1 })
      ∧ ((s1.core core).l1 ≠ [] → exec (.coreSplitChange core) s = goes s1))

/-- A warp starts as the spec says: its arguments, its stack pointer, the reset mode, its segment, no divergence, and zero in every register that takes no input
(R19, R150, R151, R178, R187). -/
def Obligations.WarpStartState : Prop :=
  ∀ (s : State) (t : Nat) (entry : DWord) (sl : Option DWord) (ths : List NewThread) (tm : Team) (x : Launch) (seg : Nat) (w : Warp),
    tabFind s.teams t = some tm → tabFind s.launches tm.launch = some x → s.freeSegment x [] = some seg →
    tabFind (s.startWarp t entry sl ths).warps s.nextId = some w →
    w.pc = entry ∧ w.mode = 0x004F ∧ w.live = allLanes (min ths.length x.width) ∧ w.active = w.live ∧ w.stack = [] ∧ w.meld = none
    ∧ w.width = x.width ∧ w.team = t ∧ w.core = tm.core ∧ w.status = .ready ∧ w.fpctl = 0 ∧ w.repc = 0 ∧ w.handler = none
    ∧ w.segment = BitVec.ofNat 64 seg
    ∧ (∀ i, i < 8 → w.scal i = x.argScalar i) ∧ w.scal 31 = BitVec.ofNat 64 ((s.context x.ctx).winBase + x.privSize)
    ∧ (∀ i, 8 ≤ i → i < 31 → w.scal i = 0) ∧ (∀ i, w.pred i = 0)
    ∧ ∀ l, l < x.width → (w.lane l).tx = none ∧ (w.lane l).parked = none
      ∧ (∀ th, ths[l]? = some th → (w.lane l).v = firstRegs th.regs ∧ (w.lane l).iter = th.iter)
      ∧ (ths[l]? = none → (w.lane l).v = [])

/-! ### Coherence and reliability -/

/-- A home serves the next request for a line that is not busy by the state of the line; a request for a line that is not resident waits for its fill, and one for a busy
line waits (R271 to R273, R276, R278, R279, Table 13.2). -/
def Obligations.HomeServesRequests : Prop :=
  ∀ (s : State) (core line o : Nat) (mask : BitVec 128) (m : Msg) (r : L2Line),
    let d := s.dir line
    let s0 := s.l2Access line m.cls m.na false
    let s1 := s0.take m
    let data (s2 : State) (b : BitVec 128) (flag : Bool) : Host.Outcome State Fault Refusal :=
      .next (s2.send { mkMsg .data core line b m.cls with flag := flag, targets := m.targets, vers := s2.lineVers line })
    let first (kind : MsgKind) : Prop := s.nextRequest line (fun n => n.kind == kind && n.core == core) = some m
    let asked (kind : MsgKind) : Prop := first kind ∧ s.idleLine line = true ∧ tabFind s.l2 line = some r
    let goes (s2 : State) : Host.Outcome State Fault Refusal := .next s2
    let others := d.copies.filter (· != core)
    let d1 := d.countUpgrade s0.clock
    (first .gets → s.idleLine line = false → exec (.gets core line) s = goes s)
    ∧ (first .gets → s.idleLine line = true → tabFind s.l2 line = none → m.na = false → exec (.gets core line) s = goes (s.awaitFill m))
    ∧ (asked .gets → m.flag = false →
      (d.st = .i → exec (.gets core line) s = data ((s0.setDir line { d.toI with st := .s, sharers := [core] }).take m) 0 false)
      ∧ (d.st = .s → exec (.gets core line) s = data ((s0.setDir line (d.addSharer core)).take m) 0 false)
      ∧ (d.st = .m → exec (.gets core line) s = goes (s1.await line d .recallS d.sharers (.data core)))
      ∧ (d.st = .p → m.mask &&& d.otherMask core = 0 → exec (.gets core line) s = data s1 m.mask true)
      ∧ (d.st = .p → m.mask &&& d.otherMask core ≠ 0 → exec (.gets core line) s = goes (s0.merge line d true)))
    ∧ (asked .gets → m.flag = true →
      (d.st = .i ∨ d.st = .s → exec (.gets core line) s = data s1 m.mask true)
      ∧ (d.st = .m → exec (.gets core line) s = goes (s0.await line d .recallS d.sharers .toS)))
    ∧ (asked .getm →
      (d.st = .i → exec (.getm core line) s = goes (s1.grantM line d .datam core))
      ∧ (d.st = .s → others = [] → exec (.getm core line) s = goes (s1.grantM line d .datam core))
      ∧ (d.st = .s → others ≠ [] → exec (.getm core line) s = goes (s1.await line d1 .inv others (.datam core)))
      ∧ (d.st = .m → d.sharers = [o] → o ≠ core →
        let written := ((s0.l1Line o line).map (·.mask)).getD 0
        (d1.contended = false ∨ m.mask &&& written ≠ 0 → exec (.getm core line) s = goes (s1.await line d1 .recallI [o] (.datam core)))
        ∧ (d1.contended = true → m.mask &&& written = 0 →
          exec (.getm core line) s = goes (s1.await line d1 .recallP [o] (.privatise core m.mask))))
      ∧ (d.st = .p → d.holds core = false → m.mask &&& d.otherMask core = 0 → d.holders.length < 4 → exec (.getm core line) s =
        goes ((s1.setDir line { d1 with holders := d1.holders ++ [(core, m.mask)] }).grant .datam core line m.mask true m.cls)))
    ∧ (asked .upg → d.st = .s → d.isSharer core = true →
      (others = [] → exec (.upg core line) s = goes (s1.grantM line d .upgack core))
      ∧ (others ≠ [] → exec (.upg core line) s = goes (s1.await line d1 .inv others (.upgack core))))
    ∧ (asked .maskExt → m.mask = mask → d.st = .p → d.holds core = true → mask &&& d.otherMask core = 0 →
      exec (.maskExtension core line mask) s = goes ((s1.setDir line { d with
        holders := d.holders.map fun h => if h.1 = core then (core, h.2 ||| mask) else h }).grant .upgack core line mask true m.cls))
    ∧ (first .putm → s.idleLine line = true →
      (d.st = .m → d.sharers = [core] → exec (.putm core line) s =
        goes ((((s.freshenMask line m.mask).setDir line d.toI).take m).send (mkMsg .putack core line 0 .normal)))
      ∧ (d.st ≠ .m ∨ d.sharers ≠ [core] → exec (.putm core line) s = goes ((s.take m).send (mkMsg .putack core line 0 .normal))))
    ∧ (first .putmm → s.idleLine line = true → d.st = .p → d.holds core = true →
      let left := d.holders.filter fun h => h.1 != core
      exec (.putmm core line) s = goes (((s.freshenMask line m.mask).take m).setDir line (if left = [] then d.toI else { d with holders := left })))
    ∧ (s.nextRequest line (fun n => n.kind == .homeWrite && n.mask == mask) = some m → s.idleLine line = true →
      (∀ w ∈ m.data, s.lockFor w.warp w.pa = none) →
      let away := d.copies.filter fun c => !m.targets.contains c
      (d.st = .i ∨ d.st = .s ∧ away = [] → m.data ≠ [] → tabFind s.l2 line = some r →
        exec (.homeWrite line mask) s = goes (((s.l2Access line m.cls m.na true).writeStores m.data).pushLine m d))
      ∧ (d.st = .s → away ≠ [] → exec (.homeWrite line mask) s =
        goes (s.await line (d.only (d.copies.filter m.targets.contains)) .inv away (if d.copies.any m.targets.contains then .toS else .toI)))
      ∧ (d.st = .m → exec (.homeWrite line mask) s = goes (s.await line d .recallI d.sharers .toI)))

/-- Acknowledgements at a home are counted off, and the last one carries out what the line waited for; a fill enters a set that has room; a
push is installed or refused by the receiving L1, and its acknowledgement is counted off at the home and by the warp that pushed, whose
`%gref` counts refusals (R263 to R267, R271 to R273, R279, Table 12.5). -/
def Obligations.HomeFinishesAndPushes : Prop :=
  (∀ (s : State) (core line : Nat) (m : Msg) (a : HomeAction) (f : MscFill),
     let d := s.dir line
     let d1 : DirEntry := { d with awaiting := d.awaiting.filter (· != core) }
     let s1 := (s.take m).freshenMask line m.mask
     (s.message? .ack core line = some m →
       (d.action = none → exec (.protocolAck core line) s = .next s1)
       ∧ (d.action = some a → d1.awaiting = [] → exec (.protocolAck core line) s = .next (s1.homeAct line d1 a m.mask))
       ∧ (d.action = some a → d1.awaiting ≠ [] → exec (.protocolAck core line) s = .next (s1.setDir line d1)))
     ∧ (s.mscFills.find? (fun e => e.line == line) = some f → s.l2Victim line = none →
       exec (.mscFill line none) s = .next (s.fillL2 f)
       ∧ (∀ r, tabFind (s.fillL2 f).l2 line = some r → tabFind s.l2 line = none →
         r.vers = List.replicate 4 (s.slice (homeOf (line * 128))).floor)))
  ∧ (∀ (s : State) (core line : Nat) (room : Bool) (m : Msg) (w : Warp) (x : L1Line),
       let r := (s.take m).receivePush m room
       let d1 : DirEntry := if m.flag then { (s.dir line).addSharer core with st := .s } else (s.dir line).dropSharer core
       let left := d1.awaiting.filter (· != core)
       let d2 : DirEntry := { d1 with awaiting := left, action := if left = [] then none else d1.action }
       (s.message? .push core line = some m →
         exec (.push core line room) s = .next { r.1 with net := r.1.net ++ [{ m with kind := .pushAck, flag := r.2 }] })
       ∧ (s.message? .pushAck core line = some m → tabFind s.warps m.warp = some w →
         exec (.pushAck core line) s = .next (((s.take m).setDir line d2).putWarp m.warp (w.pushDone line m.flag)))
       ∧ (w.pushDone line m.flag).gref = (if m.flag then w.gref else w.gref + 1)
       ∧ (s.hasTeamOf m.core m.ctx = false → s.receivePush m room = (s.refusePush m.core m.line, false))
       ∧ (s.hasTeamOf m.core m.ctx = true → s.l1Line m.core m.line = some x →
         (x.st = .is → s.receivePush m room = ((s.satisfyGets m.core m.line).installS m.core m.line x m.vers, true))
         ∧ (x.st = .s → s.receivePush m room = (s.setL1 m.core m.line { x with vers := m.vers, used := s.recent }, true))
         ∧ (x.st ≠ .is → x.st ≠ .s → s.receivePush m room = (s, false)))
       ∧ (s.hasTeamOf m.core m.ctx = true → s.l1Line m.core m.line = none →
         (s.hasGets m.core m.line = true → s.receivePush m room = (s.satisfyGets m.core m.line, true))
         ∧ (s.hasGets m.core m.line = false → s.pushQuota m.core ≤ s.untouched m.core ∨ room = false → s.receivePush m room = (s, false))
         ∧ (s.hasGets m.core m.line = false → s.untouched m.core < s.pushQuota m.core → room = true →
           s.receivePush m room = ((s.roomL1 m.core m.line).setL1 m.core m.line ⟨.s, 0, 0, [], m.vers, true, s.recent, .normal⟩, true))))

/-- An L1 acts on the messages about its copies by the state of the copy, and a grant performs the stores that wait for it (R278, R280, Table 13.1). That a recall which has
overtaken the grant of the copy waits for it is the model's reading (log entry 34): Table 13.1 has no row for a recall in IM or SM. -/
def Obligations.L1Messages : Prop :=
  ∀ (s : State) (core line : Nat) (m : Msg) (x : L1Line),
    let s1 := s.take m
    let at1 (st : L1State) : Prop := s.l1Line core line = some x ∧ x.st = st
    let sent (kind : MsgKind) : Prop := s.message? kind core line = some m
    let still : Prop := s.granting core line = false ∧ ∀ n ∈ s1.net ++ s1.arrived, n.kind = .putmm → n.core = core → n.line ≠ line
    let goes (s2 : State) : Host.Outcome State Fault Refusal := .next s2
    let acked (s2 : State) (mask : BitVec 128) : Host.Outcome State Fault Refusal := .next (s2.acknowledge core line mask)
    (sent .data → m.targets ≠ [] → s.l1Line core line = some x → exec (.data core line) s = goes s1)
    ∧ (sent .data → m.targets = [] →
      (at1 .is → m.flag = false → x.waiting = [] →
        exec (.data core line) s = goes (s1.setL1 core line { x with st := .s, mask := 0, want := 0, vers := m.vers }))
      ∧ (at1 .is → m.flag = false → x.waiting ≠ [] →
        exec (.data core line) s = goes ((s1.setL1 core line { x with st := .sm, mask := 0, want := 0, vers := m.vers, untouched := false }).send
          (mkMsg .upg core line (storeMask x.waiting) x.cls)))
      ∧ (at1 .is → m.flag = true → x.waiting = [] → exec (.data core line) s = goes (s1.dropL1 core line))
      ∧ (at1 .isI → x.waiting = [] → x.want = 0 → exec (.data core line) s = goes (s1.dropL1 core line)))
    ∧ (sent .datam → at1 .im ∨ at1 .sm ∨ at1 .mmWait → exec (.datam core line) s = goes (s1.performStores core line { x with
        st := if m.flag then .mm else .m, mask := m.mask, want := 0, vers := m.vers, untouched := false }))
    ∧ (sent .upgack →
      (at1 .sm → exec (.upgack core line) s = goes (s1.performStores core line { x with st := .m, mask := 0, want := 0 }))
      ∧ (at1 .mmWait → exec (.upgack core line) s = goes (s1.performStores core line { x with st := .mm, mask := x.mask ||| m.mask, want := 0 })))
    ∧ (sent .putack → at1 .mi → x.waiting = [] → x.want = 0 → exec (.putack core line) s = goes (s1.dropL1 core line))
    ∧ (sent .inv →
      (at1 .s → exec (.inv core line) s = acked (s1.dropL1 core line) 0)
      ∧ (at1 .is → exec (.inv core line) s = acked (s1.setL1 core line { x with st := .isI, want := 0 }) 0)
      ∧ (at1 .sm → exec (.inv core line) s = acked (s1.setL1 core line { x with st := .im }) 0)
      ∧ (s.l1Line core line = none → exec (.inv core line) s = acked s1 0))
    ∧ (s.granting core line = true → exec (.recallS core line) s = goes s ∧ exec (.recallI core line) s = goes s
      ∧ exec (.recallP core line) s = goes s ∧ exec (.mergeRecall core line) s = goes s)
    ∧ (still → sent .recallS → at1 .m → x.waiting = [] →
      exec (.recallS core line) s = acked (s1.setL1 core line { x with st := .s, mask := 0 }) x.mask)
    ∧ (still → sent .recallI → at1 .m → x.waiting = [] → exec (.recallI core line) s = acked (s1.dropL1 core line) x.mask)
    ∧ (still → sent .recallP → at1 .m → exec (.recallP core line) s = acked (s1.setL1 core line { x with st := .mm }) x.mask)
    ∧ (still → sent .mergeRecall →
      (at1 .mm → x.waiting = [] → exec (.mergeRecall core line) s = acked (s1.dropL1 core line) x.mask)
      ∧ (at1 .mmWait → exec (.mergeRecall core line) s =
        acked (s1.setL1 core line { x with st := if x.waiting = [] then .is else .im, mask := 0 }) x.mask))

/-- Errors, power and resets: a corrected error is recorded, one of a port's link as a fabric event, an uncorrectable one poisons a word or a line or stops the streams that it affects, the power manager
steps one island, the package boots once its image is verified, and a warm reset keeps only the event rings, the boot state, the images and the decode tables (R283, R291, R398 to R405, R421).
The model's own choices among its clauses: the numbers of the unit kinds and what is poisoned (log entry 93), one island step for each measurement and which island (95), that
FIRMWARE_HALT only freezes the rings (96), what the two resets keep beside the rings (97), the input of a corrected error (123), the code 6 of the fabric event (90), and the step that verifies the image (124). -/
def Obligations.ReliabilityEvents : Prop :=
  ∀ (s : State) (die other n pa t off i ctx core : Nat) (tm : Team) (r : PowerReading),
    let goes (s1 : State) : Host.Outcome State Fault Refusal := .next s1
    let fresh : State := { State.reset with
      rings := s.rings, frozen := s.frozen, flash := s.flash, boot := s.boot, image := s.image, decodeTables := s.decodeTables, tick := s.tick
      agenda := s.agenda }
    let image := s.flash.getD Config.flashImage
    (n < 16 → exec (.flitCrcError die n) s = goes (s.record die 3 0xFF 0xFFFF 1 0 die)
      ∧ exec (.crossbarParityError die n) s = goes (s.record (die / 16) 3 0xFF 0xFFFF 3 0 die))
    ∧ (16 ≤ n → exec (.flitCrcError die n) s = goes (s.uncontained [die] 1 die)
      ∧ exec (.crossbarParityError die n) s = goes (s.uncontained [die / 16] 3 die))
    ∧ exec (.ucieReplay die other true) s = goes (s.record die 3 0xFF 0xFFFF 2 0 other)
    ∧ exec (.ucieReplay die other false) s = goes (s.uncontained [die, other] 2 other)
    ∧ exec (.uncorrectableError (.corrected die ctx core n)) s = goes (s.record die 5 ctx core 0 0 n)
    ∧ (n < 8 → exec (.uncorrectableError (.fec n)) s = goes (s.fabricEvent (if n < 4 then 8 else 9) 6 n))
    ∧ (pa < 2 ^ 40 → exec (.uncorrectableError (.memory pa)) s =
        goes ({ s with poison := addPoison s.poison pa 1 }.record (homeOf pa / 192) 9 0xFF 0xFFFF 0 0 pa)
      ∧ exec (.uncorrectableError (.l2Data pa)) s =
        goes ({ s with poison := addPoison s.poison (pa / 128 * 128) 128 }.record (homeOf pa / 192) 9 0xFF 0xFFFF 0 0 pa))
    ∧ (tabFind s.teams t = some tm → exec (.uncorrectableError (.shared t off)) s =
      goes ((s.poisonShm t off 1).record (tm.core / 128) 9 0xFF tm.core 0 0 off))
    ∧ exec (.uncorrectableError (.unit die other n)) s = goes (s.uncontained [die] other n)
    ∧ exec (.firmwareHalt die) s = goes { s with frozen := true }
    ∧ (2800 < r.watts →
      (s.islandDown (fun _ => true) = some i → exec (.powerMeasurement r) s = goes (s.setIsland i (s.frequency i - 50)))
      ∧ (s.islandDown (fun _ => true) = none → exec (.powerMeasurement r) s = goes s))
    ∧ (r.watts ≤ 2800 → r.hotDies = [die] → die < 10 → s.islandDown (fun j => decide (j / 64 = die) || decide (8 ≤ die)) = some i →
      exec (.powerMeasurement r) s = goes (s.setIsland i (s.frequency i - 50)))
    ∧ (r.watts ≤ 2800 → r.hotDies = [] → s.islandUp = some i →
      exec (.powerMeasurement r) s = goes (s.setIsland i (s.frequency i + 50)))
    ∧ (s.boot = .off → exec .powerUp s = goes { s with boot := .verifying })
    ∧ (Config.verifies image Config.fusedKeyHash = true → s.bootUp =
      { s.clearTables with boot := .running, image := some image, decodeTables := Config.decodeTables image })
    ∧ (Config.verifies image Config.fusedKeyHash = false → s.bootUp = { s with boot := .limited, image := some image })
    ∧ (s.boot = .limited → exec .warmReset s = goes fresh)
    ∧ (s.boot = .running → exec .warmReset s = goes fresh.clearTables)
    ∧ exec .coldReset s = goes { State.reset with flash := s.flash, boot := .verifying, tick := s.tick, agenda := s.agenda }

/-! ### The front end, management and the fabric -/

/-- The head packet of the stream whose turn it is starts and does what its KIND says, and a COPY takes up where it stands. A KERNEL begins the launch that its packet, descriptor and
argument block make, under the next number, or is refused with status 2 where they make none; a WINDOW is created within the limits of its context and of every slice, or
destroyed, and its lines then take class normal; an INVALIDATE removes the translations of its range and completes once the accesses that used them are performed; a COPY leaves the
head to move its bytes; and each of these is refused with status 2 where its fields break the rules (R290, R352, R358 to R365, R367, R370, R392). That a WINDOW packet with an OP
that does not exist is refused by `WINDOW_CREATE` is the model's choice (log entry 75), and so is the ring, that of die 8, that takes the front end's records (log entry 87). -/
def Obligations.PacketsStart : Prop :=
  ∀ (s s0 : State) (q id n m wid base len : Nat) (h : Head) (c : Child) (x y : Launch) (cores : List Nat) (pk db args : List Byte) (pin : Bool) (win : Window),
    let s1 := s.served q
    let p := h.packet
    let ctx := (s.stream q).ctx
    let refused (s2 : State) : State := s2.endHead q p 2
    let at1 (kind : Nat) : Prop := s.nextAction = some (q, .start) ∧ s.headOf q kind = some h
    let goes (s2 : State) : Host.Outcome State Fault Refusal := .next s2
    let fresh := (s.savedClusters id x.clusterSize).isEmpty
    (at1 1 → exec (.kernel q) s = goes (s1.startKernel q h))
    ∧ (at1 2 → exec (.wait q) s = goes (s1.startWait q h))
    ∧ (at1 3 → exec (.signal q) s = goes (s1.startSignal q h))
    ∧ (at1 4 → fieldAt h.packet 2 1 ≠ 2 → exec (.windowCreate q) s = goes (s1.startWindowCreate q h))
    ∧ (at1 4 → fieldAt h.packet 2 1 = 2 → exec (.windowDestroy q) s = goes (s1.startWindowDestroy q h))
    ∧ (at1 5 → exec (.invalidate q) s = goes (s1.startInvalidate q h))
    ∧ (at1 6 → exec (.copy q) s = goes (s1.startCopy q h))
    ∧ (let number := s0.nextLaunch
       let begun := ({ s0 with nextLaunch := number + 1 }).record 8 6 ctx 0xFFFF 0 number (fieldAt p 8 8)
       s.launchReads ctx (fetchTag 1 q) p = .ok (s0, db, args) →
       (s0.makeLaunch q ctx 1 none p db args = some y →
         y.number = number ∧ y.ctx = ctx ∧ y.depth = 1 ∧ y.queue = q ∧ y.packet = p ∧ y.args = args ∧ y.desc = KernelDesc.ofBytes db ∧ y.dispatched = 0
         ∧ y.status = .running ∧ y.parent = none ∧ kernelFieldsOk p = true ∧ fieldAt p 1 1 &&& 0xF8 = 0
         ∧ y.desc.ok (s0.unitsAt ctx y.desc.code) (if bit (fieldAt p 1 1) 1 then 32 else 64) = true
         ∧ let s2 : State := { begun with nextId := begun.nextId + 1, launches := tabSet begun.launches begun.nextId y }
           s.startKernel q h = s2.putStream q { s2.stream q with current := some { h with started := some begun.nextId } })
       ∧ (s0.makeLaunch q ctx 1 none p db args = none → s.startKernel q h =
         ((begun.record 8 7 ctx 0xFFFF 2 number 0).fireEvent (some (q, (s.stream q).head)) ctx (fieldAt p 0x30 8) 2 (fieldAt p 0 1) 1).leaveHead q []))
    ∧ (windowFieldsOk p = false ∨ fieldAt p 2 1 ≠ 1 → s.startWindowCreate q h = refused s)
    ∧ (windowFieldsOk p = true → fieldAt p 2 1 = 1 → fieldAt p 0x10 8 ≤ 2 ^ 40 →
      let s2 := s.setFlags ctx (fieldAt p 8 8) (fieldAt p 0x10 8)
      let made := s2.newWindow ctx (fieldAt p 3 1) (fieldAt p 4 1 == 0) (fieldAt p 8 8) (fieldAt p 0x10 8)
      s2.flagsHeld ctx (fieldAt p 8 8) (fieldAt p 0x10 8) = false →
      (made = some win → s.startWindowCreate q h = ({ s2 with windows := tabSet s2.windows (fieldAt p 3 1) win }.countPinned ctx).endHead q p 0)
      ∧ (made = none → s.startWindowCreate q h = refused s2))
    ∧ (s.newWindow ctx wid pin base len = some win →
      wid < 64 ∧ tabFind s.windows wid = none ∧ base % 65536 = 0 ∧ len ≠ 0 ∧ len % 65536 = 0
      ∧ win.ctx = ctx ∧ win.base = base ∧ win.length = len ∧ win.pin = pin ∧ s.pinnedBy ctx + win.charge ≤ (s.context ctx).pinLim
      ∧ ∀ t, t < 16 → s.windows.foldl (fun a e => a + e.2.share t) (win.share t) ≤ 768 * 1048576)
    ∧ (tabFind s.windows (fieldAt p 3 1) = some win → windowFieldsOk p = true → win.ctx = ctx →
      s.startWindowDestroy q h = (s.dropWindow (fieldAt p 3 1) win).endHead q p 0)
    ∧ (tabFind s.windows (fieldAt p 3 1) = none ∨ windowFieldsOk p = false → s.startWindowDestroy q h = refused s)
    ∧ (tabFind s.windows (fieldAt p 3 1) = some win → win.ctx ≠ ctx → s.startWindowDestroy q h = refused s)
    ∧ (∀ e ∈ (s.dropWindow wid win).msc, win.frames.contains (e.1 / 512) = true → e.2.cls = .cls .normal)
    ∧ (let range := invalidateRange p
       let legal : Prop := restZero p [(0, 2), (8, 16), (0x30, 8)] = true ∧ (fieldAt p 0x10 8 = 0 ∨ rangeCanonical (fieldAt p 8 8) (fieldAt p 0x10 8) = true)
       let gone := s.invalidate ctx range
       (¬ legal → s.startInvalidate q h = refused s)
       ∧ (legal → gone.accessesDone ctx s.clock range = true → s.startInvalidate q h = gone.endHead q p 0)
       ∧ (legal → gone.accessesDone ctx s.clock range = false →
         s.startInvalidate q h = gone.leaveHead q [.invalidate (s.stream q).head p s.clock]))
    ∧ (∀ core, ∀ e ∈ ((s.invalidate id none).core core).tlb, e.ctx ≠ id)
    ∧ (copyFieldsOk p = true → s.startCopy q h = s.leaveHead q [.copy (s.stream q).head p 0 none])
    ∧ (copyFieldsOk p = false → s.startCopy q h = refused s)
    ∧ (s.nextAction = some (q, .child) → s.firstChild q = some c → exec (.childGridStart q) s = goes (s1.startChild c))
    ∧ (s.nextAction = some (q, .team id n cores) → tabFind s.launches id = some x → exec (.teamDispatch q) s =
      goes ((s1.placeCluster id x n cores).countDispatch id (if fresh then x.clusterSize else 0)))
    ∧ (s.nextAction = some (q, .wave id) → tabFind s.launches id = some x → ∀ s2, s1.placeWave id x = .ok s2 →
      let ns := s.waveClusters id x
      (fresh = true → exec (.waveStart id) s = goes ((s2.noteWave id ns).countDispatch id (ns.length * x.clusterSize)))
      ∧ (fresh = false → exec (.waveStart id) s = goes (((s2.noteWave id ns).countDispatch id 0).spawnAll id false)))
    ∧ ((s.stream q).copying = some (n, pk, m, none) →
      let tag := copyTag q n
      ∀ s2 k, s.copyRun (s.stream q).ctx tag pk (fieldAt pk 0x18 8 + 1) m = (s2, k, none) → fieldAt pk 0x18 8 ≤ k →
        s2.tagsOut tag (2 ^ 64) = false →
        exec (.copyComplete q) s =
          goes ((s2.dropTags tag (2 ^ 64)).endPacket q n pk (if s2.tagsLost tag (2 ^ 64) then 4 else 0) fun i => i.isCopy n))

/-- A legal SIGNAL begins its event, a WAIT whose events have come completes, and a packet that leaves the head advances HEAD by one; a
completion event writes STATUS and KIND at its second word and adds to VALUE at its first, and a misaligned one is skipped and recorded
(R356, R362, R363). That the completion of a WAIT drops the read-only copies of its context is the model's reading (log entry 72), and so is the ring, that of die 8, that takes the
record (log entry 87). -/
def Obligations.PacketsComplete : Prop :=
  (∀ (s : State) (q : Nat) (h : Head),
     let ctx := (s.stream q).ctx
     let s0 := (waitEvents h.packet).foldl (fun s e => s.setFlags ctx e.1 8) s
     (restZero h.packet [(0, 2), (8, 16)] = true →
       s.startSignal q h = (s.signal (some (q, (s.stream q).head)) ctx (some (fieldAt h.packet 8 8)) 0 3 (fieldAt h.packet 0x10 8) none).leaveHead q [])
     ∧ ((∀ e ∈ waitEvents h.packet, s0.flagsHeld ctx e.1 8 = false) →
       (s0.waitBad ctx h.packet = true → s.startWait q h = s0.leaveHead q [])
       ∧ (s0.waitBad ctx h.packet = false → s0.waitHolds q ctx h.packet = true →
         s.startWait q h = (s0.dropCopies ctx fun _ => true).leaveHead q [])
       ∧ (s0.waitBad ctx h.packet = false → s0.waitHolds q ctx h.packet = false →
         (s.startWait q h).watched = s0.watched ++ watchWords ctx h.packet))
     ∧ ∀ fl, ((s.leaveHead q fl).stream q).head = (s.stream q).head + 1)
  ∧ (∀ (s : State) (g : Signal) (va : Nat) (s1 : State) (p : Phys), g.va = some va → s.tagsOut (signalTag g.id) 1 = false →
       let s0 := s.setFlags g.ctx va 8
       (g.stage = .status →
         (va % 16 ≠ 0 → s.stepSignal g = some (s.record 8 8 g.ctx 0xFFFF g.code 0 va, .done))
         ∧ (va % 16 = 0 → s.frontWrite g.ctx (signalTag g.id) (va + 8) (leBytes 8 (g.code + g.kind * 256)) = .ok s1 →
           s.stepSignal g = some (s1, .value)))
       ∧ (g.stage = .value → s0.flagsHeld g.ctx va 8 = false → s0.translateFront g.ctx va .readWrite = some p → p.fab = false → s0.heldBack p.pa 8 = false →
         isPoisoned s0.poison p.pa 8 = false →
         s.stepSignal g = some (s0.homeStore p.pa (leBytes 8 (natOfBytes (s0.bytesAt p.pa 8) + g.add)) .normal, .done))
       ∧ (g.stage = .value → s0.flagsHeld g.ctx va 8 = false → s0.translateFront g.ctx va .readWrite = some p → p.fab = true → s0.lostPeer p.pkg = false →
         s.stepSignal g = some (s0.request p.pkg (.atomic .add .n64 p.pa g.add 0) .front (signalTag g.id) va, .done)))

/-- The events of streams and grids: a bad head halts its stream, and a TAIL beyond the ring any enabled one, monitors notice TAIL and event words, streams age, and a grid completes
with its fault record, its event and the end of its packet (R357, R359, R362, R366, R370). That the ring of die 8 takes the record of the completion is the model's choice (log
entry 87). -/
def Obligations.StreamEvents : Prop :=
  ∀ (s : State) (q e v id ctx va : Nat) (x : Launch),
    let goes (s1 : State) : Host.Outcome State Fault Refusal := .next s1
    (s.streamOpen (s.stream q) = true → s.headError q = some e →
      exec (.streamHalt q) s = goes (s.putStream q { s.stream q with halted := true, errcode := e }))
    ∧ ((s.stream q).enabled = true → (s.stream q).halted = false → (s.stream q).size < (s.stream q).tail - (s.stream q).head →
      exec (.streamHalt q) s = goes (s.putStream q { s.stream q with halted := true, errcode := 3 }))
    ∧ ((tabFind s.queues q).isSome = true → s.tailWord q = v → (s.stream q).tail ≠ v →
      exec (.addressMonitorWrite (.tail q v)) s = goes ((s.putStream q { s.stream q with tail := v }).loadHead q))
    ∧ ((ctx, va) ∈ s.watched.take 4096 →
      exec (.addressMonitorWrite (.event ctx va)) s = goes (s.endWaits (s.waitsDone (· == (ctx, va)))))
    ∧ exec .monitorPoll s = goes (s.endWaits (s.waitsDone fun w => (s.watched.drop 4096).contains w))
    ∧ (s.agingDue q = true → exec (.streamAging q) s = goes (s.putStream q { s.stream q with raised := true }))
    ∧ (tabFind s.launches id = some x → s.gridDone id x = true → x.field 0x30 8 = va →
      let out := x.record.bind fun r => if x.field 0x38 8 = 0 then none else some (x.field 0x38 8, r.bytes)
      let told := if va = 0 ∧ out = none then s
        else s.signal (s.launchSource id x) x.ctx (if va = 0 then none else some va) x.code 1 1 out
      let s1 := told.record 8 7 x.ctx 0xFFFF x.code x.number 0
      let s2 : State := { s1.keepPages x with launches := tabDel s1.launches id }
      let held := ((s2.stream x.queue).current.bind (·.started)) == some id && x.parent.isNone
      exec (.gridComplete id) s = goes ((if held then s2.leaveHead x.queue [] else s2).endFlight x.queue fun i => i.isLaunch id))

/-- Deterministic launches: a warp that has used its quantum waits for the meeting, an instruction that ends a quantum (a fence, a returning atomic, a barrier, a queue operation, a
wait for an operation or an object, `TCOPY.Y`, `SLEEP` and `EXIT`) is not performed outside it, and a meeting that is due is held (R345, R387 to R391). -/
def Obligations.QuantaAndMeetings : Prop :=
  ∀ (s : State) (k id : Nat) (w : Warp) (env : Env) (x : Launch) (sc : Scope) (o : MemOrder) (d n a b y c v p : Nat) (x' : Nat) (op : AtomicOp) (reuse : Bool)
    (bar? : Option Nat),
    (tabFind s.warps k = some w → w.status = .ready → s.launchOf w = some x → x.quantum ≠ 0 → x.quantum ≤ w.count →
      exec (.quantumEnd k) s = .next (s.putWarp k { w with status := .waiting (.meeting none), count := 0 }))
    ∧ (s.Runs k w env → env.det = true →
      let waits (i : Instr) : Prop := exec i s = .next (s.putWarp k { w with status := .waiting (.meeting (some i)) })
      let parks (i : Instr) : Prop := exec i s = .next (s.putWarp k { w.drain with status := .waiting (.meeting (some i)) })
      let together : Prop := w.drain.parked = 0 ∧ w.drain.handler = none ∧ w.drain.anyTx = false ∧ w.drain.active = w.drain.live
      waits (.fence sc o) ∧ waits (.sleep n)
      ∧ (w.scal b ≠ 0 → waits (.rfence a sc b o))
      ∧ (w.parked = 0 → w.anyTx = false → waits .exit)
      ∧ (together → parks .bar)
      ∧ (env.cluster ≠ 1 → together → parks .cbar)
      ∧ (w.anyTx = false →
        waits (.satom op sc o d a b) ∧ waits (.qappend x' y) ∧ waits (.qappendTry x' y p) ∧ waits (.qpop x' y v c)
        ∧ (s.ObjectOk env w (w.scal y) 64 256 → waits (.tcopyY bar? y c)))
      ∧ (let m := w.mark reuse n
         m.TypeOk ElemType.inK [d] → m.anyTx = false → m.NamesOk env (n :: atomicNames op m.typ d) →
         waits (.vatom d b n op reuse) ∧ waits (.vatoms d b n op reuse))
      ∧ (let m : BitVec 16 := (w.drain.scal n).setWidth 16
         m = w.drain.batch ∨ 32768 ≤ (m - w.drain.batch).toNat → parks (.await d n))
      ∧ (∀ f, s.ObjectOk env w.drain (w.drain.scal y) 16 16 → parks (.bwait d y f)))
    ∧ (s.meetingDue id = true → tabFind s.launches id = some x → exec (.meeting id) s = .next (s.meet id x.clusterSize))

/-- Every management command, on a connected queue with no command waiting, is answered with status 0 and has its effect where its payload is legal: the reading of event rings,
their release, a new image and attestation also while the rings are frozen or the image is being verified, and the other commands only otherwise (R296, R355, R356, R373, R382,
R384, R402, R405, R406, R411, R412). The model's own choices among its clauses: that CTXWRITE on an enabled context waits until it is idle (log entry 83), what CODEREG asks of its
base and length and what the limit of 1 MiB counts (84), status 3 of the limited boot and that EVRELEASE does not ask for the rings to have been read (86), that a DOMAIN with
another id joins every member anew (91), the step in which an image is verified (124), and the input that stands for a command of a broken layout (121). -/
def Obligations.ManagementCommands : Prop :=
  ∀ (s : State) (tag ctx gen q base len report die team id code host : Nat) (entry units image nonce : List Byte) (r : FaultReport)
    (members : BitVec 64) (macs : List (Nat × Nat)) (pr : Nat × Nat) (us : List CodeUnit) (fs : List Frame) (i : Nat) (cr : CodeRegion)
    (tm : Team) (x : Launch) (v : CodeVersion) (pages : List (Nat × List Byte)) (table : Option (List Byte)) (since : Nat),
    let answers (c : Nat) (s1 : State) (p : List Byte) : Host.Outcome State Fault Refusal := .next (s1.answer c tag 0 p)
    let p := s.pruneCode
    (s.boot ≠ .off → host = Config.hostAddress → exec (.managementConnect host) s = .next { s with mgmtUp := true })
    ∧ (s.mgmtUp = true → s.command = none →
      (die < 10 → exec (.evread tag die) s = answers 9 s ((tabGet s.rings die []).flatMap EventRecord.bytes))
      ∧ (image ≠ [] → image.length ≤ 2 ^ 20 → exec (.reflash tag image) s = answers 12 { s with flash := some image } [])
      ∧ (image = [] ∨ 2 ^ 20 < image.length → exec (.reflash tag image) s = .next (s.answer 12 tag 2 []))
      ∧ (nonce.length = 32 → exec (.attest tag nonce) s = answers 13 s (Config.quote (nonce ++ Config.sha256 (s.image.getD [])
        ++ Config.sha256 s.decodeTables ++ Config.fuseState)))
      ∧ (s.boot ≠ .limited → exec (.evrelease tag) s = .next ({ s with frozen := false }.answer 10 tag 0 []))
      ∧ (s.boot = .limited → exec (.evrelease tag) s = .next (s.answer 10 tag 3 []) ∧ exec (.suspend tag ctx) s = .next (s.answer 6 tag 3 []))
      ∧ (s.boot ≠ .limited → s.frozen = true ∨ s.boot = .verifying → exec (.suspend tag ctx) s = .next (s.answer 6 tag 4 [])
        ∧ exec (.qwrite tag q entry) s = .next (s.answer 2 tag 4 [])))
    ∧ (s.boot = .running → s.mgmtUp = true → s.command = none → s.frozen = false →
      (ctx < 256 →
        (gen < 2 ^ 24 → contextEntryOk entry = true →
          ((s.context ctx).enabled = false → exec (.ctxwrite tag ctx gen entry) s = answers 1 (s.writeContext ctx gen entry) [])
          ∧ ((s.context ctx).enabled = true → bit (fieldAt entry 0x1D 1) 0 = false → exec (.ctxwrite tag ctx gen entry) s =
            .next { s.suspendContext ctx with command := some (.disable tag ctx gen entry) }))
        ∧ exec (.suspend tag ctx) s = .next { s.suspendContext ctx with command := some (.suspend tag ctx) }
        ∧ exec (.resume tag ctx) s =
          answers 7 ((s.putContext ctx { s.context ctx with suspended := false }).loadHeads ctx) []
        ∧ (s.findRegion ctx base = some (i, cr) →
          exec (.codedrop tag ctx base) s = answers 5 ((s.setRegion i { cr with dropped := true }).pruneCode) [])
        ∧ (unitsOf units = some us → units.length ≤ 2 ^ 20 → base % 65536 = 0 → base < 2 ^ 64 → 0 < len → len < 2 ^ 32 → (p.regionsOf ctx).length < 64 →
          (∀ c ∈ p.regionsOf ctx, base + len ≤ c.base ∨ c.base + c.len ≤ base) → unitsFit len us = true →
          p.codeFrames ctx base (regionPages len) = some fs → exec (.codereg tag ctx base len units) s =
            answers 3 { p with code := p.code ++ [⟨ctx, base, len, [(1, ⟨us, fs⟩)], 1, false⟩] } [])
        ∧ (p.findRegion ctx base = some (i, cr) → tabFind cr.versions cr.current = some v →
          (cr.versions.filter fun y => p.bound i y.1).length < 16 →
          (∀ g ∈ pages, g.2.length = 65536 ∧ g.1 < regionPages cr.len) → 65536 * pages.length + (table.getD []).length ≤ 2 ^ 20 →
          (match table with
            | none => us = v.units
            | some bs => unitsOf bs = some us) → unitsFit cr.len us = true →
          exec (.codemod tag ctx base pages table) s = answers 4 ((p.setRegion i { cr with
            versions := tabSet cr.versions (cr.current + 1) ⟨us, replaceFrames pages v.frames⟩, current := cr.current + 1 }).pruneCode) []))
      ∧ (q < 1024 → queueEntryOk entry = true → let y := (s.stream q).ofEntry entry
        exec (.qwrite tag q entry) s = answers 2
          ((({ s with queues := tabSet s.queues q y }).controlWrite (queueEntry q) (y.show entry)).loadHead q) [])
      ∧ (s.findReport report = some r →
        exec (.faultanswerRetry tag report) s = answers 8 (s.answerRetry report r) []
        ∧ exec (.faultanswerAbort tag report) s = answers 8 (s.answerAbort report r) [])
      ∧ (tabFind s.teams team = some tm → tabFind s.launches tm.launch = some x →
        (tm.status = .saved ∨ tm.status = .killed ∨ tm.status = .halted → exec (.logread tag team) s = answers 11 s (s.logBytes team x))
        ∧ (tm.status = .stopping since → x.quantum = 0 → (∀ e ∈ s.liveWarps team, e.2.status = .stopped) →
          exec (.logread tag team) s = answers 11 s (s.logBytes team x))
        ∧ (tm.status = .running → exec (.logread tag team) s = .next (s.answer 11 tag 3 [])))
      ∧ (domainOk id members macs pr = true →
        let same := s.packageId == some id || s.packageId.isNone
        let gone := (s.peers.filter fun e => e.2.member && !(same && members.getLsbD e.1)).map (·.1)
        let s1 := gone.foldl State.losePeer s
        exec (.domain tag id members macs pr) s = answers 14 (State.purgeFabric { s1 with
          packageId := some id, members := members, priorities := pr, peers := s1.joinPeers same macs
          readOnlyCopies := s1.readOnlyCopies.filter fun c => !gone.contains c.pkg }) [])
      ∧ (code = 0 ∨ 14 < code → exec (.managementUnknownCode code tag) s = .next (s.answer code tag 1 []))
      ∧ (1 ≤ code → code ≤ 14 → exec (.managementUnknownCode code tag) s = .next (s.answer code tag 2 [])))

/-- RDMA requests on a working queue pair with nothing earlier waiting are performed and answered; a key that is not in force is refused, poison and a page that cannot be
reached end a request with an error, and a broken pair's requests end (R399, R408 to R410, R421). The model's own choices among its clauses: the code 4 of a broken pair (log entry
90) and its record in the ring of die 8 (87), and that a write is refused whole, a misaligned atomic is an invalid request and a poisoned one an operation error (92). -/
def Obligations.RdmaRequests : Prop :=
  ∀ (s s1 : State) (qp key va n x y : Nat) (bytes bs : List Byte) (kind : RdmaKind) (p : Phys), s.boot = .running →
    s.brokenPairs.contains qp = false → qp < 4096 →
    let ctx := key % 256
    let at1 := (s.walkRange ctx va 8).remoteTouch p.pa 8
    let old := at1.bytesAt p.pa 8
    let local8 : Prop := va % 8 = 0 ∧ s.frontPlace ctx va 8 = .ok p ∧ p.fab = false ∧ isPoisoned at1.poison p.pa 8 = false
    let replies (t : State) (a : RdmaReply) : Host.Outcome State Fault Refusal := .next (t.reply a)
    exec (.rdmaInvalidRequest qp kind) s = replies s (.invalidRequest qp)
    ∧ exec (.queuePairBroken qp) s = .next (({ s.dropAnswers qp with
        brokenPairs := s.brokenPairs ++ [qp], rdmaPending := s.rdmaPending.filter fun r => r.qp != qp }).fabricEvent 8 4 qp)
    ∧ ((∀ r ∈ s.rdmaPending, r.qp ≠ qp) →
      (s.keyOk key = false → exec (.rdmaRead qp key va n) s = replies s (.remoteAccessError qp)
        ∧ exec (.rdmaWrite qp key va bytes) s = replies s (.remoteAccessError qp))
      ∧ (s.keyOk key = true →
        (s.rangeWrite ctx (pairTag qp) va bytes = .ok s1 →
          (s1.tagsOut (pairTag qp) (2 ^ 140) = false → exec (.rdmaWrite qp key va bytes) s = replies s1 (.done qp []))
          ∧ (s1.tagsOut (pairTag qp) (2 ^ 140) = true → exec (.rdmaWrite qp key va bytes) s =
            .next { s1 with rdmaPending := s1.rdmaPending ++ [⟨qp, key, va, .write bytes, true⟩] }))
        ∧ (s.rangeWrite ctx (pairTag qp) va bytes = .error .bad → exec (.rdmaWrite qp key va bytes) s = replies s (.remoteAccessError qp))
        ∧ (s.rangeRead ctx (pairTag qp) va n = .ok (s1, bs, false) → exec (.rdmaRead qp key va n) s = replies s1 (.done qp bs))
        ∧ (s.rangeRead ctx (pairTag qp) va n = .ok (s1, bs, true) → exec (.rdmaRead qp key va n) s = replies s1 (.remoteOperationError qp))
        ∧ (s.rangeRead ctx (pairTag qp) va n = .error .bad → exec (.rdmaRead qp key va n) s = replies (s.dropAnswers qp) (.remoteAccessError qp))
        ∧ (va % 8 ≠ 0 → exec (.rdmaFetchAndAdd qp key va x) s = replies s (.invalidRequest qp)
          ∧ exec (.rdmaCompareAndSwap qp key va x y) s = replies s (.invalidRequest qp))
        ∧ (local8 →
          exec (.rdmaFetchAndAdd qp key va x) s =
            replies (at1.homeWrite p.pa (leBytes 8 ((natOfBytes old + x) % 2 ^ 64)) .normal true) (.done qp (leBytes 8 (natOfBytes old)))
          ∧ exec (.rdmaCompareAndSwap qp key va x y) s =
            replies (if natOfBytes old = x then at1.homeWrite p.pa (leBytes 8 y) .normal true
              else at1.callIn (p.pa / 128) (lineMask p.pa 8) true) (.done qp (leBytes 8 (natOfBytes old))))))

/-- The fabric: links, frames in SEQ order, repeated frames acknowledged again and gaps answered with NAK, each request performed once, frames of a legal size alone, and lost peers (R407,
R413 to R415, R420, R421). The model's own choices among its clauses: the codes of the events (log entry 90) and the ring of die 8 for those of peers (87), that a path pairs the
same port at both ends (88), that a request held back is not accepted yet (89), and what ends with a lost peer (99). -/
def Obligations.FabricEvents : Prop :=
  ∀ (s : State) (port peer path : Nat) (h : KltHeader) (r : RemoteOp) (c : CollFrame) (data : List Byte) (bad reset : Bool)
    (q : RemoteRequest) (id : Nat) (co : Collective),
    let s1 := s.takeAck h
    let x := s1.peer h.src
    let p := x.path h.path
    let s2 := s1.putPeer h.src (x.setPath h.path { p with ackSeq := (p.ackSeq + 1) % 2 ^ 32 })
    let y := s2.peer h.src
    let s3 := s2.putPeer h.src { y with performed := y.performed ++ [h.reqid] }
    let new : Prop := h.seq = p.ackSeq ∧ y.performed.contains h.reqid = false
    let goes (t : State) : Host.Outcome State Fault Refusal := .next t
    let acked (t : State) : Host.Outcome State Fault Refusal := .next (t.sendControl h.src h.path false)
    (port < 8 → nth s.ports port false = false → exec (.linkUp port) s =
      goes ((({ s with ports := setNth s.ports port true }).mapPeers fun x => x.pathUp s.clock port).fabricEvent (portDie port) 1 port))
    ∧ (nth s.ports port false = true → exec (.linkDown port) s =
      goes ((({ s with ports := setNth s.ports port false }).mapPeers fun x => if (x.path port).up then x.pathDown s.clock port else x).fabricEvent
        (portDie port) 2 port))
    ∧ (s.headerOk h 1 = true → s.heldBack (RemoteOp.pa r) (RemoteOp.size r) = false → RemoteOp.payload r ≤ 4096 →
      (new → remoteInside r = true → exec (.kltRequest h r) s =
        acked ((s3.performRemote r).1.respond h (RemoteOp.pa r / 128) (s3.performRemote r).2.1 (s3.performRemote r).2.2))
      ∧ (h.seq ≠ p.ackSeq → exec (.kltRequest h r) s = goes (s1.sendControl h.src h.path (seqBefore p.ackSeq h.seq))))
    ∧ (s.headerOk h 1 = false ∨ 4096 < RemoteOp.payload r → exec (.kltRequest h r) s = goes s)
    ∧ (s.headerOk h 2 = true → data.length ≤ 4096 → h.seq = p.ackSeq → y.outstanding.find? (fun z => z.reqid == h.reqid) = some q →
      let s4 := s2.putPeer h.src { y with outstanding := y.outstanding.filter fun z => z.reqid != h.reqid }
      let s5 : State := if RemoteOp.answers q.op then { s4 with answers := s4.answers ++ [⟨q.who, q.tag, h.src, q.op, data, bad, q.va, q.stale⟩] } else s4
      exec (.kltResponse h data bad) s = acked (match q.who with
        | .warp k => s5.wakeRemote k
        | _ => s5))
    ∧ (s.headerOk h 3 = true → exec (.kltAck h) s = goes s1)
    ∧ (s.headerOk h 4 = true → exec (.kltNak h) s = goes (s1.resend h.src h.path))
    ∧ (s.headerOk h 5 = true → c.data.length ≤ 4096 → new → c.member = h.src → exec (.kltCollective h c) s = acked { s3 with
        collFrames := s3.collFrames.filter (fun f => !(f.ctx == c.ctx && f.member == c.member && f.tag == c.tag && f.members == c.members
          && f.occurrence == c.occurrence && f.offset == c.offset)) ++ [c] })
    ∧ (s.headerOk h 6 = true → exec (.kltProbe h) s = acked s1)
    ∧ (((s.peer peer).path path).resendDue s.clock = true → exec (.kltResendTimeout peer path) s = goes (s.resend peer path))
    ∧ (s.peerLate peer = true ∨ reset = true ∧ (s.peer peer).member = true ∧ (s.peer peer).lost = false →
      exec (.peerLost peer reset) s = goes ((s.losePeer peer).fabricEvent 8 3 peer))
    ∧ (tabFind s.collectives id = some co → s.collReady id co = true → co.done = false →
      (s.collDeterministic co = true → exec (.collComplete id) s = goes { s with collectives := tabSet s.collectives id { co with done := true } })
      ∧ (s.collDeterministic co = false → exec (.collComplete id) s = goes (s.performColl id co)))
end

