-- ==== Sys2Proof/Laws/Encoding.lean ====
section
/-! SUPPORT. The words of encodings: their ranges, and the fields that the decoder reads back from each format. -/

namespace Sys2Proof

/-! ### Codes -/

theorem ElemType.code_lt (t : ElemType) : t.code < 19 := by cases t <;> decide
theorem Cmp.code_lt (c : Cmp) : c.code < 8 := by cases c <;> decide
theorem BrCond.code_lt (c : BrCond) : c.code < 7 := by cases c <;> decide
theorem ShiftKind.code_lt (k : ShiftKind) : k.code < 3 := by cases k <;> decide
theorem ShuffleKind.code_lt (k : ShuffleKind) : k.code < 4 := by cases k <;> decide
theorem CacheClass.code_lt (c : CacheClass) : c.code < 4 := by cases c <;> decide
theorem AtomicOp.code_lt (o : AtomicOp) : o.code < 8 := by cases o <;> decide
theorem Scope.code_lt (s : Scope) : s.code < 5 := by cases s <;> decide
theorem MemOrder.code_lt (o : MemOrder) : o.code < 5 := by cases o <;> decide
theorem MemOrder.code_lt_satom (o : MemOrder) (h : o.inSatom = true) : o.code < 4 := by cases o <;> revert h <;> decide
theorem PrefLevel.code_lt (l : PrefLevel) : l.code < 3 := by cases l <;> decide
theorem ScalarOp.code_lt (f : ScalarOp) : f.code < 22 := by cases f <;> decide
theorem ScalarImmOp.code_lt (f : ScalarImmOp) : f.code < 8 := by cases f <;> decide
theorem LoadSize.code_lt (f : LoadSize) : f.code < 7 := by cases f <;> decide
theorem StoreSize.code_lt (f : StoreSize) : f.code < 4 := by cases f <;> decide
theorem KeyType.code_lt (k : KeyType) : k.code < 2 := by cases k <;> decide
theorem RegionKind.code_lt (k : RegionKind) : k.code < 3 := by cases k <;> decide

theorem ofBit_lt (b : Bool) : ofBit b < 2 := by cases b <;> decide

theorem unsigned_lt (k : Nat) (i : Int) : unsigned k i < 2 ^ k := by
  unfold unsigned
  have h : (0 : Int) < ((2 ^ k : Nat) : Int) := by positivity
  have h1 := Int.emod_nonneg i (ne_of_gt h)
  have h2 := Int.emod_lt_of_pos i h
  omega

/-! ### Signed fields -/

theorem signed_unsigned {k : Nat} {i : Int} (hk : 0 < k) (h : okI k i = true) : signed k (unsigned k i) = i := by
  obtain ⟨n, rfl⟩ : ∃ n, k = n + 1 := ⟨k - 1, by omega⟩
  have h2 : (2 : Nat) ^ (n + 1) = 2 * 2 ^ n := by ring
  simp only [okI, Nat.add_sub_cancel, Bool.and_eq_true, decide_eq_true_eq] at h
  unfold signed unsigned
  rw [h2, Nat.add_sub_cancel]
  generalize (2 : Nat) ^ n = m at *
  obtain ⟨ha, hb⟩ := h
  rcases lt_or_ge i 0 with hi | hi
  · have : i % ((2 * m : Nat) : Int) = i + (2 * m : Nat) := by
      rw [← Int.add_emod_right, Int.emod_eq_of_lt] <;> omega
    rw [this]
    split <;> omega
  · have : i % ((2 * m : Nat) : Int) = i := Int.emod_eq_of_lt hi (by omega)
    rw [this]
    split <;> omega

/-! ### A word's fields -/

theorem bits_mod (w hi lo : Nat) (h : lo ≤ hi) : bits w hi lo = w % 2 ^ (hi + 1) / 2 ^ lo := by
  unfold bits
  have e : (2 : Nat) ^ (hi + 1) = 2 ^ lo * 2 ^ (hi - lo + 1) := by
    rw [← pow_add]
    congr 1
    omega
  rw [e, Nat.mod_mul_right_div_self]

/-- The low fields of a word do not see its upper part. -/
theorem bits_low (m rest hi lo k : Nat) (h : lo ≤ hi) (hk : hi < k) : bits (m * 2 ^ k + rest) hi lo = bits rest hi lo := by
  rw [bits_mod _ _ _ h, bits_mod _ _ _ h]
  congr 1
  obtain ⟨n, rfl⟩ : ∃ n, k = hi + 1 + n := ⟨k - (hi + 1), by omega⟩
  rw [pow_add, Nat.add_mod, ← mul_assoc, mul_right_comm, Nat.mul_mod_left]
  simp

/-- The field that begins where a word's lower part ends. -/
theorem bits_high (m rest hi lo : Nat) (hr : rest < 2 ^ lo) (hm : m < 2 ^ (hi - lo + 1)) :
    bits (m * 2 ^ lo + rest) hi lo = m := by
  unfold bits
  have : (m * 2 ^ lo + rest) / 2 ^ lo = m := by
    rw [Nat.add_comm, Nat.add_mul_div_right _ _ (by positivity), Nat.div_eq_of_lt hr, Nat.zero_add]
  rw [this, Nat.mod_eq_of_lt hm]

/-- The switch marker is no part of the other fields. -/
theorem bits_marker (w hi lo : Nat) (b : Bool) (h : lo ≤ hi) (hh : hi < 31) : bits (w + ofBit b * 2 ^ 31) hi lo = bits w hi lo := by
  rw [Nat.add_comm, bits_low _ _ _ _ 31 h hh]

/-- The switch marker is read back. -/
theorem bit_marker (w : Nat) (b : Bool) (h : w < 2 ^ 31) : bit (w + ofBit b * 2 ^ 31) 31 = b := by
  unfold bit
  cases b
  · have : (w + 0 * 2 ^ 31) / 2 ^ 31 = 0 := by omega
    simp only [ofBit, Bool.false_eq_true, if_false, this]
    rfl
  · have : (w + 1 * 2 ^ 31) / 2 ^ 31 = 1 := by omega
    simp only [ofBit, if_true, this]
    rfl

theorem bit_low (w i : Nat) (b : Bool) (h : i < 31) : bit (w + ofBit b * 2 ^ 31) i = bit w i := by
  have e (v : Nat) : bit v i = (bits v i i == 1) := by simp [bit, bits]
  rw [e, e, bits_marker _ _ _ _ (le_refl i) h]

/-- A word's major opcode, and the fields below it. -/
theorem bits_major (m rest : Nat) (hr : rest < 2 ^ 25) (hm : m < 64) : bits (major m rest) 30 25 = m :=
  bits_high m rest 30 25 hr hm

theorem bits_major_low (m rest hi lo : Nat) (h : lo ≤ hi) (hh : hi < 25) : bits (major m rest) hi lo = bits rest hi lo :=
  bits_low m rest hi lo 25 h hh

theorem major_lt (m rest : Nat) (hr : rest < 2 ^ 25) (hm : m < 64) : major m rest < 2 ^ 31 := by
  unfold major
  omega

/-! ### The fields of each format -/

theorem SrcB.enc_lt {b : SrcB} (h : okB b = true) : b.enc < 512 := by
  cases b <;> simp only [okB, okV, okS, decide_eq_true_eq] at h <;> simp only [SrcB.enc] <;> omega

theorem encA_rest {d a : Nat} {b : SrcB} (hd : d < 256) (ha : a < 256) (hb : okB b = true) :
    d * 2 ^ 17 + a * 2 ^ 9 + b.enc < 2 ^ 25 := by
  have := SrcB.enc_lt hb
  omega

theorem encA_fields {m d a : Nat} {b : SrcB} (hm : m < 64) (hd : d < 256) (ha : a < 256) (hb : okB b = true) :
    bits (encA m d a b) 30 25 = m ∧ bits (encA m d a b) 24 17 = d ∧ bits (encA m d a b) 16 9 = a
    ∧ bits (encA m d a b) 8 0 = b.enc := by
  have h := SrcB.enc_lt hb
  simp only [encA, major, bits]
  omega

theorem encB_fields {m d a i : Nat} (hm : m < 64) (hd : d < 256) (ha : a < 256) (hi : i < 512) :
    bits (encB m d a i) 30 25 = m ∧ bits (encB m d a i) 24 17 = d ∧ bits (encB m d a i) 16 9 = a ∧ bits (encB m d a i) 8 0 = i := by
  simp only [encB, major, bits]
  omega

theorem encM_fields {m d s o h : Nat} {x : Bool} (hm : m < 64) (hd : d < 256) (hs : s < 32) (ho : o < 256) (hh : h < 8) :
    bits (encM m d s o h x) 30 25 = m ∧ bits (encM m d s o h x) 24 17 = d ∧ bits (encM m d s o h x) 16 12 = s
    ∧ bits (encM m d s o h x) 11 4 = o ∧ bits (encM m d s o h x) 3 1 = h ∧ bits (encM m d s o h x) 0 0 = ofBit x := by
  have := ofBit_lt x
  simp only [encM, major, bits]
  omega

theorem encD_fields {m d a b f : Nat} (hm : m < 64) (hd : d < 32) (ha : a < 32) (hb : b < 32) (hf : f < 1024) :
    bits (encD m d a b f) 30 25 = m ∧ bits (encD m d a b f) 24 20 = d ∧ bits (encD m d a b f) 19 15 = a
    ∧ bits (encD m d a b f) 14 10 = b ∧ bits (encD m d a b f) 9 0 = f := by
  simp only [encD, major, bits]
  omega

theorem encE_fields {m d a f i : Nat} (hm : m < 64) (hd : d < 32) (ha : a < 32) (hf : f < 8) (hi : i < 4096) :
    bits (encE m d a f i) 30 25 = m ∧ bits (encE m d a f i) 24 20 = d ∧ bits (encE m d a f i) 19 15 = a
    ∧ bits (encE m d a f i) 14 12 = f ∧ bits (encE m d a f i) 11 0 = i := by
  simp only [encE, major, bits]
  omega

theorem encK_fields {m f x y i : Nat} (hm : m < 64) (hf : f < 16) (hx : x < 256) (hy : y < 32) (hi : i < 256) :
    bits (encK m f x y i) 30 25 = m ∧ bits (encK m f x y i) 24 21 = f ∧ bits (encK m f x y i) 20 13 = x
    ∧ bits (encK m f x y i) 12 8 = y ∧ bits (encK m f x y i) 7 0 = i := by
  simp only [encK, major, bits]
  omega

theorem encX_fields {m n f g z : Nat} (hm : m < 64) (hn : n < 256) (hf : f < 256) (hg : g < 256) (hz : z < 2) :
    bits (encX m n f g z) 30 25 = m ∧ bits (encX m n f g z) 24 17 = n ∧ bits (encX m n f g z) 16 9 = f
    ∧ bits (encX m n f g z) 8 1 = g ∧ bits (encX m n f g z) 0 0 = z := by
  simp only [encX, major, bits]
  omega

end Sys2Proof
end

