-- ==== Sys2Proof/Laws/Issue.lean ====
section
/-! SUPPORT. What the issue of an instruction answers, and what each check of an instruction does when it passes or fails. -/

namespace Sys2Proof.Machine

theorem stopIf_false {α : Type} (e : Stop) (k : Except Stop α) : stopIf false e k = k := rfl

theorem stopIf_true {α : Type} (e : Stop) (k : Except Stop α) : stopIf true e k = .error e := rfl

theorem typeCheck_ok {α : Type} {w : Warp} {ok : ElemType → Bool} {ops : List Nat} (h : w.TypeOk ok ops) (k : Except Stop α) :
    w.typeCheck ok ops k = k := by
  obtain ⟨h1, h2⟩ := h
  unfold Warp.typeCheck stopIf
  rw [if_neg]
  simp only [h1, Bool.not_true, Bool.false_or, Bool.and_eq_true, List.any_eq_true, beq_iff_eq, not_and, not_exists]
  intro h n hn ho
  have := h2 h n hn
  omega

theorem rangeCheck_ok {α : Type} {w : Warp} {env : Env} {ns : List Nat} (h : w.NamesOk env ns) (k : Except Stop α) :
    w.rangeCheck env ns k = k := by
  unfold Warp.rangeCheck stopIf
  rw [if_neg]
  simp only [List.any_eq_true, Bool.not_eq_true', not_exists, not_and, Bool.not_eq_false]
  exact h

theorem point_ok {α : Type} {w : Warp} (h : w.parked = 0) (k : Except Stop α) : w.point k = k := by
  simp [Warp.point, stopIf, h]

theorem converged_ok {α : Type} {w : Warp} (h : w.active = w.live) (k : Except Stop α) : w.converged k = k := by
  simp [Warp.converged, stopIf, h]

theorem notMelded_ok {α : Type} {w : Warp} (h : w.meld = none) (k : Except Stop α) : w.notMelded k = k := by
  simp [Warp.notMelded, stopIf, h]

theorem atMeeting_ok {α : Type} {env : Env} (h : env.logs = false) (i : Instr) (k : Except Stop α) : env.atMeeting i k = k := by
  simp [Env.atMeeting, h]

theorem sharedObject_ok {α : Type} {s : State} {env : Env} {w : Warp} {o : DWord} {al n : Nat} (h : s.ObjectOk env w o al n)
    (k : Nat → Except Stop α) : sharedObject s env w o al n k = k o.toNat := by
  obtain ⟨h1, h2, h3⟩ := h
  simp [sharedObject, sharedPlace, stopIf, h1, h3, Nat.not_lt.mpr h2]

theorem mark_mode (w : Warp) (reuse : Bool) (n : Nat) : (w.mark reuse n).mode = w.mode := by
  cases reuse <;> rfl

theorem mark_typ (w : Warp) (reuse : Bool) (n : Nat) : (w.mark reuse n).typ = w.typ := by
  cases reuse <;> rfl

theorem ready_self {w : Warp} (h : w.status = .ready) : { w with status := .ready } = w := by
  cases w
  simp_all

theorem runs_issueBy {s : State} {k : Nat} {w w1 : Warp} {env : Env} {n : Nat} {next : Next} {s1 : State}
    {f : State → Nat → Env → Warp → Effect} (h : s.Runs k w env) (hf : f s k env w = .ok (s1, w1, next)) :
    s.issueBy k w n f = s1.ends k w1 next := by
  obtain ⟨_, _, h3, h4⟩ := h
  simp [State.issueBy, h3, ready_self h4, hf, State.ends]

theorem runs_issueOf {s : State} {k : Nat} {w w1 : Warp} {env : Env} {n : Nat} {next : Next} {s1 : State}
    {f : State → Nat → Env → Warp → Effect} (h : s.Runs k w env) (hf : f s k env w = .ok (s1, w1, next)) :
    s.issueOf n f = .next (s1.ends k w1 next) := by
  have := h
  obtain ⟨h1, h2, _, _⟩ := this
  simp [State.issueOf, h1, h2, runs_issueBy h hf]

theorem runs_issue {s : State} {k : Nat} {w w1 : Warp} {env : Env} {f : Env → Warp → Except Stop Warp} (h : s.Runs k w env)
    (hf : f env w = .ok w1) : s.issue f = .next (s.ends k w1 (.after 4)) :=
  runs_issueOf h (by simp [hf, Except.map])

theorem runs_issueMem {s s1 : State} {k : Nat} {w w1 : Warp} {env : Env}
    {f : State → Nat → Env → Warp → Except Stop (State × Warp)} (h : s.Runs k w env) (hf : f s k env w = .ok (s1, w1)) :
    s.issueMem f = .next (s1.ends k w1 (.after 4)) :=
  runs_issueOf h (by simp [hf, Except.map])

theorem runs_issueControl {s : State} {k n : Nat} {w w1 : Warp} {env : Env} {next : Next}
    {f : Env → Warp → Except Stop (Warp × Next)} (h : s.Runs k w env) (hf : f env w = .ok (w1, next)) :
    s.issueControl n f = .next (s.ends k w1 next) :=
  runs_issueOf h (by simp [hf, Except.map])

theorem runs_stops {s : State} {k n : Nat} {w : Warp} {env : Env} {e : Stop}
    {f : State → Nat → Env → Warp → Effect} (h : s.Runs k w env) (hf : f s k env w = .error e) :
    s.issueOf n f = .next (s.halt k w n e) := by
  obtain ⟨h1, h2, h3, h4⟩ := h
  simp [State.issueOf, h1, h2, State.issueBy, h3, ready_self h4, hf]

end Sys2Proof.Machine
end

