-- ==== Sys2Proof/Laws/Memory.lean ====
section
/-! SUPPORT. Maps and memory: what a read gives after a write, which keys a write leaves alone, and that every write keeps the canonical form. -/

namespace Sys2Proof.Machine

/-! ### Maps -/

theorem tabFind_tabSet_self {α : Type} (t : Tab α) (k : Nat) (x : α) : tabFind (tabSet t k x) k = some x := by
  induction t with
  | nil => simp [tabSet, tabFind]
  | cons e r ih =>
    obtain ⟨j, y⟩ := e
    simp only [tabSet]
    repeat' split
    all_goals simp_all [tabFind]

theorem tabFind_tabSet_ne {α : Type} (t : Tab α) {k j : Nat} (x : α) (h : j ≠ k) : tabFind (tabSet t k x) j = tabFind t j := by
  induction t with
  | nil => simp [tabSet, tabFind, h.symm]
  | cons e r ih =>
    obtain ⟨i, y⟩ := e
    simp only [tabSet]
    split
    · next hi => simp [tabFind, beq_iff_eq.mp hi, h.symm]
    · split
      · next hk =>
        simp only [tabFind, beq_iff_eq, h.symm, ite_false]
        split
        · rw [if_neg (by omega), if_pos (by omega)]
        · rfl
      · simp [tabFind, ih]

theorem tabGet_tabSet_self {α : Type} (t : Tab α) (k : Nat) (x d : α) : tabGet (tabSet t k x) k d = x := by
  simp [tabGet, tabFind_tabSet_self]

theorem tabGet_tabSet_ne {α : Type} (t : Tab α) {k j : Nat} (x d : α) (h : j ≠ k) : tabGet (tabSet t k x) j d = tabGet t j d := by
  simp [tabGet, tabFind_tabSet_ne t x h]

/-- Keys that rise above a bound rise above a lower one. -/
theorem tabRising_mono {α : Type} {t : Tab α} {a b : Nat} (hab : b ≤ a) (h : tabRising (some a) t = true) : tabRising (some b) t = true := by
  cases t with
  | nil => rfl
  | cons e r => simp only [tabRising, Bool.and_eq_true, decide_eq_true_eq] at h ⊢; exact ⟨by omega, h.2⟩

theorem tabRising_none {α : Type} {t : Tab α} {a : Nat} (h : tabRising (some a) t = true) : tabRising none t = true := by
  cases t with
  | nil => rfl
  | cons e r => simp only [tabRising, Bool.and_eq_true] at h ⊢; exact h.2

/-- A map whose keys rise above a bound has no entry at the bound or below it. -/
theorem tabFind_low {α : Type} {t : Tab α} {a k : Nat} (h : tabRising (some a) t = true) (hk : k ≤ a) : tabFind t k = none := by
  cases t with
  | nil => rfl
  | cons e r =>
    simp only [tabRising, Bool.and_eq_true, decide_eq_true_eq] at h
    simp only [tabFind, beq_iff_eq]
    rw [if_neg (by omega), if_pos (by omega)]

theorem tabFind_tabDel_self {α : Type} {t : Tab α} (k : Nat) (h : tabRising none t = true) : tabFind (tabDel t k) k = none := by
  induction t with
  | nil => rfl
  | cons e r ih =>
    obtain ⟨j, y⟩ := e
    simp only [tabRising] at h
    simp only [tabDel]
    split
    · next hj => exact tabFind_low h (beq_iff_eq.mp hj ▸ Nat.le_refl _)
    · split
      · simp_all [tabFind]
      · simp_all [tabFind, tabRising_none h]

theorem tabFind_tabDel_ne {α : Type} {t : Tab α} {k j : Nat} (h : tabRising none t = true) (hj : j ≠ k) : tabFind (tabDel t k) j = tabFind t j := by
  induction t with
  | nil => rfl
  | cons e r ih =>
    obtain ⟨i, y⟩ := e
    simp only [tabRising] at h
    simp only [tabDel]
    split
    · next hi =>
      have hi := beq_iff_eq.mp hi
      simp only [tabFind, beq_iff_eq]
      rw [if_neg (by omega)]
      split
      · next hlt => exact tabFind_low h (by omega)
      · rfl
    · split
      · rfl
      · simp [tabFind, ih (tabRising_none h)]

theorem tabSet_rising {α : Type} {t : Tab α} {k : Nat} {x : α} : ∀ {lo : Option Nat}, tabRising lo t = true → (∀ a ∈ lo, a < k) →
    tabRising lo (tabSet t k x) = true := by
  induction t with
  | nil => intro lo _ hk; cases lo <;> simp_all [tabSet, tabRising]
  | cons e r ih =>
    obtain ⟨j, y⟩ := e
    intro lo h hk
    simp only [tabSet]
    split
    · next hj => cases beq_iff_eq.mp hj; cases lo <;> simpa [tabRising] using h
    · next hj =>
      have hj : j ≠ k := by simpa using hj
      split
      · next hlt => cases lo <;> simp_all [tabRising]
      · next hlt =>
        have hr : tabRising (some j) r = true := by cases lo <;> simp_all [tabRising]
        have hs := ih hr (by intro a ha; cases ha; omega)
        cases lo <;> simp_all [tabRising]

theorem tabDel_rising {α : Type} {t : Tab α} {k : Nat} : ∀ {lo : Option Nat}, tabRising lo t = true → tabRising lo (tabDel t k) = true := by
  induction t with
  | nil => intro lo h; exact h
  | cons e r ih =>
    obtain ⟨j, y⟩ := e
    intro lo h
    have hr : tabRising (some j) r = true := by cases lo <;> simp_all [tabRising]
    simp only [tabDel]
    split
    · cases lo with
      | none => exact tabRising_none hr
      | some a => exact tabRising_mono (by simp only [tabRising, Bool.and_eq_true, decide_eq_true_eq] at h; omega) hr
    · split
      · exact h
      · have := ih hr
        cases lo <;> simp_all [tabRising]

theorem tabSet_mem {α : Type} {t : Tab α} {k : Nat} {x : α} {e : Nat × α} (h : e ∈ tabSet t k x) : e = (k, x) ∨ e ∈ t := by
  induction t with
  | nil => simpa [tabSet] using h
  | cons f r ih =>
    simp only [tabSet] at h
    split at h
    · grind
    · split at h <;> grind

theorem tabDel_mem {α : Type} {t : Tab α} {k : Nat} {e : Nat × α} (h : e ∈ tabDel t k) : e ∈ t := by
  induction t with
  | nil => exact h
  | cons f r ih =>
    simp only [tabDel] at h
    split at h
    · exact List.mem_cons_of_mem _ h
    · split at h <;> grind

/-- What a write to a map with a default leaves there. -/
theorem tabGet_tabPut_self {α : Type} [DecidableEq α] {t : Tab α} (d : α) (k : Nat) (x : α) (h : tabRising none t = true) :
    tabGet (tabPut t d k x) k d = x := by
  unfold tabPut
  split
  · next hx => simp [tabGet, tabFind_tabDel_self k h, hx]
  · exact tabGet_tabSet_self t k x d

theorem tabGet_tabPut_ne {α : Type} [DecidableEq α] {t : Tab α} (d : α) {k j : Nat} (x : α) (h : tabRising none t = true) (hj : j ≠ k) :
    tabGet (tabPut t d k x) j d = tabGet t j d := by
  unfold tabPut
  split
  · simp [tabGet, tabFind_tabDel_ne h hj]
  · exact tabGet_tabSet_ne t x d hj

theorem tabWf_rising {α : Type} [DecidableEq α] {d : α} {t : Tab α} (h : tabWf d t = true) : tabRising none t = true := by
  simp only [tabWf, Bool.and_eq_true] at h
  exact h.1

/-- A write to a map with a default keeps its canonical form. -/
theorem tabPut_wf {α : Type} [DecidableEq α] {d : α} {t : Tab α} (k : Nat) (x : α) (h : tabWf d t = true) : tabWf d (tabPut t d k x) = true := by
  simp only [tabWf, Bool.and_eq_true, List.all_eq_true, decide_eq_true_eq] at h ⊢
  unfold tabPut
  split
  · exact ⟨tabDel_rising h.1, fun e he => h.2 e (tabDel_mem he)⟩
  · next hx =>
    refine ⟨tabSet_rising h.1 (by simp), fun e he => ?_⟩
    rcases tabSet_mem he with rfl | he
    · exact hx
    · exact h.2 e he

/-! ### Bytes of a map -/

/-- Bytes written to a map keep its canonical form. -/
theorem putBytes_wf {m : Tab Byte} {a : Nat} {bs : List Byte} (h : tabWf 0 m = true) : tabWf 0 (putBytes m a bs) = true := by
  induction bs generalizing m a with
  | nil => exact h
  | cons b r ih => exact ih (tabPut_wf a b h)

/-- A byte outside those written reads as before. -/
theorem tabGet_putBytes_out {m : Tab Byte} {a : Nat} {bs : List Byte} {x : Nat} (h : tabWf 0 m = true) (hx : x < a ∨ a + bs.length ≤ x) :
    tabGet (putBytes m a bs) x 0 = tabGet m x 0 := by
  induction bs generalizing m a with
  | nil => rfl
  | cons b r ih =>
    simp only [List.length_cons] at hx
    simp only [putBytes]
    rw [ih (tabPut_wf a b h) (by omega), tabGet_tabPut_ne 0 b (tabWf_rising h) (by omega)]

/-- A byte written reads as written. -/
theorem tabGet_putBytes_in {m : Tab Byte} {a : Nat} {bs : List Byte} {i : Nat} (h : tabWf 0 m = true) (hi : i < bs.length) :
    tabGet (putBytes m a bs) (a + i) 0 = bs[i] := by
  induction bs generalizing m a i with
  | nil => simp at hi
  | cons b r ih =>
    simp only [putBytes]
    cases i with
    | zero =>
      rw [tabGet_putBytes_out (tabPut_wf a b h) (by omega)]
      simpa using tabGet_tabPut_self 0 a b (tabWf_rising h)
    | succ i =>
      rw [show a + (i + 1) = a + 1 + i by omega]
      simpa using ih (tabPut_wf a b h) (by simpa using hi)

/-! ### Memory -/

/-- Memory after reset is in its canonical form. -/
theorem reset_inv : State.reset.Inv := rfl

/-- A write to memory keeps its canonical form. -/
theorem writeBytes_inv {s : State} {a : Nat} {bs : List Byte} (h : s.Inv) : (s.writeBytes a bs).Inv := putBytes_wf h

/-- A byte of memory outside those written reads as before. -/
theorem byte_writeBytes_out {s : State} {a : Nat} {bs : List Byte} {x : Nat} (h : s.Inv) (hx : x < a ∨ a + bs.length ≤ x) :
    (s.writeBytes a bs).byte x = s.byte x := tabGet_putBytes_out h hx

/-- A byte of memory that was written reads as written. -/
theorem byte_writeBytes_in {s : State} {a : Nat} {bs : List Byte} {i : Nat} (h : s.Inv) (hi : i < bs.length) :
    (s.writeBytes a bs).byte (a + i) = bs[i] := tabGet_putBytes_in h hi

/-- What was written is read back. -/
theorem bytesAt_writeBytes {s : State} {a : Nat} {bs : List Byte} (h : s.Inv) : (s.writeBytes a bs).bytesAt a bs.length = bs := by
  apply List.ext_getElem
  · simp [State.bytesAt, upto]
  · intro i h1 h2
    simp only [State.bytesAt, upto, List.getElem_map, List.getElem_range]
    exact byte_writeBytes_in h h2

/-- Bytes that a write does not touch read as before. -/
theorem bytesAt_writeBytes_out {s : State} {a : Nat} {bs : List Byte} {x n : Nat} (h : s.Inv) (hx : x + n ≤ a ∨ a + bs.length ≤ x) :
    (s.writeBytes a bs).bytesAt x n = s.bytesAt x n := by
  simp only [State.bytesAt, upto]
  refine List.map_congr_left fun i hi => ?_
  simp only [List.mem_range] at hi
  exact byte_writeBytes_out h (by omega)

theorem leBytes_length (n v : Nat) : (leBytes n v).length = n := by
  induction n generalizing v with
  | zero => rfl
  | succ n ih => simp [leBytes, ih]

/-- A number's little-endian bytes stand for it (R5). -/
theorem natOfBytes_leBytes (n v : Nat) : natOfBytes (leBytes n v) = v % 256 ^ n := by
  induction n generalizing v with
  | zero => simp [leBytes, natOfBytes, Nat.mod_one]
  | succ n ih =>
    show (BitVec.ofNat 8 v).toNat + 256 * natOfBytes (leBytes n (v / 256)) = _
    rw [ih, BitVec.toNat_ofNat, show (2 : Nat) ^ 8 = 256 from rfl, Nat.pow_succ', Nat.mod_mul (a := 256)]

end Sys2Proof.Machine
end

