-- ==== Sys2Proof/Laws/State.lean ====
section
/-! SUPPORT. What each update of the state, of a warp and of a lane leaves in each field. -/

namespace Sys2Proof.Machine

/-! ### State.putWarp -/

@[simp] theorem State.putWarp_warps (s : State) (k : Nat) (w : Warp) : (s.putWarp k w).warps = tabSet s.warps k w := rfl
@[simp] theorem State.putWarp_teams (s : State) (k : Nat) (w : Warp) : (s.putWarp k w).teams = s.teams := rfl
@[simp] theorem State.putWarp_cores (s : State) (k : Nat) (w : Warp) : (s.putWarp k w).cores = s.cores := rfl
@[simp] theorem State.putWarp_mem (s : State) (k : Nat) (w : Warp) : (s.putWarp k w).mem = s.mem := rfl
@[simp] theorem State.putWarp_poison (s : State) (k : Nat) (w : Warp) : (s.putWarp k w).poison = s.poison := rfl
@[simp] theorem State.putWarp_l2 (s : State) (k : Nat) (w : Warp) : (s.putWarp k w).l2 = s.l2 := rfl
@[simp] theorem State.putWarp_msc (s : State) (k : Nat) (w : Warp) : (s.putWarp k w).msc = s.msc := rfl
@[simp] theorem State.putWarp_mscFills (s : State) (k : Nat) (w : Warp) : (s.putWarp k w).mscFills = s.mscFills := rfl
@[simp] theorem State.putWarp_dirs (s : State) (k : Nat) (w : Warp) : (s.putWarp k w).dirs = s.dirs := rfl
@[simp] theorem State.putWarp_slices (s : State) (k : Nat) (w : Warp) : (s.putWarp k w).slices = s.slices := rfl
@[simp] theorem State.putWarp_locks (s : State) (k : Nat) (w : Warp) : (s.putWarp k w).locks = s.locks := rfl
@[simp] theorem State.putWarp_net (s : State) (k : Nat) (w : Warp) : (s.putWarp k w).net = s.net := rfl
@[simp] theorem State.putWarp_clusterTlb (s : State) (k : Nat) (w : Warp) : (s.putWarp k w).clusterTlb = s.clusterTlb := rfl
@[simp] theorem State.putWarp_walkCache (s : State) (k : Nat) (w : Warp) : (s.putWarp k w).walkCache = s.walkCache := rfl
@[simp] theorem State.putWarp_windows (s : State) (k : Nat) (w : Warp) : (s.putWarp k w).windows = s.windows := rfl
@[simp] theorem State.putWarp_token (s : State) (k : Nat) (w : Warp) : (s.putWarp k w).token = s.token := rfl
@[simp] theorem State.putWarp_tokenQueue (s : State) (k : Nat) (w : Warp) : (s.putWarp k w).tokenQueue = s.tokenQueue := rfl
@[simp] theorem State.putWarp_clock (s : State) (k : Nat) (w : Warp) : (s.putWarp k w).clock = s.clock := rfl
@[simp] theorem State.putWarp_walkers (s : State) (k : Nat) (w : Warp) : (s.putWarp k w).walkers = s.walkers := rfl
@[simp] theorem State.putWarp_signals (s : State) (k : Nat) (w : Warp) : (s.putWarp k w).signals = s.signals := rfl
@[simp] theorem State.putWarp_decodeTables (s : State) (k : Nat) (w : Warp) : (s.putWarp k w).decodeTables = s.decodeTables := rfl
@[simp] theorem State.putWarp_arrived (s : State) (k : Nat) (w : Warp) : (s.putWarp k w).arrived = s.arrived := rfl
@[simp] theorem State.putWarp_launches (s : State) (k : Nat) (w : Warp) : (s.putWarp k w).launches = s.launches := rfl
@[simp] theorem State.putWarp_children (s : State) (k : Nat) (w : Warp) : (s.putWarp k w).children = s.children := rfl
@[simp] theorem State.putWarp_contexts (s : State) (k : Nat) (w : Warp) : (s.putWarp k w).contexts = s.contexts := rfl
@[simp] theorem State.putWarp_queues (s : State) (k : Nat) (w : Warp) : (s.putWarp k w).queues = s.queues := rfl
@[simp] theorem State.putWarp_roundRobin (s : State) (k : Nat) (w : Warp) : (s.putWarp k w).roundRobin = s.roundRobin := rfl
@[simp] theorem State.putWarp_nextLaunch (s : State) (k : Nat) (w : Warp) : (s.putWarp k w).nextLaunch = s.nextLaunch := rfl
@[simp] theorem State.putWarp_watched (s : State) (k : Nat) (w : Warp) : (s.putWarp k w).watched = s.watched := rfl
@[simp] theorem State.putWarp_code (s : State) (k : Nat) (w : Warp) : (s.putWarp k w).code = s.code := rfl
@[simp] theorem State.putWarp_ops (s : State) (k : Nat) (w : Warp) : (s.putWarp k w).ops = s.ops := rfl
@[simp] theorem State.putWarp_faults (s : State) (k : Nat) (w : Warp) : (s.putWarp k w).faults = s.faults := rfl
@[simp] theorem State.putWarp_outbox (s : State) (k : Nat) (w : Warp) : (s.putWarp k w).outbox = s.outbox := rfl
@[simp] theorem State.putWarp_rdma (s : State) (k : Nat) (w : Warp) : (s.putWarp k w).rdma = s.rdma := rfl
@[simp] theorem State.putWarp_rdmaPending (s : State) (k : Nat) (w : Warp) : (s.putWarp k w).rdmaPending = s.rdmaPending := rfl
@[simp] theorem State.putWarp_brokenPairs (s : State) (k : Nat) (w : Warp) : (s.putWarp k w).brokenPairs = s.brokenPairs := rfl
@[simp] theorem State.putWarp_mgmtUp (s : State) (k : Nat) (w : Warp) : (s.putWarp k w).mgmtUp = s.mgmtUp := rfl
@[simp] theorem State.putWarp_command (s : State) (k : Nat) (w : Warp) : (s.putWarp k w).command = s.command := rfl
@[simp] theorem State.putWarp_boot (s : State) (k : Nat) (w : Warp) : (s.putWarp k w).boot = s.boot := rfl
@[simp] theorem State.putWarp_flash (s : State) (k : Nat) (w : Warp) : (s.putWarp k w).flash = s.flash := rfl
@[simp] theorem State.putWarp_image (s : State) (k : Nat) (w : Warp) : (s.putWarp k w).image = s.image := rfl
@[simp] theorem State.putWarp_ports (s : State) (k : Nat) (w : Warp) : (s.putWarp k w).ports = s.ports := rfl
@[simp] theorem State.putWarp_packageId (s : State) (k : Nat) (w : Warp) : (s.putWarp k w).packageId = s.packageId := rfl
@[simp] theorem State.putWarp_members (s : State) (k : Nat) (w : Warp) : (s.putWarp k w).members = s.members := rfl
@[simp] theorem State.putWarp_priorities (s : State) (k : Nat) (w : Warp) : (s.putWarp k w).priorities = s.priorities := rfl
@[simp] theorem State.putWarp_peers (s : State) (k : Nat) (w : Warp) : (s.putWarp k w).peers = s.peers := rfl
@[simp] theorem State.putWarp_collectives (s : State) (k : Nat) (w : Warp) : (s.putWarp k w).collectives = s.collectives := rfl
@[simp] theorem State.putWarp_collFrames (s : State) (k : Nat) (w : Warp) : (s.putWarp k w).collFrames = s.collFrames := rfl
@[simp] theorem State.putWarp_collCounts (s : State) (k : Nat) (w : Warp) : (s.putWarp k w).collCounts = s.collCounts := rfl
@[simp] theorem State.putWarp_readOnlyCopies (s : State) (k : Nat) (w : Warp) : (s.putWarp k w).readOnlyCopies = s.readOnlyCopies := rfl
@[simp] theorem State.putWarp_answers (s : State) (k : Nat) (w : Warp) : (s.putWarp k w).answers = s.answers := rfl
@[simp] theorem State.putWarp_control (s : State) (k : Nat) (w : Warp) : (s.putWarp k w).control = s.control := rfl
@[simp] theorem State.putWarp_rings (s : State) (k : Nat) (w : Warp) : (s.putWarp k w).rings = s.rings := rfl
@[simp] theorem State.putWarp_frozen (s : State) (k : Nat) (w : Warp) : (s.putWarp k w).frozen = s.frozen := rfl
@[simp] theorem State.putWarp_islands (s : State) (k : Nat) (w : Warp) : (s.putWarp k w).islands = s.islands := rfl
@[simp] theorem State.putWarp_nextId (s : State) (k : Nat) (w : Warp) : (s.putWarp k w).nextId = s.nextId := rfl
@[simp] theorem State.putWarp_agenda (s : State) (k : Nat) (w : Warp) : (s.putWarp k w).agenda = s.agenda := rfl
@[simp] theorem State.putWarp_turn (s : State) (k : Nat) (w : Warp) : (s.putWarp k w).turn = s.turn := rfl
@[simp] theorem State.putWarp_tick (s : State) (k : Nat) (w : Warp) : (s.putWarp k w).tick = s.tick := rfl

/-! ### State.forget -/

@[simp] theorem State.forget_warps (s : State) (k : Nat) : (s.forget k).warps = s.warps := rfl
@[simp] theorem State.forget_teams (s : State) (k : Nat) : (s.forget k).teams = s.teams := rfl
@[simp] theorem State.forget_cores (s : State) (k : Nat) : (s.forget k).cores = s.cores := rfl
@[simp] theorem State.forget_mem (s : State) (k : Nat) : (s.forget k).mem = s.mem := rfl
@[simp] theorem State.forget_poison (s : State) (k : Nat) : (s.forget k).poison = s.poison := rfl
@[simp] theorem State.forget_l2 (s : State) (k : Nat) : (s.forget k).l2 = s.l2 := rfl
@[simp] theorem State.forget_msc (s : State) (k : Nat) : (s.forget k).msc = s.msc := rfl
@[simp] theorem State.forget_mscFills (s : State) (k : Nat) : (s.forget k).mscFills = s.mscFills := rfl
@[simp] theorem State.forget_dirs (s : State) (k : Nat) : (s.forget k).dirs = s.dirs := rfl
@[simp] theorem State.forget_slices (s : State) (k : Nat) : (s.forget k).slices = s.slices := rfl
@[simp] theorem State.forget_locks (s : State) (k : Nat) : (s.forget k).locks = s.locks := rfl
@[simp] theorem State.forget_net (s : State) (k : Nat) : (s.forget k).net = s.net := rfl
@[simp] theorem State.forget_clusterTlb (s : State) (k : Nat) : (s.forget k).clusterTlb = s.clusterTlb := rfl
@[simp] theorem State.forget_walkCache (s : State) (k : Nat) : (s.forget k).walkCache = s.walkCache := rfl
@[simp] theorem State.forget_windows (s : State) (k : Nat) : (s.forget k).windows = s.windows := rfl
@[simp] theorem State.forget_token (s : State) (k : Nat) : (s.forget k).token = s.token := rfl
@[simp] theorem State.forget_tokenQueue (s : State) (k : Nat) : (s.forget k).tokenQueue = s.tokenQueue := rfl
@[simp] theorem State.forget_clock (s : State) (k : Nat) : (s.forget k).clock = s.clock := rfl
@[simp] theorem State.forget_walkers (s : State) (k : Nat) : (s.forget k).walkers = s.walkers := rfl
@[simp] theorem State.forget_signals (s : State) (k : Nat) : (s.forget k).signals = s.signals := rfl
@[simp] theorem State.forget_decodeTables (s : State) (k : Nat) : (s.forget k).decodeTables = s.decodeTables := rfl
@[simp] theorem State.forget_arrived (s : State) (k : Nat) : (s.forget k).arrived = s.arrived := rfl
@[simp] theorem State.forget_launches (s : State) (k : Nat) : (s.forget k).launches = s.launches := rfl
@[simp] theorem State.forget_children (s : State) (k : Nat) : (s.forget k).children = s.children := rfl
@[simp] theorem State.forget_contexts (s : State) (k : Nat) : (s.forget k).contexts = s.contexts := rfl
@[simp] theorem State.forget_queues (s : State) (k : Nat) : (s.forget k).queues = s.queues := rfl
@[simp] theorem State.forget_roundRobin (s : State) (k : Nat) : (s.forget k).roundRobin = s.roundRobin := rfl
@[simp] theorem State.forget_nextLaunch (s : State) (k : Nat) : (s.forget k).nextLaunch = s.nextLaunch := rfl
@[simp] theorem State.forget_watched (s : State) (k : Nat) : (s.forget k).watched = s.watched := rfl
@[simp] theorem State.forget_code (s : State) (k : Nat) : (s.forget k).code = s.code := rfl
@[simp] theorem State.forget_ops (s : State) (k : Nat) : (s.forget k).ops = s.ops := rfl
@[simp] theorem State.forget_faults (s : State) (k : Nat) : (s.forget k).faults = s.faults := rfl
@[simp] theorem State.forget_outbox (s : State) (k : Nat) : (s.forget k).outbox = s.outbox := rfl
@[simp] theorem State.forget_rdma (s : State) (k : Nat) : (s.forget k).rdma = s.rdma := rfl
@[simp] theorem State.forget_rdmaPending (s : State) (k : Nat) : (s.forget k).rdmaPending = s.rdmaPending := rfl
@[simp] theorem State.forget_brokenPairs (s : State) (k : Nat) : (s.forget k).brokenPairs = s.brokenPairs := rfl
@[simp] theorem State.forget_mgmtUp (s : State) (k : Nat) : (s.forget k).mgmtUp = s.mgmtUp := rfl
@[simp] theorem State.forget_command (s : State) (k : Nat) : (s.forget k).command = s.command := rfl
@[simp] theorem State.forget_boot (s : State) (k : Nat) : (s.forget k).boot = s.boot := rfl
@[simp] theorem State.forget_flash (s : State) (k : Nat) : (s.forget k).flash = s.flash := rfl
@[simp] theorem State.forget_image (s : State) (k : Nat) : (s.forget k).image = s.image := rfl
@[simp] theorem State.forget_ports (s : State) (k : Nat) : (s.forget k).ports = s.ports := rfl
@[simp] theorem State.forget_packageId (s : State) (k : Nat) : (s.forget k).packageId = s.packageId := rfl
@[simp] theorem State.forget_members (s : State) (k : Nat) : (s.forget k).members = s.members := rfl
@[simp] theorem State.forget_priorities (s : State) (k : Nat) : (s.forget k).priorities = s.priorities := rfl
@[simp] theorem State.forget_peers (s : State) (k : Nat) : (s.forget k).peers = s.peers := rfl
@[simp] theorem State.forget_collectives (s : State) (k : Nat) : (s.forget k).collectives = s.collectives := rfl
@[simp] theorem State.forget_collFrames (s : State) (k : Nat) : (s.forget k).collFrames = s.collFrames := rfl
@[simp] theorem State.forget_collCounts (s : State) (k : Nat) : (s.forget k).collCounts = s.collCounts := rfl
@[simp] theorem State.forget_readOnlyCopies (s : State) (k : Nat) : (s.forget k).readOnlyCopies = s.readOnlyCopies := rfl
@[simp] theorem State.forget_answers (s : State) (k : Nat) : (s.forget k).answers = s.answers.filter fun a => a.who != .warp k := rfl
@[simp] theorem State.forget_control (s : State) (k : Nat) : (s.forget k).control = s.control := rfl
@[simp] theorem State.forget_rings (s : State) (k : Nat) : (s.forget k).rings = s.rings := rfl
@[simp] theorem State.forget_frozen (s : State) (k : Nat) : (s.forget k).frozen = s.frozen := rfl
@[simp] theorem State.forget_islands (s : State) (k : Nat) : (s.forget k).islands = s.islands := rfl
@[simp] theorem State.forget_nextId (s : State) (k : Nat) : (s.forget k).nextId = s.nextId := rfl
@[simp] theorem State.forget_agenda (s : State) (k : Nat) : (s.forget k).agenda = s.agenda := rfl
@[simp] theorem State.forget_turn (s : State) (k : Nat) : (s.forget k).turn = s.turn := rfl
@[simp] theorem State.forget_tick (s : State) (k : Nat) : (s.forget k).tick = s.tick := rfl

/-! ### State.setQueue -/

@[simp] theorem State.setQueue_warps (s : State) (core q : Nat) (x : QueueRegs) : (s.setQueue core q x).warps = s.warps := rfl
@[simp] theorem State.setQueue_teams (s : State) (core q : Nat) (x : QueueRegs) : (s.setQueue core q x).teams = s.teams := rfl
@[simp] theorem State.setQueue_cores (s : State) (core q : Nat) (x : QueueRegs) :
    (s.setQueue core q x).cores = tabSet s.cores core ((s.core core).setQueue q x) := rfl
@[simp] theorem State.setQueue_mem (s : State) (core q : Nat) (x : QueueRegs) : (s.setQueue core q x).mem = s.mem := rfl
@[simp] theorem State.setQueue_poison (s : State) (core q : Nat) (x : QueueRegs) : (s.setQueue core q x).poison = s.poison := rfl
@[simp] theorem State.setQueue_l2 (s : State) (core q : Nat) (x : QueueRegs) : (s.setQueue core q x).l2 = s.l2 := rfl
@[simp] theorem State.setQueue_msc (s : State) (core q : Nat) (x : QueueRegs) : (s.setQueue core q x).msc = s.msc := rfl
@[simp] theorem State.setQueue_mscFills (s : State) (core q : Nat) (x : QueueRegs) : (s.setQueue core q x).mscFills = s.mscFills := rfl
@[simp] theorem State.setQueue_dirs (s : State) (core q : Nat) (x : QueueRegs) : (s.setQueue core q x).dirs = s.dirs := rfl
@[simp] theorem State.setQueue_slices (s : State) (core q : Nat) (x : QueueRegs) : (s.setQueue core q x).slices = s.slices := rfl
@[simp] theorem State.setQueue_locks (s : State) (core q : Nat) (x : QueueRegs) : (s.setQueue core q x).locks = s.locks := rfl
@[simp] theorem State.setQueue_net (s : State) (core q : Nat) (x : QueueRegs) : (s.setQueue core q x).net = s.net := rfl
@[simp] theorem State.setQueue_clusterTlb (s : State) (core q : Nat) (x : QueueRegs) : (s.setQueue core q x).clusterTlb = s.clusterTlb := rfl
@[simp] theorem State.setQueue_walkCache (s : State) (core q : Nat) (x : QueueRegs) : (s.setQueue core q x).walkCache = s.walkCache := rfl
@[simp] theorem State.setQueue_windows (s : State) (core q : Nat) (x : QueueRegs) : (s.setQueue core q x).windows = s.windows := rfl
@[simp] theorem State.setQueue_token (s : State) (core q : Nat) (x : QueueRegs) : (s.setQueue core q x).token = s.token := rfl
@[simp] theorem State.setQueue_tokenQueue (s : State) (core q : Nat) (x : QueueRegs) : (s.setQueue core q x).tokenQueue = s.tokenQueue := rfl
@[simp] theorem State.setQueue_clock (s : State) (core q : Nat) (x : QueueRegs) : (s.setQueue core q x).clock = s.clock := rfl
@[simp] theorem State.setQueue_walkers (s : State) (core q : Nat) (x : QueueRegs) : (s.setQueue core q x).walkers = s.walkers := rfl
@[simp] theorem State.setQueue_signals (s : State) (core q : Nat) (x : QueueRegs) : (s.setQueue core q x).signals = s.signals := rfl
@[simp] theorem State.setQueue_decodeTables (s : State) (core q : Nat) (x : QueueRegs) : (s.setQueue core q x).decodeTables = s.decodeTables := rfl
@[simp] theorem State.setQueue_arrived (s : State) (core q : Nat) (x : QueueRegs) : (s.setQueue core q x).arrived = s.arrived := rfl
@[simp] theorem State.setQueue_launches (s : State) (core q : Nat) (x : QueueRegs) : (s.setQueue core q x).launches = s.launches := rfl
@[simp] theorem State.setQueue_children (s : State) (core q : Nat) (x : QueueRegs) : (s.setQueue core q x).children = s.children := rfl
@[simp] theorem State.setQueue_contexts (s : State) (core q : Nat) (x : QueueRegs) : (s.setQueue core q x).contexts = s.contexts := rfl
@[simp] theorem State.setQueue_queues (s : State) (core q : Nat) (x : QueueRegs) : (s.setQueue core q x).queues = s.queues := rfl
@[simp] theorem State.setQueue_roundRobin (s : State) (core q : Nat) (x : QueueRegs) : (s.setQueue core q x).roundRobin = s.roundRobin := rfl
@[simp] theorem State.setQueue_nextLaunch (s : State) (core q : Nat) (x : QueueRegs) : (s.setQueue core q x).nextLaunch = s.nextLaunch := rfl
@[simp] theorem State.setQueue_watched (s : State) (core q : Nat) (x : QueueRegs) : (s.setQueue core q x).watched = s.watched := rfl
@[simp] theorem State.setQueue_code (s : State) (core q : Nat) (x : QueueRegs) : (s.setQueue core q x).code = s.code := rfl
@[simp] theorem State.setQueue_ops (s : State) (core q : Nat) (x : QueueRegs) : (s.setQueue core q x).ops = s.ops := rfl
@[simp] theorem State.setQueue_faults (s : State) (core q : Nat) (x : QueueRegs) : (s.setQueue core q x).faults = s.faults := rfl
@[simp] theorem State.setQueue_outbox (s : State) (core q : Nat) (x : QueueRegs) : (s.setQueue core q x).outbox = s.outbox := rfl
@[simp] theorem State.setQueue_rdma (s : State) (core q : Nat) (x : QueueRegs) : (s.setQueue core q x).rdma = s.rdma := rfl
@[simp] theorem State.setQueue_rdmaPending (s : State) (core q : Nat) (x : QueueRegs) : (s.setQueue core q x).rdmaPending = s.rdmaPending := rfl
@[simp] theorem State.setQueue_brokenPairs (s : State) (core q : Nat) (x : QueueRegs) : (s.setQueue core q x).brokenPairs = s.brokenPairs := rfl
@[simp] theorem State.setQueue_mgmtUp (s : State) (core q : Nat) (x : QueueRegs) : (s.setQueue core q x).mgmtUp = s.mgmtUp := rfl
@[simp] theorem State.setQueue_command (s : State) (core q : Nat) (x : QueueRegs) : (s.setQueue core q x).command = s.command := rfl
@[simp] theorem State.setQueue_boot (s : State) (core q : Nat) (x : QueueRegs) : (s.setQueue core q x).boot = s.boot := rfl
@[simp] theorem State.setQueue_flash (s : State) (core q : Nat) (x : QueueRegs) : (s.setQueue core q x).flash = s.flash := rfl
@[simp] theorem State.setQueue_image (s : State) (core q : Nat) (x : QueueRegs) : (s.setQueue core q x).image = s.image := rfl
@[simp] theorem State.setQueue_ports (s : State) (core q : Nat) (x : QueueRegs) : (s.setQueue core q x).ports = s.ports := rfl
@[simp] theorem State.setQueue_packageId (s : State) (core q : Nat) (x : QueueRegs) : (s.setQueue core q x).packageId = s.packageId := rfl
@[simp] theorem State.setQueue_members (s : State) (core q : Nat) (x : QueueRegs) : (s.setQueue core q x).members = s.members := rfl
@[simp] theorem State.setQueue_priorities (s : State) (core q : Nat) (x : QueueRegs) : (s.setQueue core q x).priorities = s.priorities := rfl
@[simp] theorem State.setQueue_peers (s : State) (core q : Nat) (x : QueueRegs) : (s.setQueue core q x).peers = s.peers := rfl
@[simp] theorem State.setQueue_collectives (s : State) (core q : Nat) (x : QueueRegs) : (s.setQueue core q x).collectives = s.collectives := rfl
@[simp] theorem State.setQueue_collFrames (s : State) (core q : Nat) (x : QueueRegs) : (s.setQueue core q x).collFrames = s.collFrames := rfl
@[simp] theorem State.setQueue_collCounts (s : State) (core q : Nat) (x : QueueRegs) : (s.setQueue core q x).collCounts = s.collCounts := rfl
@[simp] theorem State.setQueue_readOnlyCopies (s : State) (core q : Nat) (x : QueueRegs) : (s.setQueue core q x).readOnlyCopies = s.readOnlyCopies := rfl
@[simp] theorem State.setQueue_answers (s : State) (core q : Nat) (x : QueueRegs) : (s.setQueue core q x).answers = s.answers := rfl
@[simp] theorem State.setQueue_control (s : State) (core q : Nat) (x : QueueRegs) : (s.setQueue core q x).control = s.control := rfl
@[simp] theorem State.setQueue_rings (s : State) (core q : Nat) (x : QueueRegs) : (s.setQueue core q x).rings = s.rings := rfl
@[simp] theorem State.setQueue_frozen (s : State) (core q : Nat) (x : QueueRegs) : (s.setQueue core q x).frozen = s.frozen := rfl
@[simp] theorem State.setQueue_islands (s : State) (core q : Nat) (x : QueueRegs) : (s.setQueue core q x).islands = s.islands := rfl
@[simp] theorem State.setQueue_nextId (s : State) (core q : Nat) (x : QueueRegs) : (s.setQueue core q x).nextId = s.nextId := rfl
@[simp] theorem State.setQueue_agenda (s : State) (core q : Nat) (x : QueueRegs) : (s.setQueue core q x).agenda = s.agenda := rfl
@[simp] theorem State.setQueue_turn (s : State) (core q : Nat) (x : QueueRegs) : (s.setQueue core q x).turn = s.turn := rfl
@[simp] theorem State.setQueue_tick (s : State) (core q : Nat) (x : QueueRegs) : (s.setQueue core q x).tick = s.tick := rfl

/-! ### State.wake -/

@[simp] theorem State.wake_warps (s : State) (ks : List Nat) :
    (s.wake ks).warps = s.warps.map fun e => if ks.contains e.1 then (e.1, { e.2 with status := .ready }) else e := rfl
@[simp] theorem State.wake_teams (s : State) (ks : List Nat) : (s.wake ks).teams = s.teams := rfl
@[simp] theorem State.wake_cores (s : State) (ks : List Nat) : (s.wake ks).cores = s.cores := rfl
@[simp] theorem State.wake_mem (s : State) (ks : List Nat) : (s.wake ks).mem = s.mem := rfl
@[simp] theorem State.wake_poison (s : State) (ks : List Nat) : (s.wake ks).poison = s.poison := rfl
@[simp] theorem State.wake_l2 (s : State) (ks : List Nat) : (s.wake ks).l2 = s.l2 := rfl
@[simp] theorem State.wake_msc (s : State) (ks : List Nat) : (s.wake ks).msc = s.msc := rfl
@[simp] theorem State.wake_mscFills (s : State) (ks : List Nat) : (s.wake ks).mscFills = s.mscFills := rfl
@[simp] theorem State.wake_dirs (s : State) (ks : List Nat) : (s.wake ks).dirs = s.dirs := rfl
@[simp] theorem State.wake_slices (s : State) (ks : List Nat) : (s.wake ks).slices = s.slices := rfl
@[simp] theorem State.wake_locks (s : State) (ks : List Nat) : (s.wake ks).locks = s.locks := rfl
@[simp] theorem State.wake_net (s : State) (ks : List Nat) : (s.wake ks).net = s.net := rfl
@[simp] theorem State.wake_clusterTlb (s : State) (ks : List Nat) : (s.wake ks).clusterTlb = s.clusterTlb := rfl
@[simp] theorem State.wake_walkCache (s : State) (ks : List Nat) : (s.wake ks).walkCache = s.walkCache := rfl
@[simp] theorem State.wake_windows (s : State) (ks : List Nat) : (s.wake ks).windows = s.windows := rfl
@[simp] theorem State.wake_token (s : State) (ks : List Nat) : (s.wake ks).token = s.token := rfl
@[simp] theorem State.wake_tokenQueue (s : State) (ks : List Nat) : (s.wake ks).tokenQueue = s.tokenQueue := rfl
@[simp] theorem State.wake_clock (s : State) (ks : List Nat) : (s.wake ks).clock = s.clock := rfl
@[simp] theorem State.wake_walkers (s : State) (ks : List Nat) : (s.wake ks).walkers = s.walkers := rfl
@[simp] theorem State.wake_signals (s : State) (ks : List Nat) : (s.wake ks).signals = s.signals := rfl
@[simp] theorem State.wake_decodeTables (s : State) (ks : List Nat) : (s.wake ks).decodeTables = s.decodeTables := rfl
@[simp] theorem State.wake_arrived (s : State) (ks : List Nat) : (s.wake ks).arrived = s.arrived := rfl
@[simp] theorem State.wake_launches (s : State) (ks : List Nat) : (s.wake ks).launches = s.launches := rfl
@[simp] theorem State.wake_children (s : State) (ks : List Nat) : (s.wake ks).children = s.children := rfl
@[simp] theorem State.wake_contexts (s : State) (ks : List Nat) : (s.wake ks).contexts = s.contexts := rfl
@[simp] theorem State.wake_queues (s : State) (ks : List Nat) : (s.wake ks).queues = s.queues := rfl
@[simp] theorem State.wake_roundRobin (s : State) (ks : List Nat) : (s.wake ks).roundRobin = s.roundRobin := rfl
@[simp] theorem State.wake_nextLaunch (s : State) (ks : List Nat) : (s.wake ks).nextLaunch = s.nextLaunch := rfl
@[simp] theorem State.wake_watched (s : State) (ks : List Nat) : (s.wake ks).watched = s.watched := rfl
@[simp] theorem State.wake_code (s : State) (ks : List Nat) : (s.wake ks).code = s.code := rfl
@[simp] theorem State.wake_ops (s : State) (ks : List Nat) : (s.wake ks).ops = s.ops := rfl
@[simp] theorem State.wake_faults (s : State) (ks : List Nat) : (s.wake ks).faults = s.faults := rfl
@[simp] theorem State.wake_outbox (s : State) (ks : List Nat) : (s.wake ks).outbox = s.outbox := rfl
@[simp] theorem State.wake_rdma (s : State) (ks : List Nat) : (s.wake ks).rdma = s.rdma := rfl
@[simp] theorem State.wake_rdmaPending (s : State) (ks : List Nat) : (s.wake ks).rdmaPending = s.rdmaPending := rfl
@[simp] theorem State.wake_brokenPairs (s : State) (ks : List Nat) : (s.wake ks).brokenPairs = s.brokenPairs := rfl
@[simp] theorem State.wake_mgmtUp (s : State) (ks : List Nat) : (s.wake ks).mgmtUp = s.mgmtUp := rfl
@[simp] theorem State.wake_command (s : State) (ks : List Nat) : (s.wake ks).command = s.command := rfl
@[simp] theorem State.wake_boot (s : State) (ks : List Nat) : (s.wake ks).boot = s.boot := rfl
@[simp] theorem State.wake_flash (s : State) (ks : List Nat) : (s.wake ks).flash = s.flash := rfl
@[simp] theorem State.wake_image (s : State) (ks : List Nat) : (s.wake ks).image = s.image := rfl
@[simp] theorem State.wake_ports (s : State) (ks : List Nat) : (s.wake ks).ports = s.ports := rfl
@[simp] theorem State.wake_packageId (s : State) (ks : List Nat) : (s.wake ks).packageId = s.packageId := rfl
@[simp] theorem State.wake_members (s : State) (ks : List Nat) : (s.wake ks).members = s.members := rfl
@[simp] theorem State.wake_priorities (s : State) (ks : List Nat) : (s.wake ks).priorities = s.priorities := rfl
@[simp] theorem State.wake_peers (s : State) (ks : List Nat) : (s.wake ks).peers = s.peers := rfl
@[simp] theorem State.wake_collectives (s : State) (ks : List Nat) : (s.wake ks).collectives = s.collectives := rfl
@[simp] theorem State.wake_collFrames (s : State) (ks : List Nat) : (s.wake ks).collFrames = s.collFrames := rfl
@[simp] theorem State.wake_collCounts (s : State) (ks : List Nat) : (s.wake ks).collCounts = s.collCounts := rfl
@[simp] theorem State.wake_readOnlyCopies (s : State) (ks : List Nat) : (s.wake ks).readOnlyCopies = s.readOnlyCopies := rfl
@[simp] theorem State.wake_answers (s : State) (ks : List Nat) : (s.wake ks).answers = s.answers := rfl
@[simp] theorem State.wake_control (s : State) (ks : List Nat) : (s.wake ks).control = s.control := rfl
@[simp] theorem State.wake_rings (s : State) (ks : List Nat) : (s.wake ks).rings = s.rings := rfl
@[simp] theorem State.wake_frozen (s : State) (ks : List Nat) : (s.wake ks).frozen = s.frozen := rfl
@[simp] theorem State.wake_islands (s : State) (ks : List Nat) : (s.wake ks).islands = s.islands := rfl
@[simp] theorem State.wake_nextId (s : State) (ks : List Nat) : (s.wake ks).nextId = s.nextId := rfl
@[simp] theorem State.wake_agenda (s : State) (ks : List Nat) : (s.wake ks).agenda = s.agenda := rfl
@[simp] theorem State.wake_turn (s : State) (ks : List Nat) : (s.wake ks).turn = s.turn := rfl
@[simp] theorem State.wake_tick (s : State) (ks : List Nat) : (s.wake ks).tick = s.tick := rfl

/-! ### State.writeBytes -/

@[simp] theorem State.writeBytes_warps (s : State) (a : Nat) (bs : List Byte) : (s.writeBytes a bs).warps = s.warps := rfl
@[simp] theorem State.writeBytes_teams (s : State) (a : Nat) (bs : List Byte) : (s.writeBytes a bs).teams = s.teams := rfl
@[simp] theorem State.writeBytes_cores (s : State) (a : Nat) (bs : List Byte) : (s.writeBytes a bs).cores = s.cores := rfl
@[simp] theorem State.writeBytes_mem (s : State) (a : Nat) (bs : List Byte) : (s.writeBytes a bs).mem = putBytes s.mem a bs := rfl
@[simp] theorem State.writeBytes_poison (s : State) (a : Nat) (bs : List Byte) : (s.writeBytes a bs).poison = clearPoison s.poison a bs.length := rfl
@[simp] theorem State.writeBytes_l2 (s : State) (a : Nat) (bs : List Byte) : (s.writeBytes a bs).l2 = s.l2 := rfl
@[simp] theorem State.writeBytes_msc (s : State) (a : Nat) (bs : List Byte) : (s.writeBytes a bs).msc = s.msc := rfl
@[simp] theorem State.writeBytes_mscFills (s : State) (a : Nat) (bs : List Byte) : (s.writeBytes a bs).mscFills = s.mscFills := rfl
@[simp] theorem State.writeBytes_dirs (s : State) (a : Nat) (bs : List Byte) : (s.writeBytes a bs).dirs = s.dirs := rfl
@[simp] theorem State.writeBytes_slices (s : State) (a : Nat) (bs : List Byte) : (s.writeBytes a bs).slices = s.slices := rfl
@[simp] theorem State.writeBytes_locks (s : State) (a : Nat) (bs : List Byte) : (s.writeBytes a bs).locks = s.locks := rfl
@[simp] theorem State.writeBytes_net (s : State) (a : Nat) (bs : List Byte) : (s.writeBytes a bs).net = s.net := rfl
@[simp] theorem State.writeBytes_clusterTlb (s : State) (a : Nat) (bs : List Byte) : (s.writeBytes a bs).clusterTlb = s.clusterTlb := rfl
@[simp] theorem State.writeBytes_walkCache (s : State) (a : Nat) (bs : List Byte) : (s.writeBytes a bs).walkCache = s.walkCache := rfl
@[simp] theorem State.writeBytes_windows (s : State) (a : Nat) (bs : List Byte) : (s.writeBytes a bs).windows = s.windows := rfl
@[simp] theorem State.writeBytes_token (s : State) (a : Nat) (bs : List Byte) : (s.writeBytes a bs).token = s.token := rfl
@[simp] theorem State.writeBytes_tokenQueue (s : State) (a : Nat) (bs : List Byte) : (s.writeBytes a bs).tokenQueue = s.tokenQueue := rfl
@[simp] theorem State.writeBytes_clock (s : State) (a : Nat) (bs : List Byte) : (s.writeBytes a bs).clock = s.clock := rfl
@[simp] theorem State.writeBytes_walkers (s : State) (a : Nat) (bs : List Byte) : (s.writeBytes a bs).walkers = s.walkers := rfl
@[simp] theorem State.writeBytes_signals (s : State) (a : Nat) (bs : List Byte) : (s.writeBytes a bs).signals = s.signals := rfl
@[simp] theorem State.writeBytes_decodeTables (s : State) (a : Nat) (bs : List Byte) : (s.writeBytes a bs).decodeTables = s.decodeTables := rfl
@[simp] theorem State.writeBytes_arrived (s : State) (a : Nat) (bs : List Byte) : (s.writeBytes a bs).arrived = s.arrived := rfl
@[simp] theorem State.writeBytes_launches (s : State) (a : Nat) (bs : List Byte) : (s.writeBytes a bs).launches = s.launches := rfl
@[simp] theorem State.writeBytes_children (s : State) (a : Nat) (bs : List Byte) : (s.writeBytes a bs).children = s.children := rfl
@[simp] theorem State.writeBytes_contexts (s : State) (a : Nat) (bs : List Byte) : (s.writeBytes a bs).contexts = s.contexts := rfl
@[simp] theorem State.writeBytes_queues (s : State) (a : Nat) (bs : List Byte) : (s.writeBytes a bs).queues = s.queues := rfl
@[simp] theorem State.writeBytes_roundRobin (s : State) (a : Nat) (bs : List Byte) : (s.writeBytes a bs).roundRobin = s.roundRobin := rfl
@[simp] theorem State.writeBytes_nextLaunch (s : State) (a : Nat) (bs : List Byte) : (s.writeBytes a bs).nextLaunch = s.nextLaunch := rfl
@[simp] theorem State.writeBytes_watched (s : State) (a : Nat) (bs : List Byte) : (s.writeBytes a bs).watched = s.watched := rfl
@[simp] theorem State.writeBytes_code (s : State) (a : Nat) (bs : List Byte) : (s.writeBytes a bs).code = s.code := rfl
@[simp] theorem State.writeBytes_ops (s : State) (a : Nat) (bs : List Byte) : (s.writeBytes a bs).ops = s.ops := rfl
@[simp] theorem State.writeBytes_faults (s : State) (a : Nat) (bs : List Byte) : (s.writeBytes a bs).faults = s.faults := rfl
@[simp] theorem State.writeBytes_outbox (s : State) (a : Nat) (bs : List Byte) : (s.writeBytes a bs).outbox = s.outbox := rfl
@[simp] theorem State.writeBytes_rdma (s : State) (a : Nat) (bs : List Byte) : (s.writeBytes a bs).rdma = s.rdma := rfl
@[simp] theorem State.writeBytes_rdmaPending (s : State) (a : Nat) (bs : List Byte) : (s.writeBytes a bs).rdmaPending = s.rdmaPending := rfl
@[simp] theorem State.writeBytes_brokenPairs (s : State) (a : Nat) (bs : List Byte) : (s.writeBytes a bs).brokenPairs = s.brokenPairs := rfl
@[simp] theorem State.writeBytes_mgmtUp (s : State) (a : Nat) (bs : List Byte) : (s.writeBytes a bs).mgmtUp = s.mgmtUp := rfl
@[simp] theorem State.writeBytes_command (s : State) (a : Nat) (bs : List Byte) : (s.writeBytes a bs).command = s.command := rfl
@[simp] theorem State.writeBytes_boot (s : State) (a : Nat) (bs : List Byte) : (s.writeBytes a bs).boot = s.boot := rfl
@[simp] theorem State.writeBytes_flash (s : State) (a : Nat) (bs : List Byte) : (s.writeBytes a bs).flash = s.flash := rfl
@[simp] theorem State.writeBytes_image (s : State) (a : Nat) (bs : List Byte) : (s.writeBytes a bs).image = s.image := rfl
@[simp] theorem State.writeBytes_ports (s : State) (a : Nat) (bs : List Byte) : (s.writeBytes a bs).ports = s.ports := rfl
@[simp] theorem State.writeBytes_packageId (s : State) (a : Nat) (bs : List Byte) : (s.writeBytes a bs).packageId = s.packageId := rfl
@[simp] theorem State.writeBytes_members (s : State) (a : Nat) (bs : List Byte) : (s.writeBytes a bs).members = s.members := rfl
@[simp] theorem State.writeBytes_priorities (s : State) (a : Nat) (bs : List Byte) : (s.writeBytes a bs).priorities = s.priorities := rfl
@[simp] theorem State.writeBytes_peers (s : State) (a : Nat) (bs : List Byte) : (s.writeBytes a bs).peers = s.peers := rfl
@[simp] theorem State.writeBytes_collectives (s : State) (a : Nat) (bs : List Byte) : (s.writeBytes a bs).collectives = s.collectives := rfl
@[simp] theorem State.writeBytes_collFrames (s : State) (a : Nat) (bs : List Byte) : (s.writeBytes a bs).collFrames = s.collFrames := rfl
@[simp] theorem State.writeBytes_collCounts (s : State) (a : Nat) (bs : List Byte) : (s.writeBytes a bs).collCounts = s.collCounts := rfl
@[simp] theorem State.writeBytes_readOnlyCopies (s : State) (a : Nat) (bs : List Byte) : (s.writeBytes a bs).readOnlyCopies = s.readOnlyCopies := rfl
@[simp] theorem State.writeBytes_answers (s : State) (a : Nat) (bs : List Byte) : (s.writeBytes a bs).answers = s.answers := rfl
@[simp] theorem State.writeBytes_control (s : State) (a : Nat) (bs : List Byte) : (s.writeBytes a bs).control = s.control := rfl
@[simp] theorem State.writeBytes_rings (s : State) (a : Nat) (bs : List Byte) : (s.writeBytes a bs).rings = s.rings := rfl
@[simp] theorem State.writeBytes_frozen (s : State) (a : Nat) (bs : List Byte) : (s.writeBytes a bs).frozen = s.frozen := rfl
@[simp] theorem State.writeBytes_islands (s : State) (a : Nat) (bs : List Byte) : (s.writeBytes a bs).islands = s.islands := rfl
@[simp] theorem State.writeBytes_nextId (s : State) (a : Nat) (bs : List Byte) : (s.writeBytes a bs).nextId = s.nextId := rfl
@[simp] theorem State.writeBytes_agenda (s : State) (a : Nat) (bs : List Byte) : (s.writeBytes a bs).agenda = s.agenda := rfl
@[simp] theorem State.writeBytes_turn (s : State) (a : Nat) (bs : List Byte) : (s.writeBytes a bs).turn = s.turn := rfl
@[simp] theorem State.writeBytes_tick (s : State) (a : Nat) (bs : List Byte) : (s.writeBytes a bs).tick = s.tick := rfl

/-! ### State.clearOthers -/

@[simp] theorem State.clearOthers_warps (s : State) (k : Nat) (w : Warp) :
    (s.clearOthers k w).warps = (s.warps.map fun e => if e.1 != k && e.2.core == w.core && e.2.quarter == w.quarter then (e.1, e.2.clearLatches) else e) := rfl
@[simp] theorem State.clearOthers_teams (s : State) (k : Nat) (w : Warp) : (s.clearOthers k w).teams = s.teams := rfl
@[simp] theorem State.clearOthers_cores (s : State) (k : Nat) (w : Warp) : (s.clearOthers k w).cores = s.cores := rfl
@[simp] theorem State.clearOthers_mem (s : State) (k : Nat) (w : Warp) : (s.clearOthers k w).mem = s.mem := rfl
@[simp] theorem State.clearOthers_poison (s : State) (k : Nat) (w : Warp) : (s.clearOthers k w).poison = s.poison := rfl
@[simp] theorem State.clearOthers_l2 (s : State) (k : Nat) (w : Warp) : (s.clearOthers k w).l2 = s.l2 := rfl
@[simp] theorem State.clearOthers_msc (s : State) (k : Nat) (w : Warp) : (s.clearOthers k w).msc = s.msc := rfl
@[simp] theorem State.clearOthers_mscFills (s : State) (k : Nat) (w : Warp) : (s.clearOthers k w).mscFills = s.mscFills := rfl
@[simp] theorem State.clearOthers_dirs (s : State) (k : Nat) (w : Warp) : (s.clearOthers k w).dirs = s.dirs := rfl
@[simp] theorem State.clearOthers_slices (s : State) (k : Nat) (w : Warp) : (s.clearOthers k w).slices = s.slices := rfl
@[simp] theorem State.clearOthers_locks (s : State) (k : Nat) (w : Warp) : (s.clearOthers k w).locks = s.locks := rfl
@[simp] theorem State.clearOthers_net (s : State) (k : Nat) (w : Warp) : (s.clearOthers k w).net = s.net := rfl
@[simp] theorem State.clearOthers_clusterTlb (s : State) (k : Nat) (w : Warp) : (s.clearOthers k w).clusterTlb = s.clusterTlb := rfl
@[simp] theorem State.clearOthers_walkCache (s : State) (k : Nat) (w : Warp) : (s.clearOthers k w).walkCache = s.walkCache := rfl
@[simp] theorem State.clearOthers_windows (s : State) (k : Nat) (w : Warp) : (s.clearOthers k w).windows = s.windows := rfl
@[simp] theorem State.clearOthers_token (s : State) (k : Nat) (w : Warp) : (s.clearOthers k w).token = s.token := rfl
@[simp] theorem State.clearOthers_tokenQueue (s : State) (k : Nat) (w : Warp) : (s.clearOthers k w).tokenQueue = s.tokenQueue := rfl
@[simp] theorem State.clearOthers_clock (s : State) (k : Nat) (w : Warp) : (s.clearOthers k w).clock = s.clock := rfl
@[simp] theorem State.clearOthers_walkers (s : State) (k : Nat) (w : Warp) : (s.clearOthers k w).walkers = s.walkers := rfl
@[simp] theorem State.clearOthers_signals (s : State) (k : Nat) (w : Warp) : (s.clearOthers k w).signals = s.signals := rfl
@[simp] theorem State.clearOthers_decodeTables (s : State) (k : Nat) (w : Warp) : (s.clearOthers k w).decodeTables = s.decodeTables := rfl
@[simp] theorem State.clearOthers_arrived (s : State) (k : Nat) (w : Warp) : (s.clearOthers k w).arrived = s.arrived := rfl
@[simp] theorem State.clearOthers_launches (s : State) (k : Nat) (w : Warp) : (s.clearOthers k w).launches = s.launches := rfl
@[simp] theorem State.clearOthers_children (s : State) (k : Nat) (w : Warp) : (s.clearOthers k w).children = s.children := rfl
@[simp] theorem State.clearOthers_contexts (s : State) (k : Nat) (w : Warp) : (s.clearOthers k w).contexts = s.contexts := rfl
@[simp] theorem State.clearOthers_queues (s : State) (k : Nat) (w : Warp) : (s.clearOthers k w).queues = s.queues := rfl
@[simp] theorem State.clearOthers_roundRobin (s : State) (k : Nat) (w : Warp) : (s.clearOthers k w).roundRobin = s.roundRobin := rfl
@[simp] theorem State.clearOthers_nextLaunch (s : State) (k : Nat) (w : Warp) : (s.clearOthers k w).nextLaunch = s.nextLaunch := rfl
@[simp] theorem State.clearOthers_watched (s : State) (k : Nat) (w : Warp) : (s.clearOthers k w).watched = s.watched := rfl
@[simp] theorem State.clearOthers_code (s : State) (k : Nat) (w : Warp) : (s.clearOthers k w).code = s.code := rfl
@[simp] theorem State.clearOthers_ops (s : State) (k : Nat) (w : Warp) : (s.clearOthers k w).ops = s.ops := rfl
@[simp] theorem State.clearOthers_faults (s : State) (k : Nat) (w : Warp) : (s.clearOthers k w).faults = s.faults := rfl
@[simp] theorem State.clearOthers_outbox (s : State) (k : Nat) (w : Warp) : (s.clearOthers k w).outbox = s.outbox := rfl
@[simp] theorem State.clearOthers_rdma (s : State) (k : Nat) (w : Warp) : (s.clearOthers k w).rdma = s.rdma := rfl
@[simp] theorem State.clearOthers_rdmaPending (s : State) (k : Nat) (w : Warp) : (s.clearOthers k w).rdmaPending = s.rdmaPending := rfl
@[simp] theorem State.clearOthers_brokenPairs (s : State) (k : Nat) (w : Warp) : (s.clearOthers k w).brokenPairs = s.brokenPairs := rfl
@[simp] theorem State.clearOthers_mgmtUp (s : State) (k : Nat) (w : Warp) : (s.clearOthers k w).mgmtUp = s.mgmtUp := rfl
@[simp] theorem State.clearOthers_command (s : State) (k : Nat) (w : Warp) : (s.clearOthers k w).command = s.command := rfl
@[simp] theorem State.clearOthers_boot (s : State) (k : Nat) (w : Warp) : (s.clearOthers k w).boot = s.boot := rfl
@[simp] theorem State.clearOthers_flash (s : State) (k : Nat) (w : Warp) : (s.clearOthers k w).flash = s.flash := rfl
@[simp] theorem State.clearOthers_image (s : State) (k : Nat) (w : Warp) : (s.clearOthers k w).image = s.image := rfl
@[simp] theorem State.clearOthers_ports (s : State) (k : Nat) (w : Warp) : (s.clearOthers k w).ports = s.ports := rfl
@[simp] theorem State.clearOthers_packageId (s : State) (k : Nat) (w : Warp) : (s.clearOthers k w).packageId = s.packageId := rfl
@[simp] theorem State.clearOthers_members (s : State) (k : Nat) (w : Warp) : (s.clearOthers k w).members = s.members := rfl
@[simp] theorem State.clearOthers_priorities (s : State) (k : Nat) (w : Warp) : (s.clearOthers k w).priorities = s.priorities := rfl
@[simp] theorem State.clearOthers_peers (s : State) (k : Nat) (w : Warp) : (s.clearOthers k w).peers = s.peers := rfl
@[simp] theorem State.clearOthers_collectives (s : State) (k : Nat) (w : Warp) : (s.clearOthers k w).collectives = s.collectives := rfl
@[simp] theorem State.clearOthers_collFrames (s : State) (k : Nat) (w : Warp) : (s.clearOthers k w).collFrames = s.collFrames := rfl
@[simp] theorem State.clearOthers_collCounts (s : State) (k : Nat) (w : Warp) : (s.clearOthers k w).collCounts = s.collCounts := rfl
@[simp] theorem State.clearOthers_readOnlyCopies (s : State) (k : Nat) (w : Warp) : (s.clearOthers k w).readOnlyCopies = s.readOnlyCopies := rfl
@[simp] theorem State.clearOthers_answers (s : State) (k : Nat) (w : Warp) : (s.clearOthers k w).answers = s.answers := rfl
@[simp] theorem State.clearOthers_control (s : State) (k : Nat) (w : Warp) : (s.clearOthers k w).control = s.control := rfl
@[simp] theorem State.clearOthers_rings (s : State) (k : Nat) (w : Warp) : (s.clearOthers k w).rings = s.rings := rfl
@[simp] theorem State.clearOthers_frozen (s : State) (k : Nat) (w : Warp) : (s.clearOthers k w).frozen = s.frozen := rfl
@[simp] theorem State.clearOthers_islands (s : State) (k : Nat) (w : Warp) : (s.clearOthers k w).islands = s.islands := rfl
@[simp] theorem State.clearOthers_nextId (s : State) (k : Nat) (w : Warp) : (s.clearOthers k w).nextId = s.nextId := rfl
@[simp] theorem State.clearOthers_agenda (s : State) (k : Nat) (w : Warp) : (s.clearOthers k w).agenda = s.agenda := rfl
@[simp] theorem State.clearOthers_turn (s : State) (k : Nat) (w : Warp) : (s.clearOthers k w).turn = s.turn := rfl
@[simp] theorem State.clearOthers_tick (s : State) (k : Nat) (w : Warp) : (s.clearOthers k w).tick = s.tick := rfl

/-! ### State.setDir -/

@[simp] theorem State.setDir_warps (s : State) (line : Nat) (d : DirEntry) : (s.setDir line d).warps = s.warps := rfl
@[simp] theorem State.setDir_teams (s : State) (line : Nat) (d : DirEntry) : (s.setDir line d).teams = s.teams := rfl
@[simp] theorem State.setDir_cores (s : State) (line : Nat) (d : DirEntry) : (s.setDir line d).cores = s.cores := rfl
@[simp] theorem State.setDir_mem (s : State) (line : Nat) (d : DirEntry) : (s.setDir line d).mem = s.mem := rfl
@[simp] theorem State.setDir_poison (s : State) (line : Nat) (d : DirEntry) : (s.setDir line d).poison = s.poison := rfl
@[simp] theorem State.setDir_l2 (s : State) (line : Nat) (d : DirEntry) : (s.setDir line d).l2 = s.l2 := rfl
@[simp] theorem State.setDir_msc (s : State) (line : Nat) (d : DirEntry) : (s.setDir line d).msc = s.msc := rfl
@[simp] theorem State.setDir_mscFills (s : State) (line : Nat) (d : DirEntry) : (s.setDir line d).mscFills = s.mscFills := rfl
@[simp] theorem State.setDir_dirs (s : State) (line : Nat) (d : DirEntry) : (s.setDir line d).dirs = tabSet s.dirs line d := rfl
@[simp] theorem State.setDir_slices (s : State) (line : Nat) (d : DirEntry) : (s.setDir line d).slices = s.slices := rfl
@[simp] theorem State.setDir_locks (s : State) (line : Nat) (d : DirEntry) : (s.setDir line d).locks = s.locks := rfl
@[simp] theorem State.setDir_net (s : State) (line : Nat) (d : DirEntry) : (s.setDir line d).net = s.net := rfl
@[simp] theorem State.setDir_clusterTlb (s : State) (line : Nat) (d : DirEntry) : (s.setDir line d).clusterTlb = s.clusterTlb := rfl
@[simp] theorem State.setDir_walkCache (s : State) (line : Nat) (d : DirEntry) : (s.setDir line d).walkCache = s.walkCache := rfl
@[simp] theorem State.setDir_windows (s : State) (line : Nat) (d : DirEntry) : (s.setDir line d).windows = s.windows := rfl
@[simp] theorem State.setDir_token (s : State) (line : Nat) (d : DirEntry) : (s.setDir line d).token = s.token := rfl
@[simp] theorem State.setDir_tokenQueue (s : State) (line : Nat) (d : DirEntry) : (s.setDir line d).tokenQueue = s.tokenQueue := rfl
@[simp] theorem State.setDir_clock (s : State) (line : Nat) (d : DirEntry) : (s.setDir line d).clock = s.clock := rfl
@[simp] theorem State.setDir_walkers (s : State) (line : Nat) (d : DirEntry) : (s.setDir line d).walkers = s.walkers := rfl
@[simp] theorem State.setDir_signals (s : State) (line : Nat) (d : DirEntry) : (s.setDir line d).signals = s.signals := rfl
@[simp] theorem State.setDir_decodeTables (s : State) (line : Nat) (d : DirEntry) : (s.setDir line d).decodeTables = s.decodeTables := rfl
@[simp] theorem State.setDir_arrived (s : State) (line : Nat) (d : DirEntry) : (s.setDir line d).arrived = s.arrived := rfl
@[simp] theorem State.setDir_launches (s : State) (line : Nat) (d : DirEntry) : (s.setDir line d).launches = s.launches := rfl
@[simp] theorem State.setDir_children (s : State) (line : Nat) (d : DirEntry) : (s.setDir line d).children = s.children := rfl
@[simp] theorem State.setDir_contexts (s : State) (line : Nat) (d : DirEntry) : (s.setDir line d).contexts = s.contexts := rfl
@[simp] theorem State.setDir_queues (s : State) (line : Nat) (d : DirEntry) : (s.setDir line d).queues = s.queues := rfl
@[simp] theorem State.setDir_roundRobin (s : State) (line : Nat) (d : DirEntry) : (s.setDir line d).roundRobin = s.roundRobin := rfl
@[simp] theorem State.setDir_nextLaunch (s : State) (line : Nat) (d : DirEntry) : (s.setDir line d).nextLaunch = s.nextLaunch := rfl
@[simp] theorem State.setDir_watched (s : State) (line : Nat) (d : DirEntry) : (s.setDir line d).watched = s.watched := rfl
@[simp] theorem State.setDir_code (s : State) (line : Nat) (d : DirEntry) : (s.setDir line d).code = s.code := rfl
@[simp] theorem State.setDir_ops (s : State) (line : Nat) (d : DirEntry) : (s.setDir line d).ops = s.ops := rfl
@[simp] theorem State.setDir_faults (s : State) (line : Nat) (d : DirEntry) : (s.setDir line d).faults = s.faults := rfl
@[simp] theorem State.setDir_outbox (s : State) (line : Nat) (d : DirEntry) : (s.setDir line d).outbox = s.outbox := rfl
@[simp] theorem State.setDir_rdma (s : State) (line : Nat) (d : DirEntry) : (s.setDir line d).rdma = s.rdma := rfl
@[simp] theorem State.setDir_rdmaPending (s : State) (line : Nat) (d : DirEntry) : (s.setDir line d).rdmaPending = s.rdmaPending := rfl
@[simp] theorem State.setDir_brokenPairs (s : State) (line : Nat) (d : DirEntry) : (s.setDir line d).brokenPairs = s.brokenPairs := rfl
@[simp] theorem State.setDir_mgmtUp (s : State) (line : Nat) (d : DirEntry) : (s.setDir line d).mgmtUp = s.mgmtUp := rfl
@[simp] theorem State.setDir_command (s : State) (line : Nat) (d : DirEntry) : (s.setDir line d).command = s.command := rfl
@[simp] theorem State.setDir_boot (s : State) (line : Nat) (d : DirEntry) : (s.setDir line d).boot = s.boot := rfl
@[simp] theorem State.setDir_flash (s : State) (line : Nat) (d : DirEntry) : (s.setDir line d).flash = s.flash := rfl
@[simp] theorem State.setDir_image (s : State) (line : Nat) (d : DirEntry) : (s.setDir line d).image = s.image := rfl
@[simp] theorem State.setDir_ports (s : State) (line : Nat) (d : DirEntry) : (s.setDir line d).ports = s.ports := rfl
@[simp] theorem State.setDir_packageId (s : State) (line : Nat) (d : DirEntry) : (s.setDir line d).packageId = s.packageId := rfl
@[simp] theorem State.setDir_members (s : State) (line : Nat) (d : DirEntry) : (s.setDir line d).members = s.members := rfl
@[simp] theorem State.setDir_priorities (s : State) (line : Nat) (d : DirEntry) : (s.setDir line d).priorities = s.priorities := rfl
@[simp] theorem State.setDir_peers (s : State) (line : Nat) (d : DirEntry) : (s.setDir line d).peers = s.peers := rfl
@[simp] theorem State.setDir_collectives (s : State) (line : Nat) (d : DirEntry) : (s.setDir line d).collectives = s.collectives := rfl
@[simp] theorem State.setDir_collFrames (s : State) (line : Nat) (d : DirEntry) : (s.setDir line d).collFrames = s.collFrames := rfl
@[simp] theorem State.setDir_collCounts (s : State) (line : Nat) (d : DirEntry) : (s.setDir line d).collCounts = s.collCounts := rfl
@[simp] theorem State.setDir_readOnlyCopies (s : State) (line : Nat) (d : DirEntry) : (s.setDir line d).readOnlyCopies = s.readOnlyCopies := rfl
@[simp] theorem State.setDir_answers (s : State) (line : Nat) (d : DirEntry) : (s.setDir line d).answers = s.answers := rfl
@[simp] theorem State.setDir_control (s : State) (line : Nat) (d : DirEntry) : (s.setDir line d).control = s.control := rfl
@[simp] theorem State.setDir_rings (s : State) (line : Nat) (d : DirEntry) : (s.setDir line d).rings = s.rings := rfl
@[simp] theorem State.setDir_frozen (s : State) (line : Nat) (d : DirEntry) : (s.setDir line d).frozen = s.frozen := rfl
@[simp] theorem State.setDir_islands (s : State) (line : Nat) (d : DirEntry) : (s.setDir line d).islands = s.islands := rfl
@[simp] theorem State.setDir_nextId (s : State) (line : Nat) (d : DirEntry) : (s.setDir line d).nextId = s.nextId := rfl
@[simp] theorem State.setDir_agenda (s : State) (line : Nat) (d : DirEntry) : (s.setDir line d).agenda = s.agenda := rfl
@[simp] theorem State.setDir_turn (s : State) (line : Nat) (d : DirEntry) : (s.setDir line d).turn = s.turn := rfl
@[simp] theorem State.setDir_tick (s : State) (line : Nat) (d : DirEntry) : (s.setDir line d).tick = s.tick := rfl

/-! ### State.take -/

@[simp] theorem State.take_warps (s : State) (m : Msg) : (s.take m).warps = s.warps := rfl
@[simp] theorem State.take_teams (s : State) (m : Msg) : (s.take m).teams = s.teams := rfl
@[simp] theorem State.take_cores (s : State) (m : Msg) : (s.take m).cores = s.cores := rfl
@[simp] theorem State.take_mem (s : State) (m : Msg) : (s.take m).mem = s.mem := rfl
@[simp] theorem State.take_poison (s : State) (m : Msg) : (s.take m).poison = s.poison := rfl
@[simp] theorem State.take_l2 (s : State) (m : Msg) : (s.take m).l2 = s.l2 := rfl
@[simp] theorem State.take_msc (s : State) (m : Msg) : (s.take m).msc = s.msc := rfl
@[simp] theorem State.take_mscFills (s : State) (m : Msg) : (s.take m).mscFills = s.mscFills := rfl
@[simp] theorem State.take_dirs (s : State) (m : Msg) : (s.take m).dirs = s.dirs := rfl
@[simp] theorem State.take_slices (s : State) (m : Msg) : (s.take m).slices = s.slices := rfl
@[simp] theorem State.take_locks (s : State) (m : Msg) : (s.take m).locks = s.locks := rfl
@[simp] theorem State.take_net (s : State) (m : Msg) : (s.take m).net = s.net.erase m := rfl
@[simp] theorem State.take_clusterTlb (s : State) (m : Msg) : (s.take m).clusterTlb = s.clusterTlb := rfl
@[simp] theorem State.take_walkCache (s : State) (m : Msg) : (s.take m).walkCache = s.walkCache := rfl
@[simp] theorem State.take_windows (s : State) (m : Msg) : (s.take m).windows = s.windows := rfl
@[simp] theorem State.take_token (s : State) (m : Msg) : (s.take m).token = s.token := rfl
@[simp] theorem State.take_tokenQueue (s : State) (m : Msg) : (s.take m).tokenQueue = s.tokenQueue := rfl
@[simp] theorem State.take_clock (s : State) (m : Msg) : (s.take m).clock = s.clock := rfl
@[simp] theorem State.take_walkers (s : State) (m : Msg) : (s.take m).walkers = s.walkers := rfl
@[simp] theorem State.take_signals (s : State) (m : Msg) : (s.take m).signals = s.signals := rfl
@[simp] theorem State.take_decodeTables (s : State) (m : Msg) : (s.take m).decodeTables = s.decodeTables := rfl
@[simp] theorem State.take_arrived (s : State) (m : Msg) : (s.take m).arrived = s.arrived.erase m := rfl
@[simp] theorem State.take_launches (s : State) (m : Msg) : (s.take m).launches = s.launches := rfl
@[simp] theorem State.take_children (s : State) (m : Msg) : (s.take m).children = s.children := rfl
@[simp] theorem State.take_contexts (s : State) (m : Msg) : (s.take m).contexts = s.contexts := rfl
@[simp] theorem State.take_queues (s : State) (m : Msg) : (s.take m).queues = s.queues := rfl
@[simp] theorem State.take_roundRobin (s : State) (m : Msg) : (s.take m).roundRobin = s.roundRobin := rfl
@[simp] theorem State.take_nextLaunch (s : State) (m : Msg) : (s.take m).nextLaunch = s.nextLaunch := rfl
@[simp] theorem State.take_watched (s : State) (m : Msg) : (s.take m).watched = s.watched := rfl
@[simp] theorem State.take_code (s : State) (m : Msg) : (s.take m).code = s.code := rfl
@[simp] theorem State.take_ops (s : State) (m : Msg) : (s.take m).ops = s.ops := rfl
@[simp] theorem State.take_faults (s : State) (m : Msg) : (s.take m).faults = s.faults := rfl
@[simp] theorem State.take_outbox (s : State) (m : Msg) : (s.take m).outbox = s.outbox := rfl
@[simp] theorem State.take_rdma (s : State) (m : Msg) : (s.take m).rdma = s.rdma := rfl
@[simp] theorem State.take_rdmaPending (s : State) (m : Msg) : (s.take m).rdmaPending = s.rdmaPending := rfl
@[simp] theorem State.take_brokenPairs (s : State) (m : Msg) : (s.take m).brokenPairs = s.brokenPairs := rfl
@[simp] theorem State.take_mgmtUp (s : State) (m : Msg) : (s.take m).mgmtUp = s.mgmtUp := rfl
@[simp] theorem State.take_command (s : State) (m : Msg) : (s.take m).command = s.command := rfl
@[simp] theorem State.take_boot (s : State) (m : Msg) : (s.take m).boot = s.boot := rfl
@[simp] theorem State.take_flash (s : State) (m : Msg) : (s.take m).flash = s.flash := rfl
@[simp] theorem State.take_image (s : State) (m : Msg) : (s.take m).image = s.image := rfl
@[simp] theorem State.take_ports (s : State) (m : Msg) : (s.take m).ports = s.ports := rfl
@[simp] theorem State.take_packageId (s : State) (m : Msg) : (s.take m).packageId = s.packageId := rfl
@[simp] theorem State.take_members (s : State) (m : Msg) : (s.take m).members = s.members := rfl
@[simp] theorem State.take_priorities (s : State) (m : Msg) : (s.take m).priorities = s.priorities := rfl
@[simp] theorem State.take_peers (s : State) (m : Msg) : (s.take m).peers = s.peers := rfl
@[simp] theorem State.take_collectives (s : State) (m : Msg) : (s.take m).collectives = s.collectives := rfl
@[simp] theorem State.take_collFrames (s : State) (m : Msg) : (s.take m).collFrames = s.collFrames := rfl
@[simp] theorem State.take_collCounts (s : State) (m : Msg) : (s.take m).collCounts = s.collCounts := rfl
@[simp] theorem State.take_readOnlyCopies (s : State) (m : Msg) : (s.take m).readOnlyCopies = s.readOnlyCopies := rfl
@[simp] theorem State.take_answers (s : State) (m : Msg) : (s.take m).answers = s.answers := rfl
@[simp] theorem State.take_control (s : State) (m : Msg) : (s.take m).control = s.control := rfl
@[simp] theorem State.take_rings (s : State) (m : Msg) : (s.take m).rings = s.rings := rfl
@[simp] theorem State.take_frozen (s : State) (m : Msg) : (s.take m).frozen = s.frozen := rfl
@[simp] theorem State.take_islands (s : State) (m : Msg) : (s.take m).islands = s.islands := rfl
@[simp] theorem State.take_nextId (s : State) (m : Msg) : (s.take m).nextId = s.nextId := rfl
@[simp] theorem State.take_agenda (s : State) (m : Msg) : (s.take m).agenda = s.agenda := rfl
@[simp] theorem State.take_turn (s : State) (m : Msg) : (s.take m).turn = s.turn := rfl
@[simp] theorem State.take_tick (s : State) (m : Msg) : (s.take m).tick = s.tick := rfl

/-! ### State.releaseToken -/

@[simp] theorem State.releaseToken_warps (s : State) (k : Nat) : (s.releaseToken k).warps = s.warps := rfl
@[simp] theorem State.releaseToken_teams (s : State) (k : Nat) : (s.releaseToken k).teams = s.teams := rfl
@[simp] theorem State.releaseToken_cores (s : State) (k : Nat) : (s.releaseToken k).cores = s.cores := rfl
@[simp] theorem State.releaseToken_mem (s : State) (k : Nat) : (s.releaseToken k).mem = s.mem := rfl
@[simp] theorem State.releaseToken_poison (s : State) (k : Nat) : (s.releaseToken k).poison = s.poison := rfl
@[simp] theorem State.releaseToken_l2 (s : State) (k : Nat) : (s.releaseToken k).l2 = s.l2 := rfl
@[simp] theorem State.releaseToken_msc (s : State) (k : Nat) : (s.releaseToken k).msc = s.msc := rfl
@[simp] theorem State.releaseToken_mscFills (s : State) (k : Nat) : (s.releaseToken k).mscFills = s.mscFills := rfl
@[simp] theorem State.releaseToken_dirs (s : State) (k : Nat) : (s.releaseToken k).dirs = s.dirs := rfl
@[simp] theorem State.releaseToken_slices (s : State) (k : Nat) : (s.releaseToken k).slices = s.slices := rfl
@[simp] theorem State.releaseToken_locks (s : State) (k : Nat) : (s.releaseToken k).locks = s.locks := rfl
@[simp] theorem State.releaseToken_net (s : State) (k : Nat) : (s.releaseToken k).net = s.net := rfl
@[simp] theorem State.releaseToken_clusterTlb (s : State) (k : Nat) : (s.releaseToken k).clusterTlb = s.clusterTlb := rfl
@[simp] theorem State.releaseToken_walkCache (s : State) (k : Nat) : (s.releaseToken k).walkCache = s.walkCache := rfl
@[simp] theorem State.releaseToken_windows (s : State) (k : Nat) : (s.releaseToken k).windows = s.windows := rfl
@[simp] theorem State.releaseToken_token (s : State) (k : Nat) : (s.releaseToken k).token = s.token.bind fun t => if t.1 == k then none else some t := rfl
@[simp] theorem State.releaseToken_tokenQueue (s : State) (k : Nat) : (s.releaseToken k).tokenQueue = s.tokenQueue.filter fun t => t.1 != k := rfl
@[simp] theorem State.releaseToken_clock (s : State) (k : Nat) : (s.releaseToken k).clock = s.clock := rfl
@[simp] theorem State.releaseToken_walkers (s : State) (k : Nat) : (s.releaseToken k).walkers = s.walkers := rfl
@[simp] theorem State.releaseToken_signals (s : State) (k : Nat) : (s.releaseToken k).signals = s.signals := rfl
@[simp] theorem State.releaseToken_decodeTables (s : State) (k : Nat) : (s.releaseToken k).decodeTables = s.decodeTables := rfl
@[simp] theorem State.releaseToken_arrived (s : State) (k : Nat) : (s.releaseToken k).arrived = s.arrived := rfl
@[simp] theorem State.releaseToken_launches (s : State) (k : Nat) : (s.releaseToken k).launches = s.launches := rfl
@[simp] theorem State.releaseToken_children (s : State) (k : Nat) : (s.releaseToken k).children = s.children := rfl
@[simp] theorem State.releaseToken_contexts (s : State) (k : Nat) : (s.releaseToken k).contexts = s.contexts := rfl
@[simp] theorem State.releaseToken_queues (s : State) (k : Nat) : (s.releaseToken k).queues = s.queues := rfl
@[simp] theorem State.releaseToken_roundRobin (s : State) (k : Nat) : (s.releaseToken k).roundRobin = s.roundRobin := rfl
@[simp] theorem State.releaseToken_nextLaunch (s : State) (k : Nat) : (s.releaseToken k).nextLaunch = s.nextLaunch := rfl
@[simp] theorem State.releaseToken_watched (s : State) (k : Nat) : (s.releaseToken k).watched = s.watched := rfl
@[simp] theorem State.releaseToken_code (s : State) (k : Nat) : (s.releaseToken k).code = s.code := rfl
@[simp] theorem State.releaseToken_ops (s : State) (k : Nat) : (s.releaseToken k).ops = s.ops := rfl
@[simp] theorem State.releaseToken_faults (s : State) (k : Nat) : (s.releaseToken k).faults = s.faults := rfl
@[simp] theorem State.releaseToken_outbox (s : State) (k : Nat) : (s.releaseToken k).outbox = s.outbox := rfl
@[simp] theorem State.releaseToken_rdma (s : State) (k : Nat) : (s.releaseToken k).rdma = s.rdma := rfl
@[simp] theorem State.releaseToken_rdmaPending (s : State) (k : Nat) : (s.releaseToken k).rdmaPending = s.rdmaPending := rfl
@[simp] theorem State.releaseToken_brokenPairs (s : State) (k : Nat) : (s.releaseToken k).brokenPairs = s.brokenPairs := rfl
@[simp] theorem State.releaseToken_mgmtUp (s : State) (k : Nat) : (s.releaseToken k).mgmtUp = s.mgmtUp := rfl
@[simp] theorem State.releaseToken_command (s : State) (k : Nat) : (s.releaseToken k).command = s.command := rfl
@[simp] theorem State.releaseToken_boot (s : State) (k : Nat) : (s.releaseToken k).boot = s.boot := rfl
@[simp] theorem State.releaseToken_flash (s : State) (k : Nat) : (s.releaseToken k).flash = s.flash := rfl
@[simp] theorem State.releaseToken_image (s : State) (k : Nat) : (s.releaseToken k).image = s.image := rfl
@[simp] theorem State.releaseToken_ports (s : State) (k : Nat) : (s.releaseToken k).ports = s.ports := rfl
@[simp] theorem State.releaseToken_packageId (s : State) (k : Nat) : (s.releaseToken k).packageId = s.packageId := rfl
@[simp] theorem State.releaseToken_members (s : State) (k : Nat) : (s.releaseToken k).members = s.members := rfl
@[simp] theorem State.releaseToken_priorities (s : State) (k : Nat) : (s.releaseToken k).priorities = s.priorities := rfl
@[simp] theorem State.releaseToken_peers (s : State) (k : Nat) : (s.releaseToken k).peers = s.peers := rfl
@[simp] theorem State.releaseToken_collectives (s : State) (k : Nat) : (s.releaseToken k).collectives = s.collectives := rfl
@[simp] theorem State.releaseToken_collFrames (s : State) (k : Nat) : (s.releaseToken k).collFrames = s.collFrames := rfl
@[simp] theorem State.releaseToken_collCounts (s : State) (k : Nat) : (s.releaseToken k).collCounts = s.collCounts := rfl
@[simp] theorem State.releaseToken_readOnlyCopies (s : State) (k : Nat) : (s.releaseToken k).readOnlyCopies = s.readOnlyCopies := rfl
@[simp] theorem State.releaseToken_answers (s : State) (k : Nat) : (s.releaseToken k).answers = s.answers := rfl
@[simp] theorem State.releaseToken_control (s : State) (k : Nat) : (s.releaseToken k).control = s.control := rfl
@[simp] theorem State.releaseToken_rings (s : State) (k : Nat) : (s.releaseToken k).rings = s.rings := rfl
@[simp] theorem State.releaseToken_frozen (s : State) (k : Nat) : (s.releaseToken k).frozen = s.frozen := rfl
@[simp] theorem State.releaseToken_islands (s : State) (k : Nat) : (s.releaseToken k).islands = s.islands := rfl
@[simp] theorem State.releaseToken_nextId (s : State) (k : Nat) : (s.releaseToken k).nextId = s.nextId := rfl
@[simp] theorem State.releaseToken_agenda (s : State) (k : Nat) : (s.releaseToken k).agenda = s.agenda := rfl
@[simp] theorem State.releaseToken_turn (s : State) (k : Nat) : (s.releaseToken k).turn = s.turn := rfl
@[simp] theorem State.releaseToken_tick (s : State) (k : Nat) : (s.releaseToken k).tick = s.tick := rfl

/-! ### Warp.setLane -/

@[simp] theorem Warp.setLane_team (w : Warp) (l : Nat) (x : Lane) : (w.setLane l x).team = w.team := rfl
@[simp] theorem Warp.setLane_warpid (w : Warp) (l : Nat) (x : Lane) : (w.setLane l x).warpid = w.warpid := rfl
@[simp] theorem Warp.setLane_core (w : Warp) (l : Nat) (x : Lane) : (w.setLane l x).core = w.core := rfl
@[simp] theorem Warp.setLane_quarter (w : Warp) (l : Nat) (x : Lane) : (w.setLane l x).quarter = w.quarter := rfl
@[simp] theorem Warp.setLane_age (w : Warp) (l : Nat) (x : Lane) : (w.setLane l x).age = w.age := rfl
@[simp] theorem Warp.setLane_idleSince (w : Warp) (l : Nat) (x : Lane) : (w.setLane l x).idleSince = w.idleSince := rfl
@[simp] theorem Warp.setLane_promoted (w : Warp) (l : Nat) (x : Lane) : (w.setLane l x).promoted = w.promoted := rfl
@[simp] theorem Warp.setLane_width (w : Warp) (l : Nat) (x : Lane) : (w.setLane l x).width = w.width := rfl
@[simp] theorem Warp.setLane_pc (w : Warp) (l : Nat) (x : Lane) : (w.setLane l x).pc = w.pc := rfl
@[simp] theorem Warp.setLane_prev (w : Warp) (l : Nat) (x : Lane) : (w.setLane l x).prev = w.prev := rfl
@[simp] theorem Warp.setLane_live (w : Warp) (l : Nat) (x : Lane) : (w.setLane l x).live = w.live := rfl
@[simp] theorem Warp.setLane_active (w : Warp) (l : Nat) (x : Lane) : (w.setLane l x).active = w.active := rfl
@[simp] theorem Warp.setLane_s (w : Warp) (l : Nat) (x : Lane) : (w.setLane l x).s = w.s := rfl
@[simp] theorem Warp.setLane_p (w : Warp) (l : Nat) (x : Lane) : (w.setLane l x).p = w.p := rfl
@[simp] theorem Warp.setLane_mode (w : Warp) (l : Nat) (x : Lane) : (w.setLane l x).mode = w.mode := rfl
@[simp] theorem Warp.setLane_stack (w : Warp) (l : Nat) (x : Lane) : (w.setLane l x).stack = w.stack := rfl
@[simp] theorem Warp.setLane_pairs (w : Warp) (l : Nat) (x : Lane) : (w.setLane l x).pairs = w.pairs := rfl
@[simp] theorem Warp.setLane_meld (w : Warp) (l : Nat) (x : Lane) : (w.setLane l x).meld = w.meld := rfl
@[simp] theorem Warp.setLane_path (w : Warp) (l : Nat) (x : Lane) : (w.setLane l x).path = w.path := rfl
@[simp] theorem Warp.setLane_lanes (w : Warp) (l : Nat) (x : Lane) : (w.setLane l x).lanes = setNth w.lanes l x := rfl
@[simp] theorem Warp.setLane_fpctl (w : Warp) (l : Nat) (x : Lane) : (w.setLane l x).fpctl = w.fpctl := rfl
@[simp] theorem Warp.setLane_repc (w : Warp) (l : Nat) (x : Lane) : (w.setLane l x).repc = w.repc := rfl
@[simp] theorem Warp.setLane_repResume (w : Warp) (l : Nat) (x : Lane) : (w.setLane l x).repResume = w.repResume := rfl
@[simp] theorem Warp.setLane_gset (w : Warp) (l : Nat) (x : Lane) : (w.setLane l x).gset = w.gset := rfl
@[simp] theorem Warp.setLane_gref (w : Warp) (l : Nat) (x : Lane) : (w.setLane l x).gref = w.gref := rfl
@[simp] theorem Warp.setLane_batch (w : Warp) (l : Nat) (x : Lane) : (w.setLane l x).batch = w.batch := rfl
@[simp] theorem Warp.setLane_statusAcc (w : Warp) (l : Nat) (x : Lane) : (w.setLane l x).statusAcc = w.statusAcc := rfl
@[simp] theorem Warp.setLane_tcause (w : Warp) (l : Nat) (x : Lane) : (w.setLane l x).tcause = w.tcause := rfl
@[simp] theorem Warp.setLane_taddr (w : Warp) (l : Nat) (x : Lane) : (w.setLane l x).taddr = w.taddr := rfl
@[simp] theorem Warp.setLane_tlanes (w : Warp) (l : Nat) (x : Lane) : (w.setLane l x).tlanes = w.tlanes := rfl
@[simp] theorem Warp.setLane_tlive (w : Warp) (l : Nat) (x : Lane) : (w.setLane l x).tlive = w.tlive := rfl
@[simp] theorem Warp.setLane_trapc (w : Warp) (l : Nat) (x : Lane) : (w.setLane l x).trapc = w.trapc := rfl
@[simp] theorem Warp.setLane_handler (w : Warp) (l : Nat) (x : Lane) : (w.setLane l x).handler = w.handler := rfl
@[simp] theorem Warp.setLane_region (w : Warp) (l : Nat) (x : Lane) : (w.setLane l x).region = w.region := rfl
@[simp] theorem Warp.setLane_restart (w : Warp) (l : Nat) (x : Lane) : (w.setLane l x).restart = w.restart := rfl
@[simp] theorem Warp.setLane_commit (w : Warp) (l : Nat) (x : Lane) : (w.setLane l x).commit = w.commit := rfl
@[simp] theorem Warp.setLane_pending (w : Warp) (l : Nat) (x : Lane) : (w.setLane l x).pending = w.pending := rfl
@[simp] theorem Warp.setLane_latches (w : Warp) (l : Nat) (x : Lane) : (w.setLane l x).latches = w.latches := rfl
@[simp] theorem Warp.setLane_openOps (w : Warp) (l : Nat) (x : Lane) : (w.setLane l x).openOps = w.openOps := rfl
@[simp] theorem Warp.setLane_batches (w : Warp) (l : Nat) (x : Lane) : (w.setLane l x).batches = w.batches := rfl
@[simp] theorem Warp.setLane_attached (w : Warp) (l : Nat) (x : Lane) : (w.setLane l x).attached = w.attached := rfl
@[simp] theorem Warp.setLane_status (w : Warp) (l : Nat) (x : Lane) : (w.setLane l x).status = w.status := rfl
@[simp] theorem Warp.setLane_marker (w : Warp) (l : Nat) (x : Lane) : (w.setLane l x).marker = w.marker := rfl
@[simp] theorem Warp.setLane_pushesOut (w : Warp) (l : Nat) (x : Lane) : (w.setLane l x).pushesOut = w.pushesOut := rfl
@[simp] theorem Warp.setLane_segment (w : Warp) (l : Nat) (x : Lane) : (w.setLane l x).segment = w.segment := rfl
@[simp] theorem Warp.setLane_pages (w : Warp) (l : Nat) (x : Lane) : (w.setLane l x).pages = w.pages := rfl
@[simp] theorem Warp.setLane_count (w : Warp) (l : Nat) (x : Lane) : (w.setLane l x).count = w.count := rfl
@[simp] theorem Warp.setLane_detWrites (w : Warp) (l : Nat) (x : Lane) : (w.setLane l x).detWrites = w.detWrites := rfl
@[simp] theorem Warp.setLane_detPushes (w : Warp) (l : Nat) (x : Lane) : (w.setLane l x).detPushes = w.detPushes := rfl
@[simp] theorem Warp.setLane_detChildren (w : Warp) (l : Nat) (x : Lane) : (w.setLane l x).detChildren = w.detChildren := rfl
@[simp] theorem Warp.setLane_detVas (w : Warp) (l : Nat) (x : Lane) : (w.setLane l x).detVas = w.detVas := rfl
@[simp] theorem Warp.setLane_detArrivals (w : Warp) (l : Nat) (x : Lane) : (w.setLane l x).detArrivals = w.detArrivals := rfl
@[simp] theorem Warp.setLane_repOpen (w : Warp) (l : Nat) (x : Lane) : (w.setLane l x).repOpen = w.repOpen := rfl

/-! ### Warp.setScal -/

@[simp] theorem Warp.setScal_team (w : Warp) (n : Nat) (val : DWord) : (w.setScal n val).team = w.team := rfl
@[simp] theorem Warp.setScal_warpid (w : Warp) (n : Nat) (val : DWord) : (w.setScal n val).warpid = w.warpid := rfl
@[simp] theorem Warp.setScal_core (w : Warp) (n : Nat) (val : DWord) : (w.setScal n val).core = w.core := rfl
@[simp] theorem Warp.setScal_quarter (w : Warp) (n : Nat) (val : DWord) : (w.setScal n val).quarter = w.quarter := rfl
@[simp] theorem Warp.setScal_age (w : Warp) (n : Nat) (val : DWord) : (w.setScal n val).age = w.age := rfl
@[simp] theorem Warp.setScal_idleSince (w : Warp) (n : Nat) (val : DWord) : (w.setScal n val).idleSince = w.idleSince := rfl
@[simp] theorem Warp.setScal_promoted (w : Warp) (n : Nat) (val : DWord) : (w.setScal n val).promoted = w.promoted := rfl
@[simp] theorem Warp.setScal_width (w : Warp) (n : Nat) (val : DWord) : (w.setScal n val).width = w.width := rfl
@[simp] theorem Warp.setScal_pc (w : Warp) (n : Nat) (val : DWord) : (w.setScal n val).pc = w.pc := rfl
@[simp] theorem Warp.setScal_prev (w : Warp) (n : Nat) (val : DWord) : (w.setScal n val).prev = w.prev := rfl
@[simp] theorem Warp.setScal_live (w : Warp) (n : Nat) (val : DWord) : (w.setScal n val).live = w.live := rfl
@[simp] theorem Warp.setScal_active (w : Warp) (n : Nat) (val : DWord) : (w.setScal n val).active = w.active := rfl
@[simp] theorem Warp.setScal_s (w : Warp) (n : Nat) (val : DWord) : (w.setScal n val).s = setNth w.s n val := rfl
@[simp] theorem Warp.setScal_p (w : Warp) (n : Nat) (val : DWord) : (w.setScal n val).p = w.p := rfl
@[simp] theorem Warp.setScal_mode (w : Warp) (n : Nat) (val : DWord) : (w.setScal n val).mode = w.mode := rfl
@[simp] theorem Warp.setScal_stack (w : Warp) (n : Nat) (val : DWord) : (w.setScal n val).stack = w.stack := rfl
@[simp] theorem Warp.setScal_pairs (w : Warp) (n : Nat) (val : DWord) : (w.setScal n val).pairs = w.pairs := rfl
@[simp] theorem Warp.setScal_meld (w : Warp) (n : Nat) (val : DWord) : (w.setScal n val).meld = w.meld := rfl
@[simp] theorem Warp.setScal_path (w : Warp) (n : Nat) (val : DWord) : (w.setScal n val).path = w.path := rfl
@[simp] theorem Warp.setScal_lanes (w : Warp) (n : Nat) (val : DWord) : (w.setScal n val).lanes = w.lanes := rfl
@[simp] theorem Warp.setScal_fpctl (w : Warp) (n : Nat) (val : DWord) : (w.setScal n val).fpctl = w.fpctl := rfl
@[simp] theorem Warp.setScal_repc (w : Warp) (n : Nat) (val : DWord) : (w.setScal n val).repc = w.repc := rfl
@[simp] theorem Warp.setScal_repResume (w : Warp) (n : Nat) (val : DWord) : (w.setScal n val).repResume = w.repResume := rfl
@[simp] theorem Warp.setScal_gset (w : Warp) (n : Nat) (val : DWord) : (w.setScal n val).gset = w.gset := rfl
@[simp] theorem Warp.setScal_gref (w : Warp) (n : Nat) (val : DWord) : (w.setScal n val).gref = w.gref := rfl
@[simp] theorem Warp.setScal_batch (w : Warp) (n : Nat) (val : DWord) : (w.setScal n val).batch = w.batch := rfl
@[simp] theorem Warp.setScal_statusAcc (w : Warp) (n : Nat) (val : DWord) : (w.setScal n val).statusAcc = w.statusAcc := rfl
@[simp] theorem Warp.setScal_tcause (w : Warp) (n : Nat) (val : DWord) : (w.setScal n val).tcause = w.tcause := rfl
@[simp] theorem Warp.setScal_taddr (w : Warp) (n : Nat) (val : DWord) : (w.setScal n val).taddr = w.taddr := rfl
@[simp] theorem Warp.setScal_tlanes (w : Warp) (n : Nat) (val : DWord) : (w.setScal n val).tlanes = w.tlanes := rfl
@[simp] theorem Warp.setScal_tlive (w : Warp) (n : Nat) (val : DWord) : (w.setScal n val).tlive = w.tlive := rfl
@[simp] theorem Warp.setScal_trapc (w : Warp) (n : Nat) (val : DWord) : (w.setScal n val).trapc = w.trapc := rfl
@[simp] theorem Warp.setScal_handler (w : Warp) (n : Nat) (val : DWord) : (w.setScal n val).handler = w.handler := rfl
@[simp] theorem Warp.setScal_region (w : Warp) (n : Nat) (val : DWord) : (w.setScal n val).region = w.region := rfl
@[simp] theorem Warp.setScal_restart (w : Warp) (n : Nat) (val : DWord) : (w.setScal n val).restart = w.restart := rfl
@[simp] theorem Warp.setScal_commit (w : Warp) (n : Nat) (val : DWord) : (w.setScal n val).commit = w.commit := rfl
@[simp] theorem Warp.setScal_pending (w : Warp) (n : Nat) (val : DWord) : (w.setScal n val).pending = w.pending := rfl
@[simp] theorem Warp.setScal_latches (w : Warp) (n : Nat) (val : DWord) : (w.setScal n val).latches = w.latches := rfl
@[simp] theorem Warp.setScal_openOps (w : Warp) (n : Nat) (val : DWord) : (w.setScal n val).openOps = w.openOps := rfl
@[simp] theorem Warp.setScal_batches (w : Warp) (n : Nat) (val : DWord) : (w.setScal n val).batches = w.batches := rfl
@[simp] theorem Warp.setScal_attached (w : Warp) (n : Nat) (val : DWord) : (w.setScal n val).attached = w.attached := rfl
@[simp] theorem Warp.setScal_status (w : Warp) (n : Nat) (val : DWord) : (w.setScal n val).status = w.status := rfl
@[simp] theorem Warp.setScal_marker (w : Warp) (n : Nat) (val : DWord) : (w.setScal n val).marker = w.marker := rfl
@[simp] theorem Warp.setScal_pushesOut (w : Warp) (n : Nat) (val : DWord) : (w.setScal n val).pushesOut = w.pushesOut := rfl
@[simp] theorem Warp.setScal_segment (w : Warp) (n : Nat) (val : DWord) : (w.setScal n val).segment = w.segment := rfl
@[simp] theorem Warp.setScal_pages (w : Warp) (n : Nat) (val : DWord) : (w.setScal n val).pages = w.pages := rfl
@[simp] theorem Warp.setScal_count (w : Warp) (n : Nat) (val : DWord) : (w.setScal n val).count = w.count := rfl
@[simp] theorem Warp.setScal_detWrites (w : Warp) (n : Nat) (val : DWord) : (w.setScal n val).detWrites = w.detWrites := rfl
@[simp] theorem Warp.setScal_detPushes (w : Warp) (n : Nat) (val : DWord) : (w.setScal n val).detPushes = w.detPushes := rfl
@[simp] theorem Warp.setScal_detChildren (w : Warp) (n : Nat) (val : DWord) : (w.setScal n val).detChildren = w.detChildren := rfl
@[simp] theorem Warp.setScal_detVas (w : Warp) (n : Nat) (val : DWord) : (w.setScal n val).detVas = w.detVas := rfl
@[simp] theorem Warp.setScal_detArrivals (w : Warp) (n : Nat) (val : DWord) : (w.setScal n val).detArrivals = w.detArrivals := rfl
@[simp] theorem Warp.setScal_repOpen (w : Warp) (n : Nat) (val : DWord) : (w.setScal n val).repOpen = w.repOpen := rfl

/-! ### Warp.setPred -/

@[simp] theorem Warp.setPred_team (w : Warp) (n : Nat) (m : Mask) : (w.setPred n m).team = w.team := rfl
@[simp] theorem Warp.setPred_warpid (w : Warp) (n : Nat) (m : Mask) : (w.setPred n m).warpid = w.warpid := rfl
@[simp] theorem Warp.setPred_core (w : Warp) (n : Nat) (m : Mask) : (w.setPred n m).core = w.core := rfl
@[simp] theorem Warp.setPred_quarter (w : Warp) (n : Nat) (m : Mask) : (w.setPred n m).quarter = w.quarter := rfl
@[simp] theorem Warp.setPred_age (w : Warp) (n : Nat) (m : Mask) : (w.setPred n m).age = w.age := rfl
@[simp] theorem Warp.setPred_idleSince (w : Warp) (n : Nat) (m : Mask) : (w.setPred n m).idleSince = w.idleSince := rfl
@[simp] theorem Warp.setPred_promoted (w : Warp) (n : Nat) (m : Mask) : (w.setPred n m).promoted = w.promoted := rfl
@[simp] theorem Warp.setPred_width (w : Warp) (n : Nat) (m : Mask) : (w.setPred n m).width = w.width := rfl
@[simp] theorem Warp.setPred_pc (w : Warp) (n : Nat) (m : Mask) : (w.setPred n m).pc = w.pc := rfl
@[simp] theorem Warp.setPred_prev (w : Warp) (n : Nat) (m : Mask) : (w.setPred n m).prev = w.prev := rfl
@[simp] theorem Warp.setPred_live (w : Warp) (n : Nat) (m : Mask) : (w.setPred n m).live = w.live := rfl
@[simp] theorem Warp.setPred_active (w : Warp) (n : Nat) (m : Mask) : (w.setPred n m).active = w.active := rfl
@[simp] theorem Warp.setPred_s (w : Warp) (n : Nat) (m : Mask) : (w.setPred n m).s = w.s := rfl
@[simp] theorem Warp.setPred_p (w : Warp) (n : Nat) (m : Mask) : (w.setPred n m).p = setNth w.p n m := rfl
@[simp] theorem Warp.setPred_mode (w : Warp) (n : Nat) (m : Mask) : (w.setPred n m).mode = w.mode := rfl
@[simp] theorem Warp.setPred_stack (w : Warp) (n : Nat) (m : Mask) : (w.setPred n m).stack = w.stack := rfl
@[simp] theorem Warp.setPred_pairs (w : Warp) (n : Nat) (m : Mask) : (w.setPred n m).pairs = w.pairs := rfl
@[simp] theorem Warp.setPred_meld (w : Warp) (n : Nat) (m : Mask) :
    (w.setPred n m).meld = w.meld.map fun st => { st with wrote := st.wrote || n == st.pred } := rfl
@[simp] theorem Warp.setPred_path (w : Warp) (n : Nat) (m : Mask) : (w.setPred n m).path = w.path := rfl
@[simp] theorem Warp.setPred_lanes (w : Warp) (n : Nat) (m : Mask) : (w.setPred n m).lanes = w.lanes := rfl
@[simp] theorem Warp.setPred_fpctl (w : Warp) (n : Nat) (m : Mask) : (w.setPred n m).fpctl = w.fpctl := rfl
@[simp] theorem Warp.setPred_repc (w : Warp) (n : Nat) (m : Mask) : (w.setPred n m).repc = w.repc := rfl
@[simp] theorem Warp.setPred_repResume (w : Warp) (n : Nat) (m : Mask) : (w.setPred n m).repResume = w.repResume := rfl
@[simp] theorem Warp.setPred_gset (w : Warp) (n : Nat) (m : Mask) : (w.setPred n m).gset = w.gset := rfl
@[simp] theorem Warp.setPred_gref (w : Warp) (n : Nat) (m : Mask) : (w.setPred n m).gref = w.gref := rfl
@[simp] theorem Warp.setPred_batch (w : Warp) (n : Nat) (m : Mask) : (w.setPred n m).batch = w.batch := rfl
@[simp] theorem Warp.setPred_statusAcc (w : Warp) (n : Nat) (m : Mask) : (w.setPred n m).statusAcc = w.statusAcc := rfl
@[simp] theorem Warp.setPred_tcause (w : Warp) (n : Nat) (m : Mask) : (w.setPred n m).tcause = w.tcause := rfl
@[simp] theorem Warp.setPred_taddr (w : Warp) (n : Nat) (m : Mask) : (w.setPred n m).taddr = w.taddr := rfl
@[simp] theorem Warp.setPred_tlanes (w : Warp) (n : Nat) (m : Mask) : (w.setPred n m).tlanes = w.tlanes := rfl
@[simp] theorem Warp.setPred_tlive (w : Warp) (n : Nat) (m : Mask) : (w.setPred n m).tlive = w.tlive := rfl
@[simp] theorem Warp.setPred_trapc (w : Warp) (n : Nat) (m : Mask) : (w.setPred n m).trapc = w.trapc := rfl
@[simp] theorem Warp.setPred_handler (w : Warp) (n : Nat) (m : Mask) : (w.setPred n m).handler = w.handler := rfl
@[simp] theorem Warp.setPred_region (w : Warp) (n : Nat) (m : Mask) : (w.setPred n m).region = w.region := rfl
@[simp] theorem Warp.setPred_restart (w : Warp) (n : Nat) (m : Mask) : (w.setPred n m).restart = w.restart := rfl
@[simp] theorem Warp.setPred_commit (w : Warp) (n : Nat) (m : Mask) : (w.setPred n m).commit = w.commit := rfl
@[simp] theorem Warp.setPred_pending (w : Warp) (n : Nat) (m : Mask) : (w.setPred n m).pending = w.pending := rfl
@[simp] theorem Warp.setPred_latches (w : Warp) (n : Nat) (m : Mask) : (w.setPred n m).latches = w.latches := rfl
@[simp] theorem Warp.setPred_openOps (w : Warp) (n : Nat) (m : Mask) : (w.setPred n m).openOps = w.openOps := rfl
@[simp] theorem Warp.setPred_batches (w : Warp) (n : Nat) (m : Mask) : (w.setPred n m).batches = w.batches := rfl
@[simp] theorem Warp.setPred_attached (w : Warp) (n : Nat) (m : Mask) : (w.setPred n m).attached = w.attached := rfl
@[simp] theorem Warp.setPred_status (w : Warp) (n : Nat) (m : Mask) : (w.setPred n m).status = w.status := rfl
@[simp] theorem Warp.setPred_marker (w : Warp) (n : Nat) (m : Mask) : (w.setPred n m).marker = w.marker := rfl
@[simp] theorem Warp.setPred_pushesOut (w : Warp) (n : Nat) (m : Mask) : (w.setPred n m).pushesOut = w.pushesOut := rfl
@[simp] theorem Warp.setPred_segment (w : Warp) (n : Nat) (m : Mask) : (w.setPred n m).segment = w.segment := rfl
@[simp] theorem Warp.setPred_pages (w : Warp) (n : Nat) (m : Mask) : (w.setPred n m).pages = w.pages := rfl
@[simp] theorem Warp.setPred_count (w : Warp) (n : Nat) (m : Mask) : (w.setPred n m).count = w.count := rfl
@[simp] theorem Warp.setPred_detWrites (w : Warp) (n : Nat) (m : Mask) : (w.setPred n m).detWrites = w.detWrites := rfl
@[simp] theorem Warp.setPred_detPushes (w : Warp) (n : Nat) (m : Mask) : (w.setPred n m).detPushes = w.detPushes := rfl
@[simp] theorem Warp.setPred_detChildren (w : Warp) (n : Nat) (m : Mask) : (w.setPred n m).detChildren = w.detChildren := rfl
@[simp] theorem Warp.setPred_detVas (w : Warp) (n : Nat) (m : Mask) : (w.setPred n m).detVas = w.detVas := rfl
@[simp] theorem Warp.setPred_detArrivals (w : Warp) (n : Nat) (m : Mask) : (w.setPred n m).detArrivals = w.detArrivals := rfl
@[simp] theorem Warp.setPred_repOpen (w : Warp) (n : Nat) (m : Mask) : (w.setPred n m).repOpen = w.repOpen := rfl

/-! ### Warp.push -/

@[simp] theorem Warp.push_team (w : Warp) (es : List StackEntry) : (w.push es).team = w.team := rfl
@[simp] theorem Warp.push_warpid (w : Warp) (es : List StackEntry) : (w.push es).warpid = w.warpid := rfl
@[simp] theorem Warp.push_core (w : Warp) (es : List StackEntry) : (w.push es).core = w.core := rfl
@[simp] theorem Warp.push_quarter (w : Warp) (es : List StackEntry) : (w.push es).quarter = w.quarter := rfl
@[simp] theorem Warp.push_age (w : Warp) (es : List StackEntry) : (w.push es).age = w.age := rfl
@[simp] theorem Warp.push_idleSince (w : Warp) (es : List StackEntry) : (w.push es).idleSince = w.idleSince := rfl
@[simp] theorem Warp.push_promoted (w : Warp) (es : List StackEntry) : (w.push es).promoted = w.promoted := rfl
@[simp] theorem Warp.push_width (w : Warp) (es : List StackEntry) : (w.push es).width = w.width := rfl
@[simp] theorem Warp.push_pc (w : Warp) (es : List StackEntry) : (w.push es).pc = w.pc := rfl
@[simp] theorem Warp.push_prev (w : Warp) (es : List StackEntry) : (w.push es).prev = w.prev := rfl
@[simp] theorem Warp.push_live (w : Warp) (es : List StackEntry) : (w.push es).live = w.live := rfl
@[simp] theorem Warp.push_active (w : Warp) (es : List StackEntry) : (w.push es).active = w.active := rfl
@[simp] theorem Warp.push_s (w : Warp) (es : List StackEntry) : (w.push es).s = w.s := rfl
@[simp] theorem Warp.push_p (w : Warp) (es : List StackEntry) : (w.push es).p = w.p := rfl
@[simp] theorem Warp.push_mode (w : Warp) (es : List StackEntry) : (w.push es).mode = w.mode := rfl
@[simp] theorem Warp.push_stack (w : Warp) (es : List StackEntry) : (w.push es).stack = es.reverse ++ w.stack := rfl
@[simp] theorem Warp.push_pairs (w : Warp) (es : List StackEntry) : (w.push es).pairs = w.pairs := rfl
@[simp] theorem Warp.push_meld (w : Warp) (es : List StackEntry) : (w.push es).meld = w.meld := rfl
@[simp] theorem Warp.push_path (w : Warp) (es : List StackEntry) : (w.push es).path = w.path := rfl
@[simp] theorem Warp.push_lanes (w : Warp) (es : List StackEntry) : (w.push es).lanes = w.lanes := rfl
@[simp] theorem Warp.push_fpctl (w : Warp) (es : List StackEntry) : (w.push es).fpctl = w.fpctl := rfl
@[simp] theorem Warp.push_repc (w : Warp) (es : List StackEntry) : (w.push es).repc = w.repc := rfl
@[simp] theorem Warp.push_repResume (w : Warp) (es : List StackEntry) : (w.push es).repResume = w.repResume := rfl
@[simp] theorem Warp.push_gset (w : Warp) (es : List StackEntry) : (w.push es).gset = w.gset := rfl
@[simp] theorem Warp.push_gref (w : Warp) (es : List StackEntry) : (w.push es).gref = w.gref := rfl
@[simp] theorem Warp.push_batch (w : Warp) (es : List StackEntry) : (w.push es).batch = w.batch := rfl
@[simp] theorem Warp.push_statusAcc (w : Warp) (es : List StackEntry) : (w.push es).statusAcc = w.statusAcc := rfl
@[simp] theorem Warp.push_tcause (w : Warp) (es : List StackEntry) : (w.push es).tcause = w.tcause := rfl
@[simp] theorem Warp.push_taddr (w : Warp) (es : List StackEntry) : (w.push es).taddr = w.taddr := rfl
@[simp] theorem Warp.push_tlanes (w : Warp) (es : List StackEntry) : (w.push es).tlanes = w.tlanes := rfl
@[simp] theorem Warp.push_tlive (w : Warp) (es : List StackEntry) : (w.push es).tlive = w.tlive := rfl
@[simp] theorem Warp.push_trapc (w : Warp) (es : List StackEntry) : (w.push es).trapc = w.trapc := rfl
@[simp] theorem Warp.push_handler (w : Warp) (es : List StackEntry) : (w.push es).handler = w.handler := rfl
@[simp] theorem Warp.push_region (w : Warp) (es : List StackEntry) : (w.push es).region = w.region := rfl
@[simp] theorem Warp.push_restart (w : Warp) (es : List StackEntry) : (w.push es).restart = w.restart := rfl
@[simp] theorem Warp.push_commit (w : Warp) (es : List StackEntry) : (w.push es).commit = w.commit := rfl
@[simp] theorem Warp.push_pending (w : Warp) (es : List StackEntry) : (w.push es).pending = w.pending := rfl
@[simp] theorem Warp.push_latches (w : Warp) (es : List StackEntry) : (w.push es).latches = w.latches := rfl
@[simp] theorem Warp.push_openOps (w : Warp) (es : List StackEntry) : (w.push es).openOps = w.openOps := rfl
@[simp] theorem Warp.push_batches (w : Warp) (es : List StackEntry) : (w.push es).batches = w.batches := rfl
@[simp] theorem Warp.push_attached (w : Warp) (es : List StackEntry) : (w.push es).attached = w.attached := rfl
@[simp] theorem Warp.push_status (w : Warp) (es : List StackEntry) : (w.push es).status = w.status := rfl
@[simp] theorem Warp.push_marker (w : Warp) (es : List StackEntry) : (w.push es).marker = w.marker := rfl
@[simp] theorem Warp.push_pushesOut (w : Warp) (es : List StackEntry) : (w.push es).pushesOut = w.pushesOut := rfl
@[simp] theorem Warp.push_segment (w : Warp) (es : List StackEntry) : (w.push es).segment = w.segment := rfl
@[simp] theorem Warp.push_pages (w : Warp) (es : List StackEntry) : (w.push es).pages = w.pages := rfl
@[simp] theorem Warp.push_count (w : Warp) (es : List StackEntry) : (w.push es).count = w.count := rfl
@[simp] theorem Warp.push_detWrites (w : Warp) (es : List StackEntry) : (w.push es).detWrites = w.detWrites := rfl
@[simp] theorem Warp.push_detPushes (w : Warp) (es : List StackEntry) : (w.push es).detPushes = w.detPushes := rfl
@[simp] theorem Warp.push_detChildren (w : Warp) (es : List StackEntry) : (w.push es).detChildren = w.detChildren := rfl
@[simp] theorem Warp.push_detVas (w : Warp) (es : List StackEntry) : (w.push es).detVas = w.detVas := rfl
@[simp] theorem Warp.push_detArrivals (w : Warp) (es : List StackEntry) : (w.push es).detArrivals = w.detArrivals := rfl
@[simp] theorem Warp.push_repOpen (w : Warp) (es : List StackEntry) : (w.push es).repOpen = w.repOpen := rfl

/-! ### Warp.dropLatches -/

@[simp] theorem Warp.dropLatches_team (w : Warp) (dests : List Nat) : (w.dropLatches dests).team = w.team := rfl
@[simp] theorem Warp.dropLatches_warpid (w : Warp) (dests : List Nat) : (w.dropLatches dests).warpid = w.warpid := rfl
@[simp] theorem Warp.dropLatches_core (w : Warp) (dests : List Nat) : (w.dropLatches dests).core = w.core := rfl
@[simp] theorem Warp.dropLatches_quarter (w : Warp) (dests : List Nat) : (w.dropLatches dests).quarter = w.quarter := rfl
@[simp] theorem Warp.dropLatches_age (w : Warp) (dests : List Nat) : (w.dropLatches dests).age = w.age := rfl
@[simp] theorem Warp.dropLatches_idleSince (w : Warp) (dests : List Nat) : (w.dropLatches dests).idleSince = w.idleSince := rfl
@[simp] theorem Warp.dropLatches_promoted (w : Warp) (dests : List Nat) : (w.dropLatches dests).promoted = w.promoted := rfl
@[simp] theorem Warp.dropLatches_width (w : Warp) (dests : List Nat) : (w.dropLatches dests).width = w.width := rfl
@[simp] theorem Warp.dropLatches_pc (w : Warp) (dests : List Nat) : (w.dropLatches dests).pc = w.pc := rfl
@[simp] theorem Warp.dropLatches_prev (w : Warp) (dests : List Nat) : (w.dropLatches dests).prev = w.prev := rfl
@[simp] theorem Warp.dropLatches_live (w : Warp) (dests : List Nat) : (w.dropLatches dests).live = w.live := rfl
@[simp] theorem Warp.dropLatches_active (w : Warp) (dests : List Nat) : (w.dropLatches dests).active = w.active := rfl
@[simp] theorem Warp.dropLatches_s (w : Warp) (dests : List Nat) : (w.dropLatches dests).s = w.s := rfl
@[simp] theorem Warp.dropLatches_p (w : Warp) (dests : List Nat) : (w.dropLatches dests).p = w.p := rfl
@[simp] theorem Warp.dropLatches_mode (w : Warp) (dests : List Nat) : (w.dropLatches dests).mode = w.mode := rfl
@[simp] theorem Warp.dropLatches_stack (w : Warp) (dests : List Nat) : (w.dropLatches dests).stack = w.stack := rfl
@[simp] theorem Warp.dropLatches_pairs (w : Warp) (dests : List Nat) : (w.dropLatches dests).pairs = w.pairs := rfl
@[simp] theorem Warp.dropLatches_meld (w : Warp) (dests : List Nat) : (w.dropLatches dests).meld = w.meld := rfl
@[simp] theorem Warp.dropLatches_path (w : Warp) (dests : List Nat) : (w.dropLatches dests).path = w.path := rfl
@[simp] theorem Warp.dropLatches_lanes (w : Warp) (dests : List Nat) : (w.dropLatches dests).lanes = w.lanes := rfl
@[simp] theorem Warp.dropLatches_fpctl (w : Warp) (dests : List Nat) : (w.dropLatches dests).fpctl = w.fpctl := rfl
@[simp] theorem Warp.dropLatches_repc (w : Warp) (dests : List Nat) : (w.dropLatches dests).repc = w.repc := rfl
@[simp] theorem Warp.dropLatches_repResume (w : Warp) (dests : List Nat) : (w.dropLatches dests).repResume = w.repResume := rfl
@[simp] theorem Warp.dropLatches_gset (w : Warp) (dests : List Nat) : (w.dropLatches dests).gset = w.gset := rfl
@[simp] theorem Warp.dropLatches_gref (w : Warp) (dests : List Nat) : (w.dropLatches dests).gref = w.gref := rfl
@[simp] theorem Warp.dropLatches_batch (w : Warp) (dests : List Nat) : (w.dropLatches dests).batch = w.batch := rfl
@[simp] theorem Warp.dropLatches_statusAcc (w : Warp) (dests : List Nat) : (w.dropLatches dests).statusAcc = w.statusAcc := rfl
@[simp] theorem Warp.dropLatches_tcause (w : Warp) (dests : List Nat) : (w.dropLatches dests).tcause = w.tcause := rfl
@[simp] theorem Warp.dropLatches_taddr (w : Warp) (dests : List Nat) : (w.dropLatches dests).taddr = w.taddr := rfl
@[simp] theorem Warp.dropLatches_tlanes (w : Warp) (dests : List Nat) : (w.dropLatches dests).tlanes = w.tlanes := rfl
@[simp] theorem Warp.dropLatches_tlive (w : Warp) (dests : List Nat) : (w.dropLatches dests).tlive = w.tlive := rfl
@[simp] theorem Warp.dropLatches_trapc (w : Warp) (dests : List Nat) : (w.dropLatches dests).trapc = w.trapc := rfl
@[simp] theorem Warp.dropLatches_handler (w : Warp) (dests : List Nat) : (w.dropLatches dests).handler = w.handler := rfl
@[simp] theorem Warp.dropLatches_region (w : Warp) (dests : List Nat) : (w.dropLatches dests).region = w.region := rfl
@[simp] theorem Warp.dropLatches_restart (w : Warp) (dests : List Nat) : (w.dropLatches dests).restart = w.restart := rfl
@[simp] theorem Warp.dropLatches_commit (w : Warp) (dests : List Nat) : (w.dropLatches dests).commit = w.commit := rfl
@[simp] theorem Warp.dropLatches_pending (w : Warp) (dests : List Nat) : (w.dropLatches dests).pending = w.pending := rfl
@[simp] theorem Warp.dropLatches_latches (w : Warp) (dests : List Nat) :
    (w.dropLatches dests).latches = w.latches.map fun o => o.bind fun x => if dests.contains x.reg then none else some x := rfl
@[simp] theorem Warp.dropLatches_openOps (w : Warp) (dests : List Nat) : (w.dropLatches dests).openOps = w.openOps := rfl
@[simp] theorem Warp.dropLatches_batches (w : Warp) (dests : List Nat) : (w.dropLatches dests).batches = w.batches := rfl
@[simp] theorem Warp.dropLatches_attached (w : Warp) (dests : List Nat) : (w.dropLatches dests).attached = w.attached := rfl
@[simp] theorem Warp.dropLatches_status (w : Warp) (dests : List Nat) : (w.dropLatches dests).status = w.status := rfl
@[simp] theorem Warp.dropLatches_marker (w : Warp) (dests : List Nat) : (w.dropLatches dests).marker = w.marker := rfl
@[simp] theorem Warp.dropLatches_pushesOut (w : Warp) (dests : List Nat) : (w.dropLatches dests).pushesOut = w.pushesOut := rfl
@[simp] theorem Warp.dropLatches_segment (w : Warp) (dests : List Nat) : (w.dropLatches dests).segment = w.segment := rfl
@[simp] theorem Warp.dropLatches_pages (w : Warp) (dests : List Nat) : (w.dropLatches dests).pages = w.pages := rfl
@[simp] theorem Warp.dropLatches_count (w : Warp) (dests : List Nat) : (w.dropLatches dests).count = w.count := rfl
@[simp] theorem Warp.dropLatches_detWrites (w : Warp) (dests : List Nat) : (w.dropLatches dests).detWrites = w.detWrites := rfl
@[simp] theorem Warp.dropLatches_detPushes (w : Warp) (dests : List Nat) : (w.dropLatches dests).detPushes = w.detPushes := rfl
@[simp] theorem Warp.dropLatches_detChildren (w : Warp) (dests : List Nat) : (w.dropLatches dests).detChildren = w.detChildren := rfl
@[simp] theorem Warp.dropLatches_detVas (w : Warp) (dests : List Nat) : (w.dropLatches dests).detVas = w.detVas := rfl
@[simp] theorem Warp.dropLatches_detArrivals (w : Warp) (dests : List Nat) : (w.dropLatches dests).detArrivals = w.detArrivals := rfl
@[simp] theorem Warp.dropLatches_repOpen (w : Warp) (dests : List Nat) : (w.dropLatches dests).repOpen = w.repOpen := rfl

/-! ### Warp.fillLatch -/

@[simp] theorem Warp.fillLatch_team (w w0 : Warp) (n : Nat) : (w.fillLatch w0 n).team = w.team := rfl
@[simp] theorem Warp.fillLatch_warpid (w w0 : Warp) (n : Nat) : (w.fillLatch w0 n).warpid = w.warpid := rfl
@[simp] theorem Warp.fillLatch_core (w w0 : Warp) (n : Nat) : (w.fillLatch w0 n).core = w.core := rfl
@[simp] theorem Warp.fillLatch_quarter (w w0 : Warp) (n : Nat) : (w.fillLatch w0 n).quarter = w.quarter := rfl
@[simp] theorem Warp.fillLatch_age (w w0 : Warp) (n : Nat) : (w.fillLatch w0 n).age = w.age := rfl
@[simp] theorem Warp.fillLatch_idleSince (w w0 : Warp) (n : Nat) : (w.fillLatch w0 n).idleSince = w.idleSince := rfl
@[simp] theorem Warp.fillLatch_promoted (w w0 : Warp) (n : Nat) : (w.fillLatch w0 n).promoted = w.promoted := rfl
@[simp] theorem Warp.fillLatch_width (w w0 : Warp) (n : Nat) : (w.fillLatch w0 n).width = w.width := rfl
@[simp] theorem Warp.fillLatch_pc (w w0 : Warp) (n : Nat) : (w.fillLatch w0 n).pc = w.pc := rfl
@[simp] theorem Warp.fillLatch_prev (w w0 : Warp) (n : Nat) : (w.fillLatch w0 n).prev = w.prev := rfl
@[simp] theorem Warp.fillLatch_live (w w0 : Warp) (n : Nat) : (w.fillLatch w0 n).live = w.live := rfl
@[simp] theorem Warp.fillLatch_active (w w0 : Warp) (n : Nat) : (w.fillLatch w0 n).active = w.active := rfl
@[simp] theorem Warp.fillLatch_s (w w0 : Warp) (n : Nat) : (w.fillLatch w0 n).s = w.s := rfl
@[simp] theorem Warp.fillLatch_p (w w0 : Warp) (n : Nat) : (w.fillLatch w0 n).p = w.p := rfl
@[simp] theorem Warp.fillLatch_mode (w w0 : Warp) (n : Nat) : (w.fillLatch w0 n).mode = w.mode := rfl
@[simp] theorem Warp.fillLatch_stack (w w0 : Warp) (n : Nat) : (w.fillLatch w0 n).stack = w.stack := rfl
@[simp] theorem Warp.fillLatch_pairs (w w0 : Warp) (n : Nat) : (w.fillLatch w0 n).pairs = w.pairs := rfl
@[simp] theorem Warp.fillLatch_meld (w w0 : Warp) (n : Nat) : (w.fillLatch w0 n).meld = w.meld := rfl
@[simp] theorem Warp.fillLatch_path (w w0 : Warp) (n : Nat) : (w.fillLatch w0 n).path = w.path := rfl
@[simp] theorem Warp.fillLatch_lanes (w w0 : Warp) (n : Nat) : (w.fillLatch w0 n).lanes = w.lanes := rfl
@[simp] theorem Warp.fillLatch_fpctl (w w0 : Warp) (n : Nat) : (w.fillLatch w0 n).fpctl = w.fpctl := rfl
@[simp] theorem Warp.fillLatch_repc (w w0 : Warp) (n : Nat) : (w.fillLatch w0 n).repc = w.repc := rfl
@[simp] theorem Warp.fillLatch_repResume (w w0 : Warp) (n : Nat) : (w.fillLatch w0 n).repResume = w.repResume := rfl
@[simp] theorem Warp.fillLatch_gset (w w0 : Warp) (n : Nat) : (w.fillLatch w0 n).gset = w.gset := rfl
@[simp] theorem Warp.fillLatch_gref (w w0 : Warp) (n : Nat) : (w.fillLatch w0 n).gref = w.gref := rfl
@[simp] theorem Warp.fillLatch_batch (w w0 : Warp) (n : Nat) : (w.fillLatch w0 n).batch = w.batch := rfl
@[simp] theorem Warp.fillLatch_statusAcc (w w0 : Warp) (n : Nat) : (w.fillLatch w0 n).statusAcc = w.statusAcc := rfl
@[simp] theorem Warp.fillLatch_tcause (w w0 : Warp) (n : Nat) : (w.fillLatch w0 n).tcause = w.tcause := rfl
@[simp] theorem Warp.fillLatch_taddr (w w0 : Warp) (n : Nat) : (w.fillLatch w0 n).taddr = w.taddr := rfl
@[simp] theorem Warp.fillLatch_tlanes (w w0 : Warp) (n : Nat) : (w.fillLatch w0 n).tlanes = w.tlanes := rfl
@[simp] theorem Warp.fillLatch_tlive (w w0 : Warp) (n : Nat) : (w.fillLatch w0 n).tlive = w.tlive := rfl
@[simp] theorem Warp.fillLatch_trapc (w w0 : Warp) (n : Nat) : (w.fillLatch w0 n).trapc = w.trapc := rfl
@[simp] theorem Warp.fillLatch_handler (w w0 : Warp) (n : Nat) : (w.fillLatch w0 n).handler = w.handler := rfl
@[simp] theorem Warp.fillLatch_region (w w0 : Warp) (n : Nat) : (w.fillLatch w0 n).region = w.region := rfl
@[simp] theorem Warp.fillLatch_restart (w w0 : Warp) (n : Nat) : (w.fillLatch w0 n).restart = w.restart := rfl
@[simp] theorem Warp.fillLatch_commit (w w0 : Warp) (n : Nat) : (w.fillLatch w0 n).commit = w.commit := rfl
@[simp] theorem Warp.fillLatch_pending (w w0 : Warp) (n : Nat) : (w.fillLatch w0 n).pending = w.pending := rfl
@[simp] theorem Warp.fillLatch_latches (w w0 : Warp) (n : Nat) :
    (w.fillLatch w0 n).latches = [some ⟨n, (upto w.width).map fun l => w0.reg l n⟩, nth w.latches 0 none] := rfl
@[simp] theorem Warp.fillLatch_openOps (w w0 : Warp) (n : Nat) : (w.fillLatch w0 n).openOps = w.openOps := rfl
@[simp] theorem Warp.fillLatch_batches (w w0 : Warp) (n : Nat) : (w.fillLatch w0 n).batches = w.batches := rfl
@[simp] theorem Warp.fillLatch_attached (w w0 : Warp) (n : Nat) : (w.fillLatch w0 n).attached = w.attached := rfl
@[simp] theorem Warp.fillLatch_status (w w0 : Warp) (n : Nat) : (w.fillLatch w0 n).status = w.status := rfl
@[simp] theorem Warp.fillLatch_marker (w w0 : Warp) (n : Nat) : (w.fillLatch w0 n).marker = w.marker := rfl
@[simp] theorem Warp.fillLatch_pushesOut (w w0 : Warp) (n : Nat) : (w.fillLatch w0 n).pushesOut = w.pushesOut := rfl
@[simp] theorem Warp.fillLatch_segment (w w0 : Warp) (n : Nat) : (w.fillLatch w0 n).segment = w.segment := rfl
@[simp] theorem Warp.fillLatch_pages (w w0 : Warp) (n : Nat) : (w.fillLatch w0 n).pages = w.pages := rfl
@[simp] theorem Warp.fillLatch_count (w w0 : Warp) (n : Nat) : (w.fillLatch w0 n).count = w.count := rfl
@[simp] theorem Warp.fillLatch_detWrites (w w0 : Warp) (n : Nat) : (w.fillLatch w0 n).detWrites = w.detWrites := rfl
@[simp] theorem Warp.fillLatch_detPushes (w w0 : Warp) (n : Nat) : (w.fillLatch w0 n).detPushes = w.detPushes := rfl
@[simp] theorem Warp.fillLatch_detChildren (w w0 : Warp) (n : Nat) : (w.fillLatch w0 n).detChildren = w.detChildren := rfl
@[simp] theorem Warp.fillLatch_detVas (w w0 : Warp) (n : Nat) : (w.fillLatch w0 n).detVas = w.detVas := rfl
@[simp] theorem Warp.fillLatch_detArrivals (w w0 : Warp) (n : Nat) : (w.fillLatch w0 n).detArrivals = w.detArrivals := rfl
@[simp] theorem Warp.fillLatch_repOpen (w w0 : Warp) (n : Nat) : (w.fillLatch w0 n).repOpen = w.repOpen := rfl

/-! ### Warp.countIssue -/

@[simp] theorem Warp.countIssue_team (w : Warp) : w.countIssue.team = w.team := rfl
@[simp] theorem Warp.countIssue_warpid (w : Warp) : w.countIssue.warpid = w.warpid := rfl
@[simp] theorem Warp.countIssue_core (w : Warp) : w.countIssue.core = w.core := rfl
@[simp] theorem Warp.countIssue_quarter (w : Warp) : w.countIssue.quarter = w.quarter := rfl
@[simp] theorem Warp.countIssue_age (w : Warp) : w.countIssue.age = w.age := rfl
@[simp] theorem Warp.countIssue_idleSince (w : Warp) : w.countIssue.idleSince = w.idleSince := rfl
@[simp] theorem Warp.countIssue_promoted (w : Warp) : w.countIssue.promoted = w.promoted := rfl
@[simp] theorem Warp.countIssue_width (w : Warp) : w.countIssue.width = w.width := rfl
@[simp] theorem Warp.countIssue_pc (w : Warp) : w.countIssue.pc = w.pc := rfl
@[simp] theorem Warp.countIssue_prev (w : Warp) : w.countIssue.prev = w.prev := rfl
@[simp] theorem Warp.countIssue_live (w : Warp) : w.countIssue.live = w.live := rfl
@[simp] theorem Warp.countIssue_active (w : Warp) : w.countIssue.active = w.active := rfl
@[simp] theorem Warp.countIssue_s (w : Warp) : w.countIssue.s = w.s := rfl
@[simp] theorem Warp.countIssue_p (w : Warp) : w.countIssue.p = w.p := rfl
@[simp] theorem Warp.countIssue_mode (w : Warp) : w.countIssue.mode = w.mode := rfl
@[simp] theorem Warp.countIssue_stack (w : Warp) : w.countIssue.stack = w.stack := rfl
@[simp] theorem Warp.countIssue_pairs (w : Warp) : w.countIssue.pairs = w.pairs := rfl
@[simp] theorem Warp.countIssue_meld (w : Warp) : w.countIssue.meld = w.meld := rfl
@[simp] theorem Warp.countIssue_path (w : Warp) : w.countIssue.path = w.path := rfl
@[simp] theorem Warp.countIssue_lanes (w : Warp) : w.countIssue.lanes = w.lanes := rfl
@[simp] theorem Warp.countIssue_fpctl (w : Warp) : w.countIssue.fpctl = w.fpctl := rfl
@[simp] theorem Warp.countIssue_repc (w : Warp) : w.countIssue.repc = w.repc := rfl
@[simp] theorem Warp.countIssue_repResume (w : Warp) : w.countIssue.repResume = w.repResume := rfl
@[simp] theorem Warp.countIssue_gset (w : Warp) : w.countIssue.gset = w.gset := rfl
@[simp] theorem Warp.countIssue_gref (w : Warp) : w.countIssue.gref = w.gref := rfl
@[simp] theorem Warp.countIssue_batch (w : Warp) : w.countIssue.batch = w.batch := rfl
@[simp] theorem Warp.countIssue_statusAcc (w : Warp) : w.countIssue.statusAcc = w.statusAcc := rfl
@[simp] theorem Warp.countIssue_tcause (w : Warp) : w.countIssue.tcause = w.tcause := rfl
@[simp] theorem Warp.countIssue_taddr (w : Warp) : w.countIssue.taddr = w.taddr := rfl
@[simp] theorem Warp.countIssue_tlanes (w : Warp) : w.countIssue.tlanes = w.tlanes := rfl
@[simp] theorem Warp.countIssue_tlive (w : Warp) : w.countIssue.tlive = w.tlive := rfl
@[simp] theorem Warp.countIssue_trapc (w : Warp) : w.countIssue.trapc = w.trapc := rfl
@[simp] theorem Warp.countIssue_handler (w : Warp) : w.countIssue.handler = w.handler := rfl
@[simp] theorem Warp.countIssue_region (w : Warp) : w.countIssue.region = w.region := rfl
@[simp] theorem Warp.countIssue_restart (w : Warp) : w.countIssue.restart = w.restart := rfl
@[simp] theorem Warp.countIssue_commit (w : Warp) : w.countIssue.commit = w.commit := rfl
@[simp] theorem Warp.countIssue_pending (w : Warp) : w.countIssue.pending = w.pending := rfl
@[simp] theorem Warp.countIssue_latches (w : Warp) : w.countIssue.latches = w.latches := rfl
@[simp] theorem Warp.countIssue_openOps (w : Warp) : w.countIssue.openOps = w.openOps := rfl
@[simp] theorem Warp.countIssue_batches (w : Warp) : w.countIssue.batches = w.batches := rfl
@[simp] theorem Warp.countIssue_attached (w : Warp) : w.countIssue.attached = w.attached := rfl
@[simp] theorem Warp.countIssue_status (w : Warp) : w.countIssue.status = w.status := rfl
@[simp] theorem Warp.countIssue_marker (w : Warp) : w.countIssue.marker = w.marker := rfl
@[simp] theorem Warp.countIssue_pushesOut (w : Warp) : w.countIssue.pushesOut = w.pushesOut := rfl
@[simp] theorem Warp.countIssue_segment (w : Warp) : w.countIssue.segment = w.segment := rfl
@[simp] theorem Warp.countIssue_pages (w : Warp) : w.countIssue.pages = w.pages := rfl
@[simp] theorem Warp.countIssue_count (w : Warp) : w.countIssue.count = w.count + 1 := rfl
@[simp] theorem Warp.countIssue_detWrites (w : Warp) : w.countIssue.detWrites = w.detWrites := rfl
@[simp] theorem Warp.countIssue_detPushes (w : Warp) : w.countIssue.detPushes = w.detPushes := rfl
@[simp] theorem Warp.countIssue_detChildren (w : Warp) : w.countIssue.detChildren = w.detChildren := rfl
@[simp] theorem Warp.countIssue_detVas (w : Warp) : w.countIssue.detVas = w.detVas := rfl
@[simp] theorem Warp.countIssue_detArrivals (w : Warp) : w.countIssue.detArrivals = w.detArrivals := rfl
@[simp] theorem Warp.countIssue_repOpen (w : Warp) : w.countIssue.repOpen = w.repOpen := rfl

/-! ### Warp.taint -/

@[simp] theorem Warp.taint_team (w : Warp) : w.taint.team = w.team := rfl
@[simp] theorem Warp.taint_warpid (w : Warp) : w.taint.warpid = w.warpid := rfl
@[simp] theorem Warp.taint_core (w : Warp) : w.taint.core = w.core := rfl
@[simp] theorem Warp.taint_quarter (w : Warp) : w.taint.quarter = w.quarter := rfl
@[simp] theorem Warp.taint_age (w : Warp) : w.taint.age = w.age := rfl
@[simp] theorem Warp.taint_idleSince (w : Warp) : w.taint.idleSince = w.idleSince := rfl
@[simp] theorem Warp.taint_promoted (w : Warp) : w.taint.promoted = w.promoted := rfl
@[simp] theorem Warp.taint_width (w : Warp) : w.taint.width = w.width := rfl
@[simp] theorem Warp.taint_pc (w : Warp) : w.taint.pc = w.pc := rfl
@[simp] theorem Warp.taint_prev (w : Warp) : w.taint.prev = w.prev := rfl
@[simp] theorem Warp.taint_live (w : Warp) : w.taint.live = w.live := rfl
@[simp] theorem Warp.taint_active (w : Warp) : w.taint.active = w.active := rfl
@[simp] theorem Warp.taint_s (w : Warp) : w.taint.s = w.s := rfl
@[simp] theorem Warp.taint_p (w : Warp) : w.taint.p = w.p := rfl
@[simp] theorem Warp.taint_mode (w : Warp) : w.taint.mode = w.mode := rfl
@[simp] theorem Warp.taint_stack (w : Warp) : w.taint.stack = w.stack := rfl
@[simp] theorem Warp.taint_pairs (w : Warp) : w.taint.pairs = w.pairs := rfl
@[simp] theorem Warp.taint_meld (w : Warp) : w.taint.meld = w.meld := rfl
@[simp] theorem Warp.taint_path (w : Warp) : w.taint.path = w.path := rfl
@[simp] theorem Warp.taint_lanes (w : Warp) : w.taint.lanes = w.lanes := rfl
@[simp] theorem Warp.taint_fpctl (w : Warp) : w.taint.fpctl = w.fpctl := rfl
@[simp] theorem Warp.taint_repc (w : Warp) : w.taint.repc = w.repc := rfl
@[simp] theorem Warp.taint_repResume (w : Warp) : w.taint.repResume = w.repResume := rfl
@[simp] theorem Warp.taint_gset (w : Warp) : w.taint.gset = w.gset := rfl
@[simp] theorem Warp.taint_gref (w : Warp) : w.taint.gref = w.gref := rfl
@[simp] theorem Warp.taint_batch (w : Warp) : w.taint.batch = w.batch := rfl
@[simp] theorem Warp.taint_statusAcc (w : Warp) : w.taint.statusAcc = w.statusAcc := rfl
@[simp] theorem Warp.taint_tcause (w : Warp) : w.taint.tcause = w.tcause := rfl
@[simp] theorem Warp.taint_taddr (w : Warp) : w.taint.taddr = w.taddr := rfl
@[simp] theorem Warp.taint_tlanes (w : Warp) : w.taint.tlanes = w.tlanes := rfl
@[simp] theorem Warp.taint_tlive (w : Warp) : w.taint.tlive = w.tlive := rfl
@[simp] theorem Warp.taint_trapc (w : Warp) : w.taint.trapc = w.trapc := rfl
@[simp] theorem Warp.taint_handler (w : Warp) : w.taint.handler = w.handler := rfl
@[simp] theorem Warp.taint_region (w : Warp) : w.taint.region = { w.region with tainted := true } := rfl
@[simp] theorem Warp.taint_restart (w : Warp) : w.taint.restart = w.restart := rfl
@[simp] theorem Warp.taint_commit (w : Warp) : w.taint.commit = w.commit := rfl
@[simp] theorem Warp.taint_pending (w : Warp) : w.taint.pending = w.pending := rfl
@[simp] theorem Warp.taint_latches (w : Warp) : w.taint.latches = w.latches := rfl
@[simp] theorem Warp.taint_openOps (w : Warp) : w.taint.openOps = w.openOps := rfl
@[simp] theorem Warp.taint_batches (w : Warp) : w.taint.batches = w.batches := rfl
@[simp] theorem Warp.taint_attached (w : Warp) : w.taint.attached = w.attached := rfl
@[simp] theorem Warp.taint_status (w : Warp) : w.taint.status = w.status := rfl
@[simp] theorem Warp.taint_marker (w : Warp) : w.taint.marker = w.marker := rfl
@[simp] theorem Warp.taint_pushesOut (w : Warp) : w.taint.pushesOut = w.pushesOut := rfl
@[simp] theorem Warp.taint_segment (w : Warp) : w.taint.segment = w.segment := rfl
@[simp] theorem Warp.taint_pages (w : Warp) : w.taint.pages = w.pages := rfl
@[simp] theorem Warp.taint_count (w : Warp) : w.taint.count = w.count := rfl
@[simp] theorem Warp.taint_detWrites (w : Warp) : w.taint.detWrites = w.detWrites := rfl
@[simp] theorem Warp.taint_detPushes (w : Warp) : w.taint.detPushes = w.detPushes := rfl
@[simp] theorem Warp.taint_detChildren (w : Warp) : w.taint.detChildren = w.detChildren := rfl
@[simp] theorem Warp.taint_detVas (w : Warp) : w.taint.detVas = w.detVas := rfl
@[simp] theorem Warp.taint_detArrivals (w : Warp) : w.taint.detArrivals = w.detArrivals := rfl
@[simp] theorem Warp.taint_repOpen (w : Warp) : w.taint.repOpen = w.repOpen := rfl

/-! ### Warp.issues -/

@[simp] theorem Warp.issues_team (w : Warp) (marker isRep : Bool) (clock : Nat) : (w.issues marker isRep clock).team = w.team := rfl
@[simp] theorem Warp.issues_warpid (w : Warp) (marker isRep : Bool) (clock : Nat) : (w.issues marker isRep clock).warpid = w.warpid := rfl
@[simp] theorem Warp.issues_core (w : Warp) (marker isRep : Bool) (clock : Nat) : (w.issues marker isRep clock).core = w.core := rfl
@[simp] theorem Warp.issues_quarter (w : Warp) (marker isRep : Bool) (clock : Nat) : (w.issues marker isRep clock).quarter = w.quarter := rfl
@[simp] theorem Warp.issues_age (w : Warp) (marker isRep : Bool) (clock : Nat) : (w.issues marker isRep clock).age = w.age := rfl
@[simp] theorem Warp.issues_idleSince (w : Warp) (marker isRep : Bool) (clock : Nat) : (w.issues marker isRep clock).idleSince = clock := rfl
@[simp] theorem Warp.issues_promoted (w : Warp) (marker isRep : Bool) (clock : Nat) : (w.issues marker isRep clock).promoted = false := rfl
@[simp] theorem Warp.issues_width (w : Warp) (marker isRep : Bool) (clock : Nat) : (w.issues marker isRep clock).width = w.width := rfl
@[simp] theorem Warp.issues_pc (w : Warp) (marker isRep : Bool) (clock : Nat) : (w.issues marker isRep clock).pc = w.pc := rfl
@[simp] theorem Warp.issues_prev (w : Warp) (marker isRep : Bool) (clock : Nat) : (w.issues marker isRep clock).prev = w.prev := rfl
@[simp] theorem Warp.issues_live (w : Warp) (marker isRep : Bool) (clock : Nat) : (w.issues marker isRep clock).live = w.live := rfl
@[simp] theorem Warp.issues_active (w : Warp) (marker isRep : Bool) (clock : Nat) : (w.issues marker isRep clock).active = w.active := rfl
@[simp] theorem Warp.issues_s (w : Warp) (marker isRep : Bool) (clock : Nat) : (w.issues marker isRep clock).s = w.s := rfl
@[simp] theorem Warp.issues_p (w : Warp) (marker isRep : Bool) (clock : Nat) : (w.issues marker isRep clock).p = w.p := rfl
@[simp] theorem Warp.issues_mode (w : Warp) (marker isRep : Bool) (clock : Nat) : (w.issues marker isRep clock).mode = w.mode := rfl
@[simp] theorem Warp.issues_stack (w : Warp) (marker isRep : Bool) (clock : Nat) : (w.issues marker isRep clock).stack = w.stack := rfl
@[simp] theorem Warp.issues_pairs (w : Warp) (marker isRep : Bool) (clock : Nat) : (w.issues marker isRep clock).pairs = w.pairs := rfl
@[simp] theorem Warp.issues_meld (w : Warp) (marker isRep : Bool) (clock : Nat) : (w.issues marker isRep clock).meld = w.meld := rfl
@[simp] theorem Warp.issues_path (w : Warp) (marker isRep : Bool) (clock : Nat) : (w.issues marker isRep clock).path = w.path := rfl
@[simp] theorem Warp.issues_lanes (w : Warp) (marker isRep : Bool) (clock : Nat) : (w.issues marker isRep clock).lanes = w.lanes := rfl
@[simp] theorem Warp.issues_fpctl (w : Warp) (marker isRep : Bool) (clock : Nat) : (w.issues marker isRep clock).fpctl = w.fpctl := rfl
@[simp] theorem Warp.issues_repc (w : Warp) (marker isRep : Bool) (clock : Nat) : (w.issues marker isRep clock).repc = w.repc := rfl
@[simp] theorem Warp.issues_repResume (w : Warp) (marker isRep : Bool) (clock : Nat) : (w.issues marker isRep clock).repResume = (w.repResume && isRep) := rfl
@[simp] theorem Warp.issues_gset (w : Warp) (marker isRep : Bool) (clock : Nat) : (w.issues marker isRep clock).gset = w.gset := rfl
@[simp] theorem Warp.issues_gref (w : Warp) (marker isRep : Bool) (clock : Nat) : (w.issues marker isRep clock).gref = w.gref := rfl
@[simp] theorem Warp.issues_batch (w : Warp) (marker isRep : Bool) (clock : Nat) : (w.issues marker isRep clock).batch = w.batch := rfl
@[simp] theorem Warp.issues_statusAcc (w : Warp) (marker isRep : Bool) (clock : Nat) : (w.issues marker isRep clock).statusAcc = w.statusAcc := rfl
@[simp] theorem Warp.issues_tcause (w : Warp) (marker isRep : Bool) (clock : Nat) : (w.issues marker isRep clock).tcause = w.tcause := rfl
@[simp] theorem Warp.issues_taddr (w : Warp) (marker isRep : Bool) (clock : Nat) : (w.issues marker isRep clock).taddr = w.taddr := rfl
@[simp] theorem Warp.issues_tlanes (w : Warp) (marker isRep : Bool) (clock : Nat) : (w.issues marker isRep clock).tlanes = w.tlanes := rfl
@[simp] theorem Warp.issues_tlive (w : Warp) (marker isRep : Bool) (clock : Nat) : (w.issues marker isRep clock).tlive = w.tlive := rfl
@[simp] theorem Warp.issues_trapc (w : Warp) (marker isRep : Bool) (clock : Nat) : (w.issues marker isRep clock).trapc = w.trapc := rfl
@[simp] theorem Warp.issues_handler (w : Warp) (marker isRep : Bool) (clock : Nat) : (w.issues marker isRep clock).handler = w.handler := rfl
@[simp] theorem Warp.issues_region (w : Warp) (marker isRep : Bool) (clock : Nat) : (w.issues marker isRep clock).region = w.region := rfl
@[simp] theorem Warp.issues_restart (w : Warp) (marker isRep : Bool) (clock : Nat) : (w.issues marker isRep clock).restart = w.restart := rfl
@[simp] theorem Warp.issues_commit (w : Warp) (marker isRep : Bool) (clock : Nat) : (w.issues marker isRep clock).commit = w.commit := rfl
@[simp] theorem Warp.issues_pending (w : Warp) (marker isRep : Bool) (clock : Nat) : (w.issues marker isRep clock).pending = w.pending := rfl
@[simp] theorem Warp.issues_latches (w : Warp) (marker isRep : Bool) (clock : Nat) : (w.issues marker isRep clock).latches = w.latches := rfl
@[simp] theorem Warp.issues_openOps (w : Warp) (marker isRep : Bool) (clock : Nat) : (w.issues marker isRep clock).openOps = w.openOps := rfl
@[simp] theorem Warp.issues_batches (w : Warp) (marker isRep : Bool) (clock : Nat) : (w.issues marker isRep clock).batches = w.batches := rfl
@[simp] theorem Warp.issues_attached (w : Warp) (marker isRep : Bool) (clock : Nat) : (w.issues marker isRep clock).attached = w.attached := rfl
@[simp] theorem Warp.issues_status (w : Warp) (marker isRep : Bool) (clock : Nat) : (w.issues marker isRep clock).status = w.status := rfl
@[simp] theorem Warp.issues_marker (w : Warp) (marker isRep : Bool) (clock : Nat) : (w.issues marker isRep clock).marker = marker := rfl
@[simp] theorem Warp.issues_pushesOut (w : Warp) (marker isRep : Bool) (clock : Nat) : (w.issues marker isRep clock).pushesOut = w.pushesOut := rfl
@[simp] theorem Warp.issues_segment (w : Warp) (marker isRep : Bool) (clock : Nat) : (w.issues marker isRep clock).segment = w.segment := rfl
@[simp] theorem Warp.issues_pages (w : Warp) (marker isRep : Bool) (clock : Nat) : (w.issues marker isRep clock).pages = w.pages := rfl
@[simp] theorem Warp.issues_count (w : Warp) (marker isRep : Bool) (clock : Nat) : (w.issues marker isRep clock).count = w.count := rfl
@[simp] theorem Warp.issues_detWrites (w : Warp) (marker isRep : Bool) (clock : Nat) : (w.issues marker isRep clock).detWrites = w.detWrites := rfl
@[simp] theorem Warp.issues_detPushes (w : Warp) (marker isRep : Bool) (clock : Nat) : (w.issues marker isRep clock).detPushes = w.detPushes := rfl
@[simp] theorem Warp.issues_detChildren (w : Warp) (marker isRep : Bool) (clock : Nat) : (w.issues marker isRep clock).detChildren = w.detChildren := rfl
@[simp] theorem Warp.issues_detVas (w : Warp) (marker isRep : Bool) (clock : Nat) : (w.issues marker isRep clock).detVas = w.detVas := rfl
@[simp] theorem Warp.issues_detArrivals (w : Warp) (marker isRep : Bool) (clock : Nat) : (w.issues marker isRep clock).detArrivals = w.detArrivals := rfl
@[simp] theorem Warp.issues_repOpen (w : Warp) (marker isRep : Bool) (clock : Nat) : (w.issues marker isRep clock).repOpen = (w.repOpen && isRep) := rfl

/-! ### Lane.put -/

@[simp] theorem Lane.put_v (x : Lane) (n : Nat) (val : Word) : (x.put n val).v = tabPut x.v 0 n val := rfl
@[simp] theorem Lane.put_drawc (x : Lane) (n : Nat) (val : Word) : (x.put n val).drawc = x.drawc := rfl
@[simp] theorem Lane.put_srdraw (x : Lane) (n : Nat) (val : Word) : (x.put n val).srdraw = x.srdraw := rfl
@[simp] theorem Lane.put_iter (x : Lane) (n : Nat) (val : Word) : (x.put n val).iter = x.iter := rfl
@[simp] theorem Lane.put_txCause (x : Lane) (n : Nat) (val : Word) : (x.put n val).txCause = x.txCause := rfl
@[simp] theorem Lane.put_txCode (x : Lane) (n : Nat) (val : Word) : (x.put n val).txCode = x.txCode := rfl
@[simp] theorem Lane.put_aborts (x : Lane) (n : Nat) (val : Word) : (x.put n val).aborts = x.aborts := rfl
@[simp] theorem Lane.put_tx (x : Lane) (n : Nat) (val : Word) : (x.put n val).tx = x.tx := rfl
@[simp] theorem Lane.put_parked (x : Lane) (n : Nat) (val : Word) : (x.put n val).parked = x.parked := rfl
@[simp] theorem Lane.put_slalom (x : Lane) (n : Nat) (val : Word) : (x.put n val).slalom = x.slalom := rfl
@[simp] theorem Lane.put_storeLog (x : Lane) (n : Nat) (val : Word) : (x.put n val).storeLog = x.storeLog := rfl


/-! ### Lane.doom -/

@[simp] theorem Lane.doom_v (x : Lane) (cause code : Nat) : (x.doom cause code).v = x.v := rfl
@[simp] theorem Lane.doom_drawc (x : Lane) (cause code : Nat) : (x.doom cause code).drawc = x.drawc := rfl
@[simp] theorem Lane.doom_srdraw (x : Lane) (cause code : Nat) : (x.doom cause code).srdraw = x.srdraw := rfl
@[simp] theorem Lane.doom_iter (x : Lane) (cause code : Nat) : (x.doom cause code).iter = x.iter := rfl
@[simp] theorem Lane.doom_txCause (x : Lane) (cause code : Nat) : (x.doom cause code).txCause = x.txCause := rfl
@[simp] theorem Lane.doom_txCode (x : Lane) (cause code : Nat) : (x.doom cause code).txCode = x.txCode := rfl
@[simp] theorem Lane.doom_aborts (x : Lane) (cause code : Nat) : (x.doom cause code).aborts = x.aborts := rfl
@[simp] theorem Lane.doom_tx (x : Lane) (cause code : Nat) : (x.doom cause code).tx = x.tx.map fun t => { t with doomed := some (cause, code) } := rfl
@[simp] theorem Lane.doom_parked (x : Lane) (cause code : Nat) : (x.doom cause code).parked = x.parked := rfl
@[simp] theorem Lane.doom_slalom (x : Lane) (cause code : Nat) : (x.doom cause code).slalom = x.slalom := rfl
@[simp] theorem Lane.doom_storeLog (x : Lane) (cause code : Nat) : (x.doom cause code).storeLog = x.storeLog := rfl

/-! ### Lane.abortTx -/

@[simp] theorem Lane.abortTx_v (x : Lane) (cause code : Nat) : (x.abortTx cause code).v = x.v := rfl
@[simp] theorem Lane.abortTx_drawc (x : Lane) (cause code : Nat) : (x.abortTx cause code).drawc = x.drawc := rfl
@[simp] theorem Lane.abortTx_srdraw (x : Lane) (cause code : Nat) : (x.abortTx cause code).srdraw = x.srdraw := rfl
@[simp] theorem Lane.abortTx_iter (x : Lane) (cause code : Nat) : (x.abortTx cause code).iter = x.iter := rfl
@[simp] theorem Lane.abortTx_txCause (x : Lane) (cause code : Nat) : (x.abortTx cause code).txCause = BitVec.ofNat 8 cause := rfl
@[simp] theorem Lane.abortTx_txCode (x : Lane) (cause code : Nat) : (x.abortTx cause code).txCode = BitVec.ofNat 8 code := rfl
@[simp] theorem Lane.abortTx_aborts (x : Lane) (cause code : Nat) : (x.abortTx cause code).aborts = x.aborts + 1 := rfl
@[simp] theorem Lane.abortTx_tx (x : Lane) (cause code : Nat) : (x.abortTx cause code).tx = none := rfl
@[simp] theorem Lane.abortTx_parked (x : Lane) (cause code : Nat) : (x.abortTx cause code).parked = x.parked := rfl
@[simp] theorem Lane.abortTx_slalom (x : Lane) (cause code : Nat) : (x.abortTx cause code).slalom = x.slalom := rfl
@[simp] theorem Lane.abortTx_storeLog (x : Lane) (cause code : Nat) : (x.abortTx cause code).storeLog = x.storeLog := rfl

end Sys2Proof.Machine
end

