-- ==== Sys2Proof/Laws/Shared.lean ====
section
/-! SUPPORT. What each shared operation can do: which of them touch memory, that each keeps memory in its canonical form, what taking an exception and the
end of an instruction leave, and the accesses of a warp's lanes one after another. -/

namespace Sys2Proof.Machine

/-! ### Folds -/

/-- A property that every element keeps is kept by a fold. -/
theorem foldl_keeps {α β : Type} {f : α → β → α} {P : α → Prop} (h : ∀ x b, P x → P (f x b)) (l : List β) : ∀ x, P x → P (l.foldl f x) := by
  induction l with
  | nil => exact fun _ hx => hx
  | cons b r ih => exact fun x hx => ih _ (h x b hx)

/-- A fold whose every element leaves memory alone leaves memory alone. -/
theorem foldl_mem {β : Type} {f : State → β → State} (h : ∀ s b, (f s b).mem = s.mem) (l : List β) (s : State) : (l.foldl f s).mem = s.mem :=
  foldl_keeps (P := fun x : State => x.mem = s.mem) (fun _ b hx => (h _ b).trans hx) l s rfl

/-- The invariant depends on memory alone. -/
theorem inv_of_mem {s t : State} (h : t.mem = s.mem) (hs : s.Inv) : t.Inv := by
  unfold State.Inv
  rw [h]
  exact hs

/-! ### Homes, L1 and messages -/

@[simp] theorem setVersion_mem (s : State) (sect clock die : Nat) : (s.setVersion sect clock die).mem = s.mem := by
  unfold State.setVersion
  dsimp only
  split <;> rfl

@[simp] theorem freshen_mem (s : State) (sect : Nat) : (s.freshen sect).mem = s.mem := setVersion_mem ..
@[simp] theorem freshenAll_mem (s : State) (pa n : Nat) : (s.freshenAll pa n).mem = s.mem := foldl_mem freshen_mem _ s
@[simp] theorem freshenMask_mem (s : State) (line : Nat) (m : BitVec 128) : (s.freshenMask line m).mem = s.mem :=
  foldl_mem (fun s i => by split <;> simp) _ s
@[simp] theorem mscAccess_mem (s : State) (line : Nat) (c : CacheClass) (na dirty : Bool) : (s.mscAccess line c na dirty).mem = s.mem := rfl
@[simp] theorem mscTouch_mem (s : State) (line : Nat) (c : CacheClass) : (s.mscTouch line c).mem = s.mem := rfl
@[simp] theorem send_mem (s : State) (m : Msg) : (s.send m).mem = s.mem := by unfold State.send; split <;> rfl
@[simp] theorem post_mem (s : State) (w : WaitingStore) (c : CacheClass) (na : Bool) : (s.post w c na).mem = s.mem := by
  unfold State.post
  dsimp only
  split <;> simp
@[simp] theorem setDir_mem (s : State) (line : Nat) (d : DirEntry) : (s.setDir line d).mem = s.mem := rfl
@[simp] theorem setL1_mem (s : State) (c line : Nat) (x : L1Line) : (s.setL1 c line x).mem = s.mem := rfl
@[simp] theorem dropL1_mem (s : State) (c line : Nat) : (s.dropL1 c line).mem = s.mem := rfl

@[simp] theorem l2Access_mem (s : State) (line : Nat) (c : CacheClass) (na dirty : Bool) : (s.l2Access line c na dirty).mem = s.mem := by
  unfold State.l2Access State.l2Hit State.askMsc
  repeat' split
  all_goals rfl

@[simp] theorem evictL1_mem (s : State) (c line : Nat) (x : L1Line) : (s.evictL1 c line x).mem = s.mem := by
  unfold State.evictL1
  split <;> simp

@[simp] theorem roomL1_mem (s : State) (c line : Nat) : (s.roomL1 c line).mem = s.mem := by
  unfold State.roomL1
  dsimp only
  repeat' split
  all_goals simp

/-- The L1 side of a load or a prefetch changes no byte of memory. -/
@[simp] theorem l1Read_mem (s : State) (core pa n : Nat) (cls : CacheClass) (na load : Bool) : (s.l1Read core pa n cls na load).mem = s.mem := by
  unfold State.l1Read
  dsimp only
  repeat' split
  all_goals simp

@[simp] theorem loadTouch_mem (s : State) (core pa n : Nat) (cls : CacheClass) (na : Bool) : (s.loadTouch core pa n cls na).mem = s.mem := l1Read_mem ..

@[simp] theorem reask_mem (s : State) (c line : Nat) (x : L1Line) : (s.reask c line x).mem = s.mem := by
  unfold State.reask
  repeat' split
  all_goals simp

@[simp] theorem l1Inv_mem (s : State) (c line : Nat) : (s.l1Inv c line).mem = s.mem := by
  unfold State.l1Inv
  repeat' split
  all_goals simp

@[simp] theorem l1RecallS_mem (s : State) (c line : Nat) : (s.l1RecallS c line).mem = s.mem := by
  unfold State.l1RecallS
  repeat' split
  all_goals simp

@[simp] theorem l1RecallI_mem (s : State) (c line : Nat) : (s.l1RecallI c line).mem = s.mem := by
  unfold State.l1RecallI
  repeat' split
  all_goals simp

@[simp] theorem l1Merge_mem (s : State) (c line : Nat) : (s.l1Merge c line).mem = s.mem := by
  unfold State.l1Merge
  repeat' split
  all_goals simp

@[simp] theorem callShared_mem (s : State) (line : Nat) (keep : List Nat) (d : DirEntry) : (s.callShared line keep d).mem = s.mem := by
  unfold State.callShared
  simp only [setDir_mem]
  exact foldl_mem (fun s c => l1Inv_mem s c line) _ s

/-- Calling in the copies of a line, but for some, changes no byte of memory. -/
@[simp] theorem callInBut_mem (s : State) (line : Nat) (m : BitVec 128) (all : Bool) (keep : List Nat) : (s.callInBut line m all keep).mem = s.mem := by
  unfold State.callInBut
  dsimp only
  split
  · rfl
  · split <;> simp
  · split <;> simp
  · simp only [setDir_mem]
    exact foldl_mem (fun s h => by simp) _ s

@[simp] theorem callIn_mem (s : State) (line : Nat) (m : BitVec 128) (all : Bool) : (s.callIn line m all).mem = s.mem := callInBut_mem ..

/-- A read at the home changes no byte of memory. -/
@[simp] theorem homeRead_mem (s : State) (pa n : Nat) : (s.homeRead pa n).mem = s.mem :=
  foldl_mem (fun s l => by split <;> simp) _ s

/-- A write at the home writes its bytes to memory. -/
@[simp] theorem homeWriteBut_mem (s : State) (pa : Nat) (bs : List Byte) (cls : CacheClass) (na : Bool) (keep : List Nat) :
    (s.homeWriteBut pa bs cls na keep).mem = putBytes s.mem pa bs := by
  unfold State.homeWriteBut
  dsimp only
  rw [foldl_mem fun s l => by simp]
  simp only [freshenAll_mem, State.writeBytes]
  rw [foldl_mem fun s l => by simp]

@[simp] theorem homeWrite_mem (s : State) (pa : Nat) (bs : List Byte) (cls : CacheClass) (na : Bool) :
    (s.homeWrite pa bs cls na).mem = putBytes s.mem pa bs := homeWriteBut_mem ..

@[simp] theorem homeStore_mem (s : State) (pa : Nat) (bs : List Byte) (cls : CacheClass) : (s.homeStore pa bs cls).mem = putBytes s.mem pa bs :=
  homeWrite_mem ..

theorem homeWriteBut_inv {s : State} {pa : Nat} {bs : List Byte} {cls : CacheClass} {na : Bool} {keep : List Nat} (h : s.Inv) :
    (s.homeWriteBut pa bs cls na keep).Inv := by
  unfold State.Inv Memory.wf
  rw [homeWriteBut_mem]
  exact putBytes_wf h

theorem homeWrite_inv {s : State} {pa : Nat} {bs : List Byte} {cls : CacheClass} {na : Bool} (h : s.Inv) : (s.homeWrite pa bs cls na).Inv := by
  unfold State.Inv Memory.wf
  rw [homeWrite_mem]
  exact putBytes_wf h

theorem homeStore_inv {s : State} {pa : Nat} {bs : List Byte} {cls : CacheClass} (h : s.Inv) : (s.homeStore pa bs cls).Inv := homeWrite_inv h

/-- What performing the stores that wait in a line does to memory: the bytes of those that may be performed are written, in order. -/
theorem performStores_mem (s : State) (core line : Nat) (x : L1Line) :
    (s.performStores core line x).mem = ((s.splitStores x).1.foldl (fun s w => s.writeBytes w.pa w.bytes) s).mem := by
  unfold State.performStores
  dsimp only
  split <;> simp

/-- A store that is performed is one that waits in the line. -/
theorem splitStores_mem {s : State} {x : L1Line} {z : WaitingStore} (h : z ∈ (s.splitStores x).1) : z ∈ x.waiting := by
  have go : ∀ (l : List WaitingStore) (r : List WaitingStore × List WaitingStore),
      (∀ y ∈ r.1, y ∈ x.waiting) → (∀ y ∈ l, y ∈ x.waiting) → ∀ y ∈ (l.foldl (fun r w =>
        if s.storeOk x w && !r.2.any (fun o => o.touches w.pa w.bytes.length) then (r.1 ++ [w], r.2) else (r.1, r.2 ++ [w])) r).1, y ∈ x.waiting := by
    intro l
    induction l with
    | nil => exact fun _ hr _ => hr
    | cons w t ih =>
      intro r hr hl
      refine ih _ (fun y hy => ?_) fun y hy => hl y (by simp [hy])
      dsimp only at hy
      split at hy
      · rcases List.mem_append.mp hy with hy | hy
        · exact hr y hy
        · rw [List.mem_singleton.mp hy]; exact hl w (by simp)
      · exact hr y hy
  exact go x.waiting ([], []) (by simp) (fun _ hy => hy) z h

theorem performStores_inv {s : State} {core line : Nat} {x : L1Line} (h : s.Inv) : (s.performStores core line x).Inv :=
  inv_of_mem (performStores_mem ..) (foldl_keeps (P := State.Inv) (fun _ _ hx => writeBytes_inv hx) _ _ h)

/-- A byte that no store waiting in a line touches keeps its value when the stores are performed. -/
theorem performStores_byte {s : State} {core line a : Nat} {x : L1Line} (h : s.Inv) (hw : ∀ z ∈ x.waiting, z.touches a 1 = false) :
    (s.performStores core line x).byte a = s.byte a := by
  have hm : ∀ (l : List WaitingStore) (u : State), (∀ z ∈ l, z.touches a 1 = false) → u.Inv →
      (l.foldl (fun s w => s.writeBytes w.pa w.bytes) u).byte a = u.byte a := by
    intro l
    induction l with
    | nil => exact fun _ _ _ => rfl
    | cons z r ih =>
      intro u hz hu
      have h1 := hz z (by simp)
      simp only [WaitingStore.touches, bytesMeet, Bool.and_eq_false_iff, decide_eq_false_iff_not] at h1
      exact (ih _ (fun y hy => hz y (by simp [hy])) (writeBytes_inv hu)).trans (byte_writeBytes_out hu (by omega))
  have e := performStores_mem s core line x
  unfold State.byte at hm ⊢
  rw [e]
  exact hm _ s (fun z hz => hw z (splitStores_mem hz)) h

theorem storeTouch_inv {s : State} {core : Nat} {w : WaitingStore} {cls : CacheClass} {na : Bool} (h : s.Inv) : (s.storeTouch core w cls na).Inv := by
  unfold State.storeTouch
  dsimp only
  repeat' split
  all_goals first | exact performStores_inv h | exact inv_of_mem (by simp) h

/-- A store of a core leaves alone a byte that neither it nor a store waiting in its line touches. -/
theorem storeTouch_byte {s : State} {core a : Nat} {w : WaitingStore} {cls : CacheClass} {na : Bool} (h : s.Inv) (hw : w.touches a 1 = false)
    (hl : ∀ x, s.l1Line core (w.pa / 128) = some x → ∀ z ∈ x.waiting, z.touches a 1 = false) : (s.storeTouch core w cls na).byte a = s.byte a := by
  unfold State.storeTouch
  dsimp only
  split
  · split <;> simp [State.byte]
  · next x e =>
    have hx := hl x e
    split
    · simp [State.byte]
    · exact performStores_byte h (by simpa [hw, or_imp, forall_and] using hx)
    · exact performStores_byte h (by simpa [hw, or_imp, forall_and] using hx)
    · simp [State.byte]

@[simp] theorem request_mem (s : State) (p : Nat) (op : RemoteOp) (who : Requester) (tag va : Nat) : (s.request p op who tag va).mem = s.mem := rfl

@[simp] theorem noteWrite_mem (s : State) (id va : Nat) : (s.noteWrite id va).mem = s.mem := by
  unfold State.noteWrite
  split <;> rfl

theorem coreStore_inv {s : State} {now : Bool} {core w ctx va : Nat} {p : Phys} {bs : List Byte} {cls : CacheClass} {na : Bool} (h : s.Inv) :
    (s.coreStore now core w ctx va p bs cls na).Inv := by
  unfold State.coreStore
  repeat' split
  · exact inv_of_mem (request_mem ..) h
  · exact homeWrite_inv h
  · exact storeTouch_inv h

theorem putPieces_inv : ∀ {ps : List (Nat × Nat)} {s : State} {bs : List Byte}, s.Inv → (s.putPieces ps bs).Inv
  | [], _, _, h => h
  | (pa, n) :: _, s, bs, h => by
    unfold State.putPieces
    exact putPieces_inv (inv_of_mem (l2Access_mem ..) (writeBytes_inv (a := pa) (bs := bs.take n) h))

/-- Private bytes written leave alone a byte outside their pieces. -/
theorem putPieces_byte {a : Nat} : ∀ {ps : List (Nat × Nat)} {s : State} {bs : List Byte}, s.Inv → (∀ p ∈ ps, a < p.1 ∨ p.1 + p.2 ≤ a) →
    (s.putPieces ps bs).byte a = s.byte a
  | [], _, _, _, _ => rfl
  | (pa, n) :: r, s, bs, h, hp => by
    have h1 : a < pa ∨ pa + n ≤ a := hp (pa, n) (by simp)
    have h2 : (bs.take n).length ≤ n := by simp
    have h3 : ((s.writeBytes pa (bs.take n)).l2Access (pa / 128) .normal false true).byte a = (s.writeBytes pa (bs.take n)).byte a := by simp [State.byte]
    unfold State.putPieces
    exact (putPieces_byte (inv_of_mem (l2Access_mem ..) (writeBytes_inv h)) fun p hq => hp p (List.mem_cons_of_mem _ hq)).trans
      (h3.trans (byte_writeBytes_out h (by omega)))

theorem setFlag_inv {s : State} {ctx va : Nat} (h : s.Inv) : (s.setFlag ctx va).Inv := by
  unfold State.setFlag
  split
  · split
    · exact h
    · exact homeStore_inv h
  · exact h

/-! ### Event records, completion events and the front end -/

@[simp] theorem log_mem (s : State) (die : Nat) (e : EventRecord) : (s.log die e).mem = s.mem := by unfold State.log; split <;> rfl
@[simp] theorem record_mem (s : State) (die typ ctx core code launch data : Nat) : (s.record die typ ctx core code launch data).mem = s.mem :=
  log_mem s die _

theorem setFlags_inv {s : State} {ctx va n : Nat} (h : s.Inv) : (s.setFlags ctx va n).Inv :=
  foldl_keeps (P := State.Inv) (fun _ _ hx => setFlag_inv hx) _ _ h

@[simp] theorem dropTags_mem (s : State) (tag n : Nat) : (s.dropTags tag n).mem = s.mem := rfl

theorem putPiece_inv {s : State} {p : Phys} {tag va : Nat} {bs : List Byte} {bad : Bool} {c : CacheClass} {na : Bool} (h : s.Inv) :
    (s.putPiece p tag va bs bad c na).Inv := by
  unfold State.putPiece
  dsimp only
  split
  · exact inv_of_mem (request_mem ..) h
  · split
    · exact inv_of_mem rfl (homeWrite_inv (cls := c) (na := na) h)
    · exact homeWrite_inv h

theorem putPlaces_inv {tag : Nat} : ∀ {l : List (Nat × Nat)} {ps : List Phys} {s : State} {bs : List Byte}, s.Inv → (s.putPlaces tag l ps bs).Inv
  | [], _, _, _, h => by simpa [State.putPlaces] using h
  | _ :: _, [], _, _, h => by simpa [State.putPlaces] using h
  | (va, n) :: _, p :: _, s, bs, h => putPlaces_inv (s := s.putPiece p tag va (bs.take n) false .normal false) (putPiece_inv h)

@[simp] theorem walkTouch_mem (s : State) (cache : List TlbEntry) (ctx va : Nat) : (s.walkTouch cache ctx va).mem = s.mem :=
  foldl_mem (fun s a => by split <;> simp) _ s

@[simp] theorem walkRange_mem (s : State) (ctx va n : Nat) : (s.walkRange ctx va n).mem = s.mem := foldl_mem (fun s a => by simp) _ s

theorem rangeWrite_inv {s t : State} {ctx tag va : Nat} {bs : List Byte} (h : s.Inv) (e : s.rangeWrite ctx tag va bs = .ok t) : t.Inv := by
  unfold State.rangeWrite at e
  dsimp only at e
  split at e
  · cases e
  · cases e; exact putPlaces_inv (inv_of_mem (walkRange_mem ..) h)

theorem frontWrite_inv {s t : State} {ctx tag va : Nat} {bs : List Byte} (h : s.Inv) (e : s.frontWrite ctx tag va bs = .ok t) : t.Inv := by
  unfold State.frontWrite at e
  dsimp only at e
  split at e
  · cases e
  · exact rangeWrite_inv (setFlags_inv h) e

theorem skipSignal_inv {s : State} {g : Signal} (h : s.Inv) : (s.skipSignal g).Inv := inv_of_mem (record_mem ..) h

theorem addValue_inv {s t : State} {g : Signal} (h : s.Inv) (e : s.addValue g = some t) : t.Inv := by
  unfold State.addValue at e
  dsimp only at e
  repeat' split at e
  all_goals first
    | cases e; first
      | exact skipSignal_inv h
      | exact inv_of_mem (request_mem ..) (setFlags_inv h)
      | exact homeStore_inv (setFlags_inv h)
    | cases e

theorem stepSignal_inv {s t : State} {g : Signal} {st : SignalStage} (h : s.Inv) (e : s.stepSignal g = some (t, st)) : t.Inv := by
  unfold State.stepSignal at e
  split at e
  · cases e
  · split at e
    · repeat' split at e
      all_goals cases e
      all_goals first | exact h | exact frontWrite_inv h ‹_›
    · repeat' split at e
      all_goals cases e
      all_goals first | exact h | exact skipSignal_inv h | exact frontWrite_inv h ‹_›
    · cases ha : s.addValue g with
      | none => rw [ha] at e; cases e
      | some x => rw [ha] at e; cases e; exact addValue_inv h ha
    · cases e; exact inv_of_mem rfl h

@[simp] theorem endSignal_mem (s : State) (g : Signal) : (s.endSignal g).mem = s.mem := by
  unfold State.endSignal
  dsimp only
  split <;> rfl

theorem runSignal_inv : ∀ {fuel : Nat} {s : State} {g : Signal}, s.Inv → (State.runSignal fuel s g).Inv
  | 0, _, _, h => h
  | fuel + 1, s, g, h => by
    simp only [State.runSignal]
    split
    · exact h
    · next e =>
      have h1 := stepSignal_inv h e
      split
      · exact inv_of_mem (endSignal_mem ..) h1
      · exact runSignal_inv (inv_of_mem rfl h1)

/-- A completion event, as far as it goes at once, keeps memory in its canonical form. -/
theorem signal_inv {s : State} {source : Option (Nat × Nat)} {ctx : Nat} {va : Option Nat} {code kind add : Nat} {r : Option (Nat × List Byte)}
    (h : s.Inv) : (s.signal source ctx va code kind add r).Inv := by
  unfold State.signal
  dsimp only
  split <;> exact runSignal_inv (inv_of_mem rfl h)

theorem fireEvent_inv {s : State} {source : Option (Nat × Nat)} {ctx va code kind add : Nat} (h : s.Inv) :
    (s.fireEvent source ctx va code kind add).Inv := by
  unfold State.fireEvent
  split
  · exact h
  · exact signal_inv h

/-! ### Queues, teams and launches end -/

@[simp] theorem freeQueue_mem (s : State) (core q : Nat) : (s.freeQueue core q).mem = s.mem := rfl

@[simp] theorem freeQueues_mem (s : State) (core team : Nat) : (s.freeQueues core team).mem = s.mem := by
  refine foldl_mem (fun s b => ?_) _ s
  split <;> simp

@[simp] theorem detachAll_mem (s : State) (k : Nat) (w : Warp) : (s.detachAll k w).mem = s.mem := by
  unfold State.detachAll
  simp only
  split
  · rfl
  · split
    · rfl
    · refine foldl_keeps (P := fun x : State => x.mem = s.mem) (fun x b hx => ?_) _ _ rfl
      repeat' split
      all_goals simp [hx]

@[simp] theorem releaseLocks_mem (s : State) (k : Nat) (w : Warp) : (s.releaseLocks k w).mem = s.mem := by
  unfold State.releaseLocks
  exact foldl_mem freshen_mem _ _

@[simp] theorem cancelOps_mem (s : State) (f : EngineOp → Bool) : (s.cancelOps f).mem = s.mem := rfl

@[simp] theorem dropHoldings_mem (s : State) (k : Nat) : (s.dropHoldings k).mem = s.mem := by
  unfold State.dropHoldings
  split <;> simp

/-- Killing a team changes no byte of memory. -/
@[simp] theorem killTeam_mem (s : State) (t : Nat) : (s.killTeam t).mem = s.mem := by
  unfold State.killTeam
  simp only [cancelOps_mem]
  split
  · rw [freeQueues_mem]; exact foldl_mem dropHoldings_mem _ s
  · exact foldl_mem dropHoldings_mem _ s

theorem cancelChildren_inv {s : State} {a : Nat} (h : s.Inv) : (s.cancelChildren a).Inv :=
  foldl_keeps (P := State.Inv) (fun _ _ hx => fireEvent_inv hx) _ _ h

theorem endLaunch_inv {s : State} {id : Nat} {st : LaunchStatus} {r : Option FaultRecord} (h : s.Inv) : (s.endLaunch id st r).Inv := by
  unfold State.endLaunch
  split
  · exact h
  · split
    · exact inv_of_mem rfl h
    · exact cancelChildren_inv (inv_of_mem ((foldl_mem killTeam_mem _ _).trans rfl) h)

theorem abortLaunch_inv {s : State} {w : Warp} {cause : Nat} {nested lane noHandler : Bool} {trapc taddr : DWord} {tlanes : Mask} (h : s.Inv) :
    (s.abortLaunch w cause nested lane noHandler trapc taddr tlanes).Inv := by
  unfold State.abortLaunch
  split
  · exact h
  · split
    · exact h
    · exact endLaunch_inv (inv_of_mem (record_mem ..) h)

/-! ### Taking an exception, and the end of an instruction -/

theorem warp_putWarp_self (s : State) (k : Nat) (w : Warp) : tabFind (s.putWarp k w).warps k = some w := tabFind_tabSet_self ..
theorem warp_putWarp_ne (s : State) {k j : Nat} (w : Warp) (h : j ≠ k) : tabFind (s.putWarp k w).warps j = tabFind s.warps j :=
  tabFind_tabSet_ne _ _ h

theorem putWarp_inv {s : State} {k : Nat} {w : Warp} (h : s.Inv) : (s.putWarp k w).Inv := inv_of_mem rfl h

theorem writeRecords_inv {env : Env} {w : Warp} : ∀ {ls : List Nat} {s t : State}, s.Inv → State.writeRecords env w ls s = .ok t → t.Inv
  | [], _, _, h, e => by cases e; exact h
  | _ :: _, _, _, h, e => by
    simp only [State.writeRecords] at e
    split at e
    · exact writeRecords_inv (putPieces_inv h) e
    · cases e

/-- A warp outside its handler, with a handler to go to and s31 inside the stack, writes its lane records and enters it with the cause, the address and the
lanes, and its die's ring takes the record (R165, R402). -/
theorem takeTrap_enters {s s1 : State} {k : Nat} {w : Warp} {env : Env} {entry : DWord} (cause : Nat) (addr : DWord) (lanes : Mask) (lane : Bool)
    (he : s.env? w = some env) (hh : w.handler = none) (ht : s.handlerOf w = some entry) (lo : env.stklim ≤ (w.scal 31).toNat)
    (hi : (w.scal 31).toNat ≤ env.top) (hr : State.writeRecords env w (lanesOf w.width w.live) s = .ok s1) :
    s.takeTrap k w cause addr lanes lane
      = (s1.record (dieOf w.core) 1 env.ctx w.core cause env.launch w.pc.toNat).putWarp k (w.enter entry cause addr lanes) := by
  simp [State.takeTrap, he, hh, ht, Nat.not_lt.mpr lo, Nat.not_lt.mpr hi, hr]

theorem entryFault_inv {s : State} {k : Nat} {env : Env} {w : Warp} {x : XKind} {va : Nat} (h : s.Inv) : (s.entryFault k env w x va).Inv := by
  unfold State.entryFault
  split
  · exact abortLaunch_inv h
  · exact putWarp_inv h
  · exact h

theorem takeTrap_inv {s : State} {k : Nat} {w : Warp} {cause : Nat} {addr : DWord} {lanes : Mask} {lane : Bool} (h : s.Inv) :
    (s.takeTrap k w cause addr lanes lane).Inv := by
  unfold State.takeTrap
  dsimp only
  repeat' split
  all_goals first
    | exact h
    | exact abortLaunch_inv h
    | exact entryFault_inv h
    | exact putWarp_inv (inv_of_mem (record_mem ..) (writeRecords_inv h ‹_›))

theorem enterParked_inv {s : State} {k : Nat} {w : Warp} (h : s.Inv) : (s.enterParked k w).Inv := by
  unfold State.enterParked
  split
  · exact h
  · dsimp only
    split
    · exact abortLaunch_inv h
    · exact takeTrap_inv h

theorem raise_inv {s : State} {k : Nat} {w : Warp} {len cause : Nat} {addr : DWord} {lanes : Mask} (h : s.Inv) :
    (s.raise k w len cause addr lanes).Inv := by
  unfold State.raise
  simp only
  split
  · exact putWarp_inv h
  · exact takeTrap_inv h

/-- Where no lane of the warp has a transaction, a warp-class trap is taken as it is (R164). -/
theorem raise_plain {s : State} {k : Nat} {w : Warp} {len cause : Nat} {addr : DWord} {lanes : Mask} (h : w.anyTx = false) :
    s.raise k w len cause addr lanes = s.takeTrap k w.doomActive cause addr lanes false := by
  simp [State.raise, Warp.onlyDooms, h]

theorem halt_inv {s : State} {k : Nat} {w : Warp} {len : Nat} {e : Stop} (h : s.Inv) : (s.halt k w len e).Inv := by
  cases e with
  | trap => exact raise_inv h
  | raised => exact takeTrap_inv h
  | parked => exact enterParked_inv h
  | charged =>
    simp only [State.halt]
    split
    · exact enterParked_inv h
    · exact putWarp_inv h
  | abort => exact abortLaunch_inv h
  | _ => exact inv_of_mem rfl h

/-- An instruction that leaves some lane live, and no lane parked in the handler, ends with the warp put back, its issue counted. -/
theorem settle_quiet {s : State} {k : Nat} {w : Warp} (h : w.Quiet) : s.settle k w = s.putWarp k w.countIssue := by
  obtain ⟨h1, h2⟩ := h
  have h3 : ¬ w.live = 0#64 := h1
  rcases h2 with h2 | h2 <;> simp [State.settle, h2, h3]

@[simp] theorem noteDraws_mem (s : State) (w : Warp) : (s.noteDraws w).mem = s.mem := by unfold State.noteDraws; split <;> rfl

/-- A warp left without live lanes retires, detached from its queues, its draw counters kept with the team (R31, R259, R397). -/
theorem settle_retires {s : State} {k : Nat} {w : Warp} (h : w.live = 0) (hp : w.handler = none ∨ w.parked = 0) :
    s.settle k w = ((s.detachAll k w).noteDraws w).putWarp k { w with status := .retired, attached := 0 } := by
  rcases hp with hp | hp <;> simp [State.settle, h, hp]

theorem settle_inv {s : State} {k : Nat} {w : Warp} (h : s.Inv) : (s.settle k w).Inv := by
  unfold State.settle
  repeat' split
  · exact enterParked_inv h
  · exact putWarp_inv (inv_of_mem ((noteDraws_mem ..).trans (detachAll_mem ..)) h)
  · exact putWarp_inv h

/-- The issue of an instruction keeps memory in its canonical form where its effect does. -/
theorem issueBy_inv {s : State} {k : Nat} {w : Warp} {len : Nat} {f : State → Nat → Env → Warp → Effect} (h : s.Inv)
    (hf : ∀ env w s1 w1 n, f s k env w = .ok (s1, w1, n) → s1.Inv) : (s.issueBy k w len f).Inv := by
  unfold State.issueBy
  simp only
  split
  · exact h
  · split
    · next heq => exact settle_inv (inv_of_mem (State.forget_mem _ _) (hf _ _ _ _ _ heq))
    · exact halt_inv h

theorem issueOf_inv {s t : State} {len : Nat} {f : State → Nat → Env → Warp → Effect} (h : s.Inv)
    (hf : ∀ k env w s1 w1 n, f s k env w = .ok (s1, w1, n) → s1.Inv) (ht : s.issueOf len f = .next t) : t.Inv := by
  unfold State.issueOf at ht
  split at ht
  · cases ht
  · split at ht
    · cases ht
    · cases ht
      exact issueBy_inv h (hf _)

/-- The issue of an instruction that changes its warp alone keeps memory in its canonical form. -/
theorem issue_inv {s t : State} {f : Env → Warp → Except Stop Warp} (h : s.Inv) (ht : s.issue f = .next t) : t.Inv := by
  refine issueOf_inv h (fun k env w s1 w1 n e => ?_) ht
  cases hw : f env w with
  | error x => rw [hw] at e; cases e
  | ok x => rw [hw] at e; cases e; exact h

/-- The issue of a control instruction keeps memory in its canonical form. -/
theorem issueControl_inv {s t : State} {len : Nat} {f : Env → Warp → Except Stop (Warp × Next)} (h : s.Inv) (ht : s.issueControl len f = .next t) :
    t.Inv := by
  refine issueOf_inv h (fun k env w s1 w1 n e => ?_) ht
  cases hw : f env w with
  | error x => rw [hw] at e; cases e
  | ok x => rw [hw] at e; cases e; exact h

/-- The issue of an instruction that changes the state keeps memory in its canonical form where its effect does. -/
theorem issueMem_inv {s t : State} {f : State → Nat → Env → Warp → Except Stop (State × Warp)} (h : s.Inv)
    (hf : ∀ k env w s1 w1, f s k env w = .ok (s1, w1) → s1.Inv) (ht : s.issueMem f = .next t) : t.Inv := by
  refine issueOf_inv h (fun k env w s1 w1 n e => ?_) ht
  cases hw : f s k env w with
  | error x => rw [hw] at e; cases e
  | ok x => rw [hw] at e; cases e; exact hf _ _ _ _ _ hw

/-! ### The lanes of a warp, one after another -/

/-- Accesses that each succeed at the state and the warp that those before them leave are done one after another. -/
theorem memLanes_fold {f : LaneAccess} {put : State × Warp → Nat → State × Warp} : ∀ (ls : List Nat) (u : State × Warp),
    EachLane ls put u (fun u l => f l u.1 u.2 = .ok (put u l)) → memLanes f ls u.1 u.2 = .ok (ls.foldl put u)
  | [], _, _ => rfl
  | l :: r, u, h => by
    have h0 := h [] l r rfl
    simp only [List.foldl_nil] at h0
    simp only [memLanes, h0, List.foldl_cons]
    exact memLanes_fold r (put u l) fun b x a e => by simpa using h (l :: b) x a (by simp [e])

/-- Accesses that each keep memory in its canonical form keep it together. -/
theorem memLanes_inv {f : LaneAccess} (hf : ∀ l s w s1 w1, s.Inv → f l s w = .ok (s1, w1) → s1.Inv) :
    ∀ {ls : List Nat} {s : State} {w : Warp} {s1 : State} {w1 : Warp}, s.Inv → memLanes f ls s w = .ok (s1, w1) → s1.Inv
  | [], _, _, _, _, h, e => by cases e; exact h
  | l :: r, s, w, _, _, h, e => by
    simp only [memLanes] at e
    split at e
    · next hl => exact memLanes_inv hf (hf _ _ _ _ _ h hl) e
    · cases e

theorem setNth_length {α : Type} (l : List α) (n : Nat) (x : α) : (setNth l n x).length = l.length := by
  induction l generalizing n with
  | nil => rfl
  | cons y r ih => cases n <;> simp [setNth, ih]

theorem nth_setNth_self {α : Type} {l : List α} {n : Nat} (x d : α) (h : n < l.length) : nth (setNth l n x) n d = x := by
  induction l generalizing n with
  | nil => simp at h
  | cons y r ih => cases n with
    | zero => rfl
    | succ n => exact ih (by simpa using h)

theorem nth_setNth_ne {α : Type} {l : List α} {n m : Nat} (x d : α) (h : m ≠ n) : nth (setNth l n x) m d = nth l m d := by
  induction l generalizing n m with
  | nil => rfl
  | cons y r ih => cases n <;> cases m <;> simp_all [setNth, nth]

theorem lane_setLane_self {w : Warp} {l : Nat} (x : Lane) (h : l < w.lanes.length) : (w.setLane l x).lane l = x := nth_setNth_self x _ h
theorem lane_setLane_ne {w : Warp} {l m : Nat} (x : Lane) (h : m ≠ l) : (w.setLane l x).lane m = w.lane m := nth_setNth_ne x _ h

/-- What a lane's result leaves alone in the warp: everything but its lanes, its flags and the active mask. -/
theorem applyLane_frame (w : Warp) (l : Nat) (r : LaneResult) :
    ∃ ls fp m, applyLane w l r = { w with lanes := ls, fpctl := fp, active := m } := by
  cases r with
  | error e =>
    simp only [applyLane, applyLane.faulted]
    split <;> exact ⟨_, _, _, rfl⟩
  | ok x =>
    simp only [applyLane]
    split
    · simp only [applyLane.faulted]; split <;> exact ⟨_, _, _, rfl⟩
    · exact ⟨_, _, _, rfl⟩

/-- A lane's result leaves every other lane alone (R122). -/
theorem applyLane_lane_ne {w : Warp} {l m : Nat} (r : LaneResult) (h : m ≠ l) : (applyLane w l r).lane m = w.lane m := by
  cases r with
  | error e =>
    simp only [applyLane, applyLane.faulted]
    split <;> exact lane_setLane_ne _ h
  | ok x =>
    simp only [applyLane]
    split
    · simp only [applyLane.faulted]; split <;> exact lane_setLane_ne _ h
    · exact lane_setLane_ne _ h

/-- A lane whose result raises no exception that traps ends with that result (R123). -/
theorem applyLane_ok {w : Warp} {l : Nat} {x : Lane} {fl : Flags} (h : enabledOf w.fpctl fl = false) :
    applyLane w l (.ok (x, fl)) = { w with fpctl := raiseFlags w.fpctl fl }.setLane l x := by
  simp [applyLane, h]

/-- What the lanes of a list leave alone in the warp: everything but its lanes, its flags and the active mask. -/
theorem runLanes_frame (f : Nat → LaneResult) (ls : List Nat) : ∀ w : Warp,
    ∃ xs fp m, runLanes f ls w = { w with lanes := xs, fpctl := fp, active := m } := by
  induction ls with
  | nil => exact fun w => ⟨w.lanes, w.fpctl, w.active, rfl⟩
  | cons l r ih =>
    intro w
    obtain ⟨xs, fp, m, h⟩ := applyLane_frame w l (f l)
    obtain ⟨ys, fp', m', h'⟩ := ih { w with lanes := xs, fpctl := fp, active := m }
    exact ⟨ys, fp', m', by simp only [runLanes]; rw [h, h']⟩

/-- A lane outside the list keeps what it holds. -/
theorem runLanes_lane_out {f : Nat → LaneResult} {ls : List Nat} {m : Nat} (h : m ∉ ls) : ∀ w : Warp, (runLanes f ls w).lane m = w.lane m := by
  induction ls with
  | nil => exact fun _ => rfl
  | cons l r ih =>
    intro w
    simp only [List.mem_cons, not_or] at h
    simp only [runLanes]
    rw [ih h.2, applyLane_lane_ne _ h.1]

end Sys2Proof.Machine
end

