-- ==== Sys2Proof/Laws/Masks.lean ====
section
/-! SUPPORT. The active mask stays within the live mask (R15) and the divergence stack within its 160 entries (R27): one lemma for each operation that writes a mask
or the stack of a warp. No other definition writes them. -/

namespace Sys2Proof.Machine

/-- The active lanes are live, and the stack has at most 160 entries (R15, R27). -/
def MasksOk (live active : Mask) (stack : List StackEntry) : Prop := active &&& ~~~live = 0 ∧ stack.length ≤ 160

/-- The same of a warp and of the record of its region. -/
def Warp.MasksOk (w : Warp) : Prop :=
  Machine.MasksOk w.live w.active w.stack ∧ Machine.MasksOk w.region.record.live w.region.record.active w.region.record.stack

theorem and_within (a m : Mask) : (a &&& m) &&& ~~~m = 0 := by simp [BitVec.and_assoc]

/-- A part of a mask lies within what the mask lies in. -/
theorem part_within {a m : Mask} (b : Mask) (h : a &&& ~~~m = 0) : (a &&& b) &&& ~~~m = 0 := by
  rw [BitVec.and_assoc, BitVec.and_comm b, ← BitVec.and_assoc, h]
  simp

/-- An operation that leaves masks, stack and record alone. -/
theorem masksOk_of_eq {w v : Warp} (h : w.MasksOk) (hl : v.live = w.live) (ha : v.active = w.active) (hs : v.stack = w.stack)
    (hr : v.region.record = w.region.record) : v.MasksOk := by
  unfold Warp.MasksOk
  rw [hl, ha, hs, hr]
  exact h

/-- A write of a pending result leaves masks, stack and region alone. -/
theorem apply_keeps (w : Warp) (r : RegWrite) :
    (r.apply w).live = w.live ∧ (r.apply w).active = w.active ∧ (r.apply w).stack = w.stack ∧ (r.apply w).region = w.region := by
  cases r <;> exact ⟨rfl, rfl, rfl, rfl⟩

theorem drain_masksOk {w : Warp} (h : w.MasksOk) : w.drain.MasksOk :=
  let k := foldl_keeps (P := fun v : Warp => v.MasksOk) (fun v r hv => by
    obtain ⟨a, b, c, d⟩ := apply_keeps v r
    exact masksOk_of_eq hv a b c (d ▸ rfl)) w.pending.flatten w h
  masksOk_of_eq k rfl rfl rfl rfl

theorem finish_masksOk {w : Warp} (n : Next) (h : w.MasksOk) : (w.finish n).MasksOk := by
  have m : ∀ v : Warp, v.MasksOk → v.markerWait.MasksOk := fun v hv => by
    unfold Warp.markerWait
    split
    · exact masksOk_of_eq (drain_masksOk hv) rfl rfl rfl rfl
    · exact hv
  cases n
  · exact m _ (masksOk_of_eq h rfl rfl rfl rfl)
  · exact m _ (masksOk_of_eq h rfl rfl rfl rfl)
  · exact h

/-- A lane that faults leaves the active mask, and no other lane enters it (R160). -/
theorem applyLane_masksOk {w : Warp} (l : Nat) (r : LaneResult) (h : w.MasksOk) : (applyLane w l r).MasksOk := by
  have f : ∀ (v : Warp) (c : Nat) (a : DWord), v.MasksOk → (applyLane.faulted l v c a).MasksOk := fun v c a hv => by
    unfold applyLane.faulted
    split
    · exact masksOk_of_eq hv rfl rfl rfl rfl
    · exact ⟨⟨part_within _ hv.1.1, hv.1.2⟩, hv.2⟩
  unfold applyLane
  split
  · split
    · exact f _ _ _ (masksOk_of_eq h rfl rfl rfl rfl)
    · exact masksOk_of_eq h rfl rfl rfl rfl
  · exact f _ _ _ h

theorem charge_masksOk {w : Warp} (c : Nat) (a : DWord) (h : w.MasksOk) : (w.charge c a).MasksOk := applyLane_masksOk _ _ h

/-- A pop takes a mask's live lanes (R28). -/
theorem pop_masksOk {w : Warp} (h : w.MasksOk) : w.pop.1.MasksOk := by
  unfold Warp.pop
  split
  · exact h
  · next e => exact ⟨⟨and_within _ _, by have := h.1.2; rw [e] at this; exact Nat.le_of_succ_le this⟩, h.2⟩

/-- A push of entries for which there is room. -/
theorem push_masksOk {w : Warp} (es : List StackEntry) (h : w.MasksOk) (r : w.stack.length + es.length ≤ 160) : (w.push es).MasksOk :=
  ⟨⟨h.1.1, by simpa [Warp.push, Nat.add_comm] using r⟩, h.2⟩

/-- What comes after a check of the stack's room has it (R27). -/
theorem room_le {α : Type} {w : Warp} {env : Env} {n : Nat} {k : Except Stop α} {x : α} (h : w.room env n k = .ok x) : w.stack.length + n ≤ 160 ∧ k = .ok x := by
  unfold Warp.room stopIf at h
  split at h
  · cases h
  · next c => exact ⟨by rw [decide_eq_true_eq] at c; exact Nat.not_lt.mp c, h⟩

/-- What comes after a check that stops has passed it. -/
theorem stopIf_ok {α : Type} {b : Bool} {e : Stop} {k : Except Stop α} {x : α} (h : stopIf b e k = .ok x) : k = .ok x := by
  unfold stopIf at h
  split at h
  · cases h
  · exact h

/-- `SPLIT` keeps the masks and the stack within their bounds (R15, R27, R29). -/
theorem split_masksOk {p : Nat} {sense : Bool} {els join : Int} {env : Env} {w : Warp} {x : Warp × Next} (h : w.MasksOk)
    (e : split p sense els join env w = .ok x) : x.1.MasksOk := by
  have e := stopIf_ok e
  generalize (if sense = true then w.pred p else ~~~(w.pred p)) = c at e
  dsimp only at e
  split at e
  · cases e; exact h
  · split at e
    · cases e; exact h
    · obtain ⟨r, e⟩ := room_le e
      cases e
      exact ⟨⟨part_within _ h.1.1, (push_masksOk [_, _] h r).1.2⟩, h.2⟩

/-- `SWITCH` keeps them (R15, R27, R30). -/
theorem switch_masksOk {a : Nat} {k : KeyType} {cases' : List (Nat × Int)} {dflt join : Int} {env : Env} {w : Warp} {x : Warp × Next} (h : w.MasksOk)
    (e : switch a k cases' dflt join env w = .ok x) : x.1.MasksOk := by
  have e := stopIf_ok (stopIf_ok e)
  dsimp only at e
  split at e
  · cases e; exact h
  · cases e; exact h
  · obtain ⟨r, e⟩ := room_le e
    cases e
    exact ⟨⟨part_within _ h.1.1, (push_masksOk _ h (by simp; omega)).1.2⟩, h.2⟩

/-- `CALLV` keeps them (R15, R27, R103). -/
theorem callv_masksOk {y : Nat} {s : State} {env : Env} {w : Warp} {x : Warp × Next} (h : w.MasksOk) (e : callv y s env w = .ok x) : x.1.MasksOk := by
  have e := stopIf_ok (stopIf_ok (stopIf_ok (stopIf_ok e)))
  have hl : w.link.MasksOk := masksOk_of_eq h rfl rfl rfl rfl
  unfold Warp.callAll at e
  split at e
  · cases e; exact hl
  · cases e; exact hl
  · obtain ⟨r, e⟩ := room_le e
    cases e
    exact pop_masksOk (push_masksOk _ hl (by show w.stack.length + _ ≤ 160; simpa using r))

/-- `EXIT` keeps them: no lane is active after it (R15, R115). -/
theorem exit_masksOk {env : Env} {w v : Warp} (h : w.MasksOk) (e : exit env w = .ok v) : v.MasksOk := by
  have e := stopIf_ok (stopIf_ok (stopIf_ok e))
  cases e
  exact ⟨⟨by simp, h.1.2⟩, h.2⟩

/-- The handler's entry and the return from it keep them (R165, R167). -/
theorem enter_masksOk {w : Warp} (entry : DWord) (c : Nat) (a : DWord) (m : Mask) (h : w.MasksOk) : (w.enter entry c a m).MasksOk :=
  ⟨⟨by simp [Warp.enter], (drain_masksOk h).1.2⟩, (drain_masksOk h).2⟩

theorem leave_masksOk {w : Warp} (y : Handler) (b : Bool) (h : w.MasksOk) : (w.leave y b).MasksOk := ⟨⟨and_within _ _, h.1.2⟩, h.2⟩

/-- A region's record holds what the warp holds at its entry (R36, R40), and what is saved of a warp is its record. -/
theorem regionOf_record (w : Warp) (kind : RegionKind) (n : Nat) (nb v : Bool) (sc : BitVec 32) (b c : Nat) (ps : BitVec 12) (al : Bool) :
    (regionOf w kind n nb v sc b c ps al).record.live = w.live ∧ (regionOf w kind n nb v sc b c ps al).record.active = w.active
    ∧ (regionOf w kind n nb v sc b c ps al).record.stack = w.stack := ⟨rfl, rfl, rfl⟩

theorem saved_masksOk {w : Warp} (h : w.MasksOk) : w.saved.MasksOk := ⟨h.2, h.2⟩

/-- A warp starts with every live lane active and an empty stack, and a killed one has none left (R19, R191). -/
theorem newWarp_masksOk (t i c q k n g : Nat) (pc : DWord) (live : Mask) (s : List DWord) (ls : List Lane) : (newWarp t i c q k n g pc live s ls).MasksOk :=
  ⟨⟨by simp [newWarp], by simp [newWarp]⟩, by simp [newWarp, Region.none, MasksOk]⟩

theorem killed_masksOk {w : Warp} (h : w.MasksOk) : w.killed.MasksOk := ⟨⟨by simp [Warp.killed], h.1.2⟩, h.2⟩

/-- Lanes written one after another leave masks, stack and record alone. -/
theorem setLanes_masksOk {α : Type} {w : Warp} (f : Warp → α → Nat) (g : Warp → α → Lane) (l : List α) (h : w.MasksOk) :
    (l.foldl (fun v a => v.setLane (f v a) (g v a)) w).MasksOk ∧ (l.foldl (fun v a => v.setLane (f v a) (g v a)) w).live = w.live :=
  foldl_keeps (f := fun v a => v.setLane (f v a) (g v a)) (P := fun v : Warp => v.MasksOk ∧ v.live = w.live) (fun _ _ hv => ⟨masksOk_of_eq hv.1 rfl rfl rfl rfl, hv.2⟩) l w ⟨h, rfl⟩

/-- The inputs that a re-execution restores leave them alone (R41). -/
theorem reenter_masksOk {w : Warp} (ls : List Nat) (h : w.MasksOk) : (w.reenter ls).MasksOk ∧ (w.reenter ls).live = w.live :=
  let k := setLanes_masksOk (fun _ l => l) (fun v l => (v.lane l).reenter w.region l) ls h
  ⟨masksOk_of_eq k.1 rfl rfl rfl rfl, k.2⟩

/-- Lanes that re-execute are live ones (R300, R302, R305). -/
theorem reexecute_masksOk {s : State} {k : Nat} {w : Warp} {r : Restart} {seen : Option Nat} {gone : List (Nat × Nat × Nat)} (h : w.MasksOk) :
    ∃ (v : Warp) (u : State), s.reexecute k w r seen gone = u.putWarp k v ∧ v.MasksOk := by
  refine ⟨_, _, rfl, ?_⟩
  have g := setLanes_masksOk (fun _ (g : Nat × Nat × Nat) => g.1) (fun v g => (v.lane g.1).abortTx g.2.1 g.2.2) gone (drain_masksOk h)
  have e := reenter_masksOk (gone.map (·.1)) g.1
  exact ⟨⟨(e.2.trans g.2).symm ▸ and_within r.lanes w.drain.live, e.1.1.2⟩, e.1.2⟩

end Sys2Proof.Machine
end

