-- ==== Sys2Proof/Laws/PerInstr.lean ====
section
/-! SUPPORT. The family `Words`, for every instruction: the words of a well-formed instruction fit 32 bits each, and the longest has ten
words (R67, R68). -/

set_option Elab.async false
set_option linter.unusedSimpArgs false

namespace Sys2Proof.Laws.Words

/-- The words of an instruction, well formed and encoded, are words, at least one and at most ten. -/
def Statement (i : Instr) : Prop :=
  i.wellFormed = true → ∀ sw, (∀ x ∈ encode i sw, x < 2 ^ 32) ∧ (encode i sw).length ≤ 10

/-- A word with a marker. -/

theorem one {w : Nat} (h : w < 2 ^ 31) (sw : Bool) : (∀ x ∈ [w + ofBit sw * 2 ^ 31], x < 2 ^ 32) ∧ [w + ofBit sw * 2 ^ 31].length ≤ 10 := by
  have := ofBit_lt sw
  refine ⟨fun x hx => ?_, by simp⟩
  simp only [List.mem_singleton] at hx
  omega

/-- An instruction without words. -/

theorem event {i : Instr} (h : encodeWords i = []) : Statement i := by
  intro _ sw
  have e : encode i sw = [] := by
    unfold encode
    rw [h]
    split <;> simp_all
  simp [e]

theorem vadd (x0 : Nat) (x1 : Nat) (x2 : SrcB) : Statement (.vadd x0 x1 x2) := by
  intro h sw
  have h : (okV x0 && okV x1 && okB x2) = true := h
  simp only [okV, okS, okP, okN, okBar, Bool.and_eq_true, decide_eq_true_eq] at h
  have hb := SrcB.enc_lt h.2
  refine one (w := _) ?_ sw
  simp only [encA, major]
  omega

theorem vsub (x0 : Nat) (x1 : Nat) (x2 : SrcB) : Statement (.vsub x0 x1 x2) := by
  intro h sw
  have h : (okV x0 && okV x1 && okB x2) = true := h
  simp only [okV, okS, okP, okN, okBar, Bool.and_eq_true, decide_eq_true_eq] at h
  have hb := SrcB.enc_lt h.2
  refine one (w := _) ?_ sw
  simp only [encA, major]
  omega

theorem vmul (x0 : Nat) (x1 : Nat) (x2 : SrcB) : Statement (.vmul x0 x1 x2) := by
  intro h sw
  have h : (okV x0 && okV x1 && okB x2) = true := h
  simp only [okV, okS, okP, okN, okBar, Bool.and_eq_true, decide_eq_true_eq] at h
  have hb := SrcB.enc_lt h.2
  refine one (w := _) ?_ sw
  simp only [encA, major]
  omega

theorem vmad (x0 : Nat) (x1 : Nat) (x2 : SrcB) : Statement (.vmad x0 x1 x2) := by
  intro h sw
  have h : (okV x0 && okV x1 && okB x2) = true := h
  simp only [okV, okS, okP, okN, okBar, Bool.and_eq_true, decide_eq_true_eq] at h
  have hb := SrcB.enc_lt h.2
  refine one (w := _) ?_ sw
  simp only [encA, major]
  omega

theorem vmin (x0 : Nat) (x1 : Nat) (x2 : SrcB) : Statement (.vmin x0 x1 x2) := by
  intro h sw
  have h : (okV x0 && okV x1 && okB x2) = true := h
  simp only [okV, okS, okP, okN, okBar, Bool.and_eq_true, decide_eq_true_eq] at h
  have hb := SrcB.enc_lt h.2
  refine one (w := _) ?_ sw
  simp only [encA, major]
  omega

theorem vmax (x0 : Nat) (x1 : Nat) (x2 : SrcB) : Statement (.vmax x0 x1 x2) := by
  intro h sw
  have h : (okV x0 && okV x1 && okB x2) = true := h
  simp only [okV, okS, okP, okN, okBar, Bool.and_eq_true, decide_eq_true_eq] at h
  have hb := SrcB.enc_lt h.2
  refine one (w := _) ?_ sw
  simp only [encA, major]
  omega

theorem vand (x0 : Nat) (x1 : Nat) (x2 : SrcB) : Statement (.vand x0 x1 x2) := by
  intro h sw
  have h : (okV x0 && okV x1 && okB x2) = true := h
  simp only [okV, okS, okP, okN, okBar, Bool.and_eq_true, decide_eq_true_eq] at h
  have hb := SrcB.enc_lt h.2
  refine one (w := _) ?_ sw
  simp only [encA, major]
  omega

theorem vor (x0 : Nat) (x1 : Nat) (x2 : SrcB) : Statement (.vor x0 x1 x2) := by
  intro h sw
  have h : (okV x0 && okV x1 && okB x2) = true := h
  simp only [okV, okS, okP, okN, okBar, Bool.and_eq_true, decide_eq_true_eq] at h
  have hb := SrcB.enc_lt h.2
  refine one (w := _) ?_ sw
  simp only [encA, major]
  omega

theorem vxor (x0 : Nat) (x1 : Nat) (x2 : SrcB) : Statement (.vxor x0 x1 x2) := by
  intro h sw
  have h : (okV x0 && okV x1 && okB x2) = true := h
  simp only [okV, okS, okP, okN, okBar, Bool.and_eq_true, decide_eq_true_eq] at h
  have hb := SrcB.enc_lt h.2
  refine one (w := _) ?_ sw
  simp only [encA, major]
  omega

theorem vshl (x0 : Nat) (x1 : Nat) (x2 : SrcB) : Statement (.vshl x0 x1 x2) := by
  intro h sw
  have h : (okV x0 && okV x1 && okB x2) = true := h
  simp only [okV, okS, okP, okN, okBar, Bool.and_eq_true, decide_eq_true_eq] at h
  have hb := SrcB.enc_lt h.2
  refine one (w := _) ?_ sw
  simp only [encA, major]
  omega

theorem vshr (x0 : Nat) (x1 : Nat) (x2 : SrcB) : Statement (.vshr x0 x1 x2) := by
  intro h sw
  have h : (okV x0 && okV x1 && okB x2) = true := h
  simp only [okV, okS, okP, okN, okBar, Bool.and_eq_true, decide_eq_true_eq] at h
  have hb := SrcB.enc_lt h.2
  refine one (w := _) ?_ sw
  simp only [encA, major]
  omega

theorem vsra (x0 : Nat) (x1 : Nat) (x2 : SrcB) : Statement (.vsra x0 x1 x2) := by
  intro h sw
  have h : (okV x0 && okV x1 && okB x2) = true := h
  simp only [okV, okS, okP, okN, okBar, Bool.and_eq_true, decide_eq_true_eq] at h
  have hb := SrcB.enc_lt h.2
  refine one (w := _) ?_ sw
  simp only [encA, major]
  omega

theorem vmulh (x0 : Nat) (x1 : Nat) (x2 : SrcB) : Statement (.vmulh x0 x1 x2) := by
  intro h sw
  have h : (okV x0 && okV x1 && okB x2) = true := h
  simp only [okV, okS, okP, okN, okBar, Bool.and_eq_true, decide_eq_true_eq] at h
  have hb := SrcB.enc_lt h.2
  refine one (w := _) ?_ sw
  simp only [encA, major]
  omega

theorem vdot (x0 : Nat) (x1 : Nat) (x2 : SrcB) : Statement (.vdot x0 x1 x2) := by
  intro h sw
  have h : (okV x0 && okV x1 && okB x2) = true := h
  simp only [okV, okS, okP, okN, okBar, Bool.and_eq_true, decide_eq_true_eq] at h
  have hb := SrcB.enc_lt h.2
  refine one (w := _) ?_ sw
  simp only [encA, major]
  omega

theorem vcmp (x0 : Cmp) (x1 : Nat) (x2 : Nat) (x3 : SrcB) : Statement (.vcmp x0 x1 x2 x3) := by
  intro h sw
  have hx0 := Cmp.code_lt x0
  have h : (okP x1 && okV x2 && okB x3) = true := h
  simp only [okV, okS, okP, okN, okBar, Bool.and_eq_true, decide_eq_true_eq] at h
  have hb := SrcB.enc_lt h.2
  refine one (w := _) ?_ sw
  simp only [encA, major]
  omega

theorem vcvt (x0 : Nat) (x1 : Nat) (x2 : ElemType) : Statement (.vcvt x0 x1 x2) := by
  intro h sw
  have hx2 := ElemType.code_lt x2
  have h : (okV x0 && okV x1) = true := h
  simp only [okV, okS, okP, okN, okBar, Bool.and_eq_true, decide_eq_true_eq] at h
  refine one (w := _) ?_ sw
  simp only [encB, major]
  omega

theorem vaddi (x0 : Nat) (x1 : Nat) (x2 : Int) : Statement (.vaddi x0 x1 x2) := by
  intro h sw
  have hx2 := unsigned_lt 9 x2
  have h : (okV x0 && okV x1 && okI 9 x2) = true := h
  simp only [okV, okS, okP, okN, okBar, Bool.and_eq_true, decide_eq_true_eq] at h
  refine one (w := _) ?_ sw
  simp only [encB, major]
  omega

theorem vmuli (x0 : Nat) (x1 : Nat) (x2 : Int) : Statement (.vmuli x0 x1 x2) := by
  intro h sw
  have hx2 := unsigned_lt 9 x2
  have h : (okV x0 && okV x1 && okI 9 x2) = true := h
  simp only [okV, okS, okP, okN, okBar, Bool.and_eq_true, decide_eq_true_eq] at h
  refine one (w := _) ?_ sw
  simp only [encB, major]
  omega

theorem vandi (x0 : Nat) (x1 : Nat) (x2 : Int) : Statement (.vandi x0 x1 x2) := by
  intro h sw
  have hx2 := unsigned_lt 9 x2
  have h : (okV x0 && okV x1 && okI 9 x2) = true := h
  simp only [okV, okS, okP, okN, okBar, Bool.and_eq_true, decide_eq_true_eq] at h
  refine one (w := _) ?_ sw
  simp only [encB, major]
  omega

theorem vori (x0 : Nat) (x1 : Nat) (x2 : Int) : Statement (.vori x0 x1 x2) := by
  intro h sw
  have hx2 := unsigned_lt 9 x2
  have h : (okV x0 && okV x1 && okI 9 x2) = true := h
  simp only [okV, okS, okP, okN, okBar, Bool.and_eq_true, decide_eq_true_eq] at h
  refine one (w := _) ?_ sw
  simp only [encB, major]
  omega

theorem vshi (x0 : Nat) (x1 : Nat) (x2 : ShiftKind) (x3 : Nat) : Statement (.vshi x0 x1 x2 x3) := by
  intro h sw
  have hx2 := ShiftKind.code_lt x2
  have h : (okV x0 && okV x1 && okN 5 x3) = true := h
  simp only [okV, okS, okP, okN, okBar, Bool.and_eq_true, decide_eq_true_eq] at h
  refine one (w := _) ?_ sw
  simp only [encB, major]
  omega

theorem vcmpi (x0 : Cmp) (x1 : Nat) (x2 : Nat) (x3 : Int) : Statement (.vcmpi x0 x1 x2 x3) := by
  intro h sw
  have hx0 := Cmp.code_lt x0
  have hx3 := unsigned_lt 9 x3
  have h : (okP x1 && okV x2 && okI 9 x3) = true := h
  simp only [okV, okS, okP, okN, okBar, Bool.and_eq_true, decide_eq_true_eq] at h
  refine one (w := _) ?_ sw
  simp only [encB, major]
  omega

theorem vmovi (x0 : Nat) (x1 : Nat) (x2 : Bool) : Statement (.vmovi x0 x1 x2) := by
  intro h sw
  have hx2 := ofBit_lt x2
  have h : (okV x0 && okN 16 x1) = true := h
  simp only [okV, okS, okP, okN, okBar, Bool.and_eq_true, decide_eq_true_eq] at h
  refine one (w := _) ?_ sw
  simp only [major]
  omega

theorem vrdx (x0 : Nat) (x1 : Nat) (x2 : Int) : Statement (.vrdx x0 x1 x2) := by
  intro h sw
  have hx2 := unsigned_lt 9 x2
  have h : (okV x0 && okV x1 && okI 9 x2) = true := h
  simp only [okV, okS, okP, okN, okBar, Bool.and_eq_true, decide_eq_true_eq] at h
  refine one (w := _) ?_ sw
  simp only [encB, major]
  omega

theorem vwrx (x0 : Nat) (x1 : Nat) (x2 : Int) : Statement (.vwrx x0 x1 x2) := by
  intro h sw
  have hx2 := unsigned_lt 9 x2
  have h : (okV x0 && okV x1 && okI 9 x2) = true := h
  simp only [okV, okS, okP, okN, okBar, Bool.and_eq_true, decide_eq_true_eq] at h
  refine one (w := _) ?_ sw
  simp only [encB, major]
  omega

theorem vspl (x0 : Nat) (x1 : Nat) : Statement (.vspl x0 x1) := by
  intro h sw
  have h : (okV x0 && okN 16 x1) = true := h
  simp only [okV, okS, okP, okN, okBar, Bool.and_eq_true, decide_eq_true_eq] at h
  refine one (w := _) ?_ sw
  simp only [major]
  omega

theorem vfil (x0 : Nat) (x1 : Nat) : Statement (.vfil x0 x1) := by
  intro h sw
  have h : (okV x0 && okN 16 x1) = true := h
  simp only [okV, okS, okP, okN, okBar, Bool.and_eq_true, decide_eq_true_eq] at h
  refine one (w := _) ?_ sw
  simp only [major]
  omega

theorem vsel (x0 : Nat) (x1 : Nat) (x2 : SrcB) : Statement (.vsel x0 x1 x2) := by
  intro h sw
  have h : (okV x0 && okV x1 && okB x2) = true := h
  simp only [okV, okS, okP, okN, okBar, Bool.and_eq_true, decide_eq_true_eq] at h
  have hb := SrcB.enc_lt h.2
  refine one (w := _) ?_ sw
  simp only [encA, major]
  omega

theorem vbfe (x0 : Nat) (x1 : Nat) (x2 : SrcB) : Statement (.vbfe x0 x1 x2) := by
  intro h sw
  have h : (okV x0 && okV x1 && okB x2) = true := h
  simp only [okV, okS, okP, okN, okBar, Bool.and_eq_true, decide_eq_true_eq] at h
  have hb := SrcB.enc_lt h.2
  refine one (w := _) ?_ sw
  simp only [encA, major]
  omega

theorem vbfi (x0 : Nat) (x1 : Nat) (x2 : SrcB) : Statement (.vbfi x0 x1 x2) := by
  intro h sw
  have h : (okV x0 && okV x1 && okB x2) = true := h
  simp only [okV, okS, okP, okN, okBar, Bool.and_eq_true, decide_eq_true_eq] at h
  have hb := SrcB.enc_lt h.2
  refine one (w := _) ?_ sw
  simp only [encA, major]
  omega

theorem vshfl (x0 : Nat) (x1 : Nat) (x2 : ShuffleKind) (x3 : Bool) (x4 : Nat) : Statement (.vshfl x0 x1 x2 x3 x4) := by
  intro h sw
  have hx2 := ShuffleKind.code_lt x2
  have hx3 := ofBit_lt x3
  have h : (okV x0 && okV x1 && okN 6 x4 && (x2 != .idx || (!x3 && x4 == 0))) = true := h
  simp only [okV, okS, okP, okN, okBar, Bool.and_eq_true, decide_eq_true_eq] at h
  refine one (w := _) ?_ sw
  simp only [encB, major]
  omega

theorem vld (x0 : Nat) (x1 : Nat) (x2 : Nat) (x3 : CacheClass) (x4 : Bool) (x5 : Bool) : Statement (.vld x0 x1 x2 x3 x4 x5) := by
  intro h sw
  have hx3 := CacheClass.code_lt x3
  have hx4 := ofBit_lt x4
  have hx5 := ofBit_lt x5
  have h : (okV x0 && okS x1 && okV x2) = true := h
  simp only [okV, okS, okP, okN, okBar, Bool.and_eq_true, decide_eq_true_eq] at h
  refine one (w := _) ?_ sw
  simp only [encM, major]
  omega

theorem vst (x0 : Nat) (x1 : Nat) (x2 : Nat) (x3 : CacheClass) (x4 : Bool) (x5 : Bool) : Statement (.vst x0 x1 x2 x3 x4 x5) := by
  intro h sw
  have hx3 := CacheClass.code_lt x3
  have hx4 := ofBit_lt x4
  have hx5 := ofBit_lt x5
  have h : (okV x0 && okS x1 && okV x2) = true := h
  simp only [okV, okS, okP, okN, okBar, Bool.and_eq_true, decide_eq_true_eq] at h
  refine one (w := _) ?_ sw
  simp only [encM, major]
  omega

theorem vlds (x0 : Nat) (x1 : Nat) (x2 : Nat) (x3 : Bool) : Statement (.vlds x0 x1 x2 x3) := by
  intro h sw
  have hx3 := ofBit_lt x3
  have h : (okV x0 && okS x1 && okV x2) = true := h
  simp only [okV, okS, okP, okN, okBar, Bool.and_eq_true, decide_eq_true_eq] at h
  refine one (w := _) ?_ sw
  simp only [encM, major]
  omega

theorem vsts (x0 : Nat) (x1 : Nat) (x2 : Nat) (x3 : Bool) : Statement (.vsts x0 x1 x2 x3) := by
  intro h sw
  have hx3 := ofBit_lt x3
  have h : (okV x0 && okS x1 && okV x2) = true := h
  simp only [okV, okS, okP, okN, okBar, Bool.and_eq_true, decide_eq_true_eq] at h
  refine one (w := _) ?_ sw
  simp only [encM, major]
  omega

theorem gst (x0 : Nat) (x1 : Nat) (x2 : Nat) (x3 : CacheClass) (x4 : Bool) : Statement (.gst x0 x1 x2 x3 x4) := by
  intro h sw
  have hx3 := CacheClass.code_lt x3
  have hx4 := ofBit_lt x4
  have h : (okV x0 && okS x1 && okV x2) = true := h
  simp only [okV, okS, okP, okN, okBar, Bool.and_eq_true, decide_eq_true_eq] at h
  refine one (w := _) ?_ sw
  simp only [encM, major]
  omega

theorem vatom (x0 : Nat) (x1 : Nat) (x2 : Nat) (x3 : AtomicOp) (x4 : Bool) : Statement (.vatom x0 x1 x2 x3 x4) := by
  intro h sw
  have hx3 := AtomicOp.code_lt x3
  have hx4 := ofBit_lt x4
  have h : (okV x0 && okS x1 && okV x2) = true := h
  simp only [okV, okS, okP, okN, okBar, Bool.and_eq_true, decide_eq_true_eq] at h
  refine one (w := _) ?_ sw
  simp only [encM, major]
  omega

theorem vatoms (x0 : Nat) (x1 : Nat) (x2 : Nat) (x3 : AtomicOp) (x4 : Bool) : Statement (.vatoms x0 x1 x2 x3 x4) := by
  intro h sw
  have hx3 := AtomicOp.code_lt x3
  have hx4 := ofBit_lt x4
  have h : (okV x0 && okS x1 && okV x2) = true := h
  simp only [okV, okS, okP, okN, okBar, Bool.and_eq_true, decide_eq_true_eq] at h
  refine one (w := _) ?_ sw
  simp only [encM, major]
  omega

theorem salu (x0 : ScalarOp) (x1 : Nat) (x2 : Nat) (x3 : Nat) : Statement (.salu x0 x1 x2 x3) := by
  intro h sw
  have hx0 := ScalarOp.code_lt x0
  have h : (okS x1 && okS x2 && okS x3 && (!x0.noB || x3 == 0)) = true := h
  simp only [okV, okS, okP, okN, okBar, Bool.and_eq_true, decide_eq_true_eq] at h
  refine one (w := _) ?_ sw
  simp only [encD, major]
  omega

theorem salui (x0 : ScalarImmOp) (x1 : Nat) (x2 : Nat) (x3 : Int) : Statement (.salui x0 x1 x2 x3) := by
  intro h sw
  have hx0 := ScalarImmOp.code_lt x0
  have hx3 := unsigned_lt 12 x3
  have h : (okS x1 && okS x2 && okI 12 x3 && (!x0.isShift || (decide (0 ≤ x3) && decide (x3 < 64)))) = true := h
  simp only [okV, okS, okP, okN, okBar, Bool.and_eq_true, decide_eq_true_eq] at h
  refine one (w := _) ?_ sw
  simp only [encE, major]
  omega

theorem slui (x0 : Nat) (x1 : Nat) : Statement (.slui x0 x1) := by
  intro h sw
  have h : (okS x0 && okN 20 x1) = true := h
  simp only [okV, okS, okP, okN, okBar, Bool.and_eq_true, decide_eq_true_eq] at h
  refine one (w := _) ?_ sw
  simp only [major]
  omega

theorem sauipc (x0 : Nat) (x1 : Nat) : Statement (.sauipc x0 x1) := by
  intro h sw
  have h : (okS x0 && okN 20 x1) = true := h
  simp only [okV, okS, okP, okN, okBar, Bool.and_eq_true, decide_eq_true_eq] at h
  refine one (w := _) ?_ sw
  simp only [major]
  omega

theorem sld (x0 : LoadSize) (x1 : Nat) (x2 : Nat) (x3 : Int) : Statement (.sld x0 x1 x2 x3) := by
  intro h sw
  have hx0 := LoadSize.code_lt x0
  have hx3 := unsigned_lt 12 x3
  have h : (okS x1 && okS x2 && okI 12 x3) = true := h
  simp only [okV, okS, okP, okN, okBar, Bool.and_eq_true, decide_eq_true_eq] at h
  refine one (w := _) ?_ sw
  simp only [encE, major]
  omega

theorem sst (x0 : StoreSize) (x1 : Nat) (x2 : Nat) (x3 : Int) : Statement (.sst x0 x1 x2 x3) := by
  intro h sw
  have hx0 := StoreSize.code_lt x0
  have hx3 := unsigned_lt 12 x3
  have h : (okS x1 && okS x2 && okI 12 x3) = true := h
  simp only [okV, okS, okP, okN, okBar, Bool.and_eq_true, decide_eq_true_eq] at h
  refine one (w := _) ?_ sw
  simp only [encE, major]
  omega

theorem satom (x0 : AtomicOp) (x1 : Scope) (x2 : MemOrder) (x3 : Nat) (x4 : Nat) (x5 : Nat) : Statement (.satom x0 x1 x2 x3 x4 x5) := by
  intro h sw
  have hx0 := AtomicOp.code_lt x0
  have hx1 := Scope.code_lt x1
  have hx2 := MemOrder.code_lt x2
  have h : (okS x3 && okS x4 && okS x5 && x2.inSatom && (x0 != .cas || x5 != 31)) = true := h
  simp only [okV, okS, okP, okN, okBar, Bool.and_eq_true, decide_eq_true_eq] at h
  refine one (w := _) ?_ sw
  simp only [encD, major]
  omega

theorem ssrRead (x0 : Nat) (x1 : Nat) : Statement (.ssrRead x0 x1) := by
  intro h sw
  have h : (okS x0 && okN 12 x1) = true := h
  simp only [okV, okS, okP, okN, okBar, Bool.and_eq_true, decide_eq_true_eq] at h
  refine one (w := _) ?_ sw
  simp only [encE, major]
  omega

theorem ssrWrite (x0 : Nat) (x1 : Nat) : Statement (.ssrWrite x0 x1) := by
  intro h sw
  have h : (okN 12 x0 && okS x1) = true := h
  simp only [okV, okS, okP, okN, okBar, Bool.and_eq_true, decide_eq_true_eq] at h
  refine one (w := _) ?_ sw
  simp only [encE, major]
  omega

theorem br (x0 : BrCond) (x1 : Nat) (x2 : Nat) (x3 : Int) : Statement (.br x0 x1 x2 x3) := by
  intro h sw
  have hx0 := BrCond.code_lt x0
  have hx3 := unsigned_lt 12 x3
  have h : (okS x1 && okS x2 && okI 12 x3) = true := h
  simp only [okV, okS, okP, okN, okBar, Bool.and_eq_true, decide_eq_true_eq] at h
  refine one (w := _) ?_ sw
  simp only [encE, major]
  omega

theorem jmp (x0 : Int) : Statement (.jmp x0) := by
  intro h sw
  have hx0 := unsigned_lt 25 x0
  have h : (okI 25 x0) = true := h
  refine one (w := _) ?_ sw
  simp only [major]
  omega

theorem call (x0 : Int) : Statement (.call x0) := by
  intro h sw
  have hx0 := unsigned_lt 25 x0
  have h : (okI 25 x0) = true := h
  refine one (w := _) ?_ sw
  simp only [major]
  omega

theorem calli (x0 : Nat) : Statement (.calli x0) := by
  intro h sw
  have h : (okS x0) = true := h
  simp only [okV, okS, okP, okN, okBar, Bool.and_eq_true, decide_eq_true_eq] at h
  refine one (w := _) ?_ sw
  simp only [encK, major]
  omega

theorem callv (x0 : Nat) : Statement (.callv x0) := by
  intro h sw
  have h : (okV x0 && x0 % 2 == 0) = true := h
  simp only [okV, okS, okP, okN, okBar, Bool.and_eq_true, decide_eq_true_eq] at h
  refine one (w := _) ?_ sw
  simp only [encK, major]
  omega

theorem jmpi (x0 : Nat) : Statement (.jmpi x0) := by
  intro h sw
  have h : (okS x0) = true := h
  simp only [okV, okS, okP, okN, okBar, Bool.and_eq_true, decide_eq_true_eq] at h
  refine one (w := _) ?_ sw
  simp only [encK, major]
  omega

theorem ret : Statement (.ret) := by
  intro h sw
  have h : (true) = true := h
  refine one (w := _) ?_ sw
  simp only [encK, major]
  omega

theorem spadj (x0 : Int) : Statement (.spadj x0) := by
  intro h sw
  have hx0 := unsigned_lt 8 x0
  have h : (okI 8 x0) = true := h
  refine one (w := _) ?_ sw
  simp only [encK, major]
  omega

theorem split (x0 : Nat) (x1 : Bool) (x2 x3 : Int) : Statement (.split x0 x1 x2 x3) := by
  intro h sw
  have h1 := ofBit_lt x1
  have h2 := unsigned_lt 16 x2
  have h3 := unsigned_lt 16 x3
  have h4 := ofBit_lt sw
  have h : (okP x0 && okI 16 x2 && okI 16 x3) = true := h
  simp only [okP, Bool.and_eq_true, decide_eq_true_eq] at h
  have e : encode (.split x0 x1 x2 x3) sw = [major 0x34 (x0 * 2 ^ 21 + ofBit x1 * 2 ^ 20) + ofBit sw * 2 ^ 31,
    unsigned 16 x2 * 2 ^ 16 + unsigned 16 x3] := rfl
  rw [e]
  refine ⟨fun x hx => ?_, by simp⟩
  simp only [major, List.mem_cons, List.not_mem_nil, or_false] at hx
  omega

theorem switch (x0 : Nat) (x1 : KeyType) (x2 : List (Nat × Int)) (x3 x4 : Int) : Statement (.switch x0 x1 x2 x3 x4) := by
  intro h sw
  have h1 := KeyType.code_lt x1
  have h3 := unsigned_lt 16 x3
  have h4 := unsigned_lt 16 x4
  have h5 := ofBit_lt sw
  have h : (okV x0 && !x2.isEmpty && decide (x2.length ≤ 8) && x2.all (fun c => okN 16 c.1 && okI 16 c.2) && okI 16 x3
    && okI 16 x4) = true := h
  simp only [okV, okN, Bool.and_eq_true, decide_eq_true_eq, List.all_eq_true] at h
  obtain ⟨⟨⟨⟨⟨ha, -⟩, hn⟩, hk⟩, -⟩, -⟩ := h
  have e : encode (.switch x0 x1 x2 x3 x4) sw =
    (major 0x35 (x0 * 2 ^ 17 + (x2.length - 1) * 2 ^ 14 + x1.code * 2 ^ 12) + ofBit sw * 2 ^ 31)
      :: (x2.map (fun c => c.1 * 2 ^ 16 + unsigned 16 c.2) ++ [unsigned 16 x3 * 2 ^ 16 + unsigned 16 x4]) := rfl
  rw [e]
  refine ⟨fun x hx => ?_, by simp; omega⟩
  simp only [major, List.mem_cons, List.mem_append, List.mem_map, List.not_mem_nil, or_false] at hx
  obtain hx | ⟨c, hc, rfl⟩ | hx := hx
  · omega
  · have := unsigned_lt 16 c.2
    have := (hk c hc).1
    omega
  · omega

theorem meldOn (x0 : Nat) : Statement (.meldOn x0) := by
  intro h sw
  have h : (okP x0) = true := h
  simp only [okV, okS, okP, okN, okBar, Bool.and_eq_true, decide_eq_true_eq] at h
  refine one (w := _) ?_ sw
  simp only [encK, major]
  omega

theorem meldOff : Statement (.meldOff) := by
  intro h sw
  have h : (true) = true := h
  refine one (w := _) ?_ sw
  simp only [encK, major]
  omega

theorem meldLdt (x0 : Nat) : Statement (.meldLdt x0) := by
  intro h sw
  have h : (okS x0) = true := h
  simp only [okV, okS, okP, okN, okBar, Bool.and_eq_true, decide_eq_true_eq] at h
  refine one (w := _) ?_ sw
  simp only [encK, major]
  omega
theorem region (x0 : RegionKind) (x1 : Nat) (x2 x3 : Bool) (x4 : BitVec 32) (x5 x6 : Nat) (x7 : BitVec 12) (x8 : Bool) :
    Statement (.region x0 x1 x2 x3 x4 x5 x6 x7 x8) := by
  intro h sw
  have h0 := RegionKind.code_lt x0
  have h2 := ofBit_lt x2
  have h3 := ofBit_lt x3
  have h4 := x4.isLt
  have h7 := x7.isLt
  have h8 := ofBit_lt x8
  have h9 := ofBit_lt sw
  have h : (okN 4 x1 && okV x5 && okV x6 && (x0 != .plain || (x1 == 0 && !x2 && !x3))) = true := h
  simp only [okV, okN, Bool.and_eq_true, decide_eq_true_eq] at h
  have e : encode (.region x0 x1 x2 x3 x4 x5 x6 x7 x8) sw =
    [major 0x37 (x0.code * 2 ^ 22 + x1 * 2 ^ 18 + ofBit x2 * 2 ^ 17 + ofBit x3 * 2 ^ 16) + ofBit sw * 2 ^ 31, x4.toNat,
      x5 * 2 ^ 24 + x6 * 2 ^ 16 + x7.toNat * 2 ^ 4 + ofBit x8 * 2 ^ 3] := rfl
  rw [e]
  refine ⟨fun x hx => ?_, by simp⟩
  simp only [major, List.mem_cons, List.not_mem_nil, or_false] at hx
  omega

theorem mma (x0 : Nat) (x1 : Nat) (x2 : Nat) (x3 : Nat) : Statement (.mma x0 x1 x2 x3) := by
  intro h sw
  have h : (okS x0 && okS x1 && okS x2 && okS x3) = true := h
  simp only [okV, okS, okP, okN, okBar, Bool.and_eq_true, decide_eq_true_eq] at h
  refine one (w := _) ?_ sw
  simp only [encD, major]
  omega

theorem mmag (x0 : Nat) (x1 : Nat) (x2 : Nat) (x3 : Nat) : Statement (.mmag x0 x1 x2 x3) := by
  intro h sw
  have h : (okS x0 && okS x1 && okS x2 && okS x3) = true := h
  simp only [okV, okS, okP, okN, okBar, Bool.and_eq_true, decide_eq_true_eq] at h
  refine one (w := _) ?_ sw
  simp only [encD, major]
  omega

theorem tcopy (x0 : Option Nat) (x1 : Nat) : Statement (.tcopy x0 x1) := by
  intro h sw
  have h : (okBar x0 && okS x1) = true := h
  simp only [okV, okS, okP, okN, okBar, Bool.and_eq_true, decide_eq_true_eq] at h
  refine one (w := _) ?_ sw
  simp only [encK, encBar, encAccX, major]
  cases x0 <;> simp [encBar, encAccX, okS] at h ⊢ <;> omega

theorem tcopyY (x0 : Option Nat) (x1 : Nat) (x2 : Nat) : Statement (.tcopyY x0 x1 x2) := by
  intro h sw
  have h : (okBar x0 && okS x1 && okN 8 x2 && x2 != 0) = true := h
  simp only [okV, okS, okP, okN, okBar, Bool.and_eq_true, decide_eq_true_eq] at h
  refine one (w := _) ?_ sw
  simp only [encK, encBar, encAccX, major]
  cases x0 <;> simp [encBar, encAccX, okS] at h ⊢ <;> omega

theorem afence (x0 : Nat) : Statement (.afence x0) := by
  intro h sw
  have h : (okS x0) = true := h
  simp only [okV, okS, okP, okN, okBar, Bool.and_eq_true, decide_eq_true_eq] at h
  refine one (w := _) ?_ sw
  simp only [encK, major]
  omega

theorem await (x0 : Nat) (x1 : Nat) : Statement (.await x0 x1) := by
  intro h sw
  have h : (okS x0 && okS x1) = true := h
  simp only [okV, okS, okP, okN, okBar, Bool.and_eq_true, decide_eq_true_eq] at h
  refine one (w := _) ?_ sw
  simp only [encK, major]
  omega

theorem binit (x0 : Nat) (x1 : Nat) : Statement (.binit x0 x1) := by
  intro h sw
  have h : (okS x0 && okS x1) = true := h
  simp only [okV, okS, okP, okN, okBar, Bool.and_eq_true, decide_eq_true_eq] at h
  refine one (w := _) ?_ sw
  simp only [encK, major]
  omega

theorem barv (x0 : Nat) (x1 : Nat) : Statement (.barv x0 x1) := by
  intro h sw
  have h : (okS x0 && okN 8 x1 && x1 != 0) = true := h
  simp only [okV, okS, okP, okN, okBar, Bool.and_eq_true, decide_eq_true_eq] at h
  refine one (w := _) ?_ sw
  simp only [encK, major]
  omega

theorem bwait (x0 : Nat) (x1 : Nat) (x2 : Bool) : Statement (.bwait x0 x1 x2) := by
  intro h sw
  have hx2 := ofBit_lt x2
  have h : (okS x0 && okS x1) = true := h
  simp only [okV, okS, okP, okN, okBar, Bool.and_eq_true, decide_eq_true_eq] at h
  refine one (w := _) ?_ sw
  simp only [encK, major]
  omega

theorem accz (x0 : Nat) : Statement (.accz x0) := by
  intro h sw
  have h : (okS x0) = true := h
  simp only [okV, okS, okP, okN, okBar, Bool.and_eq_true, decide_eq_true_eq] at h
  refine one (w := _) ?_ sw
  simp only [encK, major]
  omega

theorem accld (x0 : Option Nat) (x1 : Bool) (x2 : Nat) (x3 : Nat) : Statement (.accld x0 x1 x2 x3) := by
  intro h sw
  have hx1 := ofBit_lt x1
  have h : (okBar x0 && okS x2 && okS x3) = true := h
  simp only [okV, okS, okP, okN, okBar, Bool.and_eq_true, decide_eq_true_eq] at h
  refine one (w := _) ?_ sw
  simp only [encK, encBar, encAccX, major]
  cases x0 <;> simp [encBar, encAccX, okS] at h ⊢ <;> omega

theorem accst (x0 : Option Nat) (x1 : Bool) (x2 : Nat) (x3 : Nat) : Statement (.accst x0 x1 x2 x3) := by
  intro h sw
  have hx1 := ofBit_lt x1
  have h : (okBar x0 && okS x2 && okS x3) = true := h
  simp only [okV, okS, okP, okN, okBar, Bool.and_eq_true, decide_eq_true_eq] at h
  refine one (w := _) ?_ sw
  simp only [encK, encBar, encAccX, major]
  cases x0 <;> simp [encBar, encAccX, okS] at h ⊢ <;> omega

theorem accstR (x0 : Nat) (x1 : Nat) : Statement (.accstR x0 x1) := by
  intro h sw
  have h : (okV x0 && okS x1) = true := h
  simp only [okV, okS, okP, okN, okBar, Bool.and_eq_true, decide_eq_true_eq] at h
  refine one (w := _) ?_ sw
  simp only [encK, major]
  omega

theorem rstat (x0 : Nat) (x1 : Nat) (x2 : Nat) : Statement (.rstat x0 x1 x2) := by
  intro h sw
  have h : (okV x0 && okS x1 && okN 8 x2) = true := h
  simp only [okV, okS, okP, okN, okBar, Bool.and_eq_true, decide_eq_true_eq] at h
  refine one (w := _) ?_ sw
  simp only [encK, major]
  omega

theorem actld (x0 : Option Nat) (x1 : Bool) (x2 : Nat) : Statement (.actld x0 x1 x2) := by
  intro h sw
  have hx1 := ofBit_lt x1
  have h : (okBar x0 && okS x2) = true := h
  simp only [okV, okS, okP, okN, okBar, Bool.and_eq_true, decide_eq_true_eq] at h
  refine one (w := _) ?_ sw
  simp only [encK, encBar, encAccX, major]
  cases x0 <;> simp [encBar, encAccX, okS] at h ⊢ <;> omega

theorem txend : Statement (.txend) := by
  intro h sw
  have h : (true) = true := h
  refine one (w := _) ?_ sw
  simp only [encK, major]
  omega

theorem txendo : Statement (.txendo) := by
  intro h sw
  have h : (true) = true := h
  refine one (w := _) ?_ sw
  simp only [encK, major]
  omega

theorem txabort (x0 : Nat) : Statement (.txabort x0) := by
  intro h sw
  have h : (okN 8 x0) = true := h
  simp only [okV, okS, okP, okN, okBar, Bool.and_eq_true, decide_eq_true_eq] at h
  refine one (w := _) ?_ sw
  simp only [encK, major]
  omega

theorem txstat (x0 : Nat) (x1 : Nat) : Statement (.txstat x0 x1) := by
  intro h sw
  have h : (okV x0 && okP x1) = true := h
  simp only [okV, okS, okP, okN, okBar, Bool.and_eq_true, decide_eq_true_eq] at h
  refine one (w := _) ?_ sw
  simp only [encK, major]
  omega

theorem spawn (x0 : Nat) (x1 : Nat) : Statement (.spawn x0 x1) := by
  intro h sw
  have h : (okV x0 && okS x1) = true := h
  simp only [okV, okS, okP, okN, okBar, Bool.and_eq_true, decide_eq_true_eq] at h
  refine one (w := _) ?_ sw
  simp only [encK, major]
  omega

theorem spawno (x0 : Nat) (x1 : Nat) (x2 : Nat) : Statement (.spawno x0 x1 x2) := by
  intro h sw
  have h : (okV x0 && okS x1 && okS x2) = true := h
  simp only [okV, okS, okP, okN, okBar, Bool.and_eq_true, decide_eq_true_eq] at h
  refine one (w := _) ?_ sw
  simp only [encK, major]
  omega

theorem launch (x0 : Nat) : Statement (.launch x0) := by
  intro h sw
  have h : (okV x0 && x0 % 2 == 0) = true := h
  simp only [okV, okS, okP, okN, okBar, Bool.and_eq_true, decide_eq_true_eq] at h
  refine one (w := _) ?_ sw
  simp only [encK, major]
  omega

theorem qappend (x0 : Nat) (x1 : Nat) : Statement (.qappend x0 x1) := by
  intro h sw
  have h : (okV x0 && okS x1) = true := h
  simp only [okV, okS, okP, okN, okBar, Bool.and_eq_true, decide_eq_true_eq] at h
  refine one (w := _) ?_ sw
  simp only [encK, major]
  omega

theorem qappendTry (x0 : Nat) (x1 : Nat) (x2 : Nat) : Statement (.qappendTry x0 x1 x2) := by
  intro h sw
  have h : (okV x0 && okS x1 && okP x2) = true := h
  simp only [okV, okS, okP, okN, okBar, Bool.and_eq_true, decide_eq_true_eq] at h
  refine one (w := _) ?_ sw
  simp only [encK, major]
  omega

theorem qpop (x0 : Nat) (x1 : Nat) (x2 : Nat) (x3 : Nat) : Statement (.qpop x0 x1 x2 x3) := by
  intro h sw
  have h : (okV x0 && okS x1 && okP x2 && okP x3 && x2 != x3) = true := h
  simp only [okV, okS, okP, okN, okBar, Bool.and_eq_true, decide_eq_true_eq] at h
  refine one (w := _) ?_ sw
  simp only [encK, major]
  omega

theorem qatt (x0 : Nat) : Statement (.qatt x0) := by
  intro h sw
  have h : (okS x0) = true := h
  simp only [okV, okS, okP, okN, okBar, Bool.and_eq_true, decide_eq_true_eq] at h
  refine one (w := _) ?_ sw
  simp only [encK, major]
  omega

theorem qattOwn (x0 : Nat) (x1 : Nat) : Statement (.qattOwn x0 x1) := by
  intro h sw
  have h : (okS x0 && okN 4 x1) = true := h
  simp only [okV, okS, okP, okN, okBar, Bool.and_eq_true, decide_eq_true_eq] at h
  refine one (w := _) ?_ sw
  simp only [encK, major]
  omega

theorem qdet (x0 : Nat) : Statement (.qdet x0) := by
  intro h sw
  have h : (okS x0) = true := h
  simp only [okV, okS, okP, okN, okBar, Bool.and_eq_true, decide_eq_true_eq] at h
  refine one (w := _) ?_ sw
  simp only [encK, major]
  omega

theorem qdetOwn (x0 : Nat) : Statement (.qdetOwn x0) := by
  intro h sw
  have h : (okN 4 x0) = true := h
  simp only [okV, okS, okP, okN, okBar, Bool.and_eq_true, decide_eq_true_eq] at h
  refine one (w := _) ?_ sw
  simp only [encK, major]
  omega

theorem gset (x0 : Nat) : Statement (.gset x0) := by
  intro h sw
  have h : (okS x0) = true := h
  simp only [okV, okS, okP, okN, okBar, Bool.and_eq_true, decide_eq_true_eq] at h
  refine one (w := _) ?_ sw
  simp only [encK, major]
  omega

theorem coll (x0 : Nat) (x1 : Nat) : Statement (.coll x0 x1) := by
  intro h sw
  have h : (okS x0 && okS x1) = true := h
  simp only [okV, okS, okP, okN, okBar, Bool.and_eq_true, decide_eq_true_eq] at h
  refine one (w := _) ?_ sw
  simp only [encK, major]
  omega

theorem mode (x0 : BitVec 16) : Statement (.mode x0) := by
  intro h sw
  have hx0 := x0.isLt
  have h : (true) = true := h
  refine one (w := _) ?_ sw
  simp only [major]
  omega

theorem modeScalar (x0 : Nat) : Statement (.modeScalar x0) := by
  intro h sw
  have h : (okS x0) = true := h
  simp only [okV, okS, okP, okN, okBar, Bool.and_eq_true, decide_eq_true_eq] at h
  refine one (w := _) ?_ sw
  simp only [major]
  omega

theorem vnot (x0 : Nat) (x1 : Nat) (x2 : Bool) : Statement (.vnot x0 x1 x2) := by
  intro h sw
  have hx2 := ofBit_lt x2
  have h : (okV x0 && okV x1) = true := h
  simp only [okV, okS, okP, okN, okBar, Bool.and_eq_true, decide_eq_true_eq] at h
  refine one (w := _) ?_ sw
  simp only [encX, major]
  omega

theorem vabs (x0 : Nat) (x1 : Nat) (x2 : Bool) : Statement (.vabs x0 x1 x2) := by
  intro h sw
  have hx2 := ofBit_lt x2
  have h : (okV x0 && okV x1) = true := h
  simp only [okV, okS, okP, okN, okBar, Bool.and_eq_true, decide_eq_true_eq] at h
  refine one (w := _) ?_ sw
  simp only [encX, major]
  omega

theorem vneg (x0 : Nat) (x1 : Nat) (x2 : Bool) : Statement (.vneg x0 x1 x2) := by
  intro h sw
  have hx2 := ofBit_lt x2
  have h : (okV x0 && okV x1) = true := h
  simp only [okV, okS, okP, okN, okBar, Bool.and_eq_true, decide_eq_true_eq] at h
  refine one (w := _) ?_ sw
  simp only [encX, major]
  omega

theorem vclz (x0 : Nat) (x1 : Nat) (x2 : Bool) : Statement (.vclz x0 x1 x2) := by
  intro h sw
  have hx2 := ofBit_lt x2
  have h : (okV x0 && okV x1) = true := h
  simp only [okV, okS, okP, okN, okBar, Bool.and_eq_true, decide_eq_true_eq] at h
  refine one (w := _) ?_ sw
  simp only [encX, major]
  omega

theorem vpopc (x0 : Nat) (x1 : Nat) (x2 : Bool) : Statement (.vpopc x0 x1 x2) := by
  intro h sw
  have hx2 := ofBit_lt x2
  have h : (okV x0 && okV x1) = true := h
  simp only [okV, okS, okP, okN, okBar, Bool.and_eq_true, decide_eq_true_eq] at h
  refine one (w := _) ?_ sw
  simp only [encX, major]
  omega

theorem vrcp (x0 : Nat) (x1 : Nat) (x2 : Bool) : Statement (.vrcp x0 x1 x2) := by
  intro h sw
  have hx2 := ofBit_lt x2
  have h : (okV x0 && okV x1) = true := h
  simp only [okV, okS, okP, okN, okBar, Bool.and_eq_true, decide_eq_true_eq] at h
  refine one (w := _) ?_ sw
  simp only [encX, major]
  omega

theorem vrsq (x0 : Nat) (x1 : Nat) (x2 : Bool) : Statement (.vrsq x0 x1 x2) := by
  intro h sw
  have hx2 := ofBit_lt x2
  have h : (okV x0 && okV x1) = true := h
  simp only [okV, okS, okP, okN, okBar, Bool.and_eq_true, decide_eq_true_eq] at h
  refine one (w := _) ?_ sw
  simp only [encX, major]
  omega

theorem vexp2 (x0 : Nat) (x1 : Nat) (x2 : Bool) : Statement (.vexp2 x0 x1 x2) := by
  intro h sw
  have hx2 := ofBit_lt x2
  have h : (okV x0 && okV x1) = true := h
  simp only [okV, okS, okP, okN, okBar, Bool.and_eq_true, decide_eq_true_eq] at h
  refine one (w := _) ?_ sw
  simp only [encX, major]
  omega

theorem vlog2 (x0 : Nat) (x1 : Nat) (x2 : Bool) : Statement (.vlog2 x0 x1 x2) := by
  intro h sw
  have hx2 := ofBit_lt x2
  have h : (okV x0 && okV x1) = true := h
  simp only [okV, okS, okP, okN, okBar, Bool.and_eq_true, decide_eq_true_eq] at h
  refine one (w := _) ?_ sw
  simp only [encX, major]
  omega

theorem vsin (x0 : Nat) (x1 : Nat) (x2 : Bool) : Statement (.vsin x0 x1 x2) := by
  intro h sw
  have hx2 := ofBit_lt x2
  have h : (okV x0 && okV x1) = true := h
  simp only [okV, okS, okP, okN, okBar, Bool.and_eq_true, decide_eq_true_eq] at h
  refine one (w := _) ?_ sw
  simp only [encX, major]
  omega

theorem vcos (x0 : Nat) (x1 : Nat) (x2 : Bool) : Statement (.vcos x0 x1 x2) := by
  intro h sw
  have hx2 := ofBit_lt x2
  have h : (okV x0 && okV x1) = true := h
  simp only [okV, okS, okP, okN, okBar, Bool.and_eq_true, decide_eq_true_eq] at h
  refine one (w := _) ?_ sw
  simp only [encX, major]
  omega

theorem vact (x0 : Nat) (x1 : Nat) (x2 : Bool) : Statement (.vact x0 x1 x2) := by
  intro h sw
  have hx2 := ofBit_lt x2
  have h : (okV x0 && okV x1) = true := h
  simp only [okV, okS, okP, okN, okBar, Bool.and_eq_true, decide_eq_true_eq] at h
  refine one (w := _) ?_ sw
  simp only [encX, major]
  omega

theorem vmov (x0 : Nat) (x1 : Nat) : Statement (.vmov x0 x1) := by
  intro h sw
  have h : (okV x0 && okV x1) = true := h
  simp only [okV, okS, okP, okN, okBar, Bool.and_eq_true, decide_eq_true_eq] at h
  refine one (w := _) ?_ sw
  simp only [encX, major]
  omega

theorem vmovSpecial (x0 : Nat) (x1 : Nat) : Statement (.vmovSpecial x0 x1) := by
  intro h sw
  have h : (okV x0 && okV x1) = true := h
  simp only [okV, okS, okP, okN, okBar, Bool.and_eq_true, decide_eq_true_eq] at h
  refine one (w := _) ?_ sw
  simp only [encX, major]
  omega

theorem vredadd (x0 : Nat) (x1 : Nat) (x2 : Bool) : Statement (.vredadd x0 x1 x2) := by
  intro h sw
  have hx2 := ofBit_lt x2
  have h : (okV x0 && okV x1) = true := h
  simp only [okV, okS, okP, okN, okBar, Bool.and_eq_true, decide_eq_true_eq] at h
  refine one (w := _) ?_ sw
  simp only [encX, major]
  omega

theorem vredmin (x0 : Nat) (x1 : Nat) (x2 : Bool) : Statement (.vredmin x0 x1 x2) := by
  intro h sw
  have hx2 := ofBit_lt x2
  have h : (okV x0 && okV x1) = true := h
  simp only [okV, okS, okP, okN, okBar, Bool.and_eq_true, decide_eq_true_eq] at h
  refine one (w := _) ?_ sw
  simp only [encX, major]
  omega

theorem vredmax (x0 : Nat) (x1 : Nat) (x2 : Bool) : Statement (.vredmax x0 x1 x2) := by
  intro h sw
  have hx2 := ofBit_lt x2
  have h : (okV x0 && okV x1) = true := h
  simp only [okV, okS, okP, okN, okBar, Bool.and_eq_true, decide_eq_true_eq] at h
  refine one (w := _) ?_ sw
  simp only [encX, major]
  omega

theorem vredand (x0 : Nat) (x1 : Nat) (x2 : Bool) : Statement (.vredand x0 x1 x2) := by
  intro h sw
  have hx2 := ofBit_lt x2
  have h : (okV x0 && okV x1) = true := h
  simp only [okV, okS, okP, okN, okBar, Bool.and_eq_true, decide_eq_true_eq] at h
  refine one (w := _) ?_ sw
  simp only [encX, major]
  omega

theorem vredor (x0 : Nat) (x1 : Nat) (x2 : Bool) : Statement (.vredor x0 x1 x2) := by
  intro h sw
  have hx2 := ofBit_lt x2
  have h : (okV x0 && okV x1) = true := h
  simp only [okV, okS, okP, okN, okBar, Bool.and_eq_true, decide_eq_true_eq] at h
  refine one (w := _) ?_ sw
  simp only [encX, major]
  omega

theorem vredxor (x0 : Nat) (x1 : Nat) (x2 : Bool) : Statement (.vredxor x0 x1 x2) := by
  intro h sw
  have hx2 := ofBit_lt x2
  have h : (okV x0 && okV x1) = true := h
  simp only [okV, okS, okP, okN, okBar, Bool.and_eq_true, decide_eq_true_eq] at h
  refine one (w := _) ?_ sw
  simp only [encX, major]
  omega

theorem vscan (x0 : Nat) (x1 : Nat) (x2 : Bool) : Statement (.vscan x0 x1 x2) := by
  intro h sw
  have hx2 := ofBit_lt x2
  have h : (okV x0 && okV x1) = true := h
  simp only [okV, okS, okP, okN, okBar, Bool.and_eq_true, decide_eq_true_eq] at h
  refine one (w := _) ?_ sw
  simp only [encX, major]
  omega

theorem vvoteany (x0 : Nat) (x1 : Nat) : Statement (.vvoteany x0 x1) := by
  intro h sw
  have h : (okP x0 && okP x1) = true := h
  simp only [okV, okS, okP, okN, okBar, Bool.and_eq_true, decide_eq_true_eq] at h
  refine one (w := _) ?_ sw
  simp only [encX, major]
  omega

theorem vvoteall (x0 : Nat) (x1 : Nat) : Statement (.vvoteall x0 x1) := by
  intro h sw
  have h : (okP x0 && okP x1) = true := h
  simp only [okV, okS, okP, okN, okBar, Bool.and_eq_true, decide_eq_true_eq] at h
  refine one (w := _) ?_ sw
  simp only [encX, major]
  omega

theorem vballot (x0 : Nat) (x1 : Nat) : Statement (.vballot x0 x1) := by
  intro h sw
  have h : (okV x0 && okP x1) = true := h
  simp only [okV, okS, okP, okN, okBar, Bool.and_eq_true, decide_eq_true_eq] at h
  refine one (w := _) ?_ sw
  simp only [encX, major]
  omega

theorem vmatch (x0 : Nat) (x1 : Nat) (x2 : Bool) : Statement (.vmatch x0 x1 x2) := by
  intro h sw
  have hx2 := ofBit_lt x2
  have h : (okV x0 && okV x1) = true := h
  simp only [okV, okS, okP, okN, okBar, Bool.and_eq_true, decide_eq_true_eq] at h
  refine one (w := _) ?_ sw
  simp only [encX, major]
  omega

theorem vpack (x0 : Nat) (x1 : Nat) (x2 : Bool) : Statement (.vpack x0 x1 x2) := by
  intro h sw
  have hx2 := ofBit_lt x2
  have h : (okV x0 && okV x1) = true := h
  simp only [okV, okS, okP, okN, okBar, Bool.and_eq_true, decide_eq_true_eq] at h
  refine one (w := _) ?_ sw
  simp only [encX, major]
  omega

theorem vunpk (x0 : Nat) (x1 : Nat) (x2 : Bool) : Statement (.vunpk x0 x1 x2) := by
  intro h sw
  have hx2 := ofBit_lt x2
  have h : (okV x0 && okV x1) = true := h
  simp only [okV, okS, okP, okN, okBar, Bool.and_eq_true, decide_eq_true_eq] at h
  refine one (w := _) ?_ sw
  simp only [encX, major]
  omega

theorem vrand (x0 : Nat) : Statement (.vrand x0) := by
  intro h sw
  have h : (okV x0 && x0 % 4 == 0) = true := h
  simp only [okV, okS, okP, okN, okBar, Bool.and_eq_true, decide_eq_true_eq] at h
  refine one (w := _) ?_ sw
  simp only [encX, major]
  omega

theorem pand (x0 : Nat) (x1 : Nat) (x2 : Nat) : Statement (.pand x0 x1 x2) := by
  intro h sw
  have h : (okP x0 && okP x1 && okP x2) = true := h
  simp only [okV, okS, okP, okN, okBar, Bool.and_eq_true, decide_eq_true_eq] at h
  refine one (w := _) ?_ sw
  simp only [encX, major]
  omega

theorem por (x0 : Nat) (x1 : Nat) (x2 : Nat) : Statement (.por x0 x1 x2) := by
  intro h sw
  have h : (okP x0 && okP x1 && okP x2) = true := h
  simp only [okV, okS, okP, okN, okBar, Bool.and_eq_true, decide_eq_true_eq] at h
  refine one (w := _) ?_ sw
  simp only [encX, major]
  omega

theorem pxor (x0 : Nat) (x1 : Nat) (x2 : Nat) : Statement (.pxor x0 x1 x2) := by
  intro h sw
  have h : (okP x0 && okP x1 && okP x2) = true := h
  simp only [okV, okS, okP, okN, okBar, Bool.and_eq_true, decide_eq_true_eq] at h
  refine one (w := _) ?_ sw
  simp only [encX, major]
  omega

theorem pnot (x0 : Nat) (x1 : Nat) : Statement (.pnot x0 x1) := by
  intro h sw
  have h : (okP x0 && okP x1) = true := h
  simp only [okV, okS, okP, okN, okBar, Bool.and_eq_true, decide_eq_true_eq] at h
  refine one (w := _) ?_ sw
  simp only [encX, major]
  omega

theorem pmov (x0 : Nat) (x1 : Nat) : Statement (.pmov x0 x1) := by
  intro h sw
  have h : (okP x0 && okP x1) = true := h
  simp only [okV, okS, okP, okN, okBar, Bool.and_eq_true, decide_eq_true_eq] at h
  refine one (w := _) ?_ sw
  simp only [encX, major]
  omega

theorem ppack (x0 : Nat) (x1 : Nat) (x2 : Nat) : Statement (.ppack x0 x1 x2) := by
  intro h sw
  have h : (okV x0 && okP x1 && decide (1 ≤ x2) && decide (x2 ≤ 16) && decide (x1 + x2 ≤ 12)) = true := h
  simp only [okV, okS, okP, okN, okBar, Bool.and_eq_true, decide_eq_true_eq] at h
  refine one (w := _) ?_ sw
  simp only [encX, major]
  omega

theorem punpk (x0 : Nat) (x1 : Nat) (x2 : Nat) : Statement (.punpk x0 x1 x2) := by
  intro h sw
  have h : (okP x0 && okV x2 && decide (1 ≤ x1) && decide (x1 ≤ 16) && decide (x0 + x1 ≤ 12)) = true := h
  simp only [okV, okS, okP, okN, okBar, Bool.and_eq_true, decide_eq_true_eq] at h
  refine one (w := _) ?_ sw
  simp only [encX, major]
  omega

theorem ptos (x0 : Nat) (x1 : Nat) : Statement (.ptos x0 x1) := by
  intro h sw
  have h : (okS x0 && okP x1) = true := h
  simp only [okV, okS, okP, okN, okBar, Bool.and_eq_true, decide_eq_true_eq] at h
  refine one (w := _) ?_ sw
  simp only [encX, major]
  omega

theorem pset (x0 : Nat) (x1 : Nat) : Statement (.pset x0 x1) := by
  intro h sw
  have h : (okP x0 && okS x1) = true := h
  simp only [okV, okS, okP, okN, okBar, Bool.and_eq_true, decide_eq_true_eq] at h
  refine one (w := _) ?_ sw
  simp only [encX, major]
  omega

theorem vlane (x0 : Nat) (x1 : Nat) : Statement (.vlane x0 x1) := by
  intro h sw
  have h : (okV x0 && okS x1) = true := h
  simp only [okV, okS, okP, okN, okBar, Bool.and_eq_true, decide_eq_true_eq] at h
  refine one (w := _) ?_ sw
  simp only [encX, major]
  omega

theorem nop : Statement (.nop) := by
  intro h sw
  have h : (true) = true := h
  refine one (w := _) ?_ sw
  simp only [encX, major]
  omega

theorem exit : Statement (.exit) := by
  intro h sw
  have h : (true) = true := h
  refine one (w := _) ?_ sw
  simp only [encX, major]
  omega

theorem yield : Statement (.yield) := by
  intro h sw
  have h : (true) = true := h
  refine one (w := _) ?_ sw
  simp only [encX, major]
  omega

theorem trap (x0 : Nat) : Statement (.trap x0) := by
  intro h sw
  have h : (okN 16 x0) = true := h
  simp only [okV, okS, okP, okN, okBar, Bool.and_eq_true, decide_eq_true_eq] at h
  refine one (w := _) ?_ sw
  simp only [major]
  omega

theorem bkpt (x0 : Nat) : Statement (.bkpt x0) := by
  intro h sw
  have h : (okN 16 x0) = true := h
  simp only [okV, okS, okP, okN, okBar, Bool.and_eq_true, decide_eq_true_eq] at h
  refine one (w := _) ?_ sw
  simp only [major]
  omega

theorem eret : Statement (.eret) := by
  intro h sw
  have h : (true) = true := h
  refine one (w := _) ?_ sw
  simp only [encX, major]
  omega

theorem bar : Statement (.bar) := by
  intro h sw
  have h : (true) = true := h
  refine one (w := _) ?_ sw
  simp only [encX, major]
  omega

theorem cbar : Statement (.cbar) := by
  intro h sw
  have h : (true) = true := h
  refine one (w := _) ?_ sw
  simp only [encX, major]
  omega

theorem fence (x0 : Scope) (x1 : MemOrder) : Statement (.fence x0 x1) := by
  intro h sw
  have hx0 := Scope.code_lt x0
  have hx1 := MemOrder.code_lt x1
  have h : (x1.inFence) = true := h
  refine one (w := _) ?_ sw
  simp only [encX, major]
  omega

theorem rfence (x0 : Nat) (x1 : Scope) (x2 : Nat) (x3 : MemOrder) : Statement (.rfence x0 x1 x2 x3) := by
  intro h sw
  have hx1 := Scope.code_lt x1
  have hx3 := MemOrder.code_lt x3
  have h : (okS x0 && okS x2 && x3.inRfence) = true := h
  simp only [okV, okS, okP, okN, okBar, Bool.and_eq_true, decide_eq_true_eq] at h
  refine one (w := _) ?_ sw
  simp only [encX, major]
  omega

theorem sleep (x0 : Nat) : Statement (.sleep x0) := by
  intro h sw
  have h : (okN 16 x0) = true := h
  simp only [okV, okS, okP, okN, okBar, Bool.and_eq_true, decide_eq_true_eq] at h
  refine one (w := _) ?_ sw
  simp only [major]
  omega

theorem pref (x0 : Nat) (x1 : PrefLevel) (x2 : Int) : Statement (.pref x0 x1 x2) := by
  intro h sw
  have hx1 := PrefLevel.code_lt x1
  have hx2 := unsigned_lt 8 x2
  have h : (okS x0 && okI 8 x2) = true := h
  simp only [okV, okS, okP, okN, okBar, Bool.and_eq_true, decide_eq_true_eq] at h
  refine one (w := _) ?_ sw
  simp only [encX, major]
  omega
theorem variableLatencyResult (x0 : Nat) (x1 : Nat) (x2 : Mask) : Statement (.variableLatencyResult x0 x1 x2) := event rfl
theorem instructionReplay (x0 : Nat) : Statement (.instructionReplay x0) := event rfl
theorem accessFlagService (x0 : Nat) (x1 : Nat) : Statement (.accessFlagService x0 x1) := event rfl
theorem pageWalk (x0 : Nat) (x1 : Nat) (x2 : Nat) (x3 : AccessKind) : Statement (.pageWalk x0 x1 x2 x3) := event rfl
theorem warpPromotion (x0 : Nat) : Statement (.warpPromotion x0) := event rfl
theorem sleepExpiry (x0 : Nat) : Statement (.sleepExpiry x0) := event rfl
theorem spawnStallRetry (x0 : Nat) : Statement (.spawnStallRetry x0) := event rfl
theorem spawnTimerExpiry (x0 : Nat) (x1 : Nat) : Statement (.spawnTimerExpiry x0 x1) := event rfl
theorem spawnedWarpStart (x0 : Nat) : Statement (.spawnedWarpStart x0) := event rfl
theorem barRelease (x0 : Nat) : Statement (.barRelease x0) := event rfl
theorem cbarRelease (x0 : Nat) (x1 : Nat) : Statement (.cbarRelease x0 x1) := event rfl
theorem afenceStallRetry (x0 : Nat) : Statement (.afenceStallRetry x0) := event rfl
theorem tcopyStallRetry (x0 : Nat) : Statement (.tcopyStallRetry x0) := event rfl
theorem matrixQueueStallRetry (x0 : Nat) : Statement (.matrixQueueStallRetry x0) := event rfl
theorem asyncOperationComplete (x0 : Nat) : Statement (.asyncOperationComplete x0) := event rfl
theorem awaitReturn (x0 : Nat) : Statement (.awaitReturn x0) := event rfl
theorem bwaitReturn (x0 : Nat) : Statement (.bwaitReturn x0) := event rfl
theorem tcopyYResume (x0 : Nat) : Statement (.tcopyYResume x0) := event rfl
theorem actldComplete (x0 : Nat) : Statement (.actldComplete x0) := event rfl
theorem qappendGrant (x0 : Nat) (x1 : Nat) : Statement (.qappendGrant x0 x1) := event rfl
theorem qpopWake (x0 : Nat) : Statement (.qpopWake x0) := event rfl
theorem qdetOwnFree (x0 : Nat) : Statement (.qdetOwnFree x0) := event rfl
theorem launchStallRetry (x0 : Nat) : Statement (.launchStallRetry x0) := event rfl
theorem collStallRetry (x0 : Nat) : Statement (.collStallRetry x0) := event rfl
theorem collComplete (x0 : Nat) : Statement (.collComplete x0) := event rfl
theorem warpRetire (x0 : Nat) : Statement (.warpRetire x0) := event rfl
theorem coreSplitChange (x0 : Nat) : Statement (.coreSplitChange x0) := event rfl
theorem teamDispatch (x0 : Nat) : Statement (.teamDispatch x0) := event rfl
theorem preemptionOverrun (x0 : Nat) : Statement (.preemptionOverrun x0) := event rfl
theorem teamSave (x0 : Nat) : Statement (.teamSave x0) := event rfl
theorem txTimeout (x0 : Nat) (x1 : Nat) : Statement (.txTimeout x0 x1) := event rfl
theorem backoffExpiry (x0 : Nat) : Statement (.backoffExpiry x0) := event rfl
theorem irrevocabilityTokenGrant : Statement (.irrevocabilityTokenGrant) := event rfl
theorem txendoTurn (x0 : Nat) : Statement (.txendoTurn x0) := event rfl
theorem commitPhase1 (x0 : Nat) (x1 : Nat) : Statement (.commitPhase1 x0 x1) := event rfl
theorem commitPhase2 (x0 : Nat) (x1 : Nat) : Statement (.commitPhase2 x0 x1) := event rfl
theorem gets (x0 : Nat) (x1 : Nat) : Statement (.gets x0 x1) := event rfl
theorem getm (x0 : Nat) (x1 : Nat) : Statement (.getm x0 x1) := event rfl
theorem upg (x0 : Nat) (x1 : Nat) : Statement (.upg x0 x1) := event rfl
theorem maskExtension (x0 : Nat) (x1 : Nat) (x2 : BitVec 128) : Statement (.maskExtension x0 x1 x2) := event rfl
theorem putm (x0 : Nat) (x1 : Nat) : Statement (.putm x0 x1) := event rfl
theorem putmm (x0 : Nat) (x1 : Nat) : Statement (.putmm x0 x1) := event rfl
theorem homeWrite (x0 : Nat) (x1 : BitVec 128) : Statement (.homeWrite x0 x1) := event rfl
theorem mscFill (x0 : Nat) (x1 : Option Nat) : Statement (.mscFill x0 x1) := event rfl
theorem data (x0 : Nat) (x1 : Nat) : Statement (.data x0 x1) := event rfl
theorem datam (x0 : Nat) (x1 : Nat) : Statement (.datam x0 x1) := event rfl
theorem upgack (x0 : Nat) (x1 : Nat) : Statement (.upgack x0 x1) := event rfl
theorem putack (x0 : Nat) (x1 : Nat) : Statement (.putack x0 x1) := event rfl
theorem inv (x0 : Nat) (x1 : Nat) : Statement (.inv x0 x1) := event rfl
theorem recallS (x0 : Nat) (x1 : Nat) : Statement (.recallS x0 x1) := event rfl
theorem recallI (x0 : Nat) (x1 : Nat) : Statement (.recallI x0 x1) := event rfl
theorem recallP (x0 : Nat) (x1 : Nat) : Statement (.recallP x0 x1) := event rfl
theorem mergeRecall (x0 : Nat) (x1 : Nat) : Statement (.mergeRecall x0 x1) := event rfl
theorem protocolAck (x0 : Nat) (x1 : Nat) : Statement (.protocolAck x0 x1) := event rfl
theorem push (x0 : Nat) (x1 : Nat) (x2 : Bool) : Statement (.push x0 x1 x2) := event rfl
theorem pushAck (x0 : Nat) (x1 : Nat) : Statement (.pushAck x0 x1) := event rfl
theorem flitCrcError (x0 : Nat) (x1 : Nat) : Statement (.flitCrcError x0 x1) := event rfl
theorem ucieReplay (x0 : Nat) (x1 : Nat) (x2 : Bool) : Statement (.ucieReplay x0 x1 x2) := event rfl
theorem crossbarParityError (x0 : Nat) (x1 : Nat) : Statement (.crossbarParityError x0 x1) := event rfl
theorem uncorrectableError (x0 : ErrorSite) : Statement (.uncorrectableError x0) := event rfl
theorem kernel (x0 : Nat) : Statement (.kernel x0) := event rfl
theorem wait (x0 : Nat) : Statement (.wait x0) := event rfl
theorem signal (x0 : Nat) : Statement (.signal x0) := event rfl
theorem windowCreate (x0 : Nat) : Statement (.windowCreate x0) := event rfl
theorem windowDestroy (x0 : Nat) : Statement (.windowDestroy x0) := event rfl
theorem invalidate (x0 : Nat) : Statement (.invalidate x0) := event rfl
theorem copy (x0 : Nat) : Statement (.copy x0) := event rfl
theorem streamHalt (x0 : Nat) : Statement (.streamHalt x0) := event rfl
theorem addressMonitorWrite (x0 : Monitored) : Statement (.addressMonitorWrite x0) := event rfl
theorem monitorPoll : Statement (.monitorPoll) := event rfl
theorem streamAging (x0 : Nat) : Statement (.streamAging x0) := event rfl
theorem childGridStart (x0 : Nat) : Statement (.childGridStart x0) := event rfl
theorem gridComplete (x0 : Nat) : Statement (.gridComplete x0) := event rfl
theorem quantumEnd (x0 : Nat) : Statement (.quantumEnd x0) := event rfl
theorem meeting (x0 : Nat) : Statement (.meeting x0) := event rfl
theorem waveStart (x0 : Nat) : Statement (.waveStart x0) := event rfl
theorem powerMeasurement (x0 : PowerReading) : Statement (.powerMeasurement x0) := event rfl
theorem powerUp : Statement (.powerUp) := event rfl
theorem warmReset : Statement (.warmReset) := event rfl
theorem coldReset : Statement (.coldReset) := event rfl
theorem ctxwrite (x0 : Nat) (x1 : Nat) (x2 : Nat) (x3 : List Byte) : Statement (.ctxwrite x0 x1 x2 x3) := event rfl
theorem qwrite (x0 : Nat) (x1 : Nat) (x2 : List Byte) : Statement (.qwrite x0 x1 x2) := event rfl
theorem codereg (x0 : Nat) (x1 : Nat) (x2 : Nat) (x3 : Nat) (x4 : List Byte) : Statement (.codereg x0 x1 x2 x3 x4) := event rfl
theorem codemod (x0 : Nat) (x1 : Nat) (x2 : Nat) (x3 : List (Nat × List Byte)) (x4 : Option (List Byte)) : Statement (.codemod x0 x1 x2 x3 x4) := event rfl
theorem codedrop (x0 : Nat) (x1 : Nat) (x2 : Nat) : Statement (.codedrop x0 x1 x2) := event rfl
theorem suspend (x0 : Nat) (x1 : Nat) : Statement (.suspend x0 x1) := event rfl
theorem resume (x0 : Nat) (x1 : Nat) : Statement (.resume x0 x1) := event rfl
theorem faultanswerRetry (x0 : Nat) (x1 : Nat) : Statement (.faultanswerRetry x0 x1) := event rfl
theorem faultanswerAbort (x0 : Nat) (x1 : Nat) : Statement (.faultanswerAbort x0 x1) := event rfl
theorem evread (x0 : Nat) (x1 : Nat) : Statement (.evread x0 x1) := event rfl
theorem evrelease (x0 : Nat) : Statement (.evrelease x0) := event rfl
theorem logread (x0 : Nat) (x1 : Nat) : Statement (.logread x0 x1) := event rfl
theorem reflash (x0 : Nat) (x1 : List Byte) : Statement (.reflash x0 x1) := event rfl
theorem attest (x0 : Nat) (x1 : List Byte) : Statement (.attest x0 x1) := event rfl
theorem domain (x0 : Nat) (x1 : Nat) (x2 : BitVec 64) (x3 : List (Nat × Nat)) (x4 : Nat × Nat) : Statement (.domain x0 x1 x2 x3 x4) := event rfl
theorem managementConnect (x0 : Nat) : Statement (.managementConnect x0) := event rfl
theorem rdmaWrite (x0 : Nat) (x1 : Nat) (x2 : Nat) (x3 : List Byte) : Statement (.rdmaWrite x0 x1 x2 x3) := event rfl
theorem rdmaRead (x0 : Nat) (x1 : Nat) (x2 : Nat) (x3 : Nat) : Statement (.rdmaRead x0 x1 x2 x3) := event rfl
theorem rdmaFetchAndAdd (x0 : Nat) (x1 : Nat) (x2 : Nat) (x3 : Nat) : Statement (.rdmaFetchAndAdd x0 x1 x2 x3) := event rfl
theorem rdmaCompareAndSwap (x0 : Nat) (x1 : Nat) (x2 : Nat) (x3 : Nat) (x4 : Nat) : Statement (.rdmaCompareAndSwap x0 x1 x2 x3 x4) := event rfl
theorem queuePairBroken (x0 : Nat) : Statement (.queuePairBroken x0) := event rfl
theorem linkUp (x0 : Nat) : Statement (.linkUp x0) := event rfl
theorem linkDown (x0 : Nat) : Statement (.linkDown x0) := event rfl
theorem kltRequest (x0 : KltHeader) (x1 : RemoteOp) : Statement (.kltRequest x0 x1) := event rfl
theorem kltResponse (x0 : KltHeader) (x1 : List Byte) (x2 : Bool) : Statement (.kltResponse x0 x1 x2) := event rfl
theorem kltAck (x0 : KltHeader) : Statement (.kltAck x0) := event rfl
theorem kltNak (x0 : KltHeader) : Statement (.kltNak x0) := event rfl
theorem kltCollective (x0 : KltHeader) (x1 : CollFrame) : Statement (.kltCollective x0 x1) := event rfl
theorem kltProbe (x0 : KltHeader) : Statement (.kltProbe x0) := event rfl
theorem kltResendTimeout (x0 : Nat) (x1 : Nat) : Statement (.kltResendTimeout x0 x1) := event rfl
theorem peerLost (x0 : Nat) (x1 : Bool) : Statement (.peerLost x0 x1) := event rfl
theorem reservedEncoding : Statement (.reservedEncoding) := event rfl
theorem copyComplete (x0 : Nat) : Statement (.copyComplete x0) := event rfl
theorem firmwareHalt (x0 : Nat) : Statement (.firmwareHalt x0) := event rfl
theorem managementUnknownCode (x0 : Nat) (x1 : Nat) : Statement (.managementUnknownCode x0 x1) := event rfl
theorem rdmaInvalidRequest (x0 : Nat) (x1 : RdmaKind) : Statement (.rdmaInvalidRequest x0 x1) := event rfl

/-- A word that can be repeated is one word. -/
theorem repeatable {b : Instr} (h : b.repSteps.isSome = true) :
    ∃ w, encodeWords b = [w] ∧ (∀ sw, encode b sw = [w + ofBit sw * 2 ^ 31]) := by
  cases b <;> first | exact ⟨_, rfl, fun _ => rfl⟩ | exact Bool.false_ne_true h |>.elim

theorem repOk_isSome {sd sa sb : Bool} {st : Nat} {b : Instr} (h : repOk sd sa sb st b = true) : b.repSteps.isSome = true := by
  unfold repOk at h
  split at h <;> simp_all

theorem repeated_words {b : Instr} (h : b.repSteps.isSome = true) : Statement b := by
  cases b
  case vadd => exact vadd _ _ _
  case vsub => exact vsub _ _ _
  case vmul => exact vmul _ _ _
  case vmad => exact vmad _ _ _
  case vmin => exact vmin _ _ _
  case vmax => exact vmax _ _ _
  case vand => exact vand _ _ _
  case vor => exact vor _ _ _
  case vxor => exact vxor _ _ _
  case vshl => exact vshl _ _ _
  case vshr => exact vshr _ _ _
  case vsra => exact vsra _ _ _
  case vmulh => exact vmulh _ _ _
  case vdot => exact vdot _ _ _
  case vcmp => exact vcmp _ _ _ _
  case vcvt => exact vcvt _ _ _
  case vaddi => exact vaddi _ _ _
  case vmuli => exact vmuli _ _ _
  case vandi => exact vandi _ _ _
  case vori => exact vori _ _ _
  case vshi => exact vshi _ _ _ _
  case vcmpi => exact vcmpi _ _ _ _
  case vrdx => exact vrdx _ _ _
  case vwrx => exact vwrx _ _ _
  case vsel => exact vsel _ _ _
  case vbfe => exact vbfe _ _ _
  case vbfi => exact vbfi _ _ _
  case vshfl => exact vshfl _ _ _ _ _
  case vnot => exact vnot _ _ _
  case vabs => exact vabs _ _ _
  case vneg => exact vneg _ _ _
  case vclz => exact vclz _ _ _
  case vpopc => exact vpopc _ _ _
  case vrcp => exact vrcp _ _ _
  case vrsq => exact vrsq _ _ _
  case vexp2 => exact vexp2 _ _ _
  case vlog2 => exact vlog2 _ _ _
  case vsin => exact vsin _ _ _
  case vcos => exact vcos _ _ _
  case vact => exact vact _ _ _
  case vmov => exact vmov _ _
  case vredadd => exact vredadd _ _ _
  case vredmin => exact vredmin _ _ _
  case vredmax => exact vredmax _ _ _
  case vredand => exact vredand _ _ _
  case vredor => exact vredor _ _ _
  case vredxor => exact vredxor _ _ _
  case vscan => exact vscan _ _ _
  case vvoteany => exact vvoteany _ _
  case vvoteall => exact vvoteall _ _
  case vballot => exact vballot _ _
  case vmatch => exact vmatch _ _ _
  case vpack => exact vpack _ _ _
  case vunpk => exact vunpk _ _ _
  case vrand => exact vrand _
  case vlane => exact vlane _ _
  all_goals exact Bool.false_ne_true h |>.elim

theorem rep (x0 : Nat) (x1 x2 x3 : Bool) (x4 : Nat) (x5 : Instr) : Statement (.rep x0 x1 x2 x3 x4 x5) := by
  intro h sw
  have h : (okN 6 x0 && okN 2 x4 && repOk x1 x2 x3 x4 x5 && x5.wellFormed) = true := h
  simp only [okN, Bool.and_eq_true, decide_eq_true_eq] at h
  obtain ⟨⟨⟨hn, hst⟩, hr⟩, hw⟩ := h
  obtain ⟨w, e, e'⟩ := repeatable (repOk_isSome hr)
  have hb := (repeated_words (repOk_isSome hr) hw sw).1 (w + ofBit sw * 2 ^ 31) (by simp [e'])
  have h1 := ofBit_lt x1
  have h2 := ofBit_lt x2
  have h3 := ofBit_lt x3
  have e1 : encodeWords (.rep x0 x1 x2 x3 x4 x5) =
    major 0x3D (x0 * 2 ^ 19 + ofBit x1 * 2 ^ 18 + ofBit x2 * 2 ^ 17 + ofBit x3 * 2 ^ 16 + x4 * 2 ^ 14) :: encodeWords x5 := rfl
  have e2 : encode (.rep x0 x1 x2 x3 x4 x5) sw =
    [major 0x3D (x0 * 2 ^ 19 + ofBit x1 * 2 ^ 18 + ofBit x2 * 2 ^ 17 + ofBit x3 * 2 ^ 16 + x4 * 2 ^ 14), w + ofBit sw * 2 ^ 31] := by
    unfold encode
    rw [e1, e]
  rw [e2]
  refine ⟨fun x hx => ?_, by simp⟩
  simp only [major, List.mem_cons, List.not_mem_nil, or_false] at hx
  omega

end Sys2Proof.Laws.Words
end

