-- ==== Sys2Proof/Machine/Loader.lean ====
section
/-! DEFINITION. The host runtime's loader: the file of an object, its sections, symbols, relocations and descriptors, and what a load leaves in the package
(R374 to R381). The loader is a program of the host, so no instruction or event runs it. -/

namespace Sys2Proof.Machine

/-- Why a load is refused (Table 18.7), with the record of a relocation and, for NO_FIT, the row of Table 8.1 that does not fit. -/
inductive LoadError where
  | badHeader | badSection | baseAlign | badSymbol | undefSymbol
  | badReloc (record : Nat) | badTarget (record : Nat) | badPair (record : Nat) | badGot (record : Nat)
  | hi20Range (record : Nat) | br12Range (record : Nat)
  | badDesc | noFit (row : Nat) | regRefused
  deriving DecidableEq, Repr

/-- The code of a refusal (Table 18.7). -/
def LoadError.code : LoadError → Nat
  | .badHeader => 1 | .badSection => 2 | .baseAlign => 3 | .badSymbol => 4 | .undefSymbol => 5 | .badReloc _ => 6 | .badTarget _ => 7
  | .badPair _ => 8 | .badGot _ => 9 | .hi20Range _ => 10 | .br12Range _ => 11 | .badDesc => 12 | .noFit _ => 13 | .regRefused => 14

/-! ### The file (R374 to R376) -/

/-- An entry of the section table (Table 18.2). -/
structure KcoSection where
  typ : Nat
  size : Nat
  foff : Nat
  loff : Nat
  zeros : Bool
  deriving DecidableEq, Repr

/-- A symbol (Table 18.3). -/
structure KcoSymbol where
  name : Nat
  kind : Nat
  exported : Bool
  sect : Nat
  regs : Nat
  value : Nat
  size : Nat
  deriving DecidableEq, Repr

/-- A relocation record (Table 18.4). -/
structure KcoReloc where
  offset : Nat
  typ : Nat
  sym : Nat
  addend : Int
  zeros : Bool
  deriving DecidableEq, Repr

/-- A section table entry from its bytes. -/
def KcoSection.ofBytes (b : List Byte) : KcoSection :=
  ⟨fieldAt b 0 1, fieldAt b 4 4, fieldAt b 8 8, fieldAt b 0x10 8, zeroAt b 1 3 && zeroAt b 0x18 8⟩

/-- A symbol from its bytes. -/
def KcoSymbol.ofBytes (b : List Byte) : KcoSymbol :=
  ⟨fieldAt b 0 4, fieldAt b 4 1 % 128, bit (fieldAt b 4 1) 7, fieldAt b 5 1, fieldAt b 6 2, fieldAt b 8 8, fieldAt b 0x10 8⟩

/-- A relocation record from its bytes. -/
def KcoReloc.ofBytes (b : List Byte) : KcoReloc :=
  ⟨fieldAt b 0 8, fieldAt b 8 1, fieldAt b 0xC 4, (BitVec.ofNat 64 (fieldAt b 0x10 8)).toInt, zeroAt b 9 3⟩

/-- The bytes of a file from an offset on. -/
def part (f : List Byte) (o n : Nat) : List Byte := (f.drop o).take n

/-- The section table of a file. -/
def kcoSections (f : List Byte) : List KcoSection :=
  (upto (fieldAt f 0x1C 2)).map fun i => KcoSection.ofBytes (part f (fieldAt f 0x18 4 + 32 * i) 32)

/-- Whether a section is loaded (R375). -/
def KcoSection.loaded (x : KcoSection) : Bool := [1, 2, 3, 6].contains x.typ

/-- The end of a loaded section, as an offset from the base. -/
def KcoSection.stop (x : KcoSection) : Nat := x.loff + x.size

/-- The header's rules (Table 18.1, R374). -/
def kcoHeaderOk (f : List Byte) : Bool :=
  decide (64 ≤ f.length) && fieldAt f 0 4 == 0x304F434B && fieldAt f 4 2 == 1 && fieldAt f 6 2 == 0 && fieldAt f 8 8 % 65536 == 0
  && fieldAt f 0x18 4 % 8 == 0 && decide (2 ≤ fieldAt f 0x1C 2) && decide (fieldAt f 0x1C 2 ≤ 6)
  && decide (1 ≤ fieldAt f 0x1E 2) && decide (fieldAt f 0x1E 2 ≤ 4096) && zeroAt f 0x28 24
  && decide (fieldAt f 0x18 4 + 32 * fieldAt f 0x1C 2 ≤ f.length) && decide (fieldAt f 0x20 4 + fieldAt f 0x24 4 ≤ f.length)
  && fieldAt f 0x10 8 == (((kcoSections f).filter (·.loaded)).map (·.stop)).foldl max 0

/-- Whether a section's own fields are in order (Table 18.2). -/
def KcoSection.ok (f : List Byte) (x : KcoSection) : Bool :=
  x.zeros && decide (1 ≤ x.typ) && decide (x.typ ≤ 6) && decide (x.foff + x.size ≤ f.length)
  && (x.typ != 3 || x.size % 8 == 0) && (x.typ != 4 || x.size % 24 == 0) && (x.typ != 5 || x.size % 24 == 0)
  && (x.typ != 6 || x.size == 64 * fieldAt f 0x1E 2)
  && (if x.loaded then x.loff % 65536 == 0 && (x.typ != 1 || x.loff == 0) else x.loff == 0)

/-- Whether two loaded sections lie on different pages (R375). -/
def KcoSection.apart (x y : KcoSection) : Bool :=
  decide ((x.stop + 65535) / 65536 ≤ y.loff / 65536) || decide ((y.stop + 65535) / 65536 ≤ x.loff / 65536)

/-- Whether the loaded sections of a list share no page. -/
def sectionsApart : List KcoSection → Bool
  | [] => true
  | x :: r => (r.all fun y => !x.loaded || !y.loaded || x.apart y) && sectionsApart r

/-- The section of a type. -/
def sectionOf (l : List KcoSection) (t : Nat) : Option KcoSection := l.find? fun x => x.typ == t

/-- The section table's rules (R375). -/
def kcoSectionsOk (f : List Byte) : Bool :=
  let l := kcoSections f
  (l.all (·.ok f)) && decide ((l.map (·.typ)).Nodup) && (sectionOf l 1).isSome && (sectionOf l 6).isSome && sectionsApart l

/-- The records of `n` bytes in the section of a type. -/
def kcoRecords (f : List Byte) (t n : Nat) : List (List Byte) :=
  match sectionOf (kcoSections f) t with
  | some x => (upto (x.size / n)).map fun i => part f (x.foff + n * i) n
  | none => []

/-- The symbols of a file. -/
def kcoSymbols (f : List Byte) : List KcoSymbol := (kcoRecords f 4 24).map KcoSymbol.ofBytes

/-- The relocation records of a file. -/
def kcoRelocs (f : List Byte) : List KcoReloc := (kcoRecords f 5 24).map KcoReloc.ofBytes

/-- The bytes of a NUL-terminated name, none where it does not end (R374). -/
def nameFrom : List Byte → Option (List Byte)
  | [] => none
  | b :: r => if b == 0 then some [] else (nameFrom r).map (b :: ·)

/-- A symbol's name: its bytes in the string table. -/
def KcoSymbol.text (f : List Byte) (x : KcoSymbol) : Option (List Byte) :=
  nameFrom ((part f (fieldAt f 0x20 4) (fieldAt f 0x24 4)).drop x.name)

/-- Whether a symbol names a function or a kernel. -/
def KcoSymbol.isUnit (x : KcoSymbol) : Bool := x.kind == 1 || x.kind == 2

/-- Whether a symbol breaks no rule of Table 18.3. -/
def KcoSymbol.ok (f : List Byte) (x : KcoSymbol) : Bool :=
  decide (x.kind ≤ 4) && (x.text f).isSome
  && (if x.kind ≤ 2 then [1, 2, 3, 6].contains x.sect && (sectionOf (kcoSections f) x.sect).isSome else x.sect == 0)
  && (!x.isUnit || (x.sect == 1 && x.size % 4 == 0))

/-- The code units that a file's symbols name, sorted by offset (R382). -/
def kcoUnits (f : List Byte) : List CodeUnit :=
  sortBy (fun u => [u.offset]) (((kcoSymbols f).filter (·.isUnit)).map fun x => ⟨x.value, x.size, x.regs, x.kind⟩)

/-- The size of `.text`. -/
def textSize (f : List Byte) : Nat := ((sectionOf (kcoSections f) 1).map (·.size)).getD 0

/-- The value S of a symbol, `globals` being the global symbols of the objects registered in the context; none where no object defines an extern (R376). -/
def KcoSymbol.valueAt (f : List Byte) (base : Nat) (globals : List (List Byte × Nat)) (x : KcoSymbol) : Option Nat :=
  if x.kind == 3 then (globals.find? fun g => some g.1 == x.text f).map (·.2)
  else if x.kind == 4 then some x.value
  else some ((base + ((sectionOf (kcoSections f) x.sect).map (·.loff)).getD 0 + x.value) % 2 ^ 64)

/-- The values of a file's symbols. -/
def kcoValues (f : List Byte) (base : Nat) (globals : List (List Byte × Nat)) : List KcoSymbol → Option (List Nat)
  | [] => some []
  | x :: r => match x.valueAt f base globals, kcoValues f base globals r with
    | some v, some l => some (v :: l)
    | _, _ => none

/-! ### Descriptors (R380) -/

/-- What R380 refuses in a list of descriptors: the first failure. NO_FIT names the row of Table 8.1 that does not fit in native width: 1 warp slots, 2
registers, 5 accumulator. -/
def descError (units : List CodeUnit) : List (List Byte) → Option LoadError
  | [] => none
  | b :: r =>
    let d := KernelDesc.ofBytes b
    if !d.fieldsOk units then some .badDesc
    else if teamsPerCore d 64 == 0 && teamsPerCore d 32 == 0 then
      some (.noFit (if 64 < warpsOf d 64 then 1 else if d.split.reg * granule < warpsOf d 64 * warpRegBytes d 64 then 2 else 5))
    else descError units r

/-! ### Relocations (R377 to R379) -/

/-- A loaded section's contents: its load offset, its type and its bytes. -/
abbrev ImagePart := Nat × Nat × List Byte

/-- The bytes that the sections hold from an offset of the base on, none outside a section. -/
def imageBytes (m : List ImagePart) (o n : Nat) : Option (List Byte) :=
  (m.find? fun p => decide (p.1 ≤ o) && decide (o + n ≤ p.1 + p.2.2.length)).map fun p => part p.2.2 (o - p.1) n

/-- The type of the section that holds `n` bytes at an offset. -/
def imageType (m : List ImagePart) (o n : Nat) : Option Nat :=
  (m.find? fun p => decide (p.1 ≤ o) && decide (o + n ≤ p.1 + p.2.2.length)).map fun p => p.2.1

/-- The sections with bytes written at an offset. -/
def imagePut (m : List ImagePart) (o : Nat) (bs : List Byte) : List ImagePart :=
  m.map fun p => if p.1 ≤ o && decide (o + bs.length ≤ p.1 + p.2.2.length) then
    (p.1, p.2.1, p.2.2.take (o - p.1) ++ bs ++ p.2.2.drop (o - p.1 + bs.length)) else p

/-- The word at an offset. -/
def imageWord (m : List ImagePart) (o : Nat) : Option Nat := (imageBytes m o 4).map natOfBytes

/-- An integer as the 64-bit signed D of R378. -/
def i64 (x : Int) : Int := (BitVec.ofInt 64 x).toInt

/-- The upper part of D, rounded so that the lower part is −2,048 to 2,047 (R378). -/
def hiPart (d : Int) : Int := (d + 0x800) / 4096

/-- The lower part of D (R378). -/
def loPart (d : Int) : Int := d - hiPart d * 4096

/-- Whether the upper part fits 20 bits (R378). -/
def hiFits (d : Int) : Bool := decide (-0x80000 ≤ hiPart d) && decide (hiPart d ≤ 0x7FFFF)

/-- A word with its low `n` bits replaced by an integer's. -/
def setLow (n w : Nat) (x : Int) : Nat := w / 2 ^ n * 2 ^ n + (x % (2 ^ n : Int)).toNat

/-- Whether a word is of the kind that a relocation type patches (Table 18.5). -/
def targetOk (typ w : Nat) : Bool :=
  match decodeWords [w] with
  | .ok d => match typ, d.instr with
    | 2, .slui _ _ => true
    | 3, .salui .addi _ _ _ => true
    | 3, .sld _ _ _ _ => true
    | 3, .sst _ _ _ _ => true
    | 4, .sauipc _ _ => true
    | 5, .salui .addi _ _ _ => true
    | 5, .sld _ _ _ _ => true
    | 5, .sst _ _ _ _ => true
    | 6, .br _ _ _ _ => true
    | 7, .sauipc _ _ => true
    | _, _ => false
  | .error _ => false

/-- Whether the two words of a K_GOT20 are a `SAUIPC` and the `SLD.64` that reads its result (R379). -/
def gotPairOk (w1 w2 : Nat) : Bool :=
  match decodeWords [w1], decodeWords [w2] with
  | .ok d1, .ok d2 => match d1.instr, d2.instr with
    | .sauipc d _, .sld .w64 _ a i => a == d && i == 0
    | _, _ => false
  | _, _ => false

/-- What relocation has done so far: the image, the offsets of the patched words, and D of each record, latest first. -/
structure RelocState where
  image : List ImagePart
  patched : List Nat
  ds : List Int
  deriving DecidableEq, Repr

/-- The offsets of the words that a record patches. -/
def KcoReloc.words (r : KcoReloc) : List Nat := if r.typ == 1 || r.typ == 7 then [r.offset, r.offset + 4] else [r.offset]

/-- The index of the code unit that holds an offset of `.text`. -/
def unitIndex (units : List CodeUnit) (o : Nat) : Option Nat :=
  (upto units.length).find? fun i => match units[i]? with
    | some u => decide (u.offset ≤ o) && decide (o < u.offset + u.size)
    | none => false

/-- The offsets of a symbol's GOT entries: those whose K_ABS64 record names it with ADDEND 0 (R379). -/
def gotEntries (m : List ImagePart) (rs : List KcoReloc) (sym : Nat) : List Nat :=
  (rs.filter fun r => r.typ == 1 && r.sym == sym && r.addend == 0 && imageType m r.offset 8 == some 3).map (·.offset)

/-- Whether a record breaks R377. -/
def KcoReloc.bad (st : RelocState) (syms : Nat) (r : KcoReloc) : Bool :=
  !r.zeros || r.typ == 0 || decide (7 < r.typ) || r.offset % (if r.typ == 1 then 8 else 4) != 0
  || (imageBytes st.image r.offset (if r.typ == 1 then 8 else 4)).isNone || (r.words.any st.patched.contains)
  || ((r.typ == 5 || r.typ == 7) && r.addend != 0) || (r.typ != 5 && decide (syms ≤ r.sym))

/-- D of a record (Table 18.5), its target being in order. -/
def relocValue (base : Nat) (units : List CodeUnit) (vals : List Nat) (rs : List KcoReloc) (st : RelocState) (i : Nat) (r : KcoReloc) :
    Except LoadError Int :=
  let sa : Int := (nth vals r.sym 0 : Int) + r.addend
  let p : Int := ((base + r.offset : Nat) : Int)
  match r.typ with
  | 4 | 6 => .ok (i64 (sa - p))
  | 5 =>
    let fits := match rs[r.sym]? with
      | some q => decide (r.sym < i) && q.typ == 4 && (unitIndex units r.offset).isSome && unitIndex units r.offset == unitIndex units q.offset
      | none => false
    if fits then .ok (nth st.ds (i - 1 - r.sym) 0) else .error (.badPair i)
  | 7 => match gotEntries st.image rs r.sym with
    | [g] => .ok (i64 (((base + g : Nat) : Int) - p))
    | _ => .error (.badGot i)
  | _ => .ok (i64 sa)

/-- One record applied (R377 to R379). -/
def relocate (base : Nat) (units : List CodeUnit) (vals : List Nat) (rs : List KcoReloc) (st : RelocState) (i : Nat) (r : KcoReloc) :
    Except LoadError RelocState :=
  let w := (imageWord st.image r.offset).getD 0
  let w2 := (imageWord st.image (r.offset + 4)).getD 0
  let target := match r.typ with
    | 1 => [some 2, some 3, some 6].contains (imageType st.image r.offset 8)
    | 7 => targetOk 7 w && (imageWord st.image (r.offset + 4)).isSome && gotPairOk w w2
    | t => targetOk t w
  if r.bad st vals.length then .error (.badReloc i)
  else if !target then .error (.badTarget i)
  else match relocValue base units vals rs st i r with
  | .error e => .error e
  | .ok d =>
    let put (m : List ImagePart) : Except LoadError RelocState := .ok ⟨m, st.patched ++ r.words, d :: st.ds⟩
    let word (o x : Nat) (m : List ImagePart) : List ImagePart := imagePut m o (leBytes 4 x)
    match r.typ with
    | 1 => put (imagePut st.image r.offset (leBytes 8 (d % (2 ^ 64 : Int)).toNat))
    | 3 | 5 => put (word r.offset (setLow 12 w (loPart d)) st.image)
    | 6 =>
      if d % 4 != 0 || decide (d / 4 < -2048) || decide (2047 < d / 4) then .error (.br12Range i)
      else put (word r.offset (setLow 12 w (d / 4)) st.image)
    | 7 =>
      if !hiFits d then .error (.hi20Range i)
      else put (word (r.offset + 4) (setLow 12 w2 (loPart d)) (word r.offset (setLow 20 w (hiPart d)) st.image))
    | _ => if !hiFits d then .error (.hi20Range i) else put (word r.offset (setLow 20 w (hiPart d)) st.image)

/-- Records applied in table order, from a record on. -/
def relocateAll (base : Nat) (units : List CodeUnit) (vals : List Nat) (rs : List KcoReloc) :
    Nat → List KcoReloc → RelocState → Except LoadError RelocState
  | _, [], st => .ok st
  | i, r :: rest, st => match relocate base units vals rs st i r with
    | .ok st1 => relocateAll base units vals rs (i + 1) rest st1
    | .error e => .error e

/-! ### A load (R381) -/

/-- An object ready to be placed: the base, the patched sections, the size of `.text`, the unit table and the global symbols with their values. -/
structure Loaded where
  base : Nat
  image : List ImagePart
  textSize : Nat
  units : List Byte
  globals : List (List Byte × Nat)
  deriving DecidableEq, Repr

/-- A unit table's bytes (R382). -/
def unitBytes (u : CodeUnit) : List Byte := leBytes 4 u.offset ++ leBytes 4 u.size ++ leBytes 2 u.regs ++ leBytes 1 u.kind ++ [0, 0, 0, 0, 0]

/-- CODE written into every descriptor of a `.kdesc` section (R381, step 4). -/
def writeCode (base : Nat) : Nat → List Byte → List Byte
  | 0, bs => bs
  | n + 1, bs => leBytes 8 base ++ (bs.take 64).drop 8 ++ writeCode base n (bs.drop 64)

/-- The leaf entry of an address, whatever it permits. -/
def State.leafFrom (s : State) (ctx va : Nat) : Nat → Nat → Nat → Option (DWord × Nat)
  | 0, _, _ => none
  | fuel + 1, t, lv =>
    let a := t + levelIndex va lv * 8
    let e := s.entryAt a
    if isPoisoned s.poison a 8 || !bit e.toNat 0 || s.malformed ctx e lv then none
    else if bit e.toNat 1 then some (e, lv)
    else s.leafFrom ctx va fuel (leafOA e * 2 ^ 16) (lv + 1)

/-- Whether an address has a leaf entry in a context's tables. -/
def State.isMapped (s : State) (ctx va : Nat) : Bool := (s.leafFrom ctx (va % 2 ^ 55) 3 (s.context ctx).root 0).isSome

/-- Step 1 of R381: a base on a page, with its image canonical, unmapped, and clear of the context's private windows. -/
def State.baseOk (s : State) (ctx base image : Nat) : Bool :=
  let w := (s.context ctx).winBase
  base % 65536 == 0 && canonical base && decide (base + image ≤ 2 ^ 64) && (image == 0 || canonical (base + image - 1))
  && !(decide (base < 2 ^ 54) && decide (2 ^ 54 < base + image)) && !(decide (base < w + 262144) && decide (w < base + image))
  && (upto ((image + 65535) / 65536)).all fun i => !s.isMapped ctx (base + 65536 * i)

/-- Steps 1 to 4 of R381: an object checked, relocated and given its CODE, or the first failure. -/
def loadObject (s : State) (ctx base : Nat) (globals : List (List Byte × Nat)) (f : List Byte) : Except LoadError Loaded :=
  let secs := kcoSections f
  let units := kcoUnits f
  let syms := kcoSymbols f
  let rs := kcoRelocs f
  if !s.baseOk ctx base (fieldAt f 0x10 8) then .error .baseAlign
  else if !kcoHeaderOk f then .error .badHeader
  else if !kcoSectionsOk f then .error .badSection
  else if !(syms.all (·.ok f)) || !unitsFit (textSize f) units then .error .badSymbol
  else match kcoValues f base globals syms with
  | none => .error .undefSymbol
  | some vals => match descError units (kcoRecords f 6 64) with
    | some e => .error e
    | none =>
      let image := (secs.filter (·.loaded)).map fun x => (x.loff, x.typ, part f x.foff x.size)
      match relocateAll base units vals rs 0 rs ⟨image, [], []⟩ with
      | .error e => .error e
      | .ok st => .ok {
          base := base
          image := st.image.map fun p => if p.2.1 == 6 then (p.1, p.2.1, writeCode base (p.2.2.length / 64) p.2.2) else p
          textSize := textSize f
          units := units.flatMap unitBytes
          globals := ((syms.zip vals).filter fun x => x.1.exported && x.1.kind != 3).filterMap fun x => (x.1.text f).map fun n => (n, x.2) }

/-- A page of memory that nothing uses, cleared. -/
def State.clearPage (s : State) (pa : Nat) : State :=
  { s with mem := s.mem.filter fun c => decide (c.1 < pa) || decide (pa + 65536 ≤ c.1), poison := clearPoison s.poison pa 65536 }

/-- A table entry of a context's tables that leads on to the next level, made where it is missing with a free page. -/
def State.tableEntry (s : State) (a : Nat) : List Nat → Option (State × Nat × List Nat)
  | free =>
    let e := (s.entryAt a).toNat
    if bit e 0 then (if bit e 1 then none else some (s, leafOA (s.entryAt a) * 2 ^ 16, free))
    else match free with
    | [] => none
    | p :: r => some ((s.clearPage p).homeStore a (leBytes 8 (p + 1)) .normal, p, r)

/-- A page mapped with R and AF, with X where asked and never W, on a physical page (R375, R382). -/
def State.mapCode (s : State) (ctx va pa : Nat) (x : Bool) (free : List Nat) : Option (State × List Nat) :=
  let v := va % 2 ^ 55
  match s.tableEntry ((s.context ctx).root + levelIndex v 0 * 8) free with
  | none => none
  | some (s1, t1, f1) => match s1.tableEntry (t1 + levelIndex v 1 * 8) f1 with
    | none => none
    | some (s2, t2, f2) => some (s2.homeStore (t2 + levelIndex v 2 * 8) (leBytes 8 (pa + 0x27 + if x then 0x10 else 0)) .normal, f2)

/-- Bytes written at their homes line by line, from the start of a line on (R332). -/
def State.storeLines : Nat → Nat → List Byte → State → State
  | 0, _, _, s => s
  | n + 1, pa, bs, s => if bs.isEmpty then s else State.storeLines n (pa + 128) (bs.drop 128) (s.homeStore pa (bs.take 128) .normal)

/-- A section's pages placed and mapped, from a virtual address on, on free pages; `n` pages remain (R381, step 5). -/
def State.placePages (ctx : Nat) (x : Bool) : Nat → Nat → List Byte → State → List Nat → Option (State × List Nat)
  | 0, _, _, s, free => some (s, free)
  | n + 1, va, bs, s, free => match free with
    | [] => none
    | p :: r => match (State.storeLines 512 p (bs.take 65536) (s.clearPage p)).mapCode ctx va p x r with
      | none => none
      | some (s1, r1) => State.placePages ctx x n (va + 65536) (bs.drop 65536) s1 r1

/-- Every section placed and mapped; none where the free pages do not suffice. -/
def State.placeImage (ctx base : Nat) : List ImagePart → State → List Nat → Option State
  | [], s, _ => some s
  | p :: r, s, free => match State.placePages ctx (p.2.1 == 1) ((p.2.2.length + 65535) / 65536) (base + p.1) p.2.2 s free with
    | some (s1, f1) => State.placeImage ctx base r s1 f1
    | none => none

/-- The command that registers a loaded object (R382). -/
def Loaded.register (x : Loaded) (tag ctx : Nat) : Instr := .codereg tag ctx x.base x.textSize x.units

/-- A load: the package afterwards and the object, or the refusal, which leaves the package as it is. The host gives physical pages that nothing uses, and the
tag of its command (R381); none where the pages do not suffice. -/
def State.load (s : State) (ctx base tag : Nat) (globals : List (List Byte × Nat)) (free : List Nat) (f : List Byte) :
    Option (Except LoadError (State × Loaded)) :=
  match loadObject s ctx base globals f with
  | .error e => some (.error e)
  | .ok x => match State.placeImage ctx base x.image s free with
    | none => none
    | some s1 => match execCodereg tag ctx base x.textSize x.units s1 with
      | .next s2 => some (if s2.outbox == s1.outbox ++ [.answer 3 tag 0 []] then .ok (s2, x) else .error .regRefused)
      | _ => some (.error .regRefused)

end Sys2Proof.Machine
end

