-- ==== Sys2Proof/Tests/Slice0.lean ====
section
/-! SUPPORT. Tests: words written out from the spec's encodings, terms that no encoding exists for, one step on small states, and for every statement a
state and operands that meet its hypotheses. -/

set_option Elab.async false

namespace Sys2Proof.Tests

open Sys2Proof Sys2Proof.Machine

/-! ### Decoding: the words that the spec writes out (Tables 3.1 to 3.7, 9.3, 10.6, 12.3, R69 to R81) -/

theorem test_decode_format_A : decodeWords [0x0018060E] = .ok ⟨.vadd 12 3 (.v 7), false, 1⟩ ∧ decodeWords [0x0018060B] = .ok ⟨.vadd 12 3 (.s 5), false, 1⟩
    ∧ (decodeWords [0x0018064B]).toOption = none ∧ (decodeWords [0x0018062F]).toOption.isSome = true := by decide
theorem test_decode_format_M : decodeWords [0xC0144028] = .ok ⟨.vld 10 4 2 .keep false false, true, 1⟩ := by decide
theorem test_decode_vext : decodeWords [0x7C1A0C12] = .ok ⟨.vredadd 6 9 false, false, 1⟩ ∧ (decodeWords [0x7C4A0000]).toOption = none := by decide
theorem test_decode_scalar : decodeWords [0x50308800] = .ok ⟨.salu .add 3 1 2, false, 1⟩ ∧ decodeWords [0x52318FF0] = .ok ⟨.salui .addi 3 3 (-16), false, 1⟩
    ∧ decodeWords [0x54412346] = .ok ⟨.slui 4 0x12346, false, 1⟩ ∧ (decodeWords [0x50110C11]).toOption = none := by decide
theorem test_decode_scalar_memory : decodeWords [0x58525008] = .ok ⟨.sld .n32 5 4 8, false, 1⟩
    ∧ decodeWords [0x5C621C98] = .ok ⟨.satom .add .device .release 6 4 7, false, 1⟩ := by decide
theorem test_decode_special : decodeWords [0x5E200010] = .ok ⟨.ssrRead 2 0x010, false, 1⟩ ∧ decodeWords [0x5E001019] = .ok ⟨.ssrWrite 0x019 0, false, 1⟩
    ∧ decodeWords [0x780000D3] = .ok ⟨.mode 0xD3, false, 1⟩ ∧ decodeWords [0x79050000] = .ok ⟨.modeScalar 5, false, 1⟩ := by decide
theorem test_decode_control : decodeWords [0x60112FFD] = .ok ⟨.br .lt 1 2 (-3), false, 1⟩ ∧ decodeWords [0x60101005] = .ok ⟨.br .ne 1 0 5, false, 1⟩
    ∧ (decodeWords [0x60107005]).toOption = none ∧ decodeWords [0x63FFFFFE] = .ok ⟨.jmp (-2), false, 1⟩ ∧ decodeWords [0x66000900] = .ok ⟨.calli 9, false, 1⟩
    ∧ decodeWords [0x66400900] = .ok ⟨.jmpi 9, false, 1⟩ ∧ decodeWords [0x66600000] = .ok ⟨.ret, false, 1⟩
    ∧ decodeWords [0x668000FE] = .ok ⟨.spadj (-2), false, 1⟩ ∧ decodeWords [0x66228000] = .ok ⟨.callv 20, false, 1⟩ := by decide
theorem test_decode_meld_region : decodeWords [0x6C000002] = .ok ⟨.meldOn 2, false, 1⟩ ∧ decodeWords [0x6C200000] = .ok ⟨.meldOff, false, 1⟩
    ∧ decodeWords [0x6C400600] = .ok ⟨.meldLdt 6, false, 1⟩
    ∧ ((decodeWords [0x6E4C0000, 0x00000011, 0x08040000]).toOption.map (·.words)) = some 3 := by decide
theorem test_decode_switch : decodeWords [0x6A0E8000, 0x00000005, 0x0005000C, 0xFFFF0010, 0x00140018]
    = .ok ⟨.switch 7 .i32 [(0, 5), (5, 12), (0xFFFF, 16)] 20 24, false, 5⟩ := by decide
theorem test_decode_async : decodeWords [0x74E00400] = .ok ⟨.accz 4, false, 1⟩ ∧ decodeWords [0x7510C507] = .ok ⟨.accld (some 7) false 6 5, false, 1⟩
    ∧ decodeWords [0x7528C500] = .ok ⟨.accst none true 6 5, false, 1⟩ ∧ decodeWords [0x75240580] = .ok ⟨.accstR 32 5, false, 1⟩ := by decide
theorem test_decode_task : decodeWords [0x7780E600] = .ok ⟨.coll 7 6, false, 1⟩ ∧ decodeWords [0x76C28000] = .ok ⟨.launch 20, false, 1⟩
    ∧ decodeWords [0x76E10400] = .ok ⟨.qappend 8 4, false, 1⟩ ∧ decodeWords [0x76E10482] = .ok ⟨.qappendTry 8 4 2, false, 1⟩
    ∧ decodeWords [0x77010434] = .ok ⟨.qpop 8 4 3 4, false, 1⟩ ∧ decodeWords [0x77200500] = .ok ⟨.qatt 5, false, 1⟩
    ∧ decodeWords [0x77200682] = .ok ⟨.qattOwn 6 2, false, 1⟩ ∧ decodeWords [0x77400500] = .ok ⟨.qdet 5, false, 1⟩
    ∧ decodeWords [0x77400082] = .ok ⟨.qdetOwn 2, false, 1⟩ ∧ decodeWords [0x77600300] = .ok ⟨.gset 3, false, 1⟩
    ∧ decodeWords [0x76400005] = .ok ⟨.txabort 5, false, 1⟩ ∧ decodeWords [0x76618003] = .ok ⟨.txstat 12 3, false, 1⟩ := by decide
theorem test_decode_system : decodeWords [0x7E000000] = .ok ⟨.nop, false, 1⟩ ∧ decodeWords [0xFE020000] = .ok ⟨.exit, true, 1⟩
    ∧ decodeWords [0x7E040000] = .ok ⟨.yield, false, 1⟩ ∧ decodeWords [0x7E062468] = .ok ⟨.trap 0x1234, false, 1⟩
    ∧ decodeWords [0x7E0A0000] = .ok ⟨.eret, false, 1⟩ ∧ decodeWords [0x7E0C0000] = .ok ⟨.bar, false, 1⟩ ∧ decodeWords [0x7E0E0000] = .ok ⟨.cbar, false, 1⟩
    ∧ decodeWords [0x7E1400C8] = .ok ⟨.sleep 100, false, 1⟩ ∧ (decodeWords [0x4E000000]).toOption = none := by decide

/-! ### Terms that no encoding exists for: one for each check -/

theorem test_illFormed_registers : (Instr.vadd 256 0 (.v 0)).wellFormed = false ∧ (Instr.vadd 0 0 (.s 32)).wellFormed = false
    ∧ (Instr.slui 32 0).wellFormed = false ∧ (Instr.pand 12 0 0).wellFormed = false ∧ (Instr.tcopy (some 32) 0).wellFormed = false := by decide
theorem test_illFormed_immediates : (Instr.vaddi 0 0 256).wellFormed = false ∧ (Instr.vaddi 0 0 (-257)).wellFormed = false
    ∧ (Instr.vaddi 0 0 (-256)).wellFormed = true ∧ (Instr.vmovi 0 65536 false).wellFormed = false ∧ (Instr.slui 0 1048576).wellFormed = false
    ∧ (Instr.br .eq 0 0 2048).wellFormed = false ∧ (Instr.jmp 16777216).wellFormed = false ∧ (Instr.spadj 128).wellFormed = false
    ∧ (Instr.trap 65536).wellFormed = false ∧ (Instr.vshi 0 0 .shl 32).wellFormed = false := by decide
theorem test_illFormed_rules : (Instr.vshfl 0 0 .idx true 0).wellFormed = false ∧ (Instr.salu .clz 1 1 1).wellFormed = false
    ∧ (Instr.salui .slli 1 1 64).wellFormed = false ∧ (Instr.satom .add .team .sc 0 0 0).wellFormed = false
    ∧ (Instr.satom .cas .team .relaxed 0 0 31).wellFormed = false ∧ (Instr.callv 3).wellFormed = false ∧ (Instr.launch 3).wellFormed = false
    ∧ (Instr.switch 0 .i32 [] 0 0).wellFormed = false ∧ (Instr.switch 0 .i32 (List.replicate 9 (0, 0)) 0 0).wellFormed = false
    ∧ (Instr.region .plain 1 false false 0 0 0 0 false).wellFormed = false ∧ (Instr.tcopyY none 0 0).wellFormed = false
    ∧ (Instr.barv 0 0).wellFormed = false ∧ (Instr.qpop 0 0 1 1).wellFormed = false ∧ (Instr.vrand 2).wellFormed = false
    ∧ (Instr.ppack 0 11 2).wellFormed = false ∧ (Instr.punpk 11 2 0).wellFormed = false ∧ (Instr.fence .team .relaxed).wellFormed = false
    ∧ (Instr.rfence 0 .team 0 .sc).wellFormed = false := by decide
theorem test_illFormed_rep : (Instr.rep 2 true false false 0 (.vvoteany 0 0)).wellFormed = false ∧ (Instr.rep 2 true false false 1 (.vrand 0)).wellFormed = false
    ∧ (Instr.rep 64 false false false 0 (.vmov 0 0)).wellFormed = false ∧ (Instr.rep 2 false false false 0 (.rep 1 false false false 0 (.vmov 0 0))).wellFormed = false
    ∧ (Instr.rep 2 false false false 0 .nop).wellFormed = false ∧ (Instr.rep 2 true true true 0 (.vadd 0 0 (.v 0))).wellFormed = true := by decide
theorem test_illFormed_events : (Instr.txTimeout 0 64).wellFormed = false ∧ (Instr.gets 1024 0).wellFormed = false ∧ (Instr.kernel 1024).wellFormed = false
    ∧ (Instr.linkUp 8).wellFormed = false ∧ (Instr.peerLost 64 false).wellFormed = false ∧ (Instr.commitPhase1 0 1536).wellFormed = false := by decide

/-! ### Small states -/

/-- The bench with its warp changed. -/
def onWarp (f : Warp → Warp) (s : State := State.reset.bench) : State := { s with warps := s.warps.map fun e => (e.1, f e.2) }

/-- A state with its launches changed. -/
def onLaunch (f : Launch → Launch) (s : State := State.reset.bench) : State := { s with launches := s.launches.map fun e => (e.1, f e.2) }

/-- A state with its teams changed. -/
def onTeam (f : Team → Team) (s : State := State.reset.bench) : State := { s with teams := s.teams.map fun e => (e.1, f e.2) }

/-- A state with core 0 changed. -/
def onCore (f : Core → Core) (s : State := State.reset.bench) : State := { s with cores := tabSet s.cores 0 (f (s.core 0)) }

/-- The bench under the element type of a code, every lane executing; two lanes are live. -/
def typed (code : Nat) (s : State := State.reset.bench) : State :=
  onWarp (fun w => { w with mode := BitVec.ofNat 16 (code * 32 + 15), live := 3, active := 3 }) s

/-- A state with a scalar register of its warp written. -/
def scalar (n : Nat) (x : DWord) (s : State := State.reset.bench) : State := onWarp (fun w => w.setScal n x) s

/-- A state whose page 16 is physical page 16, whose page 32 is a page of package 1, and whose private segments lie in pages 2 and 3, as core 0's TLB holds them. -/
def mapped (s : State := State.reset.bench) : State :=
  onCore (fun c => { c with tlb := [⟨0, 16, 1, 0x10002F, 2⟩, ⟨0, 32, 1, 0x1001BF, 2⟩, ⟨0, 2, 2, 0x2002F, 2⟩] }) s

/-- A place on this package. -/
def here (pa : Nat) : Phys := ⟨pa, false, 0, 0, false⟩

/-- A place on package 1. -/
def remote (pa : Nat) : Phys := ⟨pa, true, 1, 0, false⟩

/-- A state whose launch is deterministic with a quantum of 256. -/
def quantum (s : State := State.reset.bench) : State :=
  onLaunch (fun x => { x with packet := x.packet.take 0x1C ++ leBytes 4 256 ++ x.packet.drop 0x20 }) s

/-- An open transaction of a lane. -/
def openTx : Tx := ⟨false, false, none, 0, [], [], [], [], []⟩

/-- Whether warp `k` holds the turn and is ready, and a condition holds of it and of what it sees. -/
def meets (s : State) (k : Nat) (P : Warp → Env → Bool) : Bool :=
  match tabFind s.warps k with
  | none => false
  | some w => match s.env? w with
    | none => false
    | some env => s.turn == some k && w.status == .ready && P w env

/-- What `meets` decides. -/
theorem runs_of_meets {s : State} {k : Nat} {P : Warp → Env → Prop} [∀ w e, Decidable (P w e)]
    (h : meets s k (fun w e => decide (P w e)) = true) : ∃ w env, s.Runs k w env ∧ P w env := by
  unfold meets at h
  split at h
  · cases h
  · next w hw =>
    split at h
    · cases h
    · next env he =>
      simp only [Bool.and_eq_true, beq_iff_eq, decide_eq_true_eq] at h
      exact ⟨w, env, ⟨h.1.1, hw, he, h.1.2⟩, h.2⟩

/-- Whether an access of a lane lies in its private window at an offset, and none of its bytes is poisoned. -/
def privateAt (s : State) (env : Env) (x : Lane) (l : Nat) (a : DWord) (n off : Nat) (kd : AccessKind) : Bool :=
  a.toNat % n == 0 && placeOf env a.toNat n == .priv off && match resolvePriv s env x l off n kd with
    | .ok (.priv ps) => !s.piecesBad ps
    | _ => false

/-- What `privateAt` decides. -/
theorem inWindow_of_privateAt {s : State} {env : Env} {x : Lane} {l : Nat} {a : DWord} {n off : Nat} {kd : AccessKind}
    (h : privateAt s env x l a n off kd = true) : ∃ ps, s.InWindow env x l a n kd ps ∧ s.piecesBad ps = false := by
  simp only [privateAt, Bool.and_eq_true, beq_iff_eq] at h
  obtain ⟨⟨h1, h2⟩, h3⟩ := h
  split at h3
  · next ps e => exact ⟨ps, ⟨h1, off, h2, e⟩, by simpa using h3⟩
  · cases h3

/-- The cause of the trap that an instruction ends in. -/
def trapOf {α : Type} : Except Stop α → Option Nat
  | .error (.trap c _ _) => some c
  | _ => none

/-- Whether a check holds at each lane of a list, of what the lanes before it leave. -/
def along (f : State × Warp → Nat → State × Warp) (ok : State × Warp → Nat → Bool) : List Nat → State × Warp → Bool
  | [], _ => true
  | l :: r, u => ok u l && along f ok r (f u l)

/-- What `along` decides. -/
theorem eachLane_of_along {f : State × Warp → Nat → State × Warp} {ok : State × Warp → Nat → Bool} : ∀ {ls : List Nat} {u : State × Warp},
    along f ok ls u = true → EachLane ls f u fun u l => ok u l = true
  | [], _, _ => fun b l a h => by simp at h
  | m :: r, u, h => by
    simp only [along, Bool.and_eq_true] at h
    intro b l a e
    cases b with
    | nil => cases e; exact h.1
    | cons x b => cases e; exact eachLane_of_along h.2 b l a rfl

/-! ### States and operands that meet the hypotheses of the statements -/

theorem hyp_VectorArithmeticCompletes :
    (∃ w env, (typed 2).Runs 0 w env ∧ w.TypeOk ElemType.inN [255, 3, 7] ∧ w.NamesOk env [255, 3, 7])
    ∧ (∃ w env, (typed 7).Runs 0 w env ∧ w.TypeOk ElemType.inD [255, 3] ∧ w.NamesOk env [255, 3]) :=
  ⟨runs_of_meets (by decide), runs_of_meets (by decide)⟩
theorem hyp_ProductsRule : ∃ w env, (typed 0).Runs 0 w env ∧ w.TypeOk ElemType.inI [255, 3, 7] ∧ w.TypeOk ElemType.inMad [255, 3, 7]
    ∧ w.NamesOk env [255, 3, 7] := runs_of_meets (by decide)
theorem hyp_VectorLogicCompletes : ∃ w env, (typed 18).Runs 0 w env ∧ w.TypeOk anyType [254, 2, 6] ∧ (w.mark true 2).TypeOk anyType [254, 2]
    ∧ w.NamesOk env (w.typ.span 254 ++ w.typ.span 2) := runs_of_meets (by decide)
theorem hyp_MoveRules : (∃ w env, (typed 2).Runs 0 w env ∧ w.typ.is64 = false ∧ w.NamesOk env (w.typ.span 255))
    ∧ ∃ w env, (typed 17).Runs 0 w env ∧ w.typ.is64 = true ∧ w.NamesOk env (w.typ.span 254) := ⟨runs_of_meets (by decide), runs_of_meets (by decide)⟩
theorem hyp_ShiftsAndComparesComplete :
    (∃ w env, (typed 0).Runs 0 w env ∧ w.TypeOk ElemType.inI [255, 3, 7] ∧ w.TypeOk fieldType [255, 3, 7] ∧ w.NamesOk env [255, 3, 7])
    ∧ ∃ w env, (typed 2).Runs 0 w env ∧ w.TypeOk (fun t => t.inN && (!Cmp.needsF .ord || t.inF)) [3, 7] ∧ w.NamesOk env [3, 7] :=
  ⟨runs_of_meets (by decide), runs_of_meets (by decide)⟩
theorem hyp_ConversionsAndFunctionsComplete :
    (∃ w env, (typed 2).Runs 0 w env ∧ w.TypeOk ElemType.inS [252, 3] ∧ w.TypeOk ElemType.inF [252, 3] ∧ w.NamesOk env [252, 253, 254, 255])
    ∧ (∃ w env, (typed 7).Runs 0 w env ∧ w.TypeOk anyType [255, 4] ∧ w.NamesOk env (w.typ.span 255 ++ packSpan w.typ 4))
    ∧ ∃ w env, (typed 17).Runs 0 w env ∧ w.typ.is64 = true ∧ w.NamesOk env (convSpan w.typ 1 4 ++ convSpan .f32 1 255) :=
  ⟨runs_of_meets (by decide), runs_of_meets (by decide), runs_of_meets (by decide)⟩
theorem hyp_IntegerElements : ElemType.inI .i8x4 = true ∧ ElemType.inI .n64 = true ∧ 3 < ElemType.count .i8x4 := by decide

/-- A warp with every exception enabled in `%fpctl`, and one lane in an open transaction. -/
def trapping : Warp := { newWarp 0 0 0 0 0 64 0 0 3 [] (upto 64 |>.map fun l => { Lane.start with tx := if l == 1 then some openTx else none }) with
  mode := 0x4F, fpctl := 0x1F }

theorem hyp_LaneResults : (∃ fl, enabledOf trapping.fpctl fl = true ∧ (trapping.lane 0).speculative = false ∧ (trapping.lane 1).speculative = true
    ∧ inMask trapping.executing 0 = true ∧ inMask trapping.executing 1 = true ∧ tabWf 0 (trapping.lane 1).v = true)
    ∧ enabledOf trapping.fpctl noFlags = false := ⟨⟨{ invalid := true }, by decide⟩, by decide⟩
theorem hyp_LaneFrame : (match tabFind (typed 0).warps 0 with
    | some w => (match (typed 0).env? w with
      | some env => (repeated env w (.vadd 4 5 (.v 6))).toOption.isSome && (repeated env w (.vcmpi .eq 3 5 0)).toOption.isSome
      | none => false)
    | none => false) = true := by decide
theorem hyp_CrossLaneCompletes : ∃ w env, (typed 0).Runs 0 w env ∧ w.Together ∧ w.TypeOk ElemType.inN [255, 3] ∧ w.NamesOk env [255, 3] :=
  runs_of_meets (by decide)
theorem hyp_IntegerReductions : ElemType.inI .n32 = true ∧ trapping.sat = false ∧ (∀ x ∈ [1, 2, 2 ^ 32 - 1, 4], x < 2 ^ 32) ∧ [1, 2, 2 ^ 32 - 1, 4].length = 2 ^ 2 := by
  decide
theorem hyp_PredicatesAndVotesComplete : ∃ w env, (typed 18).Runs 0 w env ∧ w.Together ∧ w.TypeOk ElemType.inK [6] ∧ w.NamesOk env [254, 255, 6, 7] :=
  runs_of_meets (by decide)
theorem hyp_ScalarsAndSpecialRegistersComplete :
    (∃ w env, (scalar 4 0x004F).Runs 0 w env ∧ (readSpecial env w 0x010).isSome = true ∧ modeOk ((w.scal 4).setWidth 16) = true ∧ (w.scal 4).toNat < 2 ^ 16
      ∧ w.meld = none ∧ w.TypeOk anyType [255] ∧ w.NamesOk env [255])
    ∧ ∃ w env, (scalar 4 0x1F1F).Runs 0 w env ∧ bits (w.scal 4).toNat 63 13 = 0 ∧ bits (w.scal 4).toNat 7 5 = 0 :=
  ⟨runs_of_meets (by decide), runs_of_meets (by decide)⟩
theorem hyp_UpperImmediates : (∃ w env, State.reset.bench.Runs 0 w env ∧ w.pc = 65536)
    ∧ -(2 ^ 31 : Int) - 2 ^ 11 ≤ -(2 ^ 31 : Int) - 2 ^ 11 ∧ (2 ^ 31 : Int) - 2 ^ 11 - 1 ≤ (2 ^ 31 : Int) - 2 ^ 11 - 1 :=
  ⟨runs_of_meets (by decide), by decide, by decide⟩

/-- The bench with functions at offsets 0x40 and 0x80 of its code. -/
def withFunctions (s : State) : State :=
  { s with code := [⟨0, 65536, 65536, [(1, ⟨[⟨0, 64, 256, 2⟩, ⟨64, 64, 100, 1⟩, ⟨128, 64, 256, 1⟩], [.physical 65536]⟩)], 1, false⟩] }

/-- Two lanes with a pair of registers v20:v21 each. -/
def targets (a b : Word) : State :=
  withFunctions (onWarp (fun w => (w.setLane 0 ((w.lane 0).put 20 a)).setLane 1 ((w.lane 1).put 20 b)) (typed 0))

theorem hyp_ControlCompletes :
    (∃ w env, (scalar 31 512).Runs 0 w env ∧ BrCond.holds .eq (w.scal 0) (w.scal 1) = true ∧ BrCond.holds .ne (w.scal 0) (w.scal 1) = false ∧ w.meld = none
      ∧ (w.scal 30).toNat % 4 = 0 ∧ env.stklim ≤ (w.scal 31 + BitVec.ofInt 64 (-4 * 64)).toNat ∧ (w.scal 31 + BitVec.ofInt 64 (8 * 64)).toNat ≤ env.top)
    ∧ (∃ w env, (targets 0x10040 0x10040).Runs 0 w env ∧ w.callTargets 20 = [0x10040] ∧ (targets 0x10040 0x10040).budgetAt w 0x10040 = some 100 ∧ 100 ≤ env.budget
      ∧ w.NamesOk env [20, 21])
    ∧ (∃ w env, (targets 0x10080 0x10040).Runs 0 w env ∧ w.callTargets 20 = [0x10040, 0x10080] ∧ (targets 0x10080 0x10040).budgetAt w 0x10080 = some 256
      ∧ 256 ≤ env.budget ∧ w.stack.length + 3 ≤ 160)
    ∧ ∃ w env, (onWarp (fun w => { w with active := 0 }) (targets 0 0)).Runs 0 w env ∧ w.callTargets 20 = [] :=
  ⟨runs_of_meets (by decide), runs_of_meets (by decide), runs_of_meets (by decide), runs_of_meets (by decide)⟩

/-- Two live lanes with a predicate register written. -/
def predicate (n : Nat) (m : Mask) : State := onWarp (fun w => w.setPred n m) (typed 0)

theorem hyp_SplitRule : (∃ w env, (predicate 3 0).Runs 0 w env ∧ w.meld = none ∧ w.doomed = 0 ∧ w.active ≠ 0 ∧ w.active &&& w.pred 3 = 0)
    ∧ (∃ w env, (predicate 3 3).Runs 0 w env ∧ w.active &&& ~~~(w.active &&& w.pred 3) = 0)
    ∧ ∃ w env, (predicate 3 1).Runs 0 w env ∧ w.meld = none ∧ w.doomed = 0 ∧ w.active &&& w.pred 3 ≠ 0 ∧ w.active &&& ~~~(w.active &&& w.pred 3) ≠ 0
      ∧ w.stack.length + 2 ≤ 160 := ⟨runs_of_meets (by decide), runs_of_meets (by decide), runs_of_meets (by decide)⟩

/-- Two lanes with v7 written. -/
def keys (a b : Word) : State := onWarp (fun w => (w.setLane 0 ((w.lane 0).put 7 a)).setLane 1 ((w.lane 1).put 7 b)) (typed 0)

theorem hyp_DivergenceRules :
    (∃ w env, (onWarp (fun w => w.setLane 0 { w.lane 0 with tx := some { openTx with doomed := some (5, 0) } })
        (onWarp (fun w => { w with live := 7, active := 7 }) (predicate 3 2))).Runs 0 w env
      ∧ w.meld = none ∧ w.counted &&& w.pred 3 ≠ 0 ∧ w.counted &&& ~~~(w.pred 3) ≠ 0)
    ∧ (∃ w env, (onWarp (fun w => { w with active := 0 }) (typed 0)).Runs 0 w env ∧ w.meld = none ∧ w.counted = 0)
    ∧ (∃ w env, (keys 5 9).Runs 0 w env ∧ w.NamesOk env [7]
      ∧ (switchGroups (fun l => w.reg l 7) .i32 20 [(5, 12)] (lanesOf w.width w.counted)).filter (fun g => !g.2.isEmpty) = [(12, [0]), (20, [1])])
    ∧ (∃ w env, (keys 5 5).Runs 0 w env
      ∧ (switchGroups (fun l => w.reg l 7) .i32 20 [(5, 12)] (lanesOf w.width w.counted)).filter (fun g => !g.2.isEmpty) = [(12, [0, 1])])
    ∧ ∃ w env, (onWarp (fun w => w.push [⟨65600, 1, 65536⟩]) (typed 0)).Runs 0 w env ∧ w.stack = [⟨65600, 1, 65536⟩] ∧ w.pc = 65536 ∧ w.active ≠ 0 :=
  ⟨runs_of_meets (by decide), runs_of_meets (by decide), runs_of_meets (by decide), runs_of_meets (by decide), runs_of_meets (by decide)⟩

/-- A state whose kernel has its handler at offset 0x80. -/
def handled (s : State) : State := onLaunch (fun x => { x with desc := { x.desc with trap := 0x80 } }) s

theorem hyp_StretchesRegionsAndRepetition :
    (∃ w env, (mapped (scalar 4 0x100000)).Runs 0 w env ∧ w.meld = none ∧ w.drain.Together ∧ (∀ b ∈ w.drain.pairs, b.toNat < env.budget)
      ∧ ((w.scal 4).toNat % 64 = 0 ∧ placeOf env (w.scal 4).toNat 64 = .global
        ∧ ((mapped (scalar 4 0x100000)).translate env.core env.ctx (w.scal 4).toNat .read).toOption = some (here 0x100000))
      ∧ (∀ x ∈ sectorsOf 0x100000 64, (mapped (scalar 4 0x100000)).lockFor 0 (x * 32) = none)
      ∧ w.drain.anyTx = false ∧ 0 + 8 ≤ env.budget ∧ env.det = false ∧ (mapped (scalar 4 0x100000)).stopRequested env w.drain = false)
    ∧ (∃ w env, (mapped (scalar 4 64)).Runs 0 w env ∧ privateAt (mapped (scalar 4 64)) env .start w.lowestLive (w.scal 4) 64 64 .read = true)
    ∧ (∃ w env, (onWarp fun w => { w with meld := some ⟨2, false⟩ }).Runs 0 w env ∧ w.meld.isSome = true)
    ∧ (∃ w env, (onTeam fun t => { t with status := .stopping 0 }).Runs 0 w env ∧ (onTeam fun t => { t with status := .stopping 0 }).stopRequested env w.drain = true
      ∧ w.drain.handler = none)
    ∧ (∃ w env, (onWarp fun w => { w with lanes := w.lanes.map fun x => { x with slalom := some 0 } }).Runs 0 w env
      ∧ ∀ l ∈ lanesOf w.drain.width w.drain.active, (w.drain.lane l).slalom.isSome = true)
    ∧ repOk true true false 0 (.vmov 4 5) = true ∧ repOk true false false 0 (.vvoteany 0 0) = false
    ∧ (∃ w env, (typed 0).Runs 0 w env ∧ w.repOpen = false)
    ∧ (∃ w env, (onWarp (fun w => { w with repc := 2, repOpen := true }) (typed 0)).Runs 0 w env ∧ w.repOpen = true
      ∧ (repeated env w (stepBody 0 0 0 (.vmov 4 5))).toOption.isSome = true)
    ∧ (∃ w env, (onWarp (fun w => { w with repOpen := true }) (typed 11)).Runs 0 w env ∧ trapOf (repeated env w (stepBody 0 0 0 (.vadd 4 5 (.v 6)))) = some 1
      ∧ w.onlyDooms = false)
    ∧ ∃ w env, (onWarp (fun w => { w.setLane 0 { w.lane 0 with tx := some openTx } with active := 1, repOpen := true }) (typed 11)).Runs 0 w env
      ∧ trapOf (repeated env w (stepBody 0 0 0 (.vadd 4 5 (.v 6)))) = some 1 ∧ w.onlyDooms = true :=
  ⟨runs_of_meets (by decide), runs_of_meets (by decide), runs_of_meets (by decide), runs_of_meets (by decide), runs_of_meets (by decide), by decide, by decide,
    runs_of_meets (by decide), runs_of_meets (by decide), runs_of_meets (by decide), runs_of_meets (by decide)⟩
theorem hyp_SystemAndBarriersComplete :
    (∃ w env, (mapped (scalar 4 0x100000)).Runs 0 w env ∧ env.det = false ∧ w.parked = 0 ∧ w.anyTx = false ∧ w.drain.active = w.drain.live ∧ w.drain.handler = none
      ∧ placeOf env 0x100000 128 = .global ∧ (mapped (scalar 4 0x100000)).translate env.core env.ctx 0x100000 .read = .ok (here 0x100000)
      ∧ (mapped (scalar 4 0x100000)).unreleased 0 w .fabric none = false ∧ w.scal 5 = 0 ∧ w.scal 4 ≠ 0)
    ∧ (∃ w env, (onLaunch fun x => { x with packet := setNth x.packet 2 2 }).Runs 0 w env ∧ env.cluster ≠ 1 ∧ env.det = false ∧ w.drain.active = w.drain.live)
    ∧ ∃ w env, State.reset.bench.Runs 0 w env ∧ placeOf env 0 128 ≠ .global :=
  ⟨runs_of_meets (by decide), runs_of_meets (by decide), runs_of_meets (by decide)⟩
/-- The fault of the lane records that a trap of a warp writes. -/
def recordsOf (s : State) (env : Env) (w : Warp) : Option XKind :=
  match State.writeRecords env w.countIssue.doomActive (lanesOf w.width w.live) s with
  | .ok _ => none
  | .error e => some e.1

theorem hyp_TrapsTaken :
    (∃ w env, (handled (typed 0)).Runs 0 w env ∧ w.handler = none ∧ (handled (typed 0)).handlerOf w = some 0x10080 ∧ env.stklim ≤ (w.scal 31).toNat
      ∧ (w.scal 31).toNat ≤ env.top ∧ w.anyTx = false)
    ∧ (∃ w env, (handled (mapped (typed 0))).Runs 0 w env ∧ recordsOf (handled (mapped (typed 0))) env w = none)
    ∧ (∃ w env, (handled (typed 0)).Runs 0 w env ∧ recordsOf (handled (typed 0)) env w = some .notPresent)
    ∧ ∃ w env, (handled (onWarp (fun w => w.setLane 0 { w.lane 0 with tx := some openTx }) (typed 0))).Runs 0 w env
      ∧ w.countIssue.doomActive.active &&& ~~~w.countIssue.doomActive.doomed ≠ 0 ∧ env.stklim ≤ (w.scal 31).toNat ∧ (w.scal 31).toNat ≤ env.top :=
  ⟨runs_of_meets (by decide), runs_of_meets (by decide), runs_of_meets (by decide), runs_of_meets (by decide)⟩
theorem hyp_TrapReturn : (∃ w env, State.reset.bench.Runs 0 w env ∧ w.handler = none)
    ∧ (∃ w env, (onWarp fun w => { w with handler := some ⟨0x4F, 1, 0, none, 0⟩ }).Runs 0 w env ∧ w.handler = some ⟨0x4F, 1, 0, none, 0⟩ ∧ w.stack.length = 0)
    ∧ ∃ w env, (onWarp fun w => { w with handler := some ⟨0x4F, 1, 1, none, 0⟩ }).Runs 0 w env ∧ w.handler = some ⟨0x4F, 1, 1, none, 0⟩ ∧ w.stack.length ≠ 1 :=
  ⟨runs_of_meets (by decide), runs_of_meets (by decide), runs_of_meets (by decide)⟩
/-- Whether pieces were found and lie apart from each other. -/
def apartPieces : Except (XKind × Nat) (List (Nat × Nat)) → Bool
  | .ok ps => decide (ps.Pairwise fun p q => p.1 + p.2 ≤ q.1 ∨ q.1 + q.2 ≤ p.1)
  | .error _ => false

theorem hyp_TrapEntry : (63 < trapping.drain.lanes.length ∧ inMask trapping.drain.live 1 = true ∧ inMask trapping.drain.live 63 = false)
    ∧ ∃ w env, (mapped (typed 0)).Runs 0 w env ∧ Memory.wf (mapped (typed 0)).mem = true ∧ apartPieces ((mapped (typed 0)).privPhys env .write (privWords env 1 0 32)) = true
      ∧ (match State.writeRecords env w [0] (mapped (typed 0)), State.writeRecords env w [0, 1] (mapped (typed 0)) with
        | .ok u, .ok _ => apartPieces (u.privPhys env .write (privWords env 1 0 32))
        | _, _ => false) = true := ⟨by decide, runs_of_meets (by decide)⟩
theorem hyp_ChecksTrap :
    (∃ w env, (typed 11).Runs 0 w env ∧ ElemType.inN w.typ = false)
    ∧ (∃ w env, (typed 17).Runs 0 w env ∧ ElemType.inN w.typ = true ∧ w.typ.is64 = true ∧ w.TypeOk ElemType.inN [4, 6, 8])
    ∧ (∃ w env, (onLaunch (fun x => { x with desc := { x.desc with regs := 16 } }) (typed 0)).Runs 0 w env ∧ w.TypeOk ElemType.inN [4, 5, 16]
      ∧ ¬ w.NamesOk env [4, 5, 16] ∧ readSpecial env w 0xFFF = none)
    ∧ (∃ w env, (onWarp (fun w => { w with active := 1 }) (typed 0)).Runs 0 w env ∧ w.parked = 0 ∧ w.active ≠ w.live)
    ∧ (∃ w env, (onWarp fun w => w.setLane 0 { w.lane 0 with tx := some openTx }).Runs 0 w env ∧ w.parked = 0 ∧ w.anyTx = true)
    ∧ ∃ w env, (onWarp (fun w => { w.setLane 1 { w.lane 1 with parked := some ⟨8, 0, 0⟩ } with active := 1 }) (typed 0)).Runs 0 w env ∧ w.parked ≠ 0 :=
  ⟨runs_of_meets (by decide), runs_of_meets (by decide), runs_of_meets (by decide), runs_of_meets (by decide), runs_of_meets (by decide), runs_of_meets (by decide)⟩
theorem hyp_ChecksTrap_control :
    (∃ w env, (scalar 4 2 (scalar 30 2 (scalar 31 0x50F00))).Runs 0 w env ∧ w.meld = none ∧ (w.scal 4).toNat % 4 ≠ 0 ∧ (w.scal 30).toNat % 4 ≠ 0
      ∧ env.top < (w.scal 31 + BitVec.ofInt 64 (127 * 64)).toNat ∧ modeOk ((w.scal 4).setWidth 16) = true ∧ modeOk 0x3E3 = false)
    ∧ (∃ w env, (onWarp (fun w => { w with stack := List.replicate 159 ⟨65540, 3, 65540⟩ }) (predicate 3 1)).Runs 0 w env ∧ w.counted &&& w.pred 3 ≠ 0
      ∧ w.counted &&& ~~~(w.pred 3) ≠ 0 ∧ 160 < w.stack.length + 2)
    ∧ (∃ w env, (onWarp (fun w => { w with stack := List.replicate 159 ⟨65540, 3, 65540⟩ }) (keys 5 9)).Runs 0 w env ∧ w.NamesOk env [7]
      ∧ 2 ≤ ((switchGroups (fun l => w.reg l 7) .i32 20 [(5, 12)] (lanesOf w.width w.counted)).filter fun g => !g.2.isEmpty).length)
    ∧ (∃ w env, (onWarp (fun w => { w with stack := List.replicate 158 ⟨65540, 3, 65540⟩ }) (targets 0x10080 0x10040)).Runs 0 w env
      ∧ w.callTargets 20 = [0x10040, 0x10080] ∧ 160 < w.stack.length + 2 + 1)
    ∧ (∃ w env, (onWarp fun w => { w with meld := some ⟨3, true⟩ }).Runs 0 w env ∧ w.meld = some ⟨3, true⟩ ∧ bits (0x43 : BitVec 16).toNat 3 0 = 3
      ∧ modeOk 0x43 = true ∧ w.drain.parked = 0 ∧ w.drain.meld.isSome = true)
    ∧ (∃ w env, (onWarp fun w => w.setLane 0 { w.lane 0 with tx := some openTx }).Runs 0 w env ∧ w.drain.parked = 0 ∧ w.drain.anyTx = true
      ∧ w.TypeOk ElemType.inK [4] ∧ w.TypeOk anyType [4])
    ∧ refusedInTx (.sst .b64 5 4 0) = true ∧ refusedInStretch (.split 3 true 10 20) = some 8 :=
  ⟨runs_of_meets (by decide +kernel), runs_of_meets (by decide +kernel), runs_of_meets (by decide +kernel), runs_of_meets (by decide +kernel), runs_of_meets (by decide +kernel),
    runs_of_meets (by decide +kernel), by decide, by decide⟩
theorem hyp_ScalarMemoryCompletes :
    (∃ w env, (mapped (scalar 4 1016)).Runs 0 w env ∧ privateAt (mapped (scalar 4 1016)) env .start w.lowestLive (w.scal 4) 8 1016 .read = true
      ∧ privateAt (mapped (scalar 4 1016)) env .start w.lowestLive (w.scal 4) 8 1016 .write = true ∧ lanesOf w.width w.live = [0] ∧ w.lowestLive = 0 ∧ w.anyTx = false)
    ∧ (∃ w env, (mapped (scalar 4 0x10FFF8)).Runs 0 w env ∧ (mapped (scalar 4 0x10FFF8)).Reaches env (w.scal 4) 8 .readWrite (here 0x10FFF8)
      ∧ (∀ x ∈ sectorsOf 0x10FFF8 8, (mapped (scalar 4 0x10FFF8)).lockFor 0 (x * 32) = none) ∧ isPoisoned (mapped (scalar 4 0x10FFF8)).poison 0x10FFF8 8 = false
      ∧ (mapped (scalar 4 0x10FFF8)).storeWaits env.meeting env.core 0 (here 0x10FFF8) 8 .normal false = false
      ∧ (mapped (scalar 4 0x10FFF8)).homeWaits env.meeting env.core 0 (here 0x10FFF8) 8 = false
      ∧ w.anyTx = false ∧ env.det = false ∧ (mapped (scalar 4 0x10FFF8)).unreleased 0 w .device none = false)
    ∧ (∃ w env, (quantum (mapped (scalar 4 0x100000))).Runs 0 w env ∧ env.det = true ∧ w.anyTx = false
      ∧ (quantum (mapped (scalar 4 0x100000))).Reaches env (w.scal 4) 8 .write (here 0x100000)
      ∧ (logStore (w.lane w.lowestLive).storeLog env.wlog 0x8000 0 (leBytes 8 7)).isSome = true)
    ∧ ∃ w env, (mapped (scalar 4 0x200000)).Runs 0 w env ∧ (w.scal 4).toNat % 8 = 0 ∧ placeOf env (w.scal 4).toNat 8 = .global ∧ w.anyTx = false ∧ env.det = false
      ∧ (mapped (scalar 4 0x200000)).translate env.core env.ctx (w.scal 4).toNat .read = .ok (remote 0x100000) ∧ (mapped (scalar 4 0x200000)).lostPeer 1 = false
      ∧ (mapped (scalar 4 0x200000)).translate env.core env.ctx (w.scal 4).toNat .readWrite = .ok (remote 0x100000)
      ∧ (mapped (scalar 4 0x200000)).unreleased 0 w .device none = false
      ∧ (mapped (scalar 4 0x200000)).answerTo (.warp 0) 64 1 (.load 0x100000 8) = none
      ∧ (mapped (scalar 4 0x200000)).answerTo (.warp 0) 64 1 (.atomic .add .i64 0x100000 0 0) = none :=
  ⟨runs_of_meets (by decide), runs_of_meets (by decide), runs_of_meets (by decide), runs_of_meets (by decide)⟩

/-- A state whose s4 names a page of package 1, with the answer that a peer has sent to a request of the warp. -/
def answered (op : RemoteOp) (bs : List Byte) : State := { mapped (scalar 4 0x200000) with answers := [⟨.warp 0, 64, 1, op, bs, false, 0x200000, false⟩] }

theorem hyp_ScalarMemoryCompletes_answered : (∀ op ∈ [RemoteOp.load 0x100000 8, .atomic .add .i64 0x100000 0 0], ∃ w env,
    (answered op (List.replicate 8 7)).Runs 0 w env ∧ (answered op (List.replicate 8 7)).answerTo (.warp 0) 64 1 op = some (List.replicate 8 7, false)) := by
  intro op h
  rcases List.mem_pair.mp h with rfl | rfl <;> exact runs_of_meets (by decide)

/-- Two lanes with offsets 0 and 8 in v9, and s4 at a mapped page. -/
def offsets (base : DWord) (code : Nat) : State :=
  mapped (onWarp (fun w => (w.setScal 4 base).setLane 1 ((w.lane 1).put 9 8)) (typed code))

/-- A state whose core 0 owns the line at 0x100000. -/
def owning (s : State) : State :=
  { onCore (fun c => { c with l1 := [(0x2000, waitingLine .m 0 [] 0 .normal)] }) s with dirs := [(0x2000, { DirEntry.empty with st := .m, sharers := [0] })] }

/-- `offsets` with the line there owned by the core. -/
def owned (code : Nat) : State := owning (offsets 0x100000 code)

/-- Where the lanes of `offsets` go in memory. -/
def goesTo (l : Nat) : Target := .global (0x100000 + 8 * l) (here (0x100000 + 8 * l))

theorem hyp_VectorLoadsComplete :
    (∃ w env, (owned 0).Runs 0 w env ∧ w.TypeOk anyType [255] ∧ w.NamesOk env [9, 255]
      ∧ along (fun u l => w.loadAt 0 env .normal false w.typ 255 l u (goesTo l)) (fun u l => decide (resolve u.1 env (u.2.lane l) l (w.address 4 9 l) 4 .read = .ok (goesTo l)
          ∧ (u.2.lane l).tx = none ∧ u.1.lockFor 0 (0x100000 + 8 * l) = none ∧ isPoisoned u.1.poison (0x100000 + 8 * l) 4 = false))
        (lanesOf w.width w.executing) (owned 0, w) = true)
    ∧ (∃ w env, (offsets 0xFFF0 0).Runs 0 w env ∧ resolveShared env (w.address 4 9 0) 4 = .shared 0xFFF0 ∧ resolveShared env (w.address 4 9 1) 4 = .shared 0xFFF8
      ∧ (offsets 0xFFF0 0).shmPoisoned w.team 0xFFF8 4 = false)
    ∧ ∃ w env, (offsets 0 0).Runs 0 w env ∧ w.NamesOk env [255] ∧ privateAt (offsets 0 0) env (w.lane 1) 1 64 4 64 .read = true
      ∧ (match spillTarget (offsets 0 0) env (w.lane 1) 1 (BitVec.ofNat 64 (env.base + 64)) .read with
        | .ok (.priv ps) => !(offsets 0 0).piecesBad ps
        | _ => false) = true :=
  ⟨runs_of_meets (by decide), runs_of_meets (by decide), runs_of_meets (by decide)⟩
theorem hyp_VectorStoresComplete :
    (∃ w env, (owned 17).Runs 0 w env ∧ env.det = false ∧ w.TypeOk anyType [254] ∧ w.NamesOk env [9, 254, 255]
      ∧ along (fun u l => w.storeAt 0 env .normal false (leBytes 8 (w.val w.typ l 254)) l u (goesTo l))
        (fun u l => decide (resolve u.1 env (u.2.lane l) l (w.address 4 9 l) 8 .write = .ok (goesTo l) ∧ (u.2.lane l).tx = none
          ∧ u.1.storeWaits env.meeting env.core 0 (here (0x100000 + 8 * l)) 8 .normal false = false)) (lanesOf w.width w.executing) (owned 17, w) = true)
    ∧ (∃ w env, (offsets 0xFFF0 0).Runs 0 w env ∧ resolveShared env (w.address 4 9 1) 4 = .shared 0xFFF8
      ∧ (match spillTarget (offsets 0xFFF0 0) env (w.lane 1) 1 (BitVec.ofNat 64 (env.base + 64)) .write with
        | .ok (.priv _) => true
        | _ => false) = true)
    ∧ ∃ w env, (quantum (typed 0)).Runs 0 w env ∧ env.det = true ∧ env.meeting = false ∧ (w.lane 0).tx = none
      ∧ (logStore (w.lane 0).storeLog env.wlog 0x8000 0 (leBytes 4 7)).isSome = true
      ∧ (logStore (w.lane 0).storeLog env.wlog (sharedSector 64) 0 (leBytes 4 7)).isSome = true
      ∧ (logStore ((upto 8).map fun i => (⟨i, 1, []⟩ : WriteEntry)) env.wlog 0x8000 0 (leBytes 4 7)) = none :=
  ⟨runs_of_meets (by decide), runs_of_meets (by decide), runs_of_meets (by decide)⟩
theorem hyp_GondolaStoreCompletes : ∃ w env, (offsets 0x100000 0).Runs 0 w env ∧ env.det = false ∧ gsetOk w.gset env.cluster = true ∧ w.anyTx = false
    ∧ w.TypeOk anyType [5] ∧ w.NamesOk env [9, 5]
    ∧ ∀ l ∈ lanesOf w.width w.executing, (offsets 0x100000 0).Reaches env (w.address 4 9 l) 4 .write (here (0x100000 + 8 * l))
      ∧ (offsets 0x100000 0).lockFor 0 (0x100000 + 8 * l) = none ∧ (offsets 0x100000 0).ownFirst env.core 0 (here (0x100000 + 8 * l)) 4 = false :=
  runs_of_meets (by decide)
theorem hyp_VectorAtomicsComplete : (∃ w env, (offsets 0x100000 0).Runs 0 w env ∧ env.det = false ∧ w.TypeOk ElemType.inK [5] ∧ w.anyTx = false
    ∧ w.NamesOk env (9 :: atomicNames .cas w.typ 5)
    ∧ along (fun u l => w.atomicAt .add 5 l u (goesTo l)) (fun u l => decide (resolve u.1 env (u.2.lane l) l (w.address 4 9 l) 4 .readWrite = .ok (goesTo l)
        ∧ (u.2.lane l).tx = none ∧ u.1.lockFor 0 (0x100000 + 8 * l) = none ∧ isPoisoned u.1.poison (0x100000 + 8 * l) 4 = false
        ∧ u.1.homeWaits env.meeting w.core 0 (here (0x100000 + 8 * l)) 4 = false))
      (lanesOf w.width w.executing) (offsets 0x100000 0, w) = true)
    ∧ ∃ w env, (offsets 0xFFF0 0).Runs 0 w env ∧ resolveShared env (w.address 4 9 0) 4 = .shared 0xFFF0 ∧ (offsets 0xFFF0 0).shmPoisoned w.team 0xFFF0 4 = false :=
  ⟨runs_of_meets (by decide), runs_of_meets (by decide)⟩
theorem hyp_StoresChangeOnlyTheirBytes :
    (∃ w env, (owned 0).Runs 0 w env ∧ Memory.wf (owned 0).mem = true ∧ (owned 0).children = [] ∧ w.handler = none
      ∧ (owned 0).cores.all (fun c => c.2.l1.all fun e => e.2.waiting.isEmpty) = true
      ∧ resolveScalar (owned 0) env w.lowestLive (w.scal 4) 8 .write = .ok (.global 0x100000 (here 0x100000))
      ∧ resolveScalar (owned 0) env w.lowestLive (w.scal 4) 8 .readWrite = .ok (.global 0x100000 (here 0x100000)))
    ∧ (∃ w env, (mapped (scalar 31 64)).Runs 0 w env ∧ (match spillTarget (mapped (scalar 31 64)) env (w.lane 0) 0 (w.slot 0) .write with
        | .ok (.priv ps) => !ps.isEmpty
        | _ => false) = true)
    ∧ ([(.sst .b64 5 4 0 : Instr), .satom .add .device .relaxed 6 4 5, .vst 5 4 9 .normal false false, .vatom 5 4 9 .add false].all fun i =>
      match exec i (owned 0) with
      | .next t => t.warps.all fun e => e.2.handler.isNone
      | _ => false) = true
    ∧ (match exec (.vspl 5 0) (mapped (scalar 31 64)) with
      | .next t => t.warps.all fun e => e.2.handler.isNone
      | _ => false) = true := ⟨runs_of_meets (by decide), runs_of_meets (by decide), by decide, by decide⟩
theorem hyp_OtherInstructionsKeepMemory : (match exec (.vld 5 4 9 .normal false false) (owned 0) with
    | .next t => t.warps.all fun e => e.2.handler.isNone
    | _ => false) = true ∧ (owned 0).children = [] ∧ Instr.isEncoded (.vld 5 4 9 .normal false false) = true
    ∧ (match exec (.launch 20) (mapped (onWarp (fun w => { w with active := 0 }) (typed 0))) with
      | .next _ => true
      | _ => false) = true := by decide
/-- The bench with bytes of its team's shared memory written and accumulators of 16 KiB. -/
def shared (off : Nat) (bs : List Byte) (s : State := State.reset.bench) : State :=
  onLaunch (fun x => { x with desc := { x.desc with acc := 16384 } }) (onTeam (fun t => { t with shm := putBytes t.shm off bs }) s)

/-- A tile of 16 by 16 words from accumulator word 4 on (Table 10.1). -/
def tileBytes : List Byte := leBytes 4 16 ++ leBytes 2 16 ++ leBytes 2 16 ++ List.replicate 8 0

theorem hyp_BatchesAndBarriersComplete :
    (∃ w env, State.reset.bench.Runs 0 w env ∧ w.batches.length < 16 ∧ env.det = false ∧ (w.scal 5).setWidth 16 = w.batch ∧ w.drain.batchesDone w.batch = true)
    ∧ (∃ w env, (onWarp fun w => { w with batch := 1, batches := [⟨1, [7], false⟩] }.setScal 5 1).Runs 0 w env ∧ (w.scal 5).setWidth 16 = w.batch
      ∧ w.drain.batchesDone 1 = false)
    ∧ (∃ w env, (scalar 4 0xFFF0 (scalar 3 65535)).Runs 0 w env ∧ (scalar 4 0xFFF0 (scalar 3 65535)).ObjectOk env w.drain (w.drain.scal 4) 16 16
      ∧ (scalar 4 0xFFF0).phaseReached w.drain.team 0xFFF0 false = false
      ∧ 1 ≤ (w.scal 3).toNat ∧ (w.scal 3).toNat ≤ 65535 ∧ w.anyTx = false ∧ (scalar 4 0xFFF0).unreleased 0 w .team none = false)
    ∧ (∃ w env, (shared 32 [1] (scalar 4 32)).Runs 0 w env ∧ (shared 32 [1] (scalar 4 32)).phaseReached w.drain.team 32 false = true)
    ∧ (∃ w env, (quantum (scalar 4 32)).Runs 0 w env ∧ env.det = true ∧ (quantum (scalar 4 32)).ObjectOk env w (w.scal 4) 16 16 ∧ w.anyTx = false
      ∧ (quantum (scalar 4 32)).unreleased 0 w .team none = false)
    ∧ ∃ tm, tabFind (shared 32 (leBytes 4 0 ++ leBytes 2 3 ++ leBytes 2 2)).teams 0 = some tm ∧ tm.raced.contains 32 = false
      ∧ natOfBytes ((shared 32 (leBytes 4 0 ++ leBytes 2 3 ++ leBytes 2 2)).shmBytes 0 36 2) = 3
      ∧ natOfBytes ((shared 32 (leBytes 4 0 ++ leBytes 2 3 ++ leBytes 2 2)).shmBytes 0 38 2) + 1 = 3 :=
  ⟨runs_of_meets (by decide), runs_of_meets (by decide), runs_of_meets (by decide), runs_of_meets (by decide), runs_of_meets (by decide), _, rfl, by decide,
    by decide, by decide⟩
theorem hyp_EngineOperationsIssue :
    (∃ w env, (shared 64 tileBytes (scalar 5 64)).Runs 0 w env ∧ env.det = false ∧ ((shared 64 tileBytes).core w.core).queueFull .matrix = false
      ∧ ((shared 64 tileBytes).core w.core).queueFull .copy = false ∧ w.anyTx = false ∧ w.openOps = [] ∧ w.batches.length < 16
      ∧ (shared 64 tileBytes (scalar 5 64)).ObjectOk env w (w.scal 5) 16 16 ∧ (shared 64 tileBytes (scalar 5 64)).ObjectOk env w (w.scal 5) 64 256
      ∧ tileOf? ((shared 64 tileBytes (scalar 5 64)).seenBytes w 64 16) = some ⟨16, 16, 16, 16, false⟩
      ∧ 16 + Tile.extent ⟨16, 16, 16, 16, false⟩ ≤ (shared 64 tileBytes (scalar 5 64)).accSize w ∧ 16 ≤ 32
      ∧ w.NamesOk env ((upto 16).map (240 + ·)) ∧ w.Together ∧ w.NamesOk env [253, 254, 255])
    ∧ ∃ w env, (quantum (shared 64 tileBytes (scalar 5 64))).Runs 0 w env ∧ env.det = true ∧ env.logs = true :=
  ⟨runs_of_meets (by decide), runs_of_meets (by decide)⟩

/-- The bench with its warp waiting. -/
def waiting (x : Wait) (s : State := State.reset.bench) : State := onWarp (fun w => { w with status := .waiting x }) s

/-- A warp whose lane 0 has a transaction with a read entry for sector 0x8000. -/
def reading (ver : BitVec 40) : Warp := trapping.setLane 0 { trapping.lane 0 with tx := some { openTx with reads := [⟨0x8000, ver, 0, 0, []⟩] } }

theorem hyp_SpeculativeAccesses :
    (∃ w env, State.reset.bench.Runs 0 w env ∧ (logStore openTx.writes env.wlog 0x8000 24 (leBytes 8 1)).isSome = true ∧ 24 + 8 ≤ 32
      ∧ openTx.reads.length < env.rlog ∧ (logStore ((upto 8).map fun i => (⟨i, 1, []⟩ : WriteEntry)) env.wlog 0x8000 0 (leBytes 4 7)) = none
      ∧ env.rlog ≤ ((upto 8).map fun i => (⟨i, 0, 0, 0, []⟩ : ReadEntry)).length)
    ∧ openTx.irrevocable = false ∧ openTx.writes = [] ∧ openTx.readEntry 0x8000 = none ∧ tabFind State.reset.bench.locks 0x8000 = none
    ∧ State.reset.bench.physPoison (here 0x100018) 8 = false
    ∧ (((reading 0).lane 0).tx.bind fun t => t.readEntry 0x8000).map (·.ver) = some (State.reset.bench.versionSeen 0 0x8000)
    ∧ (((reading 9).lane 0).tx.bind fun t => t.readEntry 0x8000).map (·.ver) ≠ some (State.reset.bench.versionSeen 0 0x8000) :=
  ⟨runs_of_meets (by decide), by decide, by decide, by decide, by decide, by decide, by decide, by decide⟩

/-- Two lanes with transactions open since the word before the PC. -/
def transacting (ordered : Bool) : State :=
  onWarp (fun w => { (w.setLane 0 { w.lane 0 with tx := some { openTx with ordered := ordered }, iter := 3, slalom := some 0x100000 }).setLane 1
    { w.lane 1 with tx := some { openTx with ordered := ordered }, iter := 4, slalom := some 0x100000 } with
      restart := some ⟨65520, 0, 0x4F, 3, false⟩ }) (typed 0)

/-- Two lanes in a phase of their commit, at two homes. -/
def committing (phase : Nat) : State := onWarp (fun w => { w with commit := some ⟨false, phase, [⟨0, true⟩], [], [], [7, 9], 9, 0⟩ }) (transacting false)

theorem hyp_TransactionsComplete :
    (∃ w env, (transacting false).Runs 0 w env ∧ w.drain.openLanes = [0, 1] ∧ (∀ l ∈ w.drain.openLanes, (w.drain.tx? l).map (·.ordered) = some false)
      ∧ w.drain.restart = some ⟨65520, 0, 0x4F, 3, false⟩ ∧ w.drain.stack.length = 0 ∧ (transacting false).unreleased 0 w.drain .device none = false
      ∧ (∀ l ∈ (lanesOf w.width w.executing).filter fun l => (w.tx? l).isSome, (w.lane l).speculative = true) ∧ w.NamesOk env [255])
    ∧ (∃ w env, (transacting true).Runs 0 w env ∧ (∀ l ∈ w.drain.openLanes, (w.drain.tx? l).map (·.ordered) = some true)
      ∧ (w.drain.consecutive 0 (w.drain.byIter w.drain.openLanes)).1 = []
      ∧ (w.drain.consecutive 3 (w.drain.byIter w.drain.openLanes)).1 = [0, 1])
    ∧ (∃ w env, (transacting true).Runs 0 w env ∧ (w.drain.stack.length < 160) ∧ w.drain.slalomOf (w.drain.byIter w.drain.openLanes) = 0x100000
      ∧ isPoisoned (transacting true).poison 0x100008 16 = false)
    ∧ (∃ w env, (onWarp (fun w => { w with stack := List.replicate 160 ⟨65540, 3, 65540⟩, restart := some ⟨65520, 160, 0x4F, 3, true⟩ })
        (transacting false)).Runs 0 w env ∧ w.drain.stack.head?.map (·.rpc) = some (w.drain.pc + 4) ∧ (w.drain.restart).map (·.joined) = some true)
    ∧ (transacting true).slalomField 0x100000 8 = 0
    ∧ ({ transacting true with mem := [(0x100008, 3)] } : State).slalomField 0x100000 8 = 3
    ∧ (∃ w t, tabFind ({ transacting false with clock := 1048576 } : State).warps 0 = some w ∧ w.tx? 0 = some t ∧ t.irrevocable = false ∧ t.doomed = none
      ∧ w.commit = none ∧ t.opened + 1048576 ≤ 1048576)
    ∧ (∃ w, tabFind ({ waiting .token with tokenQueue := [(0, 3)] } : State).warps 0 = some w)
    ∧ ({ waiting .token with tokenQueue := [(0, 3)] } : State).token = none
    ∧ ∀ n ∈ [0, 1, 2], ∃ w c, tabFind (committing n).warps 0 = some w ∧ w.commit = some c ∧ 7 ∈ c.slices ∧ 9 ∈ c.slices ∧ c.phase = n
      ∧ (committing n).quietSectors (w.sectorsAt (fun t => t.reads.map (·.sect)) 7 c.passing) = true
      ∧ (committing n).quietSectors (w.sectorsAt Tx.writeSet 7 c.passing) = true :=
  ⟨runs_of_meets (by decide), runs_of_meets (by decide), runs_of_meets (by decide), runs_of_meets (by decide), by decide, by decide, ⟨_, _, rfl, rfl, by decide⟩,
    ⟨_, rfl⟩, rfl, fun n h => by
      rcases List.mem_cons.mp h with rfl | h
      · exact ⟨_, _, rfl, rfl, by decide⟩
      · rcases List.mem_pair.mp h with rfl | rfl <;> exact ⟨_, _, rfl, rfl, by decide⟩⟩

/-- Two lanes with ordered transactions of an object on package 1. -/
def transactingAway : State :=
  onWarp (fun w => (w.setLane 0 { w.lane 0 with slalom := some (slalomRef (remote 0x100000)) }).setLane 1
    { w.lane 1 with slalom := some (slalomRef (remote 0x100000)) }) (transacting true)

theorem hyp_TransactionsComplete_away : (∃ w env, transactingAway.Runs 0 w env ∧ w.drain.openLanes = [0, 1] ∧ transactingAway.lostPeer 1 = false
      ∧ slalomPhys (w.drain.slalomOf (w.drain.byIter w.drain.openLanes)) = remote 0x100000 ∧ transactingAway.unreleased 0 w.drain .device none = false
      ∧ transactingAway.answerTo (.warp 0) 64 1 (.load 0x100008 16) = none)
    ∧ (∃ w env, ({ transactingAway with answers := [⟨.warp 0, 64, 1, .load 0x100008 16, List.replicate 16 0, false, 0, false⟩] } : State).Runs 0 w env
      ∧ ({ transactingAway with answers := [⟨.warp 0, 64, 1, .load 0x100008 16, List.replicate 16 0, false, 0, false⟩] } : State).answerTo (.warp 0) 64 1
        (.load 0x100008 16) = some (List.replicate 16 0, false))
    ∧ ∃ w env, ({ transacting true with locks := [(0x8000, ⟨4, 0, true, 0⟩)] } : State).Runs 0 w env
      ∧ ({ transacting true with locks := [(0x8000, ⟨4, 0, true, 0⟩)] } : State).homeWaits false env.core 0 (here 0x100000) 32 = true :=
  ⟨runs_of_meets (by decide), runs_of_meets (by decide), runs_of_meets (by decide)⟩

/-- A Slalom object with NEXT 5 and LIMIT 7 at the mapped page, named by s6. -/
def slalom : State := { mapped (scalar 6 0x100000 (scalar 4 0x10040 (withFunctions (typed 0)))) with mem := [(0x100000, 5), (0x100010, 7)] }

theorem hyp_SpawnsComplete :
    (∃ w env, slalom.Runs 0 w env ∧ env.det = false ∧ w.anyTx = false ∧ (w.scal 4).toNat % 4 = 0
      ∧ ((slalom.launchOf w).bind fun l => slalom.funcBudget l (w.scal 4).toNat) = some 100 ∧ 100 ≤ env.budget ∧ w.NamesOk env [252, 253, 254, 255]
      ∧ (w.scal 6).toNat % 32 = 0 ∧ slalom.Reaches env (w.scal 6) 8 .readWrite (here 0x100000) ∧ slalom.homeWaits env.meeting env.core 0 (here 0x100000) 24 = false
      ∧ isPoisoned slalom.poison 0x100000 24 = false ∧ lanesOf w.width w.executing = [0, 1]
      ∧ slalomTake (natOfBytes (slalom.bytesAt 0x100000 8)) (natOfBytes (slalom.bytesAt 0x100010 8)) 2 = 2 ∧ slalomTake 7 7 2 = 0
      ∧ ((slalom.core w.core).spawn w.width ⟨w.team, 0x10040, none, [], 0, 1024, false⟩ [⟨[0, 0, 0, 0], 0⟩, ⟨[0, 0, 0, 0], 0⟩]).isSome = true)
    ∧ (∃ w env, (onWarp (fun w => { w with active := 0 }) slalom).Runs 0 w env ∧ lanesOf w.width w.executing = [])
    ∧ ∃ w env, (scalar 6 0x200000 slalom).Runs 0 w env ∧ placeOf env (w.scal 6).toNat 8 = .global ∧ (scalar 6 0x200000 slalom).lostPeer 1 = false
      ∧ (scalar 6 0x200000 slalom).translate env.core env.ctx (w.scal 6).toNat .readWrite = .ok (remote 0x100000)
      ∧ (scalar 6 0x200000 slalom).answerTo (.warp 0) 64 1 (.claim 0x100000 2) = none :=
  ⟨runs_of_meets (by decide), runs_of_meets (by decide), runs_of_meets (by decide)⟩
theorem hyp_SpawnsComplete_answered : ∃ w env, ({ scalar 6 0x200000 slalom with
    answers := [⟨.warp 0, 64, 1, .claim 0x100000 2, leBytes 8 5 ++ leBytes 8 2, false, 0x200000, false⟩] } : State).Runs 0 w env
    ∧ ({ scalar 6 0x200000 slalom with answers := [⟨.warp 0, 64, 1, .claim 0x100000 2, leBytes 8 5 ++ leBytes 8 2, false, 0x200000, false⟩] } : State).answerTo
      (.warp 0) 64 1 (.claim 0x100000 2) = some (leBytes 8 5 ++ leBytes 8 2, false) ∧ fieldAt (leBytes 8 5 ++ leBytes 8 2) 8 8 = 2
    ∧ ((slalom.core w.core).spawn w.width ⟨w.team, 0x10040, some (slalomRef (remote 0x100000)), [], 0, 1024, false⟩ [⟨[0, 0, 0, 0], 5⟩, ⟨[0, 0, 0, 0], 6⟩]).isSome = true :=
  runs_of_meets (by decide)

/-- The bench's team with queue 2 of four entries of 8 bytes open, `n` entries filled, and the warp attached to it or not. -/
def queued (n : Nat) (armed attached : Bool) (requests : List Nat) : State :=
  onCore (fun c => c.setQueue 2 ⟨some 0, 256, 8, true, armed, 4, 0, n, 4 - n, if attached then 1 else 0, requests⟩)
    (onWarp (fun w => { w.setScal 4 2 with attached := if attached then 4 else 0 }) (typed 0))

theorem hyp_QueuesComplete :
    (∃ w env, (queued 2 true true []).Runs 0 w env ∧ (queued 2 true true []).queueRef env w (w.scal 4) = some ⟨0, 2, 0⟩
      ∧ ((queued 2 true true []).queueRegs ⟨0, 2, 0⟩).openFor 0 = true ∧ w.anyTx = false ∧ env.det = false
      ∧ w.NamesOk env (entryRegs ((queued 2 true true []).queueRegs ⟨0, 2, 0⟩) 254) ∧ lanesOf w.width w.executing = [0, 1]
      ∧ (queued 2 true true []).unreleased 0 w .cluster none = false ∧ w.attached.getLsbD (w.scal 4).toNat = true
      ∧ 2 ≤ ((queued 2 true true []).queueRegs ⟨0, 2, 0⟩).free ∧ w.team = 0
      ∧ (∀ j < 2, (queued 2 true true []).shmPoisoned 0 (((queued 2 true true []).queueRegs ⟨0, 2, 0⟩).slot j) 8 = false))
    ∧ (∃ w env, (queued 3 true true [5]).Runs 0 w env ∧ ((queued 3 true true [5]).queueRegs ⟨0, 2, 0⟩).requests.contains 0 = false
      ∧ ((queued 3 true true [5]).queueRegs ⟨0, 2, 0⟩).free < 2)
    ∧ (∃ w env, (queued 0 false false []).Runs 0 w env ∧ ((queued 0 false false []).queueRegs ⟨0, 2, 0⟩).closed = false ∧ w.attached.getLsbD 2 = false)
    ∧ (∃ w env, (queued 0 true false []).Runs 0 w env ∧ ((queued 0 true false []).queueRegs ⟨0, 2, 0⟩).closed = true)
    ∧ (∃ w env, (shared 32 (leBytes 4 256 ++ leBytes 2 8 ++ leBytes 2 4) (scalar 6 32)).Runs 0 w env
      ∧ (shared 32 (leBytes 4 256 ++ leBytes 2 8 ++ leBytes 2 4) (scalar 6 32)).ObjectOk env w (w.scal 6) 16 16
      ∧ (fieldAt ((shared 32 (leBytes 4 256 ++ leBytes 2 8 ++ leBytes 2 4) (scalar 6 32)).seenBytes w 32 16) 4 2) = 8 ∧ 256 + 8 * 4 ≤ env.shm
      ∧ ((shared 32 []).core w.core).queue 3 = QueueRegs.empty)
    ∧ (∃ w env, (queued 0 true false []).Runs 0 w env ∧ (((queued 0 true false []).core w.core).queue 2).owner = some w.team
      ∧ (((queued 0 true false []).core w.core).queue 2).prod = 0) :=
  ⟨runs_of_meets (by decide), runs_of_meets (by decide), runs_of_meets (by decide), runs_of_meets (by decide), runs_of_meets (by decide), runs_of_meets (by decide)⟩

/-- Two lanes whose v20:v21 name packets at 0x100040 and, misaligned, at 0x100001. -/
def packets : State := mapped (onWarp (fun w => (w.setLane 0 ((w.lane 0).put 20 0x100040)).setLane 1 ((w.lane 1).put 20 0x100001)) (typed 0))

theorem hyp_LaunchAndCollComplete : ∃ w env, packets.Runs 0 w env ∧ env.det = false ∧ w.anyTx = false ∧ w.NamesOk env [20, 21] ∧ env.depth ≠ 10
    ∧ (w.packetAddr 20 0).toNat % 64 = 0 ∧ placeOf env (w.packetAddr 20 0).toNat 64 = .global ∧ (w.packetAddr 20 1).toNat % 64 = 1
    ∧ packets.Reaches env (w.packetAddr 20 0) 64 .read (here 0x100040) ∧ isPoisoned packets.poison 0x100040 64 = false
    ∧ (∀ z ∈ sectorsOf 0x100040 64, packets.lockFor 0 (z * 32) = none) ∧ packets.ObjectOk env w (w.scal 5) 64 128
    ∧ packets.unreleased 0 w .device none = false
    ∧ packets.unreleased 0 w .fabric none = false ∧ packets.collectives.length < 64 ∧ (w.scal 6).toNat % 16 = 0 ∧ (w.scal 6).toNat + 16 ≤ env.shm := runs_of_meets (by decide)

theorem hyp_WaitsEnd : ∃ w, tabFind (waiting (.await 4 0)).warps 0 = some w ∧ w.status = .waiting (.await 4 0) ∧ (waiting (.await 4 0)).mayReturn w = true
    ∧ w.batchesDone 0 = true ∧ (∀ b ∈ w.batches, b.number ≠ 0) ∧ (∀ e ∈ (waiting (.sleep 0)).tokenQueue, e.1 ≠ 0)
    ∧ (0 : Nat) ≤ (waiting (.backoff 0)).clock ∧ (shared 32 [1] (waiting (.bwait 4 32 false))).phaseReached 0 32 false = true
    ∧ w.idleSince + (waiting (.sleep 0)).clocksOf w.core 4096 ≤ ({ waiting (.sleep 0) with clock := 4096 } : State).clock := ⟨_, rfl, by decide⟩
theorem hyp_RetriesReissue :
    (∃ w, tabFind (waiting (.retry (.afence 4))).warps 0 = some w ∧ w.status = .waiting (.retry (.afence 4)) ∧ (waiting (.retry (.afence 4))).mayReturn w = true)
    ∧ (waiting (.append (.qappend 8 4) 0 2 1) (queued 2 true true [0])).firstRequest 0 2 = some 0
    ∧ (waiting (.append (.qappend 8 4) 0 2 1) (queued 2 true true [0])).grantDue 0 2 = true
    ∧ (∃ w, tabFind (waiting (.pop (.qpop 8 4 1 2)) (queued 2 true true [])).warps 0 = some w
      ∧ (waiting (.pop (.qpop 8 4 1 2)) (queued 2 true true [])).popDue w = true)
    ∧ (∃ w, tabFind (waiting (.freeQueue 2) (queued 2 true true [])).warps 0 = some w ∧ (waiting (.freeQueue 2) (queued 2 true true [])).freeDue w = true)
    ∧ (isSpawn (.spawn 4 5) && isAfence (.afence 4) && isCopy (.tcopy none 4) && isMatrix (.accz 4) && isLaunch (.launch 4) && isColl (.coll 4 5)
      && polls (.vld 4 5 6 .normal false false)) = true
    ∧ ∃ w, tabFind (waiting (.turn true) ({ transacting true with mem := [(0x100008, 3)] })).warps 0 = some w ∧ w.status = .waiting (.turn true)
      ∧ (w.consecutive (({ transacting true with mem := [(0x100008, 3)] } : State).slalomField (w.slalomOf (w.byIter w.openLanes)) 8) (w.byIter w.openLanes)).1 ≠ [] :=
  ⟨⟨_, rfl, by decide⟩, by decide, by decide, ⟨_, rfl, by decide⟩, ⟨_, rfl, by decide⟩, by decide, _, rfl, by decide⟩

/-- A warp that waits for a page of context 0 that only memory maps: the tables of a walk with one leaf. -/
def walking (leaf : Nat) (s : State := waiting (.translation 0 0x100000 .read false)) : State :=
  { s with mem := putBytes (putBytes (putBytes [] 0x400000 (leBytes 8 0x410001)) 0x410000 (leBytes 8 0x420001)) 0x420080 (leBytes 8 leaf)
           contexts := [(0, { Context.empty with enabled := true, root := 0x400000, privBase := 0, privSize := 65536 })] }

/-- The bench after an instruction. -/
def after (i : Instr) : State := match exec i (shared 0 tileBytes) with
  | .next s => s
  | _ => State.reset

/-- Whether an operation is ready, and the run that is left of it ends with no wait. -/
def endsNow (s : State) (id : Nat) : Bool :=
  match tabFind s.ops id, tabFind s.warps 0 with
  | some o, some w => match s.env? w with
    | some env => s.opReady id o && o.fault.isNone && !o.done && o.warp == 0 && (runOp id env o s).2.2.isNone
    | none => false
  | _, _ => false

/-- A triple whose last part is known. -/
theorem triple_of_none {α β γ : Type} {x : α × β × Option γ} (h : x.2.2 = none) : x = (x.1, x.2.1, none) := by
  rw [← h]

/-- What `endsNow` decides. -/
theorem ends_of_endsNow {s : State} {id : Nat} (h : endsNow s id = true) : ∃ o w env s1 x, tabFind s.ops id = some o ∧ s.opReady id o = true ∧ o.fault = none
    ∧ o.done = false ∧ tabFind s.warps o.warp = some w ∧ s.env? w = some env ∧ runOp id env o s = (s1, x, none) := by
  unfold endsNow at h
  split at h
  · next o w ho hw =>
    split at h
    · next env he =>
      simp only [Bool.and_eq_true, Option.isNone_iff_eq_none, Bool.not_eq_true', beq_iff_eq] at h
      obtain ⟨⟨⟨⟨h1, h2⟩, h3⟩, h4⟩, h5⟩ := h
      exact ⟨o, w, env, _, _, ho, h1, h2, h3, h4 ▸ hw, he, triple_of_none h5⟩
    · cases h
  · cases h

theorem hyp_TranslationsAndOperationsFinish :
    (∃ m, (walking 0x10002F).request? 0 0 0x100000 .read = some m ∧ (walking 0x10002F).walkDue m = true)
    ∧ (walking 0x10002F).lookup 0 0 0x100000 .read = .ok (0x10002F, 2)
    ∧ (∃ m, (walking 0).request? 0 0 0x100000 .read = some m ∧ (walking 0).walkDue m = true) ∧ (walking 0).lookup 0 0 0x100000 .read = .error (.notPresent, 2)
    ∧ (walking 0x10002B).lookup 0 0 0x100000 .read = .error (.permission, 2)
    ∧ (walking 0x10000F).flagDue 0 0x100000 = true
    ∧ (∃ o w env s1 x, tabFind (after (.actld none false 4)).ops 1 = some o ∧ (after (.actld none false 4)).opReady 1 o = true ∧ o.fault = none ∧ o.done = false
      ∧ tabFind (after (.actld none false 4)).warps o.warp = some w ∧ (after (.actld none false 4)).env? w = some env
      ∧ runOp 1 env o (after (.actld none false 4)) = (s1, x, none))
    ∧ (∃ o w env s1 x, tabFind (after (.accz 4)).ops 1 = some o ∧ (after (.accz 4)).opReady 1 o = true ∧ o.fault = none ∧ o.done = false
      ∧ tabFind (after (.accz 4)).warps o.warp = some w ∧ (after (.accz 4)).env? w = some env ∧ runOp 1 env o (after (.accz 4)) = (s1, x, none))
    ∧ (match tabFind (after (.accz 4)).ops 1 with
      | some o => o.kind.queue != .act && !(after (.accz 4)).opDeterministic o && !(after (.accz 4)).opOutstanding 1 && (quantum (after (.accz 4))).opDeterministic o
      | none => false) = true
    ∧ ({ after (.accz 4) with peers := [(1, { Peer.empty with outstanding := [⟨0, .load 0 8, .op 1, 0, 0, false⟩] })] } : State).opOutstanding 1 = true :=
  ⟨⟨_, rfl, by decide⟩, by decide, ⟨_, rfl, by decide⟩, by decide, by decide, by decide, ends_of_endsNow (by decide +kernel), ends_of_endsNow (by decide +kernel), by decide,
    by decide⟩

/-- A transaction with two sectors of one home in its write log. -/
def writing : State :=
  onWarp (fun w => w.setLane 0 { w.lane 0 with tx := some { openTx with writes := [⟨0x8000, 1, []⟩, ⟨0x8001, 1, []⟩] } }) (typed 0)

theorem hyp_TransactionEvents :
    (∃ w t, tabFind ({ transacting false with clock := 1048576 } : State).warps 0 = some w ∧ w.tx? 0 = some t ∧ t.irrevocable = false ∧ t.doomed = none
      ∧ w.commit = none ∧ t.opened + 1048576 ≤ 1048576)
    ∧ (∃ w, tabFind ({ waiting .token with tokenQueue := [(0, 3)] } : State).warps 0 = some w ∧ w.status = .waiting .token)
    ∧ (∃ w, tabFind ({ State.reset.bench with tokenQueue := [(0, 3)] } : State).warps 0 = some w ∧ w.status ≠ .waiting .token)
    ∧ (∀ n ∈ [0, 1, 2, 3], ∃ w c, tabFind (committing n).warps 0 = some w ∧ w.commit = some c ∧ 7 ∈ c.slices ∧ c.phase = n
      ∧ (committing n).badRead w 7 c = none ∧ (committing n).quietSectors (w.sectorsAt (fun t => t.reads.map (·.sect)) 7 c.passing) = true
      ∧ (committing n).quietSectors (w.sectorsAt Tx.writeSet 7 c.passing) = true)
    ∧ (∃ w t, tabFind writing.warps 0 = some w ∧ w.tx? 0 = some t ∧ t.irrevocable = false
      ∧ (t.writes.map (·.sect)).filter (fun x => homeOf (x * 32) == homeOf 0x100000) = [0x8000, 0x8001] ∧ [0x8000, 0x8001].Nodup
      ∧ (∀ x ∈ [0x8000, 0x8001], tabFind writing.locks x = none)
      ∧ tabFind ({ writing with locks := [(0x8001, ⟨4, 0, false, 1⟩)] } : State).locks 0x8001 ≠ none) :=
  ⟨⟨_, _, rfl, rfl, by decide⟩, ⟨_, rfl, rfl⟩, ⟨_, rfl, by decide⟩, fun n h => by
    rcases List.mem_cons.mp h with rfl | h
    · exact ⟨_, _, rfl, rfl, by decide⟩
    rcases List.mem_cons.mp h with rfl | h
    · exact ⟨_, _, rfl, rfl, by decide⟩
    · rcases List.mem_pair.mp h with rfl | rfl <;> exact ⟨_, _, rfl, rfl, by decide⟩, ⟨_, _, rfl, rfl, by decide⟩⟩

/-- A bin of one thread whose deadline is 100. -/
def bin : SpawnBin := ⟨0, 0x10040, none, [⟨[1, 2, 3, 4], 0⟩], 0, 100, false⟩

theorem hyp_TeamEvents :
    ({ onCore (fun c => { c with bins := [bin] }) with clock := 100 } : State).timerDue 0 bin = true
    ∧ (onCore fun c => { c with sealed := [bin] }).startable 0 = some 0
    ∧ (∃ w, tabFind (onWarp fun w => { w with status := .retired }).warps 0 = some w ∧ w.status = .retired ∧ State.reset.bench.settled 0 w = true
      ∧ State.reset.bench.retireTurn w = true)
    ∧ (∃ tm, tabFind (onTeam (fun t => { t with barArrived := [0] }) (waiting .bar)).teams 0 = some tm
      ∧ (onTeam (fun t => { t with barArrived := [0] }) (waiting .bar)).barDue 0 tm = true)
    ∧ (onTeam (fun t => { t with cbarArrived := [0] }) (waiting .cbar)).cbarDue 0 0 = true
    ∧ (onTeam (fun t => { t with status := .stopping 0 }) (onWarp fun w => { w with status := .stopped })).saveDue 0 = true
    ∧ (({ onTeam (fun t => { t with status := .stopping 0 }) with clock := 2 ^ 40 } : State).overrunDue 0).isSome = true
    ∧ ((onCore fun c => { c with sealed := List.replicate 16 bin }).core 0).sealed.length = 16
    ∧ (onCore (fun c => { c with draining := true, next := some ⟨32, 0, 64, 0⟩ }) State.reset).splitDue 0 = true
    ∧ (((onCore (fun c => { c with draining := true, next := some ⟨32, 0, 64, 0⟩ }) State.reset).flushL1 0).core 0).l1 = []
    ∧ (onCore (fun c => { c with draining := true, next := some ⟨32, 0, 64, 0⟩, l1 := [(7, waitingLine .m 1 [] 0 .normal)] }) State.reset).splitDue 0 = true
    ∧ (((onCore (fun c => { c with draining := true, next := some ⟨32, 0, 64, 0⟩, l1 := [(7, waitingLine .m 1 [] 0 .normal)] }) State.reset).flushL1 0).core 0).l1 ≠ [] :=
  ⟨by decide, by decide, ⟨_, rfl, by decide⟩, ⟨_, rfl, by decide⟩, by decide, by decide, by decide, by decide, by decide, by decide, by decide, by decide⟩
theorem hyp_WarpStartState : ∃ tm x seg w, tabFind State.reset.bench.teams 0 = some tm ∧ tabFind State.reset.bench.launches tm.launch = some x
    ∧ State.reset.bench.freeSegment x [] = some seg
    ∧ tabFind (State.reset.bench.startWarp 0 0x10040 none [⟨[1, 2, 3, 4], 0⟩]).warps State.reset.bench.nextId = some w := ⟨_, _, _, _, rfl, rfl, rfl, rfl⟩
/-- A line with a directory entry and one message, resident in the L2. -/
def line (kind : MsgKind) (d : DirEntry) (mask : BitVec 128 := 0) (flag : Bool := false) : State :=
  { State.reset with
    dirs := [(7, d)], l2 := [(7, ⟨[0, 0, 0, 0], .normal, 0, false, false⟩)]
    net := [{ mkMsg kind 3 7 mask .normal with flag := flag }] }

/-- A directory entry in a state with sharers. -/
def entry (st : DirState) (sharers : List Nat) : DirEntry := { DirEntry.empty with st := st, sharers := sharers }

/-- A directory entry in state P with core 3 holding a mask. -/
def private3 (m : BitVec 128) : DirEntry := { DirEntry.empty with st := .p, holders := [(3, m)] }

/-- Whether a request of core 3 for line 7 is the next one, and the home can serve it. -/
def askedNow (s : State) (kind : MsgKind) : Bool :=
  (s.nextRequest 7 fun n => n.kind == kind && n.core == 3).isSome && s.idleLine 7 && (tabFind s.l2 7).isSome

/-- A home write of a store to line 7. -/
def posted (d : DirEntry) : State := { line .homeWrite d with net := [{ mkMsg .homeWrite 0 7 15 .normal with data := [⟨0, 0, 896, 896, [1, 2, 3, 4]⟩] }] }

theorem hyp_HomeServesRequests :
    (∀ kind ∈ [MsgKind.gets, .getm, .upg, .putm], ∀ d ∈ [entry .i [], entry .s [3], entry .s [3, 5], entry .m [3], entry .m [5]],
      askedNow (line kind d) kind = true ∧ (line kind d).dir 7 = d)
    ∧ (∀ d ∈ [entry .i [], entry .s [3], entry .m [3]], askedNow (line .gets d 1 true) .gets = true)
    ∧ (line .gets { entry .s [3] with awaiting := [5], action := some .toS }).idleLine 7 = false
    ∧ tabFind ({ line .gets (entry .i []) with l2 := [] } : State).l2 7 = none
    ∧ (entry .s [3]).copies.filter (· != 3) = [] ∧ (entry .s [3, 5]).copies.filter (· != 3) = [5] ∧ (entry .s [3]).isSharer 3 = true
    ∧ ((entry .m [5]).countUpgrade 0).contended = false ∧ (({ entry .m [5] with contended := true }).countUpgrade 0).contended = true
    ∧ askedNow (line .getm (private3 1) 2) .getm = true ∧ askedNow (line .gets { private3 1 with holders := [(5, 1)] } 2) .gets = true
    ∧ (∀ kind ∈ [MsgKind.maskExt, .putmm], askedNow (line kind (private3 1) 2) kind = true ∧ ((line kind (private3 1)).dir 7).st = .p)
    ∧ (private3 1).holds 3 = true ∧ (private3 1).holds 5 = false ∧ (2 : BitVec 128) &&& (private3 1).otherMask 3 = 0 ∧ (1 : BitVec 128) &&& (private3 1).otherMask 5 ≠ 0
    ∧ (2 : BitVec 128) &&& (private3 1).otherMask 5 = 0
    ∧ (∀ d ∈ [entry .i [], entry .s [3], entry .m [5]], ((posted d).nextRequest 7 fun n => n.kind == .homeWrite && n.mask == 15).isSome = true
      ∧ (posted d).idleLine 7 = true ∧ (posted d).lockFor 0 896 = none ∧ (posted d).net.all (fun n => n.targets.isEmpty && !n.data.isEmpty) = true) := by decide

theorem hyp_HomeServesRequests_targets :
    (∀ c ∈ [[3], [3, 5]], ((({ posted (entry .s c) with net := [{ mkMsg .homeWrite 0 7 15 .normal with targets := [3], data := [⟨0, 0, 896, 896, [1]⟩] }] } : State)).nextRequest 7
        fun n => n.kind == .homeWrite && n.mask == 15).map (fun m => (entry .s c).copies.filter fun x => !m.targets.contains x) = some (c.filter (· == 5)))
    ∧ (tabFind (posted (entry .s [3])).l2 7).isSome = true := by decide

/-- The bench with one message to core 0 about line 7, which stands in its L1 or not. -/
def pushed (l1 : Tab L1Line) (split : Option Split) : State :=
  { onCore (fun c => { c with l1 := l1, split := split }) with net := [mkMsg .push 0 7 0 .normal] }

theorem hyp_HomeFinishesAndPushes :
    (∀ a ∈ [[3], [3, 5]], ((line .ack { entry .s [5] with awaiting := a, action := some (.datam 9) }).message? .ack 3 7).isSome = true
      ∧ ((line .ack { entry .s [5] with awaiting := a, action := some (.datam 9) }).dir 7).action = some (.datam 9))
    ∧ [3].filter (· != 3) = [] ∧ [3, 5].filter (· != 3) ≠ [] ∧ ((line .ack (entry .s [5])).dir 7).action = none
    ∧ ({ State.reset with mscFills := [⟨7, .keep, true, false⟩] } : State).mscFills.find? (fun e => e.line == 7) = some ⟨7, .keep, true, false⟩
    ∧ ({ State.reset with mscFills := [⟨7, .keep, true, false⟩] } : State).l2Victim 7 = none ∧ tabFind State.reset.l2 7 = none
    ∧ ((pushed [] none).message? .push 0 7).isSome = true
    ∧ (({ State.reset.bench with net := (line .pushAck (entry .s [3]) 0 true).net } : State).message? .pushAck 3 7).map (·.warp) = some 0
    ∧ (tabFind State.reset.bench.warps 0).isSome = true ∧ State.reset.hasTeamOf 3 0 = false
    ∧ (pushed [(7, waitingLine .s 0 [] 0 .normal)] none).hasTeamOf 0 0 = true ∧ ((pushed [(7, waitingLine .s 0 [] 0 .normal)] none).l1Line 0 7).map (·.st) = some .s
    ∧ (pushed [] none).hasTeamOf 0 0 = true ∧ (pushed [] none).l1Line 0 7 = none ∧ (pushed [] none).pushQuota 0 ≤ (pushed [] none).untouched 0
    ∧ (pushed [] (some ⟨16, 16, 56, 8⟩)).untouched 0 < (pushed [] (some ⟨16, 16, 56, 8⟩)).pushQuota 0 := by decide

theorem hyp_HomeFinishesAndPushes_outstanding :
    (∀ st ∈ [L1State.is, .s, .im], ((pushed [(7, waitingLine st 0 [] 0 .normal)] none).l1Line 0 7).map (·.st) = some st
      ∧ (pushed [(7, waitingLine st 0 [] 0 .normal)] none).hasTeamOf 0 0 = true)
    ∧ ({ pushed [] none with net := [mkMsg .gets 0 7 0 .normal] } : State).hasGets 0 7 = true ∧ (pushed [] none).hasGets 0 7 = false
    ∧ ({ pushed [] none with net := [mkMsg .gets 0 7 0 .normal] } : State).l1Line 0 7 = none := by decide

/-- An L1 line of core 3 in a state, with one message for it, and stores that wait in it. -/
def copyOf (kind : MsgKind) (st : L1State) (flag : Bool := false) (ws : List WaitingStore := []) : State :=
  (line kind DirEntry.empty 0 flag).setL1 3 7 (waitingLine st 0 ws 0 .normal)

theorem hyp_L1Messages :
    (∀ p ∈ [(MsgKind.data, L1State.is), (.data, .isI), (.datam, .im), (.datam, .sm), (.upgack, .sm), (.upgack, .mmWait), (.putack, .mi), (.inv, .s), (.inv, .is), (.inv, .sm),
      (.recallS, .m), (.recallI, .m), (.recallP, .m), (.mergeRecall, .mm), (.mergeRecall, .mmWait)],
      ((copyOf p.1 p.2).message? p.1 3 7).isSome = true ∧ ((copyOf p.1 p.2).l1Line 3 7).map (·.st) = some p.2)
    ∧ (∀ f ∈ [true, false], ((copyOf .data .is f).message? .data 3 7).map (·.flag) = some f)
    ∧ ((copyOf .data .is).l1Line 3 7).map (fun x => (x.waiting, x.want)) = some ([], 0)
    ∧ ((copyOf .data .is false [⟨0, 0, 896, 896, [1]⟩]).l1Line 3 7).map (fun x => x.waiting.isEmpty) = some false
    ∧ (∀ k ∈ [MsgKind.recallS, .recallI, .recallP, .mergeRecall], (copyOf k .m).granting 3 7 = false
      ∧ (∀ m, (copyOf k .m).message? k 3 7 = some m → ∀ n ∈ ((copyOf k .m).take m).net ++ ((copyOf k .m).take m).arrived, n.kind ≠ .putmm))
    ∧ (copyOf .datam .im).granting 3 7 = true ∧ (line .inv DirEntry.empty).l1Line 3 7 = none := by
  refine ⟨by decide, by decide, by decide, by decide, ?_, by decide, by decide⟩
  intro k h
  simp only [List.mem_cons, List.not_mem_nil, or_false] at h
  rcases h with rfl | rfl | rfl | rfl <;> exact ⟨by decide, fun m e => by cases e; decide⟩
theorem hyp_L1Messages_satisfied : ({ copyOf .data .is with net := [{ mkMsg .data 3 7 0 .normal with targets := [3] }] } : State).message? .data 3 7
    = some { mkMsg .data 3 7 0 .normal with targets := [3] } := by decide
theorem hyp_ReliabilityEvents : (tabFind State.reset.bench.teams 0).isSome = true ∧ State.reset.boot = .off ∧ State.reset.bench.boot = .running
    ∧ ({ State.reset with boot := .limited } : State).boot = .limited
    ∧ (State.reset.islandDown fun _ => true).isSome = true ∧ (State.reset.islandDown fun j => decide (j / 64 = 3) || decide (8 ≤ 3)).isSome = true
    ∧ ({ State.reset with islands := (upto 512).map fun i => (i, 800) } : State).islandDown (fun _ => true) = none
    ∧ (({ State.reset with islands := [(0, 1550)] } : State).islandUp).isSome = true := by decide +kernel
theorem hyp_ReliabilityEvents_image (image : List Byte) :
    Config.verifies image Config.fusedKeyHash = true ∨ Config.verifies image Config.fusedKeyHash = false := by
  cases Config.verifies image Config.fusedKeyHash <;> simp

/-- Package 0 with package 1 as a peer on port 2, which is up. -/
def joined : State :=
  { State.reset.bench with
    packageId := some 0, members := 3, ports := setNth (List.replicate 8 false) 2 true
    peers := [(1, { Peer.empty with member := true, paths := (upto 8).map fun i => { Path.empty with up := i == 2 }
                                    outstanding := [⟨4, .load 0x100000 8, .warp 0, 64, 0x200000, false⟩] })] }

/-- Stream 5 of context 0 with a packet of a KIND at its head. -/
def headed (kind : Nat) (rest : List Byte := List.replicate 63 0) : State :=
  { State.reset.bench with
    queues := [(5, { Queue.empty with
      ring := 0x100000, size := 64, enabled := true, tail := 1, current := some ⟨BitVec.ofNat 8 kind :: rest, some 0, none, false⟩ })] }

/-- A COPY of eight bytes within the mapped page. -/
def copyPacket : List Byte := 6 :: List.replicate 7 0 ++ leBytes 8 0x100000 ++ leBytes 8 0x100100 ++ leBytes 8 8 ++ List.replicate 32 0

/-- Stream 5 with a COPY that has begun. -/
def copying : State := walking 0x10002F { headed 1 with queues := [(5, { (headed 1).stream 5 with inFlight := [.copy 3 copyPacket 0 none] })] }

/-- Whether what is left of stream 5's COPY moves at once. -/
def copiesNow (s : State) : Bool :=
  let r := s.copyRun (s.stream 5).ctx (copyTag 5 3) copyPacket (fieldAt copyPacket 0x18 8 + 1) 0
  r.2.2.isNone && decide (fieldAt copyPacket 0x18 8 ≤ r.2.1) && !r.1.tagsOut (copyTag 5 3) (2 ^ 64)

/-- What `copiesNow` decides. -/
theorem copies_of_copiesNow {s : State} (h : copiesNow s = true) : ∃ s2 k,
    s.copyRun (s.stream 5).ctx (copyTag 5 3) copyPacket (fieldAt copyPacket 0x18 8 + 1) 0 = (s2, k, none) ∧ fieldAt copyPacket 0x18 8 ≤ k
    ∧ s2.tagsOut (copyTag 5 3) (2 ^ 64) = false := by
  simp only [copiesNow, Bool.and_eq_true, Option.isNone_iff_eq_none, decide_eq_true_eq, Bool.not_eq_true'] at h
  exact ⟨_, _, triple_of_none h.1.1, h.1.2, h.2⟩

/-- Stream 0 with a launch of two teams, of which none has been placed. -/
def placing (det : Bool) : State :=
  let s := { State.reset.bench with teams := [], warps := [], queues := [(0, { Queue.empty with enabled := true })] }
  onLaunch (fun x => { x with dispatched := 0 }) (if det then quantum s else s)

theorem hyp_PacketsStart :
    (∀ kind ∈ [1, 2, 3, 4, 5, 6], ((headed kind).headOf 5 kind).isSome = true)
    ∧ fieldAt (4 :: [0, 2]) 2 1 = 2 ∧ ({ State.reset.bench with children := [⟨[1], 0, 2, 5, 0⟩] } : State).firstChild 5 = some ⟨[1], 0, 2, 5, 0⟩
    ∧ (tabFind State.reset.bench.launches 0).isSome = true ∧ (copying.stream 5).copying = some (3, copyPacket, 0, none)
    ∧ ∃ s2 k, copying.copyRun (copying.stream 5).ctx (copyTag 5 3) copyPacket (fieldAt copyPacket 0x18 8 + 1) 0 = (s2, k, none)
      ∧ fieldAt copyPacket 0x18 8 ≤ k ∧ s2.tagsOut (copyTag 5 3) (2 ^ 64) = false :=
  ⟨by decide, by decide, by decide, by decide, by decide, copies_of_copiesNow (by decide)⟩
theorem hyp_PacketsStart_turn : (headed 2).nextAction = some (5, .start) := by decide +kernel
theorem hyp_PacketsStart_team : ((placing false).nextAction.map fun a => match a.2 with
    | .team id n _ => decide (a.1 = 0 ∧ id = 0 ∧ n = 0)
    | _ => false) = some true := by decide +kernel
theorem hyp_PacketsStart_wave : (placing true).nextAction = some (0, .wave 0) := by decide +kernel

/-- A WINDOW packet of an OP for window 2 of 64 KiB at the mapped page. -/
def windowPacket (op : Nat) : List Byte :=
  4 :: 0 :: BitVec.ofNat 8 op :: 2 :: List.replicate 4 0 ++ leBytes 8 0x100000 ++ leBytes 8 0x10000 ++ List.replicate 40 0

/-- Stream 5 under a context whose tables map page 16, with a limit for pinned windows. -/
def windowed : State :=
  let s := walking 0x10002F (headed 4)
  { s with contexts := s.contexts.map fun e => (e.1, { e.2 with pinLim := 4 }) }

/-- An INVALIDATE packet of the mapped page. -/
def invalidatePacket : List Byte := 5 :: List.replicate 7 0 ++ leBytes 8 0x100000 ++ leBytes 8 0x10000 ++ List.replicate 40 0

theorem hyp_PacketsStart_effects :
    windowFieldsOk (windowPacket 1) = true ∧ fieldAt (windowPacket 1) 2 1 = 1 ∧ windowFieldsOk (setNth (windowPacket 1) 4 7) = false
    ∧ windowed.flagsHeld 0 0x100000 0x10000 = false ∧ (windowed.newWindow 0 2 true 0x100000 0x10000).isSome = true
    ∧ windowed.newWindow 0 64 true 0x100000 0x10000 = none
    ∧ tabFind ({ windowed with windows := [(2, ⟨0, 0x100000, 0x10000, true, [16]⟩)] } : State).windows (fieldAt (windowPacket 2) 3 1) =
      some ⟨0, 0x100000, 0x10000, true, [16]⟩
    ∧ tabFind windowed.windows (fieldAt (windowPacket 2) 3 1) = none
    ∧ (({ windowed with msc := [(0x2000, ⟨.pin, 0, false⟩)] } : State).dropWindow 2 ⟨0, 0x100000, 0x10000, true, [16]⟩).msc = [(0x2000, ⟨.cls .normal, 0, false⟩)]
    ∧ restZero invalidatePacket [(0, 2), (8, 16), (0x30, 8)] = true ∧ rangeCanonical 0x100000 0x10000 = true ∧ invalidateRange invalidatePacket = some (0x100000, 0x10000)
    ∧ (windowed.invalidate 0 (some (0x100000, 0x10000))).accessesDone 0 0 (some (0x100000, 0x10000)) = true
    ∧ (({ windowed with net := [{ mkMsg .homeWrite 0 0x2000 15 .normal with data := [⟨0, 0, 0x100000, 0x100000, [1]⟩] }] } : State).invalidate 0
        (some (0x100000, 0x10000))).accessesDone 0 0 (some (0x100000, 0x10000)) = false
    ∧ copyFieldsOk copyPacket = true ∧ copyFieldsOk (setNth copyPacket 0x20 9) = false := by decide +kernel

/-- A WAIT for one event to reach a count. -/
def waitPacket (n : Nat) : List Byte := 2 :: 0 :: 1 :: List.replicate 5 0 ++ leBytes 8 0x100000 ++ List.replicate 24 0 ++ leBytes 4 n ++ List.replicate 20 0

/-- A completion event at a stage. -/
def signalAt (va : Nat) (g : SignalStage) : Signal := ⟨4, none, 0, some va, 0, 3, 1, none, g⟩

theorem hyp_PacketsComplete :
    restZero (3 :: List.replicate 63 0) [(0, 2), (8, 16)] = true
    ∧ (walking 0x10002F (headed 2)).waitBad 0 (waitPacket 0) = false
    ∧ (walking 0x10002F (headed 2)).waitHolds 5 0 (waitPacket 0) = true ∧ (walking 0x10002F (headed 2)).waitHolds 5 0 (waitPacket 9) = false
    ∧ (walking 0x10002F (headed 2)).tagsOut (signalTag 4) 1 = false ∧ (signalAt 0x100008 .status).va = some 0x100008 ∧ 0x100008 % 16 ≠ 0
    ∧ ((walking 0x10002F (headed 2)).frontWrite 0 (signalTag 4) 0x100008 (leBytes 8 0x0300)).toOption.isSome = true
    ∧ ((walking 0x10002F (headed 2)).setFlags 0 0x100000 8).translateFront 0 0x100000 .readWrite = some (here 0x100000)
    ∧ ((walking 0x10002F (headed 2)).setFlags 0 0x100000 8).heldBack 0x100000 8 = false
    ∧ isPoisoned ((walking 0x10002F (headed 2)).setFlags 0 0x100000 8).poison 0x100000 8 = false
    ∧ ((walking 0x1001BF joined).setFlags 0 0x100000 8).translateFront 0 0x100000 .readWrite = some (remote 0x100000)
    ∧ ((walking 0x1001BF joined).setFlags 0 0x100000 8).lostPeer 1 = false := by decide
/-- Stream 5 with a head packet that has been ready since clock 0. -/
def onStream : State := { headed 1 with queues := [(5, { (headed 1).stream 5 with cls := 3 })] }

/-- The bench's launch with no team left, and a completion event. -/
def ended : State :=
  onLaunch (fun x => { x with packet := x.packet.take 0x30 ++ leBytes 8 0x100000 ++ x.packet.drop 0x38 }) { State.reset.bench with teams := [], warps := [] }

theorem hyp_StreamEvents :
    (headed 1).streamOpen ((headed 1).stream 5) = true
    ∧ (∃ e, ({ headed 1 with queues := [(5, { (headed 1).stream 5 with tail := 99 })] } : State).headError 5 = some e)
    ∧ (tabFind (headed 1).queues 5).isSome = true ∧ (headed 1).tailWord 5 = 0 ∧ ((headed 1).stream 5).tail ≠ 0
    ∧ 64 < ({ (headed 1).stream 5 with tail := 99 } : Queue).tail - ((headed 1).stream 5).head ∧ ((headed 1).stream 5).size = 64
    ∧ ((0, 0x100000) : Nat × Nat) ∈ ({ headed 2 with watched := [(0, 0x100000)] } : State).watched.take 4096
    ∧ ({ onStream with clock := 2 ^ 40 } : State).agingDue 5 = true
    ∧ ∃ x, tabFind ended.launches 0 = some x ∧ ended.gridDone 0 x = true ∧ x.record = none ∧ x.field 0x30 8 = 0x100000 :=
  ⟨by decide, ⟨3, by decide⟩, by decide, by decide, by decide, by decide, by decide, by decide, by decide, _, rfl, by decide⟩
theorem hyp_QuantaAndMeetings :
    (∃ w, tabFind (quantum (onWarp fun w => { w with count := 256 })).warps 0 = some w ∧ w.status = .ready ∧ 256 ≤ w.count)
    ∧ (∃ w env, (quantum State.reset.bench).Runs 0 w env ∧ env.det = true ∧ w.parked = 0 ∧ w.anyTx = false ∧ w.drain.active = w.drain.live ∧ w.drain.handler = none
      ∧ w.scal 5 = w.batch.setWidth 64 ∧ w.TypeOk ElemType.inK [4] ∧ w.NamesOk env [9, 4])
    ∧ (∃ w env, (quantum (onLaunch fun x => { x with packet := setNth x.packet 2 2 })).Runs 0 w env ∧ env.cluster ≠ 1)
    ∧ (∃ w env, (quantum (shared 64 tileBytes (scalar 5 64))).Runs 0 w env ∧ w.anyTx = false ∧ w.scal 5 ≠ 0
      ∧ (quantum (shared 64 tileBytes (scalar 5 64))).ObjectOk env w (w.scal 5) 64 256
      ∧ (quantum (shared 64 tileBytes (scalar 5 64))).ObjectOk env w.drain (w.drain.scal 5) 16 16)
    ∧ (quantum (waiting (.meeting none))).meetingDue 0 = true := ⟨⟨_, rfl, by decide⟩, runs_of_meets (by decide), runs_of_meets (by decide), runs_of_meets (by decide), by decide⟩

/-- A code unit of 256 bytes at offset 0: a kernel (Table 18.7). -/
def unitBytes : List Byte := leBytes 4 0 ++ leBytes 4 256 ++ leBytes 2 64 ++ leBytes 2 2 ++ leBytes 4 0

theorem hyp_ManagementCommands :
    State.reset.bench.boot = .running ∧ ({ State.reset.bench with mgmtUp := true } : State).command = none ∧ State.reset.bench.frozen = false
    ∧ contextEntryOk (List.replicate 128 0) = true ∧ (State.reset.bench.context 1).enabled = false ∧ (State.reset.bench.context 0).enabled = true
    ∧ bit (fieldAt (List.replicate 128 0) 0x1D 1) 0 = false ∧ (State.reset.bench.findRegion 0 65536).isSome = true
    ∧ (unitsOf unitBytes).isSome = true ∧ unitsFit 65536 ((unitsOf unitBytes).getD []) = true
    ∧ ((walking 0x100037 State.reset.bench).codeFrames 0 0x100000 (regionPages 65536)).isSome = true
    ∧ (∀ c ∈ State.reset.bench.pruneCode.regionsOf 0, 0x100000 + 65536 ≤ c.base ∨ c.base + c.len ≤ 0x100000)
    ∧ (State.reset.bench.pruneCode.findRegion 0 65536).isSome = true
    ∧ (onTeam (fun t => { t with status := .stopping 0 }) (onWarp fun w => { w with status := .stopped })).liveWarps 0 ≠ []
    ∧ ((onTeam (fun t => { t with status := .stopping 0 }) (onWarp fun w => { w with status := .stopped })).liveWarps 0).all (fun e => e.2.status == .stopped) = true
    ∧ queueEntryOk (List.replicate 64 0) = true ∧ (({ State.reset with faults := [(4, ⟨0, 0, 0, 0, 0, 0, 0⟩)] } : State).findReport 4).isSome = true
    ∧ (onTeam (fun t => { t with status := .saved }) (onWarp fun w => { w with status := .retired })).liveWarps 0 = []
    ∧ domainOk 3 0xC [(2, 5)] (1, 2) = true
    ∧ State.reset.bench.boot ≠ .limited ∧ ({ State.reset.bench with frozen := true } : State).frozen = true
    ∧ ({ State.reset with boot := .verifying, mgmtUp := true } : State).boot = .verifying ∧ ({ State.reset with boot := .limited, mgmtUp := true } : State).boot = .limited
    ∧ (List.replicate 32 (0 : Byte)).length = 32
    ∧ ((State.reset.bench.code[0]?).bind fun c => tabFind c.versions c.current).isSome = true
    ∧ ((State.reset.bench.code[0]?).map fun c => (c.versions.filter fun y => State.reset.bench.pruneCode.bound 0 y.1).length) = some 1 := by decide +kernel
/-- How an access of the front end to a range has ended: done, refused, or waiting. -/
def ended? {α : Type} : Except FrontStop α → Nat
  | .ok _ => 0
  | .error .bad => 1
  | .error _ => 2

theorem hyp_RdmaRequests :
    State.reset.bench.keyOk 0 = true ∧ State.reset.bench.keyOk 1 = false
    ∧ (((walking 0x10002F State.reset.bench).rangeWrite 0 (pairTag 9) 0x100000 (leBytes 8 5)).toOption.map fun t => t.tagsOut (pairTag 9) (2 ^ 140)) = some false
    ∧ (((walking 0x1001BF joined).rangeWrite 0 (pairTag 9) 0x100000 (leBytes 8 5)).toOption.map fun t => t.tagsOut (pairTag 9) (2 ^ 140)) = some true
    ∧ ended? ((walking 0x10002F State.reset.bench).rangeWrite 0 (pairTag 9) 0x200000 (leBytes 8 5)) = 1
    ∧ ended? ((walking 0x10002F State.reset.bench).rangeRead 0 (pairTag 9) 0x200000 8) = 1
    ∧ (((walking 0x10002F State.reset.bench).rangeRead 0 (pairTag 9) 0x100000 8).toOption.map fun x => x.2.2) = some false
    ∧ ((({ walking 0x10002F State.reset.bench with poison := [0x20000] } : State).rangeRead 0 (pairTag 9) 0x100000 8).toOption.map fun x => x.2.2) = some true
    ∧ (walking 0x10002F State.reset.bench).frontPlace 0 0x100000 8 = .ok (here 0x100000)
    ∧ isPoisoned (((walking 0x10002F State.reset.bench).walkRange 0 0x100000 8).remoteTouch 0x100000 8).poison 0x100000 8 = false := by decide +kernel

/-- The header of a frame of a TYPE from package 1. -/
def header (typ reqid : Nat) : KltHeader := ⟨1, typ, 1, 0, 2, 0, 0, 0, reqid, true⟩

theorem hyp_FabricEvents_oversize : ∃ bs, 4096 < RemoteOp.payload (.store 0 bs false) := by
  have h : ∀ n, RemoteOp.payload (.store 0 (List.replicate n 0) false) = n := fun n => List.length_replicate
  exact ⟨List.replicate (64 * 65) 0, by rw [h]; decide⟩
theorem hyp_FabricEvents :
    nth joined.ports 3 false = false ∧ nth joined.ports 2 false = true ∧ (∀ t ∈ [1, 2, 5], joined.headerOk (header t 9) t = true)
    ∧ (∀ t ∈ [3, 4, 6], joined.headerOk (header t 0) t = true) ∧ joined.heldBack 0x100000 8 = false ∧ RemoteOp.payload (.load 0x100000 8) ≤ 4096
    ∧ joined.headerOk { header 1 9 with reserved := 1 } 1 = false ∧ remoteInside (.load (2 ^ 40 - 8) 8) = true
    ∧ (((joined.takeAck (header 1 9)).peer 1).path 2).ackSeq = 0
    ∧ ((joined.peer 1).outstanding.find? fun z => z.reqid == 4).isSome = true ∧ (joined.peer 1).performed.contains 9 = false
    ∧ ({ Path.empty with up := true, unacked := [(0, ⟨1, 0, .request (.load 0 8)⟩)] } : Path).resendDue (2 ^ 40) = true
    ∧ ({ joined with clock := 1600000, peers := [(1, { Peer.empty with member := true })] } : State).peerLate 1 = true := by decide
/-- The bench after a `COLL` whose descriptor is refused. -/
def started : State := match exec (.coll 6 5) (shared 0 (List.replicate 4 255)) with
  | .next s => s
  | _ => State.reset

theorem hyp_FabricEvents_collective : (match tabFind started.collectives 1 with
    | some c => started.collReady 1 c && !c.done && !started.collDeterministic c && (quantum started).collDeterministic c
    | none => false) = true := by decide +kernel

/-! ### The step -/

theorem hyp_StepRunsDecoded :
    (let s := State.reset.withFetchWord 32 0x54412346
     match s.turnWarp with
     | some (k, w, x) => !s.stopsNow w && !w.handlerDue && !w.settled.handlerDue && !s.restartDue k w.settled && (match s.fetch x w.settled with
       | .ok ws => (decodeWords ws).toOption.isSome && (s.fetchBad x w.settled ws.length).isNone
        && ({ s with poison := [w.pc.toNat / 8] }.fetchBad x w.settled ws.length).isSome
       | .error _ => false)
     | none => false) = true
    ∧ State.reset.turnWarp.isNone = true ∧ State.reset.nextInput = none ∧ ({ State.reset with agenda := [.powerUp] } : State).nextInput = some .powerUp := by
  decide
theorem hyp_StepKeepsInvariant : (State.reset.withFetchWord 32 0x54412346).Inv ∧ (match step (State.reset.withFetchWord 32 0x54412346) with
    | .next _ => true
    | _ => false) = true := ⟨rfl, by decide⟩
theorem hyp_DecodeEncode : ∀ i ∈ [Instr.vadd 255 255 (.v 255), .salui .addi 31 31 (-2048), .jmp (-16777216), .rep 63 true true true 3 (.vadd 0 0 (.v 0)),
    .switch 255 .n32 (List.replicate 8 (65535, -32768)) 32767 (-32768)], i.isEncoded = true ∧ i.wellFormed = true := by decide
theorem hyp_DecodeSound : ∃ d, (∀ x ∈ [0x6E4C0000, 0x00000011, 0x08040000], x < 2 ^ 32) ∧ decodeWords [0x6E4C0000, 0x00000011, 0x08040000] = .ok d :=
  ⟨_, by decide, rfl⟩
/-! ### One step on small states; each expected value is worked out by hand from the rule named -/

/-- The state after an instruction of the bench's warp. -/
def run (i : Instr) (s : State) : State := match exec i s with
  | .next t => t
  | _ => State.reset

/-- The bench's warp in a state, after its pending results. -/
def warp (s : State) : Warp := ((tabFind s.warps 0).getD trapping).drain

/-- Two lanes under a type, lane 0 with v4 and v5 written. -/
def pair (code : Nat) (a b : Word) : State := onWarp (fun w => w.setLane 0 (((w.lane 0).put 4 a).put 5 b)) (typed code)

/-- Register v6 of lane 0 after an instruction. -/
def result (i : Instr) (s : State) : Word := (warp (run i s)).reg 0 6

theorem test_step_slui : ((step (State.reset.withFetchWord 32 0x54412346) |> fun
    | .next t => some ((warp t).scal 4, (warp t).pc)
    | _ => none) : Option (DWord × DWord)) = some (0x12346000, 65540) := by decide -- R94
theorem test_add_wraps : result (.vadd 6 4 (.v 5)) (pair 0 0xFFFFFFFF 2) = 1 := by decide -- R53
theorem test_sub_wraps : result (.vsub 6 4 (.v 5)) (pair 1 0 1) = 0xFFFFFFFF := by decide -- R53
theorem test_mul_low : result (.vmul 6 4 (.v 5)) (pair 0 0x10001 0x10001) = 0x20001 := by decide -- R53
theorem test_mulh : result (.vmulh 6 4 (.v 5)) (pair 0 0x80000000 0x80000000) = 0x40000000 := by decide -- R126: (−2^31)² / 2^32
theorem test_add_saturates : result (.vadd 6 4 (.v 5)) (onWarp (fun w => { w with mode := w.mode ||| 0x2000 }) (pair 7 0x7F80017F 0x01FF0101)) = 0x7F80027F := by
  decide -- R53, i8x4: 127 + 1, −128 − 1, 1 + 1, 127 + 1
theorem test_add_f32 : result (.vadd 6 4 (.v 5)) (pair 2 0x3FC00000 0x40100000) = 0x40700000 := by decide -- R47: 1.5 + 2.25
theorem test_mul_f32_inexact : bits (warp (run (.vmul 6 4 (.v 5)) (pair 2 0x3F800001 0x3F800001))).fpctl.toNat 12 8 = 16 := by decide -- R18: (1 + 2^−23)²
theorem test_div_zero : result (.vrcp 6 4 false) (pair 2 0 0) = 0x7F800000 := by decide -- R138: 1 / +0
theorem test_shift_of_width : result (.vshl 6 4 (.v 5)) (pair 0 1 32) = 0 ∧ result (.vsra 6 4 (.v 5)) (pair 0 0x80000000 40) = 0xFFFFFFFF := by decide -- R128
theorem test_clz_of_zero : result (.vclz 6 4 false) (pair 0 0 0) = 32 := by decide -- R129
theorem test_movi_sign : result (.vmovi 6 0x8000 false) (pair 0 0 0) = 0xFFFF8000 := by decide -- R134
theorem test_convert_clamps : result (.vcvt 6 4 .i8x4) (pair 2 0x43800000 0) = 0x7F := by decide -- R54: 256.0 to i8
theorem test_and_broadcast : result (.vand 6 4 (.s 7)) (scalar 7 0xFF00FF (pair 0 0x12345678 0)) = 0x340078 := by decide -- R71, R129
theorem test_redadd : result (.vredadd 6 4 false) (onWarp (fun w => w.setLane 1 ((w.lane 1).put 4 9)) (pair 0 5 0)) = 14 := by decide -- R144
theorem test_ballot : (warp (run (.vballot 6 3) (predicate 3 2))).reg 0 6 = 2 ∧ (warp (run (.vballot 6 3) (predicate 3 2))).reg 0 7 = 0 := by decide -- R146
theorem test_guard : result (.vadd 6 4 (.v 5)) (onWarp (fun w => { w with mode := 0x13, p := setNth w.p 3 2 }) (pair 0 3 4)) = 0 := by decide -- R21
theorem test_compare : (warp (run (.vcmp .lt 3 4 (.v 5)) (pair 0 0xFFFFFFFF 0))).pred 3 = 1 ∧ (warp (run (.vcmp .lt 3 4 (.v 5)) (pair 1 0xFFFFFFFF 0))).pred 3 = 0 := by
  decide -- R121: lane 0 compares −1 with 0, signed less and unsigned not; lane 1 compares 0 with 0
theorem test_odd_pair_traps : ((tabFind (run (.vadd 6 5 (.v 4)) (handled (mapped (scalar 31 512 (typed 17))))).warps 0).map fun w => (w.tcause, w.pc, w.trapc)) =
    some (1, 0x10080, 0x10000) := by decide -- R46, R165, Table 6.2
theorem test_load_misaligned : (((warp (run (.vld 6 4 9 .normal false false) (offsets 0x100002 0))).lane 0).parked.map (·.cause)) = some 8 := by decide -- R160, R197
theorem test_store_bytes : ((run (.sst .b16 5 4 2) (owning (scalar 5 0xABCD (mapped (scalar 4 0x100000))))).byte 0x100002,
    (run (.sst .b16 5 4 2) (owning (scalar 5 0xABCD (mapped (scalar 4 0x100000))))).byte 0x100003,
    (run (.sst .b16 5 4 2) (owning (scalar 5 0xABCD (mapped (scalar 4 0x100000))))).byte 0x100004) = (0xCD, 0xAB, 0) := by decide -- R5, R95
theorem test_load_sign : (warp (run (.sld .i8 5 4 0) ({ owning (mapped (scalar 4 0x100000)) with mem := [(0x100000, 0x80)] } : State))).scal 5 = -128 := by decide -- R95
theorem test_vector_atomic_order : (run (.vatom 6 4 9 .add false) (onWarp (fun w => (w.setLane 0 ((w.lane 0).put 6 3)).setLane 1 (((w.lane 1).put 6 4).put 9 0))
    (offsets 0x100000 0))).byte 0x100000 = 7 := by decide -- R200: both lanes add to one word
theorem test_branch_target : (warp (run (.br .lt 0 1 (-3)) (scalar 1 5))).pc = 65536 - 12 := by decide -- R100
theorem test_salu_mulh : (warp (run (.salu .mulh 6 4 5) (scalar 4 (-1) (scalar 5 2)))).scal 6 = -1 ∧ (warp (run (.salu .mulhn 6 4 5) (scalar 4 (-1) (scalar 5 2)))).scal 6 = 1 := by
  decide -- R92: the upper half of −1 × 2 is −1, of (2^64 − 1) × 2 it is 1
theorem test_spadj_limit : ((run (.spadj (-128)) (scalar 31 512)).launches.map fun e => decide (e.2.status = .aborted)) = [true] := by decide -- R155: below %stklim, no handler
theorem test_exit_retires : (warp (run .exit State.reset.bench)).status = .retired := by decide -- R31, R114
theorem test_split_then_pop : ((warp (run (.split 3 true 10 20) (predicate 3 1))).active, (warp (run (.split 3 true 10 20) (predicate 3 1))).stack.map (·.pc)) =
    (1, [65576, 65616]) := by decide -- R29
theorem test_barv_flips : natOfBytes ((run (.barv 4 3) (shared 32 (leBytes 4 0 ++ leBytes 2 3) (scalar 4 32))).shmBytes 0 32 4) = 1 := by decide -- R212
theorem test_qappend_writes : (run (.qappend 8 4) (onWarp (fun w => w.setLane 0 ((w.lane 0).put 8 0x11)) (queued 2 true true []))).shmBytes 0 272 1 = [0x11] := by
  decide -- R255: the third slot, at 256 + 2 × 8
theorem test_getm_of_shared : ((run (.getm 3 7) (line .getm (entry .s [3, 5]))).net.map fun m => (m.kind, m.core)) = [(.inv, 5)] := by decide -- Table 13.2
theorem test_rdma_add : (run (.rdmaFetchAndAdd 1 0 0x100000 3) (walking 0x10002F State.reset.bench)).byte 0x100000 = 3 := by decide -- R408

/-! ### Loading: the object of R386 -/

/-- The words of the object's `.text`, its six patched words as Table 18.8 gives them before the load and `NOP` elsewhere. -/
def textWords : List Nat :=
  [0x54400000, 0x52420000] ++ List.replicate 6 0x7E000000 ++ [0x56900000, 0xD894E000] ++ List.replicate 6 0x7E000000 ++ [0x56400000, 0x52420000]
    ++ List.replicate 11 0x7E000000

/-- A section table entry. -/
def sectionEntry (t size foff loff : Nat) : List Byte := leBytes 1 t ++ [0, 0, 0] ++ leBytes 4 size ++ leBytes 8 foff ++ leBytes 8 loff ++ leBytes 8 0

/-- A symbol entry. -/
def symbolEntry (name kind sect regs value size : Nat) : List Byte :=
  leBytes 4 name ++ leBytes 1 kind ++ leBytes 1 sect ++ leBytes 2 regs ++ leBytes 8 value ++ leBytes 8 size

/-- A relocation record with ADDEND 0. -/
def relocEntry (offset t sym : Nat) : List Byte := leBytes 8 offset ++ leBytes 1 t ++ [0, 0, 0] ++ leBytes 4 sym ++ leBytes 8 0

/-- A kernel descriptor with `.pool reg=8, shm=0, l1=88, log=0`, no handler and a team of one row. -/
def descEntry (entry regs threads : Nat) : List Byte :=
  leBytes 8 0 ++ leBytes 4 entry ++ leBytes 4 0xFFFFFFFF ++ leBytes 2 regs ++ [8, 0, 88, 0] ++ leBytes 2 threads ++ leBytes 2 1 ++ leBytes 2 1
    ++ leBytes 4 0 ++ leBytes 2 0 ++ leBytes 2 0 ++ leBytes 4 0xFF ++ leBytes 4 0x80000 ++ List.replicate 20 0

/-- The object's file: kernels `ka` and `kb`, the function `fsq` and the constants `tab`. -/
def objectFile : List Byte :=
  leBytes 4 0x304F434B ++ leBytes 2 1 ++ leBytes 2 0 ++ leBytes 8 0x100000 ++ leBytes 8 0x30080 ++ leBytes 4 64 ++ leBytes 2 6 ++ leBytes 2 2
    ++ leBytes 4 812 ++ leBytes 4 14 ++ List.replicate 24 0
    ++ sectionEntry 1 0x74 256 0 ++ sectionEntry 2 0x40 372 0x10000 ++ sectionEntry 3 8 436 0x20000 ++ sectionEntry 4 96 444 0
    ++ sectionEntry 5 144 540 0 ++ sectionEntry 6 0x80 684 0x30000
    ++ textWords.flatMap (leBytes 4) ++ (upto 16).flatMap (fun i => leBytes 4 (i + 1)) ++ leBytes 8 0
    ++ symbolEntry 0 2 1 16 0 0x40 ++ symbolEntry 3 2 1 8 0x40 0x28 ++ symbolEntry 6 0x81 1 16 0x68 0xC ++ symbolEntry 10 0 2 0 0 64
    ++ relocEntry 0 2 3 ++ relocEntry 4 3 3 ++ relocEntry 0x20 7 2 ++ relocEntry 0x40 4 3 ++ relocEntry 0x44 5 3 ++ relocEntry 0x20000 1 2
    ++ descEntry 0 16 64 ++ descEntry 0x40 8 16
    ++ [107, 97, 0, 107, 98, 0, 102, 115, 113, 0, 116, 97, 98, 0]

/-- A KERNEL packet of one team of the kernel at the bench's code, its descriptor at 0x100040. -/
def kernelPacket : List Byte :=
  1 :: 0 :: 1 :: 0 :: 0 :: 0 :: leBytes 2 16 ++ leBytes 8 0x100040 ++ leBytes 4 1 ++ leBytes 4 1 ++ leBytes 4 1 ++ leBytes 4 0 ++ leBytes 8 0x100100 ++ List.replicate 24 0

/-- Stream 5 with that packet at its head and the descriptor in memory. -/
def kernelHead : State :=
  let s := walking 0x10002F (withFunctions (headed 1 (kernelPacket.drop 1)))
  { s with mem := putBytes s.mem 0x100040 (leBytes 8 65536 ++ (descEntry 0 16 64).drop 8) }

theorem hyp_PacketsStart_kernel :
    (match kernelHead.launchReads 0 (fetchTag 1 5) kernelPacket with
      | .ok (t, db, args) => (t.makeLaunch 5 0 1 none kernelPacket db args).isSome && (t.makeLaunch 5 0 1 none (setNth kernelPacket 5 1) db args).isNone
      | .error _ => false) = true := by decide +kernel

/-- The bytes of the loaded object from an offset on, as a number. -/
def loadedAt (base o n : Nat) : Option Nat :=
  ((loadObject State.reset 0 base [] objectFile).toOption.bind fun x => imageBytes x.image o n).map natOfBytes

/-- The refusal of a load. -/
def refusal (base : Nat) (f : List Byte) : Option LoadError := match loadObject State.reset 0 base [] f with
  | .error e => some e
  | .ok _ => none

theorem test_load_words : [0, 4, 0x20, 0x24, 0x40, 0x44].map (fun o => loadedAt 0x200000 o 4) =
    [some 0x54400210, some 0x52420000, some 0x56900020, some 0xD894EFE0, some 0x56400010, some 0x52420FC0] := by decide +kernel -- Table 18.8
theorem test_load_doubles : [0x20000, 0x30000, 0x30040].map (fun o => loadedAt 0x200000 o 8) = [some 0x200068, some 0x200000, some 0x200000] := by
  decide +kernel -- Table 18.8
theorem test_load_refused : refusal 0x7FFF0000 objectFile = some (.hi20Range 0) ∧ refusal 0x200001 objectFile = some .baseAlign
    ∧ refusal 0x200000 (0 :: objectFile.drop 1) = some .badHeader := by decide +kernel -- R386, R381

end Sys2Proof.Tests
end

section
/-! SUPPORT. `SPLIT`: one equation for each way it can go, what a pop takes from a stack with entries, and with them the statement on how the active lanes
divide and come together (R28, R29, R106). -/

namespace Sys2Proof.Machine

/-! ### Masks and the stack -/

theorem and_not_and_self (a b : Mask) : a &&& ~~~(a &&& b) = a &&& ~~~b := by
  ext i
  cases h : a[i] <;> simp [h]

theorem and_not_and_not (a b : Mask) : a &&& ~~~(a &&& ~~~b) = a &&& b := by simp [and_not_and_self]

theorem and_not_zero (a : Mask) : a &&& ~~~0 = a := BitVec.and_allOnes

theorem and_not_of_and_eq_zero {a b : Mask} (h : a &&& b = 0) : a &&& ~~~b = a := by
  rw [← and_not_and_self, h, and_not_zero]

theorem counted_of_no_doomed {w : Warp} (h : w.doomed = 0) : w.counted = w.active := by
  rw [Warp.counted, h, and_not_zero]

theorem room_ok {α : Type} {w : Warp} {env : Env} {n : Nat} (h : w.stack.length + n ≤ stackDepth) (k : Except Stop α) : w.room env n k = k := by
  simp [Warp.room, stopIf, Nat.not_lt.mpr h]

theorem pop_of_stack_cons {w : Warp} {e : StackEntry} {r : List StackEntry} (h : w.stack = e :: r) :
    w.pop = ({ w with stack := r, active := e.mask &&& w.live }, e.pc) := by
  simp [Warp.pop, h]

/-- Two pops start the two top entries one after the other, each with its live lanes, and leave the rest of the stack (R28). -/
theorem pops_of_stack_cons_cons {w : Warp} {a b : StackEntry} {r : List StackEntry} (h : w.stack = a :: b :: r) :
    w.pop.2 = a.pc ∧ w.pop.1.active = a.mask &&& w.live
    ∧ w.pop.1.pop.2 = b.pc ∧ w.pop.1.pop.1.active = b.mask &&& w.live ∧ w.pop.1.pop.1.stack = r := by
  rw [pop_of_stack_cons h, pop_of_stack_cons rfl]
  exact ⟨rfl, rfl, rfl, rfl, rfl⟩

/-! ### The ways of `SPLIT` -/

/-- The lanes that a `SPLIT` on a predicate and its SENSE bit names for the then-path, active or not (R29). -/
def Warp.chosen (w : Warp) (p : Nat) (sense : Bool) : Mask := if sense then w.pred p else ~~~(w.pred p)

section
variable {env : Env} {w : Warp} {p : Nat} {sense : Bool} {els join : Int} (hm : w.meld = none)
include hm

/-- Outside a stretch `SPLIT` takes one path, or checks the stack's room and divides. -/
theorem split_eq : split p sense els join env w =
    let elseM := w.counted &&& ~~~(w.chosen p sense)
    if elseM = 0 then .ok (w, .after 8)
    else if w.counted &&& w.chosen p sense = 0 then .ok (w, .jump (w.target els))
    else w.room env 2 <|
      .ok ({ w.push [⟨w.target join, w.active, w.target join⟩, ⟨w.target els, elseM, w.target join⟩] with active := w.active &&& ~~~elseM }, .after 8) := by
  simp only [split, notMelded_ok hm, beq_iff_eq]
  rfl

/-- No lane goes to the else-path: the then-path follows and nothing is pushed. -/
theorem split_all_then (he : w.counted &&& ~~~(w.chosen p sense) = 0) : split p sense els join env w = .ok (w, .after 8) := by
  rw [split_eq hm, if_pos he]

/-- Lanes go to the else-path and none to the then-path: the warp jumps and nothing is pushed. -/
theorem split_all_else (ht : w.counted &&& w.chosen p sense = 0) (he : w.counted &&& ~~~(w.chosen p sense) ≠ 0) :
    split p sense els join env w = .ok (w, .jump (w.target els)) := by
  rw [split_eq hm, if_neg he, if_pos ht]

/-- Lanes go both ways: the join and the else-path are pushed, and the lanes that do not take the else-path go on. -/
theorem split_divides (ht : w.counted &&& w.chosen p sense ≠ 0) (he : w.counted &&& ~~~(w.chosen p sense) ≠ 0)
    (hr : w.stack.length + 2 ≤ stackDepth) :
    split p sense els join env w = .ok
      ({ w.push [⟨w.target join, w.active, w.target join⟩, ⟨w.target els, w.counted &&& ~~~(w.chosen p sense), w.target join⟩] with
          active := w.active &&& ~~~(w.counted &&& ~~~(w.chosen p sense)) }, .after 8) := by
  rw [split_eq hm, if_neg he, if_neg ht, room_ok hr]

end

/-- What `SPLIT` answers in a warp that runs is the end of the instruction with it. -/
theorem exec_split {s : State} {k : Nat} {w w1 : Warp} {env : Env} {p : Nat} {sense : Bool} {els join : Int} {next : Next} (h : s.Runs k w env)
    (hs : split p sense els join env w = .ok (w1, next)) : exec (.split p sense els join) s = .next (s.ends k w1 next) :=
  runs_issueControl h hs

/-- Settles O22: with no doomed lane the counted lanes are the active ones, each way of `SPLIT` is its own equation, and the two pops take the two entries
that the dividing way has pushed. -/
theorem splitRule : Obligations.SplitRule := by
  intro s k w env p sense els join hrun hm hd ha thenM elseM elseTarget joinTarget i
  have hc : w.counted = w.active := counted_of_no_doomed hd
  have hthen : thenM = w.counted &&& w.chosen p sense := by rw [hc]; rfl
  have helse : elseM = w.counted &&& ~~~(w.chosen p sense) := by rw [hc]; exact and_not_and_self ..
  refine ⟨fun ht => ?_, fun he => ?_, fun ht he hr => ⟨?_, fun v hv => pops_of_stack_cons_cons hv⟩⟩
  · have hall : elseM = w.active := by
      rw [helse, hc]
      exact and_not_of_and_eq_zero ht
    exact exec_split hrun (split_all_else hm (hthen ▸ ht) (helse ▸ hall ▸ ha))
  · exact exec_split hrun (split_all_then hm (helse ▸ he))
  · have hgo : w.active &&& ~~~elseM = thenM := by
      rw [helse, hthen, hc]
      exact and_not_and_not ..
    have hs := split_divides (env := env) (els := els) (join := join) hm (hthen ▸ ht) (helse ▸ he) hr
    rw [← helse, hgo] at hs
    exact exec_split hrun hs

end Sys2Proof.Machine
end

section
/-! SUPPORT. Integer results: what it means that an exact integer has been brought into range, that `fitInt` does it, the elements of a packed result, and
with them the statement on integer results (R53). -/

namespace Sys2Proof

theorem ElemType.width_pos (t : ElemType) : 0 < t.width := by cases t <;> decide

theorem ElemType.fmt?_eq_none_of_inI {t : ElemType} (h : t.inI = true) : t.fmt? = none := Option.isNone_iff_eq_none.mp h

namespace Machine

/-! ### Bringing an exact integer into range -/

/-- A result is an exact integer brought into the range of `n` bits under SAT, with no flag raised (R53). -/
def BroughtIntoRange (isSigned : Bool) (n : Nat) (sat : Bool) (exact : Int) (v : Nat × Flags) : Prop :=
  v.2 = noFlags ∧ v.1 < 2 ^ n
  ∧ (sat = false → (v.1 : Int) = exact % ((2 ^ n : Nat) : Int))
  ∧ (sat = true → toIntBy isSigned (BitVec.ofNat n v.1) = max (intMin isSigned n) (min (intMax isSigned n) exact))

theorem natCast_two_pow_pos (n : Nat) : (0 : Int) < ((2 ^ n : Nat) : Int) := by positivity

theorem intMin_le_intMax (isSigned : Bool) (n : Nat) : intMin isSigned n ≤ intMax isSigned n := by
  have hhalf := natCast_two_pow_pos (n - 1)
  have hfull := natCast_two_pow_pos n
  cases isSigned <;> simp only [intMin, intMax, if_true, Bool.false_eq_true, if_false] <;> omega

theorem natCast_toNat_emod_two_pow (n : Nat) (i : Int) : ((i % ((2 ^ n : Nat) : Int)).toNat : Int) = i % ((2 ^ n : Nat) : Int) :=
  Int.toNat_of_nonneg (Int.emod_nonneg i (natCast_two_pow_pos n).ne')

theorem toNat_emod_two_pow_lt (n : Nat) (i : Int) : (i % ((2 ^ n : Nat) : Int)).toNat < 2 ^ n := by
  have h := Int.emod_lt_of_pos i (natCast_two_pow_pos n)
  rw [← natCast_toNat_emod_two_pow] at h
  exact_mod_cast h

/-- An integer of a type's range is the one that its wrapped bit pattern stands for. -/
theorem toIntBy_wrapped {isSigned : Bool} {n : Nat} {i : Int} (hn : 0 < n) (hlo : intMin isSigned n ≤ i) (hhi : i ≤ intMax isSigned n) :
    toIntBy isSigned (BitVec.ofNat n (i % ((2 ^ n : Nat) : Int)).toNat) = i := by
  cases isSigned with
  | false =>
    simp only [intMin, intMax, Bool.false_eq_true, if_false] at hlo hhi
    rw [toIntBy, if_neg Bool.false_ne_true, BitVec.toNat_ofNat, Nat.mod_eq_of_lt (toNat_emod_two_pow_lt n i), natCast_toNat_emod_two_pow]
    exact Int.emod_eq_of_lt hlo (by omega)
  | true =>
    have htwice : (2 : Nat) ^ n = 2 * 2 ^ (n - 1) := by rw [← pow_succ', Nat.sub_add_cancel hn]
    simp only [intMin, intMax, if_true] at hlo hhi
    rw [toIntBy, if_pos rfl, BitVec.toInt_ofNat', natCast_toNat_emod_two_pow, Int.emod_bmod]
    exact Int.bmod_eq_of_le (by omega) (by omega)

/-- `fitInt` brings every integer into range. -/
theorem fitInt_broughtIntoRange {n : Nat} (hn : 0 < n) (isSigned sat : Bool) (i : Int) :
    BroughtIntoRange isSigned n sat i (plain (fitInt isSigned n sat i)) := by
  refine ⟨rfl, toNat_emod_two_pow_lt n _, ?_, ?_⟩
  · rintro rfl
    exact natCast_toNat_emod_two_pow n i
  · rintro rfl
    exact toIntBy_wrapped hn (le_max_left ..) (max_le (intMin_le_intMax ..) (min_le_left ..))

/-! ### The elements of a packed result -/

theorem elem_zero (t : ElemType) (v : Nat) : elem t v 0 = v % 2 ^ t.width := by simp [elem]

/-- The elements above the lowest are those of the part of the word above it. -/
theorem elem_succ (t : ElemType) (v j : Nat) : elem t v (j + 1) = elem t (v / 2 ^ t.width) j := by
  rw [elem, elem, Nat.div_div_eq_div_mul, ← pow_add, Nat.mul_succ, Nat.add_comm]

/-- An element of a packed word is the packed list's element, cut to the element's width. -/
theorem elem_join (t : ElemType) (xs : List Nat) (j : Nat) (h : j < xs.length) : elem t (t.join xs) j = xs[j] % 2 ^ t.width := by
  have hw : 0 < 2 ^ t.width := Nat.two_pow_pos _
  induction xs generalizing j with
  | nil => simp at h
  | cons x r ih =>
    cases j with
    | zero => simp [elem_zero, ElemType.join]
    | succ j =>
      have hupper : t.join (x :: r) / 2 ^ t.width = t.join r := by
        rw [ElemType.join, Nat.add_mul_div_left _ _ hw, Nat.div_eq_of_lt (Nat.mod_lt x hw), Nat.zero_add]
      rw [elem_succ, hupper, ih j (by simpa using h), List.getElem_cons_succ]

/-- Each element of a result formed element by element is that element's value, where this fits the element. -/
theorem elem_perElem {t : ElemType} {f : Nat → Nat × Flags} {j : Nat} (hj : j < t.count) (hf : (f j).1 < 2 ^ t.width) :
    elem t (perElem t f).1 j = (f j).1 := by
  have hlen : j < (((upto t.count).map f).map (·.1)).length := by simpa [upto] using hj
  rw [perElem, elem_join t _ j hlen]
  simpa [upto] using Nat.mod_eq_of_lt hf

theorem perElem_plain_noFlags (t : ElemType) (f : Nat → Nat) : (perElem t fun j => plain (f j)).2 = noFlags := by
  have hfold : ∀ rs : List Nat, (rs.map fun j => plain (f j)).foldl (fun x r => x.or r.2) noFlags = noFlags := by
    intro rs
    induction rs with
    | nil => rfl
    | cons _ _ ih => exact ih
  exact hfold _

/-! ### The integer case of each operation -/

section
variable {t : ElemType} (ht : t.inI = true)
include ht

theorem arith_of_inI (sat ftz : Bool) (fop : Rounding → FNum → FNum → FNum × Flags) (iop : Int → Int → Int) (r : Rounding) (x y : Nat) :
    arith t sat ftz fop iop r x y = plain (fitInt t.isSigned t.width sat (iop (intElem t x) (intElem t y))) := by
  rw [arith, ElemType.fmt?_eq_none_of_inI ht]
  rfl

theorem fma_of_inI (sat ftz : Bool) (r : Rounding) (x y z : Nat) :
    fma t sat ftz r x y z = plain (fitInt t.isSigned t.width sat (intElem t x * intElem t y + intElem t z)) := by
  rw [fma, ElemType.fmt?_eq_none_of_inI ht]
  rfl

theorem convert_of_inI {td : ElemType} (htd : td.inI = true) (sat ftz : Bool) (r : Rounding) (x : Nat) :
    convert t td sat ftz r x = plain (fitInt td.isSigned td.width sat (intElem t x)) := by
  rw [convert, ElemType.fmt?_eq_none_of_inI ht, ElemType.fmt?_eq_none_of_inI htd]

theorem signElem_of_inI (w : Warp) (neg : Bool → Bool) (f : Int → Int) (x : Nat) :
    signElem w neg f t x = perElem t fun j => plain (fitInt t.isSigned t.width w.sat (f (intElem t (elem t x j)))) := by
  simp only [signElem, ElemType.fmt?_eq_none_of_inI ht]

/-- The dot product of integers: the accumulator as an i32 and the products of the elements, added exactly and brought into range once (R60, R127). -/
theorem dot_of_inI (w : Warp) (acc x y : Nat) :
    dot w t acc x y = plain (fitInt true 32 w.sat ((BitVec.ofNat 32 acc).toInt
      + ((upto t.count).map fun j => intElem t (elem t x j) * intElem t (elem t y j)).sum)) := by
  rw [dot, ElemType.fmt?_eq_none_of_inI ht, List.sum_eq_foldl, List.foldl_map]
  rfl

end

/-- Settles O13: for integer types each operation is `fitInt` of the exact value, and `fitInt` brings into range. -/
theorem integerElements : Obligations.IntegerElements := by
  intro w t td sat ftz fop iop neg f r x y z acc j ht htd lo hi brings into
  have hfit (t : ElemType) (sat : Bool) (i : Int) : into t sat i (plain (fitInt t.isSigned t.width sat i)) :=
    fitInt_broughtIntoRange t.width_pos t.isSigned sat i
  rw [arith_of_inI ht, fma_of_inI ht, convert_of_inI ht htd, signElem_of_inI ht, dot_of_inI ht]
  refine ⟨hfit .., hfit .., hfit .., fun hj => ?_, fitInt_broughtIntoRange (by decide) ..⟩
  obtain ⟨hflags, hlt, hrange⟩ := hfit t w.sat (f (intElem t (elem t x j)))
  rw [elem_perElem hj hlt, perElem_plain_noFlags]
  exact ⟨rfl, hlt, hrange⟩

end Machine

end Sys2Proof
end

section
/-! SUPPORT. Upper immediates: what `SLUI` and `SAUIPC` answer, an upper immediate as an integer, the two parts of a value, and with them the statement on
the values that they form with `SALUI.addi` (R94). -/

namespace Sys2Proof.Machine

/-- In a warp that runs, `SLUI` ends with the upper immediate in s[sd] (R94). -/
theorem exec_slui {s : State} {k : Nat} {w : Warp} {env : Env} (h : s.Runs k w env) (d n : Nat) :
    exec (.slui d n) s = .next (s.ends k (w.setScal d (upperImm n)) (.after 4)) :=
  runs_issue h rfl

/-- In a warp that runs, `SAUIPC` ends with the sum of its own address and the upper immediate in s[sd] (R94). -/
theorem exec_sauipc {s : State} {k : Nat} {w : Warp} {env : Env} (h : s.Runs k w env) (d n : Nat) :
    exec (.sauipc d n) s = .next (s.ends k (w.setScal d (w.pc + upperImm n)) (.after 4)) :=
  runs_issue h rfl

/-- The 32-bit pattern whose upper 20 bits are the field of `u` is that of `u · 2^12`: the bits of `u` above the field are shifted out. -/
theorem ofNat_unsigned_shifted (u : Int) : BitVec.ofNat 32 (unsigned 20 u * 2 ^ 12) = BitVec.ofInt 32 (u * 2 ^ 12) := by
  apply BitVec.eq_of_toNat_eq
  rw [BitVec.toNat_ofNat, BitVec.toNat_ofInt, unsigned]
  omega

/-- The upper immediate of a signed 20-bit value is 2^12 times that value. -/
theorem upperImm_unsigned {u : Int} (hlo : -2 ^ 19 ≤ u) (hhi : u < 2 ^ 19) : upperImm (unsigned 20 u) = BitVec.ofInt 64 (u * 2 ^ 12) := by
  have hfits : (u * 2 ^ 12).bmod (2 ^ 32) = u * 2 ^ 12 := Int.bmod_eq_of_le (by omega) (by omega)
  rw [upperImm, ofNat_unsigned_shifted, BitVec.signExtend, BitVec.toInt_ofInt, hfits]

/-- `SALUI.addi` of a lower part `l` to a base plus the upper immediate of `u` adds the value that the two parts make up (R93, R94). -/
theorem addi_upperImm_unsigned (base : DWord) {u : Int} (hlo : -2 ^ 19 ≤ u) (hhi : u < 2 ^ 19) (l : Int) :
    scalarImm .addi (base + upperImm (unsigned 20 u)) l = base + BitVec.ofInt 64 (u * 2 ^ 12 + l) :=
  calc scalarImm .addi (base + upperImm (unsigned 20 u)) l
      = base + (upperImm (unsigned 20 u) + BitVec.ofInt 64 l) := BitVec.add_assoc ..
    _ = base + BitVec.ofInt 64 (u * 2 ^ 12 + l) := by rw [upperImm_unsigned hlo hhi, BitVec.ofInt_add]

/-- The sign-extended lower 12 bits of a value restore it from its upper part, which 0x800 rounds to the nearest (R94). -/
theorem upper_add_lower (x : Int) : (x + 0x800) / 2 ^ 12 * 2 ^ 12 + signed 12 (unsigned 12 x) = x := by
  rw [signed, unsigned]
  split <;> omega

/-- Settles O20: a value of the window has a signed 20-bit upper part, and its two parts make it up. -/
theorem upperImmediates : Obligations.UpperImmediates := by
  refine ⟨fun s k w env d n hrun => ⟨exec_slui hrun d n, exec_sauipc hrun d n⟩, fun base x hmin hmax => ?_⟩
  have hparts := addi_upperImm_unsigned base (u := (x + 0x800) / 2 ^ 12) (by omega) (by omega) (signed 12 (unsigned 12 x))
  rwa [upper_add_lower] at hparts

end Sys2Proof.Machine
end

section
/-! SUPPORT. Products: when a format A instruction completes, the upper half of an exact product in the model's form and in the spec's, and with them the
statement on `VMULH` and `VMAD` (R125, R126). -/

namespace Sys2Proof.Machine

/-! ### Completion -/

/-- Under an accepted type and valid names a format A instruction writes its element results. -/
theorem binary_ok {w : Warp} {env : Env} {ok : ElemType → Bool} {d a : Nat} {b : SrcB} (htype : w.TypeOk ok (d :: a :: operandOf b))
    (hnames : w.NamesOk env (w.typ.span d ++ w.typ.span a ++ namesOf w.typ b)) (draws : Bool)
    (op : ElemType → (Nat → Rounding) → Nat → Nat → Nat × Flags) :
    binary ok draws op env w d a b =
      .ok (w.produce env w.typ d (draws && w.rounds) fun l rs => op w.typ rs (w.val w.typ l a) (w.second w.typ l b)) := by
  rw [binary, typeCheck_ok htype, rangeCheck_ok hnames]

section
variable {s : State} {k : Nat} {w : Warp} {env : Env} {d a : Nat} {b : SrcB} (hrun : s.Runs k w env)
  (hnames : w.NamesOk env (w.typ.span d ++ w.typ.span a ++ namesOf w.typ b))
include hrun hnames

/-- In a warp that runs, `VMULH` ends with the quotients of the products by 2^w, brought into the element's width (R126). -/
theorem exec_vmulh (htype : w.TypeOk ElemType.inI (d :: a :: operandOf b)) :
    exec (.vmulh d a b) s = .next (s.ends k (w.produce env w.typ d false fun l _ => perElem w.typ fun j =>
      plain (fitInt w.typ.isSigned w.typ.width false
        (intElem w.typ (elem w.typ (w.val w.typ l a) j) * intElem w.typ (elem w.typ (w.second w.typ l b) j)
          / ((2 ^ w.typ.width : Nat) : Int)))) (.after 4)) :=
  runs_issue hrun (binary_ok htype hnames false _)

/-- In a warp that runs, `VMAD` ends with the fused multiply-add of each element, with vd as the addend (R125). -/
theorem exec_vmad (htype : w.TypeOk ElemType.inMad (d :: a :: operandOf b)) :
    exec (.vmad d a b) s = .next (s.ends k (w.produce env w.typ d w.rounds fun l rs => perElem w.typ fun j =>
      fma w.typ w.sat w.ftz (rs j) (elem w.typ (w.val w.typ l a) j) (elem w.typ (w.second w.typ l b) j)
        (elem w.typ (w.val w.typ l d) j)) (.after 4)) :=
  runs_issue hrun (by rw [vmad, typeCheck_ok htype, rangeCheck_ok hnames])

end

/-- Elements without flags pack into a word without flags. -/
theorem perElem_plain (t : ElemType) (f : Nat → Nat) : (perElem t fun j => plain (f j)) = plain (t.join ((upto t.count).map f)) := by
  refine Prod.ext ?_ (perElem_plain_noFlags t f)
  rw [perElem, List.map_map]
  rfl

/-! ### The upper half of a product -/

/-- Dividing by `n` what is left modulo `n²` leaves the quotient by `n` modulo `n`. -/
theorem emod_mul_self_ediv (p : Int) {n : Int} (hn : 0 < n) : p % (n * n) / n = p / n % n :=
  calc p % (n * n) / n
      = (p + n * -(n * (p / n / n))) / n := by rw [Int.emod_def, Int.ediv_mul_of_nonneg hn.le, mul_assoc, sub_eq_add_neg, mul_neg]
    _ = p / n + -(n * (p / n / n)) := Int.add_mul_ediv_left _ _ hn.ne'
    _ = p / n % n := by rw [Int.emod_def, sub_eq_add_neg]

/-- The upper `n` bits of a product's `2n` bits are its quotient by 2^n, cut to `n` bits. -/
theorem upper_ofInt_eq_fitInt (isSigned : Bool) (n : Nat) (p : Int) :
    (BitVec.ofInt (2 * n) p).toNat / 2 ^ n = fitInt isSigned n false (p / ((2 ^ n : Nat) : Int)) := by
  have hsquare : ((2 ^ (2 * n) : Nat) : Int) = ((2 ^ n : Nat) : Int) * ((2 ^ n : Nat) : Int) := by rw [two_mul, pow_add, Nat.cast_mul]
  apply Int.ofNat_inj.mp
  calc (((BitVec.ofInt (2 * n) p).toNat / 2 ^ n : Nat) : Int)
      = p % ((2 ^ (2 * n) : Nat) : Int) / ((2 ^ n : Nat) : Int) := by
        rw [BitVec.toNat_ofInt, Int.natCast_ediv, natCast_toNat_emod_two_pow]
    _ = p / ((2 ^ n : Nat) : Int) % ((2 ^ n : Nat) : Int) := by rw [hsquare, emod_mul_self_ediv p (natCast_two_pow_pos n)]
    _ = fitInt isSigned n false (p / ((2 ^ n : Nat) : Int)) := (natCast_toNat_emod_two_pow n _).symm

/-- A bit pattern stands for an integer of its type's range. -/
theorem toIntBy_mem_range (isSigned : Bool) {n : Nat} (x : BitVec n) :
    intMin isSigned n ≤ toIntBy isSigned x ∧ toIntBy isSigned x ≤ intMax isSigned n := by
  cases isSigned with
  | false =>
    have hlt := x.isLt
    simp only [intMin, intMax, toIntBy, Bool.false_eq_true, if_false]
    omega
  | true =>
    have hlo := x.le_toInt
    have hhi := x.toInt_lt
    simp only [intMin, intMax, toIntBy, if_true]
    push_cast
    omega

/-- The product of two integers of a type's range, divided by 2^n, is in the range. -/
theorem upper_mem_range {isSigned : Bool} {n : Nat} {x y : Int} (hn : 0 < n) (hx : intMin isSigned n ≤ x ∧ x ≤ intMax isSigned n)
    (hy : intMin isSigned n ≤ y ∧ y ≤ intMax isSigned n) :
    intMin isSigned n ≤ x * y / ((2 ^ n : Nat) : Int) ∧ x * y / ((2 ^ n : Nat) : Int) ≤ intMax isSigned n := by
  have hpos := natCast_two_pow_pos n
  cases isSigned with
  | false =>
    simp only [intMin, intMax, Bool.false_eq_true, if_false] at hx hy ⊢
    have hlt : x * y / ((2 ^ n : Nat) : Int) < ((2 ^ n : Nat) : Int) := Int.ediv_lt_of_lt_mul hpos (mul_lt_mul'' (by omega) (by omega) hx.1 hy.1)
    exact ⟨Int.ediv_nonneg (mul_nonneg hx.1 hy.1) hpos.le, by omega⟩
  | true =>
    have hhalf := natCast_two_pow_pos (n - 1)
    have htwice : ((2 ^ n : Nat) : Int) = 2 * ((2 ^ (n - 1) : Nat) : Int) := by
      rw [← Nat.sub_add_cancel hn, pow_succ', Nat.cast_mul, Nat.add_sub_cancel, Nat.cast_ofNat]
    simp only [intMin, intMax, if_true] at hx hy ⊢
    rw [htwice] at hpos ⊢
    generalize ((2 ^ (n - 1) : Nat) : Int) = h at *
    have habs : |x * y| ≤ h * h := by
      rw [abs_mul]
      exact mul_le_mul (abs_le.mpr ⟨hx.1, by omega⟩) (abs_le.mpr ⟨hy.1, by omega⟩) (abs_nonneg y) hhalf.le
    obtain ⟨hlo, hhi⟩ := abs_le.mp habs
    have hsquare := mul_pos hhalf hhalf
    have hlt : x * y / (2 * h) < h := Int.ediv_lt_of_lt_mul hpos (by linarith)
    exact ⟨(Int.le_ediv_iff_mul_le hpos).mpr (by linarith), by omega⟩

/-- Settles O8: the two instructions write what their spec equations say, and the quotient that `VMULH` cuts to the width loses nothing, since it is in
range. -/
theorem productsRule : Obligations.ProductsRule := by
  refine ⟨fun s k w env d a b hrun => ⟨fun htype hnames => ?_, fun htype hnames => exec_vmad hrun hnames htype⟩, fun t x y _ => ?_⟩
  · rw [exec_vmulh hrun hnames htype]
    simp only [perElem_plain, upper_ofInt_eq_fitInt w.typ.isSigned]
  · intro p u
    have hu : u = fitInt t.isSigned t.width false (p / ((2 ^ t.width : Nat) : Int)) := upper_ofInt_eq_fitInt ..
    obtain ⟨hlo, hhi⟩ := upper_mem_range (x := intElem t x) (y := intElem t y) t.width_pos (toIntBy_mem_range ..) (toIntBy_mem_range ..)
    rw [hu]
    exact ⟨toIntBy_wrapped t.width_pos hlo hhi, toNat_emod_two_pow_lt t.width _⟩

end Sys2Proof.Machine
end

section
/-! SUPPORT. Decoding reads back what encoding writes: the fields of a word with its marker, the slices of each field, the codes, and with them one equation
for every instruction other than `REP` (R67 to R80). -/

namespace Sys2Proof

/-! ### Codes looked up -/

theorem elemType?_code (t : ElemType) : elemType? t.code = some t := by cases t <;> rfl
theorem cmp?_code (c : Cmp) : cmp? c.code = some c := by cases c <;> rfl
theorem brCond?_code (c : BrCond) : brCond? c.code = some c := by cases c <;> rfl
theorem shiftKind?_code (k : ShiftKind) : shiftKind? k.code = some k := by cases k <;> rfl
theorem shuffleKind_code (k : ShuffleKind) : shuffleKind k.code = k := by cases k <;> rfl
theorem cacheClass_code (c : CacheClass) : cacheClass c.code = c := by cases c <;> rfl
theorem atomicOp_code (o : AtomicOp) : atomicOp o.code = o := by cases o <;> rfl
theorem scope?_code (s : Scope) : scope? s.code = some s := by cases s <;> rfl
theorem memOrder?_code (o : MemOrder) : memOrder? o.code = some o := by cases o <;> rfl
theorem prefLevel?_code (l : PrefLevel) : prefLevel? l.code = some l := by cases l <;> rfl
theorem scalarOp?_code (f : ScalarOp) : scalarOp? f.code = some f := by cases f <;> rfl
theorem scalarImmOp_code (f : ScalarImmOp) : scalarImmOp f.code = f := by cases f <;> rfl
theorem loadSize?_code (f : LoadSize) : loadSize? f.code = some f := by cases f <;> rfl
theorem storeSize?_code (f : StoreSize) : storeSize? f.code = some f := by cases f <;> rfl
theorem keyType?_code (k : KeyType) : keyType? k.code = some k := by cases k <;> rfl
theorem regionKind?_code (k : RegionKind) : regionKind? k.code = some k := by cases k <;> rfl

theorem ofBit_beq_one (b : Bool) : (ofBit b == 1) = b := by cases b <;> rfl

/-! ### Checks of the decoder -/

theorem need_true (e : DecodeError) (k : Except DecodeError Instr) : need true e k = k := rfl

theorem need_eq_ok {c : Bool} {e : DecodeError} {k : Except DecodeError Instr} {i : Instr} : need c e k = .ok i ↔ c = true ∧ k = .ok i := by
  cases c <;> simp [need]

theorem orReserved_some {α β : Type} (x : α) (f : α → Except DecodeError β) : (orReserved (some x) >>= f) = f x := rfl

/-! ### Slices of a field -/

theorem slice_div {a b n : Nat} (h : b < n) : (a * n + b) / n = a := by
  rw [Nat.add_comm, Nat.add_mul_div_right _ _ (by omega), Nat.div_eq_of_lt h, Nat.zero_add]

theorem slice_mod {a b n : Nat} (h : b < n) : (a * n + b) % n = b := by
  rw [Nat.add_comm, Nat.add_mul_mod_self_right, Nat.mod_eq_of_lt h]

theorem bit_zero (w : Nat) : bit w 0 = (bits w 0 0 == 1) := by simp [bit, bits]

theorem slices_30_25 (w : Nat) : bits w 30 29 = bits w 30 25 / 16 ∧ bits w 28 25 = bits w 30 25 % 16 := by
  simp only [bits]
  omega

/-- The fields of format K in their parts: barrier object, address register and flag of x, and predicates and flags of the immediate. -/
theorem slicesK (w : Nat) :
    (bits w 20 18 = bits w 20 13 / 32 ∧ bits w 19 18 = bits w 20 13 / 32 % 4 ∧ bits w 17 13 = bits w 20 13 % 32
      ∧ bit w 20 = (bits w 20 13 / 128 == 1) ∧ bit w 19 = (bits w 20 13 / 64 % 2 == 1) ∧ bit w 18 = (bits w 20 13 / 32 % 2 == 1))
    ∧ bits w 7 4 = bits w 7 0 / 16 ∧ bits w 3 0 = bits w 7 0 % 16 ∧ bits w 7 5 = bits w 7 0 / 32 ∧ bits w 4 0 = bits w 7 0 % 32
      ∧ bits w 6 4 = bits w 7 0 / 16 % 8 ∧ bits w 6 0 = bits w 7 0 % 128 ∧ bits w 7 1 = bits w 7 0 / 2
      ∧ bit w 7 = (bits w 7 0 / 128 == 1) ∧ bit w 0 = (bits w 7 0 % 2 == 1) := by
  simp only [bits, bit, Bool.beq_eq_decide_eq, decide_eq_decide]
  omega

/-- The fields of format X in their parts. -/
theorem slicesX (w : Nat) :
    (bits w 16 13 = bits w 16 9 / 16 ∧ bits w 12 9 = bits w 16 9 % 16 ∧ bits w 16 14 = bits w 16 9 / 32 ∧ bits w 13 9 = bits w 16 9 % 32
      ∧ bits w 16 12 = bits w 16 9 / 8 ∧ bits w 11 9 = bits w 16 9 % 8)
    ∧ (bits w 8 5 = bits w 8 1 / 16 ∧ bits w 4 1 = bits w 8 1 % 16 ∧ bits w 8 6 = bits w 8 1 / 32 ∧ bits w 5 1 = bits w 8 1 % 32
      ∧ bits w 8 4 = bits w 8 1 / 8 ∧ bits w 3 1 = bits w 8 1 % 8)
    ∧ bits w 4 0 = bits w 8 1 % 16 * 2 + bits w 0 0 ∧ bits w 8 0 = bits w 8 1 * 2 + bits w 0 0
    ∧ bits w 16 1 = bits w 16 9 * 256 + bits w 8 1 ∧ bits w 16 0 = bits w 16 9 * 512 + bits w 8 1 * 2 + bits w 0 0 := by
  simp only [bits]
  omega

/-- The fields of format B in their parts. -/
theorem slicesB (w : Nat) :
    bits w 24 21 = bits w 24 17 / 16 ∧ bits w 20 17 = bits w 24 17 % 16 ∧ bits w 8 7 = bits w 8 0 / 128 ∧ bits w 6 5 = bits w 8 0 / 32 % 4
    ∧ bits w 4 0 = bits w 8 0 % 32 ∧ bits w 6 0 = bits w 8 0 % 128 ∧ bits w 5 0 = bits w 8 0 % 64 ∧ bits w 8 6 = bits w 8 0 / 64
    ∧ bits w 5 1 = bits w 8 0 / 2 % 32 ∧ bit w 6 = (bits w 8 0 / 64 % 2 == 1) ∧ bit w 0 = (bits w 8 0 % 2 == 1) := by
  simp only [bits, bit, Bool.beq_eq_decide_eq, decide_eq_decide]
  omega

/-- The hints of format M in their parts. -/
theorem slicesM (w : Nat) : bits w 3 2 = bits w 3 1 / 2 ∧ bit w 1 = (bits w 3 1 % 2 == 1) := by
  simp only [bits, bit, Bool.beq_eq_decide_eq, decide_eq_decide]
  omega

/-- The function field of format D in its parts. -/
theorem slicesD (w : Nat) :
    bits w 9 5 = bits w 9 0 / 32 ∧ bits w 4 0 = bits w 9 0 % 32 ∧ bits w 9 8 = bits w 9 0 / 256 ∧ bits w 7 6 = bits w 9 0 / 64 % 4
    ∧ bits w 5 3 = bits w 9 0 / 8 % 8 ∧ bits w 2 0 = bits w 9 0 % 8 := by
  simp only [bits]
  omega

/-- The fields of format E in their parts and together. -/
theorem slicesE (w : Nat) :
    bits w 11 6 = bits w 11 0 / 64 ∧ bits w 19 0 = bits w 19 15 * 32768 + bits w 14 12 * 4096 + bits w 11 0 := by
  simp only [bits]
  omega

/-! ### The fields of a word with its marker -/

section
variable {m : Nat} {sw : Bool}

theorem encA_marked {d a : Nat} {b : SrcB} (hm : m < 64) (hd : d < 256) (ha : a < 256) (hb : okB b = true) :
    bits (encA m d a b + ofBit sw * 2 ^ 31) 30 25 = m ∧ bits (encA m d a b + ofBit sw * 2 ^ 31) 24 17 = d
    ∧ bits (encA m d a b + ofBit sw * 2 ^ 31) 16 9 = a ∧ bits (encA m d a b + ofBit sw * 2 ^ 31) 8 0 = b.enc := by
  repeat rw [bits_marker _ _ _ _ (by decide) (by decide)]
  exact encA_fields hm hd ha hb

theorem encB_marked {d a i : Nat} (hm : m < 64) (hd : d < 256) (ha : a < 256) (hi : i < 512) :
    bits (encB m d a i + ofBit sw * 2 ^ 31) 30 25 = m ∧ bits (encB m d a i + ofBit sw * 2 ^ 31) 24 17 = d
    ∧ bits (encB m d a i + ofBit sw * 2 ^ 31) 16 9 = a ∧ bits (encB m d a i + ofBit sw * 2 ^ 31) 8 0 = i := by
  repeat rw [bits_marker _ _ _ _ (by decide) (by decide)]
  exact encB_fields hm hd ha hi

theorem encM_marked {d s o h : Nat} {x : Bool} (hm : m < 64) (hd : d < 256) (hs : s < 32) (ho : o < 256) (hh : h < 8) :
    bits (encM m d s o h x + ofBit sw * 2 ^ 31) 30 25 = m ∧ bits (encM m d s o h x + ofBit sw * 2 ^ 31) 24 17 = d
    ∧ bits (encM m d s o h x + ofBit sw * 2 ^ 31) 16 12 = s ∧ bits (encM m d s o h x + ofBit sw * 2 ^ 31) 11 4 = o
    ∧ bits (encM m d s o h x + ofBit sw * 2 ^ 31) 3 1 = h ∧ bits (encM m d s o h x + ofBit sw * 2 ^ 31) 0 0 = ofBit x := by
  repeat rw [bits_marker _ _ _ _ (by decide) (by decide)]
  exact encM_fields hm hd hs ho hh

theorem encD_marked {d a b f : Nat} (hm : m < 64) (hd : d < 32) (ha : a < 32) (hb : b < 32) (hf : f < 1024) :
    bits (encD m d a b f + ofBit sw * 2 ^ 31) 30 25 = m ∧ bits (encD m d a b f + ofBit sw * 2 ^ 31) 24 20 = d
    ∧ bits (encD m d a b f + ofBit sw * 2 ^ 31) 19 15 = a ∧ bits (encD m d a b f + ofBit sw * 2 ^ 31) 14 10 = b
    ∧ bits (encD m d a b f + ofBit sw * 2 ^ 31) 9 0 = f := by
  repeat rw [bits_marker _ _ _ _ (by decide) (by decide)]
  exact encD_fields hm hd ha hb hf

theorem encE_marked {d a f i : Nat} (hm : m < 64) (hd : d < 32) (ha : a < 32) (hf : f < 8) (hi : i < 4096) :
    bits (encE m d a f i + ofBit sw * 2 ^ 31) 30 25 = m ∧ bits (encE m d a f i + ofBit sw * 2 ^ 31) 24 20 = d
    ∧ bits (encE m d a f i + ofBit sw * 2 ^ 31) 19 15 = a ∧ bits (encE m d a f i + ofBit sw * 2 ^ 31) 14 12 = f
    ∧ bits (encE m d a f i + ofBit sw * 2 ^ 31) 11 0 = i := by
  repeat rw [bits_marker _ _ _ _ (by decide) (by decide)]
  exact encE_fields hm hd ha hf hi

theorem encK_marked {f x y i : Nat} (hm : m < 64) (hf : f < 16) (hx : x < 256) (hy : y < 32) (hi : i < 256) :
    bits (encK m f x y i + ofBit sw * 2 ^ 31) 30 25 = m ∧ bits (encK m f x y i + ofBit sw * 2 ^ 31) 24 21 = f
    ∧ bits (encK m f x y i + ofBit sw * 2 ^ 31) 20 13 = x ∧ bits (encK m f x y i + ofBit sw * 2 ^ 31) 12 8 = y
    ∧ bits (encK m f x y i + ofBit sw * 2 ^ 31) 7 0 = i := by
  repeat rw [bits_marker _ _ _ _ (by decide) (by decide)]
  exact encK_fields hm hf hx hy hi

theorem encX_marked {n f g z : Nat} (hm : m < 64) (hn : n < 256) (hf : f < 256) (hg : g < 256) (hz : z < 2) :
    bits (encX m n f g z + ofBit sw * 2 ^ 31) 30 25 = m ∧ bits (encX m n f g z + ofBit sw * 2 ^ 31) 24 17 = n
    ∧ bits (encX m n f g z + ofBit sw * 2 ^ 31) 16 9 = f ∧ bits (encX m n f g z + ofBit sw * 2 ^ 31) 8 1 = g
    ∧ bits (encX m n f g z + ofBit sw * 2 ^ 31) 0 0 = z := by
  repeat rw [bits_marker _ _ _ _ (by decide) (by decide)]
  exact encX_fields hm hn hf hg hz

theorem major_marked {r : Nat} (hm : m < 64) (hr : r < 2 ^ 25) :
    bits (major m r + ofBit sw * 2 ^ 31) 30 25 = m ∧ bits (major m r + ofBit sw * 2 ^ 31) 24 0 = r := by
  simp only [bits, major]
  omega

end

/-- The first word of `SPLIT`: its predicate, its sense and the bits that must be 0. -/
theorem slicesSplit (w : Nat) :
    bits w 24 21 = bits w 24 0 / 2097152 ∧ bit w 20 = (bits w 24 0 / 1048576 % 2 == 1) ∧ bits w 19 0 = bits w 24 0 % 1048576 := by
  simp only [bits, bit, Bool.beq_eq_decide_eq, decide_eq_decide]
  omega

/-- The first word of `SWITCH`: its key register, its count, its key type and the bits that must be 0. -/
theorem slicesSwitch (w : Nat) :
    bits w 24 17 = bits w 24 0 / 131072 ∧ bits w 16 14 = bits w 24 0 / 16384 % 8 ∧ bits w 13 12 = bits w 24 0 / 4096 % 4
    ∧ bits w 11 0 = bits w 24 0 % 4096 := by
  simp only [bits]
  omega

/-- The first word of `REGION`: its kind, its retries, its flags, these together, and the bits that must be 0. -/
theorem slicesRegion (w : Nat) :
    bits w 24 22 = bits w 24 0 / 4194304 ∧ bits w 21 18 = bits w 24 0 / 262144 % 16 ∧ bit w 17 = (bits w 24 0 / 131072 % 2 == 1)
    ∧ bit w 16 = (bits w 24 0 / 65536 % 2 == 1) ∧ bits w 21 16 = bits w 24 0 / 65536 % 64 ∧ bits w 15 0 = bits w 24 0 % 65536 := by
  simp only [bits, bit, Bool.beq_eq_decide_eq, decide_eq_decide]
  omega

/-- The word of `MODE`: its form, its register and its immediate, and the bits that must be 0. -/
theorem slicesMode (w : Nat) :
    bit w 24 = (bits w 24 0 / 16777216 == 1) ∧ bits w 23 16 = bits w 24 0 / 65536 % 256 ∧ bits w 23 21 = bits w 24 0 / 2097152 % 8
    ∧ bits w 20 16 = bits w 24 0 / 65536 % 32 ∧ bits w 15 0 = bits w 24 0 % 65536 := by
  simp only [bits, bit, Bool.beq_eq_decide_eq, decide_eq_decide]
  omega

/-- A form with a minor, a 16-bit immediate and a last bit, as a word of format X. -/
theorem major_eq_encX (m n i z : Nat) : major m (n * 2 ^ 17 + i * 2 + z) = encX m n (i / 256) (i % 256) z := by
  simp only [major, encX]
  omega

theorem major_eq_encX_zero (m n i : Nat) : major m (n * 2 ^ 17 + i * 2) = encX m n (i / 256) (i % 256) 0 := by
  rw [← major_eq_encX, Nat.add_zero]

/-- A form with a 20-bit immediate, as a word of format E. -/
theorem major_eq_encE (m d i : Nat) : major m (d * 2 ^ 20 + i) = encE m d (i / 32768) (i / 4096 % 8) (i % 4096) := by
  simp only [major, encE]
  omega

/-! ### Parts that several forms share -/

theorem srcB_enc {w : Nat} {b : SrcB} (k : SrcB → Instr) (hb : okB b = true) (h : bits w 8 0 = b.enc) : srcB w k = .ok (k b) := by
  cases b with
  | v n =>
    simp only [SrcB.enc, bits] at h
    have h0 : bit w 0 = false := by simp [bit]; omega
    have h1 : bits w 8 1 = n := by simp only [bits]; omega
    simp [srcB, h0, h1]
  | s n =>
    simp only [okB, okS, decide_eq_true_eq] at hb
    simp only [SrcB.enc, bits] at h
    have h0 : bit w 0 = true := by simp [bit]; omega
    have h1 : bits w 5 1 = n := by simp only [bits]; omega
    have h2 : bits w 8 6 = 0 := by simp only [bits]; omega
    simp [srcB, h0, h1, h2, need]

theorem formatA_encA {m d a : Nat} {b : SrcB} {sw : Bool} (hm : m < 64) (hd : d < 256) (ha : a < 256) (hb : okB b = true)
    (f : Nat → Nat → SrcB → Instr) : formatA (encA m d a b + ofBit sw * 2 ^ 31) f = .ok (f d a b) := by
  obtain ⟨_, hd, ha, hb'⟩ := encA_marked (sw := sw) hm hd ha hb
  rw [formatA, hd, ha, srcB_enc _ hb hb']

theorem compareFields_code {w : Nat} {c : Cmp} {p : Nat} (k : Cmp → Nat → Except DecodeError Instr) (hp : p < 12)
    (h : bits w 24 17 = c.code * 16 + p) : compareFields w k = k c p := by
  have hc : bits w 24 21 = c.code := by simp only [bits] at h ⊢; omega
  have hp' : bits w 20 17 = p := by simp only [bits] at h ⊢; omega
  simp [compareFields, hc, hp', cmp?_code, need, hp]

theorem encBar_lt {b : Option Nat} (hb : okBar b = true) : encBar b < 160 ∧ encBar b / 32 % 4 = 0 := by
  cases b with
  | none => decide
  | some n =>
    simp only [okBar, okS, decide_eq_true_eq] at hb
    simp only [encBar]
    omega

theorem barField_encBar {w : Nat} {b : Option Nat} (hb : okBar b = true) (hflag : bits w 20 13 / 128 = encBar b / 128)
    (hreg : bits w 20 13 % 32 = encBar b % 32) (k : Option Nat → Except DecodeError Instr) : barField w k = k b := by
  have h17 : bits w 17 13 = bits w 20 13 % 32 := (slicesK w).1.2.2.1
  have h20 : bit w 20 = (bits w 20 13 / 128 == 1) := (slicesK w).1.2.2.2.1
  cases b with
  | none => simp [barField, h17, h20, hflag, hreg, need, encBar]
  | some n =>
    simp only [okBar, okS, decide_eq_true_eq] at hb
    have hone : (128 + n) / 128 = 1 := by omega
    have hn : (128 + n) % 32 = n := by omega
    simp [barField, h17, h20, hflag, hreg, encBar, hone, hn]

/-- The fields of `ACCLD` and `ACCST`: flags and address register in x, the barrier object in the immediate. -/
theorem encAccX_lt (b : Option Nat) (shm : Bool) {a : Nat} (ha : a < 32) :
    encAccX b shm a < 256 ∧ encAccX b shm a / 32 % 2 = 0 ∧ encAccX b shm a % 32 = a ∧ (encAccX b shm a / 64 % 2 == 1) = shm := by
  cases b <;> cases shm <;> simp [encAccX, ofBit] <;> omega

theorem accBar_encAccX {w : Nat} {b : Option Nat} {shm : Bool} {a : Nat} (ha : a < 32) (hb : okBar b = true)
    (hx : bits w 20 13 = encAccX b shm a) (hi : bits w 7 0 = b.getD 0) (k : Option Nat → Except DecodeError Instr) : accBar w k = k b := by
  have hshm := ofBit_lt shm
  have h4 : bits w 4 0 = bits w 7 0 % 32 := (slicesK w).2.2.2.2.1
  have h20 : bit w 20 = (bits w 20 13 / 128 == 1) := (slicesK w).1.2.2.2.1
  cases b with
  | none =>
    simp only [encAccX, Option.isSome_none, Bool.false_eq_true, if_false, Option.getD_none] at hx hi
    have hflag : bits w 20 13 / 128 = 0 := by omega
    simp [accBar, h4, h20, hflag, hi, need]
  | some n =>
    simp only [okBar, okS, decide_eq_true_eq] at hb
    simp only [encAccX, Option.isSome_some, if_true, Option.getD_some] at hx hi
    have hflag : bits w 20 13 / 128 = 1 := by omega
    simp [accBar, h4, h20, hflag, hi, Nat.mod_eq_of_lt hb]

theorem accBar_lt {b : Option Nat} (hb : okBar b = true) : b.getD 0 < 32 := by
  cases b with
  | none => decide
  | some n => simpa [okBar, okS] using hb

/-! ### The words of each format -/

/-- The decoder reads an instruction from its words, whatever their marker and the words that follow. -/
def Reads (i : Instr) : Prop :=
  ∀ (w : Nat) (ws : List Nat), encodeWords i = w :: ws → w < 2 ^ 31 ∧ ∀ (sw : Bool) (rest : List Nat),
    bits (w + ofBit sw * 2 ^ 31) 30 25 ≠ 0x3D ∧ lengthOf (w + ofBit sw * 2 ^ 31) = ws.length + 1
    ∧ decodeOne (w + ofBit sw * 2 ^ 31) (ws ++ rest) = .ok i

/-- The majors that open instructions of one word. -/
def oneWord (m : Nat) : Bool := m != 0x34 && m != 0x35 && m != 0x37 && m != 0x3D

theorem lengthOf_one {w m : Nat} (h : bits w 30 25 = m) (hm : oneWord m = true) : lengthOf w = 1 := by
  simp only [oneWord, Bool.and_eq_true, bne_iff_ne] at hm
  obtain ⟨⟨⟨h34, h35⟩, h37⟩, h3D⟩ := hm
  unfold lengthOf
  rw [h]
  split <;> first | rfl | contradiction

/-- An instruction of one word of a major is read from it. -/
theorem reads_one {i : Instr} {m r : Nat} (hm : m < 64) (hone : oneWord m = true) (hr : r < 2 ^ 25) (he : encodeWords i = [major m r])
    (hd : ∀ sw rest, decodeOne (major m r + ofBit sw * 2 ^ 31) rest = .ok i) : Reads i := by
  intro w ws hw
  rw [he] at hw
  obtain ⟨rfl, rfl⟩ := List.cons.inj hw
  refine ⟨major_lt m r hr hm, fun sw rest => ?_⟩
  have hmaj := (major_marked (sw := sw) hm hr).1
  refine ⟨?_, lengthOf_one hmaj hone, hd sw rest⟩
  rw [hmaj]
  rintro rfl
  exact Bool.false_ne_true hone

section
variable {i : Instr} {m : Nat} (hm : m < 64) (hone : oneWord m = true)
include hm hone

theorem reads_encA {d a : Nat} {b : SrcB} (hd : d < 256) (ha : a < 256) (hb : okB b = true) (he : encodeWords i = [encA m d a b])
    (h : ∀ sw rest, decodeOne (encA m d a b + ofBit sw * 2 ^ 31) rest = .ok i) : Reads i :=
  reads_one hm hone (encA_rest hd ha hb) he h

theorem reads_encB {d a j : Nat} (hd : d < 256) (ha : a < 256) (hj : j < 512) (he : encodeWords i = [encB m d a j])
    (h : ∀ sw rest, decodeOne (encB m d a j + ofBit sw * 2 ^ 31) rest = .ok i) : Reads i :=
  reads_one hm hone (by omega) he h

theorem reads_encM {d s o j : Nat} {x : Bool} (hd : d < 256) (hs : s < 32) (ho : o < 256) (hj : j < 8) (he : encodeWords i = [encM m d s o j x])
    (h : ∀ sw rest, decodeOne (encM m d s o j x + ofBit sw * 2 ^ 31) rest = .ok i) : Reads i :=
  reads_one hm hone (by have := ofBit_lt x; omega) he h

theorem reads_encD {d a b f : Nat} (hd : d < 32) (ha : a < 32) (hb : b < 32) (hf : f < 1024) (he : encodeWords i = [encD m d a b f])
    (h : ∀ sw rest, decodeOne (encD m d a b f + ofBit sw * 2 ^ 31) rest = .ok i) : Reads i :=
  reads_one hm hone (by omega) he h

theorem reads_encE {d a f j : Nat} (hd : d < 32) (ha : a < 32) (hf : f < 8) (hj : j < 4096) (he : encodeWords i = [encE m d a f j])
    (h : ∀ sw rest, decodeOne (encE m d a f j + ofBit sw * 2 ^ 31) rest = .ok i) : Reads i :=
  reads_one hm hone (by omega) he h

theorem reads_encK {f x y j : Nat} (hf : f < 16) (hx : x < 256) (hy : y < 32) (hj : j < 256) (he : encodeWords i = [encK m f x y j])
    (h : ∀ sw rest, decodeOne (encK m f x y j + ofBit sw * 2 ^ 31) rest = .ok i) : Reads i :=
  reads_one hm hone (by omega) he h

theorem reads_encX {n f g z : Nat} (hn : n < 256) (hf : f < 256) (hg : g < 256) (hz : z < 2) (he : encodeWords i = [encX m n f g z])
    (h : ∀ sw rest, decodeOne (encX m n f g z + ofBit sw * 2 ^ 31) rest = .ok i) : Reads i :=
  reads_one hm hone (by omega) he h

theorem reads_imm {k n : Nat} (hk : k < 256) (hn : n < 2 ^ 16) (he : encodeWords i = [major m (k * 2 ^ 17 + n * 2)])
    (h : ∀ sw rest, decodeOne (encX m k (n / 256) (n % 256) 0 + ofBit sw * 2 ^ 31) rest = .ok i) : Reads i :=
  reads_encX hm hone hk (by omega) (by omega) (by decide) (he.trans (congrArg (· :: []) (major_eq_encX_zero m k n))) h

end

/-! ### Every instruction -/

/-- The parts of the decoder that read an instruction of one word. -/
inductive Page where
  | formatA | formatB | vectorMemory | scalar | control | async | task | vext | sys
  deriving DecidableEq

/-- The part of the decoder that reads an instruction; `SPLIT`, `SWITCH`, `REGION` and `REP` have words of their own, and an event has none. -/
def Instr.page : Instr → Option Page
  | .vadd .. | .vsub .. | .vmul .. | .vmad .. | .vmin .. | .vmax .. | .vand .. | .vor .. | .vxor .. | .vshl .. | .vshr .. | .vsra .. | .vmulh ..
  | .vdot .. | .vcmp .. | .vcvt .. => some .formatA
  | .vsel .. | .vbfe .. | .vbfi .. | .vaddi .. | .vmuli .. | .vandi .. | .vori .. | .vrdx .. | .vwrx .. | .vshi .. | .vcmpi .. | .vshfl ..
  | .vmovi .. | .vspl .. | .vfil .. => some .formatB
  | .vld .. | .vst .. | .vlds .. | .vsts .. | .gst .. | .vatom .. | .vatoms .. => some .vectorMemory
  | .salu .. | .salui .. | .slui .. | .sauipc .. | .sld .. | .sst .. | .satom .. | .ssrRead .. | .ssrWrite .. => some .scalar
  | .br .. | .jmp .. | .call .. | .calli .. | .jmpi .. | .callv .. | .ret .. | .spadj .. | .meldOn .. | .meldOff .. | .meldLdt .. | .mma ..
  | .mmag .. | .mode .. | .modeScalar .. => some .control
  | .tcopy .. | .tcopyY .. | .actld .. | .accld .. | .accst .. | .afence .. | .await .. | .binit .. | .barv .. | .bwait .. | .accz .. | .accstR ..
  | .rstat .. => some .async
  | .txend .. | .txendo .. | .txabort .. | .txstat .. | .spawn .. | .qappend .. | .spawno .. | .launch .. | .qappendTry .. | .qpop .. | .qatt ..
  | .qdet .. | .gset .. | .qattOwn .. | .qdetOwn .. | .coll .. => some .task
  | .vnot .. | .vabs .. | .vneg .. | .vclz .. | .vpopc .. | .vrcp .. | .vrsq .. | .vexp2 .. | .vlog2 .. | .vsin .. | .vcos .. | .vact ..
  | .vredadd .. | .vredmin .. | .vredmax .. | .vredand .. | .vredor .. | .vredxor .. | .vscan .. | .vmatch .. | .vpack .. | .vunpk .. | .vmov ..
  | .vmovSpecial .. | .vvoteany .. | .vvoteall .. | .vballot .. | .vrand .. | .pand .. | .por .. | .pxor .. | .pnot .. | .pmov .. | .ppack ..
  | .punpk .. | .ptos .. | .pset .. | .vlane .. => some .vext
  | .nop .. | .exit .. | .yield .. | .eret .. | .bar .. | .cbar .. | .trap .. | .bkpt .. | .sleep .. | .fence .. | .rfence .. | .pref .. => some .sys
  | _ => none

theorem reads_formatA {i : Instr} (hp : i.page = some .formatA) (hwf : i.wellFormed = true) : Reads i := by
  cases i
  case vadd | vsub | vmul | vmad | vmin | vmax | vand | vor | vxor | vshl | vshr | vsra | vmulh | vdot =>
    simp only [Instr.wellFormed, okV, Bool.and_eq_true, decide_eq_true_eq] at hwf
    obtain ⟨⟨hd, ha⟩, hb⟩ := hwf
    refine reads_encA (by decide) (by decide) hd ha hb rfl fun sw rest => ?_
    simp (disch := first | decide | assumption) only [decodeOne, slices_30_25, decodeA, encA_marked, formatA_encA]
  case vcmp c p a b =>
    simp only [Instr.wellFormed, okV, okP, Bool.and_eq_true, decide_eq_true_eq] at hwf
    obtain ⟨⟨hp, ha⟩, hb⟩ := hwf
    have hc := c.code_lt
    have hd : c.code * 16 + p < 256 := by omega
    refine reads_encA (by decide) (by decide) hd ha hb rfl fun sw rest => ?_
    obtain ⟨hm, hd', ha', hb'⟩ := encA_marked (m := 0x0E) (sw := sw) (by decide) hd ha hb
    simp only [decodeOne, slices_30_25, decodeA, hm, compareFields_code _ hp hd', ha', srcB_enc _ hb hb']
  case vcvt d a t =>
    simp only [Instr.wellFormed, okV, Bool.and_eq_true, decide_eq_true_eq] at hwf
    obtain ⟨hd, ha⟩ := hwf
    have ht := t.code_lt
    refine reads_encB (by decide) (by decide) hd ha (by omega) rfl fun sw rest => ?_
    have h6 : t.code * 2 / 64 = 0 := by omega
    have h5 : t.code * 2 / 2 % 32 = t.code := by omega
    have h0 : t.code * 2 % 2 = 0 := by omega
    simp (disch := omega) only [decodeOne, slices_30_25, decodeA, encB_marked, slicesB, h6, h5, h0, elemType?_code, orReserved_some]
    rfl
  all_goals exact nomatch hp

theorem reads_formatB {i : Instr} (hp : i.page = some .formatB) (hwf : i.wellFormed = true) : Reads i := by
  cases i
  case vsel | vbfe | vbfi =>
    simp only [Instr.wellFormed, okV, Bool.and_eq_true, decide_eq_true_eq] at hwf
    obtain ⟨⟨hd, ha⟩, hb⟩ := hwf
    refine reads_encA (by decide) (by decide) hd ha hb rfl fun sw rest => ?_
    simp (disch := first | decide | assumption) only [decodeOne, slices_30_25, decodeB, encA_marked, formatA_encA]
  case vaddi d a j | vmuli d a j | vandi d a j | vori d a j | vrdx d a j | vwrx d a j =>
    simp only [Instr.wellFormed, okV, Bool.and_eq_true, decide_eq_true_eq] at hwf
    obtain ⟨⟨hd, ha⟩, hj⟩ := hwf
    have hu := unsigned_lt 9 j
    refine reads_encB (by decide) (by decide) hd ha hu rfl fun sw rest => ?_
    simp (disch := omega) only [decodeOne, slices_30_25, decodeB, encB_marked, formatB, signed_unsigned (by decide) hj]
  case vshi d a k n =>
    simp only [Instr.wellFormed, okV, okN, Bool.and_eq_true, decide_eq_true_eq] at hwf
    obtain ⟨⟨hd, ha⟩, hn⟩ := hwf
    have hk := k.code_lt
    refine reads_encB (by decide) (by decide) hd ha (by omega) rfl fun sw rest => ?_
    have h7 : (k.code * 2 ^ 7 + n) / 128 = k.code := by omega
    have h6 : (k.code * 2 ^ 7 + n) / 32 % 4 = 0 := by omega
    have h4 : (k.code * 2 ^ 7 + n) % 32 = n := by omega
    simp (disch := omega) only [decodeOne, slices_30_25, decodeB, encB_marked, slicesB, h7, h6, h4, shiftKind?_code, orReserved_some]
    rfl
  case vcmpi c p a j =>
    simp only [Instr.wellFormed, okV, okP, Bool.and_eq_true, decide_eq_true_eq] at hwf
    obtain ⟨⟨hp, ha⟩, hj⟩ := hwf
    have hc := c.code_lt
    have hu := unsigned_lt 9 j
    have hd : c.code * 16 + p < 256 := by omega
    refine reads_encB (by decide) (by decide) hd ha hu rfl fun sw rest => ?_
    obtain ⟨hm, hd', ha', hj'⟩ := encB_marked (m := 0x15) (sw := sw) (by decide) hd ha hu
    simp only [decodeOne, slices_30_25, decodeB, hm, compareFields_code _ hp hd', ha', hj', signed_unsigned (by decide) hj]
  case vshfl d a k r n =>
    simp only [Instr.wellFormed, okV, okN, Bool.and_eq_true, decide_eq_true_eq] at hwf
    obtain ⟨⟨⟨hd, ha⟩, hn⟩, hidx⟩ := hwf
    have hk := k.code_lt
    have hr := ofBit_lt r
    refine reads_encB (by decide) (by decide) hd ha (by omega) rfl fun sw rest => ?_
    have h7 : (k.code * 2 ^ 7 + ofBit r * 2 ^ 6 + n) / 128 = k.code := by omega
    have h6 : (k.code * 2 ^ 7 + ofBit r * 2 ^ 6 + n) / 64 % 2 = ofBit r := by omega
    have h60 : (k.code * 2 ^ 7 + ofBit r * 2 ^ 6 + n) % 128 = ofBit r * 2 ^ 6 + n := by omega
    have h5 : (k.code * 2 ^ 7 + ofBit r * 2 ^ 6 + n) % 64 = n := by omega
    simp (disch := omega) only [decodeOne, slices_30_25, decodeB, encB_marked, slicesB, h7, h6, h60, h5, shuffleKind_code, ofBit_beq_one,
      need_eq_ok, and_true]
    cases k <;> simp_all [ShuffleKind.code, ofBit]
  case vmovi d n h =>
    simp only [Instr.wellFormed, okV, okN, Bool.and_eq_true, decide_eq_true_eq] at hwf
    obtain ⟨hd, hn⟩ := hwf
    have hh := ofBit_lt h
    refine reads_encX (m := 0x16) (g := n % 256) (by decide) (by decide) hd (by omega) (by omega) hh (congrArg (· :: []) (major_eq_encX ..)) fun sw rest => ?_
    have h16 : n / 256 * 256 + n % 256 = n := by omega
    simp (disch := omega) only [decodeOne, slices_30_25, decodeB, encX_marked, slicesX, bit_zero, h16, ofBit_beq_one]
  case vspl d n | vfil d n =>
    simp only [Instr.wellFormed, okV, okN, Bool.and_eq_true, decide_eq_true_eq] at hwf
    obtain ⟨hd, hn⟩ := hwf
    refine reads_encX (by decide) (by decide) hd (by omega) (by omega) (by decide) (congrArg (· :: []) (major_eq_encX_zero _ d n)) fun sw rest => ?_
    have h16 : n / 256 * 256 + n % 256 = n := by omega
    simp (disch := omega) only [decodeOne, slices_30_25, decodeB, encX_marked, slicesX, bit_zero, h16]
    rfl
  all_goals exact nomatch hp

theorem reads_vectorMemory {i : Instr} (hp : i.page = some .vectorMemory) (hwf : i.wellFormed = true) : Reads i := by
  cases i
  case vld d s o c na x | vst d s o c na x =>
    simp only [Instr.wellFormed, okV, okS, Bool.and_eq_true, decide_eq_true_eq] at hwf
    obtain ⟨⟨hd, hs⟩, ho⟩ := hwf
    have hc := c.code_lt
    have hna := ofBit_lt na
    refine reads_encM (by decide) (by decide) hd hs ho (by omega) rfl fun sw rest => ?_
    have h2 : (c.code * 2 + ofBit na) / 2 = c.code := by omega
    have h1 : (c.code * 2 + ofBit na) % 2 = ofBit na := by omega
    simp (disch := omega) only [decodeOne, slices_30_25, decodeM, formatM, encM_marked, slicesM, bit_zero, h2, h1, cacheClass_code, ofBit_beq_one]
  case vlds d s o x | vsts d s o x =>
    simp only [Instr.wellFormed, okV, okS, Bool.and_eq_true, decide_eq_true_eq] at hwf
    obtain ⟨⟨hd, hs⟩, ho⟩ := hwf
    refine reads_encM (by decide) (by decide) hd hs ho (by decide) rfl fun sw rest => ?_
    simp (disch := omega) only [decodeOne, slices_30_25, decodeM, formatM, encM_marked, bit_zero, ofBit_beq_one]
    rfl
  case gst d s o c x =>
    simp only [Instr.wellFormed, okV, okS, Bool.and_eq_true, decide_eq_true_eq] at hwf
    obtain ⟨⟨hd, hs⟩, ho⟩ := hwf
    have hc := c.code_lt
    refine reads_encM (by decide) (by decide) hd hs ho (by omega) rfl fun sw rest => ?_
    have h2 : c.code * 2 / 2 = c.code := by omega
    have h1 : c.code * 2 % 2 = 0 := by omega
    simp (disch := omega) only [decodeOne, slices_30_25, decodeM, formatM, encM_marked, slicesM, bit_zero, h2, h1, cacheClass_code, ofBit_beq_one]
    rfl
  case vatom d s o op x | vatoms d s o op x =>
    simp only [Instr.wellFormed, okV, okS, Bool.and_eq_true, decide_eq_true_eq] at hwf
    obtain ⟨⟨hd, hs⟩, ho⟩ := hwf
    refine reads_encM (by decide) (by decide) hd hs ho op.code_lt rfl fun sw rest => ?_
    have hop := op.code_lt
    simp (disch := omega) only [decodeOne, slices_30_25, decodeM, formatM, encM_marked, bit_zero, atomicOp_code, ofBit_beq_one]
  all_goals exact nomatch hp

theorem reads_scalar {i : Instr} (hp : i.page = some .scalar) (hwf : i.wellFormed = true) : Reads i := by
  cases i
  case salu f d a b =>
    simp only [Instr.wellFormed, okS, Bool.and_eq_true, decide_eq_true_eq] at hwf
    obtain ⟨⟨⟨hd, ha⟩, hb⟩, hz⟩ := hwf
    have hf := f.code_lt
    refine reads_encD (by decide) (by decide) hd ha hb (by omega) rfl fun sw rest => ?_
    have h9 : f.code / 32 = 0 := by omega
    have h4 : f.code % 32 = f.code := by omega
    simp (disch := omega) only [decodeOne, slices_30_25, decodeM, encD_marked, slicesD, h9, h4, scalarOp?_code, orReserved_some, hz]
    rfl
  case salui f d a j =>
    simp only [Instr.wellFormed, okS, Bool.and_eq_true, decide_eq_true_eq] at hwf
    obtain ⟨⟨⟨hd, ha⟩, hj⟩, hz⟩ := hwf
    have hf := f.code_lt
    have hu := unsigned_lt 12 j
    refine reads_encE (by decide) (by decide) hd ha hf hu rfl fun sw rest => ?_
    simp (disch := omega) only [decodeOne, slices_30_25, decodeM, encE_marked, slicesE, scalarImmOp_code, signed_unsigned (by decide) hj, need_eq_ok,
      and_true]
    cases hs : f.isShift with
    | false => rfl
    | true =>
      simp only [hs, Bool.not_true, Bool.false_or, Bool.and_eq_true, decide_eq_true_eq] at hz
      simp only [unsigned, Bool.not_true, Bool.false_or, beq_iff_eq]
      omega
  case slui d n | sauipc d n =>
    simp only [Instr.wellFormed, okS, okN, Bool.and_eq_true, decide_eq_true_eq] at hwf
    obtain ⟨hd, hn⟩ := hwf
    refine reads_encE (d := d) (i := _) (a := n / 32768) (f := n / 4096 % 8) (j := n % 4096) (by decide) (by decide) hd (by omega) (by omega) (by omega)
      (congrArg (· :: []) (major_eq_encE ..)) fun sw rest => ?_
    have h19 : n / 32768 * 32768 + n / 4096 % 8 * 4096 + n % 4096 = n := by omega
    simp (disch := omega) only [decodeOne, slices_30_25, decodeM, encE_marked, slicesE, h19]
  case sld f d a j =>
    simp only [Instr.wellFormed, okS, Bool.and_eq_true, decide_eq_true_eq] at hwf
    obtain ⟨⟨hd, ha⟩, hj⟩ := hwf
    have hf := f.code_lt
    have hu := unsigned_lt 12 j
    refine reads_encE (by decide) (by decide) hd ha (by omega) hu rfl fun sw rest => ?_
    simp (disch := omega) only [decodeOne, slices_30_25, decodeM, encE_marked, loadSize?_code, orReserved_some, signed_unsigned (by decide) hj]
  case sst f d a j =>
    simp only [Instr.wellFormed, okS, Bool.and_eq_true, decide_eq_true_eq] at hwf
    obtain ⟨⟨hd, ha⟩, hj⟩ := hwf
    have hf := f.code_lt
    have hu := unsigned_lt 12 j
    refine reads_encE (by decide) (by decide) hd ha (by omega) hu rfl fun sw rest => ?_
    simp (disch := omega) only [decodeOne, slices_30_25, decodeM, encE_marked, storeSize?_code, orReserved_some, signed_unsigned (by decide) hj]
  case satom op sc o d a b =>
    simp only [Instr.wellFormed, okS, Bool.and_eq_true, decide_eq_true_eq] at hwf
    obtain ⟨⟨⟨⟨hd, ha⟩, hb⟩, ho⟩, hcas⟩ := hwf
    have hop := op.code_lt
    have hsc := sc.code_lt
    have ho := o.code_lt_satom ho
    refine reads_encD (by decide) (by decide) hd ha hb (by omega) rfl fun sw rest => ?_
    have h9 : (o.code * 2 ^ 6 + sc.code * 2 ^ 3 + op.code) / 256 = 0 := by omega
    have h7 : (o.code * 2 ^ 6 + sc.code * 2 ^ 3 + op.code) / 64 % 4 = o.code := by omega
    have h5 : (o.code * 2 ^ 6 + sc.code * 2 ^ 3 + op.code) / 8 % 8 = sc.code := by omega
    have h2 : (o.code * 2 ^ 6 + sc.code * 2 ^ 3 + op.code) % 8 = op.code := by omega
    simp (disch := omega) only [decodeOne, slices_30_25, decodeM, encD_marked, slicesD, h9, h7, h5, h2, scope?_code, memOrder?_code, atomicOp_code,
      orReserved_some, hcas]
    rfl
  case ssrRead d r =>
    simp only [Instr.wellFormed, okS, okN, Bool.and_eq_true, decide_eq_true_eq] at hwf
    obtain ⟨hd, hr⟩ := hwf
    refine reads_encE (by decide) (by decide) hd (by decide) (by decide) hr rfl fun sw rest => ?_
    simp (disch := omega) only [decodeOne, slices_30_25, decodeM, encE_marked]
    rfl
  case ssrWrite r a =>
    simp only [Instr.wellFormed, okS, okN, Bool.and_eq_true, decide_eq_true_eq] at hwf
    obtain ⟨hr, ha⟩ := hwf
    refine reads_encE (by decide) (by decide) (by decide) ha (by decide) hr rfl fun sw rest => ?_
    simp (disch := omega) only [decodeOne, slices_30_25, decodeM, encE_marked]
    rfl
  all_goals exact nomatch hp

theorem reads_control {i : Instr} (hp : i.page = some .control) (hwf : i.wellFormed = true) : Reads i := by
  cases i
  case br c a b j =>
    simp only [Instr.wellFormed, okS, Bool.and_eq_true, decide_eq_true_eq] at hwf
    obtain ⟨⟨ha, hb⟩, hj⟩ := hwf
    have hc := c.code_lt
    have hu := unsigned_lt 12 j
    refine reads_encE (by decide) (by decide) ha hb (by omega) hu rfl fun sw rest => ?_
    simp (disch := omega) only [decodeOne, slices_30_25, decodeC, encE_marked, brCond?_code, orReserved_some, signed_unsigned (by decide) hj]
  case jmp j | call j =>
    simp only [Instr.wellFormed] at hwf
    have hu := unsigned_lt 25 j
    refine reads_one (by decide) (by decide) hu rfl fun sw rest => ?_
    simp (disch := omega) only [decodeOne, slices_30_25, decodeC, major_marked, signed_unsigned (by decide) hwf]
  case calli y | jmpi y =>
    simp only [Instr.wellFormed, okS, decide_eq_true_eq] at hwf
    refine reads_encK (by decide) (by decide) (by decide) (by decide) hwf (by decide) rfl fun sw rest => ?_
    simp (disch := omega) only [decodeOne, slices_30_25, decodeC, decodeCtl, encK_marked]
    rfl
  case callv x =>
    simp only [Instr.wellFormed, okV, Bool.and_eq_true, decide_eq_true_eq, beq_iff_eq] at hwf
    obtain ⟨hx, heven⟩ := hwf
    refine reads_encK (by decide) (by decide) (by decide) hx (by decide) (by decide) rfl fun sw rest => ?_
    simp (disch := omega) only [decodeOne, slices_30_25, decodeC, decodeCtl, encK_marked, heven]
    rfl
  case ret =>
    refine reads_encK (by decide) (by decide) (by decide) (by decide) (by decide) (by decide) rfl fun sw rest => ?_
    simp (disch := omega) only [decodeOne, slices_30_25, decodeC, decodeCtl, encK_marked]
    rfl
  case spadj j =>
    simp only [Instr.wellFormed] at hwf
    have hu := unsigned_lt 8 j
    refine reads_encK (by decide) (by decide) (by decide) (by decide) (by decide) hu rfl fun sw rest => ?_
    simp (disch := omega) only [decodeOne, slices_30_25, decodeC, decodeCtl, encK_marked, signed_unsigned (by decide) hwf]
    rfl
  case meldOn p =>
    simp only [Instr.wellFormed, okP, decide_eq_true_eq] at hwf
    refine reads_encK (by decide) (by decide) (by decide) (by decide) (by decide) (by omega) rfl fun sw rest => ?_
    have h7 : p / 16 = 0 := by omega
    have h3 : p % 16 = p := by omega
    simp (disch := omega) only [decodeOne, slices_30_25, decodeC, decodeMeld, encK_marked, slicesK, h7, h3, decide_eq_true hwf]
    rfl
  case meldOff =>
    refine reads_encK (by decide) (by decide) (by decide) (by decide) (by decide) (by decide) rfl fun sw rest => ?_
    simp (disch := omega) only [decodeOne, slices_30_25, decodeC, decodeMeld, encK_marked]
    rfl
  case meldLdt y =>
    simp only [Instr.wellFormed, okS, decide_eq_true_eq] at hwf
    refine reads_encK (by decide) (by decide) (by decide) (by decide) hwf (by decide) rfl fun sw rest => ?_
    simp (disch := omega) only [decodeOne, slices_30_25, decodeC, decodeMeld, encK_marked]
    rfl
  case mma d a b f | mmag d a b f =>
    simp only [Instr.wellFormed, okS, Bool.and_eq_true, decide_eq_true_eq] at hwf
    obtain ⟨⟨⟨hd, ha⟩, hb⟩, hf⟩ := hwf
    refine reads_encD (by decide) (by decide) hd ha hb (by omega) rfl fun sw rest => ?_
    have h4 : f * 2 ^ 5 % 32 = 0 := by omega
    have h9 : f * 2 ^ 5 / 32 = f := by omega
    simp (disch := omega) only [decodeOne, slices_30_25, decodeC, encD_marked, slicesD, h4, h9]
    rfl
  case mode n =>
    have hn := n.isLt
    refine reads_one (by decide) (by decide) (by omega) rfl fun sw rest => ?_
    have h24 : n.toNat / 16777216 = 0 := by omega
    have h16 : n.toNat / 65536 % 256 = 0 := by omega
    have h15 : n.toNat % 65536 = n.toNat := by omega
    simp (disch := omega) only [decodeOne, slices_30_25, decodeC, major_marked, slicesMode, h24, h16, h15, BitVec.ofNat_toNat, BitVec.setWidth_eq]
    rfl
  case modeScalar a =>
    simp only [Instr.wellFormed, okS, decide_eq_true_eq] at hwf
    refine reads_one (by decide) (by decide) (by omega) rfl fun sw rest => ?_
    have h24 : (2 ^ 24 + a * 2 ^ 16) / 16777216 = 1 := by omega
    have h21 : (2 ^ 24 + a * 2 ^ 16) / 2097152 % 8 = 0 := by omega
    have h15 : (2 ^ 24 + a * 2 ^ 16) % 65536 = 0 := by omega
    have h16 : (2 ^ 24 + a * 2 ^ 16) / 65536 % 32 = a := by omega
    simp (disch := omega) only [decodeOne, slices_30_25, decodeC, major_marked, slicesMode, h24, h21, h15, h16]
    rfl
  all_goals exact nomatch hp

theorem reads_async {i : Instr} (hp : i.page = some .async) (hwf : i.wellFormed = true) : Reads i := by
  cases i
  case tcopy b y =>
    simp only [Instr.wellFormed, okS, Bool.and_eq_true, decide_eq_true_eq] at hwf
    obtain ⟨hb, hy⟩ := hwf
    obtain ⟨hlt, h19⟩ := encBar_lt hb
    have hx : encBar b < 256 := by omega
    refine reads_encK (by decide) (by decide) (by decide) hx hy (by decide) rfl fun sw rest => ?_
    obtain ⟨hm, hf, hx', hy', hi⟩ := encK_marked (m := 0x3A) (f := 0) (i := 0) (sw := sw) (by decide) (by decide) hx hy (by decide)
    simp only [decodeOne, slices_30_25, decodeC, decodeAsync, hm, hf, hx', hy', hi, slicesK, h19, barField_encBar hb (congrArg (· / 128) hx') (congrArg (· % 32) hx')]
    rfl
  case tcopyY b y c =>
    simp only [Instr.wellFormed, okS, okN, Bool.and_eq_true, decide_eq_true_eq, bne_iff_ne] at hwf
    obtain ⟨⟨⟨hb, hy⟩, hc⟩, hc0⟩ := hwf
    obtain ⟨hlt, h19⟩ := encBar_lt hb
    have hx : encBar b < 256 := by omega
    refine reads_encK (by decide) (by decide) (by decide) hx hy hc rfl fun sw rest => ?_
    obtain ⟨hm, hf, hx', hy', hi⟩ := encK_marked (m := 0x3A) (f := 1) (sw := sw) (by decide) (by decide) hx hy hc
    simp only [decodeOne, slices_30_25, decodeC, decodeAsync, hm, hf, hx', hy', hi, slicesK, h19, barField_encBar hb (congrArg (· / 128) hx') (congrArg (· % 32) hx'),
      bne_iff_ne.mpr hc0]
    rfl
  case actld b shm y =>
    simp only [Instr.wellFormed, okS, Bool.and_eq_true, decide_eq_true_eq] at hwf
    obtain ⟨hb, hy⟩ := hwf
    obtain ⟨hlt, h19⟩ := encBar_lt hb
    have hshm := ofBit_lt shm
    have hx : encBar b + ofBit shm * 64 < 256 := by omega
    have hflag : (encBar b + ofBit shm * 64) / 128 = encBar b / 128 := by omega
    have hreg : (encBar b + ofBit shm * 64) % 32 = encBar b % 32 := by omega
    have h64 : (encBar b + ofBit shm * 64) / 64 % 2 = ofBit shm := by omega
    have h32 : (encBar b + ofBit shm * 64) / 32 % 2 = 0 := by omega
    refine reads_encK (by decide) (by decide) (by decide) hx hy (by decide) rfl fun sw rest => ?_
    obtain ⟨hm, hf, hx', hy', hi⟩ := encK_marked (m := 0x3A) (f := 11) (i := 0) (sw := sw) (by decide) (by decide) hx hy (by decide)
    simp only [decodeOne, slices_30_25, decodeC, decodeAsync, hm, hf, hx', hy', hi, slicesK, h64, h32,
      barField_encBar hb ((congrArg (· / 128) hx').trans hflag) ((congrArg (· % 32) hx').trans hreg), ofBit_beq_one]
    rfl
  case accld b shm a y =>
    simp only [Instr.wellFormed, okS, Bool.and_eq_true, decide_eq_true_eq] at hwf
    obtain ⟨⟨hb, ha⟩, hy⟩ := hwf
    obtain ⟨hx, h32, h17, h64⟩ := encAccX_lt b shm ha
    have hj := accBar_lt hb
    refine reads_encK (by decide) (by decide) (by decide) hx hy (by omega) rfl fun sw rest => ?_
    obtain ⟨hm, hf, hx', hy', hi⟩ := encK_marked (m := 0x3A) (f := 8) (i := b.getD 0) (sw := sw) (by decide) (by decide) hx hy (by omega)
    have h5 : b.getD 0 / 32 = 0 := by omega
    simp only [decodeOne, slices_30_25, decodeC, decodeAsync, hm, hf, hx', hy', hi, slicesK, h32, h17, h64, h5, accBar_encAccX ha hb hx' hi]
    rfl
  case accst b shm a y =>
    simp only [Instr.wellFormed, okS, Bool.and_eq_true, decide_eq_true_eq] at hwf
    obtain ⟨⟨hb, ha⟩, hy⟩ := hwf
    obtain ⟨hx, h32, h17, h64⟩ := encAccX_lt b shm ha
    have hj := accBar_lt hb
    refine reads_encK (by decide) (by decide) (by decide) hx hy (by omega) rfl fun sw rest => ?_
    obtain ⟨hm, hf, hx', hy', hi⟩ := encK_marked (m := 0x3A) (f := 9) (i := b.getD 0) (sw := sw) (by decide) (by decide) hx hy (by omega)
    have h5 : b.getD 0 / 32 = 0 := by omega
    have h7 : b.getD 0 / 128 = 0 := by omega
    simp only [decodeOne, slices_30_25, decodeC, decodeAsync, hm, hf, hx', hy', hi, slicesK, h32, h17, h64, h5, h7, accBar_encAccX ha hb hx' hi]
    rfl
  case afence d =>
    simp only [Instr.wellFormed, okS, decide_eq_true_eq] at hwf
    refine reads_encK (by decide) (by decide) (by decide) (by omega) (by decide) (by decide) rfl fun sw rest => ?_
    have h20 : d / 32 = 0 := by omega
    have h17 : d % 32 = d := by omega
    simp (disch := omega) only [decodeOne, slices_30_25, decodeC, decodeAsync, encK_marked, slicesK, h20, h17]
    rfl
  case await d n | binit d n =>
    simp only [Instr.wellFormed, okS, Bool.and_eq_true, decide_eq_true_eq] at hwf
    obtain ⟨hd, hn⟩ := hwf
    refine reads_encK (by decide) (by decide) (by decide) (by omega) hn (by decide) rfl fun sw rest => ?_
    have h20 : d / 32 = 0 := by omega
    have h17 : d % 32 = d := by omega
    simp (disch := omega) only [decodeOne, slices_30_25, decodeC, decodeAsync, encK_marked, slicesK, h20, h17]
    rfl
  case barv y c =>
    simp only [Instr.wellFormed, okS, okN, Bool.and_eq_true, decide_eq_true_eq, bne_iff_ne] at hwf
    obtain ⟨⟨hy, hc⟩, hc0⟩ := hwf
    refine reads_encK (by decide) (by decide) (by decide) (by decide) hy hc rfl fun sw rest => ?_
    have hc0 : (c != 0) = true := bne_iff_ne.mpr hc0
    simp (disch := omega) only [decodeOne, slices_30_25, decodeC, decodeAsync, encK_marked, hc0]
    rfl
  case bwait d y q =>
    simp only [Instr.wellFormed, okS, Bool.and_eq_true, decide_eq_true_eq] at hwf
    obtain ⟨hd, hy⟩ := hwf
    have hq := ofBit_lt q
    refine reads_encK (by decide) (by decide) (by decide) (by omega) hy (by omega) rfl fun sw rest => ?_
    have h20 : d / 32 = 0 := by omega
    have h17 : d % 32 = d := by omega
    have h7 : ofBit q / 2 = 0 := by omega
    have h0 : ofBit q % 2 = ofBit q := by omega
    simp (disch := omega) only [decodeOne, slices_30_25, decodeC, decodeAsync, encK_marked, slicesK, h20, h17, h7, h0, ofBit_beq_one]
    rfl
  case accz y =>
    simp only [Instr.wellFormed, okS, decide_eq_true_eq] at hwf
    refine reads_encK (by decide) (by decide) (by decide) (by decide) hwf (by decide) rfl fun sw rest => ?_
    simp (disch := omega) only [decodeOne, slices_30_25, decodeC, decodeAsync, encK_marked]
    rfl
  case accstR d y =>
    simp only [Instr.wellFormed, okV, okS, Bool.and_eq_true, decide_eq_true_eq] at hwf
    obtain ⟨hd, hy⟩ := hwf
    refine reads_encK (by decide) (by decide) (by decide) hd hy (by decide) rfl fun sw rest => ?_
    simp (disch := omega) only [decodeOne, slices_30_25, decodeC, decodeAsync, encK_marked, slicesK]
    rfl
  case rstat d y r =>
    simp only [Instr.wellFormed, okV, okS, okN, Bool.and_eq_true, decide_eq_true_eq] at hwf
    obtain ⟨⟨hd, hy⟩, hr⟩ := hwf
    refine reads_encK (by decide) (by decide) (by decide) hd hy hr rfl fun sw rest => ?_
    simp (disch := omega) only [decodeOne, slices_30_25, decodeC, decodeAsync, encK_marked]
  all_goals exact nomatch hp

theorem reads_task {i : Instr} (hp : i.page = some .task) (hwf : i.wellFormed = true) : Reads i := by
  cases i
  case txend | txendo =>
    refine reads_encK (by decide) (by decide) (by decide) (by decide) (by decide) (by decide) rfl fun sw rest => ?_
    simp (disch := omega) only [decodeOne, slices_30_25, decodeC, decodeTask, encK_marked]
    rfl
  case txabort c =>
    simp only [Instr.wellFormed, okN, decide_eq_true_eq] at hwf
    refine reads_encK (by decide) (by decide) (by decide) (by decide) (by decide) hwf rfl fun sw rest => ?_
    simp (disch := omega) only [decodeOne, slices_30_25, decodeC, decodeTask, encK_marked]
    rfl
  case txstat d p =>
    simp only [Instr.wellFormed, okV, okP, Bool.and_eq_true, decide_eq_true_eq] at hwf
    obtain ⟨hd, hp⟩ := hwf
    refine reads_encK (by decide) (by decide) (by decide) hd (by decide) (by omega) rfl fun sw rest => ?_
    have h7 : p / 16 = 0 := by omega
    have h3 : p % 16 = p := by omega
    simp (disch := omega) only [decodeOne, slices_30_25, decodeC, decodeTask, encK_marked, slicesK, h7, h3, decide_eq_true hp]
    rfl
  case spawn x y | qappend x y =>
    simp only [Instr.wellFormed, okV, okS, Bool.and_eq_true, decide_eq_true_eq] at hwf
    obtain ⟨hx, hy⟩ := hwf
    refine reads_encK (by decide) (by decide) (by decide) hx hy (by decide) rfl fun sw rest => ?_
    simp (disch := omega) only [decodeOne, slices_30_25, decodeC, decodeTask, encK_marked, slicesK]
    rfl
  case spawno x y n =>
    simp only [Instr.wellFormed, okV, okS, Bool.and_eq_true, decide_eq_true_eq] at hwf
    obtain ⟨⟨hx, hy⟩, hn⟩ := hwf
    refine reads_encK (by decide) (by decide) (by decide) hx hy (by omega) rfl fun sw rest => ?_
    have h7 : n / 32 = 0 := by omega
    have h4 : n % 32 = n := by omega
    simp (disch := omega) only [decodeOne, slices_30_25, decodeC, decodeTask, encK_marked, slicesK, h7, h4]
    rfl
  case launch x =>
    simp only [Instr.wellFormed, okV, Bool.and_eq_true, decide_eq_true_eq, beq_iff_eq] at hwf
    obtain ⟨hx, heven⟩ := hwf
    refine reads_encK (by decide) (by decide) (by decide) hx (by decide) (by decide) rfl fun sw rest => ?_
    simp (disch := omega) only [decodeOne, slices_30_25, decodeC, decodeTask, encK_marked, heven]
    rfl
  case qappendTry x y p =>
    simp only [Instr.wellFormed, okV, okS, okP, Bool.and_eq_true, decide_eq_true_eq] at hwf
    obtain ⟨⟨hx, hy⟩, hp⟩ := hwf
    refine reads_encK (by decide) (by decide) (by decide) hx hy (by omega) rfl fun sw rest => ?_
    have h7 : (0x80 + p) / 128 = 1 := by omega
    have h6 : (0x80 + p) / 16 % 8 = 0 := by omega
    have h3 : (0x80 + p) % 16 = p := by omega
    simp (disch := omega) only [decodeOne, slices_30_25, decodeC, decodeTask, encK_marked, slicesK, h7, h6, h3, decide_eq_true hp]
    rfl
  case qpop x y v c =>
    simp only [Instr.wellFormed, okV, okS, okP, Bool.and_eq_true, decide_eq_true_eq, bne_iff_ne] at hwf
    obtain ⟨⟨⟨⟨hx, hy⟩, hv⟩, hc⟩, hne⟩ := hwf
    refine reads_encK (by decide) (by decide) (by decide) hx hy (by omega) rfl fun sw rest => ?_
    have h7 : (v * 16 + c) / 16 = v := by omega
    have h3 : (v * 16 + c) % 16 = c := by omega
    simp (disch := omega) only [decodeOne, slices_30_25, decodeC, decodeTask, encK_marked, slicesK, h7, h3, decide_eq_true hv, decide_eq_true hc,
      bne_iff_ne.mpr hne]
    rfl
  case qatt y | qdet y | gset y =>
    simp only [Instr.wellFormed, okS, decide_eq_true_eq] at hwf
    refine reads_encK (by decide) (by decide) (by decide) (by decide) hwf (by decide) rfl fun sw rest => ?_
    simp (disch := omega) only [decodeOne, slices_30_25, decodeC, decodeTask, encK_marked, slicesK]
    rfl
  case qattOwn y q =>
    simp only [Instr.wellFormed, okS, okN, Bool.and_eq_true, decide_eq_true_eq] at hwf
    obtain ⟨hy, hq⟩ := hwf
    refine reads_encK (by decide) (by decide) (by decide) (by decide) hy (by omega) rfl fun sw rest => ?_
    have h7 : (0x80 + q) / 128 = 1 := by omega
    have h6 : (0x80 + q) / 16 % 8 = 0 := by omega
    have h3 : (0x80 + q) % 16 = q := by omega
    simp (disch := omega) only [decodeOne, slices_30_25, decodeC, decodeTask, encK_marked, slicesK, h7, h6, h3]
    rfl
  case qdetOwn q =>
    simp only [Instr.wellFormed, okN, decide_eq_true_eq] at hwf
    refine reads_encK (by decide) (by decide) (by decide) (by decide) (by decide) (by omega) rfl fun sw rest => ?_
    have h7 : (0x80 + q) / 128 = 1 := by omega
    have h6 : (0x80 + q) / 16 % 8 = 0 := by omega
    have h3 : (0x80 + q) % 16 = q := by omega
    simp (disch := omega) only [decodeOne, slices_30_25, decodeC, decodeTask, encK_marked, slicesK, h7, h6, h3]
    rfl
  case coll d y =>
    simp only [Instr.wellFormed, okS, Bool.and_eq_true, decide_eq_true_eq] at hwf
    obtain ⟨hd, hy⟩ := hwf
    refine reads_encK (by decide) (by decide) (by decide) (by omega) hy (by decide) rfl fun sw rest => ?_
    have h20 : d / 32 = 0 := by omega
    have h17 : d % 32 = d := by omega
    simp (disch := omega) only [decodeOne, slices_30_25, decodeC, decodeTask, encK_marked, slicesK, h20, h17]
    rfl
  all_goals exact nomatch hp

theorem reads_vext {i : Instr} (hp : i.page = some .vext) (hwf : i.wellFormed = true) : Reads i := by
  cases i
  case vnot d a r | vabs d a r | vneg d a r | vclz d a r | vpopc d a r | vrcp d a r | vrsq d a r | vexp2 d a r | vlog2 d a r | vsin d a r | vcos d a r
      | vact d a r | vredadd d a r | vredmin d a r | vredmax d a r | vredand d a r | vredor d a r | vredxor d a r | vscan d a r | vmatch d a r
      | vpack d a r | vunpk d a r =>
    simp only [Instr.wellFormed, okV, Bool.and_eq_true, decide_eq_true_eq] at hwf
    obtain ⟨hd, ha⟩ := hwf
    have hr := ofBit_lt r
    refine reads_encX (by decide) (by decide) (by decide) hd ha hr rfl fun sw rest => ?_
    simp (disch := omega) only [decodeOne, slices_30_25, decodeC, decodeVext, encX_marked, vextReuse, bit_zero, ofBit_beq_one]
  case vmov d a | vmovSpecial d a =>
    simp only [Instr.wellFormed, okV, Bool.and_eq_true, decide_eq_true_eq] at hwf
    obtain ⟨hd, ha⟩ := hwf
    refine reads_encX (by decide) (by decide) (by decide) hd ha (by decide) rfl fun sw rest => ?_
    simp (disch := omega) only [decodeOne, slices_30_25, decodeC, decodeVext, encX_marked, bit_zero]
    rfl
  case vvoteany d a | vvoteall d a =>
    simp only [Instr.wellFormed, okP, Bool.and_eq_true, decide_eq_true_eq] at hwf
    obtain ⟨hd, ha⟩ := hwf
    refine reads_encX (by decide) (by decide) (by decide) (by omega) (by omega) (by decide) rfl fun sw rest => ?_
    simp (disch := omega) only [decodeOne, slices_30_25, decodeC, decodeVext, vextVote, encX_marked, slicesX, Nat.mul_mod_left, Nat.mul_div_cancel, Nat.zero_mul,
      Nat.add_zero, decide_eq_true hd, decide_eq_true ha]
    rfl
  case vballot d p =>
    simp only [Instr.wellFormed, okV, okP, Bool.and_eq_true, decide_eq_true_eq] at hwf
    obtain ⟨hd, hp⟩ := hwf
    refine reads_encX (by decide) (by decide) (by decide) hd (by omega) (by decide) rfl fun sw rest => ?_
    simp (disch := omega) only [decodeOne, slices_30_25, decodeC, decodeVext, encX_marked, slicesX, Nat.mul_mod_left, Nat.mul_div_cancel, Nat.zero_mul,
      Nat.add_zero, decide_eq_true hp]
    rfl
  case vrand d =>
    simp only [Instr.wellFormed, okV, Bool.and_eq_true, decide_eq_true_eq, beq_iff_eq] at hwf
    obtain ⟨hd, h4⟩ := hwf
    refine reads_encX (by decide) (by decide) (by decide) hd (by decide) (by decide) rfl fun sw rest => ?_
    simp (disch := omega) only [decodeOne, slices_30_25, decodeC, decodeVext, encX_marked, slicesX, h4]
    rfl
  case pand d a b | por d a b | pxor d a b =>
    simp only [Instr.wellFormed, okP, Bool.and_eq_true, decide_eq_true_eq] at hwf
    obtain ⟨⟨hd, ha⟩, hb⟩ := hwf
    refine reads_encX (by decide) (by decide) (by decide) (by omega) (by omega) (by decide) rfl fun sw rest => ?_
    simp (disch := omega) only [decodeOne, slices_30_25, decodeC, decodeVext, vextPPP, encX_marked, slicesX, slice_div, slice_mod, Nat.mul_mod_left,
      Nat.mul_div_cancel, Nat.zero_mul, Nat.add_zero, decide_eq_true hd, decide_eq_true ha, decide_eq_true hb]
    rfl
  case pnot d a | pmov d a =>
    simp only [Instr.wellFormed, okP, Bool.and_eq_true, decide_eq_true_eq] at hwf
    obtain ⟨hd, ha⟩ := hwf
    refine reads_encX (by decide) (by decide) (by decide) (by omega) (by decide) (by decide) rfl fun sw rest => ?_
    simp (disch := omega) only [decodeOne, slices_30_25, decodeC, decodeVext, vextPP, encX_marked, slicesX, slice_div, slice_mod, decide_eq_true hd,
      decide_eq_true ha]
    rfl
  case ppack d a n =>
    simp only [Instr.wellFormed, okV, okP, Bool.and_eq_true, decide_eq_true_eq] at hwf
    obtain ⟨⟨⟨⟨hd, ha⟩, hlo⟩, hhi⟩, hroom⟩ := hwf
    refine reads_encX (by decide) (by decide) (by decide) hd (by omega) (by decide) rfl fun sw rest => ?_
    simp (disch := omega) only [decodeOne, slices_30_25, decodeC, decodeVext, encX_marked, slicesX, bit_zero, slice_div, slice_mod, Nat.sub_add_cancel hlo,
      decide_eq_true hroom]
    rfl
  case punpk d n a =>
    simp only [Instr.wellFormed, okV, okP, Bool.and_eq_true, decide_eq_true_eq] at hwf
    obtain ⟨⟨⟨⟨hd, ha⟩, hlo⟩, hhi⟩, hroom⟩ := hwf
    refine reads_encX (by decide) (by decide) (by decide) (by omega) ha (by decide) rfl fun sw rest => ?_
    simp (disch := omega) only [decodeOne, slices_30_25, decodeC, decodeVext, encX_marked, slicesX, bit_zero, slice_div, slice_mod, Nat.sub_add_cancel hlo,
      decide_eq_true hroom]
    rfl
  case ptos d a =>
    simp only [Instr.wellFormed, okS, okP, Bool.and_eq_true, decide_eq_true_eq] at hwf
    obtain ⟨hd, ha⟩ := hwf
    refine reads_encX (by decide) (by decide) (by decide) (by omega) (by omega) (by decide) rfl fun sw rest => ?_
    have h14 : d / 32 = 0 := by omega
    have h13 : d % 32 = d := by omega
    simp (disch := omega) only [decodeOne, slices_30_25, decodeC, decodeVext, encX_marked, slicesX, h14, h13, Nat.mul_mod_left, Nat.mul_div_cancel, Nat.zero_mul,
      Nat.add_zero, decide_eq_true ha]
    rfl
  case pset d a =>
    simp only [Instr.wellFormed, okS, okP, Bool.and_eq_true, decide_eq_true_eq] at hwf
    obtain ⟨hd, ha⟩ := hwf
    refine reads_encX (by decide) (by decide) (by decide) (by omega) (by omega) (by decide) rfl fun sw rest => ?_
    have h8 : a / 32 = 0 := by omega
    have h5 : a % 32 = a := by omega
    simp (disch := omega) only [decodeOne, slices_30_25, decodeC, decodeVext, encX_marked, slicesX, bit_zero, h8, h5, Nat.mul_mod_left, Nat.mul_div_cancel,
      decide_eq_true hd]
    rfl
  case vlane d a =>
    simp only [Instr.wellFormed, okV, okS, Bool.and_eq_true, decide_eq_true_eq] at hwf
    obtain ⟨hd, ha⟩ := hwf
    refine reads_encX (by decide) (by decide) (by decide) hd (by omega) (by decide) rfl fun sw rest => ?_
    have h8 : a / 32 = 0 := by omega
    have h5 : a % 32 = a := by omega
    simp (disch := omega) only [decodeOne, slices_30_25, decodeC, decodeVext, encX_marked, slicesX, bit_zero, h8, h5]
    rfl
  all_goals exact nomatch hp

theorem reads_sys {i : Instr} (hp : i.page = some .sys) (hwf : i.wellFormed = true) : Reads i := by
  cases i
  case nop | exit | yield | eret | bar | cbar =>
    refine reads_encX (by decide) (by decide) (by decide) (by decide) (by decide) (by decide) rfl fun sw rest => ?_
    simp (disch := omega) only [decodeOne, slices_30_25, decodeC, decodeSys, encX_marked, slicesX]
    rfl
  case trap n =>
    simp only [Instr.wellFormed, okN, decide_eq_true_eq] at hwf
    refine reads_imm (k := 0x03) (by decide) (by decide) (by decide) hwf rfl fun sw rest => ?_
    have h16 : n / 256 * 256 + n % 256 = n := by omega
    simp (disch := omega) only [decodeOne, slices_30_25, decodeC, decodeSys, encX_marked, slicesX, bit_zero, h16]
    rfl
  case bkpt n =>
    simp only [Instr.wellFormed, okN, decide_eq_true_eq] at hwf
    refine reads_imm (k := 0x04) (by decide) (by decide) (by decide) hwf rfl fun sw rest => ?_
    have h16 : n / 256 * 256 + n % 256 = n := by omega
    simp (disch := omega) only [decodeOne, slices_30_25, decodeC, decodeSys, encX_marked, slicesX, bit_zero, h16]
    rfl
  case sleep n =>
    simp only [Instr.wellFormed, okN, decide_eq_true_eq] at hwf
    refine reads_imm (k := 0x0A) (by decide) (by decide) (by decide) hwf rfl fun sw rest => ?_
    have h16 : n / 256 * 256 + n % 256 = n := by omega
    simp (disch := omega) only [decodeOne, slices_30_25, decodeC, decodeSys, encX_marked, slicesX, bit_zero, h16]
    rfl
  case fence sc o =>
    simp only [Instr.wellFormed] at hwf
    have hsc := sc.code_lt
    have ho := o.code_lt
    refine reads_encX (by decide) (by decide) (by decide) (by omega) (by omega) (by decide) rfl fun sw rest => ?_
    have h12 : sc.code / 8 = 0 := by omega
    have h9 : sc.code % 8 = sc.code := by omega
    have h4 : o.code / 8 = 0 := by omega
    have h1 : o.code % 8 = o.code := by omega
    simp (disch := omega) only [decodeOne, slices_30_25, decodeC, decodeSys, encX_marked, slicesX, bit_zero, h12, h9, h4, h1, scope?_code, memOrder?_code,
      orReserved_some, hwf]
    rfl
  case rfence a sc b o =>
    simp only [Instr.wellFormed, okS, Bool.and_eq_true, decide_eq_true_eq] at hwf
    obtain ⟨⟨ha, hb⟩, hin⟩ := hwf
    have hsc := sc.code_lt
    have ho := o.code_lt
    refine reads_encX (by decide) (by decide) (by decide) (by omega) (by omega) (by decide) rfl fun sw rest => ?_
    simp (disch := omega) only [decodeOne, slices_30_25, decodeC, decodeSys, encX_marked, slicesX, bit_zero, slice_div, slice_mod, scope?_code, memOrder?_code,
      orReserved_some, hin]
    rfl
  case pref a l j =>
    simp only [Instr.wellFormed, okS, Bool.and_eq_true, decide_eq_true_eq] at hwf
    obtain ⟨ha, hj⟩ := hwf
    have hl := l.code_lt
    have hu := unsigned_lt 8 j
    refine reads_encX (by decide) (by decide) (by decide) (by omega) hu (by decide) rfl fun sw rest => ?_
    simp (disch := omega) only [decodeOne, slices_30_25, decodeC, decodeSys, encX_marked, slicesX, bit_zero, slice_div, slice_mod, prefLevel?_code,
      orReserved_some, signed_unsigned (by decide) hj]
    rfl
  all_goals exact nomatch hp

/-! ### The instructions of several words -/

/-- The halves of a word. -/
theorem halves {x y : Nat} (hx : x < 2 ^ 16) (hy : y < 2 ^ 16) : bits (x * 2 ^ 16 + y) 31 16 = x ∧ bits (x * 2 ^ 16 + y) 15 0 = y := by
  simp only [bits]
  omega

theorem reads_split {p : Nat} {sense : Bool} {els join : Int} (hwf : (Instr.split p sense els join).wellFormed = true) :
    Reads (.split p sense els join) := by
  simp only [Instr.wellFormed, okP, Bool.and_eq_true, decide_eq_true_eq] at hwf
  obtain ⟨⟨hp, hels⟩, hjoin⟩ := hwf
  have hs := ofBit_lt sense
  have hr : p * 2 ^ 21 + ofBit sense * 2 ^ 20 < 2 ^ 25 := by omega
  intro w ws hw
  obtain ⟨rfl, rfl⟩ := List.cons.inj hw
  refine ⟨major_lt _ _ hr (by decide), fun sw rest => ?_⟩
  obtain ⟨hm, hr'⟩ := major_marked (m := 0x34) (sw := sw) (by decide) hr
  have h21 : (p * 2 ^ 21 + ofBit sense * 2 ^ 20) / 2097152 = p := by omega
  have h20 : (p * 2 ^ 21 + ofBit sense * 2 ^ 20) / 1048576 % 2 = ofBit sense := by omega
  have h19 : (p * 2 ^ 21 + ofBit sense * 2 ^ 20) % 1048576 = 0 := by omega
  obtain ⟨hhi, hlo⟩ := halves (unsigned_lt 16 els) (unsigned_lt 16 join)
  refine ⟨by rw [hm]; decide, by simp only [lengthOf, hm]; rfl, ?_⟩
  simp only [decodeOne, slices_30_25, decodeC, hm, slicesSplit, hr', List.cons_append, h21, h20, h19, ofBit_beq_one, hhi, hlo,
    signed_unsigned (by decide) hels, signed_unsigned (by decide) hjoin, decide_eq_true hp]
  rfl

/-- The first word of `REGION`, below the major opcode, and its fields. -/
theorem region_first {b k r nb v : Nat} (hk : k < 3) (hr : r < 16) (hnb : nb < 2) (hv : v < 2)
    (hb : b = k * 2 ^ 22 + r * 2 ^ 18 + nb * 2 ^ 17 + v * 2 ^ 16) :
    b < 2 ^ 25 ∧ b / 4194304 = k ∧ b / 262144 % 16 = r ∧ b / 131072 % 2 = nb ∧ b / 65536 % 2 = v ∧ b / 65536 % 64 = r * 4 + nb * 2 + v
    ∧ b % 65536 = 0 := by
  omega

/-- The last word of `REGION` and its fields. -/
theorem region_last {l vb vc p a : Nat} (hvb : vb < 256) (hvc : vc < 256) (hp : p < 4096) (ha : a < 2)
    (hl : l = vb * 2 ^ 24 + vc * 2 ^ 16 + p * 2 ^ 4 + a * 2 ^ 3) :
    bits l 31 24 = vb ∧ bits l 23 16 = vc ∧ bits l 15 4 = p ∧ bit l 3 = (a == 1) ∧ bits l 2 0 = 0 := by
  simp only [bits, bit, Bool.beq_eq_decide_eq, decide_eq_decide]
  omega

/-- A `REGION` of kind 0 holds no retries and no flags. -/
theorem region_plain_zero {k : RegionKind} {r : Nat} {nb v : Bool} (h : (k != .plain || r == 0 && !nb && !v) = true) :
    (k != .plain || r * 4 + ofBit nb * 2 + ofBit v == 0) = true := by
  cases k with
  | plain =>
    simp only [bne_self_eq_false, Bool.false_or, Bool.and_eq_true, beq_iff_eq, Bool.not_eq_true'] at h
    obtain ⟨⟨rfl, rfl⟩, rfl⟩ := h
    rfl
  | transaction => rfl
  | ordered => rfl

theorem reads_region {k : RegionKind} {r : Nat} {nb v : Bool} {sc : BitVec 32} {vb vc : Nat} {ps : BitVec 12} {al : Bool}
    (hwf : (Instr.region k r nb v sc vb vc ps al).wellFormed = true) : Reads (.region k r nb v sc vb vc ps al) := by
  simp only [Instr.wellFormed, okN, okV, Bool.and_eq_true (a := (_ && _)), Bool.and_eq_true (a := decide _), decide_eq_true_eq] at hwf
  obtain ⟨⟨⟨hr, hvb⟩, hvc⟩, hplain⟩ := hwf
  intro w ws hw
  obtain ⟨rfl, rfl⟩ := List.cons.inj hw
  obtain ⟨hb, h22, h18, h17, h16, h64, h15⟩ := region_first k.code_lt hr (ofBit_lt nb) (ofBit_lt v) rfl
  obtain ⟨l24, l16, l4, l3, l0⟩ := region_last hvb hvc ps.isLt (ofBit_lt al) rfl
  refine ⟨major_lt _ _ hb (by decide), fun sw rest => ?_⟩
  obtain ⟨hm, hb'⟩ := major_marked (m := 0x37) (sw := sw) (by decide) hb
  refine ⟨by rw [hm]; decide, by simp only [lengthOf, hm]; rfl, ?_⟩
  simp only [decodeOne, slices_30_25, decodeC, hm, slicesRegion, hb', List.cons_append, h22, h18, h17, h16, h64, h15, l24, l16, l4, l3, l0,
    regionKind?_code, orReserved_some, region_plain_zero hplain, ofBit_beq_one, BitVec.ofNat_toNat, BitVec.setWidth_eq]
  rfl

/-- A case word of `SWITCH` is read back. -/
theorem caseWord_enc {c : Nat × Int} (hkey : c.1 < 2 ^ 16) (htarget : okI 16 c.2 = true) : caseWord (c.1 * 2 ^ 16 + unsigned 16 c.2) = c := by
  obtain ⟨hhi, hlo⟩ := halves hkey (unsigned_lt 16 c.2)
  rw [caseWord, hhi, hlo, signed_unsigned (by decide) htarget]

theorem caseWords_enc {cs : List (Nat × Int)} (h : cs.all (fun c => okN 16 c.1 && okI 16 c.2) = true) :
    (cs.map fun c => c.1 * 2 ^ 16 + unsigned 16 c.2).map caseWord = cs := by
  simp only [List.all_eq_true, Bool.and_eq_true, okN, decide_eq_true_eq] at h
  rw [List.map_map]
  exact (List.map_congr_left fun c hc => caseWord_enc (h c hc).1 (h c hc).2).trans (List.map_id cs)

theorem reads_switch {a : Nat} {k : KeyType} {cs : List (Nat × Int)} {dflt join : Int} (hwf : (Instr.switch a k cs dflt join).wellFormed = true) :
    Reads (.switch a k cs dflt join) := by
  simp only [Instr.wellFormed, okV, Bool.and_eq_true, decide_eq_true_eq, Bool.not_eq_true', List.isEmpty_eq_false_iff] at hwf
  obtain ⟨⟨⟨⟨⟨ha, hne⟩, hlen⟩, hcs⟩, hdflt⟩, hjoin⟩ := hwf
  have hpos : 0 < cs.length := List.length_pos_of_ne_nil hne
  have hk := k.code_lt
  have hr : a * 2 ^ 17 + (cs.length - 1) * 2 ^ 14 + k.code * 2 ^ 12 < 2 ^ 25 := by omega
  have he : encodeWords (.switch a k cs dflt join) = major 0x35 (a * 2 ^ 17 + (cs.length - 1) * 2 ^ 14 + k.code * 2 ^ 12)
      :: (cs.map (fun c => c.1 * 2 ^ 16 + unsigned 16 c.2) ++ [unsigned 16 dflt * 2 ^ 16 + unsigned 16 join]) := rfl
  intro w ws hw
  obtain ⟨rfl, rfl⟩ := List.cons.inj (he.symm.trans hw)
  refine ⟨major_lt _ _ hr (by decide), fun sw rest => ?_⟩
  obtain ⟨hm, hr'⟩ := major_marked (m := 0x35) (sw := sw) (by decide) hr
  have h17 : (a * 2 ^ 17 + (cs.length - 1) * 2 ^ 14 + k.code * 2 ^ 12) / 131072 = a := by omega
  have h14 : (a * 2 ^ 17 + (cs.length - 1) * 2 ^ 14 + k.code * 2 ^ 12) / 16384 % 8 = cs.length - 1 := by omega
  have h12 : (a * 2 ^ 17 + (cs.length - 1) * 2 ^ 14 + k.code * 2 ^ 12) / 4096 % 4 = k.code := by omega
  have h11 : (a * 2 ^ 17 + (cs.length - 1) * 2 ^ 14 + k.code * 2 ^ 12) % 4096 = 0 := by omega
  obtain ⟨hhi, hlo⟩ := halves (unsigned_lt 16 dflt) (unsigned_lt 16 join)
  have hcases : cs.length = (cs.map fun c => c.1 * 2 ^ 16 + unsigned 16 c.2).length := List.length_map .. |>.symm
  refine ⟨by rw [hm]; decide, ?_, ?_⟩
  · simp only [lengthOf, hm, slicesSwitch, hr', h14, List.length_append, List.length_map, List.length_singleton]
    omega
  · simp only [decodeOne, slices_30_25, decodeC, hm, slicesSwitch, hr', h17, h14, h12, h11, Nat.sub_add_cancel hpos, List.append_assoc, List.singleton_append]
    rw [List.drop_left' hcases.symm, List.take_left' hcases.symm, caseWords_enc hcs]
    simp only [hhi, hlo, signed_unsigned (by decide) hdflt, signed_unsigned (by decide) hjoin, keyType?_code, orReserved_some]
    rfl

/-! ### All of them -/

/-- An instruction that a part of the decoder reads, by its part. -/
theorem reads_of_page {i : Instr} {p : Page} (hp : i.page = some p) (hwf : i.wellFormed = true) : Reads i := by
  cases p with
  | formatA => exact reads_formatA hp hwf
  | formatB => exact reads_formatB hp hwf
  | vectorMemory => exact reads_vectorMemory hp hwf
  | scalar => exact reads_scalar hp hwf
  | control => exact reads_control hp hwf
  | async => exact reads_async hp hwf
  | task => exact reads_task hp hwf
  | vext => exact reads_vext hp hwf
  | sys => exact reads_sys hp hwf

theorem reads_of_event {i : Instr} (he : encodeWords i = []) : Reads i := by
  intro w ws hw
  rw [he] at hw
  cases hw

/-- An encoded instruction other than `REP` that has no part of its own has several words. -/
theorem reads_of_wellFormed {i : Instr} (hrep : ∀ n sd sa sb st b, i ≠ .rep n sd sa sb st b) (hwf : i.wellFormed = true) : Reads i := by
  cases hp : i.page with
  | some p => exact reads_of_page hp hwf
  | none =>
    cases i
    case rep => exact absurd rfl (hrep _ _ _ _ _ _)
    case split => exact reads_split hwf
    case switch => exact reads_switch hwf
    case region => exact reads_region hwf
    all_goals first | exact reads_of_event rfl | exact nomatch hp

theorem encode_of_not_rep {i : Instr} (hrep : ∀ n sd sa sb st b, i ≠ .rep n sd sa sb st b) {w : Nat} {ws : List Nat} (he : encodeWords i = w :: ws)
    (sw : Bool) : encode i sw = (w + ofBit sw * 2 ^ 31) :: ws := by
  unfold encode
  split
  · exact absurd rfl (hrep _ _ _ _ _ _)
  · next hw => rw [he] at hw; cases hw; rfl
  · next hw => rw [he] at hw; cases hw

/-- The words of any instruction but `REP`. -/
theorem decodeWords_one {w : Nat} {ws : List Nat} {i : Instr} (h : bits w 30 25 ≠ 0x3D) (hi : decodeOne w ws = .ok i) :
    decodeWords (w :: ws) = .ok ⟨i, bit w 31, lengthOf w⟩ := by
  unfold decodeWords
  dsimp only
  rw [if_neg (by simpa using h), hi]
  rfl

/-- The words of a `REP` pair (R68, R76). -/
theorem decodeWords_pair {w b : Nat} {bs : List Nat} {body : Instr} (h : bits w 30 25 = 0x3D) (hmark : bit w 31 = false) (hzero : bits w 13 0 = 0)
    (hb : decodeOne b bs = .ok body) (hrep : repOk (bit w 18) (bit w 17) (bit w 16) (bits w 15 14) body = true) :
    decodeWords (w :: b :: bs) = .ok ⟨.rep (bits w 24 19) (bit w 18) (bit w 17) (bit w 16) (bits w 15 14) body, bit b 31, 2⟩ := by
  unfold decodeWords
  simp only [h, hmark, hzero, hb, bind, Except.bind, hrep]
  rfl

/-- An instruction other than `REP` decodes to itself. -/
theorem decodeWords_of_reads {i : Instr} {w : Nat} {ws : List Nat} (hrep : ∀ n sd sa sb st b, i ≠ .rep n sd sa sb st b) (hi : Reads i)
    (he : encodeWords i = w :: ws) (sw : Bool) (rest : List Nat) : decodeWords (encode i sw ++ rest) = .ok ⟨i, sw, (encode i sw).length⟩ := by
  obtain ⟨hlt, hread⟩ := hi w ws he
  obtain ⟨hmaj, hlen, hone⟩ := hread sw rest
  rw [encode_of_not_rep hrep he, List.cons_append, decodeWords_one hmaj hone, hlen, bit_marker _ _ hlt, List.length_cons]

/-- The fields of a `REP` word. -/
theorem rep_word {w n d a b st : Nat} (hn : n < 64) (hd : d < 2) (ha : a < 2) (hb : b < 2) (hst : st < 4)
    (hw : w = major 0x3D (n * 2 ^ 19 + d * 2 ^ 18 + a * 2 ^ 17 + b * 2 ^ 16 + st * 2 ^ 14)) :
    bits w 30 25 = 0x3D ∧ bit w 31 = false ∧ bits w 13 0 = 0 ∧ bits w 24 19 = n ∧ bit w 18 = (d == 1) ∧ bit w 17 = (a == 1)
    ∧ bit w 16 = (b == 1) ∧ bits w 15 14 = st := by
  simp only [major] at hw
  simp only [bits, bit, Bool.beq_eq_decide_eq, decide_eq_decide, decide_eq_false_iff_not]
  omega

/-- A `REP` pair decodes to itself where its repeated word does. -/
theorem decodeWords_rep {n st : Nat} {sd sa sb : Bool} {body : Instr} (hwf : (Instr.rep n sd sa sb st body).wellFormed = true) (sw : Bool)
    (rest : List Nat) :
    decodeWords (encode (.rep n sd sa sb st body) sw ++ rest) = .ok ⟨.rep n sd sa sb st body, sw, (encode (.rep n sd sa sb st body) sw).length⟩ := by
  simp only [Instr.wellFormed, okN, Bool.and_eq_true, decide_eq_true_eq] at hwf
  obtain ⟨⟨⟨hn, hst⟩, hrep⟩, hbody⟩ := hwf
  have hsteps := Laws.Words.repOk_isSome hrep
  obtain ⟨b, hb, -⟩ := Laws.Words.repeatable hsteps
  have hnot : ∀ n sd sa sb st c, body ≠ .rep n sd sa sb st c := by rintro _ _ _ _ _ _ rfl; exact nomatch hsteps
  obtain ⟨hlt, hread⟩ := reads_of_wellFormed hnot hbody b [] hb
  obtain ⟨-, -, hone⟩ := hread sw rest
  have hpair : encodeWords (.rep n sd sa sb st body) =
      major 0x3D (n * 2 ^ 19 + ofBit sd * 2 ^ 18 + ofBit sa * 2 ^ 17 + ofBit sb * 2 ^ 16 + st * 2 ^ 14) :: encodeWords body := rfl
  have he : encode (.rep n sd sa sb st body) sw =
      [major 0x3D (n * 2 ^ 19 + ofBit sd * 2 ^ 18 + ofBit sa * 2 ^ 17 + ofBit sb * 2 ^ 16 + st * 2 ^ 14), b + ofBit sw * 2 ^ 31] := by
    unfold encode
    rw [hpair, hb]
  obtain ⟨h25, h31, h13, h19, h18, h17, h16, h14⟩ := rep_word hn (ofBit_lt sd) (ofBit_lt sa) (ofBit_lt sb) hst rfl
  rw [ofBit_beq_one] at h18 h17 h16
  rw [he, List.cons_append, List.cons_append, decodeWords_pair h25 h31 h13 hone (by rw [h18, h17, h16, h14]; exact hrep), h19, h18, h17, h16, h14,
    bit_marker _ _ hlt]
  rfl

/-- Settles O2: an instruction other than `REP` is read from its words by its part of the decoder, and a `REP` pair by that of its repeated word. -/
theorem decodeEncode : Obligations.DecodeEncode := by
  intro i sw rest henc hwf
  by_cases hrep : ∃ n sd sa sb st b, i = .rep n sd sa sb st b
  · obtain ⟨n, sd, sa, sb, st, b, rfl⟩ := hrep
    exact decodeWords_rep hwf sw rest
  · have hnot : ∀ n sd sa sb st b, i ≠ .rep n sd sa sb st b := fun n sd sa sb st b h => hrep ⟨n, sd, sa, sb, st, b, h⟩
    cases he : encodeWords i with
    | nil => simp [Instr.isEncoded, he] at henc
    | cons w ws => exact decodeWords_of_reads hnot (reads_of_wellFormed hnot hwf) he sw rest

end Sys2Proof
end

section
set_option Elab.async false
/-! SUPPORT. Words that decode are those of the instruction that they decode to: for each part of the decoder, what it accepts (R67 to R80). -/

namespace Sys2Proof

/-! ### Codes -/

theorem elemType?_eq_some {n : Nat} {t : ElemType} : elemType? n = some t ↔ t.code = n :=
  ⟨fun h => by unfold elemType? at h; split at h <;> cases h <;> rfl, fun h => h ▸ elemType?_code t⟩
theorem cmp?_eq_some {n : Nat} {c : Cmp} : cmp? n = some c ↔ c.code = n :=
  ⟨fun h => by unfold cmp? at h; split at h <;> cases h <;> rfl, fun h => h ▸ cmp?_code c⟩
theorem brCond?_eq_some {n : Nat} {c : BrCond} : brCond? n = some c ↔ c.code = n :=
  ⟨fun h => by unfold brCond? at h; split at h <;> cases h <;> rfl, fun h => h ▸ brCond?_code c⟩
theorem shiftKind?_eq_some {n : Nat} {k : ShiftKind} : shiftKind? n = some k ↔ k.code = n :=
  ⟨fun h => by unfold shiftKind? at h; split at h <;> cases h <;> rfl, fun h => h ▸ shiftKind?_code k⟩
theorem scope?_eq_some {n : Nat} {s : Scope} : scope? n = some s ↔ s.code = n :=
  ⟨fun h => by unfold scope? at h; split at h <;> cases h <;> rfl, fun h => h ▸ scope?_code s⟩
theorem memOrder?_eq_some {n : Nat} {o : MemOrder} : memOrder? n = some o ↔ o.code = n :=
  ⟨fun h => by unfold memOrder? at h; split at h <;> cases h <;> rfl, fun h => h ▸ memOrder?_code o⟩
theorem prefLevel?_eq_some {n : Nat} {l : PrefLevel} : prefLevel? n = some l ↔ l.code = n :=
  ⟨fun h => by unfold prefLevel? at h; split at h <;> cases h <;> rfl, fun h => h ▸ prefLevel?_code l⟩
theorem scalarOp?_eq_some {n : Nat} {f : ScalarOp} : scalarOp? n = some f ↔ f.code = n :=
  ⟨fun h => by unfold scalarOp? at h; split at h <;> cases h <;> rfl, fun h => h ▸ scalarOp?_code f⟩
theorem loadSize?_eq_some {n : Nat} {f : LoadSize} : loadSize? n = some f ↔ f.code = n :=
  ⟨fun h => by unfold loadSize? at h; split at h <;> cases h <;> rfl, fun h => h ▸ loadSize?_code f⟩
theorem storeSize?_eq_some {n : Nat} {f : StoreSize} : storeSize? n = some f ↔ f.code = n :=
  ⟨fun h => by unfold storeSize? at h; split at h <;> cases h <;> rfl, fun h => h ▸ storeSize?_code f⟩
theorem keyType?_eq_some {n : Nat} {k : KeyType} : keyType? n = some k ↔ k.code = n :=
  ⟨fun h => by unfold keyType? at h; split at h <;> cases h <;> rfl, fun h => h ▸ keyType?_code k⟩
theorem regionKind?_eq_some {n : Nat} {k : RegionKind} : regionKind? n = some k ↔ k.code = n :=
  ⟨fun h => by unfold regionKind? at h; split at h <;> cases h <;> rfl, fun h => h ▸ regionKind?_code k⟩

theorem code_shuffleKind {n : Nat} (h : n < 4) : (shuffleKind n).code = n := by interval_cases n <;> rfl
theorem code_cacheClass {n : Nat} (h : n < 4) : (cacheClass n).code = n := by interval_cases n <;> rfl
theorem code_atomicOp {n : Nat} (h : n < 8) : (atomicOp n).code = n := by interval_cases n <;> rfl
theorem code_scalarImmOp {n : Nat} (h : n < 8) : (scalarImmOp n).code = n := by interval_cases n <;> rfl

/-- Every order that `SATOM`'s two bits can name is one of its orders (Table 3.7). -/
theorem MemOrder.inSatom_of_code_lt {o : MemOrder} (h : o.code < 4) : o.inSatom = true := by cases o <;> simp_all [MemOrder.code, MemOrder.inSatom]

theorem orReserved_bind_eq_ok {α β : Type} {o : Option α} {f : α → Except DecodeError β} {y : β} :
    (orReserved o >>= f) = .ok y ↔ ∃ x, o = some x ∧ f x = .ok y := by
  cases o with
  | none => simp [orReserved, bind, Except.bind]
  | some x => simp [orReserved, bind, Except.bind]

/-! ### Fields -/

theorem bits_lt (w hi lo : Nat) : bits w hi lo < 2 ^ (hi - lo + 1) := Nat.mod_lt _ (by positivity)

theorem okI_signed {k n : Nat} (hk : 0 < k) (hn : n < 2 ^ k) : okI k (signed k n) = true := by
  obtain ⟨j, rfl⟩ : ∃ j, k = j + 1 := ⟨k - 1, by omega⟩
  simp only [okI, signed, Nat.add_sub_cancel, Bool.and_eq_true, decide_eq_true_eq, pow_succ] at hn ⊢
  split <;> omega

theorem unsigned_signed {k n : Nat} (hk : 0 < k) (hn : n < 2 ^ k) : unsigned k (signed k n) = n := by
  obtain ⟨j, rfl⟩ : ∃ j, k = j + 1 := ⟨k - 1, by omega⟩
  have hpos := Nat.two_pow_pos (j + 1)
  unfold unsigned signed
  split
  · rw [Int.emod_eq_of_lt (by omega) (by omega), Int.toNat_natCast]
  · rw [Int.sub_emod_right, Int.emod_eq_of_lt (by omega) (by omega), Int.toNat_natCast]

/-- The signed value of a field fits the field, and is what the field holds. -/
theorem okI_signed_bits {k w hi lo : Nat} (h : k = hi - lo + 1) : okI k (signed k (bits w hi lo)) = true :=
  okI_signed (by omega) (h ▸ bits_lt w hi lo)

theorem unsigned_signed_bits {k w hi lo : Nat} (h : k = hi - lo + 1) : unsigned k (signed k (bits w hi lo)) = bits w hi lo :=
  unsigned_signed (by omega) (h ▸ bits_lt w hi lo)

theorem ofBit_bit (w i : Nat) : ofBit (bit w i) = w / 2 ^ i % 2 := by
  unfold bit ofBit
  split <;> simp_all

/-- A word is its lower part with its marker. -/
theorem word_marker {w : Nat} (h : w < 2 ^ 32) : w = w % 2 ^ 31 + ofBit (bit w 31) * 2 ^ 31 := by
  rw [ofBit_bit]
  omega

/-! ### What each part of the decoder accepts -/

/-- A word, its marker aside, is that of an instruction of one word. -/
def StandsFor (w : Nat) (i : Instr) : Prop := i.wellFormed = true ∧ encodeWords i = [w % 2 ^ 31]

/-- A second source of format A stands for the field that it was read from (R71). -/
theorem srcB_eq_ok {w : Nat} {k : SrcB → Instr} {i : Instr} (h : srcB w k = .ok i) : ∃ b, okB b = true ∧ b.enc = bits w 8 0 ∧ i = k b := by
  unfold srcB at h
  split at h
  · next h0 =>
    obtain ⟨hz, hi⟩ := need_eq_ok.mp h
    simp only [beq_iff_eq] at hz
    simp only [bit, beq_iff_eq] at h0
    refine ⟨.s (bits w 5 1), ?_, ?_, (Except.ok.inj hi).symm⟩
    · simpa [okB, okS] using bits_lt w 5 1
    · simp only [SrcB.enc, bits] at hz ⊢; omega
  · next h0 =>
    simp only [bit, beq_iff_eq] at h0
    refine ⟨.v (bits w 8 1), ?_, ?_, (Except.ok.inj h).symm⟩
    · simpa [okB, okV] using bits_lt w 8 1
    · simp only [SrcB.enc, bits]; omega

theorem word_encA (w : Nat) {b : SrcB} (h : b.enc = bits w 8 0) : w % 2 ^ 31 = encA (bits w 30 25) (bits w 24 17) (bits w 16 9) b := by
  simp only [encA, major, h, bits]
  omega

theorem formatA_stands {w m : Nat} {f : Nat → Nat → SrcB → Instr} {i : Instr} (hm : bits w 30 25 = m)
    (hf : ∀ d a b, (f d a b).wellFormed = (okV d && okV a && okB b) ∧ encodeWords (f d a b) = [encA m d a b]) (h : formatA w f = .ok i) :
    StandsFor w i := by
  obtain ⟨b, hb, henc, rfl⟩ := srcB_eq_ok h
  obtain ⟨hwf, he⟩ := hf (bits w 24 17) (bits w 16 9) b
  have hd := bits_lt w 24 17
  have ha := bits_lt w 16 9
  refine ⟨?_, ?_⟩
  · rw [hwf]
    simp_all [okV]
  · rw [he, word_encA w henc, hm]

/-- The fields of `VCMP` and `VCMPI` (R73). -/
theorem compareFields_eq_ok {w : Nat} {k : Cmp → Nat → Except DecodeError Instr} {i : Instr} (h : compareFields w k = .ok i) :
    ∃ c p, okP p = true ∧ c.code * 16 + p = bits w 24 17 ∧ k c p = .ok i := by
  unfold compareFields at h
  split at h
  · cases h
  · next c hc =>
    obtain ⟨hp, hk⟩ := need_eq_ok.mp h
    have hcode := cmp?_eq_some.mp hc
    refine ⟨c, bits w 20 17, hp, ?_, hk⟩
    simp only [bits] at hcode ⊢
    omega

theorem decodeA_stands {w : Nat} {i : Instr} (h29 : bits w 30 29 = 0) (h : decodeA w = .ok i) : StandsFor w i := by
  have h25 : ∀ m, bits w 28 25 = m → bits w 30 25 = m := by simp only [bits] at h29 ⊢; omega
  unfold decodeA at h
  split at h
  case h_15 hm =>
    obtain ⟨c, p, hp, hd, h⟩ := compareFields_eq_ok h
    obtain ⟨b, hb, henc, rfl⟩ := srcB_eq_ok h
    have ha := bits_lt w 16 9
    refine ⟨by simp_all [Instr.wellFormed, okV], ?_⟩
    simp only [encodeWords]
    rw [word_encA w henc, h25 _ hm, hd]
  case h_16 hm _ _ _ _ _ _ _ _ _ _ _ _ _ _ _ =>
    simp only [need_eq_ok, orReserved_bind_eq_ok, elemType?_eq_some, Except.ok.injEq, Bool.and_eq_true, beq_iff_eq, Bool.not_eq_true'] at h
    obtain ⟨⟨h8, h0⟩, t, ht, rfl⟩ := h
    simp only [StandsFor, Instr.wellFormed, encodeWords, okV, Bool.and_eq_true, decide_eq_true_eq, encB, major, ht, List.singleton_inj]
    have hm : bits w 28 25 = 15 := by
      have hlt := bits_lt w 28 25
      generalize bits w 28 25 = n at *
      interval_cases n <;> first | rfl | contradiction
    simp only [bits, bit, beq_eq_false_iff_ne] at *
    omega
  all_goals exact formatA_stands (h25 _ ‹_›) (fun _ _ _ => ⟨rfl, rfl⟩) h

theorem decodeCtl_stands {w : Nat} {i : Instr} (hm : bits w 30 25 = 0x33) (h : decodeCtl w = .ok i) : StandsFor w i := by
  unfold decodeCtl at h
  dsimp only at h
  split at h
  all_goals
    simp only [need_eq_ok, ← and_assoc, Except.ok.injEq, Bool.and_eq_true, beq_iff_eq, reduceCtorEq] at h
  all_goals
    obtain ⟨hz, rfl⟩ := h
    simp only [StandsFor, Instr.wellFormed, encodeWords, encK, major, okV, okS, Bool.and_eq_true, decide_eq_true_eq, beq_iff_eq,
      List.singleton_inj, true_and, okI_signed_bits, unsigned_signed_bits]
    simp only [bits] at *
    omega

theorem decodeMeld_stands {w : Nat} {i : Instr} (hm : bits w 30 25 = 0x36) (h : decodeMeld w = .ok i) : StandsFor w i := by
  unfold decodeMeld at h
  dsimp only at h
  split at h
  all_goals
    simp only [need_eq_ok, ← and_assoc, Except.ok.injEq, Bool.and_eq_true, beq_iff_eq, decide_eq_true_eq, reduceCtorEq] at h
  all_goals
    obtain ⟨hz, rfl⟩ := h
    simp only [StandsFor, Instr.wellFormed, encodeWords, encK, major, okS, okP, decide_eq_true_eq,
      List.singleton_inj, true_and]
    simp only [bits] at *
    omega

/-- The barrier object of `TCOPY`, `TCOPY.Y` and `ACTLD` stands for its bits of x (R71). -/
theorem barField_eq_ok {w : Nat} {k : Option Nat → Except DecodeError Instr} {i : Instr} (h : barField w k = .ok i) :
    ∃ b, okBar b = true ∧ encBar b = bits w 20 20 * 128 + bits w 17 13 ∧ k b = .ok i := by
  unfold barField at h
  split at h
  · next h20 =>
    refine ⟨some (bits w 17 13), by simpa [okBar, okS] using bits_lt w 17 13, ?_, h⟩
    simp only [encBar, bit, bits, beq_iff_eq] at h20 ⊢
    omega
  · next h20 =>
    obtain ⟨hz, h⟩ := need_eq_ok.mp h
    refine ⟨none, rfl, ?_, h⟩
    simp only [encBar, bit, bits, beq_iff_eq] at h20 hz ⊢
    omega

/-- The barrier object of `ACCLD` and `ACCST` stands for its flag and its bits of the immediate (Table 10.6). -/
theorem accBar_eq_ok {w : Nat} {k : Option Nat → Except DecodeError Instr} {i : Instr} (h : accBar w k = .ok i) :
    ∃ b, okBar b = true ∧ b.getD 0 = bits w 4 0 ∧ (if b.isSome then 128 else 0) = bits w 20 20 * 128 ∧ k b = .ok i := by
  unfold accBar at h
  split at h
  · next h20 =>
    refine ⟨some (bits w 4 0), by simpa [okBar, okS] using bits_lt w 4 0, rfl, ?_, h⟩
    simp only [Option.isSome_some, if_true, bit, bits, beq_iff_eq] at h20 ⊢
    omega
  · next h20 =>
    obtain ⟨hz, h⟩ := need_eq_ok.mp h
    refine ⟨none, rfl, (beq_iff_eq.mp hz).symm, ?_, h⟩
    simp only [Option.isSome_none, Bool.false_eq_true, if_false, bit, bits, beq_iff_eq] at h20 ⊢
    omega

/-! #### Words of format K and format X -/

theorem word_encK {w m : Nat} (hm : bits w 30 25 = m) : encK m (bits w 24 21) (bits w 20 13) (bits w 12 8) (bits w 7 0) = w % 2 ^ 31 := by
  simp only [encK, major, bits] at *
  omega

theorem word_encX {w m : Nat} (hm : bits w 30 25 = m) : encX m (bits w 24 17) (bits w 16 9) (bits w 8 1) (ofBit (bit w 0)) = w % 2 ^ 31 := by
  rw [ofBit_bit]
  simp only [encX, major, bits] at *
  omega

/-- An `ASYNC` form that is its word's fields stands for the word. -/
theorem async_stands {w n x y c : Nat} {i : Instr} (hm : bits w 30 25 = 0x3A) (hn : bits w 24 21 = n) (hx : bits w 20 13 = x)
    (hy : bits w 12 8 = y) (hc : bits w 7 0 = c) (hwf : i.wellFormed = true) (he : encodeWords i = [encK 0x3A n x y c]) : StandsFor w i :=
  ⟨hwf, by rw [he, ← hn, ← hx, ← hy, ← hc, word_encK hm]⟩

theorem async_x_split (w : Nat) : bits w 20 13 = bits w 20 18 * 32 + bits w 17 13 := by
  simp only [bits]
  omega

theorem okS_bits {w hi lo : Nat} (h : hi = lo + 4) : okS (bits w hi lo) = true := by
  subst h
  simpa [okS] using bits_lt w (lo + 4) lo

theorem okV_bits {w hi lo : Nat} (h : hi = lo + 7) : okV (bits w hi lo) = true := by
  subst h
  simpa [okV] using bits_lt w (lo + 7) lo

theorem okN_bits {w k hi lo : Nat} (h : k = hi - lo + 1) : okN k (bits w hi lo) = true := by
  simpa [okN, h] using bits_lt w hi lo

/-- `TCOPY`, `TCOPY.Y` and `ACTLD` (Table 9.3): the barrier object's bits of x, and two bits beside them. -/
theorem barField_stands {w n : Nat} {f : Option Nat → Instr} {i : Instr} (hm : bits w 30 25 = 0x3A) (hn : bits w 24 21 = n)
    (hf : ∀ b, okBar b = true → (f b).wellFormed = true)
    (he : ∀ b, encodeWords (f b) = [encK 0x3A n (encBar b + bits w 19 18 * 32) (bits w 12 8) (bits w 7 0)])
    (h : barField w (fun b => .ok (f b)) = .ok i) : StandsFor w i := by
  obtain ⟨b, hb, henc, hi⟩ := barField_eq_ok h
  cases hi
  refine async_stands hm hn ?_ rfl rfl (hf b hb) (he b)
  rw [henc]
  simp only [bits]
  omega

/-- `ACCLD` and `ACCST` (Table 10.6): the barrier object's flag in x, and its number in the immediate. -/
theorem accBar_stands {w n : Nat} {f : Option Nat → Instr} {i : Instr} (hm : bits w 30 25 = 0x3A) (hn : bits w 24 21 = n)
    (hz : (bit w 18 == false && bits w 7 5 == 0) = true) (hf : ∀ b, okBar b = true → (f b).wellFormed = true)
    (he : ∀ b, encodeWords (f b) = [encK 0x3A n (encAccX b (bit w 19) (bits w 17 13)) (bits w 12 8) (b.getD 0)])
    (h : accBar w (fun b => .ok (f b)) = .ok i) : StandsFor w i := by
  obtain ⟨b, hb, hlow, hflag, hi⟩ := accBar_eq_ok h
  cases hi
  simp only [Bool.and_eq_true, beq_iff_eq, bit, beq_eq_false_iff_ne] at hz
  refine async_stands hm hn ?_ rfl ?_ (hf b hb) (he b)
  · simp only [encAccX, hflag, ofBit_bit]
    simp only [bits] at *
    omega
  · rw [hlow]
    simp only [bits] at *
    omega

theorem decodeAsync_stands {w : Nat} {i : Instr} (hm : bits w 30 25 = 0x3A) (h : decodeAsync w = .ok i) : StandsFor w i := by
  have hx := async_x_split w
  have hy : okS (bits w 12 8) = true := okS_bits rfl
  have ha : okS (bits w 17 13) = true := okS_bits rfl
  have hd : okV (bits w 20 13) = true := okV_bits rfl
  unfold decodeAsync at h
  dsimp only at h
  split at h
  case h_1 hn =>
    obtain ⟨hz, h⟩ := need_eq_ok.mp h
    simp only [Bool.and_eq_true, beq_iff_eq] at hz
    refine barField_stands hm hn (fun b hb => ?_) (fun b => ?_) h
    · simp only [Instr.wellFormed, hb, hy, Bool.and_self]
    · simp only [encodeWords, hz, Nat.zero_mul, Nat.add_zero]
  case h_2 hn =>
    simp only [need_eq_ok, beq_iff_eq] at h
    obtain ⟨hz, hc, h⟩ := h
    refine barField_stands hm hn (fun b hb => ?_) (fun b => ?_) h
    · simp only [Instr.wellFormed, hb, hy, okN_bits, hc, Bool.and_self]
    · simp only [encodeWords, hz, Nat.zero_mul, Nat.add_zero]
  case h_9 hn =>
    obtain ⟨hz, h⟩ := need_eq_ok.mp h
    exact accBar_stands hm hn hz (fun b hb => by simp only [Instr.wellFormed, hb, hy, ha, Bool.and_self]) (fun b => rfl) h
  case h_10 hn =>
    split at h
    · next h7 =>
      simp only [need_eq_ok, Except.ok.injEq, beq_iff_eq] at h
      obtain ⟨hz, rfl⟩ := h
      refine async_stands hm hn rfl rfl ?_ (by simp only [Instr.wellFormed, hd, hy, Bool.and_self]) rfl
      simp only [bit, bits, beq_iff_eq] at *
      omega
    · obtain ⟨hz, h⟩ := need_eq_ok.mp h
      exact accBar_stands hm hn hz (fun b hb => by simp only [Instr.wellFormed, hb, hy, ha, Bool.and_self]) (fun b => rfl) h
  case h_11 hn =>
    cases h
    exact async_stands hm hn rfl rfl rfl (by simp only [Instr.wellFormed, hd, hy, okN_bits, Bool.and_self]) rfl
  case h_12 hn =>
    simp only [need_eq_ok, Bool.and_eq_true, beq_false, Bool.not_eq_true', beq_iff_eq] at h
    obtain ⟨⟨h18, hz⟩, h⟩ := h
    refine barField_stands hm hn (fun b hb => ?_) (fun b => ?_) h
    · simp only [Instr.wellFormed, hb, hy, Bool.and_self]
    · have hshm : ofBit (bit w 19) * 64 = bits w 19 18 * 32 := by
        rw [ofBit_bit]
        simp only [bit, beq_eq_false_iff_ne] at h18
        simp only [bits]
        omega
      simp only [encodeWords, hz, hshm]
  case h_13 => cases h
  case h_6 hn | h_8 hn =>
    simp only [need_eq_ok, ← and_assoc, Except.ok.injEq, Bool.and_eq_true, beq_iff_eq] at h
    obtain ⟨hz, rfl⟩ := h
    refine async_stands hm hn (by simp only [hz]) rfl (by simp only [hz]) ?_ rfl
    simp only [Instr.wellFormed, hy, hz, okN_bits, Bool.and_self]
  case h_7 hn =>
    simp only [need_eq_ok, Except.ok.injEq, Bool.and_eq_true, beq_iff_eq] at h
    obtain ⟨⟨hz, h0⟩, rfl⟩ := h
    refine async_stands hm hn (by rw [hx, hz, Nat.zero_mul, Nat.zero_add]) rfl ?_ (by simp only [Instr.wellFormed, ha, hy, Bool.and_self]) rfl
    rw [ofBit_bit]
    simp only [bits] at *
    omega
  all_goals
    simp only [need_eq_ok, ← and_assoc, Except.ok.injEq, Bool.and_eq_true, beq_iff_eq] at h
    obtain ⟨hz, rfl⟩ := h
    refine async_stands hm ‹_› (by simp only [hx, hz, Nat.zero_mul, Nat.zero_add]) (by simp only [hz]) (by simp only [hz]) ?_ rfl
    simp only [Instr.wellFormed, ha, hy, hz, okN_bits, Bool.and_self]

theorem decodeTask_stands {w : Nat} {i : Instr} (hm : bits w 30 25 = 0x3B) (h : decodeTask w = .ok i) : StandsFor w i := by
  unfold decodeTask at h
  dsimp only at h
  repeat' split at h
  all_goals
    simp only [need_eq_ok, ← and_assoc, Except.ok.injEq, Bool.and_eq_true, beq_iff_eq, bne_iff_ne, decide_eq_true_eq, reduceCtorEq] at h
  all_goals
    obtain ⟨hz, rfl⟩ := h
    simp only [StandsFor, Instr.wellFormed, encodeWords, encK, major, okV, okS, okP, okN, Bool.and_eq_true, decide_eq_true_eq, beq_iff_eq, bne_iff_ne,
      List.singleton_inj, true_and]
    simp only [bit, bits, beq_iff_eq] at *
    omega

theorem decodeB_stands {w : Nat} {i : Instr} (h29 : bits w 30 29 = 1) (h : decodeB w = .ok i) : StandsFor w i := by
  have h25 : ∀ {m n}, bits w 28 25 = m → n = 16 + m → bits w 30 25 = n := by simp only [bits] at h29 ⊢; omega
  unfold decodeB formatB at h
  split at h
  case h_5 hm =>
    simp only [need_eq_ok, orReserved_bind_eq_ok, shiftKind?_eq_some, Except.ok.injEq, beq_iff_eq] at h
    obtain ⟨hz, k, hk, rfl⟩ := h
    simp only [StandsFor, Instr.wellFormed, encodeWords, encB, major, okV, okN, Bool.and_eq_true, decide_eq_true_eq,
      List.singleton_inj, hk]
    simp only [bits] at *
    omega
  case h_6 hm =>
    obtain ⟨c, p, hp, hd, h⟩ := compareFields_eq_ok h
    cases h
    simp only [StandsFor, Instr.wellFormed, encodeWords, encB, major, okV, Bool.and_eq_true, decide_eq_true_eq,
      List.singleton_inj, true_and, and_true, okI_signed_bits, unsigned_signed_bits, hp, hd]
    simp only [bits] at *
    omega
  case h_7 hm =>
    cases h
    simp only [StandsFor, Instr.wellFormed, encodeWords, major, okV, okN, Bool.and_eq_true, decide_eq_true_eq,
      List.singleton_inj, ofBit_bit]
    simp only [bits] at *
    omega
  case h_10 | h_11 =>
    simp only [need_eq_ok, Except.ok.injEq, Bool.not_eq_true'] at h
    obtain ⟨hz, rfl⟩ := h
    simp only [StandsFor, Instr.wellFormed, encodeWords, major, okV, okN, Bool.and_eq_true, decide_eq_true_eq,
      List.singleton_inj]
    simp only [bit, bits, beq_eq_false_iff_ne] at *
    omega
  case h_12 hm => exact formatA_stands (m := 0x1B) (h25 hm rfl) (fun _ _ _ => ⟨rfl, rfl⟩) h
  case h_13 hm => exact formatA_stands (m := 0x1C) (h25 hm rfl) (fun _ _ _ => ⟨rfl, rfl⟩) h
  case h_14 hm => exact formatA_stands (m := 0x1D) (h25 hm rfl) (fun _ _ _ => ⟨rfl, rfl⟩) h
  case h_15 hm =>
    simp only [need_eq_ok, Except.ok.injEq, Bool.or_eq_true, beq_iff_eq, bne_iff_ne] at h
    obtain ⟨hz, rfl⟩ := h
    have hk : (shuffleKind (bits w 8 7)).code = bits w 8 7 := code_shuffleKind (by simpa using bits_lt w 8 7)
    have hidx : shuffleKind (bits w 8 7) = .idx → bits w 8 7 = 0 := fun h => by
      rw [← hk, h, ShuffleKind.code]
    simp only [StandsFor, Instr.wellFormed, encodeWords, encB, major, okV, okN, Bool.and_eq_true, Bool.or_eq_true, decide_eq_true_eq, beq_iff_eq, bne_iff_ne,
      List.singleton_inj, hk, ofBit_bit, Bool.not_eq_true']
    generalize shuffleKind (bits w 8 7) = k at *
    simp only [bit, beq_eq_false_iff_ne, ne_eq, bits] at *
    by_cases h0 : k = .idx
    · have h0' := hidx h0
      omega
    · simp only [h0, not_false_eq_true, true_or, and_true]
      omega
  case h_16 => cases h
  all_goals
    cases h
    simp only [StandsFor, Instr.wellFormed, encodeWords, encB, major, okV, Bool.and_eq_true, decide_eq_true_eq,
      List.singleton_inj, and_true, okI_signed_bits, unsigned_signed_bits]
    simp only [bits] at *
    omega

theorem salui_stands {w : Nat} (hm : bits w 30 25 = 0x29) (hz : (!(scalarImmOp (bits w 14 12)).isShift || bits w 11 6 == 0) = true) :
    StandsFor w (.salui (scalarImmOp (bits w 14 12)) (bits w 24 20) (bits w 19 15) (signed 12 (bits w 11 0))) := by
  have himm : (scalarImmOp (bits w 14 12)).code = bits w 14 12 := code_scalarImmOp (by simpa using bits_lt w 14 12)
  have hshift : (!(scalarImmOp (bits w 14 12)).isShift || (decide (0 ≤ signed 12 (bits w 11 0)) && decide (signed 12 (bits w 11 0) < 64))) = true := by
    cases hs : (scalarImmOp (bits w 14 12)).isShift with
    | false => rfl
    | true =>
      rw [hs, Bool.not_true, Bool.false_or, beq_iff_eq] at hz
      have hlow : bits w 11 0 < 64 := by simp only [bits] at hz ⊢; omega
      rw [signed, if_pos (by omega)]
      simpa using hlow
  simp only [StandsFor, Instr.wellFormed, encodeWords, encE, major, okS, Bool.and_eq_true (a := (_ && _)), Bool.and_eq_true (a := decide _),
    decide_eq_true_eq, List.singleton_inj, and_true, okI_signed_bits, unsigned_signed_bits, himm, hshift]
  simp only [bits] at *
  omega

theorem word_encD {w m : Nat} (hm : bits w 30 25 = m) : encD m (bits w 24 20) (bits w 19 15) (bits w 14 10) (bits w 9 0) = w % 2 ^ 31 := by
  simp only [encD, major, bits] at *
  omega

theorem word_encE {w m : Nat} (hm : bits w 30 25 = m) : encE m (bits w 24 20) (bits w 19 15) (bits w 14 12) (bits w 11 0) = w % 2 ^ 31 := by
  simp only [encE, major, bits] at *
  omega

/-- An instruction whose word has format E stands for the word that its fields were read from. -/
theorem formatE_stands {w m d a fn imm : Nat} {i : Instr} (hm : bits w 30 25 = m) (hd : bits w 24 20 = d) (ha : bits w 19 15 = a)
    (hfn : bits w 14 12 = fn) (himm : bits w 11 0 = imm) (hwf : i.wellFormed = true) (he : encodeWords i = [encE m d a fn imm]) : StandsFor w i :=
  ⟨hwf, by rw [he, ← hd, ← ha, ← hfn, ← himm, word_encE hm]⟩

theorem formatD_stands {w m d a b fn : Nat} {i : Instr} (hm : bits w 30 25 = m) (hd : bits w 24 20 = d) (ha : bits w 19 15 = a)
    (hb : bits w 14 10 = b) (hfn : bits w 9 0 = fn) (hwf : i.wellFormed = true) (he : encodeWords i = [encD m d a b fn]) : StandsFor w i :=
  ⟨hwf, by rw [he, ← hd, ← ha, ← hb, ← hfn, word_encD hm]⟩

/-- The vector half of the memory majors. -/
theorem decodeM_vector_stands {w : Nat} {i : Instr} (h29 : bits w 30 29 = 2) (hv : bits w 28 25 < 8) (h : decodeM w = .ok i) : StandsFor w i := by
  have hcls : (cacheClass (bits w 3 2)).code = bits w 3 2 := code_cacheClass (by simpa using bits_lt w 3 2)
  have hop : (atomicOp (bits w 3 1)).code = bits w 3 1 := code_atomicOp (by simpa using bits_lt w 3 1)
  unfold decodeM formatM at h
  dsimp only at h
  split at h
  case h_1 | h_2 | h_6 | h_7 =>
    cases h
    simp only [StandsFor, Instr.wellFormed, encodeWords, encM, major, okV, okS, Bool.and_eq_true, decide_eq_true_eq,
      List.singleton_inj, ofBit_bit, hcls, hop]
    clear hcls hop
    simp only [bits] at *
    omega
  case h_3 | h_4 | h_5 =>
    simp only [need_eq_ok, Except.ok.injEq, beq_iff_eq, Bool.not_eq_true'] at h
    obtain ⟨hz, rfl⟩ := h
    simp only [StandsFor, Instr.wellFormed, encodeWords, encM, major, okV, okS, Bool.and_eq_true, decide_eq_true_eq,
      List.singleton_inj, ofBit_bit, hcls]
    clear hcls hop
    simp only [bit, bits, beq_eq_false_iff_ne] at *
    omega
  case h_16 => cases h
  all_goals omega

theorem decodeM_stands {w : Nat} {i : Instr} (h29 : bits w 30 29 = 2) (h : decodeM w = .ok i) : StandsFor w i := by
  have h25 : ∀ {m n}, bits w 28 25 = m → n = 32 + m → bits w 30 25 = n := by simp only [bits] at h29 ⊢; omega
  have hd : okS (bits w 24 20) = true := okS_bits rfl
  have ha : okS (bits w 19 15) = true := okS_bits rfl
  have hb : okS (bits w 14 10) = true := okS_bits rfl
  have hvector := fun hv => decodeM_vector_stands h29 hv h
  unfold decodeM at h
  dsimp only at h
  split at h
  case h_8 hm =>
    simp only [need_eq_ok, orReserved_bind_eq_ok, scalarOp?_eq_some, Except.ok.injEq, beq_iff_eq] at h
    obtain ⟨hz, f, hf, hnob, rfl⟩ := h
    refine formatD_stands (h25 hm rfl) rfl rfl rfl ?_ (by simp only [Instr.wellFormed, hd, ha, hb, hnob, Bool.and_self]) rfl
    rw [hf]
    simp only [bits] at *
    omega
  case h_9 hm =>
    simp only [need_eq_ok, Except.ok.injEq] at h
    obtain ⟨hz, rfl⟩ := h
    exact salui_stands (h25 hm rfl) hz
  case h_10 hm | h_11 hm =>
    cases h
    have hword := word_encE (h25 hm rfl)
    refine ⟨by simp only [Instr.wellFormed, hd, okN_bits, Bool.and_self], ?_⟩
    rw [← hword]
    simp only [encodeWords, encE, major, List.singleton_inj, bits]
    omega
  case h_12 hm =>
    simp only [orReserved_bind_eq_ok, loadSize?_eq_some, Except.ok.injEq] at h
    obtain ⟨f, hf, rfl⟩ := h
    exact formatE_stands (h25 hm rfl) rfl rfl hf.symm (unsigned_signed_bits rfl).symm (by simp only [Instr.wellFormed, hd, ha, okI_signed_bits, Bool.and_self]) rfl
  case h_13 hm =>
    simp only [orReserved_bind_eq_ok, storeSize?_eq_some, Except.ok.injEq] at h
    obtain ⟨f, hf, rfl⟩ := h
    exact formatE_stands (h25 hm rfl) rfl rfl hf.symm (unsigned_signed_bits rfl).symm (by simp only [Instr.wellFormed, hd, ha, okI_signed_bits, Bool.and_self]) rfl
  case h_14 hm =>
    simp only [need_eq_ok, orReserved_bind_eq_ok, scope?_eq_some, memOrder?_eq_some, Except.ok.injEq, beq_iff_eq] at h
    obtain ⟨hz, sc, hsc, o, ho, hcas, rfl⟩ := h
    have hop : (atomicOp (bits w 2 0)).code = bits w 2 0 := code_atomicOp (by simpa using bits_lt w 2 0)
    have hin : o.inSatom = true := MemOrder.inSatom_of_code_lt (ho ▸ bits_lt w 7 6)
    refine formatD_stands (h25 hm rfl) rfl rfl rfl ?_ (by simp only [Instr.wellFormed, hd, ha, hb, hin, hcas, Bool.and_self]) rfl
    rw [hsc, ho, hop]
    simp only [bits] at *
    omega
  case h_15 hm =>
    split at h
    case h_3 => cases h
    case h_1 hfn | h_2 hfn =>
      simp only [need_eq_ok, Except.ok.injEq, beq_iff_eq] at h
      obtain ⟨hz, rfl⟩ := h
      exact formatE_stands (h25 hm rfl) (by simp only [hz]) (by simp only [hz]) hfn rfl (by simp only [Instr.wellFormed, hd, ha, okN_bits, Bool.and_self]) rfl
  case h_16 => cases h
  all_goals exact hvector (by omega)

/-- A `VEXT` minor that is its word's fields stands for the word (Table 3.5). -/
theorem vext_stands {w n f1 f2 f0 : Nat} {i : Instr} (hm : bits w 30 25 = 0x3E) (hn : bits w 24 17 = n) (h1 : bits w 16 9 = f1)
    (h2 : bits w 8 1 = f2) (h0 : ofBit (bit w 0) = f0) (hwf : i.wellFormed = true) (he : encodeWords i = [encX 0x3E n f1 f2 f0]) :
    StandsFor w i :=
  ⟨hwf, by rw [he, ← hn, ← h1, ← h2, ← h0, word_encX hm]⟩

theorem vextReuse_stands {w n : Nat} {f : Nat → Nat → Bool → Instr} {i : Instr} (hm : bits w 30 25 = 0x3E) (hn : bits w 24 17 = n)
    (hf : ∀ d a r, (f d a r).wellFormed = (okV d && okV a) ∧ encodeWords (f d a r) = [encX 0x3E n d a (ofBit r)])
    (h : vextReuse w f = .ok i) : StandsFor w i := by
  cases h
  obtain ⟨hwf, he⟩ := hf (bits w 16 9) (bits w 8 1) (bit w 0)
  exact vext_stands hm hn rfl rfl rfl (by rw [hwf, okV_bits rfl, okV_bits rfl]; rfl) he

theorem vextPPP_stands {w n : Nat} {f : Nat → Nat → Nat → Instr} {i : Instr} (hm : bits w 30 25 = 0x3E) (hn : bits w 24 17 = n)
    (hf : ∀ d a b, (f d a b).wellFormed = (okP d && okP a && okP b) ∧ encodeWords (f d a b) = [encX 0x3E n (d * 16 + a) (b * 16) 0])
    (h : vextPPP w f = .ok i) : StandsFor w i := by
  simp only [vextPPP, need_eq_ok, Except.ok.injEq, beq_iff_eq] at h
  obtain ⟨hz, hp, rfl⟩ := h
  obtain ⟨hwf, he⟩ := hf (bits w 16 13) (bits w 12 9) (bits w 8 5)
  refine vext_stands hm hn ?_ ?_ ?_ (hwf.trans hp) he
  all_goals
    simp only [ofBit_bit, bits] at *
    omega

theorem vextPP_stands {w n : Nat} {f : Nat → Nat → Instr} {i : Instr} (hm : bits w 30 25 = 0x3E) (hn : bits w 24 17 = n)
    (hf : ∀ d a, (f d a).wellFormed = (okP d && okP a) ∧ encodeWords (f d a) = [encX 0x3E n (d * 16 + a) 0 0])
    (h : vextPP w f = .ok i) : StandsFor w i := by
  simp only [vextPP, need_eq_ok, Except.ok.injEq, beq_iff_eq] at h
  obtain ⟨hz, hp, rfl⟩ := h
  obtain ⟨hwf, he⟩ := hf (bits w 16 13) (bits w 12 9)
  refine vext_stands hm hn ?_ ?_ ?_ (hwf.trans hp) he
  all_goals
    simp only [ofBit_bit, bits] at *
    omega

theorem vextVote_stands {w n : Nat} {f : Nat → Nat → Instr} {i : Instr} (hm : bits w 30 25 = 0x3E) (hn : bits w 24 17 = n)
    (hf : ∀ d a, (f d a).wellFormed = (okP d && okP a) ∧ encodeWords (f d a) = [encX 0x3E n (d * 16) (a * 16) 0])
    (h : vextVote w f = .ok i) : StandsFor w i := by
  simp only [vextVote, need_eq_ok, Except.ok.injEq, Bool.and_eq_true (a := _ == _), beq_iff_eq] at h
  obtain ⟨hz, hp, rfl⟩ := h
  obtain ⟨hwf, he⟩ := hf (bits w 16 13) (bits w 8 5)
  refine vext_stands hm hn ?_ ?_ ?_ (hwf.trans hp) he
  all_goals
    simp only [ofBit_bit, bits] at *
    omega

/-- The minors of `VEXT` with forms of their own: `VMOV`, `VBALLOT`, `VRAND`, `PPACK` to `VLANE`. -/
theorem vext_own_stands {w : Nat} {i : Instr} (hm : bits w 30 25 = 0x3E)
    (hn : bits w 24 17 = 0x0C ∨ bits w 24 17 = 0x16 ∨ bits w 24 17 = 0x1A ∨ 0x20 ≤ bits w 24 17) (h : decodeVext w = .ok i) : StandsFor w i := by
  unfold decodeVext at h
  split at h
  case h_13 hn =>
    cases h
    split
    · next h0 => exact vext_stands hm hn rfl rfl (by rw [h0]; rfl) (by simp only [Instr.wellFormed, okV_bits, Bool.and_self]) rfl
    · next h0 =>
      exact vext_stands hm hn rfl rfl (by rw [Bool.not_eq_true] at h0; rw [h0]; rfl) (by simp only [Instr.wellFormed, okV_bits, Bool.and_self]) rfl
  case h_23 | h_27 | h_33 | h_34 | h_35 | h_36 | h_37 =>
    simp only [need_eq_ok, ← and_assoc, Except.ok.injEq, Bool.and_eq_true, beq_iff_eq, Bool.not_eq_true', decide_eq_true_eq] at h
    obtain ⟨hz, rfl⟩ := h
    simp only [StandsFor, Instr.wellFormed, encodeWords, encX, major, okV, okS, okP, Bool.and_eq_true, decide_eq_true_eq, beq_iff_eq,
      List.singleton_inj]
    simp only [bit, bits, beq_eq_false_iff_ne] at *
    omega
  case h_38 => cases h
  all_goals omega

theorem decodeVext_stands {w : Nat} {i : Instr} (hm : bits w 30 25 = 0x3E) (h : decodeVext w = .ok i) : StandsFor w i := by
  have hown := fun hn => vext_own_stands hm hn h
  unfold decodeVext at h
  split at h
  case h_13 hn => exact hown (.inl hn)
  case h_21 hn => exact vextVote_stands hm hn (fun _ _ => ⟨rfl, rfl⟩) h
  case h_22 hn => exact vextVote_stands hm hn (fun _ _ => ⟨rfl, rfl⟩) h
  case h_23 hn => exact hown (.inr (.inl hn))
  case h_27 hn => exact hown (.inr (.inr (.inl hn)))
  case h_28 hn => exact vextPPP_stands hm hn (fun _ _ _ => ⟨rfl, rfl⟩) h
  case h_29 hn => exact vextPPP_stands hm hn (fun _ _ _ => ⟨rfl, rfl⟩) h
  case h_30 hn => exact vextPPP_stands hm hn (fun _ _ _ => ⟨rfl, rfl⟩) h
  case h_31 hn => exact vextPP_stands hm hn (fun _ _ => ⟨rfl, rfl⟩) h
  case h_32 hn => exact vextPP_stands hm hn (fun _ _ => ⟨rfl, rfl⟩) h
  case h_33 hn | h_34 hn | h_35 hn | h_36 hn | h_37 hn => exact hown (.inr (.inr (.inr (by omega))))
  case h_38 => cases h
  all_goals exact vextReuse_stands hm ‹_› (fun _ _ _ => ⟨rfl, rfl⟩) h

theorem decodeSys_stands {w : Nat} {i : Instr} (hm : bits w 30 25 = 0x3F) (h : decodeSys w = .ok i) : StandsFor w i := by
  unfold decodeSys at h
  dsimp only at h
  split at h
  case h_13 => cases h
  all_goals
    simp only [need_eq_ok, orReserved_bind_eq_ok, scope?_eq_some, memOrder?_eq_some, prefLevel?_eq_some, ← and_assoc, Except.ok.injEq, Bool.and_eq_true,
      beq_iff_eq, Bool.not_eq_true'] at h
  case h_9 | h_10 =>
    obtain ⟨hz, s, hs, o, ⟨ho, hin⟩, rfl⟩ := h
    simp only [StandsFor, Instr.wellFormed, encodeWords, encX, major, okS, Bool.and_eq_true, decide_eq_true_eq, List.singleton_inj, true_and, and_true,
      hs, ho, hin]
    simp only [bit, bits, beq_eq_false_iff_ne] at *
    omega
  case h_12 =>
    obtain ⟨hz, l, hl, rfl⟩ := h
    simp only [StandsFor, Instr.wellFormed, encodeWords, encX, major, okS, Bool.and_eq_true, decide_eq_true_eq, List.singleton_inj, and_true,
      okI_signed_bits, unsigned_signed_bits, hl]
    simp only [bit, bits, beq_eq_false_iff_ne] at *
    omega
  all_goals
    obtain ⟨hz, rfl⟩ := h
    simp only [StandsFor, Instr.wellFormed, encodeWords, encX, major, okN, decide_eq_true_eq, List.singleton_inj, true_and]
    simp only [bit, bits, beq_eq_false_iff_ne] at *
    omega

/-! ### Instructions of several words -/

/-- An instruction's words, the first one's marker aside, are a word and some of those that follow it, as many as the word's length says. -/
def Opens (w : Nat) (ws : List Nat) (i : Instr) : Prop :=
  i.wellFormed = true ∧ ∃ xs, encodeWords i = w % 2 ^ 31 :: xs ∧ ws.take xs.length = xs ∧ lengthOf w = xs.length + 1

theorem StandsFor.opens {w m : Nat} {i : Instr} (h : StandsFor w i) (hm : bits w 30 25 = m) (hone : oneWord m = true) (ws : List Nat) : Opens w ws i :=
  ⟨h.1, [], h.2, rfl, lengthOf_one hm hone⟩

/-- A word of two halves is put together again. -/
theorem halves_signed {l : Nat} (h : l < 2 ^ 32) :
    unsigned 16 (signed 16 (bits l 31 16)) * 2 ^ 16 + unsigned 16 (signed 16 (bits l 15 0)) = l := by
  simp only [unsigned_signed_bits]
  simp only [bits]
  omega

/-- A case word of `SWITCH` is put together again. -/
theorem enc_caseWord {l : Nat} (h : l < 2 ^ 32) : (caseWord l).1 * 2 ^ 16 + unsigned 16 (caseWord l).2 = l := by
  simp only [caseWord, unsigned_signed_bits]
  simp only [bits]
  omega

theorem okN_okI_caseWord (l : Nat) : (okN 16 (caseWord l).1 && okI 16 (caseWord l).2) = true := by
  simp only [caseWord, okI_signed_bits, Bool.and_true, okN]
  exact decide_eq_true (bits_lt l 31 16)

theorem split_opens {w : Nat} {ws : List Nat} {i : Instr} (hws : ∀ x ∈ ws, x < 2 ^ 32) (hm : bits w 28 25 = 4) (h30 : bits w 30 29 = 3)
    (h : decodeC w ws = .ok i) : Opens w ws i := by
  unfold decodeC at h
  rw [hm] at h
  cases ws with
  | nil => cases h
  | cons l r =>
    simp only [need_eq_ok, Except.ok.injEq, beq_iff_eq, decide_eq_true_eq] at h
    obtain ⟨hz, hp, rfl⟩ := h
    have h25 : bits w 30 25 = 0x34 := by simp only [bits] at *; omega
    have hfirst : major 0x34 (bits w 24 21 * 2 ^ 21 + ofBit (bit w 20) * 2 ^ 20) = w % 2 ^ 31 := by
      rw [ofBit_bit]
      simp only [major, bits] at *
      omega
    refine ⟨?_, [l], ?_, rfl, by rw [lengthOf, h25]; rfl⟩
    · simp only [Instr.wellFormed, okP, hp, okI_signed_bits, decide_true, Bool.and_self]
    · rw [encodeWords, hfirst, halves_signed (hws l List.mem_cons_self)]

theorem switch_opens {w : Nat} {ws : List Nat} {i : Instr} (hws : ∀ x ∈ ws, x < 2 ^ 32) (hm : bits w 28 25 = 5) (h30 : bits w 30 29 = 3)
    (h : decodeC w ws = .ok i) : Opens w ws i := by
  unfold decodeC at h
  rw [hm] at h
  dsimp only at h
  have hn : bits w 16 14 < 8 := by simpa using bits_lt w 16 14
  have hsplit := List.take_append_drop (bits w 16 14 + 1) ws
  cases hd : ws.drop (bits w 16 14 + 1) with
  | nil => rw [hd] at h; cases h
  | cons l r =>
    rw [hd] at h hsplit
    simp only [need_eq_ok, orReserved_bind_eq_ok, keyType?_eq_some, Except.ok.injEq, beq_iff_eq] at h
    obtain ⟨hz, k, hk, rfl⟩ := h
    have hlen : (ws.take (bits w 16 14 + 1)).length = bits w 16 14 + 1 := by
      have hpos := congrArg List.length hd
      rw [List.length_drop, List.length_cons] at hpos
      rw [List.length_take]
      omega
    generalize ws.take (bits w 16 14 + 1) = cs at *
    subst hsplit
    have h25 : bits w 30 25 = 0x35 := by simp only [bits] at *; omega
    have hfirst : major 0x35 (bits w 24 17 * 2 ^ 17 + (cs.length - 1) * 2 ^ 14 + k.code * 2 ^ 12) = w % 2 ^ 31 := by
      rw [hlen, Nat.add_sub_cancel, hk]
      simp only [major, bits] at *
      omega
    have hcs : (cs.map caseWord).map (fun c => c.1 * 2 ^ 16 + unsigned 16 c.2) = cs := by
      rw [List.map_map]
      exact (List.map_congr_left fun c hc => enc_caseWord (hws c (List.mem_append_left _ hc))).trans (List.map_id cs)
    refine ⟨?_, cs ++ [l], ?_, ?_, ?_⟩
    · have hv : bits w 24 17 < 256 := by simpa using bits_lt w 24 17
      have hne : (cs.map caseWord).isEmpty = false := by
        rw [List.isEmpty_eq_false_iff]
        intro hnil
        simp [List.map_eq_nil_iff.mp hnil] at hlen
      have hall : (cs.map caseWord).all (fun c => okN 16 c.1 && okI 16 c.2) = true := by
        rw [List.all_map, List.all_eq_true]
        exact fun l _ => okN_okI_caseWord l
      have h8 : cs.length ≤ 8 := by omega
      simp only [Instr.wellFormed, okV, hv, hne, List.length_map, h8, hall, okI_signed_bits, decide_true, Bool.not_false, Bool.and_self]
    · rw [encodeWords, List.length_map, hfirst, hcs, halves_signed (hws l (by simp))]
      rfl
    · rw [List.append_cons cs l r, List.take_left' rfl]
    · rw [lengthOf, h25, List.length_append, hlen]
      rfl

theorem region_opens {w : Nat} {ws : List Nat} {i : Instr} (hws : ∀ x ∈ ws, x < 2 ^ 32) (hm : bits w 28 25 = 7) (h30 : bits w 30 29 = 3)
    (h : decodeC w ws = .ok i) : Opens w ws i := by
  unfold decodeC at h
  rw [hm] at h
  rcases ws with _ | ⟨l1, _ | ⟨l2, r⟩⟩
  · cases h
  · cases h
  · simp only [need_eq_ok, orReserved_bind_eq_ok, regionKind?_eq_some, Except.ok.injEq, beq_iff_eq, Bool.and_eq_true] at h
    obtain ⟨⟨hlow, hlast⟩, k, hk, hplain, rfl⟩ := h
    have hl1 := hws l1 (by simp)
    have hl2 := hws l2 (by simp)
    have h25 : bits w 30 25 = 0x37 := by simp only [bits] at *; omega
    have hfirst : major 0x37 (k.code * 2 ^ 22 + bits w 21 18 * 2 ^ 18 + ofBit (bit w 17) * 2 ^ 17 + ofBit (bit w 16) * 2 ^ 16) = w % 2 ^ 31 := by
      rw [ofBit_bit, ofBit_bit, hk]
      simp only [major, bits] at *
      omega
    have hthird : bits l2 31 24 * 2 ^ 24 + bits l2 23 16 * 2 ^ 16 + bits l2 15 4 * 2 ^ 4 + ofBit (bit l2 3) * 2 ^ 3 = l2 := by
      rw [ofBit_bit]
      simp only [bits] at *
      omega
    refine ⟨?_, [l1, l2], ?_, rfl, by rw [lengthOf, h25]; rfl⟩
    · have hvb : bits l2 31 24 < 256 := by simpa using bits_lt l2 31 24
      have hvc : bits l2 23 16 < 256 := by simpa using bits_lt l2 23 16
      have hr : bits w 21 18 < 2 ^ 4 := by simpa using bits_lt w 21 18
      have hflags : (k != .plain || (bits w 21 18 == 0 && !bit w 17 && !bit w 16)) = true := by
        simp only [Bool.or_eq_true, Bool.and_eq_true, beq_iff_eq, Bool.not_eq_true', bit, beq_eq_false_iff_ne] at hplain ⊢
        refine hplain.imp_right fun h => ?_
        simp only [bits] at h ⊢
        omega
      simp only [Instr.wellFormed, okN, okV, hvb, hvc, hr, hflags, decide_true, Bool.and_self]
    · have hps : bits l2 15 4 < 2 ^ 12 := by simpa using bits_lt l2 15 4
      rw [encodeWords, hfirst, BitVec.toNat_ofNat, BitVec.toNat_ofNat, Nat.mod_eq_of_lt hl1, Nat.mod_eq_of_lt hps, hthird]

theorem decodeC_opens {w : Nat} {ws : List Nat} {i : Instr} (hws : ∀ x ∈ ws, x < 2 ^ 32) (h30 : bits w 30 29 = 3) (h : decodeC w ws = .ok i) :
    Opens w ws i := by
  have h25 : ∀ {m n}, bits w 28 25 = m → n = 48 + m → bits w 30 25 = n := by simp only [bits] at h30 ⊢; omega
  by_cases h4 : bits w 28 25 = 4
  · exact split_opens hws h4 h30 h
  by_cases h5 : bits w 28 25 = 5
  · exact switch_opens hws h5 h30 h
  by_cases h7 : bits w 28 25 = 7
  · exact region_opens hws h7 h30 h
  unfold decodeC at h
  split at h
  case h_1 hm =>
    refine StandsFor.opens ?_ (h25 hm rfl) rfl ws
    simp only [orReserved_bind_eq_ok, brCond?_eq_some, Except.ok.injEq] at h
    obtain ⟨c, hc, rfl⟩ := h
    simp only [StandsFor, Instr.wellFormed, encodeWords, encE, major, okS, Bool.and_eq_true, decide_eq_true_eq, List.singleton_inj, and_true,
      okI_signed_bits, unsigned_signed_bits, hc]
    simp only [bits] at *
    omega
  case h_2 hm | h_3 hm =>
    refine StandsFor.opens ?_ (h25 hm rfl) rfl ws
    cases h
    simp only [StandsFor, Instr.wellFormed, encodeWords, major, List.singleton_inj, true_and, okI_signed_bits, unsigned_signed_bits]
    simp only [bits] at *
    omega
  case h_4 hm => exact (decodeCtl_stands (h25 hm rfl) h).opens (h25 hm rfl) rfl ws
  case h_5 hm => exact absurd hm h4
  case h_6 hm => exact absurd hm h5
  case h_7 hm => exact (decodeMeld_stands (h25 hm rfl) h).opens (h25 hm rfl) rfl ws
  case h_8 hm => exact absurd hm h7
  case h_9 hm | h_10 hm =>
    refine StandsFor.opens ?_ (h25 hm rfl) rfl ws
    simp only [need_eq_ok, Except.ok.injEq, beq_iff_eq] at h
    obtain ⟨hz, rfl⟩ := h
    simp only [StandsFor, Instr.wellFormed, encodeWords, encD, major, okS, Bool.and_eq_true, decide_eq_true_eq, List.singleton_inj]
    simp only [bits] at *
    omega
  case h_11 hm => exact (decodeAsync_stands (h25 hm rfl) h).opens (h25 hm rfl) rfl ws
  case h_12 hm => exact (decodeTask_stands (h25 hm rfl) h).opens (h25 hm rfl) rfl ws
  case h_13 hm =>
    refine StandsFor.opens ?_ (h25 hm rfl) rfl ws
    split at h
    all_goals
      simp only [need_eq_ok, Except.ok.injEq, beq_iff_eq, Bool.and_eq_true] at h
      obtain ⟨hz, rfl⟩ := h
      simp only [StandsFor, Instr.wellFormed, encodeWords, major, okS, decide_eq_true_eq, List.singleton_inj, true_and, BitVec.toNat_ofNat]
      simp only [bit, bits, beq_iff_eq] at *
      omega
  case h_14 hm => exact (decodeVext_stands (h25 hm rfl) h).opens (h25 hm rfl) rfl ws
  case h_15 hm => exact (decodeSys_stands (h25 hm rfl) h).opens (h25 hm rfl) rfl ws
  case h_16 => cases h

/-! ### All words -/

theorem oneWord_of_lt {m : Nat} (h : m < 48) : oneWord m = true := by
  simp only [oneWord, Bool.and_eq_true, bne_iff_ne]
  omega

theorem decodeOne_opens {w : Nat} {ws : List Nat} {i : Instr} (hws : ∀ x ∈ ws, x < 2 ^ 32) (h : decodeOne w ws = .ok i) : Opens w ws i := by
  have hmajor : bits w 30 29 < 3 → oneWord (bits w 30 25) = true := by
    intro h3
    have hlt : bits w 30 25 < 48 := by simp only [bits] at h3 ⊢; omega
    exact oneWord_of_lt hlt
  unfold decodeOne at h
  split at h
  case h_1 h29 => exact (decodeA_stands h29 h).opens rfl (hmajor (by omega)) ws
  case h_2 h29 => exact (decodeB_stands h29 h).opens rfl (hmajor (by omega)) ws
  case h_3 h29 => exact (decodeM_stands h29 h).opens rfl (hmajor (by omega)) ws
  case h_4 h0 h1 h2 =>
    have hlt : bits w 30 29 < 4 := by simpa using bits_lt w 30 29
    have h3 : bits w 30 29 = 3 := by
      have h0' : bits w 30 29 ≠ 0 := h0
      have h1' : bits w 30 29 ≠ 1 := h1
      have h2' : bits w 30 29 ≠ 2 := h2
      omega
    exact decodeC_opens hws h3 h

/-- The first word of a `REP` has its major opcode. -/
theorem Opens.not_rep {w : Nat} {ws : List Nat} {i : Instr} (h : Opens w ws i) (hw : bits w 30 25 ≠ 0x3D) :
    ∀ n sd sa sb st b, i ≠ .rep n sd sa sb st b := by
  rintro n sd sa sb st b rfl
  obtain ⟨hwf, xs, he, -⟩ := h
  simp only [Instr.wellFormed, okN, Bool.and_eq_true, decide_eq_true_eq] at hwf
  obtain ⟨⟨⟨hn, hst⟩, -⟩, -⟩ := hwf
  have hsd := ofBit_lt sd
  have hsa := ofBit_lt sa
  have hsb := ofBit_lt sb
  have hfirst : major 0x3D (n * 2 ^ 19 + ofBit sd * 2 ^ 18 + ofBit sa * 2 ^ 17 + ofBit sb * 2 ^ 16 + st * 2 ^ 14) = w % 2 ^ 31 := (List.cons.inj he).1
  simp only [major, bits] at *
  omega

/-- The instruction that a word opens has that word's marker in its encoding, and the words that follow. -/
theorem Opens.take_words {w : Nat} {ws : List Nat} {i : Instr} (h : Opens w ws i) (hw : bits w 30 25 ≠ 0x3D) (hlt : w < 2 ^ 32) :
    i.isEncoded = true ∧ i.wellFormed = true ∧ (w :: ws).take (lengthOf w) = encode i (bit w 31) := by
  have hrep := h.not_rep hw
  obtain ⟨hwf, xs, he, htake, hlen⟩ := h
  refine ⟨by rw [Instr.isEncoded, he]; rfl, hwf, ?_⟩
  rw [hlen, List.take_succ_cons, htake, encode_of_not_rep hrep he, ← word_marker hlt]

/-- A `REP` word and the word that it repeats are those of the pair. -/
theorem rep_take_words {w b : Nat} {bs : List Nat} {body : Instr} (hwlt : w < 2 ^ 32) (hblt : b < 2 ^ 32) (h25 : bits w 30 25 = 0x3D)
    (hmark : bit w 31 = false) (hzero : bits w 13 0 = 0) (hb : Opens b bs body)
    (hrep : repOk (bit w 18) (bit w 17) (bit w 16) (bits w 15 14) body = true) :
    (Instr.rep (bits w 24 19) (bit w 18) (bit w 17) (bit w 16) (bits w 15 14) body).isEncoded = true
    ∧ (Instr.rep (bits w 24 19) (bit w 18) (bit w 17) (bit w 16) (bits w 15 14) body).wellFormed = true
    ∧ [w, b] = encode (.rep (bits w 24 19) (bit w 18) (bit w 17) (bit w 16) (bits w 15 14) body) (bit b 31) := by
  obtain ⟨hwf, xs, he, -, -⟩ := hb
  obtain ⟨x, hx, -⟩ := Laws.Words.repeatable (Laws.Words.repOk_isSome hrep)
  obtain ⟨rfl, rfl⟩ := List.cons.inj (hx.symm.trans he)
  have hpair : encodeWords (.rep (bits w 24 19) (bit w 18) (bit w 17) (bit w 16) (bits w 15 14) body) =
      major 0x3D (bits w 24 19 * 2 ^ 19 + ofBit (bit w 18) * 2 ^ 18 + ofBit (bit w 17) * 2 ^ 17 + ofBit (bit w 16) * 2 ^ 16 + bits w 15 14 * 2 ^ 14)
        :: encodeWords body := rfl
  have hfirst : major 0x3D (bits w 24 19 * 2 ^ 19 + ofBit (bit w 18) * 2 ^ 18 + ofBit (bit w 17) * 2 ^ 17 + ofBit (bit w 16) * 2 ^ 16
      + bits w 15 14 * 2 ^ 14) = w := by
    simp only [ofBit_bit]
    simp only [major, bit, bits, beq_eq_false_iff_ne] at *
    omega
  have hn : bits w 24 19 < 2 ^ 6 := by simpa using bits_lt w 24 19
  have hst : bits w 15 14 < 2 ^ 2 := by simpa using bits_lt w 15 14
  rw [hfirst, hx] at hpair
  refine ⟨by rw [Instr.isEncoded, hpair]; rfl, ?_, ?_⟩
  · simp only [Instr.wellFormed, okN, hn, hst, hrep, hwf, decide_true, Bool.and_self]
  · unfold encode
    rw [hpair]
    dsimp only
    rw [← word_marker hblt]

/-- Settles O3: what each part of the decoder accepts are the words of the instruction it gives. -/
theorem decodeSound : Obligations.DecodeSound := by
  intro ws d hws h
  cases ws with
  | nil => cases h
  | cons w ws =>
    have hw := hws w List.mem_cons_self
    have hrest : ∀ x ∈ ws, x < 2 ^ 32 := fun x hx => hws x (List.mem_cons_of_mem _ hx)
    dsimp only [decodeWords] at h
    split at h
    · next h25 =>
      rw [beq_iff_eq] at h25
      split at h
      · cases h
      · next hmark =>
        split at h
        · cases h
        · next hzero =>
          cases ws with
          | nil => cases h
          | cons b bs =>
            dsimp only at h
            cases hb : decodeOne b bs with
            | error e => rw [hb] at h; cases h
            | ok body =>
              rw [hb] at h
              change (if _ then _ else _) = _ at h
              split at h
              · next hrep =>
                cases h
                exact rep_take_words hw (hrest b List.mem_cons_self) h25 (by simpa using hmark) (by simpa using hzero)
                  (decodeOne_opens (fun x hx => hrest x (List.mem_cons_of_mem _ hx)) hb) hrep
              · cases h
    · next h25 =>
      cases hi : decodeOne w ws with
      | error e => rw [hi] at h; cases h
      | ok i =>
        rw [hi] at h
        cases h
        exact (decodeOne_opens hrest hi).take_words (by simpa using h25) hw

end Sys2Proof
end

section
/-! SUPPORT. The machine after reset, words written out, and the instructions that work lane by lane: one equation for each shape of instruction whose checks
pass, and with them the statements on arithmetic, logic, moves, shifts, comparisons, conversions, functions and cross-lane operations (R120 to R149). -/

namespace Sys2Proof.Machine

/-! ### Reset and decoding -/

section
variable {s : State} (h : s.turn = none)
include h

theorem issueOf_of_no_turn (n : Nat) (f : State → Nat → Env → Warp → Effect) : s.issueOf n f = .fault .noWarp := by
  rw [State.issueOf, h]

theorem issueParked_of_no_turn (n : Nat) (f : State → Nat → Env → Warp → Effect) : s.issueParked n f = .fault .noWarp := by
  rw [State.issueParked, h]

/-- Without a warp in its turn no instruction executes: every encoded instruction issues for the current warp. -/
theorem exec_of_no_turn {i : Instr} (hi : i.isEncoded = true) : exec i s = .fault .noWarp := by
  cases i
  case rep n sd sa sb stride body =>
    change execRep n sd sa sb stride body s = _
    rw [execRep, h]
  all_goals first | exact issueOf_of_no_turn h _ _ | exact issueParked_of_no_turn h _ _ | exact nomatch hi

end

/-- Settles O1. -/
theorem resetState : Obligations.ResetState :=
  ⟨rfl, rfl, rfl, rfl, rfl, rfl, rfl, rfl, rfl, rfl, rfl, rfl, rfl, rfl, rfl, rfl, fun _ => rfl, fun _ => rfl, fun _ => rfl,
    fun _ _ h hi => exec_of_no_turn h hi⟩

/-- Settles O4: the decoder evaluates on each of the words. -/
theorem decodedWords : Obligations.DecodedWords := ⟨rfl, rfl, rfl, rfl, rfl, rfl, rfl, rfl⟩

/-! ### The shapes of the instructions whose checks pass -/

section
variable {w : Warp} {env : Env} {ok : ElemType → Bool} {d a : Nat}

theorem withImm_ok (htype : w.TypeOk ok [d, a]) (hnames : w.NamesOk env (w.typ.span d ++ w.typ.span a)) (draws : Bool)
    (op : ElemType → (Nat → Rounding) → Nat → Nat → Nat × Flags) (imm : ElemType → Nat) :
    withImm ok draws op imm env w d a =
      .ok (w.produce env w.typ d (draws && w.rounds) fun l rs => op w.typ rs (w.val w.typ l a) (imm w.typ)) := by
  rw [withImm, typeCheck_ok htype, rangeCheck_ok hnames]

theorem unary_ok (htype : w.TypeOk ok [d, a]) (hnames : w.NamesOk env (w.typ.span d ++ w.typ.span a)) (op : ElemType → Nat → Nat × Flags) :
    unary ok op env w d a = .ok (w.produce env w.typ d false fun l _ => op w.typ (w.val w.typ l a)) :=
  withImm_ok htype hnames false _ _

/-- The two checks of an instruction on vector registers pass (R16, R120). -/
theorem typeCheck_rangeCheck_ok {α : Type} {ops names : List Nat} (htype : w.TypeOk ok ops) (hnames : w.NamesOk env names) (k : Except Stop α) :
    (w.typeCheck ok ops <| w.rangeCheck env names k) = k := by
  rw [typeCheck_ok htype, rangeCheck_ok hnames]

theorem collective_ok {α : Type} {ops names : List Nat} (htog : w.Together) (htype : w.TypeOk ok ops) (hnames : w.NamesOk env names)
    (k : Except Stop α) : collective env w ok ops names k = k := by
  obtain ⟨hparked, hactive⟩ := htog
  rw [collective, point_ok hparked, typeCheck_ok htype, converged_ok hactive, rangeCheck_ok hnames]

end

/-- The checks of a collective instruction without a type pass (R32, R161). -/
theorem point_converged_ok {α : Type} {w : Warp} (htog : w.Together) (k : Except Stop α) : (w.point <| w.converged k) = k := by
  obtain ⟨hparked, hactive⟩ := htog
  rw [point_ok hparked, converged_ok hactive]

/-! ### Arithmetic, logic and moves -/

/-- Settles O7: the checks pass, and each form is its shape with the operation of its name. -/
theorem vectorArithmeticCompletes : Obligations.VectorArithmeticCompletes := by
  intro s k w env d a b imm hrun
  refine ⟨fun htype hnames => ⟨?_, ?_, ?_, ?_, ?_⟩, fun htype hnames => ⟨?_, ?_⟩, fun htype hnames => ?_⟩
  · exact runs_issue hrun (binary_ok htype hnames true _)
  · exact runs_issue hrun (binary_ok htype hnames true _)
  · exact runs_issue hrun (binary_ok htype hnames true _)
  · exact runs_issue hrun (binary_ok htype hnames false _)
  · exact runs_issue hrun (binary_ok htype hnames false _)
  · exact runs_issue hrun (withImm_ok htype hnames true _ _)
  · exact runs_issue hrun (withImm_ok htype hnames true _ _)
  · exact runs_issue hrun (typeCheck_rangeCheck_ok htype hnames _)

/-- Settles O9: the checks pass, and each form is its shape with the bitwise operation of its name. -/
theorem vectorLogicCompletes : Obligations.VectorLogicCompletes := by
  intro s k w env d a b i reuse hrun
  refine ⟨fun htype hnames => ⟨?_, ?_, ?_, ?_⟩, fun htype hnames => ⟨?_, ?_, ?_⟩, fun htype hnames => ?_⟩
  · exact runs_issue hrun (binary_ok htype hnames false _)
  · exact runs_issue hrun (binary_ok htype hnames false _)
  · exact runs_issue hrun (binary_ok htype hnames false _)
  · exact runs_issue hrun (typeCheck_rangeCheck_ok htype hnames _)
  · exact runs_issue hrun (withImm_ok htype hnames false _ _)
  · exact runs_issue hrun (withImm_ok htype hnames false _ _)
  · exact runs_issue hrun (unary_ok htype hnames _)
  · refine runs_issue hrun ((unary_ok htype hnames _).trans ?_)
    simp only [mark_typ]

/-- `VMOVI` with H = 1: the immediate shifted to the upper half, over the register's lower half, as a sum of numbers (R134). -/
theorem upper_half_or_lower (x : Word) {n : Nat} (hn : n < 2 ^ 16) :
    ((BitVec.ofNat 32 n <<< 16) ||| (x.setWidth 16).setWidth 32).toNat = n * 2 ^ 16 + x.toNat % 2 ^ 16 := by
  have hlow : x.toNat % 2 ^ 16 < 2 ^ 16 := Nat.mod_lt _ (by decide)
  have hfits : n <<< 16 < 2 ^ 32 := by rw [Nat.shiftLeft_eq]; omega
  rw [BitVec.toNat_or, BitVec.toNat_shiftLeft, BitVec.toNat_ofNat, BitVec.toNat_setWidth, BitVec.toNat_setWidth,
    Nat.mod_eq_of_lt (a := n) (by omega), Nat.mod_eq_of_lt hfits, Nat.mod_eq_of_lt (a := x.toNat % 2 ^ 16) (by omega),
    ← Nat.shiftLeft_add_eq_or_of_lt hlow, Nat.shiftLeft_eq]

/-- Settles O10: `VMOVI` joins halves, and `VLANE` adds in the width of the type. -/
theorem moveRules : Obligations.MoveRules := by
  intro s k w env d a imm hrun himm
  refine ⟨fun hnames => ⟨?_, ?_⟩, fun hnames => ⟨fun h32 => ?_, fun h64 hd => ?_⟩⟩
  · exact runs_issue hrun (rangeCheck_ok hnames _)
  · simp only [upper_half_or_lower _ himm]
    exact runs_issue hrun (rangeCheck_ok hnames _)
  · refine runs_issue hrun ((typeCheck_rangeCheck_ok ⟨rfl, fun h => ?_⟩ hnames _).trans ?_)
    · rw [h32] at h
      cases h
    · simp [h32, BitVec.toNat_add]
  · refine runs_issue hrun ((typeCheck_rangeCheck_ok ⟨rfl, fun _ => by simpa using hd⟩ hnames _).trans ?_)
    simp [h64, BitVec.toNat_add]

/-! ### Shifts, comparisons, conversions and functions -/

/-- Settles O11: the checks pass, and each form is its shape with the element operation of its name. -/
theorem shiftsAndComparesComplete : Obligations.ShiftsAndComparesComplete := by
  refine ⟨fun s k w env d a n b kind reuse hrun => ⟨fun htype hnames => ⟨?_, ?_, ?_⟩, fun htype hnames => ?_, fun htype hnames => ⟨?_, ?_⟩,
    fun htype hnames => ⟨?_, ?_⟩⟩, fun s k w env c p a b imm hrun => ⟨fun htype hnames => ?_, fun htype hnames => ?_⟩⟩
  · exact runs_issue hrun (binary_ok htype hnames false _)
  · exact runs_issue hrun (binary_ok htype hnames false _)
  · exact runs_issue hrun (binary_ok htype hnames false _)
  · exact runs_issue hrun (unary_ok htype hnames _)
  · exact runs_issue hrun (unary_ok htype hnames _)
  · exact runs_issue hrun (unary_ok htype hnames _)
  · exact runs_issue hrun (binary_ok htype hnames false _)
  · exact runs_issue hrun (typeCheck_rangeCheck_ok htype hnames _)
  · exact runs_issue hrun (typeCheck_rangeCheck_ok htype hnames _)
  · exact runs_issue hrun (typeCheck_rangeCheck_ok htype hnames _)

/-- The operands of a conversion that are pairs are even (R132). -/
theorem pairOperands_ok {α : Type} {w : Warp} {td : ElemType} {d a : Nat} (ha : w.typ.is64 = true → a % 2 = 0) (hd : td.is64 = true → d % 2 = 0)
    (k : Except Stop α) : stopIf ((w.typ.is64 && a % 2 == 1) || (td.is64 && d % 2 == 1)) (w.trap 0x01) k = k := by
  have hcond : ((w.typ.is64 && a % 2 == 1) || (td.is64 && d % 2 == 1)) = false := by
    simp only [Bool.or_eq_false_iff, Bool.and_eq_false_imp, beq_eq_false_iff_ne]
    exact ⟨fun h => by simp [ha h], fun h => by simp [hd h]⟩
  rw [hcond, stopIf_false]

/-- Settles O12: the checks pass, and each form is its shape. -/
theorem conversionsAndFunctionsComplete : Obligations.ConversionsAndFunctionsComplete := by
  refine ⟨fun s k w env d a td imm reuse hrun => ⟨fun htype hnames => ⟨?_, ?_⟩, fun htype hnames => ?_, fun htype hnames => ?_,
    fun ha hd hnames => ?_, fun hnames => ⟨?_, ?_⟩⟩, fun s k w env d a reuse hrun => ⟨fun htype hnames => ⟨?_, ?_, ?_, ?_, ?_, ?_, ?_⟩,
    fun hnames => ?_⟩⟩
  · exact runs_issue hrun (unary_ok htype hnames _)
  · exact runs_issue hrun (unary_ok htype hnames _)
  · exact runs_issue hrun (typeCheck_rangeCheck_ok htype hnames _)
  · exact runs_issue hrun (typeCheck_rangeCheck_ok htype hnames _)
  · exact runs_issue hrun ((pairOperands_ok ha hd _).trans (rangeCheck_ok hnames _))
  · exact runs_issue hrun (rangeCheck_ok hnames _)
  · exact runs_issue hrun (rangeCheck_ok hnames _)
  · exact runs_issue hrun (typeCheck_rangeCheck_ok htype hnames _)
  · exact runs_issue hrun (typeCheck_rangeCheck_ok htype hnames _)
  · exact runs_issue hrun (typeCheck_rangeCheck_ok htype hnames _)
  · exact runs_issue hrun (typeCheck_rangeCheck_ok htype hnames _)
  · exact runs_issue hrun (typeCheck_rangeCheck_ok htype hnames _)
  · exact runs_issue hrun (typeCheck_rangeCheck_ok htype hnames _)
  · exact runs_issue hrun (typeCheck_rangeCheck_ok htype hnames _)
  · exact runs_issue hrun (rangeCheck_ok hnames _)

/-! ### Cross-lane instructions and predicates -/

/-- Settles O16: the warp is together and the checks pass, and each form leaves its results pending. -/
theorem crossLaneCompletes : Obligations.CrossLaneCompletes := by
  intro s k w env d a n kind rel reuse hrun
  refine ⟨fun htog htype hnames => ?_, fun htog htype hnames => ⟨?_, ?_, ?_, ?_⟩, fun htog htype hnames => ⟨?_, ?_, ?_⟩⟩
  all_goals exact runs_issue hrun (collective_ok htog htype hnames _)

/-- Settles O18: the warp is together and the checks pass; the predicate instructions have no checks but those of their names. -/
theorem predicatesAndVotesComplete : Obligations.PredicatesAndVotesComplete := by
  refine ⟨fun s k w env d p a reuse hrun => ⟨fun htog => ⟨?_, ?_⟩, fun htog hnames => ?_, fun htog htype hnames => ?_⟩,
    fun s k w env d a b n hrun => ⟨?_, ?_, ?_, ?_, ?_, ?_, ?_, fun hnames => ?_, fun hnames => ?_⟩⟩
  · exact runs_issue hrun (point_converged_ok htog _)
  · exact runs_issue hrun (point_converged_ok htog _)
  · exact runs_issue hrun ((point_converged_ok htog _).trans (rangeCheck_ok hnames _))
  · exact runs_issue hrun (collective_ok htog htype hnames _)
  · exact runs_issue hrun rfl
  · exact runs_issue hrun rfl
  · exact runs_issue hrun rfl
  · exact runs_issue hrun rfl
  · exact runs_issue hrun rfl
  · exact runs_issue hrun rfl
  · exact runs_issue hrun rfl
  · exact runs_issue hrun (rangeCheck_ok hnames _)
  · exact runs_issue hrun (rangeCheck_ok hnames _)

end Sys2Proof.Machine
end

section
/-! SUPPORT. Instructions that park as at a marker, scalar accesses that reach memory, and with them the statements on scalars, special registers, control,
divergence, stretches, regions and repetition (R27 to R41, R91 to R113, R155). -/

namespace Sys2Proof.Machine

/-! ### The warp with its pending results written -/

/-- A warp without its registers, its stretch and its pairs table: what writing a result leaves as it is. -/
def Warp.bare (w : Warp) : Warp := { w with lanes := [], s := [], p := [], meld := none, pairs := [] }

theorem RegWrite.apply_bare (w : Warp) (r : RegWrite) : (r.apply w).bare = w.bare := by cases r <;> rfl

theorem applyAll_bare (w : Warp) (rs : List RegWrite) : (w.applyAll rs).bare = w.bare :=
  List.foldlRecOn rs RegWrite.apply (motive := fun v => v.bare = w.bare) rfl fun v hv r _ => (RegWrite.apply_bare v r).trans hv

section
variable (w : Warp)

@[simp] theorem drain_status : w.drain.status = w.status := (congrArg Warp.status (applyAll_bare w w.pending.flatten) :)
@[simp] theorem drain_team : w.drain.team = w.team := (congrArg Warp.team (applyAll_bare w w.pending.flatten) :)
@[simp] theorem drain_core : w.drain.core = w.core := (congrArg Warp.core (applyAll_bare w w.pending.flatten) :)
@[simp] theorem drain_width : w.drain.width = w.width := (congrArg Warp.width (applyAll_bare w w.pending.flatten) :)
@[simp] theorem drain_segment : w.drain.segment = w.segment := (congrArg Warp.segment (applyAll_bare w w.pending.flatten) :)
@[simp] theorem drain_pc : w.drain.pc = w.pc := (congrArg Warp.pc (applyAll_bare w w.pending.flatten) :)
@[simp] theorem drain_live : w.drain.live = w.live := (congrArg Warp.live (applyAll_bare w w.pending.flatten) :)
@[simp] theorem drain_active : w.drain.active = w.active := (congrArg Warp.active (applyAll_bare w w.pending.flatten) :)
@[simp] theorem drain_mode : w.drain.mode = w.mode := (congrArg Warp.mode (applyAll_bare w w.pending.flatten) :)
@[simp] theorem drain_handler : w.drain.handler = w.handler := (congrArg Warp.handler (applyAll_bare w w.pending.flatten) :)
@[simp] theorem drain_restart : w.drain.restart = w.restart := (congrArg Warp.restart (applyAll_bare w w.pending.flatten) :)
@[simp] theorem drain_stack : w.drain.stack = w.stack := (congrArg Warp.stack (applyAll_bare w w.pending.flatten) :)

theorem RegWrite.apply_meld_isSome (r : RegWrite) : (r.apply w).meld.isSome = w.meld.isSome := by
  cases r <;> simp [RegWrite.apply, Warp.setLane, Warp.setScal, Warp.setPred]

/-- A write to come of the predicate of a stretch is noted with it; it opens none and closes none. -/
@[simp] theorem drain_meld_isSome : w.drain.meld.isSome = w.meld.isSome :=
  List.foldlRecOn _ _ (motive := fun v => Option.isSome (Warp.meld v) = w.meld.isSome) rfl fun v hv r _ => (RegWrite.apply_meld_isSome v r).trans hv

theorem drain_meld_of_none {w : Warp} (h : w.meld = none) : w.drain.meld = none := by
  rw [← Option.isNone_iff_eq_none, ← Option.not_isSome, drain_meld_isSome, h]
  rfl

end

/-- A warp whose results are written has none to write. -/
theorem drain_drain (w : Warp) : w.drain.drain = w.drain := rfl

/-- What a warp sees of its launch, team and core depends on its team, width, core and segment alone. -/
theorem env?_congr (s : State) {v w : Warp} (hteam : v.team = w.team) (hseg : v.segment = w.segment) (hwidth : v.width = w.width)
    (hcore : v.core = w.core) : s.env? v = s.env? w := by
  simp only [State.env?, hteam, hseg, hwidth, hcore]

@[simp] theorem env?_drain (s : State) (w : Warp) : s.env? w.drain = s.env? w :=
  env?_congr s (drain_team w) (drain_segment w) (drain_width w) (drain_core w)

theorem issueBy_ok {s : State} {k : Nat} {w w1 : Warp} {env : Env} {n : Nat} {next : Next} {s1 : State}
    {f : State → Nat → Env → Warp → Effect} (henv : s.env? w = some env) (hready : w.status = .ready) (hf : f s k env w = .ok (s1, w1, next)) :
    s.issueBy k w n f = s1.ends k w1 next := by
  simp [State.issueBy, henv, ready_self hready, hf, State.ends]

/-- An instruction that parks as at a marker takes effect on the warp with its pending results written. -/
theorem runs_issueParked {s : State} {k : Nat} {w w1 : Warp} {env : Env} {n : Nat} {next : Next} {s1 : State}
    {f : State → Nat → Env → Warp → Effect} (h : s.Runs k w env) (hf : f s k env w.drain = .ok (s1, w1, next)) :
    s.issueParked n f = .next (s1.ends k w1 next) := by
  obtain ⟨hturn, hwarp, henv, hready⟩ := h
  rw [State.issueParked, hturn]
  dsimp only
  rw [hwarp]
  dsimp only
  rw [issueBy_ok ((env?_drain s w).trans henv) ((drain_status w).trans hready) hf]

/-! ### Scalar accesses -/

section
variable {s : State} {env : Env} {a : DWord} {n : Nat}

theorem resolveScalar_of_reaches {kd : AccessKind} {p : Phys} (h : s.Reaches env a n kd p) (l : Nat) :
    resolveScalar s env l a n kd = .ok (.global a.toNat p) := by
  obtain ⟨halign, hplace, htrans, hfab⟩ := h
  simp [resolveScalar, resolve, halign, hplace, resolveGlobal, htrans, hfab]

theorem resolveScalar_of_inWindow {kd : AccessKind} {l : Nat} {ps : List (Nat × Nat)} (h : s.InWindow env .start l a n kd ps) :
    resolveScalar s env l a n kd = .ok (.priv ps) := by
  obtain ⟨halign, off, hplace, hpriv⟩ := h
  simp [resolveScalar, resolve, halign, hplace, hpriv]

/-- No sector of a load is locked by another warp. -/
theorem any_lock_eq_false {k : Nat} {p : Phys} (h : ∀ x ∈ sectorsOf p.pa n, s.lockFor k (x * 32) = none) :
    (sectorsOf p.pa n).any (fun x => (s.lockFor k (x * 32)).isSome) = false := by
  rw [List.any_eq_false]
  intro x hx
  simp [h x hx]

/-- A scalar load of memory gives the bytes that the warp sees, under its own stores of the quantum (R95, R345). -/
theorem loadScalar_of_reaches {k : Nat} {w : Warp} {i : Instr} {p : Phys} (h : s.Reaches env a n .read p)
    (hlock : ∀ x ∈ sectorsOf p.pa n, s.lockFor k (x * 32) = none) (hpoison : isPoisoned s.poison p.pa n = false) :
    loadScalar s k env w i a n =
      .ok (s.loadTouch env.core p.pa n .normal false, w.overlay (physKey p) (s.seenAt env.core k p.pa n)) := by
  have hfab := h.2.2.2
  rw [loadScalar, resolveScalar_of_reaches h]
  simp [stopIf, any_lock_eq_false hlock, State.physPoison, hfab, hpoison, State.coreLoad, Except.map]

/-- A scalar load of a lane's own window gives the bytes that back it (R97, R151). -/
theorem loadScalar_of_inWindow {k : Nat} {w : Warp} {i : Instr} {ps : List (Nat × Nat)} (h : s.InWindow env .start w.lowestLive a n .read ps)
    (hpoison : s.piecesBad ps = false) : loadScalar s k env w i a n = .ok (s.touchPieces ps, s.piecesAt ps) := by
  rw [loadScalar, resolveScalar_of_inWindow h]
  simp [readPriv, stopIf, hpoison]

end

/-! ### Special registers and the mode register -/

/-- A value of the mode register that is not reserved, and whose guard is not a stretch's written predicate, is written (R20, R35). -/
theorem setMode_ok {w : Warp} {m : BitVec 16} (hm : modeOk m = true) (hfree : ∀ st, w.meld = some st → st.wrote = false ∨ bits m.toNat 3 0 ≠ st.pred) :
    setMode w m = .ok { w with mode := m } := by
  rw [setMode, hm, Bool.not_true, stopIf_false]
  cases hmeld : w.meld with
  | none => rfl
  | some st =>
    have hguard : (st.wrote && bits m.toNat 3 0 == st.pred) = false := by
      rcases hfree st hmeld with hwrote | hpred
      · simp [hwrote]
      · simp [hpred]
    dsimp only
    rw [hguard, stopIf_false]

/-- Settles O19: the checks of each register pass. -/
theorem scalarsAndSpecialRegistersComplete : Obligations.ScalarsAndSpecialRegistersComplete := by
  refine ⟨fun s k w env d a b f g i hrun => ⟨runs_issue hrun rfl, runs_issue hrun rfl⟩, fun s k w env d a n x v m hrun =>
    ⟨fun hread => ?_, fun ha hlt hm hfree => ?_, fun ha hhigh hmid => ?_, runs_issue hrun rfl, runs_issue hrun rfl, fun hread htype hnames => ?_,
      fun hm hfree => runs_issue hrun (setMode_ok hm hfree), fun hm hfree => runs_issue hrun (setMode_ok hm hfree)⟩⟩
  · exact runs_issue hrun (by rw [hread])
  · refine runs_issue hrun ?_
    rw [ha, writeSpecial, decide_eq_false (Nat.not_le.mpr hlt), stopIf_false]
    exact setMode_ok hm hfree
  · refine runs_issue hrun ?_
    rw [ha, writeSpecial, hhigh, hmid]
    rfl
  · exact runs_issue hrun (typeCheck_rangeCheck_ok (ok := fun _ => (readSpecial env w n).isSome) ⟨hread, htype.2⟩ hnames _)

/-! ### Branches, jumps and calls -/

theorem alignedTarget_ok {α : Type} {w : Warp} {t : DWord} (h : t.toNat % 4 = 0) (k : Except Stop α) : w.alignedTarget t k = k := by
  simp [Warp.alignedTarget, stopIf, h]

theorem spadj_ok {env : Env} {w : Warp} {o : Int} {n : DWord} (hn : n = w.scal 31 + BitVec.ofInt 64 (o * 64)) (hlo : env.stklim ≤ n.toNat)
    (hhi : n.toNat ≤ env.top) : spadj o env w = .ok (w.setScal 31 n) := by
  change stopIf (decide ((w.scal 31 + BitVec.ofInt 64 (o * 64)).toNat < env.stklim) || decide (env.top < (w.scal 31 + BitVec.ofInt 64 (o * 64)).toNat))
    _ (.ok (w.setScal 31 (w.scal 31 + BitVec.ofInt 64 (o * 64)))) = _
  rw [← hn, decide_eq_false (Nat.not_lt.mpr hlo), decide_eq_false (Nat.not_lt.mpr hhi)]
  rfl

/-- `CALLV` passes its checks where every target is the entry of a function within the budget (R103). -/
theorem callv_ok {s : State} {env : Env} {w : Warp} {x : Nat} (hm : w.meld = none) (hnames : w.NamesOk env [x, x + 1])
    (hts : ∀ t ∈ w.callTargets x, t % 4 = 0 ∧ ∃ n, s.budgetAt w t = some n ∧ n ≤ env.budget) :
    callv x s env w = w.callAll env x (w.callTargets x) := by
  have hentry : (w.callTargets x).find? (fun t => t % 4 != 0 || (s.budgetAt w t).isNone) = none := by
    rw [List.find?_eq_none]
    intro t ht
    obtain ⟨h4, n, hn, -⟩ := hts t ht
    simp [h4, hn]
  have hbudget : (w.callTargets x).any (fun t => decide (env.budget < (s.budgetAt w t).getD 0)) = false := by
    rw [List.any_eq_false]
    intro t ht
    obtain ⟨-, n, hn, hle⟩ := hts t ht
    simp [hn, hle]
  rw [callv, notMelded_ok hm, rangeCheck_ok hnames, hentry, hbudget]
  rfl

/-- Several targets run as groups through the stack (R103). -/
theorem callAll_of_two_le {env : Env} {w : Warp} {x : Nat} {ts : List Nat} (h2 : 2 ≤ ts.length) (hroom : w.stack.length + (ts.length + 1) ≤ stackDepth) :
    w.callAll env x ts =
      .ok ((w.link.push (⟨w.pc + 4, w.active, w.pc + 4⟩ :: ts.reverse.map (w.callGroup x))).pop.1,
        .jump (w.link.push (⟨w.pc + 4, w.active, w.pc + 4⟩ :: ts.reverse.map (w.callGroup x))).pop.2) := by
  match ts with
  | [] | [t] => simp at h2
  | t :: u :: r => exact room_ok hroom _

/-- Settles O21: the checks pass, and each form moves the PC as its equation says. -/
theorem controlCompletes : Obligations.ControlCompletes := by
  refine ⟨fun s k w env c a b y o hrun => ⟨fun hc => ?_, fun hc => ?_, ?_, fun hm => ?_, fun hm hy => ?_, fun hy => ?_, fun hm hy => ?_, fun hlo hhi => ?_⟩,
    fun s k w env x hrun hm hnames hts => ⟨fun hnil => ?_, fun t hone => ?_, fun h2 hroom => ?_⟩⟩
  · exact runs_issueControl hrun (by rw [hc]; rfl)
  · exact runs_issueControl hrun (by rw [hc]; rfl)
  · exact runs_issueControl hrun rfl
  · exact runs_issueControl hrun (notMelded_ok hm _)
  · exact runs_issueControl hrun ((notMelded_ok hm _).trans (alignedTarget_ok hy _))
  · exact runs_issueControl hrun (alignedTarget_ok hy _)
  · exact runs_issueControl hrun ((notMelded_ok hm _).trans (alignedTarget_ok hy _))
  · exact runs_issue hrun (spadj_ok rfl hlo hhi)
  · exact runs_issueControl hrun ((callv_ok hm hnames hts).trans (congrArg (w.callAll env x) hnil))
  · exact runs_issueControl hrun ((callv_ok hm hnames hts).trans (congrArg (w.callAll env x) hone))
  · exact runs_issueControl hrun ((callv_ok hm hnames hts).trans (callAll_of_two_le h2 hroom))

/-! ### Divergence -/

section
variable {env : Env} {w : Warp} {a : Nat} {kt : KeyType} {cases : List (Nat × Int)} {dflt join : Int} (hm : w.meld = none) (hnames : w.NamesOk env [a])
include hm hnames

theorem switch_one {g : Int × List Nat}
    (hg : ((switchGroups (fun l => w.reg l a) kt dflt cases (lanesOf w.width w.counted)).filter fun g => !g.2.isEmpty) = [g]) :
    switch a kt cases dflt join env w = .ok (w, .jump (w.target g.1)) := by
  rw [switch, notMelded_ok hm, rangeCheck_ok hnames, hg]

/-- Several groups of lanes: the join and the later groups are pushed (R30). -/
theorem switch_divides {g h : Int × List Nat} {r : List (Int × List Nat)}
    (hg : ((switchGroups (fun l => w.reg l a) kt dflt cases (lanesOf w.width w.counted)).filter fun g => !g.2.isEmpty) = g :: h :: r)
    (hroom : w.stack.length + r.length + 3 ≤ stackDepth) :
    switch a kt cases dflt join env w = .ok ({ w with
      stack := ((h :: r).map fun x => ⟨w.target x.1, maskOf x.2, w.target join⟩) ++ ⟨w.target join, w.active, w.target join⟩ :: w.stack
      active := w.active &&& ~~~(maskOf ((h :: r).flatMap (·.2))) }, .jump (w.target g.1)) := by
  have hstack : (⟨w.target join, w.active, w.target join⟩ :: (h :: r).reverse.map fun x => (⟨w.target x.1, maskOf x.2, w.target join⟩ : StackEntry)).reverse
      ++ w.stack = ((h :: r).map fun x => ⟨w.target x.1, maskOf x.2, w.target join⟩) ++ ⟨w.target join, w.active, w.target join⟩ :: w.stack := by
    rw [List.reverse_cons, List.map_reverse, List.reverse_reverse, List.append_assoc, List.singleton_append]
  rw [switch, notMelded_ok hm, rangeCheck_ok hnames, hg]
  dsimp only
  rw [room_ok (by rw [List.length_cons]; omega), Warp.push, hstack]

end

theorem popsNow_of_stack_cons {w : Warp} {e : StackEntry} {r : List StackEntry} (h : w.stack = e :: r) :
    w.popsNow = true ↔ w.pc = e.rpc ∨ w.active = 0 := by
  rw [Warp.popsNow, h, Bool.or_eq_true, beq_iff_eq, beq_iff_eq, eq_comm (a := e.rpc)]

theorem settled_of_not_popsNow {w : Warp} (h : w.popsNow = false) : w.settled = w := by
  rw [Warp.settled, Warp.popAll, h]
  rfl

/-- Settles O23: `SPLIT` and `SWITCH` by their equations, and the pops one at a time. -/
theorem divergenceRules : Obligations.DivergenceRules := by
  refine ⟨fun s k w env p sense els join hrun hm => ⟨fun hthen helse hroom => ?_, fun hnone => ?_⟩,
    fun s k w env a kt cases dflt join hrun hm hnames => ⟨fun g hg => ?_, fun g h r hg hroom => ?_⟩,
    fun w => ⟨fun hnil => ?_, fun e r hcons hpc hactive => ?_, fun e r hcons hpop => ?_⟩⟩
  · exact runs_issueControl hrun (split_divides hm hthen helse hroom)
  · refine runs_issueControl hrun ?_
    simp [split, notMelded_ok hm, hnone]
  · exact runs_issueControl hrun (switch_one hm hnames hg)
  · exact runs_issueControl hrun (switch_divides hm hnames hg hroom)
  · exact settled_of_not_popsNow (by simp [Warp.popsNow, hnil])
  · exact settled_of_not_popsNow (by
      rw [← Bool.not_eq_true, popsNow_of_stack_cons hcons]
      exact not_or.mpr ⟨hpc, hactive⟩)
  · rw [Warp.settled, Warp.popAll, if_pos ((popsNow_of_stack_cons hcons).mpr hpop), pop_of_stack_cons hcons, Warp.settled, hcons]
    rfl

/-! ### Stretches, regions and repetition -/

theorem meldOn_ok {env : Env} {w : Warp} {p : Nat} (hm : w.meld = none) (htog : w.drain.Together) (hpairs : ∀ b ∈ w.drain.pairs, b.toNat < env.budget) :
    meldOn p env w.drain = .ok { w.drain with meld := some ⟨p, false⟩, path := w.drain.live &&& w.drain.pred p } := by
  have hbudget : w.drain.pairs.any (fun b => decide (env.budget ≤ b.toNat)) = false := by
    rw [List.any_eq_false]
    intro b hb
    simpa using hpairs b hb
  dsimp only [meldOn]
  rw [drain_drain, point_ok htog.1, notMelded_ok (drain_meld_of_none hm), converged_ok htog.2, hbudget, stopIf_false]

theorem meldOff_ok {w : Warp} (hm : w.meld.isSome = true) : meldOff w = .ok { w with latches := [none, none], meld := none, path := 0 } := by
  rw [meldOff, Option.isNone_eq_false_iff.mpr hm]
  rfl

/-- The checks of a `REGION`: no stretch, no open transaction, a kind that the launch allows, and a register range within the budget (R109, R293). -/
structure RegionAllowed (env : Env) (w : Warp) (kind : RegionKind) (value : Bool) (vbase vcount : Nat) : Prop where
  notMelded : w.meld = none
  noTx : w.anyTx = false
  range : vbase + vcount ≤ env.budget
  tx : kind ≠ .plain → env.det = false ∧ (value = true → env.val = true)
    ∧ (kind = .ordered → ∀ l ∈ lanesOf w.width w.active, (w.lane l).slalom.isSome = true)

theorem RegionAllowed.kind_ok {env : Env} {w : Warp} {kind : RegionKind} {value : Bool} {vbase vcount : Nat} (h : RegionAllowed env w kind value vbase vcount) :
    (kind != .plain && (env.det || (value && !env.val)
      || (kind == .ordered && (lanesOf w.width w.active).any fun l => (w.lane l).slalom.isNone))) = false := by
  by_cases hk : kind = .plain
  · simp [hk]
  · obtain ⟨hdet, hvalue, hslalom⟩ := h.tx hk
    have hval : (value && !env.val) = false := by
      cases value with
      | false => rfl
      | true => simp [hvalue rfl]
    have hlanes : (kind == .ordered && (lanesOf w.width w.active).any fun l => (w.lane l).slalom.isNone) = false := by
      rw [Bool.and_eq_false_imp]
      intro hord
      rw [List.any_eq_false]
      intro l hl
      simp [Option.isSome_iff_ne_none.mp (hslalom (beq_iff_eq.mp hord) l hl)]
    rw [hdet, hval, hlanes]
    simp

section
variable {s : State} {k : Nat} {env : Env} {w : Warp} {kind : RegionKind} {retries : Nat} {noback value : Bool} {scalars : BitVec 32} {vbase vcount : Nat}
  {preds : BitVec 12} {acclive : Bool} (h : RegionAllowed env w.drain kind value vbase vcount)
include h

/-- A `REGION` whose checks pass stops the warp or opens the region (R39, R109). -/
theorem region_of_allowed : region kind retries noback value scalars vbase vcount preds acclive s k env w.drain =
    (let w1 : Warp := { w.drain with region := regionOf w.drain kind retries noback value scalars vbase vcount preds acclive }
    if s.stopRequested env w.drain && w.drain.handler.isNone then
      .ok ((s.cancelOps fun o => o.warp == k).releaseToken k, { w1 with status := .stopped, openOps := [], batches := [] }, .stay)
    else if kind == .plain then .ok (s, { w1.clearAborts with restart := none }, .after 12)
    else .ok (s, w1.openTx k s.clock s.token (kind == .ordered) (match w.drain.restart with
      | some r => r.entry == w.drain.pc
      | none => false), .after 12)) := by
  dsimp only [region]
  rw [drain_drain, notMelded_ok h.notMelded, h.noTx, stopIf_false, h.kind_ok, stopIf_false, decide_eq_false (Nat.not_lt.mpr h.range), stopIf_false]
    <;> rfl

end

/-! ### Repetition -/

theorem repCount_eq (n : Nat) : repCount n = if n = 0 then 64 else n := by simp [repCount]

/-- The word of a legal pair is executed for the iteration that is due (R112). -/
theorem execRep_of_open {s : State} {k n stride : Nat} {w : Warp} {env : Env} {sd sa sb : Bool} {body : Instr} (hrun : s.Runs k w env)
    (h : (w.repOpen || !repOk sd sa sb stride body) = true) :
    exec (.rep n sd sa sb stride body) s = .next (s.issueBy k w 8 fun s _ env w =>
      (repIteration (repCount n) (repCount n - w.repc.toNat) sd sa sb stride body env w).map fun r => (s, r.1, r.2)) := by
  obtain ⟨hturn, hwarp, -, -⟩ := hrun
  change execRep n sd sa sb stride body s = _
  rw [execRep, hturn]
  dsimp only
  rw [hwarp]
  dsimp only
  rw [if_pos h]

section
variable {env : Env} {w : Warp} {count i stride : Nat} {sd sa sb : Bool} {body : Instr} (hok : repOk sd sa sb stride body = true)
include hok

/-- The body of a pair in iteration `i`, its stepped registers moved (R112). -/
def iterationBody (i : Nat) (sd sa sb : Bool) (stride : Nat) (body : Instr) : Instr :=
  stepBody (if sd then i * 2 ^ stride else 0) (if sa then i * 2 ^ stride else 0) (if sb then i * 2 ^ stride else 0) body

theorem repIteration_of_ok {w1 : Warp} (h : repeated env w (iterationBody i sd sa sb stride body) = .ok w1) :
    repIteration count i sd sa sb stride body env w =
      .ok (if i + 1 < count then ({ w1 with repc := BitVec.ofNat 7 (count - (i + 1)) }, .stay) else (w1.endPair, .after 8)) := by
  rw [iterationBody] at h
  dsimp only [repIteration]
  rw [hok, Bool.not_true, stopIf_false, h]

theorem repIteration_of_trap {c : Nat} {x : DWord} {m : Mask} (h : repeated env w (iterationBody i sd sa sb stride body) = .error (.trap c x m)) :
    repIteration count i sd sa sb stride body env w =
      if w.onlyDooms then .ok (w.doomActive.endPair, .after 8) else .error (.trap c x m) := by
  rw [iterationBody] at h
  dsimp only [repIteration]
  rw [hok, Bool.not_true, stopIf_false, h]

end

theorem issueBy_stops {s : State} {k : Nat} {w : Warp} {env : Env} {n : Nat} {e : Stop} {f : State → Nat → Env → Warp → Effect}
    (henv : s.env? w = some env) (hready : w.status = .ready) (hf : f s k env w = .error e) : s.issueBy k w n f = s.halt k w n e := by
  simp [State.issueBy, henv, ready_self hready, hf]

/-- A word that can be repeated does as an instruction what it does in an iteration (R112): none carries a reuse mark. -/
theorem exec_of_repeated {s : State} {k : Nat} {w w1 : Warp} {env : Env} {i : Instr} (hrun : s.Runs k w env) (hi : i.repSteps.isSome = true)
    (h : repeated env w i = .ok w1) : exec i s = .next (s.ends k w1 (.after 4)) := by
  cases i
  case vnot d a r | vabs d a r | vneg d a r | vclz d a r | vpopc d a r | vrcp d a r | vrsq d a r | vexp2 d a r | vlog2 d a r | vsin d a r | vcos d a r
    | vact d a r | vredadd d a r | vredmin d a r | vredmax d a r | vredand d a r | vredor d a r | vredxor d a r | vscan d a r | vmatch d a r | vpack d a r
    | vunpk d a r =>
    cases r with
    | false => exact runs_issue hrun h
    | true => exact nomatch hi
  all_goals first | exact runs_issue hrun h | exact nomatch hi

/-- Settles O24: stretches, regions and pairs by their equations; a pair by what its iteration answers. -/
theorem stretchesRegionsAndRepetition : Obligations.StretchesRegionsAndRepetition := by
  refine ⟨fun s k w env p y q hrun => ⟨fun hm htog hpairs => ?_, fun hm => ?_, fun hm hreach hlock hpoison => ?_, fun ps hm hwin hpoison => ?_⟩,
    fun s k w env kind retries noback value scalars vbase vcount preds acclive hrun hm htx hrange hkind => ⟨fun hstop hhandler => ?_, fun hstay => ?_⟩,
    fun s k w w1 env n stride sd sa sb body hrun => ⟨fun hbad => ?_, fun hok => ⟨fun hclosed => ?_, fun hopen hit => ?_, fun c x m hopen hit => ?_⟩⟩,
    fun s k w w1 env i hrun hi h => exec_of_repeated hrun hi h⟩
  · exact runs_issueParked hrun (by rw [meldOn_ok hm htog hpairs]; rfl)
  · exact runs_issue hrun (meldOff_ok hm)
  · refine runs_issueMem hrun ?_
    rw [meldLdt, notMelded_ok hm, loadScalar_of_reaches hreach hlock hpoison]
    rfl
  · refine runs_issueMem hrun ?_
    rw [meldLdt, notMelded_ok hm, loadScalar_of_inWindow hwin hpoison]
    rfl
  · have hallowed : RegionAllowed env w.drain kind value vbase vcount := ⟨drain_meld_of_none hm, htx, hrange, hkind⟩
    refine runs_issueParked hrun ((region_of_allowed hallowed).trans (if_pos ?_))
    rw [hstop, hhandler]
    rfl
  · have hallowed : RegionAllowed env w.drain kind value vbase vcount := ⟨drain_meld_of_none hm, htx, hrange, hkind⟩
    have hgo : ¬ (s.stopRequested env w.drain && w.drain.handler.isNone) = true := by
      rcases hstay with hno | hin
      · rw [hno, Bool.false_and]
        exact Bool.false_ne_true
      · rw [Option.isNone_eq_false_iff.mpr hin, Bool.and_false]
        exact Bool.false_ne_true
    refine ⟨fun hk => ?_, fun hk => ?_⟩
    · exact runs_issueParked hrun ((region_of_allowed hallowed).trans ((if_neg hgo).trans (if_pos (beq_iff_eq.mpr hk))))
    · exact runs_issueParked hrun ((region_of_allowed hallowed).trans ((if_neg hgo).trans (if_neg (mt beq_iff_eq.mp hk))))
  · rw [execRep_of_open hrun (by rw [hbad, Bool.not_false, Bool.or_true])]
    obtain ⟨-, -, henv, hready⟩ := hrun
    rw [issueBy_stops henv hready (by rw [repIteration, hbad]; rfl)]
  · obtain ⟨hturn, hwarp, -, -⟩ := hrun
    change execRep n sd sa sb stride body s = _
    rw [execRep, hturn, ← repCount_eq]
    dsimp only
    rw [hwarp]
    dsimp only
    rw [if_neg (by rw [hclosed, hok]; exact Bool.false_ne_true)]
  · rw [execRep_of_open hrun (by rw [hopen, Bool.true_or])]
    obtain ⟨-, -, henv, hready⟩ := hrun
    rw [← repCount_eq] at hit ⊢
    split
    · next hlt => rw [issueBy_ok henv hready (by rw [repIteration_of_ok hok hit, if_pos hlt]; rfl)]
    · next hge => rw [issueBy_ok henv hready (by rw [repIteration_of_ok hok hit, if_neg hge]; rfl)]; rfl
  · rw [execRep_of_open hrun (by rw [hopen, Bool.true_or])]
    obtain ⟨-, -, henv, hready⟩ := hrun
    rw [← repCount_eq] at hit
    refine ⟨fun hdooms => ?_, fun hraised => ?_⟩
    · rw [issueBy_ok henv hready (by rw [repIteration_of_trap hok hit, if_pos hdooms]; rfl)]; rfl
    · rw [issueBy_stops henv hready (by rw [repIteration_of_trap hok hit, if_neg (by simp [hraised])]; rfl)]

end Sys2Proof.Machine
end

section
/-! SUPPORT. System instructions, barriers and fences, traps taken and left, and with them the statements on them; and the entry into a handler, whose lane
records move lines of the L2, which the statement on it leaves out (R114 to R119, R160 to R168, R202 to R205, R268, R271). -/

namespace Sys2Proof.Machine

/-! ### System instructions, barriers and fences -/

theorem logs_of_det {env : Env} (h : env.det = false) : env.logs = false := by rw [Env.logs, h, Bool.false_and]

theorem released_ok {α : Type} {s : State} {k : Nat} {w : Warp} {releases : Bool} {sc : Scope} (h : s.unreleased k w sc none = false ∨ releases = false)
    (c : Except Stop α) : s.released k w releases sc c = c := by
  have hcond : (releases && s.unreleased k w sc none) = false := by
    rcases h with h | h <;> rw [h]
    · exact Bool.and_false _
    · exact Bool.false_and _
  rw [State.released, hcond, stopIf_false]

/-- An acquire drops copies at fabric scope alone (R416). -/
theorem acquire_if (s : State) (env : Env) (sc : Scope) (o : MemOrder) :
    (if MemOrder.acquires o then s.acquire env sc else s) =
      if MemOrder.acquires o = true ∧ sc = .fabric then s.dropCopies env.ctx fun _ => true else s := by
  by_cases ho : MemOrder.acquires o = true
  · by_cases hsc : sc = .fabric <;> simp [ho, hsc, State.acquire]
  · simp [ho]

theorem exit_ok {env : Env} {w : Warp} (hdet : env.det = false) (hparked : w.parked = 0) (htx : w.anyTx = false) :
    exit env w = .ok { w with live := w.live &&& ~~~w.active, active := 0, region := { w.region with tainted := true } } := by
  rw [exit, point_ok hparked, htx, stopIf_false, atMeeting_ok (logs_of_det hdet)]
  rfl

section
variable {s : State} {k : Nat} {env : Env} {w : Warp} (hdet : env.det = false)
include hdet

theorem bar_ok (hparked : w.drain.parked = 0) (hhandler : w.drain.handler = none) (htx : w.drain.anyTx = false) (hactive : w.drain.active = w.drain.live)
    (hrel : s.unreleased k w.drain .team none = false) :
    bar s k env w.drain = .ok (s.updateTeam w.drain.team fun tm => { tm with barArrived := insertSorted k tm.barArrived },
      { w.drain with status := .waiting .bar }, .stay) := by
  dsimp only [bar]
  rw [drain_drain, point_ok hparked, hhandler, htx, converged_ok hactive, atMeeting_ok (logs_of_det hdet), released_ok (.inl hrel)]
  rfl

theorem cbar_ok (hcluster : env.cluster ≠ 1) (hparked : w.drain.parked = 0) (hhandler : w.drain.handler = none) (htx : w.drain.anyTx = false)
    (hactive : w.drain.active = w.drain.live) (hrel : s.unreleased k w.drain .cluster none = false) :
    cbar s k env w.drain = .ok (s.updateTeam w.drain.team fun tm => { tm with cbarArrived := insertSorted k tm.cbarArrived },
      { w.drain with status := .waiting .cbar }, .stay) := by
  dsimp only [cbar]
  rw [drain_drain, point_ok hparked, beq_eq_false_iff_ne.mpr hcluster, hhandler, htx, converged_ok hactive, atMeeting_ok (logs_of_det hdet),
    released_ok (.inl hrel)]
  rfl

theorem fence_ok {sc : Scope} {o : MemOrder} (hrel : s.unreleased k w sc none = false ∨ MemOrder.releases o = false) :
    fence sc o s k env w = .ok (if MemOrder.acquires o = true ∧ sc = .fabric then s.dropCopies env.ctx fun _ => true else s, w) := by
  rw [fence, atMeeting_ok (logs_of_det hdet), released_ok hrel, acquire_if]

end

/-- Settles O25: nothing has to be waited for, and each form is its equation. -/
theorem systemAndBarriersComplete : Obligations.SystemAndBarriersComplete := by
  refine ⟨fun s k w env a i lv o p hrun => ⟨?_, ?_, fun hdet => ⟨?_, fun hi => ?_, fun hparked htx => ?_⟩, fun hplace => ?_, fun hplace htrans hfab => ?_⟩,
    fun s k w env sc o a b hrun hdet => ⟨fun hparked hhandler htx hactive => ⟨fun hrel => ?_, fun hcluster hrel => ?_⟩, fun hrel => ?_, fun hb => ?_,
      fun hb hrel => ?_⟩⟩
  · exact runs_issue hrun rfl
  · exact runs_issueMem hrun rfl
  · refine runs_issueMem hrun ?_
    rw [sleep, atMeeting_ok (logs_of_det hdet), hdet]
    rfl
  · refine runs_issueMem hrun ?_
    rw [sleep, atMeeting_ok (logs_of_det hdet), hdet, beq_eq_false_iff_ne.mpr hi.ne']
    rfl
  · exact runs_issue hrun (exit_ok hdet hparked htx)
  · refine runs_issueMem hrun ?_
    dsimp only [pref]
    split
    · next hglobal => exact absurd hglobal hplace
    · rfl
  · refine runs_issueMem hrun ?_
    dsimp only [pref]
    rw [hplace, htrans]
    dsimp only
    rw [hfab]
    cases lv <;> rfl
  · exact runs_issueParked hrun (bar_ok hdet hparked hhandler htx hactive hrel)
  · exact runs_issueParked hrun (cbar_ok hdet hcluster hparked hhandler htx hactive hrel)
  · exact runs_issueMem hrun (fence_ok hdet hrel)
  · refine runs_issueMem hrun ?_
    rw [rfence, hb]
    rfl
  · refine runs_issueMem hrun ?_
    have hcond : (MemOrder.releases o && s.unreleased k w sc (some ((w.scal a).toNat, min ((w.scal a).toNat + (w.scal b).toNat) (2 ^ 64 - 1)))) = false := by
      rcases hrel with h | h <;> rw [h]
      · exact Bool.and_false _
      · exact Bool.false_and _
    dsimp only [rfence]
    rw [beq_eq_false_iff_ne.mpr hb, atMeeting_ok (logs_of_det hdet), hcond, stopIf_false]
    by_cases ho : MemOrder.acquires o = true <;> by_cases hsc : sc = .fabric <;> simp [ho, hsc]

/-! ### Traps -/

section
variable {s : State} {k : Nat} {w : Warp} {env : Env} {e : Stop} (h : s.Runs k w env)
include h

theorem issue_stops {f : Env → Warp → Except Stop Warp} (hf : f env w = .error e) : s.issue f = .next (s.halt k w 4 e) :=
  runs_stops h (f := fun s _ env w => (f env w).map fun w' => (s, w', .after 4)) (by rw [hf]; rfl)

theorem issueMem_stops {f : State → Nat → Env → Warp → Except Stop (State × Warp)} (hf : f s k env w = .error e) :
    s.issueMem f = .next (s.halt k w 4 e) :=
  runs_stops h (f := fun s k env w => (f s k env w).map fun r : State × Warp => (r.1, r.2, Next.after 4)) (by rw [hf]; rfl)

theorem issueControl_stops {n : Nat} {f : Env → Warp → Except Stop (Warp × Next)} (hf : f env w = .error e) :
    s.issueControl n f = .next (s.halt k w n e) :=
  runs_stops h (f := fun s _ env w => (f env w).map fun r : Warp × Next => (s, r.1, r.2)) (by rw [hf]; rfl)

theorem issueParked_stops {n : Nat} {f : State → Nat → Env → Warp → Effect} (hf : f s k env w.drain = .error e) :
    s.issueParked n f = .next (s.halt k w.drain n e) := by
  obtain ⟨hturn, hwarp, henv, hready⟩ := h
  rw [State.issueParked, hturn]
  dsimp only
  rw [hwarp]
  dsimp only
  rw [issueBy_stops ((env?_drain s w).trans henv) ((drain_status w).trans hready) hf]

end

section
variable {s : State} {k : Nat} {w : Warp} {env : Env} {entry : DWord} (hrun : s.Runs k w env) (hhandler : w.handler = none)
  (hentry : s.handlerOf w = some entry) (hlo : env.stklim ≤ (w.scal 31).toNat) (hhi : (w.scal 31).toNat ≤ env.top)
  (hleft : w.anyTx = false ∨ w.countIssue.doomActive.active &&& ~~~w.countIssue.doomActive.doomed ≠ 0)
include hleft

/-- A trap that some active lane is left for is taken (R299). -/
theorem raise_of_left (cause : Nat) (addr : DWord) : s.raise k w.countIssue 4 cause addr w.active =
    s.takeTrap k w.countIssue.doomActive cause addr
      (if w.anyTx then w.active &&& (w.countIssue.doomActive.active &&& ~~~w.countIssue.doomActive.doomed) else w.active) false := by
  have hdooms : w.countIssue.onlyDooms = false := by
    rcases hleft with htx | hrest
    · exact (congrArg (· && _ && _) htx : _)
    · rw [Warp.onlyDooms, beq_eq_false_iff_ne.mpr hrest, Bool.and_false, Bool.false_and]
  dsimp only [State.raise]
  rw [hdooms]
  rfl

include hrun hhandler hentry hlo hhi

theorem raise_enters {s1 : State} (hrec : State.writeRecords env w.countIssue.doomActive (lanesOf w.width w.live) s = .ok s1) (cause : Nat) (addr : DWord) :
    s.raise k w.countIssue 4 cause addr w.active =
      (s1.record (dieOf w.core) 1 env.ctx w.core cause env.launch w.pc.toNat).putWarp k (w.countIssue.doomActive.enter entry cause addr
        (if w.anyTx then w.active &&& (w.countIssue.doomActive.active &&& ~~~w.countIssue.doomActive.doomed) else w.active)) := by
  obtain ⟨-, -, henv, -⟩ := hrun
  rw [raise_of_left hleft]
  exact takeTrap_enters cause addr _ false henv hhandler hentry hlo hhi hrec

/-- A record whose translation faults leaves the instruction to be made anew (R162). -/
theorem raise_waits {x : XKind} {va : Nat} (hrec : State.writeRecords env w.countIssue.doomActive (lanesOf w.width w.live) s = .error (x, va))
    (hx : x ≠ .malformed) (cause : Nat) (addr : DWord) :
    s.raise k w.countIssue 4 cause addr w.active = s.putWarp k { w with status := .waiting (.translation env.ctx va .write false) } := by
  obtain ⟨-, hwarp, henv, -⟩ := hrun
  have hentryFault : s.entryFault k env w.countIssue.doomActive x va = s.putWarp k { w with status := .waiting (.translation env.ctx va .write false) } := by
    cases x with
    | malformed => exact absurd rfl hx
    | _ => simp only [State.entryFault, hwarp]
  have henv1 : s.env? w.countIssue.doomActive = some env := henv
  have hhandler1 : w.countIssue.doomActive.handler = none := hhandler
  have hentry1 : s.handlerOf w.countIssue.doomActive = some entry := hentry
  rw [raise_of_left hleft, State.takeTrap, henv1]
  dsimp only
  rw [hhandler1, hentry1]
  change (if (decide ((w.scal 31).toNat < env.stklim) || decide (env.top < (w.scal 31).toNat)) = true then _ else
    match State.writeRecords env w.countIssue.doomActive (lanesOf w.width w.live) s with
    | .error (x, va) => s.entryFault k env w.countIssue.doomActive x va
    | .ok s1 => _) = _
  rw [if_neg (by simp [hlo, hhi]), hrec]
  exact hentryFault

end

/-- Settles O26: each of the three raises its cause, which is taken once the records are written. -/
theorem trapsTaken : Obligations.TrapsTaken := by
  intro s k w env i entry hrun hhandler hentry hlo hhi w1 rest hleft
  have hstops {j : Instr} {e : Stop} {f : Env → Warp → Except Stop Warp} (hj : exec j s = s.issue f) (hf : f env w = .error e) :
      exec j s = .next (s.halt k w 4 e) := hj.trans (issue_stops hrun hf)
  have htrap := hstops (j := .trap i) (e := .trap 0x0B (BitVec.ofNat 64 i) w.active) rfl rfl
  have hbkpt := hstops (j := .bkpt i) (e := .trap 0x0C (BitVec.ofNat 64 i) w.active) rfl rfl
  have hreserved := hstops (j := .reservedEncoding) (e := .trap 0x01 0 w.active) rfl rfl
  refine ⟨fun s1 hrec => ⟨?_, ?_, ?_⟩, fun x va hrec hx j hj => ?_⟩
  · exact htrap.trans (congrArg _ (raise_enters hrun hhandler hentry hlo hhi hleft hrec ..))
  · exact hbkpt.trans (congrArg _ (raise_enters hrun hhandler hentry hlo hhi hleft hrec ..))
  · exact hreserved.trans (congrArg _ (raise_enters hrun hhandler hentry hlo hhi hleft hrec ..))
  · have hwaits := raise_waits hrun hhandler hentry hlo hhi hleft hrec hx
    rcases hj with rfl | rfl | rfl
    · exact htrap.trans (congrArg _ (hwaits ..))
    · exact hbkpt.trans (congrArg _ (hwaits ..))
    · exact hreserved.trans (congrArg _ (hwaits ..))

/-- Settles O27: the word decodes, and `ERET` checks the handler and the depth of the stack before it gives back what was saved. -/
theorem trapReturn : Obligations.TrapReturn := by
  refine ⟨rfl, fun s k w env hrun => ⟨fun hnone => ?_, fun h hsome => ⟨fun hdepth => ?_, fun hdepth => ?_⟩⟩⟩
  · exact issueControl_stops hrun (by rw [eret, hnone]; rfl)
  · refine issueControl_stops hrun ?_
    rw [eret, hsome]
    dsimp only
    rw [bne_iff_ne.mpr hdepth, stopIf_true]
    rfl
  · refine runs_issueControl hrun ?_
    rw [eret, hsome]
    dsimp only
    rw [hdepth, bne_self_eq_false]
    rfl

/-! ### The entry into a handler -/

/-- The bench with the pages that back the lanes' own segments in its core's TLB. -/
def recordsMapped : State :=
  { State.reset.bench with cores := [(0, { Core.empty with tlb := [⟨0, 2, 2, 0x2002F, 2⟩] })] }

/-- How many fills from the MSC are outstanding after the lane record of lane 0 of the bench's warp. -/
def recordFills : Option Nat :=
  match tabFind recordsMapped.warps 0 with
  | none => none
  | some w => match recordsMapped.env? w with
    | none => none
    | some env => match State.writeRecords env w [0] recordsMapped, recordsMapped.privPhys env .write (privWords env 0 0 32) with
      | .ok t, .ok _ => some t.mscFills.length
      | _, _ => none

theorem recordFills_ne_zero : (recordFills.any fun n => n != 0) = true := by decide


/-- Refutes O28: the write of a lane record goes through the L2, and on the bench it leaves a fill from the MSC outstanding. -/
theorem not_trapEntry : ¬ Obligations.TrapEntry := by
  rintro ⟨-, h⟩
  have hfills := recordFills_ne_zero
  unfold recordFills at hfills
  split at hfills
  · cases hfills
  · rename_i w hw
    split at hfills
    · cases hfills
    · rename_i env henv
      split at hfills
      · rename_i t ps ht hps
        have hinv : recordsMapped.Inv := rfl
        obtain ⟨hframe, -⟩ := h recordsMapped t recordsMapped w env [] 0 0 ps hinv rfl ht hps
        rw [hframe] at hfills
        exact nomatch (show true = false from hfills.symm)
      · cases hfills

end Sys2Proof.Machine
end

section
/-! SUPPORT. The checks that fail, and with them the statement on them (R20, R27, R32, R35, R99, R102, R118, R155, R156, R161, R171, R294). -/

namespace Sys2Proof.Machine

theorem stopIf_of {α : Type} {c : Bool} (h : c = true) (e : Stop) (k : Except Stop α) : stopIf c e k = .error e := by rw [h, stopIf_true]

theorem typeCheck_fails {α : Type} {w : Warp} {ok : ElemType → Bool} {ops : List Nat} (h : ok w.typ = false ∨ w.typ.is64 = true ∧ ∃ n ∈ ops, n % 2 = 1)
    (k : Except Stop α) : w.typeCheck ok ops k = .error (w.trap 0x01) := by
  refine stopIf_of ?_ _ _
  rcases h with hok | ⟨h64, n, hn, hodd⟩
  · rw [hok, Bool.not_false, Bool.true_or]
  · rw [h64, Bool.true_and, Bool.or_eq_true, List.any_eq_true]
    exact .inr ⟨n, hn, beq_iff_eq.mpr hodd⟩

theorem rangeCheck_fails {α : Type} {w : Warp} {env : Env} {names : List Nat} (h : ¬ w.NamesOk env names) (k : Except Stop α) :
    w.rangeCheck env names k = .error (w.trap 0x05) := by
  refine stopIf_of ?_ _ _
  obtain ⟨n, hn⟩ := not_forall.mp h
  obtain ⟨hmem, hbad⟩ := Classical.not_imp.mp hn
  exact List.any_eq_true.mpr ⟨n, hmem, by rw [Bool.not_eq_true _ |>.mp hbad, Bool.not_false]⟩

theorem point_fails {α : Type} {w : Warp} (h : w.parked ≠ 0) (k : Except Stop α) : w.point k = .error .parked := stopIf_of (bne_iff_ne.mpr h) _ _

theorem converged_fails {α : Type} {w : Warp} (h : w.active ≠ w.live) (k : Except Stop α) : w.converged k = .error (w.trap 0x02) :=
  stopIf_of (bne_iff_ne.mpr h) _ _

theorem notMelded_fails {α : Type} {w : Warp} (h : w.meld.isSome = true) (k : Except Stop α) : w.notMelded k = .error (w.trap 0x03) := stopIf_of h _ _

theorem alignedTarget_fails {α : Type} {w : Warp} {t : DWord} (h : t.toNat % 4 ≠ 0) (k : Except Stop α) :
    w.alignedTarget t k = .error (.trap 0x07 t w.active) := stopIf_of (bne_iff_ne.mpr h) _ _

theorem room_fails {α : Type} {w : Warp} {env : Env} {n : Nat} (h : stackDepth < w.stack.length + n) (k : Except Stop α) :
    w.room env n k = .error (.trap 0x06 env.spill w.active) := stopIf_of (decide_eq_true h) _ _

theorem setMode_reserved {w : Warp} {m : BitVec 16} (h : modeOk m = false) : setMode w m = .error (w.trap 0x01) :=
  stopIf_of (by rw [h, Bool.not_false]) _ _

/-- The predicate that a stretch's table has written cannot become the guard (R20). -/
theorem setMode_named {w : Warp} {m : BitVec 16} {st : Stretch} (hm : modeOk m = true) (hmeld : w.meld = some st) (hwrote : st.wrote = true)
    (hpred : bits m.toNat 3 0 = st.pred) : setMode w m = .error (w.trap 0x03) := by
  rw [setMode, hm, hmeld]
  exact stopIf_of (c := st.wrote && bits m.toNat 3 0 == st.pred) (by rw [hwrote, hpred, Bool.true_and, beq_self_eq_true]) _ _

theorem mark_active (w : Warp) (reuse : Bool) (n : Nat) : (w.mark reuse n).active = w.active := by cases reuse <;> rfl

theorem mark_anyTx (w : Warp) (reuse : Bool) (n : Nat) : (w.mark reuse n).anyTx = w.anyTx := by cases reuse <;> rfl

theorem mark_trap (w : Warp) (reuse : Bool) (n cause : Nat) : (w.mark reuse n).trap cause = w.trap cause := by
  rw [Warp.trap, mark_active]
  rfl

theorem mark_typeOk {w : Warp} {ok : ElemType → Bool} {ops : List Nat} (h : w.TypeOk ok ops) (reuse : Bool) (n : Nat) :
    (w.mark reuse n).TypeOk ok ops := by
  unfold Warp.TypeOk
  rwa [mark_typ]

/-- An open transaction refuses vector atomics once their type is accepted (R294). -/
theorem vectorAtomic_in_tx {op : AtomicOp} {d o : Nat} {i : Instr} {s : State} {env : Env} {w : Warp} {f : LaneAccess}
    (htx : w.anyTx = true) (htype : w.TypeOk ElemType.inK [d]) : vectorAtomic op d o i s env w f = .error (w.trap 0x03) :=
  (typeCheck_ok htype _).trans (stopIf_of htx _ _)

theorem gst_in_tx {d b o k : Nat} {c : CacheClass} {reuse : Bool} {s : State} {env : Env} {w : Warp} (htx : w.anyTx = true) (htype : w.TypeOk anyType [d]) :
    gst d b o c reuse s k env w = .error (w.trap 0x03) := by
  refine (typeCheck_ok (mark_typeOk htype reuse o) _).trans ?_
  rw [mark_trap, mark_anyTx, htx, Bool.or_true, stopIf_true]

/-- Several groups of lanes that the divergence stack has no room for (R27). -/
theorem switch_full {env : Env} {w : Warp} {a : Nat} {kt : KeyType} {cases : List (Nat × Int)} {dflt join : Int}
    (hm : w.meld = none) (hnames : w.NamesOk env [a])
    (h2 : 2 ≤ ((switchGroups (fun l => w.reg l a) kt dflt cases (lanesOf w.width w.counted)).filter fun g => !g.2.isEmpty).length)
    (hroom : stackDepth < w.stack.length +
      ((switchGroups (fun l => w.reg l a) kt dflt cases (lanesOf w.width w.counted)).filter fun g => !g.2.isEmpty).length + 1) :
    switch a kt cases dflt join env w = .error (.trap 0x06 env.spill w.active) := by
  rw [switch, notMelded_ok hm, rangeCheck_ok hnames]
  generalize (switchGroups (fun l => w.reg l a) kt dflt cases (lanesOf w.width w.counted)).filter (fun g => !g.2.isEmpty) = gs at h2 hroom
  match gs with
  | [] | [g] => simp at h2
  | g :: h :: r => exact room_fails hroom _

theorem callAll_full {env : Env} {w : Warp} {x : Nat} {ts : List Nat} (h2 : 2 ≤ ts.length) (hroom : stackDepth < w.stack.length + ts.length + 1) :
    w.callAll env x ts = .error (.trap 0x06 env.spill w.active) := by
  match ts with
  | [] | [t] => simp at h2
  | t :: u :: r => exact room_fails hroom _

section
variable {s : State} {k : Nat} {w : Warp} {env : Env} (hrun : s.Runs k w env)
include hrun

/-- The instructions of Table 14.1 look at the open transactions before anything else. -/
theorem exec_refusedInTx (htx : w.anyTx = true) {i : Instr} (hi : refusedInTx i = true) : exec i s = .next (s.halt k w 4 (w.trap 0x03)) := by
  cases i
  case sst | satom | qappendTry | launch | spawn | coll | barv | tcopy | accld | accst | accstR | actld =>
    exact issueMem_stops hrun (stopIf_of htx _ _)
  case qappend | qpop | tcopyY => exact runs_stops hrun (stopIf_of htx _ _)
  case spawno => exact issueMem_stops hrun (stopIf_of (by rw [htx, Bool.true_or]) _ _)
  all_goals cases hi

/-- The instructions that a stretch refuses look at it before anything else (R35). -/
theorem exec_refusedInStretch (hm : w.meld.isSome = true) {i : Instr} {n : Nat} (hi : refusedInStretch i = some n) :
    exec i s = .next (s.halt k w n (w.trap 0x03)) := by
  cases i
  case call | calli | ret | callv | split | switch =>
    cases hi
    exact issueControl_stops hrun (notMelded_fails hm _)
  case meldLdt =>
    cases hi
    exact issueMem_stops hrun (notMelded_fails hm _)
  all_goals cases hi

end

/-- Settles O29: each instruction meets the check that fails before it does anything else. -/
theorem checksTrap : Obligations.ChecksTrap := by
  refine ⟨fun s k w env d a p b i hrun => ⟨fun hin => ?_, fun hin h64 hodd => ?_, fun htype hnames => ?_, fun hparked hactive => ?_, fun hread => ?_,
      fun hparked htx => ?_, fun hparked hi => ?_, fun htx hi => exec_refusedInTx hrun htx hi, fun n hm hi => exec_refusedInStretch hrun hm hi⟩,
    fun s k w env a b d o op c reuse m kind retries noback value scalars vbase vcount preds acclive hrun => ⟨fun hm => ?_, fun hm hnamed => ?_,
      fun hm => ?_, fun hm hnamed => ?_, fun htx htype => ⟨?_, ?_⟩, fun htx htype => ?_, fun hparked hrefused => ⟨?_, ?_⟩, fun hparked hm => ?_,
      fun hrefused => ?_⟩,
    fun s k w env p y x a sense els join dflt o kt cases hrun => ⟨fun hm hy => ?_, fun hy => ?_, fun hm hy => ?_, fun hn => ?_,
      fun hm ht he hroom => ?_, fun hm hnames h2 hroom => ?_, fun hm hnames hts h2 hroom => ?_⟩⟩
  · exact issue_stops hrun (typeCheck_fails (.inl hin) _)
  · refine issue_stops hrun (typeCheck_fails (.inr ⟨h64, ?_⟩) _)
    rcases hodd with hd | ha
    · exact ⟨d, .head _, hd⟩
    · exact ⟨a, .tail _ (.head _), ha⟩
  · exact issue_stops hrun ((typeCheck_ok htype _).trans (rangeCheck_fails hnames _))
  · exact issue_stops hrun ((point_ok hparked _).trans (converged_fails hactive _))
  · exact issue_stops hrun (by rw [hread]; rfl)
  · exact issue_stops hrun ((point_ok hparked _).trans (stopIf_of htx _ _))
  · rcases hi with rfl | rfl
    · exact issue_stops hrun (e := .parked) (point_fails hparked _)
    · exact issue_stops hrun (e := .parked) (point_fails hparked _)
  · exact issue_stops hrun (setMode_reserved hm)
  · obtain ⟨st, hmeld, hwrote, hpred⟩ := hnamed
    exact issue_stops hrun (setMode_named hm hmeld hwrote hpred)
  · exact issue_stops hrun (setMode_reserved hm)
  · obtain ⟨st, hmeld, hwrote, hpred⟩ := hnamed
    exact issue_stops hrun (setMode_named hm hmeld hwrote hpred)
  · refine issueMem_stops hrun ((vectorAtomic_in_tx ((mark_anyTx ..).trans htx) (mark_typeOk htype reuse o)).trans ?_)
    rw [mark_trap]
    rfl
  · refine issueMem_stops hrun ((vectorAtomic_in_tx ((mark_anyTx ..).trans htx) (mark_typeOk htype reuse o)).trans ?_)
    rw [mark_trap]
    rfl
  · exact issueMem_stops hrun (gst_in_tx htx htype)
  · refine issueParked_stops hrun ((point_ok hparked _).trans (stopIf_of ?_ _ _))
    rwa [drain_drain, Bool.or_eq_true]
  · refine issueParked_stops hrun ((point_ok hparked _).trans (stopIf_of ?_ _ _))
    rw [drain_drain, Bool.or_eq_true, Bool.or_eq_true, or_assoc]
    exact .inr hrefused
  · exact issueParked_stops hrun (congrArg _ ((point_ok hparked _).trans (notMelded_fails hm _)))
  · refine issueParked_stops hrun ?_
    by_cases hm : w.drain.meld.isSome = true
    · exact notMelded_fails hm _
    · exact (notMelded_ok (Option.not_isSome_iff_eq_none.mp hm) _).trans (stopIf_of (hrefused.resolve_left hm) _ _)
  · exact issueControl_stops hrun ((notMelded_ok hm _).trans (alignedTarget_fails hy _))
  · exact issueControl_stops hrun (alignedTarget_fails hy _)
  · exact issueControl_stops hrun ((notMelded_ok hm _).trans (alignedTarget_fails hy _))
  · refine issue_stops hrun (stopIf_of ?_ _ _)
    rwa [Bool.or_eq_true, decide_eq_true_eq, decide_eq_true_eq]
  · refine issueControl_stops hrun ?_
    rw [split_eq hm]
    exact (if_neg he).trans ((if_neg ht).trans (room_fails hroom _))
  · exact issueControl_stops hrun (switch_full hm hnames h2 hroom)
  · exact issueControl_stops hrun ((callv_ok hm hnames hts).trans (callAll_full h2 hroom))

end Sys2Proof.Machine
end

section
/-! SUPPORT. Scalar accesses to memory, and with them the statement on them (R95 to R98, R151, R152, R345, R415). -/

namespace Sys2Proof.Machine

/-- No instruction runs at a meeting: what a warp sees of its launch is between meetings (R388). -/
theorem env?_meeting {s : State} {w : Warp} {env : Env} (h : s.env? w = some env) : env.meeting = false := by
  rw [State.env?] at h
  split at h
  · cases h
  · split at h
    · cases h
    · rw [← Option.some.inj h]

theorem logs_eq_det {env : Env} (hm : env.meeting = false) : env.logs = env.det := by rw [Env.logs, hm, Bool.not_false, Bool.and_true]

section
variable {s : State} {env : Env} {a : DWord} {n : Nat}

/-- A warp's access to global memory is translated for no lane: a page of another package is no fault (R192). -/
theorem resolveGlobal_start {kd : AccessKind} {p : Phys} {va : Nat} (h : s.translate env.core env.ctx va kd = .ok p) :
    resolveGlobal s env .start va kd = .ok (.global va p) := by
  simp [resolveGlobal, h, Lane.start]

theorem resolveScalar_of_global {kd : AccessKind} {p : Phys} (halign : a.toNat % n = 0) (hplace : placeOf env a.toNat n = .global)
    (htrans : s.translate env.core env.ctx a.toNat kd = .ok p) (l : Nat) : resolveScalar s env l a n kd = .ok (.global a.toNat p) := by
  simp [resolveScalar, resolve, halign, hplace, resolveGlobal_start htrans]

theorem resolveHome_of_global {kd : AccessKind} {p : Phys} (halign : a.toNat % n = 0) (hplace : placeOf env a.toNat n = .global)
    (htrans : s.translate env.core env.ctx a.toNat kd = .ok p) : resolveHome s env a n kd = .ok (.global a.toNat p) := by
  simp [resolveHome, resolveOutside, halign, hplace, resolveGlobal_start htrans]

/-- A scalar store to the window is made in each lane in turn, at the pieces that its address leads to there (R97). -/
theorem storePriv_of_each {bs : List Byte} {q : Nat → List (Nat × Nat)} (ls : List Nat)
    (h : ∀ before l after, ls = before ++ l :: after →
      (before.foldl (fun u l => u.putPieces (q l) bs) s).InWindow env .start l a bs.length .write (q l)) :
    storePriv env a bs ls s = .ok (ls.foldl (fun u l => u.putPieces (q l) bs) s) := by
  induction ls generalizing s with
  | nil => rfl
  | cons l r ih =>
    have hhead : s.InWindow env .start l a bs.length .write (q l) := h [] l r rfl
    rw [storePriv, resolveScalar_of_inWindow hhead]
    exact ih fun before l' after hr => h (l :: before) l' after (congrArg (l :: ·) hr)

/-- No answer is kept for a warp that no answer is to. -/
theorem answerTo_eq_none {k tag pkg : Nat} {op : RemoteOp} (h : ∀ x ∈ s.answers, x.who ≠ .warp k) : s.answerTo (.warp k) tag pkg op = none := by
  rw [State.answerTo, List.find?_eq_none.mpr]
  · rfl
  · intro x hx
    rw [beq_eq_false_iff_ne.mpr (h x hx), Bool.false_and]
    exact Bool.false_ne_true

/-- A local atomic whose line is free is performed at once (R98, R273). -/
theorem homeAtomic_local {core k tag va id : Nat} {i : Instr} {p : Phys} {remote : RemoteOp} {f : Nat → Option Nat} (hfab : p.fab = false)
    (hanswers : ∀ x ∈ s.answers, x.who ≠ .warp k) (hwaits : s.homeWaits false core k p n = false) (hpoison : isPoisoned s.poison p.pa n = false) :
    s.homeAtomic false core k tag i va p n id remote f = .ok (match f (natOfBytes (s.bytesAt p.pa n)) with
      | some v => (s.homeStore p.pa (leBytes n v) .normal).noteWrite id va
      | none => (s.callIn (p.pa / 128) (lineMask p.pa n) true).l2Access (p.pa / 128) .normal false false, natOfBytes (s.bytesAt p.pa n)) := by
  rw [State.homeAtomic, answerTo_eq_none hanswers]
  dsimp only
  rw [hwaits, hfab, State.physPoison, hfab, if_neg Bool.false_ne_true, hpoison]
  rfl

section
variable {core k tag va id : Nat} {i : Instr} {p : Phys} {remote : RemoteOp} {f : Nat → Option Nat}

/-- An atomic of another package's memory without an answer is asked for (R415). -/
theorem homeAtomic_asks (hfab : p.fab = true) (hlost : s.lostPeer p.pkg = false) (hanswer : s.answerTo (.warp k) tag p.pkg remote = none) :
    s.homeAtomic false core k tag i va p n id remote f = .error (.remote tag p.pkg remote va) := by
  rw [State.homeAtomic, hanswer]
  simp [stopIf, State.homeWaits, hfab, hlost, State.physPoison]

theorem homeAtomic_answered {bs : List Byte} (hanswer : s.answerTo (.warp k) tag p.pkg remote = some (bs, false)) :
    s.homeAtomic false core k tag i va p n id remote f = .ok (s.noteWrite id va, natOfBytes bs) := by
  rw [State.homeAtomic, hanswer]
  rfl

/-- A load of another package's memory without an answer is asked for, and its answer completes it (R415). -/
theorem loadScalar_remote {w : Warp} (halign : a.toNat % n = 0) (hplace : placeOf env a.toNat n = .global)
    (htrans : s.translate env.core env.ctx a.toNat .read = .ok p) (hfab : p.fab = true) (hro : p.readOnly = false) (hlost : s.lostPeer p.pkg = false) :
    loadScalar s k env w i a n = match s.answerTo (.warp k) 64 p.pkg (.load p.pa n) with
      | some (bs, bad) => stopIf bad (.abort 0x11 (BitVec.ofNat 64 a.toNat)) (.ok (s, w.overlay (physKey p) bs))
      | none => .error (.remote 64 p.pkg (.load p.pa n) a.toNat) := by
  rw [loadScalar, resolveScalar_of_global halign hplace htrans]
  simp only [hfab, Bool.not_true, Bool.false_and, stopIf_false, State.physPoison, hlost, State.coreLoad, State.remoteLoad, hro, if_true, Bool.false_eq_true, if_false]
  cases s.answerTo (.warp k) 64 p.pkg (.load p.pa n) with
  | none => rfl
  | some r =>
    obtain ⟨bs, bad⟩ := r
    cases bad <;> rfl

end

/-- A store to memory outside a deterministic launch goes through the core at once (R95, R96). -/
theorem storeGlobal_now {k va : Nat} {w : Warp} {i : Instr} {p : Phys} {bs : List Byte} (hmeeting : env.meeting = false) (hdet : env.det = false)
    (hfab : p.fab = false) (hwaits : s.storeWaits false env.core k p bs.length .normal false = false) :
    storeGlobal s k env w i va p bs = .ok ((s.coreStore false env.core k env.ctx va p bs .normal false).noteWrite (s.launchKey w) va, w) := by
  rw [storeGlobal, logs_of_det hdet, if_neg Bool.false_ne_true, hmeeting, hwaits, hfab]
  rfl

/-- In a deterministic launch it enters the log of the lowest live lane (R388). -/
theorem storeGlobal_logged {k va : Nat} {w : Warp} {i : Instr} {p : Phys} {bs : List Byte} {log : List WriteEntry} (hmeeting : env.meeting = false)
    (hdet : env.det = true) (hlog : logStore (w.lane w.lowestLive).storeLog env.wlog (physKey p / 32) (p.pa % 32) bs = some log) :
    storeGlobal s k env w i va p bs = .ok (s.noteWrite (s.launchKey w) va,
      ((w.setLane w.lowestLive { w.lane w.lowestLive with storeLog := log }).noteStores (physKey p) bs).noteVas p va bs.length) := by
  rw [storeGlobal, logs_eq_det hmeeting, hdet, if_pos rfl]
  dsimp only
  rw [hlog]

end

/-- A load is what its access gives, as a result to come (R95). -/
theorem sld_of_load {s s1 : State} {k : Nat} {env : Env} {w : Warp} {f : LoadSize} {d a : Nat} {i : Int} {bs : List Byte}
    (h : loadScalar s k env w (.sld f d a i) (w.scal a + BitVec.ofInt 64 i) (LoadSize.shape f).1 = .ok (s1, bs)) :
    sld f d a i s k env w = .ok (s1, w.defer [.scal d (extendLoad (LoadSize.shape f).2 (LoadSize.shape f).1 (natOfBytes bs))]) := by
  change (loadScalar s k env w (.sld f d a i) (w.scal a + BitVec.ofInt 64 i) (LoadSize.shape f).1).map _ = _
  rw [h]
  rfl

theorem sld_of_stop {s : State} {k : Nat} {env : Env} {w : Warp} {f : LoadSize} {d a : Nat} {i : Int} {e : Stop}
    (h : loadScalar s k env w (.sld f d a i) (w.scal a + BitVec.ofInt 64 i) (LoadSize.shape f).1 = .error e) :
    sld f d a i s k env w = .error e := by
  change (loadScalar s k env w (.sld f d a i) (w.scal a + BitVec.ofInt 64 i) (LoadSize.shape f).1).map _ = _
  rw [h]
  rfl

/-- A store outside transactions goes to every live lane's window, or to memory once (R95, R97). -/
theorem sst_eq {s : State} {k : Nat} {env : Env} {w : Warp} {g : StoreSize} {d a : Nat} {i : Int} {t : Target} (htx : w.anyTx = false) :
    resolveScalar s env w.lowestLive (w.scal a + BitVec.ofInt 64 i) (StoreSize.bytes g) .write = .ok t →
    sst g d a i s k env w = match t with
      | .priv _ => (storePriv env (w.scal a + BitVec.ofInt 64 i) (leBytes (StoreSize.bytes g) (w.scal d).toNat) (lanesOf w.width w.live) s).map fun s1 => (s1, w)
      | .global va p => storeGlobal s k env w (.sst g d a i) va p (leBytes (StoreSize.bytes g) (w.scal d).toNat)
      | _ => .error (.charged 0x09 (w.scal a + BitVec.ofInt 64 i)) := by
  intro ht
  dsimp only [sst, sextAddr]
  rw [htx, stopIf_false, ht]
  cases t <;> rfl

/-- `SATOM` outside transactions and deterministic launches is the atomic at its home, once what it releases is performed (R98). -/
theorem satom_eq {s : State} {k : Nat} {env : Env} {w : Warp} {op : AtomicOp} {sc : Scope} {o : MemOrder} {d a b : Nat} {p : Phys}
    (htx : w.anyTx = false) (hdet : env.det = false) (hmeeting : env.meeting = false) (hrel : MemOrder.releases o = true → s.unreleased k w sc none = false)
    (hhome : resolveHome s env (w.scal a) 8 .readWrite = .ok (.global (w.scal a).toNat p)) :
    satom op sc o d a b s k env w =
      (s.homeAtomic false env.core k 64 (.satom op sc o d a b) (w.scal a).toNat p 8 (s.launchKey w)
        (.atomic op .i64 p.pa (w.scal b).toNat (w.scal (b + 1)).toNat) fun old => atomicInt op true 64 old (w.scal b).toNat (w.scal (b + 1)).toNat).map
      fun r => (if MemOrder.acquires o then r.1.acquire env sc else r.1, (w.defer [.scal d (BitVec.ofNat 64 r.2)]).taint) := by
  have hrelease : s.unreleased k w sc none = false ∨ MemOrder.releases o = false := by
    cases ho : MemOrder.releases o
    · exact .inr rfl
    · exact .inl (hrel ho)
  dsimp only [satom]
  rw [htx, stopIf_false, atMeeting_ok (logs_of_det hdet), hhome]
  dsimp only
  rw [released_ok hrelease, hmeeting]

/-- Settles O30: each access resolves to its place, and what is done there is its equation. -/
theorem scalarMemoryCompletes : Obligations.ScalarMemoryCompletes := by
  refine ⟨fun s k w env f g op sc o d a b i p q hrun => ⟨fun ps hwin hpoison => ?_, fun hreach hlock hpoison => ?_, fun htx hfirst heach => ?_,
      fun htx hreach => ⟨fun hdet hwaits => ?_, fun hdet log hlog => ?_⟩, fun htx hdet hreach hwaits hanswers hpoison hrel => ?_⟩,
    fun s k w env f d a i p bs hrun halign hplace htrans hfab hro hlost => ⟨fun hnone => ?_, fun hsome => ?_⟩,
    fun s k w env op sc o d a b p bs hrun htx hdet hrel halign hplace htrans hfab hlost => ⟨fun hnone => ?_, fun hsome => ?_⟩⟩
  · exact runs_issueMem hrun (sld_of_load (loadScalar_of_inWindow hwin hpoison))
  · exact runs_issueMem hrun (sld_of_load (loadScalar_of_reaches hreach hlock hpoison))
  · refine runs_issueMem hrun ((sst_eq htx (resolveScalar_of_inWindow hfirst)).trans ?_)
    dsimp only
    rw [storePriv_of_each (q := q) _ (by rwa [leBytes_length])]
    rfl
  · have hnow := storeGlobal_now (i := .sst g d a i) (w := w) (va := (w.scal a + BitVec.ofInt 64 i).toNat) (bs := leBytes (StoreSize.bytes g) (w.scal d).toNat)
      (env?_meeting hrun.2.2.1) hdet hreach.2.2.2 (by rwa [leBytes_length])
    exact runs_issueMem hrun ((sst_eq htx (resolveScalar_of_reaches hreach _)).trans hnow)
  · have hlogged := storeGlobal_logged (s := s) (k := k) (i := .sst g d a i) (va := (w.scal a + BitVec.ofInt 64 i).toNat) (env?_meeting hrun.2.2.1) hdet hlog
    rw [leBytes_length] at hlogged
    exact runs_issueMem hrun ((sst_eq htx (resolveScalar_of_reaches hreach _)).trans hlogged)
  · obtain ⟨halign, hplace, htrans, hfab⟩ := hreach
    refine runs_issueMem hrun ((satom_eq htx hdet (env?_meeting hrun.2.2.1) hrel (resolveHome_of_global halign hplace htrans)).trans ?_)
    rw [homeAtomic_local hfab hanswers hwaits hpoison]
    rfl
  · refine issueMem_stops hrun (e := .remote 64 p.pkg (.load p.pa (LoadSize.shape f).1) (w.scal a + BitVec.ofInt 64 i).toNat) (sld_of_stop ?_)
    rw [loadScalar_remote halign hplace htrans hfab hro hlost, hnone]
  · refine runs_issueMem hrun (sld_of_load ?_)
    rw [loadScalar_remote halign hplace htrans hfab hro hlost, hsome]
    rfl
  · refine issueMem_stops hrun (e := .remote 64 p.pkg (.atomic op .i64 p.pa (w.scal b).toNat (w.scal (b + 1)).toNat) (w.scal a).toNat)
      ((satom_eq htx hdet (env?_meeting hrun.2.2.1) hrel (resolveHome_of_global halign hplace htrans)).trans ?_)
    rw [homeAtomic_asks hfab hlost hnone]
    rfl
  · refine runs_issueMem hrun ((satom_eq htx hdet (env?_meeting hrun.2.2.1) hrel (resolveHome_of_global halign hplace htrans)).trans ?_)
    rw [homeAtomic_answered hsome]
    rfl

end Sys2Proof.Machine
end

section
/-! SUPPORT. What each lane of a vector access does at the place that its address resolves to, and with it the statements on vector loads, stores and
atomics (R23, R38, R152, R154, R196 to R201, R345, R388). -/

namespace Sys2Proof.Machine

/-! ### The places that an address can resolve to -/

theorem lanesFault_ok {env : Env} {x : Lane} {va : Nat} {kd : AccessKind} {f : XKind} {t : Target} (h : lanesFault env x va kd f = .ok t) : t = .doom 7 := by
  unfold lanesFault at h
  split at h
  · cases h
  · split at h <;> cases h
    rfl
  · split at h <;> cases h
    rfl

theorem resolvePriv_ok {s : State} {env : Env} {x : Lane} {l off n : Nat} {kd : AccessKind} {t : Target} (h : resolvePriv s env x l off n kd = .ok t) :
    (∃ ps, t = .priv ps) ∨ t = .doom 7 := by
  unfold resolvePriv at h
  split at h
  · cases h
    exact .inl ⟨_, rfl⟩
  · exact .inr (lanesFault_ok h)

theorem resolveGlobal_ok {s : State} {env : Env} {x : Lane} {va : Nat} {kd : AccessKind} {t : Target} (h : resolveGlobal s env x va kd = .ok t) :
    (∃ p, t = .global va p) ∨ t = .doom 7 := by
  unfold resolveGlobal at h
  split at h
  · split at h
    · split at h <;> cases h
      exact .inr rfl
    · cases h
      exact .inl ⟨_, rfl⟩
  · exact .inr (lanesFault_ok h)

/-- An address of global memory or of a lane's own window is no place of shared memory. -/
theorem resolve_ne_shared {s : State} {env : Env} {x : Lane} {l n off : Nat} {a : DWord} {kd : AccessKind} :
    resolve s env x l a n kd ≠ .ok (.shared off) := by
  intro h
  unfold resolve at h
  split at h
  · cases h
  · split at h
    · rcases resolvePriv_ok h with ⟨ps, hps⟩ | hdoom
      · cases hps
      · cases hdoom
    · cases h
    · rcases resolveGlobal_ok h with ⟨p, hp⟩ | hdoom
      · cases hp
      · cases hdoom

theorem resolveShared_cases (env : Env) (a : DWord) (n : Nat) :
    resolveShared env a n = .shared a.toNat ∨ ∃ cause, resolveShared env a n = .fault cause a := by
  unfold resolveShared
  split
  · exact .inr ⟨_, rfl⟩
  · split
    · exact .inl rfl
    · exact .inr ⟨_, rfl⟩

/-- A spill slot is a fault of alignment or range, or a place in the window (R154). -/
theorem spillTarget_ok {s : State} {env : Env} {x : Lane} {l : Nat} {a : DWord} {kd : AccessKind} {t : Target} (h : spillTarget s env x l a kd = .ok t) :
    (a.toNat % 4 ≠ 0 ∧ t = .fault 0x08 a) ∨ (a.toNat % 4 = 0 ∧ (a.toNat < env.base ∨ env.top < a.toNat + 4) ∧ t = .fault 0x09 a)
      ∨ (a.toNat % 4 = 0 ∧ ¬ (a.toNat < env.base ∨ env.top < a.toNat + 4) ∧ resolvePriv s env x l (a.toNat - env.base) 4 kd = .ok t) := by
  unfold spillTarget at h
  split at h
  · next hodd =>
    cases h
    exact .inl ⟨hodd, rfl⟩
  · next heven =>
    split at h
    · next hout =>
      cases h
      exact .inr (.inl ⟨not_not.mp heven, hout, rfl⟩)
    · next hin => exact .inr (.inr ⟨not_not.mp heven, hin, h⟩)

/-! ### What the accesses of the lanes before a lane leave of the warp -/

/-- A condition that each access keeps holds at every lane of the list, and what it gives there. -/
theorem EachLane.imp {ls : List Nat} {f : State × Warp → Nat → State × Warp} {u : State × Warp} {ok ok' : State × Warp → Nat → Prop}
    {P : State × Warp → Prop} (h : EachLane ls f u ok) (hu : P u) (hkeep : ∀ v l, P v → P (f v l)) (himp : ∀ v l, P v → ok v l → ok' v l) :
    EachLane ls f u ok' := fun before l after hls =>
  himp _ _ (foldl_keeps hkeep before _ hu) (h before l after hls)

/-- The same for a condition on the lanes of the list alone. -/
theorem EachLane.of_mem {ls : List Nat} {f : State × Warp → Nat → State × Warp} {u : State × Warp} {p : Nat → Prop} (h : ∀ l ∈ ls, p l) :
    EachLane ls f u fun _ l => p l := fun _ l _ hls => h l (hls ▸ List.mem_append_right _ (.head _))

/-- A warp that belongs to the team and the core of another. -/
def Warp.SitsWith (v w : Warp) : Prop := v.team = w.team ∧ v.core = w.core

theorem setLane_sitsWith {v w : Warp} {l : Nat} {x : Lane} (h : v.SitsWith w) : (v.setLane l x).SitsWith w := h

theorem faultLane_sitsWith {v w : Warp} {l cause : Nat} {addr : DWord} (h : v.SitsWith w) : (v.faultLane l cause addr).SitsWith w := by
  obtain ⟨ls, fp, m, hframe⟩ := applyLane_frame v l (.error (cause, addr))
  rw [Warp.faultLane, hframe]
  exact h

section
variable {w w' : Warp} {k d l : Nat} {env : Env} {c : CacheClass} {na : Bool} {ty : ElemType} {bs : List Byte} {op : AtomicOp} {u : State × Warp}
  (h : u.2.SitsWith w')
include h

theorem loadAt_sitsWith (t : Target) : (w.loadAt k env c na ty d l u t).2.SitsWith w' := by
  cases t with
  | fault => exact faultLane_sitsWith h
  | priv | shared | global | doom => exact h

theorem storeAt_sitsWith (t : Target) : (w.storeAt k env c na bs l u t).2.SitsWith w' := by
  cases t with
  | fault => exact faultLane_sitsWith h
  | priv | shared | global | doom => exact h

theorem atomicAt_sitsWith (t : Target) : (w.atomicAt op d l u t).2.SitsWith w' := by
  cases t with
  | fault => exact faultLane_sitsWith h
  | priv | shared | global | doom => exact h

end

theorem launchKey_congr (s : State) {v w : Warp} (h : v.team = w.team) : s.launchKey v = s.launchKey w := by rw [State.launchKey, State.launchKey, h]

/-! ### One lane at its place -/

section
variable {w : Warp} {k d b o i l : Nat} {env : Env} {c : CacheClass} {na reuse : Bool} {op : AtomicOp} {u : State × Warp} {t : Target}

theorem vldLane_at (ht : resolve u.1 env (u.2.lane l) l (w.address b o l) (memSize w.typ) .read = .ok t) (hu : u.1.Usable k u.2 l (memSize w.typ) t) :
    vldLane d b o c na reuse k env w l u.1 u.2 = .ok (w.loadAt k env c na w.typ d l u t) := by
  dsimp only [vldLane, laneAccess]
  rw [ht]
  cases t with
  | shared off => exact absurd ht resolve_ne_shared
  | fault | doom => rfl
  | priv ps =>
    have hgood : u.1.piecesBad ps = false := hu
    dsimp only [targetAccess, readPriv]
    rw [hgood]
    rfl
  | global va p =>
    obtain ⟨htx, hfab, hlock, hpoison⟩ := hu
    simp only [targetAccess, laneLoad, htx, hfab, hlock, State.physPoison, hpoison, State.coreLoad, Bool.not_false, Option.isSome_none, Bool.and_false,
      stopIf_false, Bool.false_eq_true, if_false]
    rfl

theorem vldsLane_at (ht : resolveShared env (w.address b o l) (memSize w.typ) = t) (hu : u.1.Usable k u.2 l (memSize w.typ) t) (hteam : u.2.team = w.team) :
    vldsLane d b o env w l u.1 u.2 = .ok (w.loadAt k env c na w.typ d l u t) := by
  dsimp only [vldsLane, sharedAccess]
  rcases resolveShared_cases env (w.address b o l) (memSize w.typ) with h | ⟨cause, h⟩
  · rw [h] at ht ⊢
    subst ht
    have hgood : u.1.shmPoisoned w.team (w.address b o l).toNat (memSize w.typ) = false := hteam ▸ hu
    dsimp only
    rw [hgood]
    rfl
  · rw [h] at ht ⊢
    subst ht
    rfl

/-- A spill or a fill of a lane is done where its slot resolves to (R154). -/
theorem spillLane_at {kd : AccessKind} {a : DWord} {f : List (Nat × Nat) → LaneAccess} (ht : spillTarget u.1 env (u.2.lane l) l a kd = .ok t) :
    spillLane env a kd f l u.1 u.2 = targetAccess (.ok t) l u.1 u.2 (fun ps => f ps l u.1 u.2) fun _ _ => .ok u := by
  unfold spillLane
  rcases spillTarget_ok ht with ⟨hodd, rfl⟩ | ⟨heven, hout, rfl⟩ | ⟨heven, hin, hpriv⟩
  · exact if_pos (bne_iff_ne.mpr hodd)
  · refine (if_neg (by simp [heven])).trans (if_pos ?_)
    rwa [Bool.or_eq_true, decide_eq_true_eq, decide_eq_true_eq]
  · refine (if_neg (by simp [heven])).trans ((if_neg ?_).trans ?_)
    · rwa [Bool.or_eq_true, decide_eq_true_eq, decide_eq_true_eq]
    · rw [hpriv]
      rcases resolvePriv_ok hpriv with ⟨ps, rfl⟩ | rfl <;> rfl

theorem spillTarget_ne_global {x : Lane} {a : DWord} {kd : AccessKind} {s : State} {va : Nat} {p : Phys} : spillTarget s env x l a kd ≠ .ok (.global va p) := by
  intro h
  rcases spillTarget_ok h with ⟨-, ht⟩ | ⟨-, -, ht⟩ | ⟨-, -, hpriv⟩
  · cases ht
  · cases ht
  · rcases resolvePriv_ok hpriv with ⟨ps, ht⟩ | ht <;> cases ht

theorem spillTarget_ne_shared {x : Lane} {a : DWord} {kd : AccessKind} {s : State} {off : Nat} : spillTarget s env x l a kd ≠ .ok (.shared off) := by
  intro h
  rcases spillTarget_ok h with ⟨-, ht⟩ | ⟨-, -, ht⟩ | ⟨-, -, hpriv⟩
  · cases ht
  · cases ht
  · rcases resolvePriv_ok hpriv with ⟨ps, ht⟩ | ht <;> cases ht

theorem vfilLane_at (ht : spillTarget u.1 env (u.2.lane l) l (w.slot i) .read = .ok t) (hu : u.1.Usable k u.2 l 4 t) :
    vfilLane d i env w l u.1 u.2 = .ok (w.loadAt k env c na .i32 d l u t) := by
  rw [vfilLane, spillLane_at ht]
  cases t with
  | global va p => exact absurd ht spillTarget_ne_global
  | shared off => exact absurd ht spillTarget_ne_shared
  | fault | doom => rfl
  | priv ps =>
    have hgood : u.1.piecesBad ps = false := hu
    dsimp only [targetAccess, readPriv]
    rw [hgood]
    rfl

theorem vstLane_at (hdet : env.det = false) (ht : resolve u.1 env (u.2.lane l) l (w.address b o l) (memSize w.typ) .write = .ok t)
    (hu : u.1.Storable k env u.2 l (memSize w.typ) c na t) (hteam : u.2.team = w.team) :
    vstLane d b o c na reuse k env w l u.1 u.2 = .ok (w.storeAt k env c na (leBytes (memSize w.typ) (w.val w.typ l d)) l u t) := by
  dsimp only [vstLane, laneAccess]
  rw [ht]
  cases t with
  | shared off => exact absurd ht resolve_ne_shared
  | priv | fault | doom => rfl
  | global va p =>
    obtain ⟨htx, hfab, hwaits⟩ := hu
    simp only [targetAccess, laneStore, htx, hfab, logs_of_det hdet, leBytes_length, hwaits, stopIf_false, Bool.false_and, Bool.false_eq_true, if_false]
    rw [launchKey_congr u.1 hteam]
    rfl

theorem vstsLane_at (hdet : env.det = false) (ht : resolveShared env (w.address b o l) (memSize w.typ) = t) (hteam : u.2.team = w.team) :
    vstsLane d b o reuse env w l u.1 u.2 = .ok (w.storeAt k env c na (leBytes (memSize w.typ) (w.val w.typ l d)) l u t) := by
  dsimp only [vstsLane, sharedAccess]
  rcases resolveShared_cases env (w.address b o l) (memSize w.typ) with h | ⟨cause, h⟩
  · rw [h] at ht ⊢
    subst ht
    dsimp only [sharedStore]
    rw [logs_of_det hdet, if_neg Bool.false_ne_true, hteam]
    rfl
  · rw [h] at ht ⊢
    subst ht
    rfl

theorem vsplLane_at (ht : spillTarget u.1 env (u.2.lane l) l (w.slot i) .write = .ok t) :
    vsplLane d i env w l u.1 u.2 = .ok (w.storeAt k env c na (leBytes 4 (w.reg l d).toNat) l u t) := by
  rw [vsplLane, spillLane_at ht]
  cases t with
  | global va p => exact absurd ht spillTarget_ne_global
  | shared off => exact absurd ht spillTarget_ne_shared
  | priv | fault | doom => rfl

theorem vatomLane_at (hmeeting : env.meeting = false) (ht : resolve u.1 env (u.2.lane l) l (w.address b o l) (memSize w.typ) .readWrite = .ok t)
    (hu : u.1.Atomable k u.2 l (memSize w.typ) t) (hsits : u.2.SitsWith w) :
    vatomLane d b o op reuse k env w l u.1 u.2 = .ok (w.atomicAt op d l u t) := by
  obtain ⟨husable, hfree⟩ := hu
  obtain ⟨hteam, hcore⟩ := hsits
  dsimp only [vatomLane, laneAccess]
  rw [ht]
  cases t with
  | shared off => exact absurd ht resolve_ne_shared
  | fault | doom => rfl
  | priv ps =>
    have hgood : u.1.piecesBad ps = false := husable
    dsimp only [targetAccess, readPriv]
    rw [hgood]
    dsimp only [Warp.atomicAt, stopIf]
    cases w.atomicNew op d l (natOfBytes (u.1.piecesAt ps)) <;> rfl
  | global va p =>
    obtain ⟨-, hfab, -, hpoison⟩ := husable
    obtain ⟨hwaits, hanswers⟩ := hfree va p rfl
    rw [hcore] at hwaits
    dsimp only [targetAccess, laneAtomic]
    rw [hmeeting, homeAtomic_local hfab hanswers hwaits hpoison]
    dsimp only [Warp.atomicAt, Except.map]
    cases w.atomicNew op d l (natOfBytes (u.1.bytesAt p.pa (memSize w.typ))) <;> rfl

theorem vatomsLane_at (ht : resolveShared env (w.address b o l) (memSize w.typ) = t) (hu : u.1.Usable k u.2 l (memSize w.typ) t)
    (hteam : u.2.team = w.team) : vatomsLane d b o op env w l u.1 u.2 = .ok (w.atomicAt op d l u t) := by
  dsimp only [vatomsLane, sharedAccess]
  rcases resolveShared_cases env (w.address b o l) (memSize w.typ) with h | ⟨cause, h⟩
  · rw [h] at ht ⊢
    subst ht
    have hgood : u.1.shmPoisoned w.team (w.address b o l).toNat (memSize w.typ) = false := hteam ▸ hu
    dsimp only
    rw [hgood]
    dsimp only [Warp.atomicAt, stopIf]
    cases w.atomicNew op d l (natOfBytes (u.1.shmBytes w.team (w.address b o l).toNat (memSize w.typ))) <;> rfl
  · rw [h] at ht ⊢
    subst ht
    rfl

end

/-! ### The statements -/

theorem memChecks_ok {α : Type} {env : Env} {w : Warp} {ok : ElemType → Bool} {d o : Nat} (htype : w.TypeOk ok [d])
    (hnames : w.NamesOk env (o :: w.typ.span d)) (k : Except Stop α) : memChecks env w ok d o k = k := typeCheck_rangeCheck_ok htype hnames k

/-- Settles O31: each lane's access is made where its address resolves to, after those of the lanes before it. -/
theorem vectorLoadsComplete : Obligations.VectorLoadsComplete := by
  intro s k w0 env d b o i c na reuse t hrun w n ls put r done
  have hsits (v : State × Warp) (l : Nat) (h : v.2.SitsWith w) : (put v l).2.SitsWith w := loadAt_sitsWith h (t l)
  refine ⟨fun htype hnames => ⟨fun heach => ?_, fun heach => ?_⟩, fun hnames heach => ?_⟩
  · have hlanes := memLanes_fold (f := vldLane d b o c na reuse k env w) ls (s, w)
      (heach.imp (P := fun _ => True) trivial (fun _ _ _ => trivial) fun _ _ _ h => vldLane_at h.1 h.2)
    exact runs_issueMem hrun ((memChecks_ok htype hnames _).trans (congrArg (Except.map _) hlanes))
  · have hlanes := memLanes_fold (f := vldsLane d b o env w) ls (s, w)
      (heach.imp (P := fun v => v.2.SitsWith w) ⟨rfl, rfl⟩ hsits fun _ _ hv h => vldsLane_at h.1 h.2 hv.1)
    exact runs_issueMem hrun ((memChecks_ok htype hnames _).trans (congrArg (Except.map _) hlanes))
  · have hlanes := memLanes_fold (f := vfilLane d i env w0) (lanesOf w0.width w0.executing) (s, w0)
      (heach.imp (P := fun _ => True) trivial (fun _ _ _ => trivial) fun _ _ _ h => vfilLane_at h.1 h.2)
    exact runs_issueMem hrun ((rangeCheck_ok hnames _).trans (congrArg (Except.map _) hlanes))

/-- The bytes noted by the first `n` of some stores to consecutive keys (R345). -/
theorem tabFind_noteStores (m : Tab Byte) (key : Nat) (bs : List Byte) (n : Nat) {i : Nat} (hi : i < n) :
    tabFind ((upto n).foldl (fun m i => tabSet m (key + i) (nth bs i 0)) m) (key + i) = some (nth bs i 0) := by
  induction n with
  | zero => exact absurd hi (Nat.not_lt_zero i)
  | succ n ih =>
    rw [upto, List.range_succ, List.foldl_append, List.foldl_cons, List.foldl_nil]
    rcases Nat.lt_succ_iff_lt_or_eq.mp hi with hlt | rfl
    · rw [tabFind_tabSet_ne _ _ (by omega)]
      exact ih hlt
    · exact tabFind_tabSet_self ..

theorem nth_eq_getElem {α : Type} {xs : List α} (d : α) : ∀ {i : Nat} (h : i < xs.length), nth xs i d = xs[i] := by
  induction xs with
  | nil => exact fun h => absurd h (Nat.not_lt_zero _)
  | cons x r ih =>
    intro i h
    cases i with
    | zero => rfl
    | succ i => exact ih (Nat.lt_of_succ_lt_succ h)

/-- A warp reads back what it has just stored (R345). -/
theorem overlay_noteStores (v : Warp) (key : Nat) (bs : List Byte) : (v.noteStores key bs).overlay key bs = bs := by
  refine List.ext_getElem (by simp [Warp.overlay, upto]) fun i hi hlt => ?_
  have hfound := tabFind_noteStores v.detWrites key bs bs.length hlt
  simp only [Warp.overlay, Warp.noteStores, upto, List.getElem_map, List.getElem_range] at hfound ⊢
  rw [hfound, Option.getD_some, nth_eq_getElem 0 hlt]

section
variable {s : State} {k l va off : Nat} {w : Warp} {env : Env} {i : Instr} {p : Phys} {bs : List Byte} {c : CacheClass} {na : Bool}
  (hlogs : env.logs = true)
include hlogs

theorem laneStore_logs (htx : (w.lane l).tx = none) : laneStore s k l env i va p bs c na w =
    match logStore (w.lane l).storeLog env.wlog (physKey p / 32) (p.pa % 32) bs with
    | some log => .ok (s.noteWrite (s.launchKey w) va, ((w.setLane l { w.lane l with storeLog := log }).noteStores (physKey p) bs).noteVas p va bs.length)
    | none => .error (.wait (.meeting (some i))) := by
  dsimp only [laneStore]
  rw [htx, hlogs]
  rfl

theorem sharedStore_logs : sharedStore env i l off bs s w =
    match logStore (w.lane l).storeLog env.wlog (sharedSector off) (off % 32) bs with
    | some log => .ok (s, (w.setLane l { w.lane l with storeLog := log }).noteStores (sharedKey off) bs)
    | none => .error (.wait (.meeting (some i))) := by
  rw [sharedStore, hlogs]
  rfl

end

/-- Settles O32: each lane's store is made where its address resolves to, or enters the log. -/
theorem vectorStoresComplete : Obligations.VectorStoresComplete := by
  refine ⟨?_, fun s k l w env i va p bs c na off log hdet hmeeting htx => ?_⟩
  · intro s k w0 env d b o i c na reuse t hrun w n ls bytes put r
    have hsits (v : State × Warp) (l : Nat) (h : v.2.SitsWith w) : (put v l).2.SitsWith w := storeAt_sitsWith h (t l)
    refine ⟨fun hdet htype hnames => ⟨fun heach => ?_, fun hshared => ?_⟩, fun hnames heach => ?_⟩
    · have hlanes := memLanes_fold (f := vstLane d b o c na reuse k env w) ls (s, w)
        (heach.imp (P := fun v => v.2.SitsWith w) ⟨rfl, rfl⟩ hsits fun _ _ hv h => vstLane_at hdet h.1 h.2 hv.1)
      exact runs_issueMem hrun ((memChecks_ok htype hnames _).trans hlanes)
    · have heach := EachLane.of_mem (f := put) (u := (s, w)) hshared
      have hlanes := memLanes_fold (f := vstsLane d b o reuse env w) ls (s, w)
        (heach.imp (P := fun v => v.2.SitsWith w) ⟨rfl, rfl⟩ hsits fun _ _ hv h => vstsLane_at hdet h hv.1)
      exact runs_issueMem hrun ((memChecks_ok htype hnames _).trans hlanes)
    · have hlanes := memLanes_fold (f := vsplLane d i env w0) (lanesOf w0.width w0.executing) (s, w0)
        (heach.imp (P := fun _ => True) trivial (fun _ _ _ => trivial) fun _ _ _ h => vsplLane_at h)
      exact runs_issueMem hrun ((rangeCheck_ok hnames _).trans hlanes)
  · have hlogs : env.logs = true := (logs_eq_det hmeeting).trans hdet
    refine ⟨fun hlog => ?_, fun hfull => ?_, fun hlog => ?_, fun v key => ⟨overlay_noteStores v key bs, noteWrite_mem ..⟩⟩
    · rw [laneStore_logs hlogs htx, hlog]
    · rw [laneStore_logs hlogs htx, hfull]
    · rw [sharedStore_logs hlogs, hlog]

/-- A vector atomic outside transactions and deterministic launches is made lane by lane (R200). -/
theorem vectorAtomic_ok {op : AtomicOp} {d o : Nat} {i : Instr} {s : State} {env : Env} {w : Warp} {f : LaneAccess} (hdet : env.det = false)
    (htype : w.TypeOk ElemType.inK [d]) (htx : w.anyTx = false) (hnames : w.NamesOk env (o :: atomicNames op w.typ d)) :
    vectorAtomic op d o i s env w f = (memLanes f (lanesOf w.width w.executing) s w).map fun r =>
      ((loaded w d r).1, if r.2.performedIn w.executing then (loaded w d r).2.taint else (loaded w d r).2) := by
  dsimp only [vectorAtomic]
  rw [typeCheck_ok htype, htx, stopIf_false, rangeCheck_ok hnames, atMeeting_ok (logs_of_det hdet)]

/-- Settles O34: each lane's atomic is made where its address resolves to, after those of the lanes before it. -/
theorem vectorAtomicsComplete : Obligations.VectorAtomicsComplete := by
  intro s k w0 env d b o op reuse t hrun w n ls put r v done hdet htype htx hnames
  have hsits (v : State × Warp) (l : Nat) (h : v.2.SitsWith w) : (put v l).2.SitsWith w := atomicAt_sitsWith h (t l)
  refine ⟨fun heach => ?_, fun heach => ?_⟩
  · have hlanes := memLanes_fold (f := vatomLane d b o op reuse k env w) ls (s, w)
      (heach.imp (P := fun v => v.2.SitsWith w) ⟨rfl, rfl⟩ hsits fun _ _ hv h => vatomLane_at (env?_meeting hrun.2.2.1) h.1 h.2 hv)
    exact runs_issueMem hrun ((vectorAtomic_ok hdet htype htx hnames).trans (congrArg (Except.map _) hlanes))
  · have hlanes := memLanes_fold (f := vatomsLane d b o op env w) ls (s, w)
      (heach.imp (P := fun v => v.2.SitsWith w) ⟨rfl, rfl⟩ hsits fun _ _ hv h => vatomsLane_at h.1 h.2 hv.1)
    exact runs_issueMem hrun ((vectorAtomic_ok hdet htype htx hnames).trans (congrArg (Except.map _) hlanes))

end Sys2Proof.Machine
end

section
/-! SUPPORT. Gondola stores: the lines that they write and the message to the home of each, and with them the statement on them (R262, R265 to R267). -/

namespace Sys2Proof.Machine

/-! ### Noting a write changes nothing that an access looks at -/

theorem noteWrite_eq (s : State) (id va : Nat) : ∃ xs, s.noteWrite id va = { s with launches := xs } := by
  unfold State.noteWrite
  split
  · exact ⟨_, rfl⟩
  · exact ⟨_, rfl⟩

/-- The state with the writes of some lanes noted, each at its address. -/
def State.noted (s : State) (w : Warp) (addr : Nat → DWord) (ls : List Nat) : State :=
  ls.foldl (fun u l => u.noteWrite (u.launchKey w) (addr l).toNat) s

theorem noted_eq (s : State) (w : Warp) (addr : Nat → DWord) (ls : List Nat) : ∃ xs, s.noted w addr ls = { s with launches := xs } := by
  refine foldl_keeps (P := fun u : State => ∃ xs, u = { s with launches := xs }) (fun u l hu => ?_) ls s ⟨s.launches, rfl⟩
  obtain ⟨xs, rfl⟩ := hu
  exact noteWrite_eq _ _ _

theorem noted_mem (s : State) (w : Warp) (addr : Nat → DWord) (ls : List Nat) : (s.noted w addr ls).mem = s.mem := by
  obtain ⟨xs, h⟩ := noted_eq s w addr ls
  rw [h]

/-! ### The lines of the stores -/

theorem tabFind_mem {α : Type} {t : Tab α} {k : Nat} {x : α} (h : tabFind t k = some x) : (k, x) ∈ t := by
  induction t with
  | nil => cases h
  | cons e r ih =>
    obtain ⟨j, y⟩ := e
    rw [tabFind] at h
    split at h
    · next hj =>
      cases h
      rw [beq_iff_eq.mp hj]
      exact .head _
    · split at h
      · cases h
      · exact .tail _ (ih h)

/-- What holds of every store holds of every store of a line. -/
theorem addLine_forall {P : WaitingStore → Prop} {stores : List WaitingStore} (h : ∀ x ∈ stores, P x) :
    ∀ {t : Tab (List WaitingStore)}, (∀ e ∈ t, ∀ x ∈ e.2, P x) → ∀ e ∈ stores.foldl addLine t, ∀ x ∈ e.2, P x := by
  induction stores with
  | nil => exact fun ht => ht
  | cons y r ih =>
    intro t ht
    refine ih (fun x hx => h x (.tail _ hx)) fun e he x hx => ?_
    rcases tabSet_mem he with rfl | hold
    · rcases List.mem_append.mp hx with hx | hx
      · rw [tabGet] at hx
        cases hfind : tabFind t (y.pa / 128) with
        | none => rw [hfind] at hx; cases hx
        | some xs =>
          rw [hfind] at hx
          exact ht _ (tabFind_mem hfind) x hx
      · rw [List.mem_singleton.mp hx]
        exact h y (.head _)
    · exact ht e hold x hx

/-! ### The lanes of a Gondola store -/

section
variable {s : State} {k : Nat} {env : Env} {w : Warp} {d b o : Nat} {c : CacheClass} {reuse : Bool} {q : Nat → Phys} {l : Nat}

theorem resolveOutside_of_reaches {a : DWord} {n : Nat} {kd : AccessKind} {p : Phys} (h : s.Reaches env a n kd p) (x : Lane) :
    resolveOutside s env x a n kd = .ok (.global a.toNat p) := by
  obtain ⟨halign, hplace, htrans, hfab⟩ := h
  simp [resolveOutside, halign, hplace, resolveGlobal, htrans, hfab]

/-- A lane's store of a `GST` to local memory is noted alone: the home performs it with the message of its line (R262). -/
theorem gstLane_noted {ts : List Nat} (hdet : env.det = false) (hmeeting : env.meeting = false)
    (hreach : s.Reaches env (w.address b o l) (memSize w.typ) .write (q l)) (hlock : s.lockFor k (q l).pa = none)
    (hown : s.ownFirst env.core k (q l) (memSize w.typ) = false) :
    gstLane d b o c reuse ts k env w l s w = .ok (s.noteWrite (s.launchKey w) (w.address b o l).toNat, w) := by
  dsimp only [gstLane]
  rw [resolveOutside_of_reaches hreach]
  dsimp only [targetAccess, gondolaStore]
  rw [logs_of_det hdet, hmeeting, leBytes_length, hlock, hown, hreach.2.2.2]
  rfl

/-- What the statement asks of a lane of a `GST`: it reaches local memory, where no lock and no store of the warp's own holds it up. -/
def GstFree (s : State) (k : Nat) (env : Env) (w : Warp) (b o : Nat) (q : Nat → Phys) (l : Nat) : Prop :=
  s.Reaches env (w.address b o l) (memSize w.typ) .write (q l) ∧ s.lockFor k (q l).pa = none ∧ s.ownFirst env.core k (q l) (memSize w.typ) = false

theorem memLanes_gst {ts : List Nat} (hdet : env.det = false) (hmeeting : env.meeting = false) (ls : List Nat)
    (h : ∀ l ∈ ls, GstFree s k env w b o q l) :
    memLanes (gstLane d b o c reuse ts k env w) ls s w = .ok (s.noted w (w.address b o) ls, w) := by
  induction ls generalizing s with
  | nil => rfl
  | cons l r ih =>
    obtain ⟨hreach, hlock, hown⟩ := h l (.head _)
    rw [memLanes, gstLane_noted hdet hmeeting hreach hlock hown]
    refine ih fun l' hl' => ?_
    obtain ⟨xs, hxs⟩ := noteWrite_eq s (s.launchKey w) (w.address b o l).toNat
    rw [hxs]
    exact h l' (.tail _ hl')

theorem gstSites_eq (h : ∀ l ∈ lanesOf w.width w.executing, GstFree s k env w b o q l) :
    gstSites d b o s k env w = (lanesOf w.width w.executing).map fun l =>
      (q l, ⟨k, env.ctx, (w.address b o l).toNat, (q l).pa, leBytes (memSize w.typ) (w.val w.typ l d)⟩) := by
  rw [← List.filterMap_eq_map, gstSites]
  refine List.filterMap_congr fun l hl => ?_
  rw [resolveOutside_of_reaches (h l hl).1]
  rfl

end

/-- The stores of a `GST`, lowest lane first. -/
def gstStores (k d b o : Nat) (env : Env) (w : Warp) (q : Nat → Phys) : List WaitingStore :=
  (lanesOf w.width w.executing).map fun l => ⟨k, env.ctx, (w.address b o l).toNat, (q l).pa, leBytes (memSize w.typ) (w.val w.typ l d)⟩

/-- The messages of a `GST`'s lines, each with the spans of its stores. -/
def gstPushes (s : State) (k d b o : Nat) (env : Env) (w : Warp) (c : CacheClass) (q : Nat → Phys) : List (Msg × List (Nat × Nat)) :=
  ((gstStores k d b o env w q).foldl addLine []).map fun e =>
    (pushMsg k env.ctx e.1 (s.pushTargets w env.cluster) c e.2, e.2.map fun x => (x.va, memSize w.typ))

/-- A `GST` to local memory notes its stores, and sends one message to the home of each line (R262, R265). -/
theorem gst_eq {s : State} {k : Nat} {env : Env} {w0 w : Warp} {d b o : Nat} {c : CacheClass} {reuse : Bool} {q : Nat → Phys}
    (hw : w = w0.mark reuse o) (hdet : env.det = false) (hmeeting : env.meeting = false) (htype : w.TypeOk anyType [d])
    (hnames : w.NamesOk env (o :: w.typ.span d)) (hgset : gsetOk w.gset env.cluster = true) (htx : w.anyTx = false)
    (hfree : ∀ l ∈ lanesOf w.width w.executing, GstFree s k env w b o q l) :
    gst d b o c reuse s k env w0 = .ok (makePushes (gstPushes s k d b o env w c q) (s.noted w (w.address b o) (lanesOf w.width w.executing))
      { w with gref := w.gref + BitVec.ofNat 64 ((gstPushes s k d b o env w c q).length * s.absentTargets w env.cluster) }) := by
  have hlocal : (gstSites d b o s k env w).filterMap (fun x => if x.1.fab then none else some x.2) = gstStores k d b o env w q := by
    rw [gstSites_eq hfree, List.filterMap_map, gstStores, ← List.filterMap_eq_map]
    refine List.filterMap_congr fun l hl => ?_
    exact if_neg (by rw [(hfree l hl).1.2.2.2]; exact Bool.false_ne_true)
  have hremote : (gstSites d b o s k env w).filter (·.1.fab) = [] := by
    rw [gstSites_eq hfree, List.filter_eq_nil_iff]
    intro x hx
    obtain ⟨l, hl, rfl⟩ := List.mem_map.mp hx
    rw [(hfree l hl).1.2.2.2]
    exact Bool.false_ne_true
  have hpushes : ((gstStores k d b o env w q).foldl addLine []).map (fun e =>
      (pushMsg k env.ctx e.1 (s.pushTargets w env.cluster) c e.2, e.2.map fun x => (x.va, x.bytes.length))) = gstPushes s k d b o env w c q := by
    have hsize : ∀ x ∈ gstStores k d b o env w q, x.bytes.length = memSize w.typ := by
      intro x hx
      obtain ⟨l, -, rfl⟩ := List.mem_map.mp hx
      exact leBytes_length ..
    refine List.map_congr_left fun e he => congrArg _ (List.map_congr_left fun x hx => congrArg _ ?_)
    exact addLine_forall hsize (List.forall_mem_nil _) e he x hx
  rw [gst, ← hw]
  dsimp only
  rw [typeCheck_ok htype, hgset, htx, rangeCheck_ok hnames, hlocal, hremote, memLanes_gst hdet hmeeting _ hfree]
  dsimp only [stopIf, Except.map, pushLines]
  rw [hpushes, logs_of_det hdet, hmeeting]
  simp only [List.map_nil, dedup, List.length_nil, Nat.zero_mul, Nat.zero_add, gstPushes, List.length_map]
  rfl

/-- Settles O33: every line that the lanes write gets its message, and no store is performed yet. -/
theorem gondolaStoreCompletes : Obligations.GondolaStoreCompletes := by
  intro s k w0 env d b o c reuse q hrun w n ls addr noted stores pushes hdet htype hnames hgset htx hfree s1 w1
  exact ⟨runs_issueMem hrun (gst_eq rfl hdet (env?_meeting hrun.2.2.1) htype hnames hgset htx hfree), noted_mem s w addr ls⟩

end Sys2Proof.Machine
end

section
/-! SUPPORT. Sums modulo a number: what the butterfly and the block order of running sums give for them, and with it the statement on integer reductions
(R53, R62, R63, R144). -/

namespace Sys2Proof.Machine

/-- A step that adds modulo `m` and raises no flag. -/
def AddsMod (m : Nat) (op : RedStep) : Prop := ∀ c x y, op c x y = ((x + y) % m, noFlags)

/-- Blocks that tile the lanes from `s` up to `e`, in order. -/
def Tiles : Nat → Nat → List (Nat × Nat) → Prop
  | s, e, [] => s = e
  | s, e, (s', b) :: r => s' = s ∧ Tiles (s + 2 ^ b) e r

theorem Tiles.le : ∀ {bs : List (Nat × Nat)} {s e : Nat}, Tiles s e bs → s ≤ e
  | [], _, _, h => Nat.le_of_eq h
  | (_, _) :: _, _, _, ⟨_, hr⟩ => (Nat.le_add_right ..).trans hr.le

/-- The blocks of `n` lanes tile them (R63). -/
theorem blocksOf_tiles (n : Nat) : ∀ b s, Tiles s (s + n % 2 ^ (b + 1)) (blocksOf n b s)
  | 0, s => by
    rw [blocksOf, bit]
    split
    · next h => exact ⟨rfl, by simp_all [Tiles]⟩
    · next h =>
      have : n % 2 = 0 := by simpa using h
      simp [Tiles, this]
  | b + 1, s => by
    have hbits : n % 2 ^ (b + 1 + 1) = n % 2 ^ (b + 1) + 2 ^ (b + 1) * (n / 2 ^ (b + 1) % 2) := by rw [pow_succ 2 (b + 1), Nat.mod_mul]
    rw [blocksOf, bit, hbits]
    split
    · next h =>
      rw [beq_iff_eq.mp h, Nat.mul_one, ← Nat.add_assoc, Nat.add_right_comm]
      exact ⟨rfl, blocksOf_tiles n b _⟩
    · next h =>
      have hzero : n / 2 ^ (b + 1) % 2 = 0 := by simpa using h
      rw [hzero, Nat.mul_zero, Nat.add_zero]
      exact blocksOf_tiles n b s

theorem sum_zipWith_mod (m : Nat) : ∀ xs ys : List Nat, xs.length = ys.length →
    (List.zipWith (fun x y => (x + y) % m) xs ys).sum % m = (xs.sum + ys.sum) % m
  | [], [], _ => rfl
  | x :: xs, y :: ys, hlen => by
    simp only [List.zipWith_cons_cons, List.sum_cons]
    rw [Nat.mod_add_mod, Nat.add_mod, sum_zipWith_mod m xs ys (Nat.succ.inj hlen), ← Nat.add_mod]
    congr 1
    omega

theorem exists_of_mem_zipWith {f : Nat → Nat → Nat} : ∀ {xs ys : List Nat} {z : Nat}, z ∈ List.zipWith f xs ys → ∃ x ∈ xs, ∃ y ∈ ys, f x y = z
  | x :: xs, y :: ys, z, hz => by
    rcases List.mem_cons.mp hz with rfl | hz
    · exact ⟨x, .head _, y, .head _, rfl⟩
    · obtain ⟨x', hx, y', hy, hf⟩ := exists_of_mem_zipWith hz
      exact ⟨x', .tail _ hx, y', .tail _ hy, hf⟩

section
variable {m : Nat} {op : RedStep} (h : AddsMod m op)
include h

theorem combine_addsMod (c : Nat) : ∀ xs ys, combine (op c) xs ys = (List.zipWith (fun x y => (x + y) % m) xs ys, noFlags)
  | [], _ => by rw [combine] <;> simp
  | _ :: _, [] => by rw [combine] <;> simp
  | x :: xs, y :: ys => by
    rw [combine, combine_addsMod c xs ys, h]
    rfl

/-- The butterfly of 2^k numbers is their sum (R62). -/
theorem butterfly_addsMod (chunk : Nat → Nat) : ∀ (k : Nat) (xs : List Nat), xs.length = 2 ^ k → (∀ x ∈ xs, x < m) →
    butterfly op chunk k xs = (xs.sum % m, noFlags)
  | 0, [x], _, hlt => by
    rw [butterfly, List.sum_singleton, Nat.mod_eq_of_lt (hlt x (.head _))]
    rfl
  | k + 1, xs, hlen, hlt => by
    have hhalf : (xs.take (2 ^ k)).length = 2 ^ k := by rw [List.length_take, hlen, pow_succ]; omega
    have hrest : (xs.drop (2 ^ k)).length = 2 ^ k := by rw [List.length_drop, hlen, pow_succ]; omega
    rw [butterfly, combine_addsMod h]
    dsimp only
    have hzip := butterfly_addsMod chunk k (List.zipWith (fun x y => (x + y) % m) (xs.take (2 ^ k)) (xs.drop (2 ^ k)))
      (by rw [List.length_zipWith, hhalf, hrest, Nat.min_self]) fun z hz => by
        obtain ⟨x, hx, y, -, rfl⟩ := exists_of_mem_zipWith hz
        exact Nat.mod_lt _ (Nat.zero_lt_of_lt (hlt x (List.mem_of_mem_take hx)))
    rw [hzip, sum_zipWith_mod m _ _ (hhalf.trans hrest.symm), ← List.sum_append, List.take_append_drop]
    rfl

/-- Block totals combined from left to right are the running sum up to their end (R144). -/
theorem scanBlocks_addsMod {xs : List Nat} (hlt : ∀ x ∈ xs, x < m) : ∀ (bs : List (Nat × Nat)) {s e : Nat} (j : Nat), Tiles s e bs → e ≤ xs.length →
    scanBlocks op xs j bs ((xs.take s).sum % m, noFlags) = ((xs.take e).sum % m, noFlags)
  | [], s, e, _, htiles, _ => by rw [show s = e from htiles]; rfl
  | (s', b) :: r, s, e, j, ⟨hs, hr⟩, he => by
    cases hs
    have hblock : ((xs.drop s').take (2 ^ b)).length = 2 ^ b := by
      have := hr.le
      rw [List.length_take, List.length_drop]
      omega
    rw [scanBlocks, butterfly_addsMod h _ _ _ hblock fun x hx => hlt x (List.mem_of_mem_drop (List.mem_of_mem_take hx))]
    dsimp only
    rw [h]
    dsimp only
    rw [← scanBlocks_addsMod hlt r (j + 1) hr he, List.take_add, List.sum_append, ← Nat.add_mod]
    rfl

theorem scanLane_addsMod {xs : List Nat} {i : Nat} (hlt : ∀ x ∈ xs, x < m) (hi : i < xs.length) (h64 : i < 64) :
    scanLane op xs i = ((xs.take (i + 1)).sum % m, noFlags) := by
  have htiles := blocksOf_tiles (i + 1) 6 0
  rw [Nat.zero_add, Nat.mod_eq_of_lt (show i + 1 < 2 ^ 7 by omega)] at htiles
  rw [scanLane]
  match hbs : blocksOf (i + 1) 6 0, htiles with
  | [], hnil => exact absurd hnil (Nat.succ_ne_zero i).symm
  | (s, b) :: r, ⟨hs, hr⟩ =>
    cases hs
    have hle := hr.le
    rw [Nat.zero_add] at hr hle
    have hblock : (xs.take (2 ^ b)).length = 2 ^ b := by rw [List.length_take]; omega
    dsimp only
    rw [List.drop_zero, butterfly_addsMod h _ _ _ hblock fun x hx => hlt x (List.mem_of_mem_take hx)]
    exact scanBlocks_addsMod h hlt r 0 hr hi

end

/-- An element stands for an integer that is congruent to it. -/
theorem toIntBy_ofNat_emod (isSigned : Bool) (n x : Nat) : toIntBy isSigned (BitVec.ofNat n x) % ((2 ^ n : Nat) : Int) = (x : Int) % ((2 ^ n : Nat) : Int) := by
  cases isSigned with
  | false =>
    rw [toIntBy, if_neg Bool.false_ne_true, BitVec.toNat_ofNat, Int.natCast_mod, Int.emod_emod]
  | true =>
    rw [toIntBy, if_pos rfl, BitVec.toInt_ofNat', Int.bmod_emod]

theorem fitInt_intElem_add (t : ElemType) (x y : Nat) : fitInt t.isSigned t.width false (intElem t x + intElem t y) = (x + y) % 2 ^ t.width := by
  have hsum : (intElem t x + intElem t y) % ((2 ^ t.width : Nat) : Int) = ((x + y : Nat) : Int) % ((2 ^ t.width : Nat) : Int) := by
    rw [Int.add_emod, intElem, intElem, toIntBy_ofNat_emod, toIntBy_ofNat_emod, ← Int.add_emod, Nat.cast_add]
  rw [fitInt, if_neg Bool.false_ne_true]
  rw [hsum, ← Int.natCast_mod, Int.toNat_natCast]

/-- Under an integer type without SAT a step of `VREDADD` adds modulo 2^w (R53). -/
theorem addStep_addsMod {env : Env} {w : Warp} {t : ElemType} (ht : t.inI = true) (hsat : w.sat = false) : AddsMod (2 ^ t.width) (addStep env w t) := by
  intro c x y
  change arith t w.sat w.ftz addF (· + ·) _ x y = _
  rw [arith_of_inI ht, plain, hsat, fitInt_intElem_add]

/-- Settles O17: the steps add modulo 2^w, in whatever order the butterfly and the blocks take them. -/
theorem integerReductions : Obligations.IntegerReductions := by
  intro w env t xs k i chunk ht hsat hlt
  exact ⟨fun hlen => butterfly_addsMod (addStep_addsMod ht hsat) chunk k xs hlen hlt, scanLane_addsMod (addStep_addsMod ht hsat) hlt⟩

end Sys2Proof.Machine
end

section
/-! SUPPORT. What one lane of an instruction ends with, and with it the statement on lane results (R18, R122, R123, R160). -/

namespace Sys2Proof.Machine

/-! ### Masks and flags -/

theorem inMask_laneBit (l j : Nat) : inMask (laneBit l) j = (decide (j < 64) && decide (j = l)) := by
  rw [inMask, laneBit, BitVec.getLsbD_ofNat, Nat.testBit_two_pow]
  by_cases h : l = j <;> simp [h, eq_comm]

theorem inMask_and (a b : Mask) (j : Nat) : inMask (a &&& b) j = (inMask a j && inMask b j) := BitVec.getLsbD_and

theorem inMask_or (a b : Mask) (j : Nat) : inMask (a ||| b) j = (inMask a j || inMask b j) := BitVec.getLsbD_or

theorem inMask_not (a : Mask) (j : Nat) : inMask (~~~a) j = (decide (j < 64) && !inMask a j) := BitVec.getLsbD_not

theorem lt_of_inMask {m : Mask} {j : Nat} (h : inMask m j = true) : j < 64 := BitVec.lt_of_getLsbD h

theorem inMask_clear_ne (m : Mask) {l j : Nat} (h : j ≠ l) : inMask (setBit m l false) j = inMask m j := by
  rw [setBit, if_neg Bool.false_ne_true, inMask_and, inMask_not, inMask_laneBit, decide_eq_false h, Bool.and_false, Bool.not_false, Bool.and_true]
  cases hj : inMask m j
  · rfl
  · rw [decide_eq_true (lt_of_inMask hj)]
    rfl

theorem inMask_clear_self (m : Mask) (l : Nat) : inMask (setBit m l false) l = false := by
  rw [setBit, if_neg Bool.false_ne_true, inMask_and, inMask_not, inMask_laneBit]
  by_cases h : l < 64 <;> simp [h]

theorem inMask_maskOf (ls : List Nat) (j : Nat) : inMask (maskOf ls) j = (decide (j < 64) && decide (j ∈ ls)) := by
  induction ls with
  | nil => simp [maskOf, inMask]
  | cons l r ih =>
    rw [maskOf, inMask_or, inMask_laneBit, ih]
    by_cases h : j < 64 <;> simp [h]

theorem mem_lanesOf {width l : Nat} {m : Mask} : l ∈ lanesOf width m ↔ l < width ∧ inMask m l = true := by
  rw [lanesOf, List.mem_filter, upto, List.mem_range]

theorem lanesOf_nodup (width : Nat) (m : Mask) : (lanesOf width m).Nodup := List.Nodup.filter _ List.nodup_range

/-- The sticky flags of `%fpctl` do not touch its enables (R18). -/
theorem enabledOf_raiseFlags (c : DWord) (f g : Flags) : enabledOf (raiseFlags c f) g = enabledOf c g := by
  have hflags : f.bits * 256 % 2 ^ 64 % 2 ^ 5 = 0 := by omega
  have hbits : bits (raiseFlags c f).toNat 4 0 = bits c.toNat 4 0 := by
    rw [bits, bits, raiseFlags, BitVec.toNat_or, BitVec.toNat_ofNat, pow_zero, Nat.div_one, Nat.div_one, show 4 - 0 + 1 = 5 from rfl,
      Nat.or_mod_two_pow, hflags, Nat.or_zero]
  rw [enabledOf, enabledOf, hbits]

/-! ### One lane among those that act -/

/-- A warp that agrees with another on what the result of lane `l` depends on. -/
def Warp.AgreesAt (v w : Warp) (l : Nat) : Prop :=
  v.lane l = w.lane l ∧ v.pc = w.pc ∧ v.lanes.length = w.lanes.length ∧ inMask v.active l = inMask w.active l ∧ ∀ fl, enabledOf v.fpctl fl = enabledOf w.fpctl fl

theorem Warp.AgreesAt.trans {u v w : Warp} {l : Nat} (h : u.AgreesAt v l) (h' : v.AgreesAt w l) : u.AgreesAt w l := by
  obtain ⟨hl, hp, hn, ha, hf⟩ := h
  obtain ⟨hl', hp', hn', ha', hf'⟩ := h'
  exact ⟨hl.trans hl', hp.trans hp', hn.trans hn', ha.trans ha', fun fl => (hf fl).trans (hf' fl)⟩

theorem setLane_length (w : Warp) (l : Nat) (x : Lane) : (w.setLane l x).lanes.length = w.lanes.length := setNth_length ..

theorem faulted_agreesAt {w : Warp} {l m cause : Nat} {addr : DWord} (h : m ≠ l) : (applyLane.faulted l w cause addr).AgreesAt w m := by
  unfold applyLane.faulted
  dsimp only
  split
  · exact ⟨lane_setLane_ne _ h, rfl, setLane_length .., rfl, fun _ => rfl⟩
  · exact ⟨lane_setLane_ne _ h, rfl, setLane_length .., inMask_clear_ne _ h, fun _ => rfl⟩

/-- The result of a lane leaves every other lane alone (R122). -/
theorem applyLane_agreesAt {w : Warp} {l m : Nat} (r : LaneResult) (h : m ≠ l) : (applyLane w l r).AgreesAt w m := by
  cases r with
  | error e => exact faulted_agreesAt h
  | ok r =>
    have hraise : { w with fpctl := raiseFlags w.fpctl r.2 }.AgreesAt w m := ⟨rfl, rfl, rfl, rfl, enabledOf_raiseFlags _ _⟩
    simp only [applyLane]
    split
    · exact (faulted_agreesAt h).trans hraise
    · exact ⟨lane_setLane_ne _ h, rfl, setLane_length .., rfl, enabledOf_raiseFlags _ _⟩

theorem runLanes_agreesAt {f : Nat → LaneResult} {m : Nat} {ls : List Nat} (h : m ∉ ls) (w : Warp) : (runLanes f ls w).AgreesAt w m := by
  induction ls generalizing w with
  | nil => exact ⟨rfl, rfl, rfl, rfl, fun _ => rfl⟩
  | cons l r ih =>
    rw [List.mem_cons, not_or] at h
    exact (ih h.2 _).trans (applyLane_agreesAt _ h.1)

/-- Among lanes that act, a lane ends with its own result, applied to a warp that agrees with the one at issue (R122). -/
theorem runLanes_at {f : Nat → LaneResult} {l : Nat} {ls : List Nat} (hl : l ∈ ls) (hnodup : ls.Nodup) (w : Warp) :
    ∃ v : Warp, v.AgreesAt w l ∧ (runLanes f ls w).AgreesAt (applyLane v l (f l)) l := by
  induction ls generalizing w with
  | nil => cases hl
  | cons m r ih =>
    obtain ⟨hm, hr⟩ := List.nodup_cons.mp hnodup
    by_cases hlm : l = m
    · subst hlm
      exact ⟨w, ⟨rfl, rfl, rfl, rfl, fun _ => rfl⟩, runLanes_agreesAt hm _⟩
    · obtain ⟨v, hv, hrun⟩ := ih ((List.mem_cons.mp hl).resolve_left hlm) hr (applyLane w m (f m))
      exact ⟨v, hv.trans (applyLane_agreesAt _ hlm), hrun⟩

section
variable {w : Warp} {l : Nat} {x : Lane} {fl : Flags} (hl : l < w.lanes.length)
include hl

/-- A lane whose exceptions are not enabled ends with its result (R123). -/
theorem applyLane_result (h : enabledOf w.fpctl fl = false) :
    (applyLane w l (.ok (x, fl))).lane l = x ∧ inMask (applyLane w l (.ok (x, fl))).active l = inMask w.active l := by
  rw [applyLane_ok h]
  exact ⟨lane_setLane_self x hl, rfl⟩

/-- A lane with an enabled exception parks where it is not speculative (R123, R160). -/
theorem applyLane_parks (h : enabledOf w.fpctl fl = true) (hspec : (w.lane l).speculative = false) :
    (applyLane w l (.ok (x, fl))).lane l = { w.lane l with parked := some ⟨0x0A, w.pc, 0⟩ } ∧ inMask (applyLane w l (.ok (x, fl))).active l = false := by
  let v : Warp := { w with fpctl := raiseFlags w.fpctl fl }
  have hv : (v.lane l).speculative = false := hspec
  have heq : applyLane w l (.ok (x, fl)) = { v.setLane l { w.lane l with parked := some ⟨0x0A, w.pc, 0⟩ } with active := setBit w.active l false } := by
    simp only [applyLane, h, if_true]
    unfold applyLane.faulted
    dsimp only
    refine (if_neg (by rw [hv]; exact Bool.false_ne_true)).trans ?_
    rw [Lane.fault, if_neg (by rw [hv]; exact Bool.false_ne_true)]
    rfl
  rw [heq]
  exact ⟨lane_setLane_self (w := w) _ hl, inMask_clear_self ..⟩

/-- A speculative lane with an enabled exception is doomed with cause fault, unless it is doomed already (R298, R299). -/
theorem applyLane_dooms (h : enabledOf w.fpctl fl = true) (hspec : (w.lane l).speculative = true) :
    (applyLane w l (.ok (x, fl))).lane l = { w.lane l with tx := (w.lane l).tx.map fun t : Tx => { t with doomed := t.doomed.orElse fun _ => some (7, 0) } }
      ∧ inMask (applyLane w l (.ok (x, fl))).active l = inMask w.active l := by
  let v : Warp := { w with fpctl := raiseFlags w.fpctl fl }
  have hv : (v.lane l).speculative = true := hspec
  have heq : applyLane w l (.ok (x, fl)) = v.setLane l
      { w.lane l with tx := (w.lane l).tx.map fun t : Tx => { t with doomed := t.doomed.orElse fun _ => some (7, 0) } } := by
    simp only [applyLane, h, if_true]
    unfold applyLane.faulted
    dsimp only
    refine (if_pos hv).trans ?_
    rw [Lane.fault, if_pos hv]
    rfl
  rw [heq]
  exact ⟨lane_setLane_self (w := w) _ hl, rfl⟩

end

theorem runLanes_fpctl (g : Nat → Lane × Flags) (ls : List Nat) (w : Warp) :
    (runLanes (fun l => .ok (g l)) ls w).fpctl = ls.foldl (fun c m => raiseFlags c (g m).2) w.fpctl := by
  induction ls generalizing w with
  | nil => rfl
  | cons l r ih =>
    have hhead : (applyLane w l (.ok (g l))).fpctl = raiseFlags w.fpctl (g l).2 := by
      simp only [applyLane]
      split
      · unfold applyLane.faulted
        dsimp only
        split <;> rfl
      · rfl
    rw [runLanes, ih, hhead]
    rfl

/-! ### What a lane of an instruction that writes vd ends with -/

section
variable {w : Warp} {l : Nat}

theorem lane_takeDraws (draws : Bool) (hl : l < w.lanes.length) (hexec : inMask w.executing l = true) :
    (w.takeDraws draws).lane l = { w.lane l with srdraw := if draws && w.roundCode == 5 then (w.lane l).srdraw + 1 else (w.lane l).srdraw } := by
  unfold Warp.takeDraws
  split
  · rw [Warp.lane, nth_eq_getElem _ (by simpa [upto] using hl)]
    simp [upto, hexec]
  · rfl

theorem takeDraws_length (w : Warp) (draws : Bool) : (w.takeDraws draws).lanes.length = w.lanes.length := by
  unfold Warp.takeDraws
  split
  · simp [upto]
  · rfl

/-- A lane that executes is not doomed (R298). -/
theorem not_isDoomed_of_executing (hwidth : l < w.width) (hexec : inMask w.executing l = true) : (w.lane l).isDoomed = false := by
  have hlt := lt_of_inMask hexec
  rw [Warp.executing, inMask_and, Bool.and_eq_true, inMask_not, Bool.and_eq_true] at hexec
  obtain ⟨-, -, hnot⟩ := hexec
  by_contra hdoomed
  have hmem : l ∈ (upto w.width).filter fun l => (w.lane l).isDoomed :=
    List.mem_filter.mpr ⟨List.mem_range.mpr hwidth, Bool.not_eq_false _ |>.mp hdoomed⟩
  simp [Warp.doomed, Warp.maskWhere, inMask_maskOf, hmem] at hnot
  omega

theorem tabGet_put_self {x : Lane} (hwf : tabWf 0 x.v = true) (n : Nat) (b : Word) : tabGet (x.put n b).v n 0 = b :=
  tabGet_tabPut_self 0 n b (tabWf_rising hwf)

theorem tabGet_put_ne {x : Lane} (hwf : tabWf 0 x.v = true) {n m : Nat} (b : Word) (h : m ≠ n) : tabGet (x.put n b).v m 0 = tabGet x.v m 0 :=
  tabGet_tabPut_ne 0 b (tabWf_rising hwf) h

end

/-- What the registers of a lane read once a value is written to vd there. -/
theorem tabGet_putVal_self {w : Warp} {t : ElemType} {l d : Nat} {x : Lane} (hwf : tabWf 0 x.v = true) (ht : t.is64 = false) (n : Nat) :
    tabGet (w.putVal t l d x n).v (w.phys l d) 0 = BitVec.ofNat 32 n := by
  rw [Warp.putVal, ht, if_neg Bool.false_ne_true]
  exact tabGet_put_self hwf ..

theorem phys_of_no_meld {w : Warp} (h : w.meld = none) (l n : Nat) : w.phys l n = n := by rw [Warp.phys, h]; rfl

/-- The pair that a 64-bit value is written to reads the value (R46). -/
theorem pair_putVal {w : Warp} {t : ElemType} {l d : Nat} {x : Lane} (hwf : tabWf 0 x.v = true) (ht : t.is64 = true) (hm : w.meld = none) (n : Nat) :
    (tabGet (w.putVal t l d x n).v d 0).toNat + 2 ^ 32 * (tabGet (w.putVal t l d x n).v (d + 1) 0).toNat = n % 2 ^ 64 := by
  have hwf' : tabWf 0 (x.put d (BitVec.ofNat 32 n)).v = true := tabPut_wf d _ hwf
  rw [Warp.putVal, ht, if_pos rfl, phys_of_no_meld hm, phys_of_no_meld hm, tabGet_put_self hwf', tabGet_put_ne hwf' _ (Nat.ne_of_lt (Nat.lt_succ_self d)),
    tabGet_put_self hwf, BitVec.toNat_ofNat, BitVec.toNat_ofNat]
  omega

/-- The warp after an instruction that writes vd: the lanes have run on the warp with its draws taken, and the latches have been dropped. -/
theorem produce_eq (w : Warp) (env : Env) (t : ElemType) (d : Nat) (draws : Bool) (f : Nat → (Nat → Rounding) → Nat × Flags) :
    w.produce env t d draws f = (runLanes (fun l => .ok (w.putVal t l d ((w.takeDraws draws).lane l) (f l (w.rounding env l)).1, (f l (w.rounding env l)).2))
      (lanesOf w.width w.executing) (w.takeDraws draws)).dropLatches (t.span d) := by
  have hwidth : (w.takeDraws draws).width = w.width := by unfold Warp.takeDraws; split <;> rfl
  rw [Warp.produce, Warp.eachLane, hwidth]

theorem takeDraws_frame (w : Warp) (draws : Bool) : ∃ ls, w.takeDraws draws = { w with lanes := ls } := by
  unfold Warp.takeDraws
  split
  · exact ⟨_, rfl⟩
  · exact ⟨w.lanes, rfl⟩

theorem produce_frame (w : Warp) (env : Env) (t : ElemType) (d : Nat) (draws : Bool) (f : Nat → (Nat → Rounding) → Nat × Flags) :
    ∃ ls fp as ts, w.produce env t d draws f = { w with lanes := ls, fpctl := fp, active := as, latches := ts } := by
  obtain ⟨ls, hdraws⟩ := takeDraws_frame w draws
  rw [produce_eq, hdraws]
  obtain ⟨xs, fp, as, hrun⟩ := runLanes_frame (fun l => .ok (w.putVal t l d (({ w with lanes := ls } : Warp).lane l) (f l (w.rounding env l)).1,
    (f l (w.rounding env l)).2)) (lanesOf w.width w.executing) { w with lanes := ls }
  rw [hrun]
  exact ⟨xs, fp, as, _, rfl⟩

theorem phys_congr {v w : Warp} (hmeld : v.meld = w.meld) (hpairs : v.pairs = w.pairs) (hpath : v.path = w.path) (l n : Nat) : v.phys l n = w.phys l n := by
  rw [Warp.phys, Warp.phys, hmeld, hpairs, hpath]

/-- A lane that is not doomed has no doom to keep. -/
theorem map_doomed_of_not_isDoomed {x : Lane} (h : x.isDoomed = false) (dm : Nat × Nat) :
    (x.tx.map fun t : Tx => { t with doomed := t.doomed.orElse fun _ => some dm }) = x.tx.map fun t : Tx => { t with doomed := some dm } := by
  cases htx : x.tx with
  | none => rfl
  | some t =>
    have hnone : t.doomed = none := by
      rw [Lane.isDoomed, htx] at h
      exact Option.isSome_eq_false_iff.mp h |> Option.isNone_iff_eq_none.mp
    rw [Option.map_some, Option.map_some, hnone]
    rfl

/-- Settles O14: a lane ends with its own result, applied to a warp that agrees at that lane with the one at issue. -/
theorem laneResults : Obligations.LaneResults := by
  intro w env t d l draws f hwidth hl hexec hwf r x w1
  have hx : x = { w.lane l with srdraw := if draws && w.roundCode == 5 then (w.lane l).srdraw + 1 else (w.lane l).srdraw } := lane_takeDraws draws hl hexec
  have hmem : l ∈ lanesOf w.width w.executing := mem_lanesOf.mpr ⟨hwidth, hexec⟩
  have hactive : inMask w.active l = true := by
    rw [Warp.executing, inMask_and, inMask_and, Bool.and_eq_true, Bool.and_eq_true] at hexec
    exact hexec.1.1
  have hw1 : w1 = _ := produce_eq w env t d draws f
  obtain ⟨ls, fp, as, ts, hframe⟩ := produce_frame w env t d draws f
  have hphys (n : Nat) : w1.phys l n = w.phys l n := phys_congr (congrArg Warp.meld hframe :) (congrArg Warp.pairs hframe :) (congrArg Warp.path hframe :) l n
  obtain ⟨xs, hdraws⟩ := takeDraws_frame w draws
  obtain ⟨v, ⟨hlane, hpc, hlen, hact, hen⟩, hends⟩ := runLanes_at
    (f := fun l => .ok (w.putVal t l d ((w.takeDraws draws).lane l) (f l (w.rounding env l)).1, (f l (w.rounding env l)).2)) hmem (lanesOf_nodup ..) (w.takeDraws draws)
  obtain ⟨hendlane, -, -, hendact, -⟩ := hends
  have hvl : l < v.lanes.length := by rwa [hlen, takeDraws_length]
  replace hlane : v.lane l = x := hlane
  replace hpc : v.pc = w.pc := hpc.trans (by rw [hdraws])
  replace hact : inMask v.active l = true := hact.trans (by rw [hdraws]; exact hactive)
  replace hen : enabledOf v.fpctl r.2 = enabledOf w.fpctl r.2 := (hen _).trans (by rw [hdraws])
  have hxwf : tabWf 0 x.v = true := by rw [hx]; exact hwf
  have hspec : x.speculative = (w.lane l).speculative := by rw [hx]; rfl
  have hdoom : x.isDoomed = false := by rw [hx]; exact not_isDoomed_of_executing hwidth hexec
  refine ⟨?_, hx, fun hno => ?_, fun hyes hplain => ?_, fun hyes hs => ?_⟩
  · rw [hw1]
    refine (runLanes_fpctl _ _ _).trans ?_
    rw [hdraws]
  · obtain ⟨hresult, hstays⟩ := applyLane_result (fl := r.2) (x := w.putVal t l d x r.1) hvl (hen.trans hno)
    have hw1l : w1.lane l = w.putVal t l d x r.1 := by rw [hw1]; exact hendlane.trans hresult
    refine ⟨hw1l, ?_, fun h32 => ?_, fun h64 hm => ?_⟩
    · rw [hw1]
      exact hendact.trans (hstays.trans hact)
    · rw [Warp.reg, hw1l, hphys]
      exact tabGet_putVal_self hxwf h32 r.1
    · rw [Warp.val, h64, if_pos rfl, Warp.reg, Warp.reg, hw1l, hphys, hphys, phys_of_no_meld hm, phys_of_no_meld hm]
      exact pair_putVal hxwf h64 hm r.1
  · obtain ⟨hparks, hleaves⟩ := applyLane_parks (fl := r.2) (x := w.putVal t l d x r.1) hvl (hen.trans hyes) (by rw [hlane, hspec, hplain])
    rw [hlane, hpc] at hparks
    rw [hw1]
    exact ⟨hendlane.trans hparks, hendact.trans hleaves⟩
  · obtain ⟨hdooms, hstays⟩ := applyLane_dooms (fl := r.2) (x := w.putVal t l d x r.1) hvl (hen.trans hyes) (by rw [hlane, hspec, hs])
    rw [hlane, map_doomed_of_not_isDoomed hdoom] at hdooms
    rw [hw1]
    exact ⟨hendlane.trans hdooms, hendact.trans (hstays.trans hact)⟩

end Sys2Proof.Machine
end

section
/-! SUPPORT. What an instruction that works lane by lane leaves alone: first one lane, then the lanes in turn, then each shape of instruction, and with it
the statement on the frame of lanes (R15, R17, R21, R23, R76, R122, R129). -/

namespace Sys2Proof.Machine

/-! ### One lane -/

/-- A lane as it may be after an instruction that names the registers `ns`: those, its draw counters, and whether it is parked or doomed, have changed. -/
structure LaneKept (x y : Lane) (ns : List Nat) : Prop where
  frame : y = { x with v := y.v, drawc := y.drawc, srdraw := y.srdraw, tx := y.tx, parked := y.parked }
  wf : tabWf 0 x.v = true → tabWf 0 y.v = true
  reg : tabWf 0 x.v = true → ∀ n, n ∉ ns → tabGet y.v n 0 = tabGet x.v n 0

namespace LaneKept

variable {x y z : Lane} {ns : List Nat}

theorem refl (x : Lane) (ns : List Nat) : LaneKept x x ns := ⟨rfl, id, fun _ _ _ => rfl⟩

theorem trans (h : LaneKept x y ns) (h' : LaneKept y z ns) : LaneKept x z ns := by
  obtain ⟨hf, hw, hr⟩ := h
  obtain ⟨hf', hw', hr'⟩ := h'
  exact ⟨by rw [hf', hf], fun hwf => hw' (hw hwf), fun hwf n hn => (hr' (hw hwf) n hn).trans (hr hwf n hn)⟩

theorem mono {ms : List Nat} (h : LaneKept x y ns) (hsub : ∀ n ∈ ns, n ∈ ms) : LaneKept x y ms :=
  ⟨h.frame, h.wf, fun hwf n hn => h.reg hwf n fun hmem => hn (hsub n hmem)⟩

theorem put {n : Nat} (b : Word) (hn : n ∈ ns) : LaneKept x (x.put n b) ns :=
  ⟨rfl, fun hwf => tabPut_wf n b hwf, fun hwf _ hm => tabGet_put_ne hwf b fun heq => hm (heq ▸ hn)⟩

/-- A lane that changes nothing but its draw counters, and whether it is parked or doomed. -/
theorem of_v {dc sr : BitVec 31} {tx : Option Tx} {pk : Option Parked} : LaneKept x { x with drawc := dc, srdraw := sr, tx := tx, parked := pk } ns :=
  ⟨rfl, id, fun _ _ _ => rfl⟩

theorem fault (pc : DWord) (cause : Nat) (addr : DWord) : LaneKept x (x.fault pc cause addr) ns := by
  unfold Lane.fault
  split <;> exact ⟨rfl, id, fun _ _ _ => rfl⟩

end LaneKept

/-! ### The lanes in turn -/

/-- A warp as it may be after the lanes of `m` have acted, each naming its own registers. -/
structure LanesKept (w v : Warp) (m : Mask) (ns : Nat → List Nat) : Prop where
  frame : v = { w with lanes := v.lanes, fpctl := v.fpctl, latches := v.latches, active := v.active }
  length : v.lanes.length = w.lanes.length
  lane : ∀ l, LaneKept (w.lane l) (v.lane l) (ns l)
  out : ∀ l, inMask m l = false → v.lane l = w.lane l
  active : ∀ l, inMask w.active l = false → inMask v.active l = false

theorem nth_of_length_le {α : Type} {xs : List α} {d : α} : ∀ {i : Nat}, xs.length ≤ i → nth xs i d = d := by
  induction xs with
  | nil => exact fun _ => rfl
  | cons x r ih =>
    intro i h
    cases i with
    | zero => exact absurd h (Nat.not_succ_le_zero _)
    | succ i => exact ih (Nat.le_of_succ_le_succ h)

/-- A lane beyond the warp's stays as it is. -/
theorem lane_setLane_or (w : Warp) (l : Nat) (x : Lane) : (w.setLane l x).lane l = x ∨ (w.setLane l x).lane l = w.lane l := by
  by_cases h : l < w.lanes.length
  · exact .inl (lane_setLane_self x h)
  · refine .inr ?_
    rw [Warp.lane, Warp.lane, Warp.setLane]
    rw [nth_of_length_le (by rw [setNth_length]; omega), nth_of_length_le (by omega)]

section
variable {w v : Warp} {m : Mask} {ns : Nat → List Nat}

theorem LanesKept.refl (w : Warp) (m : Mask) (ns : Nat → List Nat) : LanesKept w w m ns :=
  ⟨rfl, rfl, fun _ => .refl _ _, fun _ _ => rfl, fun _ => id⟩

variable (h : LanesKept w v m ns)
include h

theorem LanesKept.setLane {l : Nat} {x : Lane} (hl : inMask m l = true) (hx : LaneKept (w.lane l) x (ns l)) : LanesKept w (v.setLane l x) m ns := by
  obtain ⟨hframe, hlen, hlane, hout, hactive⟩ := h
  refine ⟨?_, (setLane_length ..).trans hlen, fun j => ?_, fun j hj => ?_, hactive⟩
  · rw [Warp.setLane, hframe]
  · by_cases hjl : j = l
    · subst hjl
      rcases lane_setLane_or v j x with heq | heq
      · rw [heq]; exact hx
      · rw [heq]; exact hlane j
    · rw [lane_setLane_ne x hjl]
      exact hlane j
  · have hjl : j ≠ l := fun heq => by rw [heq, hl] at hj; cases hj
    rw [lane_setLane_ne x hjl]
    exact hout j hj

theorem LanesKept.fpctl (c : DWord) : LanesKept w { v with fpctl := c } m ns := by
  obtain ⟨hframe, hlen, hlane, hout, hactive⟩ := h
  exact ⟨by rw [hframe], hlen, hlane, hout, hactive⟩

theorem LanesKept.latches (ls : List (Option Latch)) : LanesKept w { v with latches := ls } m ns := by
  obtain ⟨hframe, hlen, hlane, hout, hactive⟩ := h
  exact ⟨by rw [hframe], hlen, hlane, hout, hactive⟩

theorem LanesKept.clear (l : Nat) : LanesKept w { v with active := setBit v.active l false } m ns := by
  obtain ⟨hframe, hlen, hlane, hout, hactive⟩ := h
  refine ⟨by rw [hframe], hlen, hlane, hout, fun j hj => ?_⟩
  change inMask (setBit v.active l false) j = false
  by_cases hjl : j = l
  · rw [hjl]; exact inMask_clear_self ..
  · rw [inMask_clear_ne _ hjl]; exact hactive j hj

theorem LanesKept.faulted {l : Nat} (hl : inMask m l = true) (cause : Nat) (addr : DWord) : LanesKept w (applyLane.faulted l v cause addr) m ns := by
  have hfault := h.setLane hl ((h.lane l).trans (.fault v.pc cause addr))
  unfold applyLane.faulted
  dsimp only
  split
  · exact hfault
  · exact hfault.clear l

theorem LanesKept.applyLane {l : Nat} {r : LaneResult} (hl : inMask m l = true) (hr : ∀ x fl, r = .ok (x, fl) → LaneKept (w.lane l) x (ns l)) :
    LanesKept w (applyLane v l r) m ns := by
  cases r with
  | error e => exact h.faulted hl _ _
  | ok r =>
    simp only [Machine.applyLane]
    split
    · exact (h.fpctl _).faulted hl _ _
    · exact (h.fpctl _).setLane hl (hr _ _ rfl)

theorem LanesKept.eachLane {m' : Mask} {f : Nat → LaneResult} (hm : ∀ l, inMask m' l = true → inMask m l = true)
    (hf : ∀ l x fl, f l = .ok (x, fl) → LaneKept (w.lane l) x (ns l)) : LanesKept w (v.eachLane m' f) m ns := by
  have hrun : ∀ ls : List Nat, (∀ l ∈ ls, inMask m' l = true) → ∀ u, LanesKept w u m ns → LanesKept w (runLanes f ls u) m ns := by
    intro ls
    induction ls with
    | nil => exact fun _ _ hu => hu
    | cons l r ih =>
      exact fun hls u hu => ih (fun j hj => hls j (.tail _ hj)) _ (hu.applyLane (hm l (hls l (.head _))) (hf l))
  exact hrun _ (fun l hl => (mem_lanesOf.mp hl).2) v h

end

theorem takeDraws_lane_out {w : Warp} (draws : Bool) {l : Nat} (h : w.lanes.length ≤ l ∨ inMask w.executing l = false) :
    (w.takeDraws draws).lane l = w.lane l := by
  by_cases hl : l < w.lanes.length
  · unfold Warp.takeDraws
    split
    · rw [Warp.lane, nth_eq_getElem _ (by simpa [upto] using hl)]
      simp [upto, h.resolve_left (Nat.not_le.mpr hl)]
    · rfl
  · rw [Warp.lane, Warp.lane, nth_of_length_le (by rw [takeDraws_length]; omega), nth_of_length_le (by omega)]

theorem takeDraws_kept (w : Warp) (draws : Bool) (ns : Nat → List Nat) : LanesKept w (w.takeDraws draws) w.executing ns := by
  obtain ⟨ls, hdraws⟩ := takeDraws_frame w draws
  refine ⟨by rw [hdraws], takeDraws_length w draws, fun l => ?_, fun l hl => takeDraws_lane_out draws (.inr hl), fun l hl => by rw [hdraws]; exact hl⟩
  by_cases hout : w.lanes.length ≤ l ∨ inMask w.executing l = false
  · rw [takeDraws_lane_out draws hout]
    exact .refl _ _
  · rw [not_or, Nat.not_le, Bool.not_eq_false] at hout
    rw [lane_takeDraws draws hout.1 hout.2]
    exact .of_v

/-! ### The shapes of instructions -/

/-- What a pending write of an instruction may be: to a destination, or to the predicate, of a lane that executes. -/
def AllowedWrite (w : Warp) (dests : List Nat) (pd : Option Nat) : RegWrite → Prop
  | .vec m r _ => inMask w.executing m = true ∧ r ∈ dests.map (w.phys m)
  | .pred p m _ => pd = some p ∧ inMask w.executing m = true
  | _ => False

/-- A warp as it may be after an instruction whose lanes of `m` have acted, each naming its own registers, with results to come for the destinations
`dests` and the predicate `pd`. -/
structure WarpKept (w v : Warp) (m : Mask) (ns : Nat → List Nat) (dests : List Nat) (pd : Option Nat) : Prop where
  frame : v = { w with lanes := v.lanes, fpctl := v.fpctl, latches := v.latches, p := v.p, meld := v.meld, pending := v.pending, active := v.active }
  length : v.lanes.length = w.lanes.length
  lane : ∀ l, LaneKept (w.lane l) (v.lane l) (ns l)
  out : ∀ l, inMask m l = false → v.lane l = w.lane l
  active : ∀ l, inMask w.active l = false → inMask v.active l = false
  pred : ∀ n, pd ≠ some n → v.pred n = w.pred n
  predOut : ∀ n l, inMask w.executing l = false → inMask (v.pred n) l = inMask (w.pred n) l
  pending : ∃ rs, v.pending = w.pending ++ rs ∧ ∀ z ∈ rs.flatten, AllowedWrite w dests pd z

section
variable {w v : Warp} {m : Mask} {ns : Nat → List Nat} {dests : List Nat} {pd : Option Nat}

/-- An instruction with fixed latency leaves no result to come. -/
theorem LanesKept.now (h : LanesKept w v m ns) : WarpKept w v m ns dests pd := by
  obtain ⟨hframe, hlen, hlane, hout, hactive⟩ := h
  have hp (n : Nat) : v.pred n = w.pred n := by rw [Warp.pred, hframe]; rfl
  exact ⟨by rw [hframe], hlen, hlane, hout, hactive, fun n _ => hp n, fun n l _ => by rw [hp], [], by rw [hframe, List.append_nil], fun _ hz => nomatch hz⟩

theorem defer_pending (w : Warp) (rs : List RegWrite) : ∃ qs, (w.defer rs).pending = w.pending ++ qs ∧ ∀ z ∈ qs.flatten, z ∈ rs := by
  unfold Warp.defer
  split
  · exact ⟨[], (List.append_nil _).symm, fun _ hz => nomatch hz⟩
  · exact ⟨[rs], rfl, fun z hz => by simpa using hz⟩

theorem defer_frame (w : Warp) (rs : List RegWrite) : ∃ qs, w.defer rs = { w with pending := qs } := by
  unfold Warp.defer
  split
  · exact ⟨w.pending, rfl⟩
  · exact ⟨_, rfl⟩

/-- The lanes of a variable-latency form: those of the instruction, with the registers they had (R23). -/
theorem lane_restored (h : v.lanes.length = w.lanes.length) (l : Nat) :
    ({ v with lanes := (upto v.lanes.length).map fun l => { v.lane l with v := (w.lane l).v } } : Warp).lane l = { v.lane l with v := (w.lane l).v } := by
  by_cases hl : l < v.lanes.length
  · rw [Warp.lane, nth_eq_getElem _ (by simpa [upto] using hl)]
    simp [upto]
  · have hv : v.lane l = Lane.start := nth_of_length_le (Nat.not_lt.mp hl)
    have hw : w.lane l = Lane.start := nth_of_length_le (by omega)
    rw [Warp.lane, nth_of_length_le (by simpa [upto] using hl), hv, hw]

theorem mem_vecWrites {z : RegWrite} {names : List Nat} (h : z ∈ v.vecWrites m names) : ∃ l n x, inMask m l = true ∧ n ∈ names ∧ z = .vec l (v.phys l n) x := by
  obtain ⟨l, hl, hz⟩ := List.mem_flatMap.mp h
  obtain ⟨n, hn, rfl⟩ := List.mem_map.mp hz
  have hmask := (mem_lanesOf.mp hl).2
  rw [inMask_and, inMask_and, Bool.and_eq_true, Bool.and_eq_true] at hmask
  exact ⟨l, n, _, hmask.1.1, hn, rfl⟩

/-- The variable-latency form leaves the registers, and its results to come (R23). -/
theorem LanesKept.later (h : LanesKept w v m ns) : WarpKept w (w.later w.executing dests v) m (fun l => dests.map (w.phys l)) dests pd := by
  obtain ⟨hframe, hlen, hlane, hout, hactive⟩ := h
  obtain ⟨qs, hdefer⟩ := defer_frame { v with lanes := (upto v.lanes.length).map fun l => { v.lane l with v := (w.lane l).v } } (v.vecWrites w.executing dests)
  obtain ⟨rs, hpending, hmem⟩ := defer_pending { v with lanes := (upto v.lanes.length).map fun l => { v.lane l with v := (w.lane l).v } } (v.vecWrites w.executing dests)
  have hlater : w.later w.executing dests v = _ := hdefer
  have hrestored (l : Nat) : (w.later w.executing dests v).lane l = { v.lane l with v := (w.lane l).v } := by rw [hlater]; exact lane_restored hlen l
  have hp (n : Nat) : (w.later w.executing dests v).pred n = w.pred n := by rw [hlater, Warp.pred, hframe]; rfl
  refine ⟨by rw [hlater, hframe], ?_, fun l => ?_, fun l hl => ?_, fun l hl => ?_, fun n _ => hp n, fun n l _ => by rw [hp], rs, ?_, fun z hz => ?_⟩
  · rw [hlater]
    simpa [upto] using hlen
  · rw [hrestored, (hlane l).frame]
    exact .of_v
  · rw [hrestored, hout l hl]
  · rw [hlater]
    exact hactive l hl
  · exact hpending.trans (by rw [hframe])
  · obtain ⟨l, n, x, hl, hn, rfl⟩ := mem_vecWrites (hmem z hz)
    refine ⟨hl, ?_⟩
    rw [phys_congr (congrArg Warp.meld hframe) (congrArg Warp.pairs hframe) (congrArg Warp.path hframe)]
    exact List.mem_map_of_mem hn

theorem inMask_mergeMask_out {lanes old new : Mask} {l : Nat} (h : inMask lanes l = false) : inMask (mergeMask lanes old new) l = inMask old l := by
  rw [mergeMask, inMask_or, inMask_and, inMask_and, inMask_not, h]
  cases hold : inMask old l
  · rw [Bool.false_and, Bool.and_false]
    rfl
  · rw [decide_eq_true (lt_of_inMask hold)]
    rfl

theorem pred_setPred (w : Warp) (p n : Nat) (new : Mask) : (w.setPred p new).pred n = w.pred n ∨ n = p ∧ (w.setPred p new).pred n = new := by
  by_cases hn : n = p
  · subst hn
    by_cases hlt : n < w.p.length
    · exact .inr ⟨rfl, nth_setNth_self _ _ hlt⟩
    · refine .inl ?_
      rw [Warp.pred, Warp.pred, nth_of_length_le (by rw [Warp.setPred, setNth_length]; omega), nth_of_length_le (by omega)]
  · exact .inl (nth_setNth_ne _ _ hn)

/-- A predicate written in lanes that execute (R17). -/
theorem LanesKept.setPred (h : LanesKept w v m ns) {p : Nat} {wrote new : Mask} (hwrote : ∀ l, inMask wrote l = true → inMask w.executing l = true) :
    WarpKept w (v.setPred p (mergeMask wrote (w.pred p) new)) m ns dests (some p) := by
  obtain ⟨hframe, hlen, hlane, hout, hactive⟩ := h
  have hp (n : Nat) : v.pred n = w.pred n := by rw [Warp.pred, hframe]; rfl
  refine ⟨by rw [Warp.setPred, hframe], hlen, hlane, hout, hactive, fun n hn => ?_, fun n l hl => ?_, [], ?_, fun _ hz => nomatch hz⟩
  · rcases pred_setPred v p n (mergeMask wrote (w.pred p) new) with hsame | ⟨rfl, -⟩
    · rw [hsame, hp]
    · exact absurd rfl hn
  · rcases pred_setPred v p n (mergeMask wrote (w.pred p) new) with hsame | ⟨rfl, hnew⟩
    · rw [hsame, hp]
    · rw [hnew]
      exact inMask_mergeMask_out (Bool.not_eq_true _ |>.mp fun hin => by rw [hwrote l hin] at hl; cases hl)
  · rw [List.append_nil]
    exact (congrArg Warp.pending hframe :)

end

/-! ### The instructions -/

/-- An instruction whose lanes that execute write vd, the registers of a typed operand. -/
def Produces (env : Env) (w v : Warp) (t : ElemType) (d : Nat) : Prop := ∃ draws f, v = w.produce env t d draws f

section
variable {env : Env} {w v : Warp} {t : ElemType} {d a : Nat} {b : SrcB}

theorem putVal_kept (w : Warp) (t : ElemType) (l d : Nat) (x : Lane) (n : Nat) : LaneKept x (w.putVal t l d x n) ((t.span d).map (w.phys l)) := by
  unfold Warp.putVal ElemType.span
  dsimp only
  split
  · exact (LaneKept.put _ (.head _)).trans (.put _ (.tail _ (.head _)))
  · exact .put _ (.head _)

theorem produce_kept (w : Warp) (env : Env) (t : ElemType) (d : Nat) (draws : Bool) (f : Nat → (Nat → Rounding) → Nat × Flags) :
    LanesKept w (w.produce env t d draws f) w.executing (fun l => (t.span d).map (w.phys l)) := by
  have hdraws := takeDraws_kept w draws fun l => (t.span d).map (w.phys l)
  refine (hdraws.eachLane (fun _ hl => hl) fun l x fl hx => ?_).latches _
  cases hx
  exact (hdraws.lane l).trans (putVal_kept ..)

theorem Produces.kept (h : Produces env w v t d) : LanesKept w v w.executing (fun l => (t.span d).map (w.phys l)) := by
  obtain ⟨draws, f, rfl⟩ := h
  exact produce_kept ..

/-- What the checks of type and names leave is what the instruction gives. -/
theorem checked_ok {ok : ElemType → Bool} {ops ns : List Nat} {u : Warp} (h : w.typeCheck ok ops (w.rangeCheck env ns (.ok u)) = .ok v) : v = u :=
  (Except.ok.inj (stopIf_ok (stopIf_ok h))).symm

theorem ranged_ok {ns : List Nat} {u : Warp} (h : w.rangeCheck env ns (.ok u) = .ok v) : v = u := (Except.ok.inj (stopIf_ok h)).symm

theorem typeCheck_accepts {α : Type} {ok : ElemType → Bool} {ops : List Nat} {k : Except Stop α} {x : α} (h : w.typeCheck ok ops k = .ok x) : ok w.typ = true := by
  unfold Warp.typeCheck stopIf at h
  split at h
  · cases h
  · next hpass =>
    rw [Bool.or_eq_true, not_or, Bool.not_eq_true', Bool.not_eq_false] at hpass
    exact hpass.1

theorem binary_produces {ok : ElemType → Bool} {draws : Bool} {op : ElemType → (Nat → Rounding) → Nat → Nat → Nat × Flags}
    (h : binary ok draws op env w d a b = .ok v) : Produces env w v w.typ d := ⟨_, _, checked_ok h⟩

theorem withImm_produces {ok : ElemType → Bool} {draws : Bool} {op : ElemType → (Nat → Rounding) → Nat → Nat → Nat × Flags} {imm : ElemType → Nat}
    (h : withImm ok draws op imm env w d a = .ok v) : Produces env w v w.typ d := ⟨_, _, checked_ok h⟩

theorem unary_produces {ok : ElemType → Bool} {op : ElemType → Nat → Nat × Flags} (h : unary ok op env w d a = .ok v) : Produces env w v w.typ d :=
  withImm_produces h

/-- A type of F is no 64-bit type: its operand is one register. -/
theorem span_of_inF (h : t.inF = true) (d : Nat) : t.span d = [d] := by
  cases t with
  | f32 | f16x2 | bf16x2 => rfl
  | _ => cases h

/-- A special function, and the activation function, leave a result to come for the one register of vd (R139, R140). -/
theorem special_later {fn : FNum → SpecialValue} (h : special fn env w d a = .ok v) : ∃ u, Produces env w u w.typ d ∧ w.typ.span d = [d] ∧ v = w.later w.executing [d] u :=
  ⟨_, ⟨_, _, rfl⟩, span_of_inF (typeCheck_accepts h) d, checked_ok h⟩

theorem vact_later (h : vact env w d a = .ok v) : ∃ u, Produces env w u w.typ d ∧ w.typ.span d = [d] ∧ v = w.later w.executing [d] u :=
  ⟨_, ⟨_, _, rfl⟩, span_of_inF (typeCheck_accepts h) d, checked_ok h⟩

/-! ### Instructions with shapes of their own -/

/-- A list of words written to successive registers names those (R138). -/
theorem putWords_kept (w : Warp) (l : Nat) (xs : List Nat) : ∀ (d : Nat) (x : Lane) {ns : List Nat}, (∀ i < xs.length, w.phys l (d + i) ∈ ns) →
    LaneKept x (putWords w l d xs x) ns := by
  induction xs with
  | nil => exact fun _ _ _ _ => .refl _ _
  | cons n r ih =>
    intro d x ns hns
    refine ((putVal_kept w .i32 l d x n).mono fun p hp => ?_).trans (ih (d + 1) _ fun i hi => ?_)
    · rw [List.mem_singleton.mp hp]
      exact hns 0 (Nat.succ_pos _)
    · rw [Nat.add_assoc, Nat.add_comm 1]
      exact hns (i + 1) (Nat.succ_lt_succ hi)

theorem putSpan_kept (w : Warp) (t : ElemType) (l d : Nat) (out : List Nat) (qs : List Nat) {ns : List Nat} :
    ∀ x : Lane, (∀ q ∈ qs, ∀ n ∈ (t.span (convPos t d q)).map (w.phys l), n ∈ ns) → LaneKept x (putSpan w t l d out qs x) ns := by
  induction qs with
  | nil => exact fun _ _ => .refl _ _
  | cons q r ih =>
    intro x hns
    exact ((putVal_kept w t l (convPos t d q) x _).mono (hns q (.head _))).trans (ih _ fun q' hq' => hns q' (.tail _ hq'))

theorem vsel_kept (h : vsel env w d a b = .ok v) :
    LanesKept w v (w.active &&& ~~~w.doomed) (fun l => (w.typ.span d).map (w.phys l)) := by
  rw [checked_ok h]
  refine ((LanesKept.refl w _ _).eachLane (fun _ hl => hl) fun l x fl hx => ?_).latches _
  cases hx
  exact putVal_kept ..

theorem convSpan_contains (td : ElemType) (k d : Nat) {q n : Nat} (hq : q < (k + td.count - 1) / td.count) (hn : n ∈ td.span (convPos td d q)) :
    n ∈ convSpan td k d := by
  rw [convSpan, List.mem_map]
  unfold ElemType.span convPos at hn
  split at hn
  · next h64 =>
    rw [if_pos h64]
    rcases List.mem_pair.mp hn with rfl | rfl
    · exact ⟨q * 2, List.mem_range.mpr (by omega), rfl⟩
    · exact ⟨q * 2 + 1, List.mem_range.mpr (by omega), rfl⟩
  · next h32 =>
    rw [if_neg h32]
    rw [List.mem_singleton.mp hn]
    exact ⟨q * 1, List.mem_range.mpr (by omega), rfl⟩

theorem vcvt_kept {td : ElemType} (h : vcvt env w d a td = .ok v) :
    LanesKept w v w.executing (fun l => (convSpan td (max w.typ.count td.count) d).map (w.phys l)) := by
  have hv := (Except.ok.inj (stopIf_ok (stopIf_ok h))).symm
  rw [hv]
  have hdraws := takeDraws_kept w (w.typ.fmt?.isSome || td.fmt?.isSome) fun l => (convSpan td (max w.typ.count td.count) d).map (w.phys l)
  refine (hdraws.eachLane (fun _ hl => ?_) fun l x fl hx => ?_).latches _
  · exact hl
  · cases hx
    refine (hdraws.lane l).trans (putSpan_kept w td l d _ _ _ fun q hq n hn => ?_)
    obtain ⟨m, hm, rfl⟩ := List.mem_map.mp hn
    exact List.mem_map_of_mem (convSpan_contains td _ d (List.mem_range.mp hq) hm)

theorem vrdx_kept {i : Int} (h : vrdx env w d a i = .ok v) : LanesKept w v w.executing (fun l => [d].map (w.phys l)) := by
  rw [ranged_ok h]
  refine ((LanesKept.refl w _ _).eachLane (fun _ hl => hl) fun l x fl hx => ?_).latches _
  split at hx
  · cases hx
    exact putVal_kept w .i32 l d _ _
  · cases hx

/-- The register that a lane of a `VWRX` writes. -/
def vwrxNames (env : Env) (w : Warp) (a : Nat) (i : Int) (l : Nat) : List Nat := ((indexOf env w l a i).map (w.phys l)).toList

theorem vwrx_kept {i : Int} (h : vwrx env w d a i = .ok v) : LanesKept w v w.executing (vwrxNames env w a i) := by
  rw [ranged_ok h]
  refine ((LanesKept.refl w _ _).eachLane (fun _ hl => hl) fun l x fl hx => ?_).latches _
  split at hx
  · next n hn =>
    cases hx
    rw [vwrxNames, hn]
    exact putVal_kept w .i32 l n _ _
  · cases hx

theorem vunpk_kept (h : vunpk env w d a = .ok v) : LanesKept w v w.executing (fun l => (packSpan w.typ d).map (w.phys l)) := by
  rw [checked_ok h]
  refine ((LanesKept.refl w _ _).eachLane (fun _ hl => hl) fun l x fl hx => ?_).latches _
  cases hx
  split
  · next hone =>
    rw [packSpan, if_pos hone]
    exact putVal_kept ..
  · next hmany =>
    refine putWords_kept w l _ d _ fun i hi => ?_
    rw [packSpan, if_neg hmany]
    exact List.mem_map_of_mem (List.mem_map_of_mem (List.mem_range.mpr (by simpa [ElemType.split] using hi)))

theorem vrand_kept (h : vrand env w d = .ok v) : LanesKept w v w.executing (fun l => [d, d + 1, d + 2, d + 3].map (w.phys l)) := by
  rw [ranged_ok h]
  refine ((LanesKept.refl w _ _).eachLane (fun _ hl => hl) fun l x fl hx => ?_).latches _
  cases hx
  refine (putWords_kept w l _ d _ fun i hi => List.mem_map_of_mem ?_).trans .of_v
  have hfour : i < 4 := hi
  simp only [List.mem_cons, List.not_mem_nil, or_false]
  omega

theorem compareLanes_kept (w : Warp) (p : Nat) (r : Nat → Bool × Flags) : WarpKept w (w.compareLanes p r) w.executing (fun _ => []) [] (some p) := by
  have hlanes : LanesKept w (w.eachLane w.executing fun l => .ok (w.lane l, (r l).2)) w.executing (fun _ => []) :=
    (LanesKept.refl w _ _).eachLane (fun _ hl => hl) fun l x fl hx => by
      cases hx
      exact .refl _ _
  refine hlanes.setPred fun l hl => ?_
  rw [inMask_and, inMask_and, Bool.and_eq_true, Bool.and_eq_true] at hl
  exact hl.1.1

/-- The lane masks of ballots and matches are results to come (R120, R145, R146). -/
theorem putMask_kept (w : Warp) (d : Nat) (m : Nat → Mask) : WarpKept w (putMask w d m) w.executing (fun l => [d, d + 1].map (w.phys l)) [d, d + 1] none := by
  refine LanesKept.later (ns := fun l => [d, d + 1].map (w.phys l)) (((LanesKept.refl w _ _).eachLane (fun _ hl => hl) fun l x fl hx => ?_).latches _)
  cases hx
  refine putWords_kept w l _ d _ fun i hi => List.mem_map_of_mem ?_
  have htwo : i < 2 := hi
  simp only [List.mem_cons, List.not_mem_nil, or_false]
  omega

theorem vote_kept {r : Bool} (h : vote w d r = .ok v) : WarpKept w v w.executing (fun _ => []) [] (some d) := by
  have hv := (Except.ok.inj (stopIf_ok (stopIf_ok h))).symm
  rw [hv]
  obtain ⟨qs, hdefer⟩ := defer_frame (w.setPred d (w.pred d)) ((lanesOf w.width w.executing).map fun l => .pred d l r)
  obtain ⟨rs, hpending, hmem⟩ := defer_pending (w.setPred d (w.pred d)) ((lanesOf w.width w.executing).map fun l => .pred d l r)
  have hp (n : Nat) : (w.setPred d (w.pred d)).pred n = w.pred n := by
    rcases pred_setPred w d n (w.pred d) with hsame | ⟨rfl, hnew⟩
    · exact hsame
    · exact hnew
  refine ⟨by rw [hdefer]; rfl, by rw [hdefer]; rfl, fun l => by rw [hdefer]; exact .refl _ _, fun l _ => by rw [hdefer]; rfl, fun l hl => by rw [hdefer]; exact hl,
    fun n _ => by rw [hdefer]; exact hp n, fun n l _ => by rw [hdefer]; exact congrArg (inMask · l) (hp n), rs, hpending, fun z hz => ?_⟩
  obtain ⟨l, hl, rfl⟩ := List.mem_map.mp (hmem z hz)
  exact ⟨rfl, (mem_lanesOf.mp hl).2⟩

end

/-! ### Every repeatable instruction -/

/-- What the statement says of an instruction's warp: some lanes have acted, those that execute unless it is `VSEL`, and named its destinations, unless it
is `VWRX`. -/
def Framed (w v : Warp) (i : Instr) : Prop :=
  ∃ m ns, WarpKept w v m ns (destsOf i w.typ) (predDest i) ∧ (∀ l, inMask m l = true → inMask (w.active &&& ~~~w.doomed) l = true)
    ∧ (isVsel i = false → ∀ l, inMask m l = true → inMask w.executing l = true)
    ∧ (isVwrx i = false → ∀ l n, n ∈ ns l → n ∈ (destsOf i w.typ).map (w.phys l))

theorem executing_within {w : Warp} {l : Nat} (h : inMask w.executing l = true) : inMask (w.active &&& ~~~w.doomed) l = true := by
  rw [Warp.executing, inMask_and, inMask_and, Bool.and_eq_true, Bool.and_eq_true] at h
  rw [inMask_and, h.1.1, h.2]
  rfl

section
variable {w v : Warp} {i : Instr} {d : Nat}

/-- An instruction whose lanes that execute name its destinations. -/
theorem framed_of_executing (h : WarpKept w v w.executing (fun l => (destsOf i w.typ).map (w.phys l)) (destsOf i w.typ) (predDest i)) : Framed w v i :=
  ⟨_, _, h, fun _ => executing_within, fun _ _ => id, fun _ _ _ => id⟩

theorem framed_of_produces {env : Env} (hd : destsOf i w.typ = w.typ.span d) (h : Produces env w v w.typ d) : Framed w v i := by
  refine framed_of_executing ?_
  rw [hd]
  exact h.kept.now

/-- An instruction whose lanes that execute name its destinations, with a result to come. -/
theorem framed_of_later {env : Env} (hp : predDest i = none) (hd : destsOf i w.typ = w.typ.span d)
    (h : ∃ u, Produces env w u w.typ d ∧ v = w.later w.executing (w.typ.span d) u) : Framed w v i := by
  obtain ⟨u, hu, rfl⟩ := h
  refine framed_of_executing ?_
  rw [hd, hp]
  exact hu.kept.later

theorem framed_of_special {env : Env} (hp : predDest i = none) (hd : destsOf i w.typ = [d])
    (h : ∃ u, Produces env w u w.typ d ∧ w.typ.span d = [d] ∧ v = w.later w.executing [d] u) : Framed w v i := by
  obtain ⟨u, hu, hone, rfl⟩ := h
  exact framed_of_later hp (hd.trans hone.symm) ⟨u, hu, by rw [hone]⟩

end

section
variable {w v : Warp} {env : Env}

theorem collective_gives {ok : ElemType → Bool} {ops ns : List Nat} {u : Warp} (h : collective env w ok ops ns (.ok u) = .ok v) : v = u :=
  (Except.ok.inj (stopIf_ok (stopIf_ok (stopIf_ok (stopIf_ok h))))).symm

theorem repeated_framed {i : Instr} (h : repeated env w i = .ok v) : Framed w v i := by
  unfold repeated at h
  split at h
  -- VADD, VSUB, VMUL, VMIN to VMULH, VBFE
  case h_1 | h_2 | h_3 | h_5 | h_6 | h_7 | h_8 | h_9 | h_10 | h_11 | h_12 | h_13 | h_16 => exact framed_of_produces rfl (binary_produces h)
  -- VMAD, VBFI, VPACK, VLANE
  case h_4 | h_17 | h_41 | h_56 => exact framed_of_produces rfl ⟨_, _, checked_ok h⟩
  -- VDOT
  case h_14 d _ _ => exact framed_of_executing (LanesKept.now (Produces.kept (t := .i32) (d := d) ⟨_, _, checked_ok h⟩))
  -- VSEL
  case h_15 => exact ⟨_, _, (vsel_kept h).now, fun _ => id, fun hsel => (nomatch hsel), fun _ _ _ => id⟩
  -- VCMP, VCMPI
  case h_18 | h_27 =>
    rw [(Except.ok.inj (stopIf_ok (stopIf_ok h))).symm]
    exact framed_of_executing (compareLanes_kept ..)
  -- VCVT
  case h_19 => exact framed_of_executing (vcvt_kept h).now
  -- VADDI, VMULI, VANDI, VORI
  case h_20 | h_21 | h_22 | h_23 => exact framed_of_produces rfl (withImm_produces h)
  -- VSHI, VNOT to VPOPC, VMOV
  case h_26 | h_29 | h_30 | h_31 | h_32 | h_33 | h_51 => exact framed_of_produces rfl (unary_produces h)
  -- VRDX, VWRX
  case h_24 => exact framed_of_executing (vrdx_kept h).now
  case h_25 => exact ⟨_, _, (vwrx_kept h).now, fun _ => executing_within, fun _ _ => id, fun hwrx => (nomatch hwrx)⟩
  -- VSHFL, the reductions and VSCAN
  case h_28 | h_43 | h_44 | h_45 | h_46 | h_47 | h_48 | h_49 => exact framed_of_later rfl rfl ⟨_, ⟨_, _, rfl⟩, collective_gives h⟩
  -- VRCP to VCOS, and VACT
  case h_34 | h_35 | h_36 | h_37 | h_38 | h_39 => exact framed_of_special rfl rfl (special_later h)
  case h_40 => exact framed_of_special rfl rfl (vact_later h)
  -- VUNPK, VRAND
  case h_42 => exact framed_of_executing (vunpk_kept h).now
  case h_55 => exact framed_of_executing (vrand_kept h).now
  -- VMATCH, VBALLOT
  case h_50 =>
    rw [(Except.ok.inj (stopIf_ok (stopIf_ok (stopIf_ok (stopIf_ok h))))).symm]
    exact framed_of_executing (putMask_kept ..)
  case h_54 =>
    rw [(Except.ok.inj (stopIf_ok (stopIf_ok (stopIf_ok h)))).symm]
    exact framed_of_executing (putMask_kept ..)
  -- VVOTE.ANY, VVOTE.ALL
  case h_52 | h_53 => exact framed_of_executing (vote_kept h)
  case h_57 => cases h

end

/-- Settles O15: each lane changes within its frame, and so the lanes in turn, whatever the shape of the instruction. -/
theorem laneFrame : Obligations.LaneFrame := by
  intro w w1 env i l n h hwf x y
  obtain ⟨m, ns, hkept, hactive, hexec, hnames⟩ := repeated_framed h
  obtain ⟨hframe, hlen, hlane, hout, hact, hpred, hpredOut, hpending⟩ := hkept
  have hquiet (b : Mask) (hsub : ∀ l, inMask m l = true → inMask b l = true) (hb : inMask b l = false) : y = x :=
    hout l (Bool.not_eq_true _ |>.mp fun hin => by rw [hsub l hin] at hb; cases hb)
  refine ⟨hframe, hlen, hpred n, hpredOut n l, (hlane l).frame, (hlane l).wf hwf, hquiet _ hactive, fun hsel => hquiet _ (hexec hsel), fun hwrx hn => ?_, hact l, ?_⟩
  · exact (hlane l).reg hwf n fun hmem => hn (hnames hwrx l n hmem)
  · obtain ⟨rs, hrs, hall⟩ := hpending
    refine ⟨rs, hrs, fun z hz => ?_⟩
    have hz' := hall z hz
    cases z <;> exact hz'

end Sys2Proof.Machine
end

section
/-! SUPPORT. A warp at its start, batches and barrier objects, the accesses of a speculative lane (R19, R150, R178, R187, R206 to R217, R296 to R301). -/

namespace Sys2Proof.Machine

/-! ### A warp at its start -/

theorem nth_map_upto {α : Type} {f : Nat → α} (d : α) {n i : Nat} (h : i < n) : nth ((upto n).map f) i d = f i := by
  rw [nth_eq_getElem _ (by simpa [upto] using h)]
  simp [upto]

theorem scal_startScalars (x : Launch) (top : Nat) {i : Nat} (h : i < 32) :
    nth (startScalars x top) i 0 = if i < 8 then x.argScalar i else if i == 31 then BitVec.ofNat 64 top else 0 := nth_map_upto _ h

/-- The lane of a warp at its start: that of its thread, or one without (R19, R187). -/
def startLane (sl : Option DWord) (draws : List (BitVec 31 × BitVec 31)) (ths : List NewThread) (l : Nat) : Lane :=
  let d := nth draws l (0, 0)
  match ths[l]? with
  | some th => { Lane.start with v := firstRegs th.regs, iter := th.iter, slalom := sl, drawc := d.1, srdraw := d.2 }
  | none => { Lane.start with drawc := d.1, srdraw := d.2 }

/-- The warp that starts. -/
def startedWarp (s : State) (t seg : Nat) (entry : DWord) (sl : Option DWord) (ths : List NewThread) (tm : Team) (x : Launch) : Warp :=
  let w := newWarp t (s.freeWarpid t) tm.core (s.quarterFor tm.core []) s.clock x.width seg entry (allLanes (min ths.length x.width))
    (startScalars x ((s.context x.ctx).winBase + x.privSize)) ((upto x.width).map (startLane sl (tabGet tm.draws (s.freeWarpid t) []) ths))
  { w with region := entryRegion w x.desc }

theorem startWarp_warp {s : State} {t seg : Nat} {entry : DWord} {sl : Option DWord} {ths : List NewThread} {tm : Team} {x : Launch}
    (ht : tabFind s.teams t = some tm) (hx : tabFind s.launches tm.launch = some x) (hseg : s.freeSegment x [] = some seg) :
    tabFind (s.startWarp t entry sl ths).warps s.nextId = some (startedWarp s t seg entry sl ths tm x) := by
  unfold State.startWarp
  rw [ht]
  dsimp only
  rw [hx]
  dsimp only
  rw [hseg]
  exact tabFind_tabSet_self ..

theorem startedWarp_lane {s : State} {t seg l : Nat} {entry : DWord} {sl : Option DWord} {ths : List NewThread} {tm : Team} {x : Launch}
    (hl : l < x.width) : (startedWarp s t seg entry sl ths tm x).lane l = startLane sl (tabGet tm.draws (s.freeWarpid t) []) ths l :=
  nth_map_upto _ hl

/-- Settles O49, field by field of the warp that starts. -/
theorem warpStartState : Obligations.WarpStartState := by
  intro s t entry sl ths tm x seg w ht hx hseg hw
  obtain rfl := Option.some.inj ((startWarp_warp ht hx hseg).symm.trans hw)
  refine ⟨rfl, rfl, rfl, rfl, rfl, rfl, rfl, rfl, rfl, rfl, rfl, rfl, rfl, rfl, fun i hi => ?_, ?_, fun i h8 h31 => ?_, fun i => ?_, fun l hl => ?_⟩
  · exact (scal_startScalars x _ (by omega)).trans (if_pos hi)
  · exact scal_startScalars x _ (by omega)
  · refine (scal_startScalars x _ (by omega)).trans ?_
    rw [if_neg (by omega), if_neg (by simpa using h31.ne)]
  · change nth (List.replicate 12 0) i 0 = 0
    by_cases hi : i < 12
    · rw [nth_eq_getElem _ (by simpa using hi), List.getElem_replicate]
    · exact nth_of_length_le (by simpa using hi)
  · rw [startedWarp_lane hl, startLane]
    cases ths[l]? with
    | none => exact ⟨rfl, rfl, fun _ h => (nomatch h), fun _ => rfl⟩
    | some th => exact ⟨rfl, rfl, fun _ h => by cases h; exact ⟨rfl, rfl⟩, fun h => (nomatch h)⟩

/-! ### Batches and barrier objects -/

section
variable {s : State} {k : Nat} {w : Warp} {env : Env}

theorem drain_batch (w : Warp) : w.drain.batch = w.batch := (congrArg Warp.batch (applyAll_bare w w.pending.flatten) :)

theorem afence_ok {d : Nat} (h : w.batches.length < 16) :
    afence d s w = .ok (({ w.closeBatch s w.openOps with openOps := [] } : Warp).setScal d ((w.batch + 1).setWidth 64)) := by
  have hroom : decide (maxBatches ≤ w.batches.length) = false := decide_eq_false (Nat.not_le.mpr h)
  rw [afence, hroom, stopIf_false]
  rfl

theorem await_ok {d n : Nat} (hdet : env.det = false)
    (hb : (w.drain.scal n).setWidth 16 = w.drain.batch ∨ 32768 ≤ ((w.drain.scal n).setWidth 16 - w.drain.batch).toNat) :
    await d n s k env w.drain =
      if w.drain.batchesDone ((w.drain.scal n).setWidth 16) then .ok (s, w.drain.awaited d, .after 4)
      else .ok (s, { w.drain with status := .waiting (.await d ((w.drain.scal n).setWidth 16).toNat) }, .stay) := by
  have hlegal : ((w.drain.scal n).setWidth 16 != w.drain.batch && batchLe w.drain.batch ((w.drain.scal n).setWidth 16)) = false := by
    rcases hb with hb | hb
    · rw [hb, bne_self_eq_false, Bool.false_and]
    · rw [batchLe, decide_eq_false (Nat.not_lt.mpr hb), Bool.and_false]
  dsimp only [await]
  rw [hlegal, stopIf_false, atMeeting_ok (logs_of_det hdet), drain_drain]

theorem bwait_ok {d y : Nat} {q : Bool} (hdet : env.det = false) (ho : s.ObjectOk env w.drain (w.drain.scal y) 16 16) :
    bwait d y q s k env w.drain =
      if s.phaseReached w.drain.team (w.drain.scal y).toNat q then .ok (s, w.drain.phaseSeen s d (w.drain.scal y).toNat, .after 4)
      else .ok (s, { w.drain with status := .waiting (.bwait d (w.drain.scal y).toNat q) }, .stay) := by
  dsimp only [bwait]
  rw [drain_drain, sharedObject_ok ho, atMeeting_ok (logs_of_det hdet)]

theorem sharedPlace_ok {α : Type} {o : DWord} {al n : Nat} (hal : o.toNat % al = 0) (hn : o.toNat + n ≤ env.shm) (f : Nat → Except Stop α) :
    sharedPlace env o al n f = f o.toNat := by
  rw [sharedPlace, hal, bne_self_eq_false, stopIf_false, decide_eq_false (Nat.not_lt.mpr hn), stopIf_false]

/-- What `BINIT` writes to a barrier object (R214). -/
def barrierBytes (expect : Nat) : List Byte := leBytes 4 0 ++ leBytes 2 expect ++ leBytes 2 0 ++ leBytes 8 0

theorem binit_ok {c y : Nat} (hdet : env.det = false) (hal : (w.scal y).toNat % 16 = 0) (hn : (w.scal y).toNat + 16 ≤ env.shm)
    (h1 : 1 ≤ (w.scal c).toNat) (h2 : (w.scal c).toNat ≤ 65535) :
    binit c y s k env w =
      .ok (if s.objectPending w.team (w.scal y).toNat then s.plainShm w.team (w.scal y).toNat (barrierBytes (w.scal c).toNat)
        else (s.plainShm w.team (w.scal y).toNat (barrierBytes (w.scal c).toNat)).updateTeam w.team fun tm =>
          { tm with raced := tm.raced.filter (· != (w.scal y).toNat) }, w) := by
  have hcount : ((w.scal c).toNat == 0 || decide (65535 < (w.scal c).toNat)) = false := by
    rw [decide_eq_false (Nat.not_lt.mpr h2), Bool.or_false, beq_eq_false_iff_ne]
    omega
  dsimp only [binit]
  rw [hcount, stopIf_false, sharedPlace_ok hal hn, sharedStore, if_neg (by rw [logs_of_det hdet]; exact Bool.false_ne_true)]
  rfl

theorem barv_ok {y c : Nat} (htx : w.anyTx = false) (ho : s.ObjectOk env w (w.scal y) 16 16) (hrel : s.unreleased k w .team none = false) :
    barv y c s k env w =
      .ok (if env.logs then (s, { w with detArrivals := w.detArrivals ++ [((w.scal y).toNat, c)] }.taint)
        else (s.arrive w.team (w.scal y).toNat c 0, w.taint)) := by
  dsimp only [barv]
  rw [htx, stopIf_false, sharedObject_ok ho, released_ok (.inl hrel)]

end

/-- An arrival on an object that no plain store has raced (R215). -/
theorem arrive_eq {s : State} {t off c errors : Nat} {tm : Team} (ht : tabFind s.teams t = some tm) (hraced : tm.raced.contains off = false)
    (he : 0 < natOfBytes (s.shmBytes t (off + 4) 2)) :
    s.arrive t off c errors =
      s.shmWrite t off (leBytes 4 (Nat.xor (natOfBytes (s.shmBytes t (off + 0) 4))
          ((natOfBytes (s.shmBytes t (off + 6) 2) + c) / natOfBytes (s.shmBytes t (off + 4) 2) % 2)) ++ leBytes 2 (natOfBytes (s.shmBytes t (off + 4) 2))
        ++ leBytes 2 ((natOfBytes (s.shmBytes t (off + 6) 2) + c) % natOfBytes (s.shmBytes t (off + 4) 2))
        ++ leBytes 8 (addStatus (BitVec.ofNat 64 (natOfBytes (s.shmBytes t (off + 8) 8))) errors).toNat) := by
  have hne : (natOfBytes (s.shmBytes t (off + 4) 2) == 0) = false := beq_eq_false_iff_ne.mpr (by omega)
  simp only [State.arrive, ht, hraced, hne, Bool.false_eq_true, if_false]

/-- Settles O37, an operation at a time. -/
theorem batchesAndBarriersComplete : Obligations.BatchesAndBarriersComplete := by
  refine ⟨fun s k w env d n c y q hrun => ?_, fun s t off c errors tm ht hraced he => ⟨arrive_eq ht hraced he, fun hlt => ?_, fun heq => ?_⟩⟩
  · refine ⟨fun hlen => runs_issue hrun (afence_ok hlen), fun hdet hb => ⟨fun hdone => ?_, fun hdone => ?_⟩,
      fun hdet ho => ⟨fun hphase => ?_, fun hphase => ?_⟩, fun hdet hal hn h1 h2 => runs_issueMem hrun (binit_ok hdet hal hn h1 h2),
      fun ho htx hrel => ⟨fun hdet => ?_, fun hdet => ?_⟩⟩
    · exact runs_issueParked hrun ((await_ok hdet ((drain_batch w).symm ▸ hb)).trans (if_pos hdone))
    · exact runs_issueParked hrun ((await_ok hdet ((drain_batch w).symm ▸ hb)).trans (if_neg (by rw [hdone]; exact Bool.false_ne_true)))
    · exact runs_issueParked hrun ((bwait_ok hdet ho).trans (if_pos hphase))
    · exact runs_issueParked hrun ((bwait_ok hdet ho).trans (if_neg (by rw [hphase]; exact Bool.false_ne_true)))
    · refine runs_issueMem hrun ((barv_ok htx ho hrel).trans ?_)
      rw [logs_of_det hdet]
      rfl
    · have henv := hrun.2.2.1
      refine runs_issueMem hrun ((barv_ok htx ho hrel).trans ?_)
      rw [logs_eq_det (env?_meeting henv), hdet]
      rfl
  · rw [Nat.div_eq_of_lt hlt]
    exact ⟨Nat.xor_zero _, Nat.mod_eq_of_lt hlt⟩
  · rw [heq, Nat.div_self he]
    exact ⟨rfl, Nat.mod_self _⟩

/-! ### The accesses of a speculative lane -/

theorem getLsbD_bytesMask (o n j : Nat) : (BitVec.ofNat 32 ((2 ^ n - 1) * 2 ^ o)).getLsbD j = (decide (j < 32) && (decide (o ≤ j) && decide (j - o < n))) := by
  rw [BitVec.getLsbD_ofNat, Nat.testBit_mul_two_pow, Nat.testBit_two_pow_sub_one]

/-- The entry of a sector after a store to it: what it held, with the store (R297). -/
theorem writeEntry_logStore {log out : List WriteEntry} {limit sect o : Nat} {bs : List Byte} (h : logStore log limit sect o bs = some out) :
    out.find? (fun e => e.sect == sect) = some (((log.find? fun e => e.sect == sect).getD (WriteEntry.new sect)).store o bs) := by
  unfold logStore at h
  split at h
  · next hany =>
    rw [← Option.some.inj h, List.find?_map]
    obtain ⟨e, he, hsect⟩ := List.any_eq_true.mp hany
    have hcomp : ((fun e : WriteEntry => e.sect == sect) ∘ fun e => if e.sect == sect then e.store o bs else e) = fun e => e.sect == sect := by
      funext e
      dsimp only [Function.comp]
      split <;> rfl
    rw [hcomp]
    cases hf : log.find? fun e => e.sect == sect with
    | none => exact absurd hsect (List.find?_eq_none.mp hf e he)
    | some x =>
      have hx : (x.sect == sect) = true := List.find?_some (p := fun e : WriteEntry => e.sect == sect) hf
      rw [Option.map_some, hx]
      rfl
  · next hany =>
    have hnone : log.find? (fun e => e.sect == sect) = none :=
      List.find?_eq_none.mpr fun e he hs => hany (List.any_eq_true.mpr ⟨e, he, hs⟩)
    split at h
    · rw [← Option.some.inj h, List.find?_append, hnone, Option.none_or, Option.getD_none]
      exact List.find?_cons_of_pos (beq_self_eq_true sect)
    · cases h

/-- What was stored to bytes of one sector is read back (R297). -/
theorem over_store {e : WriteEntry} {o : Nat} {bs : List Byte} (h : o + bs.length ≤ 32) (src : List Byte) : (e.store o bs).over o bs.length src = bs := by
  refine List.ext_getElem (by simp [WriteEntry.over, upto]) fun i hi hi' => ?_
  have hmask : (e.store o bs).wmask.getLsbD (o + i) = true := by
    rw [WriteEntry.store, BitVec.getLsbD_or, getLsbD_bytesMask]
    simp
    omega
  simp only [WriteEntry.over, upto, List.getElem_map, List.getElem_range, hmask, if_true]
  rw [WriteEntry.store, nth_map_upto _ (by omega), if_pos (by simp; omega), Nat.add_sub_cancel_left, nth_eq_getElem _ hi']

theorem fetches_stored {t : Tx} {p : Phys} {n : Nat} {e : WriteEntry} {bs : List Byte} (h : t.writeEntry (p.pa / 32) = e.store (p.pa % 32) bs)
    (hn : n = bs.length) : t.fetches p n = false := by
  subst hn
  have hzero : sectorMask p.pa bs.length &&& ~~~(e.store (p.pa % 32) bs).wmask = 0 := by
    rw [WriteEntry.store, sectorMask]
    refine BitVec.eq_of_getLsbD_eq fun i hi => ?_
    simp only [BitVec.getLsbD_and, BitVec.getLsbD_not, BitVec.getLsbD_or, hi, decide_true, Bool.true_and, Bool.not_or, BitVec.ofNat_eq_ofNat,
      BitVec.getLsbD_zero]
    cases BitVec.getLsbD _ _ <;> simp
  rw [Tx.fetches, h, hzero]
  rfl

theorem fetches_empty {t : Tx} {p : Phys} {n : Nat} (h : t.writes = []) (hn : 0 < n) : t.fetches p n = true := by
  have hbit : (sectorMask p.pa n &&& ~~~(t.writeEntry (p.pa / 32)).wmask).getLsbD (p.pa % 32) = true := by
    have hlt : p.pa % 32 < 32 := by omega
    rw [Tx.writeEntry, h, BitVec.getLsbD_and, sectorMask, getLsbD_bytesMask, BitVec.getLsbD_not]
    simp [WriteEntry.new, hlt, hn]
  rw [Tx.fetches, bne_iff_ne]
  intro hzero
  rw [hzero] at hbit
  simp at hbit

/-- A lane that has stored nothing reads the bytes of memory. -/
theorem over_new {sect o n : Nat} {src : List Byte} (hn : src.length = n) : (WriteEntry.new sect).over o n src = src := by
  subst hn
  refine List.ext_getElem (by simp [WriteEntry.over, upto]) fun i hi hi' => ?_
  simp only [WriteEntry.over, WriteEntry.new, upto, List.getElem_map, List.getElem_range, BitVec.ofNat_eq_ofNat, BitVec.getLsbD_zero, Bool.false_eq_true,
    if_false]
  exact nth_eq_getElem _ hi'

section
variable {s : State} {k l va n : Nat} {w : Warp} {env : Env} {i : Instr} {p : Phys} {bs : List Byte} {c : CacheClass} {na : Bool} {t : Tx}

theorem laneStore_speculative (htx : (w.lane l).tx = some t) (hirr : t.irrevocable = false) : laneStore s k l env i va p bs c na w =
    match logStore t.writes env.wlog (p.pa / 32) (p.pa % 32) bs with
    | some log => .ok (s.noteWrite (s.launchKey w) va,
        w.setLane l { w.lane l with tx := some { t with writes := log, pages := insertNat (va / 2 ^ 16) t.pages } })
    | none => .ok (s, w.setLane l ((w.lane l).doom 4 0)) := by
  dsimp only [laneStore]
  rw [htx]
  dsimp only
  rw [hirr]
  rfl

/-- A load from bytes that the lane has stored reads them, and logs nothing (R297). -/
theorem txLoad_stored {u : State} {v : Bool} {e : WriteEntry} (h : t.writeEntry (p.pa / 32) = e.store (p.pa % 32) bs) (ho : p.pa % 32 + bs.length ≤ 32) :
    txLoad u env i v t va p bs.length = .ok (.ok (t, bs)) := by
  dsimp only [txLoad]
  rw [fetches_stored h rfl, h, over_store ho]
  rfl

section
variable (hwrites : t.writes = []) (hlock : tabFind s.locks (p.pa / 32) = none) (hpoison : s.physPoison p n = false) (hn : 0 < n)
include hwrites hlock hpoison hn

theorem txLoad_first {v : Bool} (hread : t.readEntry (p.pa / 32) = none) : txLoad s env i v t va p n =
    if env.rlog ≤ t.reads.length then .ok (.error 3)
    else .ok (.ok ({ t with reads := t.reads ++ [if v then ⟨p.pa / 32, 0, s.epoch (p.pa / 32), sectorMask p.pa n, s.bytesAt (p.pa / 32 * 32) 32⟩
        else ⟨p.pa / 32, s.versionSeen env.core (p.pa / 32), s.epoch (p.pa / 32), 0, []⟩] }, s.bytesAt p.pa n)) := by
  have hover : (t.writeEntry (p.pa / 32)).over (p.pa % 32) n (s.bytesAt p.pa n) = s.bytesAt p.pa n := by
    rw [Tx.writeEntry, hwrites]
    exact over_new (by simp [State.bytesAt, upto])
  dsimp only [txLoad]
  rw [fetches_empty hwrites hn, hlock, hpoison, hread, hover]
  rfl

theorem txLoad_again {r : ReadEntry} (hread : t.readEntry (p.pa / 32) = some r) : txLoad s env i false t va p n =
    if r.ver == s.versionSeen env.core (p.pa / 32) then .ok (.ok (t, s.bytesAt p.pa n)) else .ok (.error 2) := by
  have hover : (t.writeEntry (p.pa / 32)).over (p.pa % 32) n (s.bytesAt p.pa n) = s.bytesAt p.pa n := by
    rw [Tx.writeEntry, hwrites]
    exact over_new (by simp [State.bytesAt, upto])
  dsimp only [txLoad]
  rw [fetches_empty hwrites hn, hlock, hpoison, hread, hover]
  rfl

end
end

/-- Settles O39. -/
theorem speculativeAccesses : Obligations.SpeculativeAccesses := by
  intro s k l w env i va n p bs c na v t log r htx hirr x sect o stored
  refine ⟨fun hlog => ⟨?_, fun ho u => ?_⟩, fun hfull => ?_, fun hwrites hlock hpoison ho hn => ⟨fun hread hroom => ?_, fun hread hroom => ?_, fun hread hver => ?_,
    fun hread hver => ?_⟩⟩
  · rw [laneStore_speculative htx hirr, hlog]
  · refine txLoad_stored (e := (t.writes.find? fun e => e.sect == sect).getD (WriteEntry.new sect)) ?_ ho
    rw [Tx.writeEntry, writeEntry_logStore hlog, Option.getD_some]
  · rw [laneStore_speculative htx hirr, hfull]
  · exact (txLoad_first hwrites hlock hpoison hn hread).trans (if_neg (Nat.not_le.mpr hroom))
  · exact (txLoad_first hwrites hlock hpoison hn hread).trans (if_pos hroom)
  · exact (txLoad_again hwrites hlock hpoison hn hread).trans (if_pos (beq_iff_eq.mpr hver))
  · exact (txLoad_again hwrites hlock hpoison hn hread).trans (if_neg (by simpa using hver))

end Sys2Proof.Machine
end

section
/-! SUPPORT. `LAUNCH` and `COLL`: what the L1 side of a load leaves alone, the packets read one after another, and the checks of both (R369, R417). -/

namespace Sys2Proof.Machine

/-! ### What the L1 side of a load leaves alone -/

/-- A state that differs from `s` in lines of L1s and in messages alone. -/
def State.AsideL1 (s t : State) : Prop :=
  (∃ cs net, t = { s with cores := cs, net := net }) ∧ ∀ c, ∃ l1, t.core c = { s.core c with l1 := l1 }

namespace State.AsideL1

variable {s t u : State}

theorem refl (s : State) : s.AsideL1 s := ⟨⟨_, _, rfl⟩, fun _ => ⟨_, rfl⟩⟩

theorem trans (h : s.AsideL1 t) (h' : t.AsideL1 u) : s.AsideL1 u := by
  obtain ⟨⟨cs, net, rfl⟩, hcore⟩ := h
  obtain ⟨⟨cs', net', rfl⟩, hcore'⟩ := h'
  refine ⟨⟨cs', net', rfl⟩, fun c => ?_⟩
  obtain ⟨l, hl⟩ := hcore c
  obtain ⟨l', hl'⟩ := hcore' c
  exact ⟨l', by rw [hl', hl]⟩

theorem putCore (s : State) (c : Nat) (l1 : Tab L1Line) : s.AsideL1 { s with cores := tabSet s.cores c { s.core c with l1 := l1 } } := by
  refine ⟨⟨_, _, rfl⟩, fun j => ?_⟩
  by_cases hj : j = c
  · subst hj
    exact ⟨l1, tabGet_tabSet_self ..⟩
  · exact ⟨(s.core j).l1, tabGet_tabSet_ne _ _ _ hj⟩

theorem setL1 (s : State) (c line : Nat) (x : L1Line) : s.AsideL1 (s.setL1 c line x) := putCore ..
theorem dropL1 (s : State) (c line : Nat) : s.AsideL1 (s.dropL1 c line) := putCore ..

theorem send (s : State) (m : Msg) : s.AsideL1 (s.send m) := by
  unfold State.send
  split
  · exact refl s
  · exact ⟨⟨_, _, rfl⟩, fun _ => ⟨_, rfl⟩⟩

theorem evictL1 (s : State) (c line : Nat) (x : L1Line) : s.AsideL1 (s.evictL1 c line x) := by
  unfold State.evictL1
  split
  · exact dropL1 ..
  · exact (setL1 ..).trans (send ..)
  · exact (dropL1 ..).trans (send ..)
  · exact refl s

theorem roomL1 (s : State) (c line : Nat) : s.AsideL1 (s.roomL1 c line) := by
  unfold State.roomL1
  dsimp only
  repeat' split
  all_goals first | exact refl s | exact evictL1 ..

theorem l1Read (s : State) (core pa n : Nat) (cls : CacheClass) (na load : Bool) : s.AsideL1 (s.l1Read core pa n cls na load) := by
  unfold State.l1Read
  dsimp only
  split
  · split
    · exact send ..
    · exact ((roomL1 ..).trans (setL1 ..)).trans (send ..)
  · split
    · split
      · exact setL1 ..
      · exact (setL1 ..).trans (send ..)
    · split
      · exact setL1 ..
      · exact (setL1 ..).trans (send ..)
    · exact setL1 ..
    · exact setL1 ..
    · exact setL1 ..

theorem cached (h : s.AsideL1 t) (core ctx va : Nat) : t.cached core ctx va = s.cached core ctx va := by
  obtain ⟨⟨cs, net, rfl⟩, hcore⟩ := h
  obtain ⟨l, hl⟩ := hcore core
  rw [State.cached, State.cached, hl]

theorem translate (h : s.AsideL1 t) (core ctx va : Nat) (k : AccessKind) : t.translate core ctx va k = s.translate core ctx va k := by
  have hcached := h.cached core ctx va
  obtain ⟨⟨cs, net, rfl⟩, -⟩ := h
  have hin : ({ s with cores := cs, net := net } : State).inBacking ctx va = s.inBacking ctx va := rfl
  rw [State.translate, State.translate, State.translateAt, State.translateAt, hcached, hin]
  rfl

theorem lockFor (h : s.AsideL1 t) (k pa : Nat) : t.lockFor k pa = s.lockFor k pa := by
  obtain ⟨⟨cs, net, rfl⟩, -⟩ := h
  rfl

theorem poison (h : s.AsideL1 t) : t.poison = s.poison := by
  obtain ⟨⟨cs, net, rfl⟩, -⟩ := h
  rfl

end State.AsideL1

/-! ### LAUNCH -/

/-- Whether a lane's packet can be read at its address (R369). -/
def packetLegal (env : Env) (a : DWord) : Bool := decide (a.toNat % 64 = 0) && decide (placeOf env a.toNat 64 = .global)

theorem packetFault_eq (env : Env) (a : DWord) :
    packetFault env a = if packetLegal env a then none else some (if a.toNat % 64 = 0 then 0x09 else 0x08) := by
  unfold packetFault packetLegal
  by_cases hal : a.toNat % 64 = 0
  · by_cases hplace : placeOf env a.toNat 64 = .global
    · simp [hal, hplace]
    · simp [hal, hplace]
  · simp [hal]

/-- Steps that each succeed, where what they need is kept, are done one after another. -/
theorem foldE_ok {α β ε : Type} {f : β → α → Except ε β} {g : β → α → β} {P : β → Prop} :
    ∀ {ls : List α}, (∀ b, P b → ∀ x ∈ ls, f b x = .ok (g b x) ∧ P (g b x)) → ∀ b, P b → foldE f b ls = .ok (ls.foldl g b)
  | [], _, _, _ => rfl
  | x :: r, h, b, hb => by
    obtain ⟨hx, hp⟩ := h b hb x (.head _)
    rw [foldE, hx]
    exact foldE_ok (fun b hb y hy => h b hb y (.tail _ hy)) _ hp

section
variable {s : State} {k x : Nat} {w : Warp} {env : Env} {q : Nat → Phys}

/-- The packet of a lane read after those before it: the state, and the packets (R369). -/
def readNext (k : Nat) (env : Env) (w : Warp) (q : Nat → Phys) (r : State × List (List Byte)) (l : Nat) : State × List (List Byte) :=
  (r.1.loadTouch env.core (q l).pa 64 .normal false, r.2 ++ [w.overlay (physKey (q l)) (r.1.seenAt env.core k (q l).pa 64)])

theorem readPacket_ok {t : State} {l : Nat} {i : Instr} {a : DWord} (ht : s.AsideL1 t) (hreach : s.Reaches env a 64 .read (q l))
    (hpoison : isPoisoned s.poison (q l).pa 64 = false) (hlock : ∀ z ∈ sectorsOf (q l).pa 64, s.lockFor k (z * 32) = none) :
    readPacket t k l env w i a = .ok (t.loadTouch env.core (q l).pa 64 .normal false, w.overlay (physKey (q l)) (t.seenAt env.core k (q l).pa 64)) := by
  obtain ⟨-, -, htranslate, hfab⟩ := hreach
  have hlocks : ((sectorsOf (q l).pa 64).any fun z => (t.lockFor k (z * 32)).isSome) = false := by
    rw [List.any_eq_false]
    intro z hz
    rw [ht.lockFor, hlock z hz]
    exact Bool.false_ne_true
  have hfree : t.physPoison (q l) 64 = false := by rw [State.physPoison, hfab, ht.poison]; exact hpoison
  rw [readPacket, resolveGlobal_start ((ht.translate ..).trans htranslate)]
  dsimp only
  rw [hlocks, hfab, Bool.not_false, Bool.true_and, stopIf_false, hfree, stopIf_false, State.coreLoad, hfab]
  rfl

/-- The packets of lanes whose addresses are legal are read one after another. -/
theorem readPackets_ok {i : Instr} {ls : List Nat}
    (hread : ∀ l ∈ ls, s.Reaches env (w.packetAddr x l) 64 .read (q l) ∧ isPoisoned s.poison (q l).pa 64 = false
      ∧ ∀ z ∈ sectorsOf (q l).pa 64, s.lockFor k (z * 32) = none) :
    foldE (fun (r : State × List (List Byte)) l => (readPacket r.1 k l env w i (w.packetAddr x l)).map fun q => (q.1, r.2 ++ [q.2])) (s, []) ls
      = .ok (ls.foldl (readNext k env w q) (s, [])) := by
  refine foldE_ok (P := fun r => s.AsideL1 r.1) (fun r hr l hl => ?_) _ (.refl s)
  obtain ⟨hreach, hpoison, hlock⟩ := hread l hl
  refine ⟨?_, hr.trans (.l1Read ..)⟩
  rw [readPacket_ok hr hreach hpoison hlock]
  rfl

/-- The lanes that execute and whose packets can be read (R369). -/
def packetLanes (env : Env) (w : Warp) (x : Nat) : List Nat := (lanesOf w.width w.executing).filter fun l => packetLegal env (w.packetAddr x l)

/-- The warp with the lanes parked whose packet addresses are not legal (R369). -/
def packetFaults (env : Env) (w : Warp) (x : Nat) : Warp :=
  ((lanesOf w.width w.executing).filter fun l => !packetLegal env (w.packetAddr x l)).foldl
    (fun v l => v.faultLane l (if (w.packetAddr x l).toNat % 64 = 0 then 0x09 else 0x08) (w.packetAddr x l)) w

theorem packetFaults_eq : packetFaults env w x = (lanesOf w.width w.executing).foldl (fun v l => match packetFault env (w.packetAddr x l) with
    | some c => v.faultLane l c (w.packetAddr x l)
    | none => v) w := by
  rw [packetFaults, List.foldl_filter]
  congr 1
  funext v l
  rw [packetFault_eq]
  cases packetLegal env (w.packetAddr x l) <;> rfl

/-- The child grids of the packets read (R369). -/
def childrenOf (s : State) (env : Env) (w : Warp) (x : Launch) (ps : List (List Byte)) : List Child :=
  ps.map fun p => ⟨p, s.launchKey w, env.depth + 1, x.queue, env.ctx⟩

theorem launchGrids_ok {g : Launch} (htx : w.anyTx = false) (hlaunch : s.launchOf w = some g) (hnames : w.NamesOk env [x, x + 1]) (hdepth : env.depth ≠ 10)
    (hroom : s.pendingChildren + (packetLanes env w x).length ≤ 8192)
    (hread : ∀ l ∈ packetLanes env w x, s.Reaches env (w.packetAddr x l) 64 .read (q l) ∧ isPoisoned s.poison (q l).pa 64 = false
      ∧ ∀ z ∈ sectorsOf (q l).pa 64, s.lockFor k (z * 32) = none)
    (hrel : s.unreleased k w .device none = false ∨ (!(packetLanes env w x).isEmpty && !env.logs) = false) :
    launchGrids x s k env w = .ok
      (let r := (packetLanes env w x).foldl (readNext k env w q) (s, [])
      let w1 := packetFaults env w x
      if (packetLanes env w x).isEmpty then (s, w1)
      else if env.logs then (r.1, { w1 with detChildren := w1.detChildren ++ childrenOf s env w g r.2 }.taint)
      else ({ r.1 with children := r.1.children ++ childrenOf s env w g r.2 }, w1.taint)) := by
  have hgood : ((lanesOf w.width w.executing).filter fun l => (packetFault env (w.packetAddr x l)).isNone) = packetLanes env w x := by
    rw [packetLanes]
    congr 1
    funext l
    rw [packetFault_eq]
    cases packetLegal env (w.packetAddr x l) <;> rfl
  have hdeep : (!(lanesOf w.width w.executing).isEmpty && env.depth == 10) = false := by
    rw [beq_eq_false_iff_ne.mpr hdepth, Bool.and_false]
  have hfull : decide (maxChildren < s.pendingChildren + (packetLanes env w x).length) = false := decide_eq_false (Nat.not_lt.mpr hroom)
  dsimp only [launchGrids]
  rw [htx, stopIf_false, rangeCheck_ok hnames, hdeep, stopIf_false, hgood, hfull, stopIf_false, released_ok hrel, readPackets_ok hread, hlaunch, packetFaults_eq]
    <;> rfl

/-! ### COLL -/

/-- The collective that a `COLL` begins (R417). -/
def newCollective (s : State) (k : Nat) (env : Env) (w : Warp) (b y : Nat) : Collective :=
  ⟨CollDesc.ofBytes (s.seenBytes w (w.scal y).toNat 128), 0, k, w.team, env.ctx, (w.scal b).toNat, 0, ⟨0, [], 0, [], [], []⟩, none, false, none, []⟩

theorem coll_ok {b y : Nat} (htx : w.anyTx = false) (ho : s.ObjectOk env w (w.scal y) 64 128) (hal : (w.scal b).toNat % 16 = 0)
    (hn : (w.scal b).toNat + 16 ≤ env.shm) (hrel : s.unreleased k w .fabric none = false) (hroom : s.collectives.length < 64) :
    coll b y s k env w =
      let s1 : State := { s with nextId := s.nextId + 1, collectives := tabSet s.collectives s.nextId (newCollective s k env w b y) }
      .ok (if env.logs then
          match tabFind s1.launches (s1.launchKey w) with
          | some x => { s1 with launches := tabSet s1.launches (s1.launchKey w) { x with heldOps := x.heldOps ++ [s.nextId] } }
          | none => s1
        else s1.issueColl s.nextId (newCollective s k env w b y), w.taint) := by
  have hfull : decide (maxCollectives ≤ s.collectives.length) = false := decide_eq_false (Nat.not_le.mpr hroom)
  dsimp only [coll]
  rw [htx, stopIf_false, sharedObject_ok ho, sharedPlace_ok hal hn, released_ok (.inl hrel), hfull, stopIf_false]
  rfl

theorem tabFind_launchKey {g : Launch} (h : s.launchOf w = some g) : tabFind s.launches (s.launchKey w) = some g := by
  obtain ⟨tm, htm, hg⟩ := Option.bind_eq_some_iff.mp h
  rw [State.launchKey, htm]
  exact hg

end

/-- Settles O43: the packets are read lane by lane, in states that differ in L1 lines and messages alone. -/
theorem launchAndCollComplete : Obligations.LaunchAndCollComplete := by
  intro s k w env x b y l q hrun htx hlaunch ls addr legal good cause w1 read s1 new desc c
  have henv := hrun.2.2.1
  refine ⟨fun hnames hdepth hroom hread => ⟨fun hnone => ?_, fun hsome hdet hrel => ?_, fun hsome hdet => ?_⟩,
    fun ho hal hn hrel hroom => ⟨fun hdet => ?_, fun hdet => ?_⟩⟩
  · have hempty : (packetLanes env w x).isEmpty = true := List.isEmpty_iff.mpr hnone
    refine runs_issueMem hrun ((launchGrids_ok htx hlaunch hnames hdepth hroom hread (.inr (by rw [hempty]; rfl))).trans ?_)
    dsimp only
    rw [hempty]
    rfl
  · have hmany : (packetLanes env w x).isEmpty = false := List.isEmpty_eq_false_iff.mpr hsome
    refine runs_issueMem hrun ((launchGrids_ok htx hlaunch hnames hdepth hroom hread (.inl hrel)).trans ?_)
    dsimp only
    rw [hmany, logs_of_det hdet]
    rfl
  · have hmany : (packetLanes env w x).isEmpty = false := List.isEmpty_eq_false_iff.mpr hsome
    have hlogs : env.logs = true := (logs_eq_det (env?_meeting henv)).trans hdet
    refine runs_issueMem hrun ((launchGrids_ok htx hlaunch hnames hdepth hroom hread (.inr (by rw [hlogs, Bool.not_true, Bool.and_false]))).trans ?_)
    dsimp only
    rw [hmany, hlogs]
    rfl
  · refine runs_issueMem hrun ((coll_ok htx ho hal hn hrel hroom).trans ?_)
    rw [logs_of_det hdet]
    rfl
  · have hkey := tabFind_launchKey hlaunch
    refine runs_issueMem hrun ((coll_ok htx ho hal hn hrel hroom).trans ?_)
    rw [(logs_eq_det (env?_meeting henv)).trans hdet]
    dsimp only
    rw [if_pos rfl]
    change Except.ok ((match tabFind s.launches (s.launchKey w) with | some x => _ | none => _), _) = _
    rw [hkey]
    rfl

end Sys2Proof.Machine
end

section
/-! SUPPORT. The events of transactions: what `COMMIT_PHASE_1` and `COMMIT_PHASE_2` do in each phase, the locks of a lane at a home, and the choice among the
lanes of a warp (R299 to R303, R307, R313). -/

namespace Sys2Proof.Machine

/-! ### The phases of a commit -/

theorem onWarp_some {s : State} {k : Nat} {w : Warp} {f : Warp → State} (h : tabFind s.warps k = some w) : s.onWarp k f = .next (f w) := by
  rw [State.onWarp, h]

section
variable {s : State} {k h : Nat} {w : Warp} {c : Commit}

theorem badRead_of_phase (hphase : c.phase ≠ 1) : s.badRead w h c = none := by
  rw [State.badRead, beq_eq_false_iff_ne.mpr hphase, Bool.false_and]
  rfl

section
variable (hw : tabFind s.warps k = some w) (hc : w.commit = some c) (hslice : h ∈ c.slices)
include hw hc hslice

/-- A commit at one of its homes in phase 1, none of its read sectors poisoned or busy (R303). -/
theorem commitPhase1_eq (hphase : c.phase < 2) (hbad : s.badRead w h c = none)
    (hquiet : c.phase = 0 ∨ s.quietSectors (w.sectorsAt (fun t => t.reads.map (·.sect)) h c.passing) = true) :
    execCommitPhase1 k h s = .next
      (let p := s.phase1 k w h (c.phase == 0) c.lanes
      let c1 := { c with lanes := p.2, slices := c.slices.filter (· != h) }
      let w1 := { w with commit := some c1 }
      if !c1.slices.isEmpty then p.1.putWarp k w1 else if c.phase == 0 then p.1.beginValidation k w1 c1 else p.1.beginPhase2 k w1 c1) := by
  have hcond : (decide (c.phase < 2) && c.slices.contains h
      && (c.phase == 0 || s.quietSectors (w.sectorsAt (fun t => t.reads.map (·.sect)) h c.passing))) = true := by
    rw [decide_eq_true hphase, List.contains_iff_mem.mpr hslice, Bool.true_and, Bool.true_and, Bool.or_eq_true, beq_iff_eq]
    exact hquiet
  rw [execCommitPhase1, onWarp_some hw, hc]
  dsimp only
  rw [if_pos hcond, hbad]

theorem commitPhase2_eq (hphase : c.phase = 2) (hquiet : s.quietSectors (w.sectorsAt Tx.writeSet h c.passing) = true) :
    execCommitPhase2 k h s = .next
      (let s1 := c.passing.foldl (fun s l => s.phase2Lane k w h c.time l) s
      let c1 := { c with slices := c.slices.filter (· != h) }
      let w1 := { w with commit := some c1 }
      if c1.slices.isEmpty then s1.closeCommit k w1 c1 else s1.putWarp k w1) := by
  have hcond : (c.phase == 2 && c.slices.contains h && s.quietSectors (w.sectorsAt Tx.writeSet h c.passing)) = true := by
    rw [beq_iff_eq.mpr hphase, List.contains_iff_mem.mpr hslice, hquiet]
    rfl
  rw [execCommitPhase2, onWarp_some hw, hc]
  dsimp only
  rw [if_pos hcond]

theorem commitPhase2_recount (hphase : c.phase = 3) : execCommitPhase2 k h s = .next (s.recount k w c) := by
  rw [execCommitPhase2, onWarp_some hw, hc]
  dsimp only
  rw [hphase, List.contains_iff_mem.mpr hslice]
  rfl

end
end

theorem ite_isEmpty {α β : Type} (l : List α) (x y : β) : (if l.isEmpty then x else y) = if l = [] then x else y := by
  cases l <;> rfl

theorem ite_not_isEmpty {α β : Type} (l : List α) (x y : β) : (if !l.isEmpty then x else y) = if l = [] then y else x := by
  cases l <;> rfl

/-! ### The locks of a lane at a home -/

/-- The locks of a list of sectors, one after another; one that is held ends them all (R303). -/
def lockAll (k l : Nat) (o : Option State) (xs : List Nat) : Option State := xs.foldl (fun o x => o.bind fun s => lockForCommit k l s x) o

theorem lockAll_none (k l : Nat) (xs : List Nat) : lockAll k l none xs = none := by
  induction xs with
  | nil => rfl
  | cons x r ih => exact ih

theorem lockAll_held {k l x : Nat} {xs : List Nat} : ∀ {s : State}, x ∈ xs → tabFind s.locks x ≠ none → lockAll k l (some s) xs = none := by
  induction xs with
  | nil => exact fun hx => nomatch hx
  | cons y r ih =>
    intro s hx hheld
    change lockAll k l (lockForCommit k l s y) r = none
    unfold lockForCommit
    cases hy : tabFind s.locks y with
    | some z => exact lockAll_none ..
    | none =>
      have hne : x ≠ y := fun heq => hheld (heq ▸ hy)
      refine ih (List.mem_of_ne_of_mem hne hx) ?_
      change tabFind (tabSet s.locks y _) x ≠ none
      rw [tabFind_tabSet_ne _ _ hne]
      exact hheld

theorem lockAll_free {k l : Nat} {xs : List Nat} : ∀ {s : State}, xs.Nodup → (∀ x ∈ xs, tabFind s.locks x = none) →
    ∃ t, lockAll k l (some s) xs = some t ∧ (∀ x ∈ xs, tabFind t.locks x = some ⟨k, l, false, 1⟩) ∧ ∀ x ∉ xs, tabFind t.locks x = tabFind s.locks x := by
  induction xs with
  | nil => exact fun _ _ => ⟨_, rfl, fun _ hx => (nomatch hx), fun _ _ => rfl⟩
  | cons y r ih =>
    intro s hnd hfree
    obtain ⟨hy, hr⟩ := List.nodup_cons.mp hnd
    have hstep : lockForCommit k l s y = some { s with locks := tabSet s.locks y ⟨k, l, false, 1⟩ } := by
      rw [lockForCommit, hfree y (.head _)]
    have hne {x : Nat} (hx : x ∈ r) : x ≠ y := fun heq => hy (heq ▸ hx)
    obtain ⟨t, ht, hin, hout⟩ := ih (s := { s with locks := tabSet s.locks y ⟨k, l, false, 1⟩ }) hr fun x hx =>
      (tabFind_tabSet_ne _ _ (hne hx)).trans (hfree x (.tail _ hx))
    refine ⟨t, ?_, fun x hx => ?_, fun x hx => ?_⟩
    · change lockAll k l (lockForCommit k l s y) r = some t
      rw [hstep, ht]
    · rcases List.mem_cons.mp hx with rfl | hx
      · exact (hout x hy).trans (tabFind_tabSet_self ..)
      · exact hin x hx
    · rw [List.mem_cons, not_or] at hx
      exact (hout x hx.2).trans (tabFind_tabSet_ne _ _ hx.1)

theorem lockLane_eq {s : State} {k h l : Nat} {w : Warp} {t : Tx} (ht : w.tx? l = some t) (hirr : t.irrevocable = false) :
    s.lockLane k w h l = match lockAll k l (some s) ((t.writes.map (·.sect)).filter fun x => homeOf (x * 32) == h) with
      | none => (s, false)
      | some s1 => (s1, true) := by
  rw [State.lockLane, ht]
  dsimp only
  rw [hirr]
  rfl

/-! ### The choice among the lanes of a warp -/

/-- What the unit of `TXEND` makes of a list of lanes, `kept` and `lost` being those before them (R302). -/
theorem intraWarp_spec (w : Warp) (ls : List Nat) : ∀ kept lost : List Nat, kept.Pairwise (fun a b => w.laneMeets b a = false) →
    (∀ l ∈ lost, ∃ m ∈ kept, w.laneMeets l m = true) →
    let r := intraWarp w ls kept lost
    (∀ l, l ∈ r.1 ∨ l ∈ r.2 ↔ (l ∈ kept ∨ l ∈ lost) ∨ l ∈ ls) ∧ (∀ l ∈ r.1, l ∈ kept ∨ l ∈ ls) ∧ (∀ l ∈ r.2, l ∈ lost ∨ l ∈ ls)
    ∧ r.1.Pairwise (fun a b => w.laneMeets b a = false) ∧ ∀ l ∈ r.2, ∃ m ∈ r.1, w.laneMeets l m = true := by
  induction ls with
  | nil => exact fun kept lost hk hl => ⟨fun l => by simp [intraWarp], fun l => .inl, fun l => .inl, hk, hl⟩
  | cons x r ih =>
    intro kept lost hk hl
    unfold intraWarp
    split
    · next hmeets =>
      obtain ⟨m, hm, hxm⟩ := List.any_eq_true.mp hmeets
      obtain ⟨hall, hkept, hlost, hpair, hwhy⟩ := ih kept (lost ++ [x]) hk fun l hin => by
        rcases List.mem_append.mp hin with hin | hin
        · exact hl l hin
        · exact ⟨m, hm, List.mem_singleton.mp hin ▸ hxm⟩
      refine ⟨fun l => (hall l).trans (by simp [or_assoc, or_left_comm]), fun l h => (hkept l h).imp_right (.tail _), fun l h => ?_, hpair, hwhy⟩
      simpa [or_assoc] using hlost l h
    · next hmeets =>
      have hfree : ∀ m ∈ kept, w.laneMeets x m = false := fun m hm => Bool.not_eq_true _ |>.mp fun hxm => hmeets (List.any_eq_true.mpr ⟨m, hm, hxm⟩)
      obtain ⟨hall, hkept, hlost, hpair, hwhy⟩ := ih (kept ++ [x]) lost
        (List.pairwise_append.mpr ⟨hk, List.pairwise_singleton .., fun a ha b hb => List.mem_singleton.mp hb ▸ hfree a ha⟩)
        fun l hin => (hl l hin).imp fun m hm => ⟨List.mem_append_left _ hm.1, hm.2⟩
      refine ⟨fun l => (hall l).trans (by simp [or_assoc, or_left_comm, or_comm]), fun l h => ?_, fun l h => (hlost l h).imp_right (.tail _), hpair, hwhy⟩
      simpa [or_assoc] using hkept l h

/-- Settles O47. -/
theorem transactionEvents : Obligations.TransactionEvents := by
  refine ⟨fun s k l w t hw ht hirr hdoomed hcommit htime => ?_, fun s k l w r htoken hqueue hw => ⟨fun hst => ?_, fun hst => ?_⟩,
    fun s k h w c hw hc hslice => ⟨fun hphase => ?_, fun hphase hbad hquiet => ?_, fun hphase hquiet => ?_, commitPhase2_recount hw hc hslice⟩,
    fun s k h l w t ht hirr => ⟨fun hnd hfree => ?_, fun x hx hheld => ?_⟩, fun w ls => ?_⟩
  · have hcond : (!t.irrevocable && t.doomed.isNone && w.commit.isNone && decide (t.opened + txLimit ≤ s.clock)) = true := by
      rw [hirr, hdoomed, hcommit, decide_eq_true (show t.opened + txLimit ≤ s.clock from htime)]
      rfl
    refine (onWarp_some hw).trans (congrArg _ ?_)
    rw [ht]
    exact if_pos hcond
  · change execIrrevocabilityTokenGrant s = _
    rw [execIrrevocabilityTokenGrant, htoken, hqueue]
    dsimp only
    rw [hw]
    exact congrArg _ (if_pos (beq_iff_eq.mpr hst))
  · change execIrrevocabilityTokenGrant s = _
    rw [execIrrevocabilityTokenGrant, htoken, hqueue]
    dsimp only
    rw [hw]
    exact congrArg _ (if_neg (by simpa using hst))
  · refine (commitPhase1_eq hw hc hslice (by omega) (badRead_of_phase (by omega)) (.inl hphase)).trans (congrArg _ ?_)
    dsimp only
    rw [ite_not_isEmpty, hphase]
    rfl
  · refine (commitPhase1_eq hw hc hslice (by omega) hbad (.inr hquiet)).trans (congrArg _ ?_)
    dsimp only
    rw [ite_not_isEmpty, hphase]
    rfl
  · refine (commitPhase2_eq hw hc hslice hphase hquiet).trans (congrArg _ ?_)
    dsimp only
    rw [ite_isEmpty]
  · obtain ⟨t', hlock, hin, hout⟩ := lockAll_free (k := k) (l := l) hnd hfree
    have heq : s.lockLane k w h l = (t', true) := by rw [lockLane_eq ht hirr, hlock]
    rw [heq]
    exact ⟨rfl, hin, hout⟩
  · rw [lockLane_eq ht hirr, lockAll_held hx hheld]
  · obtain ⟨hall, hkept, hlost, hpair, hwhy⟩ := intraWarp_spec w ls [] [] .nil (fun _ h => (nomatch h))
    refine ⟨fun l hl => (hall l).mpr (.inr hl), fun l hl => ?_, fun l hl => ⟨?_, hwhy l hl⟩, hpair⟩
    · simpa using hkept l hl
    · simpa using hlost l hl

end Sys2Proof.Machine
end

section
/-! SUPPORT. One step, and the instructions of transactions: the turn of a warp that issues, the checks of `TXEND` and `TXENDO`, `TXABORT` and `TXSTAT`, and the
events of transactions (R69, R161, R299 to R313). -/

namespace Sys2Proof.Machine

/-! ### One step -/

/-- A turn that comes to the fetch: nothing is due before the instruction (R28, R39, R161, R300). -/
structure Fetches (s : State) (k : Nat) (w : Warp) (x : Launch) (ws : List Nat) : Prop where
  turn : s.turnWarp = some (k, w, x)
  stops : s.stopsNow w = false
  due : w.handlerDue = false
  settledDue : w.settled.handlerDue = false
  restart : s.restartDue k w.settled = false
  words : s.fetch x w.settled = .ok ws

theorem turnOf_fetches {s : State} {k : Nat} {w : Warp} {x : Launch} {ws : List Nat} (h : Fetches s k w x ws) :
    s.turnOf k w x = match s.fetchBad x w.settled ws.length with
      | some a => .over (s.abortLaunch w.settled 0x11 false false false w.settled.pc a w.settled.active)
      | none => s.begin k w.settled ws := by
  obtain ⟨-, hstops, hdue, hsettled, hrestart, hwords⟩ := h
  unfold State.turnOf
  rw [hstops, hdue]
  dsimp only
  rw [hsettled, hrestart, hwords]
  rfl

theorem step_of_turn {s : State} {k : Nat} {w : Warp} {x : Launch} (h : ({ s with tick := s.tick + 1 } : State).turnWarp = some (k, w, x)) :
    step s = takeTurn (({ s with tick := s.tick + 1 } : State).turnOf k w x) := by
  unfold step State.oneStep
  dsimp only
  rw [h]

theorem step_of_no_turn {s : State} (h : ({ s with tick := s.tick + 1 } : State).turnWarp = none) :
    step s = match ({ s with tick := s.tick + 1 } : State).nextInput with
      | some i => exec i { s with tick := s.tick + 1, turn := none, agenda := s.agenda.erase i }
      | none => State.background { s with tick := s.tick + 1, turn := none } := by
  unfold step State.oneStep
  dsimp only
  rw [h]
    <;> rfl

/-- Settles O5. -/
theorem stepRunsDecoded : Obligations.StepRunsDecoded := by
  intro s k w x ws d e i s0 v s1
  refine ⟨fun hturn hstops hdue hsettled hrestart hwords => ?_, fun hturn hinput => ?_, fun hturn hinput => ?_⟩
  · have hof := turnOf_fetches ⟨hturn, hstops, hdue, hsettled, hrestart, hwords⟩
    refine ⟨fun hbad hd => ?_, fun hbad he => ?_, fun a hbad => ?_⟩
    · rw [step_of_turn hturn, hof, hbad]
      dsimp only [State.begin]
      rw [hd]
      rfl
    · rw [step_of_turn hturn, hof, hbad]
      dsimp only [State.begin]
      rw [he]
      rfl
    · rw [step_of_turn hturn, hof, hbad]
      rfl
  · rw [step_of_no_turn hturn, hinput]
  · rw [step_of_no_turn hturn, hinput]

/-! ### TXEND and TXENDO -/

/-- The transactions of the active lanes are all ordered, or all plain, and there is one (R302). -/
def Warp.OpenAre (w : Warp) (ordered : Bool) : Prop := w.openLanes ≠ [] ∧ ∀ l ∈ w.openLanes, ∀ t, w.tx? l = some t → t.ordered = ordered

/-- The checks of a commit pass (R302). -/
structure CommitMay (s : State) (k : Nat) (w : Warp) (r : Restart) : Prop where
  restart : w.restart = some r
  depth : w.stack.length = r.depth
  room : w.stack.length < 160 ∨ r.joined = true ∧ w.stack.head?.map (·.rpc) = some (w.pc + 4)
  released : s.unreleased k w .device none = false

section
variable {s : State} {k : Nat} {w : Warp} {env : Env} {r : Restart}

theorem commitChecks_ok {α : Type} {ordered : Bool} (hopen : w.OpenAre ordered) (h : CommitMay s k w r) (f : Restart → Except Stop α) :
    commitChecks ordered env w f = f r := by
  obtain ⟨hne, hkind⟩ := hopen
  obtain ⟨hrestart, hdepth, hroom, -⟩ := h
  have hlegal : (w.openLanes.isEmpty || w.openLanes.any fun l => match w.tx? l with
      | some t => t.ordered != ordered
      | none => false) = false := by
    rw [List.isEmpty_eq_false_iff.mpr hne, Bool.false_or, List.any_eq_false]
    intro l hl
    cases ht : w.tx? l with
    | none => exact Bool.false_ne_true
    | some t => simpa using hkind l hl t ht
  have hfits : (!(r.joined && (w.stack.head?.map (·.rpc)) == some (w.pc + 4)) && decide (stackDepth < w.stack.length + 1)) = false := by
    rcases hroom with hroom | ⟨hjoined, hhead⟩
    · rw [decide_eq_false (show ¬ stackDepth < w.stack.length + 1 by unfold stackDepth; omega), Bool.and_false]
    · rw [hjoined, hhead, beq_self_eq_true]
      rfl
  unfold commitChecks
  refine (congrArg (fun b => stopIf b _ _) hlegal).trans ?_
  rw [stopIf_false, hrestart]
  dsimp only
  rw [hdepth, bne_self_eq_false, stopIf_false, ← hdepth, hfits, stopIf_false]

/-- The commit that a `TXEND` or `TXENDO` begins. -/
def begunCommit (w : Warp) (ordered : Bool) (kept : List Nat) (aborted : List (Nat × Nat)) (undecided : List Nat) (next : Nat) : Commit :=
  ⟨ordered, 0, kept.map fun l => ⟨l, true⟩, aborted, undecided, slicesOf (w.sectorsOfLanes kept), 0, next⟩

/-- The unit of `TXEND`: the irrevocable lane first (R302). -/
def txendUnit (w : Warp) : List Nat × List Nat :=
  let sound := w.openLanes.filter fun l => !(w.lane l).isDoomed
  intraWarp w ((sound.filter fun l => !(w.lane l).speculative) ++ sound.filter fun l => (w.lane l).speculative) [] []

theorem txend_ok (hopen : w.drain.OpenAre false) (h : CommitMay s k w.drain r) :
    txend s k env w.drain = .ok (stayWith (s.beginCommit k w.drain (begunCommit w.drain false (txendUnit w.drain).1
      (((w.drain.openLanes.filter fun l => (w.drain.lane l).isDoomed).map fun l => (l, (w.drain.doomOf l).1)) ++ (txendUnit w.drain).2.map fun l => (l, 1)) [] 0))
      k w.drain) := by
  dsimp only [txend]
  rw [drain_drain, commitChecks_ok hopen h, released_ok (.inl h.released)]
  rfl

/-- What `TXENDO` does once it has read NEXTCOMMIT (R313). -/
def txendoTurn (s : State) (k : Nat) (w : Warp) (next : Nat) : Effect :=
  let run := w.consecutive next (w.byIter w.openLanes)
  let turn := orderedRun w run.1 []
  if run.1.isEmpty then .ok (s, { w with status := .waiting (.turn true) }, .stay)
  else .ok (stayWith (s.beginCommit k w (begunCommit w true turn.1 turn.2 run.2 next)) k w)

theorem txendo_reads (hopen : w.drain.OpenAre true) (h : CommitMay s k w.drain r) :
    txendo s k env w.drain = readTurn s k env w.drain (slalomPhys (w.drain.slalomOf (w.drain.byIter w.drain.openLanes))) (txendoTurn s k w.drain) := by
  dsimp only [txendo]
  rw [drain_drain, commitChecks_ok hopen h, released_ok (.inl h.released)]
  rfl

theorem txabort_ok {c : Nat} (h : ∀ l ∈ (lanesOf w.width w.executing).filter fun l => (w.tx? l).isSome, (w.lane l).speculative = true) :
    txabort c w = .ok (((lanesOf w.width w.executing).filter fun l => (w.tx? l).isSome).foldl (fun w l => w.setLane l ((w.lane l).doom 5 c)) w) := by
  have hheld : (((lanesOf w.width w.executing).filter fun l => (w.tx? l).isSome).filter fun l => !(w.lane l).speculative) = [] := by
    rw [List.filter_eq_nil_iff]
    intro l hl
    rw [h l hl]
    exact Bool.false_ne_true
  dsimp only [txabort]
  rw [hheld]
  rfl

theorem txstat_ok {d p : Nat} (h : w.NamesOk env [d]) : txstat d p env w =
    .ok (((w.eachLane w.executing fun l => .ok (w.putVal .i32 l d (w.lane l) ((w.lane l).txstat % 2 ^ 32), noFlags)).dropLatches
      [d]).setPred p (mergeMask w.executing (w.pred p) (maskOf ((lanesOf w.width w.executing).filter fun l =>
        (w.tx? l).isSome && !(w.lane l).isDoomed)))) := by
  dsimp only [txstat]
  rw [rangeCheck_ok h]

end

section
variable {s : State} {k : Nat} {w : Warp} {env : Env} {r : Restart} (hrun : s.Runs k w env)
include hrun

theorem exec_txendoTurn {f : Effect} (next : Nat) (hread : txendo s k env w.drain = f) (hf : f = txendoTurn s k w.drain next) :
    let run := w.drain.consecutive next (w.drain.byIter w.drain.openLanes)
    let turn := orderedRun w.drain run.1 []
    (run.1 = [] → exec .txendo s = .next (s.ends k { w.drain with status := .waiting (.turn true) } .stay))
    ∧ (run.1 ≠ [] → exec .txendo s =
      let s1 := s.beginCommit k w.drain (begunCommit w.drain true turn.1 turn.2 run.2 next)
      .next (s1.ends k ((tabFind s1.warps k).getD w.drain) .stay)) := by
  refine ⟨fun hnone => runs_issueParked hrun ((hread.trans hf).trans ?_), fun hsome => runs_issueParked hrun ((hread.trans hf).trans ?_)⟩
  · exact if_pos (List.isEmpty_iff.mpr hnone)
  · exact if_neg (by rw [List.isEmpty_eq_false_iff.mpr hsome]; exact Bool.false_ne_true)

end

/-! ### Time limits and the phases of a commit -/

theorem tx?_setLane_doom {w : Warp} {l : Nat} {t : Tx} (ht : w.tx? l = some t) (cause code : Nat) :
    (w.setLane l ((w.lane l).doom cause code)).tx? l = some { t with doomed := some (cause, code) } := by
  have hlt : l < w.lanes.length := by
    by_contra hge
    have hstart : w.lane l = Lane.start := nth_of_length_le (Nat.not_lt.mp hge)
    rw [Warp.tx?, hstart] at ht
    cases ht
  change ((w.setLane l ((w.lane l).doom cause code)).lane l).tx = _
  rw [lane_setLane_self _ hlt, Lane.doom]
  change (w.tx? l).map _ = _
  rw [ht]
  rfl

theorem leaves_of_left {s : State} {k h j : Nat} {w : Warp} {c : Commit} {u v : State} {ls : List CommitLane} (hj : j ∈ c.slices) (hne : j ≠ h)
    (hu : u = if (c.slices.filter (· != h)) = [] then v else
      s.putWarp k { w with commit := some { c with lanes := ls, slices := c.slices.filter (· != h) } }) :
    ∃ v x, tabFind u.warps k = some v ∧ v.commit = some x ∧ x.phase = c.phase ∧ h ∉ x.slices ∧ j ∈ x.slices := by
  have hleft : j ∈ c.slices.filter (· != h) := List.mem_filter.mpr ⟨hj, by simpa using hne⟩
  rw [if_neg (List.ne_nil_of_mem hleft)] at hu
  subst hu
  exact ⟨_, _, tabFind_tabSet_self .., rfl, rfl, by simp, hleft⟩

/-- Settles O40. -/
theorem transactionsComplete : Obligations.TransactionsComplete := by
  refine ⟨fun s k w env r d p c hrun => ?_, fun s k l w t hw ht hirr hdoomed hcommit htime => ?_, fun s k l w r htoken hqueue hw => ?_,
    fun s k h w c hw hc hslice => ⟨fun hphase => ?_, fun hphase hquiet => ?_⟩⟩
  · refine ⟨fun hopen hchecked => ?_, fun hopen hchecked => ?_, fun hspec => runs_issue hrun (txabort_ok hspec), fun hnames => runs_issue hrun (txstat_ok hnames)⟩
    · obtain ⟨hrestart, hdepth, hroom, hrel⟩ := hchecked
      exact runs_issueParked hrun (txend_ok hopen ⟨hrestart, hdepth, hroom, hrel⟩)
    · obtain ⟨hrestart, hdepth, hroom, hrel⟩ := hchecked
      have hreads := txendo_reads (env := env) hopen ⟨hrestart, hdepth, hroom, hrel⟩
      refine ⟨fun hfab hwaits => ?_, fun hfab hwaits hpoison => ?_, fun hfab hlost => ⟨fun bs hanswer => ?_, fun hanswer => ?_⟩⟩
      · refine runs_issueParked hrun (hreads.trans ?_)
        dsimp only [readTurn]
        rw [hfab, hwaits]
        rfl
      · refine exec_txendoTurn hrun _ hreads ?_
        dsimp only [readTurn]
        rw [hfab, hwaits, hpoison]
        rfl
      · refine exec_txendoTurn hrun _ hreads ?_
        dsimp only [readTurn]
        rw [hfab, hlost, hanswer]
        rfl
      · refine issueParked_stops (n := 4) (e := .remote 64 (slalomPhys (w.drain.slalomOf (w.drain.byIter w.drain.openLanes))).pkg
          (.load ((slalomPhys (w.drain.slalomOf (w.drain.byIter w.drain.openLanes))).pa + 8) 16) 0) hrun (hreads.trans ?_)
        dsimp only [readTurn]
        rw [hfab, hlost, hanswer]
        rfl
  · obtain ⟨htimeout, -⟩ := transactionEvents
    exact ⟨_, _, htimeout s k l w t hw ht hirr hdoomed hcommit htime, tabFind_tabSet_self .., tx?_setLane_doom ht 10 0⟩
  · obtain ⟨-, hgrant, -⟩ := transactionEvents
    obtain ⟨hwaiting, hother⟩ := hgrant s k l w r htoken hqueue hw
    by_cases hst : w.status = .waiting .token
    · exact ⟨_, hwaiting hst, rfl, rfl⟩
    · exact ⟨_, hother hst, rfl, rfl⟩
  · obtain ⟨-, -, hphases, -⟩ := transactionEvents
    obtain ⟨hlock, hvalid, -⟩ := hphases s k h w c hw hc hslice
    rcases hphase with hphase | ⟨hphase, hquiet, hbad⟩
    · exact ⟨_, hlock hphase, fun j hj hne => leaves_of_left hj hne rfl⟩
    · exact ⟨_, hvalid hphase hbad hquiet, fun j hj hne => leaves_of_left hj hne rfl⟩
  · obtain ⟨-, -, hphases, -⟩ := transactionEvents
    obtain ⟨-, -, hwrite, -⟩ := hphases s k h w c hw hc hslice
    exact ⟨_, hwrite hphase hquiet, fun j hj hne => leaves_of_left hj hne rfl⟩

end Sys2Proof.Machine
end

section
/-! SUPPORT. `SPAWN` and `SPAWNO`, and the instructions of message queues (R184, R185, R250 to R261, R312). -/

namespace Sys2Proof.Machine

/-! ### SPAWN and SPAWNO -/

/-- The checks of `SPAWN` and `SPAWNO` pass (R185). -/
structure SpawnMay (s : State) (env : Env) (w : Warp) (x y budget : Nat) (l : Launch) : Prop where
  noTx : w.anyTx = false
  launch : s.launchOf w = some l
  aligned : (w.scal y).toNat % 4 = 0
  entry : s.funcBudget l (w.scal y).toNat = some budget
  budget : budget ≤ env.budget
  names : w.NamesOk env [x, x + 1, x + 2, x + 3]

/-- The empty bin of a new key. -/
def freshBin (s : State) (w : Warp) (y : Nat) (l : Launch) (slalom : Option DWord) : SpawnBin :=
  ⟨w.team, w.scal y, slalom, [], s.clock, s.clock + l.spawnTimer, false⟩

section
variable {s : State} {k x y sb budget : Nat} {w : Warp} {env : Env} {l : Launch} {c : Core} {p : Phys}

theorem spawnChecks_ok {α : Type} (h : SpawnMay s env w x y budget l) (f : DWord → Except Stop α) : spawnChecks x y s env w f = f (w.scal y) := by
  obtain ⟨-, hlaunch, halign, hentry, hbudget, hnames⟩ := h
  have hlegal : (if (w.scal y).toNat % 4 == 0 then (s.launchOf w).bind fun l => s.funcBudget l (w.scal y).toNat else none) = some budget := by
    rw [halign, hlaunch]
    exact hentry
  dsimp only [spawnChecks]
  rw [hlegal, Option.isNone_some, stopIf_false, Option.getD_some, decide_eq_false (Nat.not_lt.mpr hbudget), stopIf_false]
  exact rangeCheck_ok hnames _

theorem spawnThreads_ok {i : Instr} {slalom : Option DWord} {ts : List SpawnThread} (hlaunch : s.launchOf w = some l)
    (h : (s.core w.core).spawn w.width (freshBin s w y l slalom) ts = some c) :
    spawnThreads i (w.scal y) slalom ts s w = .ok { s with cores := tabSet s.cores w.core c } := by
  dsimp only [spawnThreads]
  rw [hlaunch]
  change (match (s.core w.core).spawn w.width (freshBin s w y l slalom) ts with
    | some c => _
    | none => _) = _
  rw [h]

theorem spawn_none (h : SpawnMay s env w x y budget l) (hls : lanesOf w.width w.executing = []) : spawn x y s k env w = .ok (s, w) := by
  dsimp only [spawn]
  rw [h.noTx, stopIf_false, spawnChecks_ok h, hls]
  rfl

theorem spawn_some (h : SpawnMay s env w x y budget l) (hls : lanesOf w.width w.executing ≠ [])
    (hc : (s.core w.core).spawn w.width (freshBin s w y l none) ((lanesOf w.width w.executing).map fun l => ⟨w.spawnArgs x l, 0⟩) = some c) :
    spawn x y s k env w = .ok ({ s with cores := tabSet s.cores w.core c }, w.taint) := by
  have hsome : ((lanesOf w.width w.executing).map fun l => (⟨w.spawnArgs x l, 0⟩ : SpawnThread)).isEmpty = false := by
    rw [List.isEmpty_map]
    exact List.isEmpty_eq_false_iff.mpr hls
  dsimp only [spawn]
  rw [h.noTx, stopIf_false, spawnChecks_ok h, if_neg (by rw [hsome]; exact Bool.false_ne_true), spawnThreads_ok h.launch hc]
  rfl

/-- The threads of the iterations taken, `n` from `first` on (R312). -/
def takenThreads (w : Warp) (x first n : Nat) : List SpawnThread :=
  (upto n).map fun j => ⟨w.spawnArgs x (nth (lanesOf w.width w.executing) j 0), BitVec.ofNat 64 (first + j)⟩

/-- What a `SPAWNO` does with the iterations that it has taken; `f` follows (R312). -/
def spawnTaken (i : Instr) (x y : Nat) (p : Phys) (s : State) (w : Warp) (taken : Nat × Nat) (f : State → State) : Except Stop (State × Warp) :=
  if taken.2 == 0 then .ok (f s, w)
  else (spawnThreads i (w.scal y) (some (slalomRef p)) (takenThreads w x taken.1 taken.2) s w).map fun s1 => (f s1, w.taint)

section
variable (h : SpawnMay s env w x y budget l) (hdet : env.det = false) (hal : (w.scal sb).toNat % 32 = 0)
  (hplace : placeOf env (w.scal sb).toNat 8 = .global) (htranslate : s.translate env.core env.ctx (w.scal sb).toNat .readWrite = .ok p)
include h hdet hal hplace htranslate

theorem spawno_place : spawno x y sb s k env w =
    match s.answerTo (.warp k) 64 p.pkg (.claim p.pa (lanesOf w.width w.executing).length) with
    | some (bs, bad) => stopIf bad (.abort 0x11 (w.scal sb))
        (spawnTaken (.spawno x y sb) x y p s w (fieldAt bs 0 8, fieldAt bs 8 8) fun s1 => s1.noteWrite (s.launchKey w) (w.scal sb).toNat)
    | none =>
      stopIf (p.fab && s.lostPeer p.pkg) (.abort 0x10 (w.scal sb)) <|
      stopIf (s.homeWaits false env.core k p 24) (.wait (.retry (.spawno x y sb))) <|
      stopIf (s.physPoison p 24) (.abort 0x11 (w.scal sb)) <|
      if p.fab then .error (.remote 64 p.pkg (.claim p.pa (lanesOf w.width w.executing).length) (w.scal sb).toNat)
      else spawnTaken (.spawno x y sb) x y p s w (s.slalomNext p.pa (lanesOf w.width w.executing).length) fun s1 =>
        (s1.claim p.pa (lanesOf w.width w.executing).length).noteWrite (s.launchKey w) (w.scal sb).toNat := by
  have h8 : (w.scal sb).toNat % 8 = 0 := by omega
  dsimp only [spawno]
  rw [h.noTx, hdet, Bool.or_false, stopIf_false, spawnChecks_ok h, hal, bne_self_eq_false, stopIf_false, resolveHome_of_global h8 hplace htranslate]
  rfl

end

theorem spawnTaken_none {i : Instr} {first : Nat} {f : State → State} : spawnTaken i x y p s w (first, 0) f = .ok (f s, w) := rfl

theorem spawnTaken_some {i : Instr} {first n : Nat} {f : State → State} (hlaunch : s.launchOf w = some l) (hn : n ≠ 0)
    (hc : (s.core w.core).spawn w.width (freshBin s w y l (some (slalomRef p))) (takenThreads w x first n) = some c) :
    spawnTaken i x y p s w (first, n) f = .ok (f { s with cores := tabSet s.cores w.core c }, w.taint) := by
  unfold spawnTaken
  dsimp only
  rw [if_neg (by simpa using hn), spawnThreads_ok hlaunch hc]
  rfl

theorem claim_none {pa n first : Nat} (h : s.slalomNext pa n = (first, 0)) : s.claim pa n = s.homeRead pa 24 := by
  dsimp only [State.claim]
  rw [h]
  rfl

theorem claim_some {pa n first m : Nat} (h : s.slalomNext pa n = (first, m)) (hm : m ≠ 0) : s.claim pa n = s.homeStore pa (leBytes 8 (first + m)) .normal := by
  dsimp only [State.claim]
  rw [h, if_neg (by simpa using hm)]

end

/-- Settles O41. -/
theorem spawnsComplete : Obligations.SpawnsComplete := by
  intro s k w env x y sb budget l c p hrun e ls fresh next m taken goes htx hlaunch hentry hfunc hbudget hnames
  have hmay : SpawnMay s env w x y budget l := ⟨htx, hlaunch, hentry, hfunc, hbudget, hnames⟩
  refine ⟨fun hls => runs_issueMem hrun (spawn_none hmay hls), fun hls hc => runs_issueMem hrun (spawn_some hmay hls hc),
    fun hdet hal hreach hwaits hanswers hpoison => ?_, ?_⟩
  · obtain ⟨-, hplace, htranslate, hfab⟩ := hreach
    have href : slalomRef p = BitVec.ofNat 64 p.pa := by rw [slalomRef, hfab]; rfl
    have hnext : s.slalomNext p.pa ls.length = (next, m) := rfl
    have hspawno : spawno x y sb s k env w = spawnTaken (.spawno x y sb) x y p s w (next, m) fun s1 =>
        (s1.claim p.pa ls.length).noteWrite (s.launchKey w) (w.scal sb).toNat := by
      rw [spawno_place hmay hdet hal hplace htranslate, answerTo_eq_none hanswers]
      dsimp only
      rw [State.physPoison, hfab, Bool.false_and, stopIf_false, hwaits, stopIf_false, if_neg Bool.false_ne_true, hpoison, stopIf_false,
        if_neg Bool.false_ne_true]
      exact congrArg (spawnTaken (.spawno x y sb) x y p s w · _) hnext
    refine ⟨fun hm => runs_issueMem hrun (hspawno.trans ?_), fun hm hc => runs_issueMem hrun (hspawno.trans ?_)⟩
    · rw [hm, spawnTaken_none]
      rw [claim_none (hnext.trans (congrArg (Prod.mk next) hm))]
    · rw [← href] at hc
      refine (spawnTaken_some hlaunch hm hc).trans ?_
      have hnext' : ({ s with cores := tabSet s.cores w.core c } : State).slalomNext p.pa ls.length = (next, m) := rfl
      rw [claim_some hnext' hm]
  · intro hdet hal hplace htranslate hfab hlost claim va noted
    refine ⟨fun hanswer => ?_, fun bs hanswer => ?_⟩
    · refine issueMem_stops (e := .remote 64 p.pkg (.claim p.pa ls.length) (w.scal sb).toNat) hrun ?_
      rw [spawno_place hmay hdet hal hplace htranslate, hanswer]
      dsimp only
      rw [hlost, State.homeWaits, State.physPoison, hfab, if_pos rfl, hlost, if_pos rfl]
      rfl
    have hspawno : spawno x y sb s k env w = spawnTaken (.spawno x y sb) x y p s w (fieldAt bs 0 8, fieldAt bs 8 8) noted := by
      rw [spawno_place hmay hdet hal hplace htranslate, hanswer]
      exact stopIf_false ..
    refine ⟨fun hn => runs_issueMem hrun (hspawno.trans ?_), fun hn hc => runs_issueMem hrun (hspawno.trans (spawnTaken_some hlaunch hn hc))⟩
    rw [hn, spawnTaken_none]

/-! ### Message queues -/

section
variable {s : State} {k x y p pv pc : Nat} {w : Warp} {env : Env} {r : QueueRef}

theorem openQueue_ok {α : Type} (href : s.queueRef env w (w.scal y) = some r) (hopen : (s.queueRegs r).openFor r.team = true)
    (f : QueueRef → QueueRegs → Except Stop α) : openQueue s env w y f = f r (s.queueRegs r) := by
  unfold openQueue
  rw [href]
  dsimp only
  rw [hopen, Bool.not_true, stopIf_false]

section
variable (href : s.queueRef env w (w.scal y) = some r) (hopen : (s.queueRegs r).openFor r.team = true)
include href hopen

section
variable (htx : w.anyTx = false) (hdet : env.det = false) (hnames : w.NamesOk env (entryRegs (s.queueRegs r) x)) (hls : lanesOf w.width w.executing ≠ [])
include htx hdet hnames hls

section
variable (hrel : s.unreleased k w .cluster none = false) (hattached : w.attached.getLsbD (w.scal y).toNat = true)
include hrel hattached

/-- Whether a warp's request is, or would be, the first of a queue's list (R256). -/
def firstInLine (k : Nat) : List Nat → Bool
  | [] => true
  | j :: _ => j == k

theorem qappend_ok (hcount : (lanesOf w.width w.executing).length ≤ (s.queueRegs r).count) : qappend x y s k env w =
    if firstInLine k (s.queueRegs r).requests && decide ((lanesOf w.width w.executing).length ≤ (s.queueRegs r).free) then
      .ok ((s.unlist r k).writeEntries r ((lanesOf w.width w.executing).map (w.entryOf (s.queueRegs r) x)), w.taint, .after 4)
    else .ok (if (s.queueRegs r).requests.contains k then s
        else s.setQueue r.core r.q { s.queueRegs r with requests := (s.queueRegs r).requests ++ [k] },
      { w with status := .waiting (.append (.qappend x y) r.core r.q (lanesOf w.width w.executing).length) }, .stay) := by
  dsimp only [qappend]
  rw [htx, stopIf_false, atMeeting_ok (logs_of_det hdet), openQueue_ok href hopen, hattached, Bool.not_true, stopIf_false,
    decide_eq_false (Nat.not_lt.mpr hcount), stopIf_false, rangeCheck_ok hnames, if_neg (by rwa [List.isEmpty_iff]), released_ok (.inl hrel)]
  cases (s.queueRegs r).requests <;> rfl

theorem qappendTry_ok : qappendTry x y p s k env w =
    (let n := if (s.queueRegs r).requests.isEmpty then min (lanesOf w.width w.executing).length (s.queueRegs r).free else 0
    let v := w.setPred p (mergeMask w.executing (w.pred p) (maskOf ((lanesOf w.width w.executing).take n)))
    .ok (s.writeEntries r (((lanesOf w.width w.executing).take n).map (w.entryOf (s.queueRegs r) x)), if n == 0 then v else v.taint)) := by
  dsimp only [qappendTry]
  rw [htx, stopIf_false, atMeeting_ok (logs_of_det hdet), openQueue_ok href hopen, hattached, Bool.not_true, stopIf_false,
    rangeCheck_ok hnames, if_neg (by rwa [List.isEmpty_iff]), released_ok (.inl hrel)]

end

/-- The warp once a `QPOP` has popped `n` entries (R35, R257). -/
def popped (s : State) (w : Warp) (r : QueueRef) (x pv pc n : Nat) : Warp :=
  ((((w.setPred pv (w.pred pv)).setPred pc (w.pred pc)).defer
    (popWrites s w r.team x pv pc n (s.queueRegs r) (lanesOf w.width w.executing))).dropLatches (entryRegs (s.queueRegs r) x))

theorem qpop_ok (hteam : r.team = w.team) (hpoison : ∀ j < min (lanesOf w.width w.executing).length (s.queueRegs r).filled,
      s.shmPoisoned r.team ((s.queueRegs r).slot j) (s.queueRegs r).esize = false) : qpop x y pv pc s k env w =
    (let q := s.queueRegs r
    let n := min (lanesOf w.width w.executing).length q.filled
    if n == 0 && !q.closed then .ok (s, { w with status := .waiting (.pop (.qpop x y pv pc)) }, .stay)
    else .ok (if n == 0 then (s, popped s w r x pv pc n, .after 4)
      else (s.setQueue r.core r.q { q with head := (q.head + n) % q.count, filled := q.filled - n, free := q.free + n },
        (popped s w r x pv pc n).taint, .after 4))) := by
  have hsound : ((upto (min (lanesOf w.width w.executing).length (s.queueRegs r).filled)).any fun j =>
      s.shmPoisoned r.team ((s.queueRegs r).slot j) (s.queueRegs r).esize) = false := by
    rw [List.any_eq_false]
    intro j hj
    rw [hpoison j (List.mem_range.mp hj)]
    exact Bool.false_ne_true
  dsimp only [qpop]
  rw [htx, stopIf_false, atMeeting_ok (logs_of_det hdet), openQueue_ok href hopen, hteam, bne_self_eq_false, stopIf_false, rangeCheck_ok hnames,
    if_neg (by rwa [List.isEmpty_iff]), ← hteam, hsound, stopIf_false]
  rfl

end

theorem qatt_ok : qatt y s k env w = .ok (if w.attached.getLsbD (w.scal y).toNat then (s, w)
    else (s.setQueue r.core r.q { s.queueRegs r with prod := (s.queueRegs r).prod + 1, armed := true },
      { w with attached := w.attached ||| BitVec.ofNat 128 (2 ^ (w.scal y).toNat) })) := by
  dsimp only [qatt]
  rw [openQueue_ok href hopen]

theorem qdet_ok : qdet y s k env w = .ok (if w.attached.getLsbD (w.scal y).toNat then
      (s.setQueue r.core r.q { s.queueRegs r with prod := (s.queueRegs r).prod - 1 },
        { w with attached := w.attached &&& ~~~(BitVec.ofNat 128 (2 ^ (w.scal y).toNat)) })
    else (s, w)) := by
  have hhandle : env.handleOk (w.scal y) = true := by
    by_contra hbad
    rw [State.queueRef, if_neg hbad] at href
    cases href
  dsimp only [qdet]
  rw [hhandle, Bool.not_true, stopIf_false]
  split
  · rw [href]
    dsimp only
    rw [hopen]
    rfl
  · rfl

end

/-- A queue descriptor that `QATT.own` takes (R254). -/
structure DescriptorOk (env : Env) (bs : List Byte) : Prop where
  zero : zeroAt bs 8 8 = true
  small : 4 ≤ fieldAt bs 4 2
  large : fieldAt bs 4 2 ≤ 64
  words : fieldAt bs 4 2 % 4 = 0
  count : 0 < fieldAt bs 6 2
  aligned : fieldAt bs 0 4 % 16 = 0
  fits : fieldAt bs 0 4 + fieldAt bs 4 2 * fieldAt bs 6 2 ≤ env.shm

theorem qattOwn_ok {q : Nat} (howner : (((s.core w.core).queue q).owner.isSome && ((s.core w.core).queue q).owner != some w.team) = false)
    (ho : s.ObjectOk env w (w.scal y) 16 16) (hd : DescriptorOk env (s.seenBytes w (w.scal y).toNat 16)) : qattOwn y q s k env w =
      let x := (s.core w.core).queue q
      let bs := s.seenBytes w (w.scal y).toNat 16
      match x.owner with
      | some _ => stopIf (x.base != fieldAt bs 0 4 || x.esize != fieldAt bs 4 2 || x.count != fieldAt bs 6 2) (w.trap 0x03) (.ok (s, w))
      | none => .ok (s.setQueue w.core q ⟨some w.team, fieldAt bs 0 4, fieldAt bs 4 2, true, false, fieldAt bs 6 2, 0, 0, fieldAt bs 6 2, 0, []⟩, w) := by
  obtain ⟨hzero, hsmall, hlarge, hwords, hcount, halign, hfits⟩ := hd
  have hlegal : (!zeroAt (s.seenBytes w (w.scal y).toNat 16) 8 8 || decide (fieldAt (s.seenBytes w (w.scal y).toNat 16) 4 2 < 4)
      || decide (64 < fieldAt (s.seenBytes w (w.scal y).toNat 16) 4 2) || fieldAt (s.seenBytes w (w.scal y).toNat 16) 4 2 % 4 != 0
      || fieldAt (s.seenBytes w (w.scal y).toNat 16) 6 2 == 0 || fieldAt (s.seenBytes w (w.scal y).toNat 16) 0 4 % 16 != 0) = false := by
    rw [hzero, decide_eq_false (Nat.not_lt.mpr hsmall), decide_eq_false (Nat.not_lt.mpr hlarge), hwords, halign, beq_eq_false_iff_ne.mpr hcount.ne']
    rfl
  dsimp only [qattOwn]
  rw [howner, stopIf_false, sharedObject_ok ho, hlegal, stopIf_false, decide_eq_false (Nat.not_lt.mpr hfits), stopIf_false]
  rfl

theorem qdetOwn_none {q : Nat} (h : ((s.core w.core).queue q).owner = none) : qdetOwn q s k env w = .ok (s, w, .after 4) := by
  dsimp only [qdetOwn]
  rw [h]

theorem qdetOwn_some {q : Nat} (h : ((s.core w.core).queue q).owner = some w.team) (hprod : ((s.core w.core).queue q).prod = 0) : qdetOwn q s k env w =
    if ((s.core w.core).queue q).free + ((s.core w.core).queue q).filled == ((s.core w.core).queue q).count then .ok (s.freeQueue w.core q, w, .after 4)
    else .ok (s, { w with status := .waiting (.freeQueue q) }, .stay) := by
  dsimp only [qdetOwn]
  rw [h]
  dsimp only
  rw [bne_self_eq_false, hprod]
  rfl

end

/-- Settles O42. -/
theorem queuesComplete : Obligations.QueuesComplete := by
  refine ⟨?_, ?_⟩
  · intro s k w env x y p pv pc r hrun h q ls b goes waits href hopen
    refine ⟨?_, ?_, fun hatt => ⟨?_, ?_⟩, fun hatt => ⟨?_, ?_⟩⟩
    · intro htx hdet hnames hls hrel hattached
      refine ⟨fun hcount hfirst hfree => ?_, fun hcount hlisted hfull => ?_, ?_⟩
      · refine runs_issueOf hrun ((qappend_ok href hopen htx hdet hnames hls hrel hattached hcount).trans (if_pos ?_))
        rw [decide_eq_true hfree, Bool.and_true]
        rcases hfirst with hnone | hhead
        · change firstInLine k q.requests = true
          rw [hnone]
          rfl
        · change firstInLine k q.requests = true
          cases hq : q.requests with
          | nil => rfl
          | cons j t =>
            rw [hq] at hhead
            exact beq_iff_eq.mpr (Option.some.inj hhead)
      · refine runs_issueOf hrun ((qappend_ok href hopen htx hdet hnames hls hrel hattached hcount).trans ((if_neg ?_).trans ?_))
        · rw [Bool.and_eq_true, decide_eq_true_eq]
          rintro ⟨hfirst, hfits⟩
          rcases hfull with hsome | hlt
          · change firstInLine k q.requests = true at hfirst
            cases hq : q.requests with
            | nil => exact hsome hq
            | cons j t =>
              rw [hq] at hfirst hlisted
              rw [beq_iff_eq.mp hfirst] at hlisted
              simp at hlisted
          · exact absurd hfits (Nat.not_le.mpr hlt)
        · change Except.ok (if q.requests.contains k then s else _, _, _) = _
          rw [hlisted]
          rfl
      · refine runs_issueMem hrun ((qappendTry_ok href hopen htx hdet hnames hls hrel hattached).trans ?_)
        dsimp only
        simp only [beq_iff_eq]
        rfl
    · intro htx hdet hnames hls hteam n noted v
      refine ⟨fun hn hclosed => ?_, fun hn hclosed => ?_, fun hn hpoison => ?_⟩
      · refine runs_issueOf hrun ((qpop_ok href hopen htx hdet hnames hls hteam ?_).trans (if_pos ?_))
        · exact fun j hj => absurd (show j < n from hj) (by omega)
        · change (n == 0 && !q.closed) = true
          rw [hn, hclosed]
          rfl
      · refine runs_issueOf hrun ((qpop_ok href hopen htx hdet hnames hls hteam ?_).trans ((if_neg ?_).trans ?_))
        · exact fun j hj => absurd (show j < n from hj) (by omega)
        · change ¬ (n == 0 && !q.closed) = true
          rw [hclosed, Bool.not_true, Bool.and_false]
          exact Bool.false_ne_true
        · exact congrArg _ (if_pos (beq_iff_eq.mpr hn))
      · refine runs_issueOf hrun ((qpop_ok href hopen htx hdet hnames hls hteam hpoison).trans ((if_neg ?_).trans ?_))
        · change ¬ (n == 0 && !q.closed) = true
          rw [beq_eq_false_iff_ne.mpr hn, Bool.false_and]
          exact Bool.false_ne_true
        · exact congrArg _ (if_neg fun h => hn (beq_iff_eq.mp h))
    · exact runs_issueMem hrun ((qatt_ok href hopen).trans (congrArg _ (if_neg (by rw [hatt]; exact Bool.false_ne_true))))
    · exact runs_issueMem hrun ((qdet_ok href hopen).trans (congrArg _ (if_neg (by rw [hatt]; exact Bool.false_ne_true))))
    · exact runs_issueMem hrun ((qatt_ok href hopen).trans (congrArg _ (if_pos hatt)))
    · exact runs_issueMem hrun ((qdet_ok href hopen).trans (congrArg _ (if_pos hatt)))
  · intro s k w env y q hrun x bs base esize count goes
    refine ⟨runs_issue hrun rfl, fun ho hzero hsmall hlarge hwords hcount halign hfits => ⟨fun howner => ?_, fun howner hbase hesize hcnt => ?_⟩,
      fun howner => ?_, fun howner hprod => ⟨fun hfree => ?_, fun hfree => ?_⟩⟩
    · refine runs_issueMem hrun ((qattOwn_ok (by rw [howner]; rfl) ho ⟨hzero, hsmall, hlarge, hwords, hcount, halign, hfits⟩).trans ?_)
      dsimp only
      rw [howner]
    · refine runs_issueMem hrun ((qattOwn_ok (by rw [howner, bne_self_eq_false, Bool.and_false]) ho ⟨hzero, hsmall, hlarge, hwords, hcount, halign, hfits⟩).trans ?_)
      dsimp only
      rw [howner]
      dsimp only
      rw [hbase, hesize, hcnt, bne_self_eq_false, bne_self_eq_false, bne_self_eq_false]
      rfl
    · exact runs_issueOf hrun (qdetOwn_none howner)
    · exact runs_issueOf hrun ((qdetOwn_some howner hprod).trans (if_pos (beq_iff_eq.mpr hfree)))
    · exact runs_issueOf hrun ((qdetOwn_some howner hprod).trans (if_neg (by simpa using hfree)))

end Sys2Proof.Machine
end

section
/-! SUPPORT. The operations of the engines at issue: their checks, and the queue that they enter (R208, R218, R224 to R228, R233, R239 to R243, R390). -/

namespace Sys2Proof.Machine

section
variable {s : State} {k y : Nat} {w : Warp} {env : Env} {t : Tile} {i : Instr} {q : EngineQueue}

theorem queueRoom_ok {α : Type} (h : env.logs = true ∨ (s.core w.core).queueFull q = false) (f : Except Stop α) : queueRoom s env w q i f = f := by
  have hroom : (!env.logs && (s.core w.core).queueFull q) = false := by
    rcases h with h | h <;> rw [h]
    · rfl
    · exact Bool.and_false _
  rw [queueRoom, hroom, stopIf_false]

/-- A register names a tile descriptor whose footprint is in the accumulator allocation (R226, R227). -/
structure TileAt (s : State) (env : Env) (w : Warp) (n : Nat) (t : Tile) : Prop where
  object : s.ObjectOk env w (w.scal n) 16 16
  tile : tileOf? (s.seenBytes w (w.scal n).toNat 16) = some t
  fits : t.base + t.extent ≤ s.accSize w

theorem tileCheck_ok {α : Type} {n : Nat} (h : TileAt s env w n t) (f : Option Tile → Except Stop α) : tileCheck s env w (w.scal n) f = f (some t) := by
  obtain ⟨ho, htile, hfits⟩ := h
  unfold tileCheck
  rw [sharedObject_ok ho, htile]
  dsimp only
  rw [decide_eq_false (Nat.not_lt.mpr hfits), stopIf_false]

theorem queueTile_ok {bar : Option Nat} {batched : Bool} {names : List (List Nat)} {f : Tile → OpKind}
    (h : env.logs = true ∨ (s.core w.core).queueFull .matrix = false) :
    queueTile s k env w i (some t) bar batched names f = .ok (addOp env (newOp k w (f t) bar batched names) s w) := by
  unfold queueTile
  rw [queueRoom_ok h]

theorem tcopy_ok {bar : Option Nat} (htx : w.anyTx = false) (ho : s.ObjectOk env w (w.scal y) 64 256)
    (hroom : env.logs = true ∨ (s.core w.core).queueFull .copy = false) :
    tcopy bar y s k env w = .ok (addOp env (newOp k w (.copy (CopyDesc.ofBytes (s.seenBytes w (w.scal y).toNat 256))) (w.barOf bar) true []) s w) := by
  unfold tcopy
  rw [htx, stopIf_false, sharedObject_ok ho, queueRoom_ok hroom]

theorem tcopyY_ok {bar : Option Nat} {c : Nat} (htx : w.anyTx = false) (ho : s.ObjectOk env w (w.scal y) 64 256) (hdet : env.det = false)
    (hroom : env.logs = true ∨ (s.core w.core).queueFull .copy = false) (hopen : w.openOps = []) (hbatches : w.batches.length < 16) :
    tcopyY bar y c s k env w =
      (let x := addOp env (newOp k w (.copy (CopyDesc.ofBytes (s.seenBytes w (w.scal y).toNat 256))) (w.barOf bar) true []) s w
      let v : Warp := { x.2.closeBatch x.1 x.2.openOps with openOps := [] }
      .ok (x.1, { v with status := .waiting (.tcopyY v.batch.toNat (w.pc + BitVec.ofNat 64 (c * 16))) }, .stay)) := by
  have hneed : decide (maxBatches < w.batches.length + 1) = false := decide_eq_false (by unfold maxBatches; omega)
  have hempty : w.openOps.isEmpty = true := by rw [hopen]; rfl
  dsimp only [tcopyY]
  rw [htx, stopIf_false, sharedObject_ok ho, atMeeting_ok (logs_of_det hdet), queueRoom_ok hroom, hempty, if_pos rfl, if_pos rfl, hneed, stopIf_false]

theorem accstR_ok {d : Nat} (htx : w.anyTx = false) (ht : TileAt s env w y t) (hn : t.n ≤ 32) (hnames : w.NamesOk env ((upto t.n).map (d + ·)))
    (hroom : env.logs = true ∨ (s.core w.core).queueFull .matrix = false) :
    accstR d y s k env w =
      (let x := addOp env (newOp k w (.accstR d t) none true (w.rowNames d t.n 0 t.m)) s w
      .ok (x.1, x.2.dropLatches ((upto t.n).map (d + ·)))) := by
  have hfits : (decide (t.n ≤ 32) && (upto t.n).all fun j => w.nameOk env (d + j)) = true := by
    rw [decide_eq_true hn, Bool.true_and, List.all_eq_true]
    exact fun j hj => hnames _ (List.mem_map_of_mem hj)
  dsimp only [accstR]
  rw [htx, stopIf_false, tileCheck_ok ht]
  dsimp only [Option.bind_some]
  rw [if_pos hfits]
  dsimp only [Option.map_some, Option.getD_some]
  rw [queueTile_ok hroom]
  rfl

theorem rstat_ok {d r : Nat} (htog : w.Together) (ht : TileAt s env w y t) (hnames : w.NamesOk env [d, d + 1, d + 2])
    (hroom : env.logs = true ∨ (s.core w.core).queueFull .matrix = false) :
    rstat d y r s k env w =
      (let x := addOp env (newOp k w (.rstat d r t) none true (w.rowNames d 3 r t.m)) s w
      .ok (x.1, x.2.dropLatches [d, d + 1, d + 2])) := by
  dsimp only [rstat]
  rw [point_ok htog.1, converged_ok htog.2, rangeCheck_ok hnames, tileCheck_ok ht, queueTile_ok hroom]
  rfl

theorem matrixMultiply_ok {gather : Bool} {d a b f : Nat} (htog : w.Together) (ht : TileAt s env w d t) (ho : s.ObjectOk env w (w.scal f) 64 64)
    (hroom : env.logs = true ∨ (s.core w.core).queueFull .matrix = false) :
    matrixMultiply gather i d a b f s k env w =
      (let fb := FormatBlock.ofBytes (s.seenBytes w (w.scal f).toNat 64)
      .ok (addOp env (newOp k w (.mma gather t (w.scal a).toNat (w.scal b).toNat fb w.sat) fb.barrier true []) s w)) := by
  dsimp only [matrixMultiply]
  rw [point_ok htog.1, converged_ok htog.2, sharedObject_ok ho, tileCheck_ok ht, queueTile_ok hroom]

end

/-! ### The queues -/

theorem opQueue_setOpQueue (c : Core) (l : List Nat) (q : EngineQueue) : (c.setOpQueue l q).opQueue q = l := by cases q <;> rfl

section
variable {s : State} {w : Warp} {env : Env} {o : EngineOp}

theorem addOp_logs (h : env.logs = true) : (addOp env o s w).1 =
    match tabFind s.launches (s.launchKey w) with
    | some x => { s with
        nextId := s.nextId + 1
        ops := tabSet s.ops s.nextId o
        launches := tabSet s.launches (s.launchKey w) { x with heldOps := x.heldOps ++ [s.nextId] } }
    | none => { s with nextId := s.nextId + 1, ops := tabSet s.ops s.nextId o } := by
  exact if_pos h

theorem addOp_now (h : env.logs = false) :
    (addOp env o s w).1 = ({ s with nextId := s.nextId + 1, ops := tabSet s.ops s.nextId o } : State).enqueue s.nextId o := by
  dsimp only [addOp]
  rw [h]
  rfl

theorem addOp_ops_ne {m : Nat} (hm : m ≠ s.nextId) : tabFind (addOp env o s w).1.ops m = tabFind s.ops m := by
  cases hlogs : env.logs with
  | true =>
    rw [addOp_logs hlogs]
    split <;> exact tabFind_tabSet_ne _ _ hm
  | false =>
    rw [addOp_now hlogs]
    exact (tabFind_tabSet_ne _ _ hm).trans (tabFind_tabSet_ne _ _ hm)

end

/-- Settles O38. -/
theorem engineOperationsIssue : Obligations.EngineOperationsIssue := by
  refine ⟨?_, ?_⟩
  · intro s k w env bar shm d a b f y r c t hrun hfull goes add rows tileAt copy fb
    have hlogs : env.logs = env.det := logs_eq_det (env?_meeting hrun.2.2.1)
    have hmatrix : env.logs = true ∨ (s.core w.core).queueFull .matrix = false := hfull.imp (hlogs ▸ ·) (·.1)
    have hcopy : env.logs = true ∨ (s.core w.core).queueFull .copy = false := hfull.imp (hlogs ▸ ·) (·.2)
    have htileAt : ∀ {n}, tileAt n → TileAt s env w n t := fun ⟨ho, ht, hfits⟩ => ⟨ho, ht, hfits⟩
    refine ⟨fun htx => ⟨fun ho => runs_issueMem hrun (tcopy_ok htx ho hcopy), fun ho hdet hopen hbatches => ?_, fun ht => runs_issueMem hrun ?_,
      fun ht => runs_issueMem hrun ?_, fun ht hn hnames => runs_issueMem hrun (accstR_ok htx (htileAt ht) hn hnames hmatrix), runs_issueMem hrun ?_⟩,
      fun ht => runs_issueMem hrun ?_, fun htog ht hnames => runs_issueMem hrun (rstat_ok htog (htileAt ht) hnames hmatrix),
      fun htog ht ho => ⟨runs_issueMem hrun (matrixMultiply_ok htog (htileAt ht) ho hmatrix), runs_issueMem hrun (matrixMultiply_ok htog (htileAt ht) ho hmatrix)⟩⟩
    · exact runs_issueOf hrun (tcopyY_ok htx ho hdet hcopy hopen hbatches)
    · unfold accld
      rw [htx, stopIf_false, tileCheck_ok (htileAt ht), queueTile_ok hmatrix]
    · unfold accst
      rw [htx, stopIf_false, tileCheck_ok (htileAt ht), queueTile_ok hmatrix]
    · unfold actld
      rw [htx, stopIf_false]
    · unfold accz
      rw [tileCheck_ok (htileAt ht), queueTile_ok hmatrix]
  · intro s k w env kind bar batched names o r n
    refine ⟨rfl, fun hlogs => ?_, fun hlogs => ?_, fun m hm => addOp_ops_ne hm⟩
    · have hr : r.1 = _ := addOp_now hlogs
      rw [hr]
      refine ⟨tabFind_tabSet_self .., ?_, rfl, rfl⟩
      change (tabGet (tabSet s.cores w.core _) w.core Core.empty).opQueue kind.queue = _
      rw [tabGet_tabSet_self]
      exact opQueue_setOpQueue ..
    · have hr : r.1 = _ := addOp_logs hlogs
      rw [hr]
      refine ⟨?_, ?_, ?_, fun x hx => ?_⟩
      · split <;> exact tabFind_tabSet_self ..
      · split <;> rfl
      · split <;> rfl
      · simp only [hx]
        exact tabFind_tabSet_self ..

end Sys2Proof.Machine
end

section
/-! SUPPORT. The events that end a wait, the instructions tried again, and the end of walks and engine operations (R22, R23, R117, R162, R182, R185, R208 to R224,
R254 to R257, R286 to R290, R306, R307). -/

namespace Sys2Proof.Machine

/-! ### Waits -/

section
variable {s : State} {k : Nat} {w : Warp} (hw : tabFind s.warps k = some w)
include hw

theorem instructionReplay_eq {ctx va : Nat} {kd : AccessKind} (hst : w.status = .waiting (.translation ctx va kd true)) :
    execInstructionReplay k s = .next (s.putWarp k { w with status := .ready }) := by
  rw [execInstructionReplay, onWarp_some hw, hst]

theorem sleepExpiry_eq {t : Nat} (hst : w.status = .waiting (.sleep t)) (ht : t ≤ s.clock) :
    execSleepExpiry k s = .next (s.putWarp k { w with status := .ready }) := by
  rw [execSleepExpiry, onWarp_some hw, hst]
  exact congrArg _ (if_pos ht)

theorem warpPromotion_eq (hst : w.status = .ready) (hidle : w.idleSince + s.clocksOf w.core promotionDelay ≤ s.clock) :
    execWarpPromotion k s = .next (s.putWarp k { w with promoted := true }) := by
  rw [execWarpPromotion, onWarp_some hw, if_pos]
  rw [hst, decide_eq_true hidle]
  rfl

theorem backoffExpiry_eq {t : Nat} (hst : w.status = .waiting (.backoff t)) (ht : t ≤ s.clock) : execBackoffExpiry k s =
    .next (s.putWarp k { w with status := if s.tokenQueue.any fun q => q.1 == k then .waiting .token else .ready }) := by
  rw [execBackoffExpiry, onWarp_some hw, hst]
  exact congrArg _ (if_pos ht)

section
variable (hmay : s.mayReturn w = true)
include hmay

theorem awaitReturn_eq {d n : Nat} (hst : w.status = .waiting (.await d n)) (hdone : w.batchesDone (BitVec.ofNat 16 n) = true) :
    execAwaitReturn k s = .next (s.resumeAfter k (w.awaited d) 4) := by
  rw [execAwaitReturn, onWarp_some hw, hst]
  exact congrArg _ (if_pos (by rw [hmay, hdone]; rfl))

theorem bwaitReturn_eq {d off : Nat} {q : Bool} (hst : w.status = .waiting (.bwait d off q)) (hphase : s.phaseReached w.team off q = true) :
    execBwaitReturn k s = .next (s.resumeAfter k (w.phaseSeen s d off) 4) := by
  rw [execBwaitReturn, onWarp_some hw, hst]
  exact congrArg _ (if_pos (by rw [hmay, hphase]; rfl))

theorem tcopyYResume_eq {n : Nat} {pc : DWord} (hst : w.status = .waiting (.tcopyY n pc)) (hdone : ∀ b ∈ w.batches, b.number ≠ BitVec.ofNat 16 n) :
    execTcopyYResume k s = .next (s.putWarp k (w.continueAt pc)) := by
  have hnone : (w.batches.any fun b => b.number == BitVec.ofNat 16 n) = false := by
    rw [List.any_eq_false]
    exact fun b hb => by simpa using hdone b hb
  rw [execTcopyYResume, onWarp_some hw, hst]
  exact congrArg _ (if_pos (by rw [hmay, hnone]; rfl))

end
end

/-- A warp that resumes past its copy has no result pending, so that the wait of a marker changes nothing (R24, R224). -/
theorem continueAt_eq (w : Warp) (pc : DWord) : w.continueAt pc = { w.drain with status := .ready, prev := none, pc := pc, marker := false } := by
  unfold Warp.continueAt Warp.finish Warp.markerWait
  dsimp only
  split <;> rfl

/-- Settles O44. -/
theorem waitsEnd : Obligations.WaitsEnd := by
  intro s k w n d off t q pc m ctx va kd hw ready resumes
  refine ⟨onWarp_some hw, fun hst => instructionReplay_eq hw hst, fun hst ht => sleepExpiry_eq hw hst ht, fun hst hidle => warpPromotion_eq hw hst hidle,
    fun hst ht => ⟨fun hnone => ?_, fun hsome => ?_⟩, fun hmay => ⟨fun hst hdone => awaitReturn_eq hw hmay hst hdone,
      fun hst hphase => bwaitReturn_eq hw hmay hst hphase, fun hst hdone => (tcopyYResume_eq hw hmay hst hdone).trans (by rw [continueAt_eq])⟩⟩
  · refine (backoffExpiry_eq hw hst ht).trans ?_
    have hquiet : (s.tokenQueue.any fun q => q.1 == k) = false := by
      rw [List.any_eq_false]
      exact fun e he => by simpa using hnone e he
    rw [hquiet]
    rfl
  · refine (backoffExpiry_eq hw hst ht).trans ?_
    obtain ⟨e, he, hk⟩ := hsome
    have hasks : (s.tokenQueue.any fun q => q.1 == k) = true := List.any_eq_true.mpr ⟨e, he, beq_iff_eq.mpr hk⟩
    rw [hasks]
    rfl

/-! ### Retries -/

theorem issueBy_congr {s : State} {k len : Nat} {w : Warp} {f g : State → Nat → Env → Warp → Effect}
    (h : ∀ env, f s k env { w with status := .ready } = g s k env { w with status := .ready }) : s.issueBy k w len f = s.issueBy k w len g := by
  unfold State.issueBy
  cases s.env? w with
  | none => rfl
  | some env =>
    dsimp only
    rw [h env]

theorem issueOf_congr {s : State} {len : Nat} {f g : State → Nat → Env → Warp → Effect} (h : ∀ k env w, f s k env w = g s k env w) :
    s.issueOf len f = s.issueOf len g := by
  unfold State.issueOf
  split
  · rfl
  · split
    · rfl
    · rw [issueBy_congr fun env => h _ env _]

/-- The instructions that can stall, and those that poll, are issued through the effect by which they are tried again. -/
theorem exec_eq_redo {s : State} {i : Instr}
    (h : (isSpawn i || isAfence i || isCopy i || isMatrix i || isLaunch i || isColl i || polls i) = true) : exec i s = s.issueOf 4 (redo i) := by
  simp only [Bool.or_eq_true, or_assoc] at h
  rcases h with h | h | h | h | h | h | h
  · unfold isSpawn at h
    split at h <;> first | rfl | cases h
  · unfold isAfence at h
    split at h
    · exact issueOf_congr fun k env w => by
        change (afence _ s w).map _ = ((afence _ s w).map _).map _
        cases afence _ s w <;> rfl
    · cases h
  · unfold isCopy at h
    split at h <;> first | rfl | cases h
  · unfold isMatrix at h
    split at h <;> first | rfl | cases h
  · unfold isLaunch at h
    split at h <;> first | rfl | cases h
  · unfold isColl at h
    split at h <;> first | rfl | cases h
  · unfold polls at h
    split at h <;> first | rfl | cases h

theorem retry_eq {s : State} {k : Nat} {w : Warp} {i : Instr} {p : Instr → Bool} (hw : tabFind s.warps k = some w)
    (hst : w.status = .waiting (.retry i)) (hp : p i = true) (hmay : s.mayReturn w = true) :
    s.retry k p = (s.translated w i).issueBy k (s.awaits w i) 4 (redo i) := by
  have hstalled : w.stalled = some i := by rw [Warp.stalled, hst]
  rw [State.retry, hw]
  dsimp only
  rw [hstalled]
  exact if_pos (by rw [hp, hmay]; rfl)

/-- Settles O45. -/
theorem retriesReissue : Obligations.RetriesReissue := by
  refine ⟨?_, fun s k w env i hrun h => ?_⟩
  · intro s k w i core q n x y pv pc b hw again anew
    have hanew : ∀ p : Instr → Bool, w.status = .waiting (.retry i) → s.mayReturn w = true → p i = true → .next (s.retry k p) = anew :=
      fun p hst hmay hp => congrArg _ (retry_eq hw hst hp hmay)
    refine ⟨fun hst hmay => ⟨hanew _ hst hmay, hanew _ hst hmay, hanew _ hst hmay, hanew _ hst hmay, hanew _ hst hmay, hanew _ hst hmay⟩,
      fun hst hfirst hdue => ?_, fun hst hdue => ?_, fun hst hdue => ?_, ?_⟩
    · change execQappendGrant core q s = _
      rw [execQappendGrant, hdue, hfirst]
      dsimp only
      rw [hw]
      dsimp only
      rw [hst]
      rfl
    · change execQpopWake k s = _
      rw [execQpopWake, hw]
      dsimp only
      rw [hst]
      exact congrArg _ (if_pos hdue)
    · change execQdetOwnFree k s = _
      rw [execQdetOwnFree, hw]
      dsimp only
      rw [hst]
      exact congrArg _ (if_pos hdue)
    · intro o hst hturn
      have hcond : (!o.fab && (w.consecutive (s.slalomField o.pa 8) (w.byIter w.openLanes)).1.isEmpty) = false := by
        rcases hturn with hfab | hrun
        · rw [hfab]
          rfl
        · rw [List.isEmpty_eq_false_iff.mpr hrun, Bool.and_false]
      change execTxendoTurn k s = _
      rw [execTxendoTurn, onWarp_some hw, hst]
      exact congrArg _ (if_neg (by rw [hcond]; exact Bool.false_ne_true))
  · obtain ⟨hturn, hwarp, -, -⟩ := hrun
    rw [exec_eq_redo h, State.issueOf, hturn]
    dsimp only
    rw [hwarp]

/-! ### Walks and engine operations -/

theorem pageWalk_eq {s : State} {core ctx va : Nat} {kd : AccessKind} {m : Missing} (hreq : s.request? core ctx va kd = some m) (hdue : s.walkDue m = true) :
    execPageWalk core ctx va kd s = .next
      (let s1 := if (s.cached core ctx va).isSome then s else s.walkTouch (s.walkCacheOf core) ctx (va % 2 ^ 55)
      match s.lookup core ctx va kd with
      | .ok (e, lv) => (s1.fillTlbs core ctx (va % 2 ^ 55) e lv).servicePage (sameCluster core) ctx va
      | .error (.notPresent, lv) => s1.report m 0 lv
      | .error (.permission, lv) => (s1.dropLeaf core ctx (va % 2 ^ 55)).report m 1 lv
      | .error _ => s1.servicePage (sameCluster core) ctx va) := by
  rw [execPageWalk, hreq]
  dsimp only
  rw [hdue]
  rfl

section
variable {s s1 : State} {id : Nat} {o : EngineOp} {w : Warp} {env : Env} {x : Work}

/-- The end of an operation that is ready, whichever event brings it. -/
theorem completeOp_eq (ho : tabFind s.ops id = some o) (hready : s.opReady id o = true) (hfault : o.fault = none) (hdone : o.done = false)
    (hw : tabFind s.warps o.warp = some w) (henv : s.env? w = some env) (hrun : runOp id env o s = (s1, x, none)) :
    s.completeOp (o.kind.queue == .act) id = s1.endOp id env o x := by
  have hgo : ((o.kind.queue == .act) != (o.kind.queue == .act) || !s.opReady id o || o.fault.isSome || o.done) = false := by
    rw [bne_self_eq_false, hready, hfault, hdone]
    rfl
  rw [State.completeOp, ho]
  dsimp only
  rw [hgo, if_neg Bool.false_ne_true, State.performOp, hw]
  dsimp only
  rw [henv]
  dsimp only
  rw [hrun]

theorem endOp_deterministic (h : s.opDeterministic o = true) : s.endOp id env o x =
    { s with
      ops := tabSet s.ops id { o with done := true, work := some x }
      cores := tabSet s.cores o.core ((s.core o.core).setOpQueue (((s.core o.core).opQueue o.kind.queue).filter (· != id)) o.kind.queue) } := if_pos h

theorem endOp_outstanding (h : s.opDeterministic o = false) (hout : s.opOutstanding id = true) : s.endOp id env o x = s.keepWork id x := by
  rw [State.endOp, if_neg (by rw [h]; exact Bool.false_ne_true), if_pos hout]

theorem endOp_finished (h : s.opDeterministic o = false) (hout : s.opOutstanding id = false) :
    s.endOp id env o x = (s.publishOp o x).finishOp id env o (o.result env x) := by
  rw [State.endOp, if_neg (by rw [h]; exact Bool.false_ne_true), if_neg (by rw [hout]; exact Bool.false_ne_true)]

theorem shmWrite_warps (s : State) (t off : Nat) (bs : List Byte) : (s.shmWrite t off bs).warps = s.warps := by
  unfold State.shmWrite
  split <;> rfl

theorem arrive_warps (s : State) (t off c errors : Nat) : (s.arrive t off c errors).warps = s.warps := shmWrite_warps ..

theorem updateTeam_warps (s : State) (t : Nat) (f : Team → Team) : (s.updateTeam t f).warps = s.warps := by
  unfold State.updateTeam
  split <;> rfl

theorem publishOp_warps (s : State) (o : EngineOp) (x : Work) : (s.publishOp o x).warps = s.warps := by
  unfold State.publishOp
  split
  · split
    · exact updateTeam_warps ..
    · rfl
  · rfl

theorem tabFind_map_at {α : Type} (t : Tab α) (k : Nat) (f : α → α) :
    tabFind (t.map fun e => if e.1 == k then (e.1, f e.2) else e) k = (tabFind t k).map f := by
  induction t with
  | nil => rfl
  | cons e r ih =>
    rw [List.map_cons]
    by_cases he : e.1 = k
    · simp [tabFind, he]
    · simp only [tabFind, beq_iff_eq, he, if_false] at ih ⊢
      rw [ih]
      split <;> rfl

/-- The status bits with which an operation completes: SHMRANGE where its barrier object is no object (R210, R217). -/
def opBits (env : Env) (o : EngineOp) (errors : Nat) : Nat :=
  match o.bar with
  | some b => if b % 16 = 0 ∧ b + 16 ≤ env.shm then errors else Nat.lor errors 128
  | none => errors

theorem finishOp_warps (s : State) (id : Nat) (env : Env) (o : EngineOp) (errors : Nat) :
    (s.finishOp id env o errors).warps = s.warps.map fun e => if e.1 == o.warp then (e.1, e.2.opDone id (opBits env o errors)) else e := by
  have hok (b : Nat) : (b % 16 == 0 && decide (b + 16 ≤ env.shm)) = decide (b % 16 = 0 ∧ b + 16 ≤ env.shm) := by
    rw [Bool.decide_and]
    rfl
  unfold State.finishOp opBits
  dsimp only
  cases o.bar with
  | none => rfl
  | some b =>
    dsimp only
    by_cases h : b % 16 = 0 ∧ b + 16 ≤ env.shm
    · simp only [hok, h, decide_true, if_true]
      exact arrive_warps ..
    · simp only [hok, h, decide_false, Bool.false_eq_true, if_false]
      rfl

end

/-- Settles O46. -/
theorem translationsAndOperationsFinish : Obligations.TranslationsAndOperationsFinish := by
  refine ⟨?_, ?_⟩
  · intro s core ctx va lv kd m e
    refine ⟨fun hreq hdue => ?_, fun hdue => ⟨congrArg _ (if_pos hdue), fun a ha hheld => ?_⟩⟩
    · have hwalk := pageWalk_eq hreq hdue
      refine ⟨fun hl => hwalk.trans ?_, fun hl => hwalk.trans ?_, fun hl => hwalk.trans ?_⟩ <;> rw [hl]
    · rw [State.setFlag, ha]
      exact if_neg (by rw [hheld]; exact Bool.false_ne_true)
  · intro s s1 id o w env x ho hready hfault hdone hw henv hrun act ends left errors finished
    have hends : ∀ {u : State}, s1.endOp id env o x = u → ends u := by
      rintro u rfl
      have hcomplete := completeOp_eq ho hready hfault hdone hw henv hrun
      refine ⟨fun hact => ?_, fun hact => ?_⟩
      · exact congrArg _ ((congrArg (s.completeOp · id) hact.symm).trans hcomplete)
      · exact congrArg _ ((congrArg (s.completeOp · id) hact.symm).trans hcomplete)
    refine ⟨fun hdet => hends (endOp_deterministic hdet), fun hdet hout => hends (endOp_outstanding hdet hout),
      fun hdet hout => ⟨hends (endOp_finished hdet hout), ?_⟩⟩
    have hwarps : finished.warps = _ := (finishOp_warps ..).trans (by rw [publishOp_warps])
    rw [hwarps]
    exact tabFind_map_at s1.warps o.warp (fun v : Warp => v.opDone id (opBits env o errors))

end Sys2Proof.Machine
end

section
/-! SUPPORT. The events of teams, cores and the dispatcher. -/

namespace Sys2Proof.Machine

/-- Settles O48: each event is due, so that its guard passes, and it leaves what the statement names. -/
theorem teamEvents : Obligations.TeamEvents := by
  intro s k t i n core w tm x b c goes
  refine ⟨fun hb hdue => ⟨fun hroom => ?_, fun hfull => ?_⟩, fun hi hb => ?_, fun hw hret hsettled hturn => ?_,
    fun htm hx => ⟨fun hq hdue => ?_, fun hq hdue => ?_, fun hdue => ?_⟩, fun hover => ?_, fun hdue => ⟨fun hempty => ?_, fun hfull => ?_⟩⟩
  · simp [exec, execSpawnTimerExpiry, goes, c, hb, hdue, maxBins, hroom]
  · have hno : ¬ (s.core core).sealed.length < 16 := Nat.not_lt.mpr hfull
    simp [exec, execSpawnTimerExpiry, goes, c, hb, hdue, maxBins, hno]
  · simp [exec, execSpawnedWarpStart, State.startSealed, goes, c, hi, hb]
  · simp [exec, execWarpRetire, goes, hw, hret, hsettled, hturn]
  · simp [exec, execBarRelease, State.releaseBar, goes, htm, hx, hq, hdue]
  · simp [exec, execCbarRelease, goes, hx, hq, hdue]
  · simp [exec, execTeamSave, goes, htm, hx, hdue]
  · simp [exec, execPreemptionOverrun, goes, hover]
  · simp [exec, execCoreSplitChange, goes, hdue, hempty]
  · simp [exec, execCoreSplitChange, goes, hdue, hfull]

end Sys2Proof.Machine
end

section
/-! SUPPORT. The coherence protocol: requests, acknowledgements, fills and pushes at a home, and messages at an L1 (R262 to R280, Tables 12.5, 13.1 and 13.2). -/

namespace Sys2Proof.Machine

/-! ### Requests at the home -/

section
variable {s : State} {k : MsgKind} {core line : Nat} {m : Msg} {f : State → Msg → DirEntry → State}
  (hfirst : s.nextRequest line (fun n => n.kind == k && n.core == core) = some m)
include hfirst

theorem serve_busy (hbusy : s.idleLine line = false) : s.serve k core line f = .next s := by
  simp [State.serve, hfirst, hbusy]

theorem serve_absent (hk : k ≠ .putm ∧ k ≠ .putmm) (hidle : s.idleLine line = true) (hl : tabFind s.l2 line = none) (hna : m.na = false) :
    s.serve k core line f = .next (s.awaitFill m) := by
  simp [State.serve, hfirst, hidle, hk, hl, hna]

theorem serve_present {r : L2Line} (hk : k ≠ .putm ∧ k ≠ .putmm) (hidle : s.idleLine line = true) (hl : tabFind s.l2 line = some r) :
    s.serve k core line f = .next (f (s.l2Access line m.cls m.na false) m (s.dir line)) := by
  simp [State.serve, hfirst, hidle, hk, hl]

theorem serve_writeBack (hk : k = .putm ∨ k = .putmm) (hidle : s.idleLine line = true) :
    s.serve k core line f = .next (f s m (s.dir line)) := by
  rcases hk with rfl | rfl <;> simp [State.serve, hfirst, hidle]

end

@[simp] theorem countUpgrade_holders (d : DirEntry) (c : Nat) : (d.countUpgrade c).holders = d.holders := by
  unfold DirEntry.countUpgrade
  dsimp only
  generalize (if (d.upgrades == 0 || decide (d.window + upgradeWindow < c)) = true then 0 else d.upgrades) = n
  split <;> rfl

section
variable (s : State) (m : Msg) (d : DirEntry) (core line : Nat)

theorem serveOwn_i (hd : d.st = .i) (q : Bool) : s.serveOwn m d core line q = (s.take m).grantM line d .datam core := by
  simp [State.serveOwn, hd]

theorem serveOwn_alone (hd : d.st = .s) (hothers : d.copies.filter (· != core) = []) (q : Bool) :
    s.serveOwn m d core line q = (s.take m).grantM line d .datam core := by
  simp [State.serveOwn, hd, hothers]

theorem serveOwn_shared (hd : d.st = .s) (hothers : d.copies.filter (· != core) ≠ []) : s.serveOwn m d core line true =
    (s.take m).await line (d.countUpgrade s.clock) .inv (d.copies.filter (· != core)) (.datam core) := by
  simp [State.serveOwn, hd, hothers]

theorem serveOwn_m {o : Nat} (hd : d.st = .m) (hsharer : d.sharers = [o]) (ho : o ≠ core) : s.serveOwn m d core line true =
    (if (d.countUpgrade s.clock).contended && m.mask &&& ((s.l1Line o line).map (·.mask)).getD 0 == 0
      then (s.take m).await line (d.countUpgrade s.clock) .recallP [o] (.privatise core m.mask)
      else (s.take m).await line (d.countUpgrade s.clock) .recallI [o] (.datam core)) := by
  simp [State.serveOwn, hd, hsharer, ho]

theorem serveOwn_p (hd : d.st = .p) (hholds : d.holds core = false) (hapart : m.mask &&& d.otherMask core = 0) (hroom : d.holders.length < 4) :
    s.serveOwn m d core line true = ((s.take m).setDir line { d.countUpgrade s.clock with holders := d.holders ++ [(core, m.mask)] }).grant
      .datam core line m.mask true m.cls := by
  simp [State.serveOwn, hd, hholds, hapart, Nat.not_le.mpr hroom]

end

/-- Settles O50. -/
theorem homeServesRequests : Obligations.HomeServesRequests := by
  intro s core line o mask m r d s0 s1 data first asked goes others d1
  have served : ∀ {k : MsgKind} {f : State → Msg → DirEntry → State}, k ≠ .putm ∧ k ≠ .putmm → asked k →
      s.serve k core line f = goes (f s0 m d) := fun hk ⟨hf, hidle, hl⟩ => serve_present hf hk hidle hl
  refine ⟨fun hf hbusy => ?_, fun hf hidle hl hna => ?_, fun ha hflag => ?_, fun ha hflag => ?_, fun ha => ?_, fun ha hd hsharer => ?_,
    fun ha hmask hd hholds hapart => ?_, fun hf hidle => ?_, fun hf hidle hd hholds => ?_, fun hf hidle hlocks => ?_⟩
  · change execGets core line s = _
    exact serve_busy hf hbusy
  · change execGets core line s = _
    exact serve_absent hf (by decide) hidle hl hna
  · change (_ → execGets core line s = _) ∧ (_ → execGets core line s = _) ∧ (_ → execGets core line s = _)
      ∧ (_ → _ → execGets core line s = _) ∧ (_ → _ → execGets core line s = _)
    rw [execGets, served (by decide) ha]
    refine ⟨fun hd => ?_, fun hd => ?_, fun hd => ?_, fun hd hm => ?_, fun hd hm => ?_⟩ <;> simp only [hd]
    · simp [hflag, goes, data]
    · simp [hflag, goes, data]
    · simp [hflag, goes, s1]
    · exact congrArg goes (if_pos (beq_iff_eq.mpr hm))
    · exact congrArg goes (if_neg fun h => hm (beq_iff_eq.mp h))
  · change (_ → execGets core line s = _) ∧ (_ → execGets core line s = _)
    rw [execGets, served (by decide) ha]
    refine ⟨fun hd => ?_, fun hd => ?_⟩
    · rcases hd with hd | hd <;> simp [hd, hflag, goes, data, s1]
    · simp [hd, hflag, goes]
  · have hown : exec (.getm core line) s = goes (s0.serveOwn m d core line true) := by
      change execGetm core line s = _
      exact served (by decide) ha
    rw [hown]
    refine ⟨fun hd => ?_, fun hd hnone => ?_, fun hd hsome => ?_, fun hd hsharer ho => ?_, fun hd hholds hapart hroom => ?_⟩
    · rw [serveOwn_i _ _ _ _ _ hd]
    · rw [serveOwn_alone _ _ _ _ _ hd hnone]
    · rw [serveOwn_shared _ _ _ _ _ hd hsome]
    · rw [serveOwn_m _ _ _ _ _ hd hsharer ho]
      refine ⟨fun hno => congrArg _ (if_neg ?_), fun hcont hm => congrArg _ (if_pos ?_)⟩
      · rintro hyes
        obtain ⟨hc, hz⟩ := (Bool.and_eq_true _ _).mp hyes
        exact hno.elim (fun h => absurd hc (by rw [h]; decide)) (fun h => h (beq_iff_eq.mp hz))
      · exact (Bool.and_eq_true _ _).mpr ⟨hcont, beq_iff_eq.mpr hm⟩
    · rw [serveOwn_p _ _ _ _ _ hd hholds hapart hroom]
      rw [countUpgrade_holders]
  · change (_ → execUpg core line s = _) ∧ (_ → execUpg core line s = _)
    rw [execUpg, served (by decide) ha, if_pos (by rw [hd, hsharer]; rfl)]
    exact ⟨fun hnone => congrArg goes (if_pos (List.isEmpty_iff.mpr hnone)),
      fun hsome => congrArg goes (if_neg fun h => hsome (List.isEmpty_iff.mp h))⟩
  · change execMaskExtension core line mask s = _
    rw [execMaskExtension, served (by decide) ha]
    simp [hmask, hd, hholds, hapart, s1]
  · change (_ → _ → execPutm core line s = _) ∧ (_ → execPutm core line s = _)
    rw [execPutm, serve_writeBack hf (.inl rfl) hidle]
    refine ⟨fun hd hsharers => ?_, fun hstale => ?_⟩
    · rw [if_pos (by rw [hd, hsharers]; simp)]
    · rw [if_neg (by simpa [imp_iff_not_or] using hstale)]
  · change execPutmm core line s = _
    rw [execPutmm, serve_writeBack hf (.inr rfl) hidle, if_pos (by rw [hd, hholds]; rfl)]
    simp only [List.isEmpty_iff] <;> rfl
  · change (_ → _ → _ → execHomeWrite line mask s = _) ∧ (_ → _ → execHomeWrite line mask s = _) ∧ (_ → execHomeWrite line mask s = _)
    have hlock : (m.data.any fun w => (s.lockFor w.warp w.pa).isSome) = false := by simpa using hlocks
    have hguard : (!s.idleLine line || m.data.any fun w => (s.lockFor w.warp w.pa).isSome) = false := by rw [hidle, hlock]; rfl
    simp only [execHomeWrite, hf, hguard, Bool.false_eq_true, if_false]
    set away := d.copies.filter fun c => !m.targets.contains c
    have hp {st : DirState} (hd : d.st = st) (h : st ≠ .p) : ¬ (d.st == .p) = true := fun hp => h (hd.symm.trans (beq_iff_eq.mp hp))
    have hm {st : DirState} (hd : d.st = st) (h : st ≠ .m) : ¬ (d.st == .m) = true := fun hm => h (hd.symm.trans (beq_iff_eq.mp hm))
    refine ⟨fun hd hdata hl => congrArg goes ?_, fun hd haway => congrArg goes ?_,
      fun hd => congrArg goes (if_pos (beq_iff_eq.mpr hd))⟩
    · have hst : ∃ st, d.st = st ∧ st ≠ .m ∧ st ≠ .p ∧ (st = .s → away = []) := by
        rcases hd with hd | ⟨hd, haway⟩
        · exact ⟨_, hd, by decide, by decide, nofun⟩
        · exact ⟨_, hd, by decide, by decide, fun _ => haway⟩
      obtain ⟨st, hd, hnm, hnp, haway⟩ := hst
      have hquiet : ¬ (d.st == .s && !away.isEmpty) = true := by
        rw [hd]
        simpa using haway
      refine (if_neg (hm hd hnm)).trans ((if_neg (hp hd hnp)).trans ((if_neg hquiet).trans ?_))
      have hsome : (!m.data.isEmpty) = true := by simpa using hdata
      refine (if_neg (by simp [hdata])).trans ((if_neg (by simp [hl])).trans ?_)
      rw [hsome]
    · refine (if_neg (hm hd (by decide))).trans ((if_neg (hp hd (by decide))).trans (if_pos ?_))
      rw [hd]
      simpa using haway

end Sys2Proof.Machine
end

section
/-! SUPPORT. The end of a home's transactions, fills and pushes, and messages at an L1 (R263 to R280, Tables 12.5 and 13.1). -/

namespace Sys2Proof.Machine

/-! ### Acknowledgements, fills and pushes -/

theorem fillL2_newLine_vers {s : State} {f : MscFill} {r : L2Line} (hr : tabFind (s.fillL2 f).l2 f.line = some r)
    (habsent : tabFind s.l2 f.line = none) : r.vers = List.replicate 4 (s.slice (homeOf (f.line * 128))).floor := by
  have hl2 : (s.mscTouch f.line f.cls).l2Line f.line = s.l2Line f.line := rfl
  have hnew : r.vers = (s.l2Line f.line).vers := by
    rw [State.fillL2, tabFind_tabSet_self] at hr
    rw [← Option.some.inj hr, ← hl2]
  rw [hnew, State.l2Line, habsent]
  rfl

theorem protocolAck_eq {s : State} {core line : Nat} {m : Msg} (hm : s.message? .ack core line = some m) :
    execProtocolAck core line s = .next (
      let d1 : DirEntry := { s.dir line with awaiting := (s.dir line).awaiting.filter (· != core) }
      let s1 := (s.take m).freshenMask line m.mask
      match (s.dir line).action with
      | none => s1
      | some a => if d1.awaiting.isEmpty then s1.homeAct line d1 a m.mask else s1.setDir line d1) := by
  rw [execProtocolAck, hm] <;> rfl

/-- Settles O51. -/
theorem homeFinishesAndPushes : Obligations.HomeFinishesAndPushes := by
  refine ⟨?_, ?_⟩
  · intro s core line m a f d d1 s1
    refine ⟨fun hm => ⟨fun ha => ?_, fun ha hlast => ?_, fun ha hmore => ?_⟩, fun hf hv => ⟨?_, fun r hr habsent => ?_⟩⟩
    · exact (protocolAck_eq hm).trans (by rw [show (s.dir line).action = none from ha])
    · refine (protocolAck_eq hm).trans ?_
      rw [show (s.dir line).action = some a from ha]
      exact congrArg _ (if_pos (List.isEmpty_iff.mpr hlast))
    · refine (protocolAck_eq hm).trans ?_
      rw [show (s.dir line).action = some a from ha]
      exact congrArg _ (if_neg fun h => hmore (List.isEmpty_iff.mp h))
    · simp [exec, execMscFill, hf, hv]
    · have hline : f.line = line := by simpa using List.find?_some hf
      subst hline
      exact fillL2_newLine_vers hr habsent
  · intro s core line room m w x r d1 left d2
    refine ⟨fun hm => ?_, fun hm hw => ?_, ?_, fun hno => ?_, fun hteam hx => ⟨fun hst => ?_, fun hst => ?_, fun hst hst' => ?_⟩,
      fun hteam hx => ⟨fun hgets => ?_, fun hgets hroom => ?_, fun hgets hquota hroom => ?_⟩⟩
    · simp only [exec, execPush, hm] <;> rfl
    · simp only [exec, execPushAck, hm, State.setDir_warps, State.take_warps, hw]
      congr 3
      by_cases hleft : left = []
      · exact (if_pos (List.isEmpty_iff.mpr hleft)).trans (by simp only [d2, if_pos hleft]; rfl)
      · exact (if_neg fun h => hleft (List.isEmpty_iff.mp h)).trans (by simp only [d2, if_neg hleft]; rfl)
    · cases m.flag <;> rfl
    · simp [State.receivePush, hno]
    · simp [State.receivePush, hteam, hx, hst]
    · simp [State.receivePush, hteam, hx, hst]
    · simp [State.receivePush, State.refusePush, hteam, hx, hst']
    · simp [State.receivePush, hteam, hx, hgets]
    · simp [State.receivePush, State.refusePush, hteam, hx, hgets, hroom]
    · simp [State.receivePush, hteam, hx, hgets, hroom, Nat.not_le.mpr hquota]

/-! ### Messages at the L1 -/

@[simp] theorem take_l1Line (s : State) (m : Msg) (core line : Nat) : (s.take m).l1Line core line = s.l1Line core line := rfl

@[simp] theorem returnedOf_some (x : L1Line) : returnedOf (some x) = x.returned := rfl

section
variable {s : State} {core line : Nat} {m : Msg} {k : MsgKind}

theorem deliver_eq (hm : s.message? k core line = some m) (f : State → Msg → Option L1Line → State) :
    s.deliver k core line f = .next (f (s.take m) m (s.l1Line core line)) := by
  rw [State.deliver, hm] <;> rfl

/-- A recall that no grant and no write-back of the core is on its way with returns the bytes of the copy. -/
theorem recalled_eq (hm : s.message? k core line = some m) (hgrant : s.granting core line = false)
    (hback : ∀ n ∈ (s.take m).net ++ (s.take m).arrived, n.kind = .putmm → n.core = core → n.line ≠ line) (f : State → State) :
    s.recalled k core line f = .next ((f (s.take m)).acknowledge core line (returnedOf (s.l1Line core line))) := by
  have hnone : ((s.take m).net ++ (s.take m).arrived).filter (fun n => n.kind == .putmm && n.core == core && n.line == line) = [] := by
    refine List.filter_eq_nil_iff.mpr fun n hn => ?_
    simpa using hback n hn
  rw [State.recalled, if_neg (by rw [hgrant]; exact Bool.false_ne_true), deliver_eq hm]
  simp only [hnone, List.foldl_nil]
  rw [show returnedOf (s.l1Line core line) ||| (0 : BitVec 128) = _ from BitVec.or_zero]

end

/-- Settles O52. -/
theorem l1Messages : Obligations.L1Messages := by
  intro s core line m x s1 at1 sent still goes acked
  refine ⟨fun hm ht hx => ?_, fun hm ht => ⟨fun ⟨hx, hst⟩ hflag hwait => ?_, fun ⟨hx, hst⟩ hflag hwait => ?_,
    fun ⟨hx, hst⟩ hflag hwait => ?_, fun ⟨hx, hst⟩ hwait hwant => ?_⟩, fun hm hat => ?_, fun hm => ⟨fun ⟨hx, hst⟩ => ?_, fun ⟨hx, hst⟩ => ?_⟩,
    fun hm ⟨hx, hst⟩ hwait hwant => ?_, fun hm => ⟨fun ⟨hx, hst⟩ => ?_, fun ⟨hx, hst⟩ => ?_, fun ⟨hx, hst⟩ => ?_, fun hx => ?_⟩,
    fun hgrant => ?_, fun ⟨hgrant, hback⟩ hm ⟨hx, hst⟩ hwait => ?_, fun ⟨hgrant, hback⟩ hm ⟨hx, hst⟩ hwait => ?_,
    fun ⟨hgrant, hback⟩ hm ⟨hx, hst⟩ => ?_, fun ⟨hgrant, hback⟩ hm => ⟨fun ⟨hx, hst⟩ hwait => ?_, fun ⟨hx, hst⟩ => ?_⟩⟩
  · change execData core line s = _
    rw [execData, deliver_eq hm]
    simp [hx, ht, goes, s1]
  · change execData core line s = _
    rw [execData, deliver_eq hm]
    simp [hx, ht, hst, hflag, hwait, State.installS, goes, s1]
  · change execData core line s = _
    rw [execData, deliver_eq hm]
    simp [hx, ht, hst, hflag, hwait, State.installS, goes, s1]
  · change execData core line s = _
    rw [execData, deliver_eq hm]
    simp [hx, ht, hst, hflag, hwait, State.reask, goes, s1]
  · change execData core line s = _
    rw [execData, deliver_eq hm]
    simp [hx, ht, hst, hwait, hwant, State.reask, goes, s1]
  · change execDatam core line s = _
    rw [execDatam, deliver_eq hm]
    rcases hat with ⟨hx, hst⟩ | ⟨hx, hst⟩ | ⟨hx, hst⟩ <;> simp [hx, hst, goes, s1]
  · change execUpgack core line s = _
    rw [execUpgack, deliver_eq hm]
    simp [hx, hst, goes, s1]
  · change execUpgack core line s = _
    rw [execUpgack, deliver_eq hm]
    simp [hx, hst, goes, s1]
  · change execPutack core line s = _
    rw [execPutack, deliver_eq hm]
    simp [hx, hst, hwait, hwant, State.reask, goes, s1]
  · change execInv core line s = _
    rw [execInv, deliver_eq hm]
    simp [State.l1Inv, hx, hst, acked, s1]
  · change execInv core line s = _
    rw [execInv, deliver_eq hm]
    simp [State.l1Inv, hx, hst, acked, s1]
  · change execInv core line s = _
    rw [execInv, deliver_eq hm]
    simp [State.l1Inv, hx, hst, acked, s1]
  · change execInv core line s = _
    rw [execInv, deliver_eq hm]
    simp [State.l1Inv, hx, acked, s1]
  · refine ⟨?_, ?_, ?_, ?_⟩ <;> exact if_pos hgrant
  · change execRecallS core line s = _
    rw [execRecallS, recalled_eq hm hgrant hback]
    simp [State.l1RecallS, L1Line.returned, hx, hst, hwait, acked, s1]
  · change execRecallI core line s = _
    rw [execRecallI, recalled_eq hm hgrant hback]
    simp [State.l1RecallI, State.reask, L1Line.returned, hx, hst, hwait, acked, s1]
  · change execRecallP core line s = _
    rw [execRecallP, recalled_eq hm hgrant hback]
    simp [State.l1RecallP, L1Line.returned, hx, hst, acked, s1]
  · change execMergeRecall core line s = _
    rw [execMergeRecall, recalled_eq hm hgrant hback]
    simp [State.l1Merge, State.reask, L1Line.returned, hx, hst, hwait, acked, s1]
  · change execMergeRecall core line s = _
    rw [execMergeRecall, recalled_eq hm hgrant hback]
    simp [State.l1Merge, L1Line.returned, hx, hst, acked, s1]

end Sys2Proof.Machine
end

section
/-! SUPPORT. Errors, power and resets (R283, R291, R398 to R405, R421). -/

namespace Sys2Proof.Machine

/-- The islands to lower for one hot die: its own, or any island for an I/O die. -/
theorem hotIslands_single (die : Nat) :
    (fun i => [die].contains (islandDie i) || [die].any fun d => decide (8 ≤ d)) = fun j => decide (j / 64 = die) || decide (8 ≤ die) := by
  funext i
  simp [islandDie, eq_comm]

/-- Settles O53. -/
theorem reliabilityEvents : Obligations.ReliabilityEvents := by
  intro s die other n pa t off i ctx core tm r goes fresh image
  refine ⟨fun hn => ⟨congrArg _ (if_pos hn), congrArg _ (if_pos hn)⟩,
    fun hn => ⟨congrArg _ (if_neg (Nat.not_lt.mpr hn)), congrArg _ (if_neg (Nat.not_lt.mpr hn))⟩, rfl, rfl, rfl,
    fun hn => congrArg _ (if_pos hn), fun hpa => ⟨congrArg _ (if_pos hpa), congrArg _ (if_pos hpa)⟩, fun ht => ?_, rfl, rfl,
    fun hw => ⟨fun hi => ?_, fun hi => ?_⟩, fun hw hhot hdie hi => ?_, fun hw hhot hi => ?_, fun hb => ?_, fun hv => if_pos hv,
    fun hv => if_neg (by rw [hv]; exact Bool.false_ne_true), fun hb => ?_, fun hb => ?_, rfl⟩
  · simp only [exec, execUncorrectableError, ht] <;> rfl
  · simp [exec, execPowerMeasurement, goes, powerLimit, hw, hi]
  · simp [exec, execPowerMeasurement, goes, powerLimit, hw, hi]
  · have hpower : ¬ powerLimit < r.watts := Nat.not_lt.mpr hw
    have hhot1 : r.hotDies.filter (fun d => decide (d < 10)) = [die] := by simp [hhot, hdie]
    change execPowerMeasurement r s = _
    simp only [execPowerMeasurement, hpower, hhot1, hotIslands_single, hi, if_false, List.isEmpty_cons, Bool.not_false, if_true] <;> rfl
  · have hpower : ¬ powerLimit < r.watts := Nat.not_lt.mpr hw
    simp [exec, execPowerMeasurement, goes, hpower, hhot, hi]
  · simp [exec, execPowerUp, goes, hb]
  · simp [exec, execWarmReset, goes, fresh, hb]
  · simp [exec, execWarmReset, goes, fresh, hb]

end Sys2Proof.Machine
end

section
/-! SUPPORT. Packets of streams: what the front end's own accesses leave alone, and the packets started and completed (R290, R352 to R370). -/

namespace Sys2Proof.Machine

/-! ### What the accesses of the front end leave alone -/

/-- A state that differs from `s` in memory, lines of caches, the directory, messages and answers of peers alone: what allocating accesses at a home can do. -/
def State.HomeSide (s t : State) : Prop :=
  ∃ cores mem poison l2 mscFills dirs slices net answers, t = { s with
    cores := cores, mem := mem, poison := poison, l2 := l2, mscFills := mscFills, dirs := dirs, slices := slices, net := net, answers := answers }

namespace State.HomeSide

variable {s t u : State}

theorem refl (s : State) : s.HomeSide s := ⟨_, _, _, _, _, _, _, _, _, rfl⟩

theorem trans (h : s.HomeSide t) (h' : t.HomeSide u) : s.HomeSide u := by
  obtain ⟨_, _, _, _, _, _, _, _, _, rfl⟩ := h
  obtain ⟨_, _, _, _, _, _, _, _, _, rfl⟩ := h'
  exact ⟨_, _, _, _, _, _, _, _, _, rfl⟩

theorem foldl {β : Type} {f : State → β → State} (h : ∀ (s : State) (b : β), s.HomeSide (f s b)) (l : List β) (s : State) : s.HomeSide (l.foldl f s) :=
  foldl_keeps (P := fun x => s.HomeSide x) (fun x b hx => hx.trans (h x b)) l s (refl s)

theorem msc (h : s.HomeSide t) : t.msc = s.msc := by obtain ⟨_, _, _, _, _, _, _, _, _, rfl⟩ := h; rfl
theorem queues (h : s.HomeSide t) : t.queues = s.queues := by obtain ⟨_, _, _, _, _, _, _, _, _, rfl⟩ := h; rfl

theorem setDir (s : State) (line : Nat) (d : DirEntry) : s.HomeSide (s.setDir line d) := ⟨_, _, _, _, _, _, _, _, _, rfl⟩
theorem setL1 (s : State) (c line : Nat) (x : L1Line) : s.HomeSide (s.setL1 c line x) := ⟨_, _, _, _, _, _, _, _, _, rfl⟩
theorem dropL1 (s : State) (c line : Nat) : s.HomeSide (s.dropL1 c line) := ⟨_, _, _, _, _, _, _, _, _, rfl⟩
theorem writeBytes (s : State) (a : Nat) (bs : List Byte) : s.HomeSide (s.writeBytes a bs) := ⟨_, _, _, _, _, _, _, _, _, rfl⟩
theorem dropTags (s : State) (tag n : Nat) : s.HomeSide (s.dropTags tag n) := ⟨_, _, _, _, _, _, _, _, _, rfl⟩

theorem send (s : State) (m : Msg) : s.HomeSide (s.send m) := by
  unfold State.send
  split
  · exact refl s
  · exact ⟨_, _, _, _, _, _, _, _, _, rfl⟩

theorem setVersion (s : State) (sect clock die : Nat) : s.HomeSide (s.setVersion sect clock die) := by
  unfold State.setVersion
  dsimp only
  split <;> exact ⟨_, _, _, _, _, _, _, _, _, rfl⟩

theorem freshenAll (s : State) (pa n : Nat) : s.HomeSide (s.freshenAll pa n) := foldl (fun s x => setVersion s x _ _) _ s

theorem freshenMask (s : State) (line : Nat) (m : BitVec 128) : s.HomeSide (s.freshenMask line m) := by
  refine foldl (fun s i => ?_) _ s
  split
  · exact refl s
  · exact setVersion ..

theorem reask (s : State) (c line : Nat) (x : L1Line) : s.HomeSide (s.reask c line x) := by
  unfold State.reask
  split
  · exact (setL1 ..).trans (send ..)
  · split
    · exact (setL1 ..).trans (send ..)
    · exact dropL1 ..

theorem l1Inv (s : State) (c line : Nat) : s.HomeSide (s.l1Inv c line) := by
  unfold State.l1Inv
  split
  · exact refl s
  · split
    · exact dropL1 ..
    · exact setL1 ..
    · exact setL1 ..
    · exact refl s

theorem l1RecallS (s : State) (c line : Nat) : s.HomeSide (s.l1RecallS c line) := by
  unfold State.l1RecallS
  split
  · exact refl s
  · split
    · exact refl s
    · split
      · exact setL1 ..
      · exact (setL1 ..).trans (send ..)

theorem l1RecallI (s : State) (c line : Nat) : s.HomeSide (s.l1RecallI c line) := by
  unfold State.l1RecallI
  split
  · exact refl s
  · split
    · exact reask ..
    · exact refl s

theorem l1Merge (s : State) (c line : Nat) : s.HomeSide (s.l1Merge c line) := by
  unfold State.l1Merge
  split
  · exact refl s
  · split
    · exact reask ..
    · exact setL1 ..
    · exact refl s

theorem callInBut (s : State) (line : Nat) (m : BitVec 128) (all : Bool) (keep : List Nat) : s.HomeSide (s.callInBut line m all keep) := by
  unfold State.callInBut
  dsimp only
  split
  · exact refl s
  · split
    · exact (foldl (fun s c => l1Inv s c line) _ s).trans (setDir ..)
    · exact refl s
  · split
    · exact (freshenMask ..).trans ((l1RecallI ..).trans (setDir ..))
    · exact (freshenMask ..).trans ((l1RecallS ..).trans (setDir ..))
  · exact (foldl (fun (s : State) (h : Nat × BitVec 128) => (freshenMask s line _).trans (l1Merge _ h.1 line)) _ s).trans (setDir ..)

/-- An access that allocates goes to the L2, and asks the MSC for a line that is not there. -/
theorem l2Access (s : State) (line : Nat) (c : CacheClass) (dirty : Bool) : s.HomeSide (s.l2Access line c false dirty) := by
  unfold State.l2Access
  split
  · unfold State.l2Hit
    split
    · exact refl s
    · split <;> exact ⟨_, _, _, _, _, _, _, _, _, rfl⟩
  · rw [if_neg Bool.false_ne_true, State.askMsc]
    split
    · exact refl s
    · split <;> exact ⟨_, _, _, _, _, _, _, _, _, rfl⟩

theorem homeStore (s : State) (pa : Nat) (bs : List Byte) (c : CacheClass) : s.HomeSide (s.homeStore pa bs c) :=
  (foldl (fun s l => callInBut s l _ true []) _ s).trans ((writeBytes ..).trans ((freshenAll ..).trans (foldl (fun s l => l2Access s l c true) _ _)))

theorem post (s : State) (w : WaitingStore) (c : CacheClass) (na : Bool) : s.HomeSide (s.post w c na) := by
  unfold State.post
  dsimp only
  split
  · exact ⟨_, _, _, _, _, _, _, _, _, rfl⟩
  · exact send ..

theorem controlWrite (s : State) (pa : Nat) (bs : List Byte) : s.HomeSide (s.controlWrite pa bs) := by
  unfold State.controlWrite
  split
  · exact homeStore ..
  · exact post ..

theorem mirror (s : State) (pa : Nat) (old new : List Byte) : s.HomeSide (s.mirror pa old new) := by
  unfold State.mirror
  split
  · exact refl s
  · exact controlWrite ..

theorem homeRead (s : State) (pa n : Nat) : s.HomeSide (s.homeRead pa n) := by
  refine foldl (fun s l => ?_) _ s
  split
  · exact refl s
  · exact callInBut ..

theorem frontTouch (s : State) (ctx : Nat) (x : Nat × Nat) : s.HomeSide (s.frontTouch ctx x) := by
  unfold State.frontTouch
  split
  · split
    · exact refl s
    · exact (homeRead ..).trans (l2Access ..)
  · exact refl s

theorem walkTouch (s : State) (cache : List TlbEntry) (ctx va : Nat) : s.HomeSide (s.walkTouch cache ctx va) := by
  refine foldl (fun s a => ?_) _ s
  split
  · exact (homeRead ..).trans (l2Access ..)
  · exact l2Access ..

theorem setFlag (s : State) (ctx va : Nat) : s.HomeSide (s.setFlag ctx va) := by
  unfold State.setFlag
  split
  · split
    · exact refl s
    · exact homeStore ..
  · exact refl s

theorem frontRead {ctx tag va n : Nat} {x : List Byte × Bool} (h : s.frontRead ctx tag va n = .ok (t, x)) : s.HomeSide t := by
  unfold State.frontRead State.rangeRead at h
  dsimp only at h
  split at h
  · cases h
  · split at h
    · cases h
    · cases h
      exact (foldl (fun s a => setFlag s ctx a) _ s).trans ((foldl (fun s a => walkTouch s [] ctx _) _ _).trans
        ((foldl (fun s x => frontTouch s ctx x) _ _).trans (dropTags ..)))

theorem frontFetch {ctx tag va n : Nat} {bs : List Byte} (h : s.frontFetch ctx tag va n = .ok (t, bs)) : s.HomeSide t := by
  unfold State.frontFetch at h
  split at h <;> cases h
  exact frontRead ‹_›

end State.HomeSide

/-! ### Streams and contexts -/

theorem putStream_side (s : State) (q : Nat) (x : Queue) : ({ s with queues := tabSet s.queues q x } : State).HomeSide (s.putStream q x) :=
  (State.HomeSide.mirror ..).trans ((State.HomeSide.mirror ..).trans (State.HomeSide.mirror ..))

theorem putContext_side (s : State) (n : Nat) (c : Context) : ({ s with contexts := tabSet s.contexts n c } : State).HomeSide (s.putContext n c) :=
  (State.HomeSide.mirror ..).trans (State.HomeSide.mirror ..)

theorem putStream_stream (s : State) (q : Nat) (x : Queue) : (s.putStream q x).stream q = x := by
  rw [State.stream, (putStream_side s q x).queues]
  exact tabGet_tabSet_self ..

theorem dropWindow_msc (s : State) (wid : Nat) (w : Window) : (s.dropWindow wid w).msc =
    s.msc.map fun e => if w.frames.contains (e.1 / 512) then (e.1, { e.2 with cls := .cls .normal }) else e := by
  rw [State.dropWindow, State.countPinned, (putContext_side ..).msc]

theorem askFor_queues (s : State) (e : FrontStop) : (s.askFor e).queues = s.queues := by
  unfold State.askFor
  split
  · unfold State.askOnce
    split <;> rfl
  · rfl

theorem packetRead_queues {s s1 : State} {q : Nat} {p : List Byte} (h : s.packetRead q = .ok (s1, p)) : s1.queues = s.queues := by
  rw [State.packetRead] at h
  exact (State.HomeSide.frontFetch h).queues

theorem stream_congr {s t : State} (h : t.queues = s.queues) (q : Nat) : t.stream q = s.stream q := by
  rw [State.stream, State.stream, h]

/-- Reading the next head packet leaves HEAD. -/
theorem loadHead_head (s : State) (q : Nat) : ((s.loadHead q).stream q).head = (s.stream q).head := by
  rw [State.loadHead]
  split
  · split
    · rw [putStream_stream]
    · rfl
  · split
    · rfl
    · cases hread : s.packetRead q with
      | error e => rw [stream_congr (askFor_queues s e)]
      | ok r =>
        obtain ⟨s1, p⟩ := r
        dsimp only
        split
        · rfl
        · rw [putStream_stream, ← stream_congr (packetRead_queues hread)]

theorem leaveHead_head (s : State) (q : Nat) (fl : List InFlight) : ((s.leaveHead q fl).stream q).head = (s.stream q).head + 1 := by
  unfold State.leaveHead
  dsimp only
  rw [loadHead_head, putStream_stream]
  unfold Queue.settle
  split <;> rfl

end Sys2Proof.Machine
end

section
/-! SUPPORT. Packets of streams as they start and complete (R290, R352 to R370). -/

namespace Sys2Proof.Machine

/-! ### Launches -/

/-- What a launch made from a KERNEL packet holds, and what R360 asked of its packet and descriptor. -/
theorem makeLaunch_some {s : State} {q ctx depth : Nat} {parent : Option Nat} {p db args : List Byte} {y : Launch}
    (h : s.makeLaunch q ctx depth parent p db args = some y) :
    y.number = s.nextLaunch ∧ y.ctx = ctx ∧ y.depth = depth ∧ y.queue = q ∧ y.packet = p ∧ y.args = args ∧ y.desc = KernelDesc.ofBytes db
      ∧ y.dispatched = 0 ∧ y.status = .running ∧ y.parent = parent ∧ kernelFieldsOk p = true ∧ fieldAt p 1 1 &&& 0xF8 = 0
      ∧ (KernelDesc.ofBytes db).ok (s.unitsAt ctx (KernelDesc.ofBytes db).code) (if bit (fieldAt p 1 1) 1 then 32 else 64) = true := by
  simp only [State.makeLaunch, Option.ite_none_right_eq_some, Bool.and_eq_true, beq_iff_eq, Option.some.injEq] at h
  obtain ⟨⟨⟨⟨⟨⟨-, hflags⟩, hfields⟩, hdesc⟩, -⟩, -⟩, rfl⟩ := h
  exact ⟨rfl, rfl, rfl, rfl, rfl, rfl, rfl, rfl, rfl, rfl, hfields, hflags, hdesc⟩

theorem startLaunch_read {s s0 : State} {source : Option (Nat × Nat)} {tag q ctx depth : Nat} {parent : Option Nat} {p db args : List Byte}
    (h : s.launchReads ctx tag p = .ok (s0, db, args)) :
    s.startLaunch source tag q ctx depth parent p = .ok (s0.beginLaunch source q ctx depth parent p (some (db, args))) := by
  rw [State.startLaunch, h]

theorem beginLaunch_made {s : State} {source : Option (Nat × Nat)} {q ctx depth : Nat} {parent : Option Nat} {p db args : List Byte} {y : Launch}
    (h : s.makeLaunch q ctx depth parent p db args = some y) :
    s.beginLaunch source q ctx depth parent p (some (db, args)) =
      (let begun := ({ s with nextLaunch := s.nextLaunch + 1 } : State).record frontDie 6 ctx 0xFFFF 0 s.nextLaunch (fieldAt p 8 8)
      ({ begun with nextId := begun.nextId + 1, launches := tabSet begun.launches begun.nextId y }, some begun.nextId)) := by
  simp only [State.beginLaunch, Option.bind_some, h]

theorem beginLaunch_refused {s : State} {source : Option (Nat × Nat)} {q ctx depth : Nat} {parent : Option Nat} {p db args : List Byte}
    (h : s.makeLaunch q ctx depth parent p db args = none) :
    s.beginLaunch source q ctx depth parent p (some (db, args)) =
      (let begun := ({ s with nextLaunch := s.nextLaunch + 1 } : State).record frontDie 6 ctx 0xFFFF 0 s.nextLaunch (fieldAt p 8 8)
      ((begun.record frontDie 7 ctx 0xFFFF 2 s.nextLaunch 0).fireEvent source ctx (fieldAt p 0x30 8) 2 (fieldAt p 0 1) 1, none)) := by
  simp only [State.beginLaunch, Option.bind_some, h]

section
variable {s s1 : State} {q : Nat} {h : Head}

theorem startKernel_made {id : Nat}
    (hstart : s.startLaunch (s.headSource q) (fetchTag 1 q) q (s.stream q).ctx 1 none h.packet = .ok (s1, some id)) :
    s.startKernel q h = s1.putStream q { s1.stream q with current := some { h with started := some id } } := by
  rw [State.startKernel, hstart]

theorem startKernel_refused
    (hstart : s.startLaunch (s.headSource q) (fetchTag 1 q) q (s.stream q).ctx 1 none h.packet = .ok (s1, none)) :
    s.startKernel q h = s1.leaveHead q [] := by
  rw [State.startKernel, hstart]

end

/-! ### Windows -/

theorem newWindow_some {s : State} {ctx wid base len : Nat} {pin : Bool} {w : Window} (h : s.newWindow ctx wid pin base len = some w) :
    wid < 64 ∧ tabFind s.windows wid = none ∧ base % 65536 = 0 ∧ len ≠ 0 ∧ len % 65536 = 0
      ∧ w.ctx = ctx ∧ w.base = base ∧ w.length = len ∧ w.pin = pin ∧ s.pinnedBy ctx + w.charge ≤ (s.context ctx).pinLim
      ∧ ∀ t, t < 16 → s.windows.foldl (fun a e => a + e.2.share t) (w.share t) ≤ 768 * 1048576 := by
  unfold State.newWindow at h
  split at h
  · cases h
  next hargs =>
  split at h
  · cases h
  dsimp only at h
  split at h
  · cases h
  next hlimits =>
  cases h
  simp only [Bool.or_eq_true, decide_eq_true_eq, bne_iff_ne, beq_iff_eq, not_or, Option.not_isSome_iff_eq_none, not_not, not_le] at hargs
  obtain ⟨⟨⟨⟨⟨hwid, hfree⟩, hbase⟩, hlen⟩, hlen64⟩, -⟩ := hargs
  simp only [Bool.or_eq_true, decide_eq_true_eq, not_or, not_lt, List.any_eq_true, not_exists, not_and] at hlimits
  obtain ⟨hpin, hshare⟩ := hlimits
  exact ⟨hwid, hfree, hbase, hlen, hlen64, rfl, rfl, rfl, rfl, hpin, fun t ht => hshare t (List.mem_range.mpr ht)⟩

theorem startWindowCreate_ok {s s2 : State} {q : Nat} {h : Head} (hok : windowFieldsOk h.packet = true) (hop : fieldAt h.packet 2 1 = 1)
    (hlen : fieldAt h.packet 0x10 8 ≤ 2 ^ 40)
    (hs2 : s.setFlags (s.stream q).ctx (fieldAt h.packet 8 8) (fieldAt h.packet 0x10 8) = s2)
    (hflags : s2.flagsHeld (s.stream q).ctx (fieldAt h.packet 8 8) (fieldAt h.packet 0x10 8) = false) :
    s.startWindowCreate q h =
      match s2.newWindow (s.stream q).ctx (fieldAt h.packet 3 1) (fieldAt h.packet 4 1 == 0) (fieldAt h.packet 8 8) (fieldAt h.packet 0x10 8) with
      | some w => ({ s2 with windows := tabSet s2.windows (fieldAt h.packet 3 1) w }.countPinned (s.stream q).ctx).endHead q h.packet 0
      | none => s2.endHead q h.packet 2 := by
  rw [State.startWindowCreate, if_neg (by rw [hok, hop]; decide), if_pos hlen, hs2]
  dsimp only
  rw [hflags, Bool.and_false, if_neg Bool.false_ne_true] <;> rfl

/-! ### INVALIDATE -/

theorem tabFind_map {α β : Type} (t : Tab α) (f : α → β) (k : Nat) : tabFind (t.map fun e => (e.1, f e.2)) k = (tabFind t k).map f := by
  induction t with
  | nil => rfl
  | cons e r ih =>
    rw [List.map_cons, tabFind, tabFind]
    split
    · rfl
    · split
      · rfl
      · exact ih

/-- No translation of a context is left in a core's TLB once all of them are removed. -/
theorem invalidate_tlb (s : State) (ctx core : Nat) : ∀ e ∈ ((s.invalidate ctx none).core core).tlb, e.ctx ≠ ctx := by
  intro e he
  let f (c : Core) : Core := { c with tlb := c.tlb.filter fun x => !(x.ctx == ctx && true) }
  have hcore : tabFind (s.invalidate ctx none).cores core = (tabFind s.cores core).map f := tabFind_map s.cores f core
  rw [State.core, tabGet, hcore] at he
  cases hc : tabFind s.cores core with
  | none =>
    rw [hc] at he
    cases he
  | some c =>
    rw [hc] at he
    obtain ⟨-, hne⟩ := List.mem_filter.mp he
    simpa using hne

/-- The fields that an INVALIDATE packet may have (Table 17.7). -/
def invalidateLegal (p : List Byte) : Prop :=
  restZero p [(0, 2), (8, 16), (0x30, 8)] = true ∧ (fieldAt p 0x10 8 = 0 ∨ rangeCanonical (fieldAt p 8 8) (fieldAt p 0x10 8) = true)

theorem invalidate_refused_iff (p : List Byte) : (!restZero p [(0, 2), (8, 16), (0x30, 8)]
    || (fieldAt p 0x10 8 != 0 && !rangeCanonical (fieldAt p 8 8) (fieldAt p 0x10 8))) = true ↔ ¬ invalidateLegal p := by
  rw [invalidateLegal]
  generalize restZero p _ = a, rangeCanonical (fieldAt p 8 8) (fieldAt p 0x10 8) = b, fieldAt p 0x10 8 = n
  cases a <;> cases b <;> simp

section
variable {s : State} {q : Nat} {h : Head}

theorem startInvalidate_refused (hbad : ¬ invalidateLegal h.packet) : s.startInvalidate q h = s.endHead q h.packet 2 :=
  if_pos ((invalidate_refused_iff _).mpr hbad)

theorem startInvalidate_ok (hok : invalidateLegal h.packet) : s.startInvalidate q h =
    (let gone := s.invalidate (s.stream q).ctx (invalidateRange h.packet)
    if gone.accessesDone (s.stream q).ctx s.clock (invalidateRange h.packet) then gone.endHead q h.packet 0
    else gone.leaveHead q [.invalidate (s.stream q).head h.packet s.clock]) :=
  if_neg fun hbad => (invalidate_refused_iff _).mp hbad hok

end

/-! ### COPY -/

theorem moveCopy_of_run {s s2 : State} {q n m k : Nat} {pk : List Byte} {pieces : Nat → Nat} (hcopy : (s.stream q).copying = some (n, pk, m, none))
    (hrun : s.copyRun (s.stream q).ctx (copyTag q n) pk (pieces (fieldAt pk 0x18 8)) m = (s2, k, none)) (hall : fieldAt pk 0x18 8 ≤ k)
    (hout : s2.tagsOut (copyTag q n) (2 ^ 64) = false) :
    s.moveCopy q pieces = (s2.dropTags (copyTag q n) (2 ^ 64)).endPacket q n pk (if s2.tagsLost (copyTag q n) (2 ^ 64) then 4 else 0)
      fun i => i.isCopy n := by
  rw [State.moveCopy, hcopy]
  dsimp only
  rw [State.runCopy, hrun]
  dsimp only
  rw [if_pos hall, State.endCopy, hout, if_neg Bool.false_ne_true]

/-- Settles O54. -/
theorem packetsStart : Obligations.PacketsStart := by
  intro s s0 q id n m wid base len h c x y cores pk db args pin win s1 p ctx refused at1 goes fresh
  have turn : ∀ {kind : Nat} {f : State → Nat → Head → State}, at1 kind → s.onTurn q kind f = f s1 q h := by
    rintro kind f ⟨hturn, hhead⟩
    rw [State.onTurn, hhead, State.startTurn, hturn, beq_self_eq_true]
  have destroys : ∀ {b : Bool}, at1 4 → (fieldAt h.packet 2 1 == 2) = b → s.destroys q = b := by
    rintro b ⟨-, hhead⟩ hb
    rw [State.destroys, hhead, ← hb] <;> rfl
  refine ⟨fun ha => congrArg _ (turn ha), fun ha => congrArg _ (turn ha), fun ha => congrArg _ (turn ha), fun ha hop => ?_, fun ha hop => ?_,
    fun ha => congrArg _ (turn ha), fun ha => congrArg _ (turn ha), ?_, fun hbad => ?_, ?_, newWindow_some, fun hw hok hctx => ?_, fun hbad => ?_,
    fun hw hctx => ?_, fun e he hframe => ?_, ?_, invalidate_tlb s id, fun hok => if_pos hok,
    fun hbad => if_neg (by rw [hbad]; exact Bool.false_ne_true), fun hturn hc => ?_, fun hturn hx => ?_, fun hturn hx s2 hplace => ?_, ?_⟩
  · refine congrArg _ ((if_neg ?_).trans (turn ha))
    rw [destroys ha (beq_eq_false_iff_ne.mpr hop)]
    exact Bool.false_ne_true
  · exact congrArg _ ((if_pos (destroys ha (beq_iff_eq.mpr hop))).trans (turn ha))
  · intro number begun hread
    refine ⟨fun hmade => ?_, fun hmade => ?_⟩
    · obtain ⟨hnum, hctx, hdepth, hq, hp, hargs, hdesc, hdisp, hst, hpar, hfields, hflags, hok⟩ := makeLaunch_some hmade
      refine ⟨hnum, hctx, hdepth, hq, hp, hargs, hdesc, hdisp, hst, hpar, hfields, hflags, by rw [hdesc]; exact hok, ?_⟩
      exact startKernel_made ((startLaunch_read hread).trans (congrArg Except.ok (beginLaunch_made hmade)))
    · exact startKernel_refused ((startLaunch_read hread).trans (congrArg Except.ok (beginLaunch_refused hmade)))
  · refine if_pos ?_
    rcases hbad with hf | hop
    · rw [show windowFieldsOk h.packet = false from hf] <;> rfl
    · simp [show fieldAt h.packet 2 1 ≠ 1 from hop]
  · intro hok hop hlen s2 made hflags
    have hstart := startWindowCreate_ok hok hop hlen rfl hflags
    refine ⟨fun hm => ?_, fun hm => ?_⟩
    · exact hstart.trans (by rw [show State.newWindow .. = some win from hm])
    · exact hstart.trans (by rw [show State.newWindow .. = none from hm])
  · rw [State.startWindowDestroy, show tabFind s.windows (fieldAt h.packet 3 1) = some win from hw]
    exact if_pos (by rw [show windowFieldsOk h.packet = true from hok, show win.ctx = (s.stream q).ctx from hctx]; simp)
  · rw [State.startWindowDestroy]
    split
    · next w hw =>
      have hfields : windowFieldsOk h.packet = false := hbad.resolve_left fun hnone => by
        rw [show tabFind s.windows (fieldAt h.packet 3 1) = none from hnone] at hw
        cases hw
      exact if_neg (by rw [hfields]; exact Bool.false_ne_true)
    · rfl
  · rw [State.startWindowDestroy, show tabFind s.windows (fieldAt h.packet 3 1) = some win from hw]
    exact if_neg (by simp [show win.ctx ≠ (s.stream q).ctx from hctx])
  · rw [dropWindow_msc] at he
    obtain ⟨e0, -, rfl⟩ := List.mem_map.mp he
    by_cases hin : win.frames.contains (e0.1 / 512) = true
    · rw [if_pos hin]
    · rw [if_neg hin] at hframe
      exact absurd hframe hin
  · intro range legal gone
    refine ⟨fun hbad => startInvalidate_refused hbad, fun hok hdone => ?_, fun hok hdone => ?_⟩
    · exact (startInvalidate_ok hok).trans (if_pos hdone)
    · exact (startInvalidate_ok hok).trans (if_neg (by rw [show State.accessesDone .. = false from hdone]; exact Bool.false_ne_true))
  · change execChildGridStart q s = _
    simp only [execChildGridStart, hturn, beq_self_eq_true, hc] <;> rfl
  · change execTeamDispatch q s = _
    simp only [execTeamDispatch, hturn, beq_self_eq_true, if_true, hx] <;> rfl
  · have hwave : execWaveStart id s = goes (
        if fresh then (s2.noteWave id (s.waveClusters id x)).countDispatch id ((s.waveClusters id x).length * x.clusterSize)
        else ((s2.noteWave id (s.waveClusters id x)).countDispatch id 0).spawnAll id false) := by
      simp only [execWaveStart, hturn, beq_self_eq_true, if_true, hx, show (s.served q).placeWave id x = .ok s2 from hplace]
      cases hfresh : (s.savedClusters id x.clusterSize).isEmpty <;> simp [fresh, hfresh, goes]
    refine ⟨fun hfresh => hwave.trans ?_, fun hfresh => hwave.trans ?_⟩ <;> rw [hfresh] <;> rfl
  · intro hcopy tag s2 k hrun hall hout
    exact congrArg goes (moveCopy_of_run hcopy hrun hall hout)

end Sys2Proof.Machine
end

section
/-! SUPPORT. SIGNAL, WAIT and completion events, and the events of streams and grids (R357, R359, R362, R363, R366, R370). -/

namespace Sys2Proof.Machine

/-! ### Completion events -/

section
variable {s : State} {g : Signal} {va : Nat} (hva : g.va = some va) (hout : s.tagsOut (signalTag g.id) 1 = false)
include hva

theorem skipSignal_eq : s.skipSignal g = s.record 8 8 g.ctx 0xFFFF g.code 0 va := by
  rw [State.skipSignal, hva]
  rfl

section
variable {s0 : State} {p : Phys} (hs0 : s.setFlags g.ctx va 8 = s0) (hflags : s0.flagsHeld g.ctx va 8 = false)
  (hp : s0.translateFront g.ctx va .readWrite = some p)
include hs0 hflags hp

theorem addValue_local (hfab : p.fab = false) (hfree : s0.heldBack p.pa 8 = false) (hclean : isPoisoned s0.poison p.pa 8 = false) :
    s.addValue g = some (s0.homeStore p.pa (leBytes 8 (natOfBytes (s0.bytesAt p.pa 8) + g.add)) .normal) := by
  subst hs0
  have hget : g.va.getD 0 = va := by rw [hva, Option.getD_some]
  rw [State.addValue, hget, hflags, if_neg Bool.false_ne_true, hp]
  dsimp only
  rw [hfab, if_neg Bool.false_ne_true, hfree, if_neg Bool.false_ne_true, hclean, if_neg Bool.false_ne_true]

theorem addValue_remote (hfab : p.fab = true) (hpeer : s0.lostPeer p.pkg = false) :
    s.addValue g = some (s0.request p.pkg (.atomic .add .n64 p.pa g.add 0) .front (signalTag g.id) va) := by
  subst hs0
  have hget : g.va.getD 0 = va := by rw [hva, Option.getD_some]
  rw [State.addValue, hget, hflags, if_neg Bool.false_ne_true, hp]
  dsimp only
  rw [hfab, if_pos rfl, hpeer, if_neg Bool.false_ne_true]

end

include hout

theorem stepSignal_misaligned (hstage : g.stage = .status) (hal : va % 16 ≠ 0) :
    s.stepSignal g = some (s.record 8 8 g.ctx 0xFFFF g.code 0 va, .done) := by
  rw [State.stepSignal, hout, if_neg Bool.false_ne_true, hstage, hva]
  exact (if_pos (bne_iff_ne.mpr hal)).trans (by rw [skipSignal_eq hva])

theorem stepSignal_status {s1 : State} (hstage : g.stage = .status) (hal : va % 16 = 0)
    (hwrite : s.frontWrite g.ctx (signalTag g.id) (va + 8) (leBytes 8 (g.code + g.kind * 256)) = .ok s1) :
    s.stepSignal g = some (s1, .value) := by
  rw [State.stepSignal, hout, if_neg Bool.false_ne_true, hstage, hva]
  refine (if_neg (by rw [hal]; decide)).trans ?_
  rw [hwrite]

omit hva in
theorem stepSignal_value (hstage : g.stage = .value) : s.stepSignal g = (s.addValue g).map fun s1 => (s1, .done) := by
  rw [State.stepSignal, hout, if_neg Bool.false_ne_true, hstage]

end

/-- Settles O55. -/
theorem packetsComplete : Obligations.PacketsComplete := by
  refine ⟨?_, ?_⟩
  · intro s q h ctx s0
    refine ⟨fun hok => ?_, fun hflags => ?_, leaveHead_head s q⟩
    · rw [State.startSignal, hok] <;> rfl
    · have hfree : ¬ ((waitEvents h.packet).any fun e => s0.flagsHeld ctx e.1 8) = true := by simpa using hflags
      have hgo : s.startWait q h = if s0.waitBad ctx h.packet then s0.leaveHead q []
          else if s0.waitHolds q ctx h.packet then (s0.dropCopies ctx fun _ => true).leaveHead q []
          else { s0.putStream q { s0.stream q with current := some { h with waiting := true } } with
            watched := s0.watched ++ watchWords ctx h.packet } := if_neg hfree
      refine ⟨fun hbad => ?_, fun hbad hholds => ?_, fun hbad hholds => ?_⟩
      · rw [hgo, if_pos hbad]
      · rw [hgo, hbad, if_neg Bool.false_ne_true, if_pos hholds]
      · rw [hgo, hbad, if_neg Bool.false_ne_true, hholds, if_neg Bool.false_ne_true]
  · intro s g va s1 p hva hout s0
    refine ⟨fun hstage => ⟨stepSignal_misaligned hva hout hstage, stepSignal_status hva hout hstage⟩,
      fun hstage hflags hp hfab hfree hclean => ?_, fun hstage hflags hp hfab hpeer => ?_⟩
    · rw [stepSignal_value hout hstage, addValue_local hva rfl hflags hp hfab hfree hclean] <;> rfl
    · rw [stepSignal_value hout hstage, addValue_remote hva rfl hflags hp hfab hpeer] <;> rfl

/-! ### Streams and grids -/

theorem haltDue_of_headError {s : State} {q e : Nat} (hopen : s.streamOpen (s.stream q) = true) (he : s.headError q = some e) :
    s.haltDue q = some e := by
  have hen : (s.stream q).enabled = true ∧ (s.stream q).halted = false := by
    rw [State.streamOpen] at hopen
    simp only [Bool.and_eq_true, Bool.not_eq_true'] at hopen
    exact hopen.1.1
  rw [State.haltDue, hen.1, hen.2, hopen]
  refine (if_neg Bool.false_ne_true).trans ?_
  split
  · next hsize =>
    rw [State.headError, if_pos hsize] at he
    exact he
  · exact he

theorem recordOut_eq (x : Launch) : x.recordOut = x.record.bind fun r => if x.field 0x38 8 = 0 then none else some (x.field 0x38 8, r.bytes) := by
  simp only [Launch.recordOut, beq_iff_eq]

theorem endEvent_eq {s : State} {id : Nat} {x : Launch} : s.endEvent id x =
    if x.field 0x30 8 = 0 ∧ x.recordOut = none then s
    else s.signal (s.launchSource id x) x.ctx (if x.field 0x30 8 = 0 then none else some (x.field 0x30 8)) x.code 1 1 x.recordOut := by
  simp only [State.endEvent, Bool.and_eq_true, beq_iff_eq, Option.isNone_iff_eq_none]

theorem gridComplete_eq {s : State} {id : Nat} {x : Launch} (hx : tabFind s.launches id = some x) (hdone : s.gridDone id x = true) :
    execGridComplete id s = .next (
      let s1 := (s.endEvent id x).record frontDie 7 x.ctx 0xFFFF x.code x.number 0
      let s2 : State := { s1.keepPages x with launches := tabDel s1.launches id }
      let held := ((s2.stream x.queue).current.bind (·.started)) == some id && x.parent.isNone
      (if held then s2.leaveHead x.queue [] else s2).endFlight x.queue fun i => i.isLaunch id) := by
  rw [execGridComplete, hx]
  exact congrArg _ (if_neg (by rw [hdone]; exact Bool.false_ne_true))

/-- Settles O56. -/
theorem streamEvents : Obligations.StreamEvents := by
  intro s q e v id ctx va x goes
  refine ⟨fun hopen he => ?_, fun hen hhalt hsize => ?_, fun hq hword htail => ?_, fun hwatched => ?_, rfl, fun hdue => ?_, fun hx hdone hva => ?_⟩
  · have hhalt : s.haltDue q = some e := haltDue_of_headError hopen he
    simp only [exec, execStreamHalt, hhalt] <;> rfl
  · have hhalt : s.haltDue q = some 3 := by
      rw [State.haltDue, hen, hhalt]
      exact (if_neg Bool.false_ne_true).trans (if_pos hsize)
    simp only [exec, execStreamHalt, hhalt] <;> rfl
  · refine congrArg goes (if_pos ?_)
    rw [hword, hq, beq_self_eq_true, bne_iff_ne.mpr htail] <;> rfl
  · exact congrArg goes (if_pos (List.contains_iff_mem.mpr hwatched))
  · exact congrArg goes (if_pos hdue)
  · intro out told s1 s2 held
    have htold : s.endEvent id x = told := by
      rw [endEvent_eq, recordOut_eq, hva]
    refine (gridComplete_eq hx hdone).trans ?_
    rw [htold] <;> rfl

end Sys2Proof.Machine
end

section
/-! SUPPORT. Deterministic quanta: the instructions that end one, and the meeting (R345, R387 to R391). -/

namespace Sys2Proof.Machine

theorem atMeeting_waits {α : Type} {env : Env} (h : env.logs = true) (i : Instr) (k : Except Stop α) :
    env.atMeeting i k = .error (.wait (.meeting (some i))) := if_pos h

theorem batch_legal {w : Warp} {m : BitVec 16} (h : m = w.batch ∨ 32768 ≤ (m - w.batch).toNat) : (m != w.batch && batchLe w.batch m) = false := by
  rcases h with rfl | h
  · rw [bne_self_eq_false, Bool.false_and]
  · rw [batchLe, decide_eq_false (Nat.not_lt.mpr h), Bool.and_false]

/-- Settles O57: each instruction passes its checks and is then held for the meeting. -/
theorem quantaAndMeetings : Obligations.QuantaAndMeetings := by
  intro s k id w env x sc o d n a b y c v p x' op reuse bar?
  refine ⟨fun hw hready hx hq hcount => ?_, fun hrun hdet => ?_, fun hdue hx => ?_⟩
  · have hused : s.quantumUsed w = true := by
      rw [State.quantumUsed, hx]
      simp [hq, hcount]
    change execQuantumEnd k s = _
    rw [execQuantumEnd, onWarp_some hw]
    exact congrArg _ (if_pos (by rw [hready, hused]; rfl))
  · intro waits parks together
    have hlogs : env.logs = true := (logs_eq_det (env?_meeting hrun.2.2.1)).trans hdet
    have hmem {i : Instr} {f : State → Nat → Env → Warp → Except Stop (State × Warp)}
        (hf : f s k env w = .error (.wait (.meeting (some i)))) : s.issueMem f = .next (s.putWarp k { w with status := .waiting (.meeting (some i)) }) :=
      issueMem_stops hrun hf
    have hof {i : Instr} {f : State → Nat → Env → Warp → Effect}
        (hf : f s k env w = .error (.wait (.meeting (some i)))) : s.issueOf 4 f = .next (s.putWarp k { w with status := .waiting (.meeting (some i)) }) :=
      runs_stops hrun hf
    have hpark {i : Instr} {f : State → Nat → Env → Warp → Effect} (hf : f s k env w.drain = .error (.wait (.meeting (some i)))) :
        s.issueParked 4 f = .next (s.putWarp k { w.drain with status := .waiting (.meeting (some i)) }) := issueParked_stops hrun hf
    refine ⟨hmem (atMeeting_waits hlogs _ _), hmem (atMeeting_waits hlogs _ _), fun hb => hmem ?_, fun hparked htx => ?_, fun ht => hpark ?_,
      fun hcluster ht => hpark ?_, fun htx => ⟨hmem ?_, hof ?_, hmem ?_, hof ?_, fun ho => hof ?_⟩, ?_, ?_, fun f ho => hpark ?_⟩
    · exact (if_neg (by simpa using hb)).trans (atMeeting_waits hlogs _ _)
    · have hexit : exit env w = .error (.wait (.meeting (some .exit))) := by
        rw [exit, point_ok hparked, htx, stopIf_false, atMeeting_waits hlogs]
      exact issue_stops hrun (f := fun env w => exit env w) hexit
    · obtain ⟨hparked, hhandler, htx, hactive⟩ := ht
      dsimp only [bar]
      rw [drain_drain, point_ok hparked, hhandler, htx, converged_ok hactive, atMeeting_waits hlogs]
      rfl
    · obtain ⟨hparked, hhandler, htx, hactive⟩ := ht
      dsimp only [cbar]
      rw [drain_drain, point_ok hparked, beq_eq_false_iff_ne.mpr hcluster, hhandler, htx, converged_ok hactive, atMeeting_waits hlogs]
      rfl
    · dsimp only [satom]
      rw [htx, stopIf_false, atMeeting_waits hlogs]
    · dsimp only [qappend]
      rw [htx, stopIf_false, atMeeting_waits hlogs]
    · dsimp only [qappendTry]
      rw [htx, stopIf_false, atMeeting_waits hlogs]
    · dsimp only [qpop]
      rw [htx, stopIf_false, atMeeting_waits hlogs]
    · dsimp only [tcopyY]
      rw [htx, stopIf_false, sharedObject_ok ho, atMeeting_waits hlogs]
    · intro m htype htx hnames
      have hatom (i : Instr) (f : LaneAccess) : vectorAtomic op d n i s env m f = .error (.wait (.meeting (some i))) := by
        dsimp only [vectorAtomic]
        rw [typeCheck_ok htype, htx, stopIf_false, rangeCheck_ok hnames, atMeeting_waits hlogs]
      exact ⟨hmem (hatom _ _), hmem (hatom _ _)⟩
    · intro m hm
      refine hpark ?_
      dsimp only [await]
      rw [batch_legal hm, stopIf_false, atMeeting_waits hlogs]
    · dsimp only [bwait]
      rw [drain_drain, sharedObject_ok ho, atMeeting_waits hlogs]
  · change execMeeting id s = _
    rw [execMeeting, hdue, hx]

end Sys2Proof.Machine
end

section
/-! SUPPORT. The management queue: when a command is taken, and what each command does (R296, R354 to R356, R373, R382, R384, R402 to R406, R411, R412). -/

namespace Sys2Proof.Machine

/-! ### When a command is taken (R405, R411) -/

/-- A command with a code is taken: the queue is connected, no command waits, and the package's state lets the command through. -/
structure State.Takes (s : State) (code : Nat) : Prop where
  up : s.mgmtUp = true
  free : s.command = none
  limited : s.boot = .limited → whileLimited code = true
  frozen : s.frozen = true ∨ s.boot = .verifying → whileFrozen code = true

theorem takes_always {s : State} {code : Nat} (hup : s.mgmtUp = true) (hfree : s.command = none) (hl : whileLimited code = true)
    (hf : whileFrozen code = true) : s.Takes code := ⟨hup, hfree, fun _ => hl, fun _ => hf⟩

theorem takes_running {s : State} (hrun : s.boot = .running) (hup : s.mgmtUp = true) (hfree : s.command = none) (hfrozen : s.frozen = false)
    (code : Nat) : s.Takes code := by
  refine ⟨hup, hfree, fun h => ?_, fun h => ?_⟩
  · rw [hrun] at h
    cases h
  · rw [hfrozen, hrun] at h
    rcases h with h | h <;> cases h

section
variable {s s1 : State} {code tag : Nat} {f : State → Verdict} {p : List Byte}

theorem onCommand_passes (h : s.Takes code) : (!s.mgmtUp || s.command.isSome) = false ∧ (s.boot == .limited && !whileLimited code) = false
    ∧ ((s.frozen || s.boot == .verifying) && !whileFrozen code) = false := by
  obtain ⟨hup, hfree, hlimited, hfrozen⟩ := h
  refine ⟨by rw [hup, hfree]; rfl, ?_, ?_⟩
  · by_cases hb : s.boot = .limited
    · simp [hlimited hb]
    · simp [hb]
  · by_cases hb : s.frozen = true ∨ s.boot = .verifying
    · simp [hfrozen hb]
    · simpa [not_or] using fun h => absurd (by simpa using h) hb

theorem onCommand_done (h : s.Takes code) (hf : f s = .done s1 p) : s.onCommand code tag f = .next (s1.answer code tag 0 p) := by
  obtain ⟨h1, h2, h3⟩ := onCommand_passes h
  simp only [State.onCommand, h1, h2, h3, hf, Bool.false_eq_true, if_false]

theorem onCommand_later (h : s.Takes code) (hf : f s = .later s1) : s.onCommand code tag f = .next s1 := by
  obtain ⟨h1, h2, h3⟩ := onCommand_passes h
  simp only [State.onCommand, h1, h2, h3, hf, Bool.false_eq_true, if_false]

theorem onCommand_badPayload (h : s.Takes code) (hf : f s = .badPayload) : s.onCommand code tag f = .next (s.answer code tag 2 []) := by
  obtain ⟨h1, h2, h3⟩ := onCommand_passes h
  simp only [State.onCommand, h1, h2, h3, hf, Bool.false_eq_true, if_false]

theorem onCommand_refused (h : s.Takes code) (hf : f s = .refused) : s.onCommand code tag f = .next (s.answer code tag 3 []) := by
  obtain ⟨h1, h2, h3⟩ := onCommand_passes h
  simp only [State.onCommand, h1, h2, h3, hf, Bool.false_eq_true, if_false]

theorem onCommand_limited (hup : s.mgmtUp = true) (hfree : s.command = none) (hb : s.boot = .limited) (hcode : whileLimited code = false) :
    s.onCommand code tag f = .next (s.answer code tag 3 []) := by
  simp [State.onCommand, hup, hfree, hb, hcode]

theorem onCommand_frozen (hup : s.mgmtUp = true) (hfree : s.command = none) (hb : s.boot ≠ .limited)
    (hf : s.frozen = true ∨ s.boot = .verifying) (hcode : whileFrozen code = false) : s.onCommand code tag f = .next (s.answer code tag 4 []) := by
  rcases hf with hf | hf <;> simp [State.onCommand, hup, hfree, hb, hf, hcode]

end

section
variable {s : State} {ctx base len : Nat}

theorem regions_apart (h : ∀ c ∈ s.regionsOf ctx, base + len ≤ c.base ∨ c.base + c.len ≤ base) :
    ((s.regionsOf ctx).any fun r => decide (r.base < base + len) && decide (base < r.base + r.len)) = false := by
  rw [List.any_eq_false]
  intro c hc
  have := h c hc
  simp only [Bool.and_eq_true, decide_eq_true_eq]
  omega

end

/-- Settles O58. -/
theorem managementCommands : Obligations.ManagementCommands := by
  intro s tag ctx gen q base len report die team id code host entry units image nonce r members macs pr us fs i cr tm x v pages table since answers p
  refine ⟨fun hb hh => ?_, fun hup hfree => ⟨fun hd => ?_, fun hne hlen => ?_, fun hbad => ?_, fun hn => ?_, fun hb => ?_, fun hb => ⟨?_, ?_⟩, fun hb hf => ⟨?_, ?_⟩⟩,
    fun hrun hup hfree hfrozen => ?_⟩
  · exact congrArg _ (if_pos (by rw [hh, beq_self_eq_true, Bool.and_true]; exact bne_iff_ne.mpr hb))
  · change execEvread tag die s = _
    exact onCommand_done (takes_always hup hfree rfl rfl) (if_neg (Nat.not_le.mpr hd))
  · change execReflash tag image s = _
    refine onCommand_done (takes_always hup hfree rfl rfl) (if_neg ?_)
    have hfits : fitsPayload image.length = true := decide_eq_true hlen
    simp [hfits, hne]
  · change execReflash tag image s = _
    refine onCommand_badPayload (takes_always hup hfree rfl rfl) (if_pos ?_)
    rcases hbad with rfl | hlen
    · rfl
    · have hfits : fitsPayload image.length = false := decide_eq_false (Nat.not_le.mpr hlen)
      rw [hfits, Bool.not_false, Bool.or_true]
  · change execAttest tag nonce s = _
    exact onCommand_done (takes_always hup hfree rfl rfl) (if_neg (by simp [hn]))
  · change execEvrelease tag s = _
    exact onCommand_done ⟨hup, hfree, fun h => absurd h hb, fun _ => rfl⟩ rfl
  · change execEvrelease tag s = _
    exact onCommand_limited hup hfree hb rfl
  · change execSuspend tag ctx s = _
    exact onCommand_limited hup hfree hb rfl
  · change execSuspend tag ctx s = _
    exact onCommand_frozen hup hfree hb hf rfl
  · change execQwrite tag q entry s = _
    exact onCommand_frozen hup hfree hb hf rfl
  · have htakes := takes_running hrun hup hfree hfrozen
    have hargs (hctx : ctx < 256) (hgen : gen < 2 ^ 24) (hentry : contextEntryOk entry = true) :
        (decide (256 ≤ ctx) || decide (2 ^ 24 ≤ gen) || !contextEntryOk entry) = false := by
      rw [decide_eq_false (Nat.not_le.mpr hctx), decide_eq_false (Nat.not_le.mpr hgen), hentry] <;> rfl
    refine ⟨fun hctx => ⟨fun hgen hentry => ⟨fun hen => ?_, fun hen hstate => ?_⟩, ?_, ?_, fun hreg => ?_,
        fun hunits hsize hbase hbase64 hlen hlen32 hcount hapart hfit hframes => ?_, fun hreg hver hbound hpages hsize htable hfit => ?_⟩,
      fun hq hentry => ?_, fun hr => ⟨?_, ?_⟩, fun hteam hx => ⟨fun hst => ?_, fun hst hquant hwarps => ?_, fun hst => ?_⟩, fun hdomain => ?_,
      fun hcode => ?_, fun hlo hhi => ?_⟩
    · change execCtxwrite tag ctx gen entry s = _
      exact onCommand_done (htakes 1) ((if_neg (by rw [hargs hctx hgen hentry]; exact Bool.false_ne_true)).trans (if_pos (by rw [hen]; rfl)))
    · change execCtxwrite tag ctx gen entry s = _
      exact onCommand_later (htakes 1) ((if_neg (by rw [hargs hctx hgen hentry]; exact Bool.false_ne_true)).trans ((if_neg (by rw [hen]; decide)).trans
        (if_neg (by rw [hstate]; decide))))
    · change execSuspend tag ctx s = _
      exact onCommand_later (htakes 6) (if_neg (Nat.not_le.mpr hctx))
    · change execResume tag ctx s = _
      exact onCommand_done (htakes 7) (if_neg (Nat.not_le.mpr hctx))
    · change execCodedrop tag ctx base s = _
      refine onCommand_done (htakes 5) ((if_neg (Nat.not_le.mpr hctx)).trans ?_)
      rw [hreg]
    · change execCodereg tag ctx base len units s = _
      refine onCommand_done (htakes 3) ?_
      have hfits : fitsPayload units.length = true := decide_eq_true hsize
      have hargs : (!fitsPayload units.length || decide (256 ≤ ctx) || base % 65536 != 0 || decide (2 ^ 64 ≤ base) || len == 0
          || decide (2 ^ 32 ≤ len)) = false := by
        rw [hfits, hbase, decide_eq_false (Nat.not_le.mpr hctx), decide_eq_false (Nat.not_le.mpr hbase64),
          decide_eq_false (Nat.not_le.mpr hlen32), beq_eq_false_iff_ne.mpr hlen.ne'] <;> rfl
      have hroom : (decide (64 ≤ (p.regionsOf ctx).length)
          || ((p.regionsOf ctx).any fun r => decide (r.base < base + len) && decide (base < r.base + r.len)) || !unitsFit len us) = false := by
        rw [decide_eq_false (Nat.not_le.mpr hcount), regions_apart hapart, hfit] <;> rfl
      simp only [hunits]
      refine (if_neg (by rw [hargs]; exact Bool.false_ne_true)).trans ((if_neg (by rw [hroom]; exact Bool.false_ne_true)).trans ?_)
      rw [hframes]
    · change execCodemod tag ctx base pages table s = _
      refine onCommand_done (htakes 4) ?_
      have hfits : fitsPayload (65536 * pages.length + (table.getD []).length) = true := decide_eq_true hsize
      have hwhole : (pages.any fun g => g.2.length != 65536) = false := by
        rw [List.any_eq_false]
        exact fun g hg => by simpa using (hpages g hg).1
      have hinside : (pages.any fun g => decide (regionPages cr.len ≤ g.1)) = false := by
        rw [List.any_eq_false]
        exact fun g hg => by simpa using (hpages g hg).2
      have hargs : (decide (256 ≤ ctx) || (pages.any fun g => g.2.length != 65536)
          || !fitsPayload (65536 * pages.length + (table.getD []).length)) = false := by
        rw [decide_eq_false (Nat.not_le.mpr hctx), hwhole, hfits] <;> rfl
      have hroom : (decide (16 ≤ (cr.versions.filter fun y => p.bound i y.1).length) || !unitsFit cr.len us) = false := by
        rw [decide_eq_false (Nat.not_le.mpr hbound), hfit] <;> rfl
      obtain ⟨us0, hus0, hus⟩ : ∃ us0, (table.map unitsOf).getD (some []) = some us0 ∧ (if table.isSome then us0 else v.units) = us := by
        cases table with
        | none => exact ⟨[], rfl, htable.symm⟩
        | some bs => exact ⟨us, htable, rfl⟩
      refine (if_neg (by rw [hargs]; exact Bool.false_ne_true)).trans ?_
      simp only [show s.pruneCode.findRegion ctx base = some (i, cr) from hreg, hus0, hver, hus]
      exact (if_neg (by rw [hinside]; exact Bool.false_ne_true)).trans (if_neg (by
        rw [show (decide _ || !unitsFit cr.len us) = false from hroom]; exact Bool.false_ne_true))
    · intro y
      change execQwrite tag q entry s = _
      exact onCommand_done (htakes 2) (if_neg (by simp [hq, hentry]))
    · change execFaultanswerRetry tag report s = _
      exact onCommand_done (htakes 8) (by simp only [hr])
    · change execFaultanswerAbort tag report s = _
      exact onCommand_done (htakes 8) (by simp only [hr])
    · change execLogread tag team s = _
      exact onCommand_done (htakes 11) (by rcases hst with hst | hst | hst <;> simp [hteam, hx, hst])
    · change execLogread tag team s = _
      have hall : ((s.liveWarps team).all fun e => e.2.status == .stopped) = true := by simpa using hwarps
      exact onCommand_done (htakes 11) (by simp only [hteam, hx, hst, hquant, hall]; rfl)
    · change execLogread tag team s = _
      exact onCommand_refused (htakes 11) (by simp [hteam, hx, hst])
    · intro same gone s1
      change execDomain tag id members macs pr s = _
      exact onCommand_done (htakes 14) (if_neg (by simp [hdomain]))
    · have hunknown : ¬ (decide (1 ≤ code) && decide (code ≤ 14)) = true := by simp; omega
      change execManagementUnknownCode code tag s = _
      refine (if_neg hunknown).trans ?_
      simp [hup, hfree, hfrozen, hrun]
    · change execManagementUnknownCode code tag s = _
      exact (if_pos (by simp [hlo, hhi])).trans (onCommand_badPayload (htakes code) rfl)

end Sys2Proof.Machine
end

section
/-! SUPPORT. RDMA requests, and the links, frames, peers and collectives of the fabric (R399, R407 to R410, R413 to R415, R420, R421). -/

namespace Sys2Proof.Machine

/-! ### RDMA requests -/

/-- A working queue pair with nothing earlier waiting. -/
structure State.PairFree (s : State) (qp : Nat) : Prop where
  running : s.boot = .running
  works : s.brokenPairs.contains qp = false
  small : qp < 4096
  alone : ∀ r ∈ s.rdmaPending, r.qp ≠ qp

section
variable {s t : State} {r r1 : RdmaRequest}

theorem pair_open (hrun : s.boot = .running) (hworks : s.brokenPairs.contains r.qp = false) (hsmall : r.qp < 4096) :
    (s.boot != .running || s.brokenPairs.contains r.qp || decide (maxPairs ≤ r.qp)) = false := by
  have hfits : decide (maxPairs ≤ r.qp) = false := decide_eq_false (Nat.not_le.mpr hsmall)
  rw [hrun, hworks, hfits]; rfl

theorem pair_alone (h : s.PairFree r.qp) : (s.rdmaPending.any fun j => j.qp == r.qp) = false := by
  rw [List.any_eq_false]
  exact fun j hj => by simpa using h.alone j hj

theorem hostArrive_done (h : s.PairFree r.qp) (hreq : s.hostRequest r = .done t) : s.hostArrive r = t := by
  rw [State.hostArrive, pair_open h.running h.works h.small, if_neg Bool.false_ne_true, pair_alone h, if_neg Bool.false_ne_true, hreq]

theorem hostArrive_going (h : s.PairFree r.qp) (hreq : s.hostRequest r = .going t r1) :
    s.hostArrive r = { t with rdmaPending := t.rdmaPending ++ [r1] } := by
  rw [State.hostArrive, pair_open h.running h.works h.small, if_neg Bool.false_ne_true, pair_alone h, if_neg Bool.false_ne_true, hreq]

theorem hostRequest_refused (hkey : s.keyOk r.key = false) : s.hostRequest r = .done (s.reply (.remoteAccessError r.qp)) := by
  rw [State.hostRequest, hkey]
  exact if_pos rfl

end

section
variable {s : State} {qp key va : Nat} (hkey : s.keyOk key = true)
include hkey

theorem hostRequest_write (bs : List Byte) : s.hostRequest ⟨qp, key, va, .write bs, false⟩ = s.hostWrite ⟨qp, key, va, .write bs, false⟩ bs := by
  rw [State.hostRequest, hkey]
  exact if_neg Bool.false_ne_true

theorem hostRequest_read (n : Nat) : s.hostRequest ⟨qp, key, va, .read n, false⟩ = s.hostRead ⟨qp, key, va, .read n, false⟩ n := by
  rw [State.hostRequest, hkey]
  exact if_neg Bool.false_ne_true

theorem hostRequest_add (x : Nat) :
    s.hostRequest ⟨qp, key, va, .fetchAndAdd x, false⟩ = s.hostAtomic ⟨qp, key, va, .fetchAndAdd x, false⟩ .add x 0 := by
  rw [State.hostRequest, hkey]
  exact if_neg Bool.false_ne_true

theorem hostRequest_cas (x y : Nat) :
    s.hostRequest ⟨qp, key, va, .compareAndSwap x y, false⟩ = s.hostAtomic ⟨qp, key, va, .compareAndSwap x y, false⟩ .cas x y := by
  rw [State.hostRequest, hkey]
  exact if_neg Bool.false_ne_true

end

section
variable {s : State} {r : RdmaRequest} {op : AtomicOp} {data swap : Nat}

theorem hostAtomic_misaligned (h : r.va % 8 ≠ 0) : s.hostAtomic r op data swap = .done (s.reply (.invalidRequest r.qp)) := by
  rw [State.hostAtomic, if_pos (bne_iff_ne.mpr h)]

/-- What a local atomic of the host leaves, and the old value it replies: a read-modify-write at the home of its bytes (R326). -/
def hostAtomicDone (at1 : State) (qp pa : Nat) (op : AtomicOp) (data swap : Nat) : State :=
  let old := natOfBytes (at1.bytesAt pa 8)
  (match atomicInt op false 64 old data swap with
    | some v => at1.homeWrite pa (leBytes 8 v) .normal true
    | none => at1.callIn (pa / 128) (lineMask pa 8) true).reply (.done qp (leBytes 8 old))

theorem performRemote_host {at0 : State} {pa : Nat} (hclean : isPoisoned (at0.remoteTouch pa 8).poison pa 8 = false) :
    at0.performRemote (hostAtomicOp op pa data swap) =
      (let at1 := at0.remoteTouch pa 8
       let old := natOfBytes (at1.bytesAt pa 8)
       (match atomicInt op false 64 old data swap with
        | some v => at1.homeWrite pa (leBytes 8 v) .normal true
        | none => at1.callIn (pa / 128) (lineMask pa 8) true, leBytes 8 old, false)) := by
  refine (if_neg (c := isPoisoned (at0.remoteTouch pa 8).poison pa 8 = true) ?_).trans rfl
  rw [hclean]
  exact Bool.false_ne_true

/-- A local atomic of the host is performed at the home of its bytes. -/
theorem hostAtomic_local {p : Phys} (hal : r.va % 8 = 0) (hp : s.frontPlace (keyContext r.key) r.va 8 = .ok p) (hfab : p.fab = false)
    (hclean : isPoisoned ((s.walkRange (keyContext r.key) r.va 8).remoteTouch p.pa 8).poison p.pa 8 = false) :
    s.hostAtomic r op data swap =
      .done (hostAtomicDone ((s.walkRange (keyContext r.key) r.va 8).remoteTouch p.pa 8) r.qp p.pa op data swap) := by
  have hgo : ¬ (r.va % 8 != 0) = true := by rw [hal]; decide
  rw [State.hostAtomic, if_neg hgo, hp]
  dsimp only
  rw [hfab, if_neg Bool.false_ne_true, performRemote_host hclean]
  rfl

end

section
variable {s s1 : State} {qp key va n : Nat} {bytes bs : List Byte} {bad : Bool}

/-- A write that is performed whole waits for what it has sent to peers, or is done. -/
theorem hostWrite_sent (h : s.rangeWrite (keyContext key) (pairTag qp) va bytes = .ok s1) (hout : s1.tagsOut (pairTag qp) (2 ^ 140) = true) :
    s.hostWrite ⟨qp, key, va, .write bytes, false⟩ bytes = .going s1 ⟨qp, key, va, .write bytes, true⟩ := by
  rw [State.hostWrite, if_neg Bool.false_ne_true, h]
  exact if_pos hout

theorem hostWrite_done (h : s.rangeWrite (keyContext key) (pairTag qp) va bytes = .ok s1) (hout : s1.tagsOut (pairTag qp) (2 ^ 140) = false) :
    s.hostWrite ⟨qp, key, va, .write bytes, false⟩ bytes = .done (s1.reply (.done qp [])) := by
  rw [State.hostWrite, if_neg Bool.false_ne_true, h]
  exact if_neg (ne_true_of_eq_false hout)

theorem hostWrite_bad (h : s.rangeWrite (keyContext key) (pairTag qp) va bytes = .error .bad) :
    s.hostWrite ⟨qp, key, va, .write bytes, false⟩ bytes = .done (s.reply (.remoteAccessError qp)) := by
  rw [State.hostWrite, if_neg Bool.false_ne_true, h]

theorem hostRead_done (h : s.rangeRead (keyContext key) (pairTag qp) va n = .ok (s1, bs, bad)) :
    s.hostRead ⟨qp, key, va, .read n, false⟩ n = .done (s1.reply (if bad then .remoteOperationError qp else .done qp bs)) := by
  rw [State.hostRead, h]

theorem hostRead_bad (h : s.rangeRead (keyContext key) (pairTag qp) va n = .error .bad) :
    s.hostRead ⟨qp, key, va, .read n, false⟩ n = .done ((s.dropAnswers qp).reply (.remoteAccessError qp)) := by
  rw [State.hostRead, h]

end

theorem hostAtomicDone_add (at1 : State) (qp pa x swap : Nat) :
    hostAtomicDone at1 qp pa .add x swap =
      (at1.homeWrite pa (leBytes 8 ((natOfBytes (at1.bytesAt pa 8) + x) % 2 ^ 64)) .normal true).reply (.done qp (leBytes 8 (natOfBytes (at1.bytesAt pa 8)))) :=
  rfl

theorem atomicInt_cas (isSigned : Bool) (bitsN old x swap : Nat) :
    atomicInt .cas isSigned bitsN old x swap = if old == x then some swap else none := rfl

theorem hostAtomicDone_cas (at1 : State) (qp pa x y : Nat) :
    hostAtomicDone at1 qp pa .cas x y =
      (if natOfBytes (at1.bytesAt pa 8) = x then at1.homeWrite pa (leBytes 8 y) .normal true
        else at1.callIn (pa / 128) (lineMask pa 8) true).reply (.done qp (leBytes 8 (natOfBytes (at1.bytesAt pa 8)))) := by
  by_cases h : natOfBytes (at1.bytesAt pa 8) = x
  · rw [hostAtomicDone, if_pos h, atomicInt_cas, if_pos (beq_iff_eq.mpr h)]
  · rw [hostAtomicDone, if_neg h, atomicInt_cas, if_neg (h ∘ beq_iff_eq.mp)]

theorem invalidRequest_replied {s : State} {qp : Nat} (hrun : s.boot = .running) (hworks : s.brokenPairs.contains qp = false) (hqp : qp < 4096)
    (kind : RdmaKind) : execRdmaInvalidRequest qp kind s = .next (s.reply (.invalidRequest qp)) := by
  have hopen := pair_open (r := ⟨qp, 0, 0, .read 0, false⟩) hrun hworks hqp
  rw [execRdmaInvalidRequest, hopen, if_neg Bool.false_ne_true]

theorem queuePair_breaks {s : State} {qp : Nat} (hworks : s.brokenPairs.contains qp = false) (hqp : qp < 4096) :
    execQueuePairBroken qp s = .next (({ s.dropAnswers qp with
      brokenPairs := s.brokenPairs ++ [qp], rdmaPending := s.rdmaPending.filter fun r => r.qp != qp }).fabricEvent 8 4 qp) := by
  have hfits : decide (maxPairs ≤ qp) = false := decide_eq_false (Nat.not_le.mpr hqp)
  rw [execQueuePairBroken, hworks, hfits]
    <;> rfl

/-- Settles O59. -/
theorem rdmaRequests : Obligations.RdmaRequests := by
  intro s s1 qp key va n x y bytes bs kind p hrun hworks hqp ctx at1 old local8 replies
  refine ⟨invalidRequest_replied hrun hworks hqp kind, queuePair_breaks hworks hqp, fun halone => ?_⟩
  have done : ∀ {op : RdmaOp} {t : State}, s.hostRequest ⟨qp, key, va, op, false⟩ = .done t →
      Host.Outcome.next (φ := Fault) (ρ := Refusal) (s.hostArrive ⟨qp, key, va, op, false⟩) = .next t :=
    fun h => congrArg _ (hostArrive_done ⟨hrun, hworks, hqp, halone⟩ h)
  have going : ∀ {op : RdmaOp} {t : State} {r1 : RdmaRequest}, s.hostRequest ⟨qp, key, va, op, false⟩ = .going t r1 →
      Host.Outcome.next (φ := Fault) (ρ := Refusal) (s.hostArrive ⟨qp, key, va, op, false⟩) = .next { t with rdmaPending := t.rdmaPending ++ [r1] } :=
    fun h => congrArg _ (hostArrive_going ⟨hrun, hworks, hqp, halone⟩ h)
  refine ⟨fun hkey => ⟨done (hostRequest_refused hkey), done (hostRequest_refused hkey)⟩, fun hkey => ?_⟩
  have hwr := hostRequest_write (qp := qp) (va := va) hkey bytes
  have hrd := hostRequest_read (qp := qp) (va := va) hkey n
  have hadd := hostRequest_add (qp := qp) (va := va) hkey x
  have hcas := hostRequest_cas (qp := qp) (va := va) hkey x y
  refine ⟨fun h => ⟨fun hout => done (hwr.trans (hostWrite_done h hout)), fun hout => going (hwr.trans (hostWrite_sent h hout))⟩,
    fun h => done (hwr.trans (hostWrite_bad h)), fun h => done (hrd.trans (hostRead_done h)), fun h => done (hrd.trans (hostRead_done h)),
    fun h => done (hrd.trans (hostRead_bad h)),
    fun h => ⟨done (hadd.trans (hostAtomic_misaligned h)), done (hcas.trans (hostAtomic_misaligned h))⟩, ?_⟩
  rintro ⟨hal, hp, hfab, hclean⟩
  exact ⟨done ((hadd.trans (hostAtomic_local hal hp hfab hclean)).trans (congrArg _ (hostAtomicDone_add ..))),
    done ((hcas.trans (hostAtomic_local hal hp hfab hclean)).trans (congrArg _ (hostAtomicDone_cas ..)))⟩

/-! ### Frames, links and peers -/

section
variable {s : State} {h : KltHeader} {typ size : Nat} {f : State → State}

/-- The next frame in SEQ order is performed and acknowledged (R414). -/
theorem onFrame_next (hok : s.headerOk h typ = true) (hsize : size ≤ 4096)
    (hseq : h.seq = (((s.takeAck h).peer h.src).path h.path).ackSeq) :
    s.onFrame h typ size f =
      (let x := (s.takeAck h).peer h.src
       let p := x.path h.path
       .next ((f ((s.takeAck h).putPeer h.src (x.setPath h.path { p with ackSeq := (p.ackSeq + 1) % 2 ^ 32 }))).sendControl h.src h.path false)) := by
  have hgo : ¬ (!s.headerOk h typ || decide (4096 < size)) = true := by simp [hok, hsize]
  rw [State.onFrame, if_neg hgo]
  exact congrArg _ (if_pos (beq_iff_eq.mpr hseq))

/-- A repeated frame is acknowledged again, and a gap answered with NAK (R414). -/
theorem onFrame_out_of_order (hok : s.headerOk h typ = true) (hsize : size ≤ 4096)
    (hseq : h.seq ≠ (((s.takeAck h).peer h.src).path h.path).ackSeq) :
    s.onFrame h typ size f =
      .next ((s.takeAck h).sendControl h.src h.path (seqBefore (((s.takeAck h).peer h.src).path h.path).ackSeq h.seq)) := by
  have hgo : ¬ (!s.headerOk h typ || decide (4096 < size)) = true := by simp [hok, hsize]
  rw [State.onFrame, if_neg hgo]
  exact congrArg _ (if_neg (hseq ∘ beq_iff_eq.mp))

/-- A frame whose header is not accepted, or whose payload is too large, is dropped (R413). -/
theorem onFrame_dropped (hbad : s.headerOk h typ = false ∨ 4096 < size) : s.onFrame h typ size f = .next s := by
  have hstop : (!s.headerOk h typ || decide (4096 < size)) = true := by
    rcases hbad with hbad | hbad
    · simp [hbad]
    · simp [hbad]
  rw [State.onFrame, if_pos hstop]

theorem once_first (hnew : (s.peer h.src).performed.contains h.reqid = false) :
    s.once h f = f (s.putPeer h.src { s.peer h.src with performed := (s.peer h.src).performed ++ [h.reqid] }) := by
  rw [State.once]
  exact if_neg (ne_true_of_eq_false hnew)

end

section
variable {s : State} {h : KltHeader} {r : RemoteOp}

theorem kltRequest_free (hfree : s.heldBack (RemoteOp.pa r) (RemoteOp.size r) = false) :
    execKltRequest h r s = s.onFrame h 1 (RemoteOp.payload r) fun s => s.once h fun s =>
      let line := RemoteOp.pa r / 128
      if remoteInside r then
        let x := s.performRemote r
        x.1.respond h line x.2.1 x.2.2
      else s.respond h line (List.replicate (RemoteOp.size r) 0) true :=
  if_neg (ne_true_of_eq_false hfree)

theorem kltRequest_dropped (hbad : s.headerOk h 1 = false ∨ 4096 < RemoteOp.payload r) : execKltRequest h r s = .next s := by
  by_cases hheld : s.heldBack (RemoteOp.pa r) (RemoteOp.size r) = true
  · exact if_pos hheld
  · rw [kltRequest_free (eq_false_of_ne_true hheld), onFrame_dropped hbad]

end

/-- Settles O60. -/
theorem fabricEvents : Obligations.FabricEvents := by
  intro s port peer path h r c data bad reset q id co s1 x p s2 y s3 new goes acked
  refine ⟨fun hport hdown => ?_, fun hup => ?_, fun hok hfree hsize => ⟨?_, fun hseq => ?_⟩, fun hbad => ?_, fun hok hsize hseq hfind => ?_,
    fun hok => ?_, fun hok => ?_, fun hok hsize hnew hmember => ?_, fun hok => ?_, fun hdue => ?_, fun hlost => ?_,
    fun hfind hready hdone => ⟨fun hdet => ?_, fun hdet => ?_⟩⟩
  · change execLinkUp port s = _
    have hgo : ¬ (decide (8 ≤ port) || nth s.ports port false) = true := by simp [hport, hdown]
    rw [execLinkUp, if_neg hgo]
  · exact congrArg Host.Outcome.next (if_pos hup)
  · rintro ⟨hseq, hnew⟩ hinside
    change execKltRequest h r s = _
    rw [kltRequest_free hfree, onFrame_next hok hsize hseq]
    refine congrArg (fun t : State => Host.Outcome.next (t.sendControl h.src h.path false)) ((once_first hnew).trans ?_)
    exact if_pos hinside
  · exact (kltRequest_free hfree).trans (onFrame_out_of_order hok hsize hseq)
  · exact kltRequest_dropped hbad
  · intro s4 s5
    change execKltResponse h data bad s = _
    rw [execKltResponse, onFrame_next hok hsize hseq]
    refine congrArg (fun t : State => Host.Outcome.next (t.sendControl h.src h.path false)) ?_
    have hfind' : (s2.peer h.src).outstanding.find? (fun z => z.reqid == h.reqid) = some q := hfind
    dsimp only
    rw [hfind'] <;> rfl
  · exact congrArg Host.Outcome.next (if_pos hok)
  · exact congrArg Host.Outcome.next (if_pos hok)
  · obtain ⟨hseq, hnew⟩ := hnew
    change execKltCollective h c s = _
    rw [execKltCollective, onFrame_next hok hsize hseq]
    refine congrArg (fun t : State => Host.Outcome.next (t.sendControl h.src h.path false)) ((once_first hnew).trans ?_)
    exact if_neg (by simp [hmember])
  · exact congrArg Host.Outcome.next (if_pos hok)
  · exact congrArg Host.Outcome.next (if_pos hdue)
  · have hgone : (s.peerLate peer || (reset && (s.peer peer).member && !(s.peer peer).lost)) = true := by
      rcases hlost with hlate | ⟨hreset, hmember, hpresent⟩
      · rw [hlate, Bool.true_or]
      · rw [hreset, hmember, hpresent, Bool.or_eq_true]
        exact Or.inr rfl
    exact congrArg Host.Outcome.next (if_pos hgone)
  · have hgo : (s.collReady id co && !co.done) = true := by rw [hready, hdone]; rfl
    change execCollComplete id s = _
    rw [execCollComplete, hfind]
    exact congrArg Host.Outcome.next ((if_pos hgo).trans (if_pos hdet))
  · have hgo : (s.collReady id co && !co.done) = true := by rw [hready, hdone]; rfl
    change execCollComplete id s = _
    rw [execCollComplete, hfind]
    exact congrArg Host.Outcome.next ((if_pos hgo).trans (if_neg (ne_true_of_eq_false hdet)))

end Sys2Proof.Machine
end

section
/-! SUPPORT. What the instructions that store nothing leave of memory and of the pending child grids, and the memory frame of all of them (R95, R197, R200, R262, R311, R313). -/

namespace Sys2Proof.Machine

/-! ### The results of a computation that may stop -/

/-- Every result that a computation ends with has a property. -/
structure Yields {α : Type} (P : α → Prop) (c : Except Stop α) : Prop where
  of_ok : ∀ r, c = .ok r → P r

section
variable {α β : Type} {P : α → Prop} {Q : β → Prop} {c : Except Stop α}

theorem yields_ok {r : α} (h : P r) : Yields P (.ok r) := by
  refine ⟨fun _ hr => ?_⟩
  cases hr
  exact h

theorem yields_error {e : Stop} : Yields P (.error e) := ⟨fun _ h => by cases h⟩

theorem Yields.imp {P' : α → Prop} (h : Yields P c) (hp : ∀ r, P r → P' r) : Yields P' c := ⟨fun r hr => hp r (h.of_ok r hr)⟩

theorem Yields.map {f : α → β} (h : Yields (fun r => Q (f r)) c) : Yields Q (c.map f) := by
  cases c with
  | error e => exact yields_error
  | ok r => exact yields_ok (h.of_ok r rfl)

theorem yields_stopIf {b : Bool} {e : Stop} (h : Yields P c) : Yields P (stopIf b e c) := by
  cases b
  · exact h
  · exact yields_error

theorem yields_ite {p : Prop} [Decidable p] {d : Except Stop α} (hc : Yields P c) (hd : Yields P d) : Yields P (if p then c else d) := by
  split
  · exact hc
  · exact hd

/-- What follows a check may use that it has passed. -/
theorem yields_passed {b : Bool} {e : Stop} (h : b = false → Yields P c) : Yields P (stopIf b e c) := by
  cases b
  · exact h rfl
  · exact yields_error

theorem yields_atMeeting {env : Env} {i : Instr} (h : Yields P c) : Yields P (env.atMeeting i c) := by
  unfold Env.atMeeting
  split
  · exact yields_error
  · exact h

theorem yields_typeCheck {w : Warp} {ok : ElemType → Bool} {ns : List Nat} (h : Yields P c) : Yields P (w.typeCheck ok ns c) := yields_stopIf h
theorem yields_rangeCheck {w : Warp} {env : Env} {ns : List Nat} (h : Yields P c) : Yields P (w.rangeCheck env ns c) := yields_stopIf h
theorem yields_memChecks {w : Warp} {env : Env} {ok : ElemType → Bool} {d o : Nat} (h : Yields P c) : Yields P (memChecks env w ok d o c) :=
  yields_typeCheck (yields_rangeCheck h)
theorem yields_point {w : Warp} (h : Yields P c) : Yields P (w.point c) := yields_stopIf h
theorem yields_converged {w : Warp} (h : Yields P c) : Yields P (w.converged c) := yields_stopIf h
theorem yields_notMelded {w : Warp} (h : Yields P c) : Yields P (w.notMelded c) := yields_stopIf h
theorem yields_released {s : State} {k : Nat} {w : Warp} {b : Bool} {sc : Scope} (h : Yields P c) : Yields P (s.released k w b sc c) := yields_stopIf h
theorem yields_queueRoom {s : State} {env : Env} {w : Warp} {q : EngineQueue} {i : Instr} (h : Yields P c) : Yields P (queueRoom s env w q i c) :=
  yields_stopIf h

theorem yields_readPriv {s : State} {a : DWord} {ps : List (Nat × Nat)} {f : List Byte → Except Stop α} (h : ∀ bs, Yields P (f bs)) :
    Yields P (readPriv s a ps f) := yields_stopIf (h _)
theorem yields_sharedPlace {env : Env} {o : DWord} {al n : Nat} {f : Nat → Except Stop α} (h : ∀ off, Yields P (f off)) :
    Yields P (sharedPlace env o al n f) := yields_stopIf (yields_stopIf (h _))
theorem yields_sharedObject {s : State} {env : Env} {w : Warp} {o : DWord} {al n : Nat} {f : Nat → Except Stop α} (h : ∀ off, Yields P (f off)) :
    Yields P (sharedObject s env w o al n f) := yields_sharedPlace fun _ => yields_stopIf (h _)

theorem yields_tileCheck {s : State} {env : Env} {w : Warp} {o : DWord} {f : Option Tile → Except Stop α} (h : ∀ t, Yields P (f t)) :
    Yields P (tileCheck s env w o f) := by
  refine yields_sharedObject fun off => ?_
  split
  · exact h _
  · exact yields_stopIf (h _)

theorem yields_openQueue {s : State} {env : Env} {w : Warp} {y : Nat} {f : QueueRef → QueueRegs → Except Stop α} (h : ∀ r q, Yields P (f r q)) :
    Yields P (openQueue s env w y f) := by
  unfold openQueue
  split
  · exact yields_error
  · exact yields_stopIf (h _ _)

theorem yields_spawnChecks {x y : Nat} {s : State} {env : Env} {w : Warp} {f : DWord → Except Stop α} (h : ∀ e, Yields P (f e)) :
    Yields P (spawnChecks x y s env w f) := yields_stopIf (yields_stopIf (yields_rangeCheck (h _)))

end

/-- The lanes of a list, one after another, keep what each keeps. -/
theorem yields_memLanes {P : State × Warp → Prop} {f : LaneAccess} :
    ∀ (ls : List Nat), (∀ l ∈ ls, ∀ u, P u → Yields P (f l u.1 u.2)) → ∀ u, P u → Yields P (memLanes f ls u.1 u.2)
  | [], _, _, hu => yields_ok hu
  | l :: ls, hf, u, hu => by
    unfold memLanes
    split
    · next hl => exact yields_memLanes ls (fun m hm => hf m (.tail _ hm)) _ ((hf l (.head _) u hu).of_ok _ hl)
    · exact yields_error

/-! ### The pending child grids -/

/-- A fold whose every element leaves the pending grids alone leaves them alone. -/
theorem foldl_children {β : Type} {f : State → β → State} (h : ∀ s b, (f s b).children = s.children) (l : List β) (s : State) :
    (l.foldl f s).children = s.children :=
  foldl_keeps (P := fun x : State => x.children = s.children) (fun _ b hx => (h _ b).trans hx) l s rfl

theorem State.HomeSide.children {s t : State} (h : s.HomeSide t) : t.children = s.children := by
  obtain ⟨_, _, _, _, _, _, _, _, _, rfl⟩ := h
  rfl

@[simp] theorem send_children (s : State) (m : Msg) : (s.send m).children = s.children := (State.HomeSide.send ..).children
@[simp] theorem setL1_children (s : State) (c line : Nat) (x : L1Line) : (s.setL1 c line x).children = s.children := rfl
@[simp] theorem dropL1_children (s : State) (c line : Nat) : (s.dropL1 c line).children = s.children := rfl
@[simp] theorem setVersion_children (s : State) (sect clock die : Nat) : (s.setVersion sect clock die).children = s.children :=
  (State.HomeSide.setVersion ..).children
@[simp] theorem freshen_children (s : State) (sect : Nat) : (s.freshen sect).children = s.children := setVersion_children ..
@[simp] theorem freshenAll_children (s : State) (pa n : Nat) : (s.freshenAll pa n).children = s.children := (State.HomeSide.freshenAll ..).children
@[simp] theorem callInBut_children (s : State) (line : Nat) (m : BitVec 128) (all : Bool) (keep : List Nat) :
    (s.callInBut line m all keep).children = s.children := (State.HomeSide.callInBut ..).children
@[simp] theorem callIn_children (s : State) (line : Nat) (m : BitVec 128) (all : Bool) : (s.callIn line m all).children = s.children := callInBut_children ..

@[simp] theorem l2Access_children (s : State) (line : Nat) (c : CacheClass) (na dirty : Bool) : (s.l2Access line c na dirty).children = s.children := by
  unfold State.l2Access State.l2Hit State.askMsc
  repeat' split
  all_goals rfl

@[simp] theorem homeWriteBut_children (s : State) (pa : Nat) (bs : List Byte) (cls : CacheClass) (na : Bool) (keep : List Nat) :
    (s.homeWriteBut pa bs cls na keep).children = s.children := by
  unfold State.homeWriteBut
  dsimp only
  rw [foldl_children fun s l => by simp]
  simp only [freshenAll_children, State.writeBytes]
  rw [foldl_children fun s l => by simp]

@[simp] theorem homeWrite_children (s : State) (pa : Nat) (bs : List Byte) (cls : CacheClass) (na : Bool) : (s.homeWrite pa bs cls na).children = s.children :=
  homeWriteBut_children ..
@[simp] theorem homeStore_children (s : State) (pa : Nat) (bs : List Byte) (cls : CacheClass) : (s.homeStore pa bs cls).children = s.children :=
  homeWrite_children ..

@[simp] theorem evictL1_children (s : State) (c line : Nat) (x : L1Line) : (s.evictL1 c line x).children = s.children := by
  unfold State.evictL1
  split <;> simp

@[simp] theorem roomL1_children (s : State) (c line : Nat) : (s.roomL1 c line).children = s.children := by
  unfold State.roomL1
  dsimp only
  repeat' split
  all_goals simp

@[simp] theorem l1Read_children (s : State) (core pa n : Nat) (cls : CacheClass) (na load : Bool) : (s.l1Read core pa n cls na load).children = s.children := by
  unfold State.l1Read
  dsimp only
  repeat' split
  all_goals simp

@[simp] theorem loadTouch_children (s : State) (core pa n : Nat) (cls : CacheClass) (na : Bool) : (s.loadTouch core pa n cls na).children = s.children :=
  l1Read_children ..

@[simp] theorem post_children (s : State) (w : WaitingStore) (c : CacheClass) (na : Bool) : (s.post w c na).children = s.children := by
  unfold State.post
  dsimp only
  split <;> simp

@[simp] theorem performStores_children (s : State) (core line : Nat) (x : L1Line) : (s.performStores core line x).children = s.children := by
  have hwrites : ∀ l : List WaitingStore, (l.foldl (fun s w => s.writeBytes w.pa w.bytes) s).children = s.children := fun l =>
    foldl_children (f := fun s w => s.writeBytes w.pa w.bytes) (fun _ _ => rfl) l s
  unfold State.performStores
  dsimp only
  split <;> simp [hwrites]

@[simp] theorem storeTouch_children (s : State) (core : Nat) (w : WaitingStore) (cls : CacheClass) (na : Bool) :
    (s.storeTouch core w cls na).children = s.children := by
  unfold State.storeTouch
  dsimp only
  repeat' split
  all_goals simp

@[simp] theorem request_children (s : State) (p : Nat) (op : RemoteOp) (who : Requester) (tag va : Nat) :
    (s.request p op who tag va).children = s.children := rfl

@[simp] theorem noteWrite_children (s : State) (id va : Nat) : (s.noteWrite id va).children = s.children := by
  unfold State.noteWrite
  split <;> rfl

@[simp] theorem coreStore_children (s : State) (now : Bool) (core w ctx va : Nat) (p : Phys) (bs : List Byte) (cls : CacheClass) (na : Bool) :
    (s.coreStore now core w ctx va p bs cls na).children = s.children := by
  unfold State.coreStore
  repeat' split
  all_goals simp

@[simp] theorem putPieces_children : ∀ (ps : List (Nat × Nat)) (s : State) (bs : List Byte), (s.putPieces ps bs).children = s.children
  | [], _, _ => rfl
  | _ :: r, _, _ => (putPieces_children r _ _).trans ((l2Access_children ..).trans rfl)

@[simp] theorem touchPieces_children (s : State) (ps : List (Nat × Nat)) : (s.touchPieces ps).children = s.children :=
  foldl_children (fun _ _ => l2Access_children ..) _ s

@[simp] theorem log_children (s : State) (die : Nat) (e : EventRecord) : (s.log die e).children = s.children := by unfold State.log; split <;> rfl
@[simp] theorem record_children (s : State) (die typ ctx core code launch data : Nat) : (s.record die typ ctx core code launch data).children = s.children :=
  log_children s die _

@[simp] theorem freeQueue_children (s : State) (core q : Nat) : (s.freeQueue core q).children = s.children := rfl

@[simp] theorem freeQueues_children (s : State) (core team : Nat) : (s.freeQueues core team).children = s.children := by
  refine foldl_children (fun s b => ?_) _ s
  split <;> simp

@[simp] theorem detachAll_children (s : State) (k : Nat) (w : Warp) : (s.detachAll k w).children = s.children := by
  unfold State.detachAll
  simp only
  split
  · rfl
  · split
    · rfl
    · refine foldl_keeps (P := fun x : State => x.children = s.children) (fun x b hx => ?_) _ _ rfl
      repeat' split
      all_goals simp [hx]

@[simp] theorem releaseLocks_children (s : State) (k : Nat) (w : Warp) : (s.releaseLocks k w).children = s.children := by
  unfold State.releaseLocks
  exact foldl_children freshen_children _ _

@[simp] theorem cancelOps_children (s : State) (f : EngineOp → Bool) : (s.cancelOps f).children = s.children := rfl

@[simp] theorem dropHoldings_children (s : State) (k : Nat) : (s.dropHoldings k).children = s.children := by
  unfold State.dropHoldings
  split <;> simp

@[simp] theorem killTeam_children (s : State) (t : Nat) : (s.killTeam t).children = s.children := by
  unfold State.killTeam
  simp only [cancelOps_children]
  split
  · rw [freeQueues_children]; exact foldl_children dropHoldings_children _ s
  · exact foldl_children dropHoldings_children _ s

@[simp] theorem noteDraws_children (s : State) (w : Warp) : (s.noteDraws w).children = s.children := by unfold State.noteDraws; split <;> rfl

/-- A state whose memory and pending grids are those of `s`. -/
structure State.Keeps (s t : State) : Prop where
  mem : t.mem = s.mem
  children : t.children = s.children

namespace State.Keeps

variable {s t u : State}

theorem refl (s : State) : s.Keeps s := ⟨rfl, rfl⟩
theorem trans (h : s.Keeps t) (h' : t.Keeps u) : s.Keeps u := ⟨h'.mem.trans h.mem, h'.children.trans h.children⟩

theorem foldl {β : Type} {f : State → β → State} (h : ∀ (s : State) (b : β), s.Keeps (f s b)) (l : List β) (s : State) : s.Keeps (l.foldl f s) :=
  ⟨foldl_mem (fun s b => (h s b).mem) l s, foldl_children (fun s b => (h s b).children) l s⟩

end State.Keeps

theorem killTeam_keeps (s : State) (t : Nat) : s.Keeps (s.killTeam t) := ⟨killTeam_mem .., killTeam_children ..⟩
theorem record_keeps (s : State) (die typ ctx core code launch data : Nat) : s.Keeps (s.record die typ ctx core code launch data) :=
  ⟨record_mem .., record_children ..⟩

/-! ### The end of an instruction, with no child grid pending -/

section
variable {s : State} (hch : s.children = [])
include hch

/-- With no child grid pending none is discarded. -/
theorem cancelChildren_alone (a : Nat) : s.cancelChildren a = s := by
  unfold State.cancelChildren
  rw [hch]
  exact congrArg (fun c => { s with children := c }) hch.symm

theorem killTeams_alone (ts : List Nat) (a : Nat) : s.Keeps ((ts.foldl State.killTeam s).cancelChildren a) := by
  have hkill := State.Keeps.foldl killTeam_keeps ts s
  rw [cancelChildren_alone (hkill.children.trans hch)]
  exact hkill

theorem endLaunch_alone (id : Nat) (st : LaunchStatus) (r : Option FaultRecord) : s.Keeps (s.endLaunch id st r) := by
  unfold State.endLaunch
  split
  · exact .refl s
  · split
    · exact ⟨rfl, rfl⟩
    · refine State.Keeps.trans ?_ (killTeams_alone ?_ _ _)
      · exact ⟨rfl, rfl⟩
      · exact hch

theorem abortLaunch_alone (w : Warp) (cause : Nat) (nested lane noHandler : Bool) (trapc taddr : DWord) (tlanes : Mask) :
    s.Keeps (s.abortLaunch w cause nested lane noHandler trapc taddr tlanes) := by
  unfold State.abortLaunch
  split
  · exact .refl s
  · split
    · exact .refl s
    · exact (record_keeps ..).trans (endLaunch_alone ((record_children ..).trans hch) ..)

theorem entryFault_alone (k : Nat) (env : Env) (w : Warp) (x : XKind) (va : Nat) : s.Keeps (s.entryFault k env w x va) := by
  unfold State.entryFault
  split
  · exact abortLaunch_alone hch ..
  · exact ⟨rfl, rfl⟩
  · exact .refl s

/-- A trap that does not end in the handler keeps memory. -/
theorem takeTrap_alone {k : Nat} {w : Warp} {cause : Nat} {addr : DWord} {lanes : Mask} {lane : Bool}
    (hout : ∀ v, tabFind (s.takeTrap k w cause addr lanes lane).warps k = some v → v.handler.isSome = true → w.handler.isSome = true) :
    s.Keeps (s.takeTrap k w cause addr lanes lane) := by
  unfold State.takeTrap at hout ⊢
  dsimp only at hout ⊢
  split
  · exact .refl s
  · next env henv =>
    simp only [henv] at hout
    split
    · exact abortLaunch_alone hch ..
    · next hh =>
      simp only [hh] at hout
      split
      · exact abortLaunch_alone hch ..
      · next entry hentry =>
        simp only [hentry] at hout
        split
        · exact abortLaunch_alone hch ..
        · next hs31 =>
          simp only [hs31] at hout
          split
          · exact entryFault_alone hch ..
          · next s1 hs1 =>
            simp only [hs1] at hout
            exact absurd (hout _ (warp_putWarp_self ..) rfl) Bool.false_ne_true

/-- A warp that enters no handler for its parked lanes keeps memory: in handler state their fault is a nested trap, which writes no record. -/
theorem enterParked_alone {k : Nat} {w : Warp}
    (hout : ∀ v, tabFind (s.enterParked k w).warps k = some v → v.handler.isSome = true → w.handler.isSome = true) : s.Keeps (s.enterParked k w) := by
  unfold State.enterParked at hout ⊢
  split
  · exact .refl s
  · next l hl =>
    simp only [hl] at hout
    split
    · exact abortLaunch_alone hch ..
    · next hh =>
      rw [if_neg hh] at hout
      exact takeTrap_alone hch hout

theorem settle_alone (k : Nat) (w : Warp) : s.Keeps (s.settle k w) := by
  unfold State.settle
  split
  · next h => exact enterParked_alone hch fun _ _ _ => (Bool.and_eq_true_iff.mp h).1
  · split
    · exact ⟨(noteDraws_mem ..).trans (detachAll_mem ..), (noteDraws_children ..).trans (detachAll_children ..)⟩
    · exact ⟨rfl, rfl⟩

/-- A stop that does not end in the handler keeps memory. -/
theorem halt_alone {k : Nat} {w : Warp} {len : Nat} {e : Stop}
    (hout : ∀ v, tabFind (s.halt k w len e).warps k = some v → v.handler.isSome = true → w.handler.isSome = true) : s.Keeps (s.halt k w len e) := by
  cases e with
  | trap cause addr lanes =>
    simp only [State.halt, State.raise] at hout ⊢
    split
    · exact ⟨rfl, rfl⟩
    · next hd =>
      rw [if_neg hd] at hout
      exact takeTrap_alone hch hout
  | raised cause addr lanes => exact takeTrap_alone hch hout
  | parked => exact enterParked_alone hch hout
  | charged cause addr =>
    simp only [State.halt] at hout ⊢
    split
    · next hd =>
      exact enterParked_alone hch fun _ _ _ => (Bool.and_eq_true_iff.mp hd).1
    · exact ⟨rfl, rfl⟩
  | abort cause addr => exact abortLaunch_alone hch ..
  | translation ctx va kd => exact ⟨rfl, rfl⟩
  | remote tag pkg op va => exact ⟨rfl, rfl⟩
  | wait wt => exact ⟨rfl, rfl⟩

end

/-! ### The issue of an instruction that stores nothing -/

/-- The warp `w`, number `k`, has the turn, no child grid is pending, and `k` does not stand in its handler in `t` where `w` does not. -/
structure State.StaysOut (s : State) (k : Nat) (w : Warp) (t : State) : Prop where
  turn : s.turn = some k
  warp : tabFind s.warps k = some w
  alone : s.children = []
  out : ∀ v, tabFind t.warps k = some v → v.handler.isSome = true → w.handler.isSome = true

/-- An outcome that leaves memory as it is, unless the warp enters its handler. -/
def State.Unstored (s : State) (o : Host.Outcome State Fault Refusal) : Prop := ∀ k w t, s.StaysOut k w t → o = .next t → t.mem = s.mem

section
variable {s : State} {len : Nat} {f : State → Nat → Env → Warp → Effect}

/-- What the issue of an effect does to memory is what the effect does, unless the warp enters its handler. -/
theorem issueBy_mem_alone {k : Nat} {w v : Warp} {P : State → Prop} (hch : s.children = []) (hv : v.handler = w.handler)
    (hP : ∀ {t u : State}, u.mem = t.mem → P t → P u) (hs : P s)
    (hf : ∀ env s1 w1 n, s.env? v = some env → f s k env { v with status := .ready } = .ok (s1, w1, n) → P s1 ∧ s1.children = [])
    (hout : ∀ x, tabFind (s.issueBy k v len f).warps k = some x → x.handler.isSome = true → w.handler.isSome = true) : P (s.issueBy k v len f) := by
  unfold State.issueBy at hout ⊢
  dsimp only at hout ⊢
  cases henv : s.env? v with
  | none => exact hs
  | some env =>
    simp only [henv] at hout ⊢
    cases hr : f s k env { v with status := .ready } with
    | ok r =>
      obtain ⟨s1, w1, n⟩ := r
      obtain ⟨h1, hch1⟩ := hf env s1 w1 n henv hr
      have hend := settle_alone (s := s1.forget k) hch1 k (w1.finish n)
      exact hP (t := s1) hend.mem h1
    | error e =>
      simp only [hr] at hout
      have hend : s.Keeps (s.halt k { v with status := .ready } len e) :=
        halt_alone hch fun x hx hx' => (congrArg Option.isSome hv).trans (hout x hx hx')
      exact hP hend.mem hs

/-- An effect that keeps memory, for a warp of a launch that is not at its meeting, with no child grid pending. -/
def KeepsMemory (f : State → Nat → Env → Warp → Effect) : Prop :=
  ∀ s k env w, env.meeting = false → s.children = [] → Yields (fun r => s.Keeps r.1) (f s k env w)

theorem issueBy_keeps {k : Nat} {w v : Warp} (hf : KeepsMemory f) (hch : s.children = []) (hv : v.handler = w.handler)
    (hout : ∀ x, tabFind (s.issueBy k v len f).warps k = some x → x.handler.isSome = true → w.handler.isSome = true) :
    (s.issueBy k v len f).mem = s.mem :=
  issueBy_mem_alone (P := fun t => t.mem = s.mem) hch hv (fun hu ht => hu.trans ht) rfl
    (fun env s1 w1 n henv h => by
      have h1 : s.Keeps s1 := (hf _ _ _ _ (env?_meeting henv) hch).of_ok _ h
      exact ⟨h1.mem, h1.children.trans hch⟩) hout

theorem issueOf_unstored (hf : KeepsMemory f) : s.Unstored (s.issueOf len f) := by
  intro k w t h ht
  unfold State.issueOf at ht
  simp only [h.turn, h.warp] at ht
  cases ht
  exact issueBy_keeps hf h.alone rfl h.out

theorem issueParked_unstored (hf : KeepsMemory f) : s.Unstored (s.issueParked len f) := by
  intro k w t h ht
  unfold State.issueParked at ht
  simp only [h.turn, h.warp] at ht
  cases ht
  exact issueBy_keeps hf h.alone (drain_handler w) h.out

theorem issue_unstored (g : Env → Warp → Except Stop Warp) : s.Unstored (s.issue g) :=
  issueOf_unstored fun s _ _ _ _ _ => Yields.map ⟨fun _ _ => .refl s⟩

theorem issueControl_unstored (g : Env → Warp → Except Stop (Warp × Next)) : s.Unstored (s.issueControl len g) :=
  issueOf_unstored fun s _ _ _ _ _ => Yields.map ⟨fun _ _ => .refl s⟩

theorem issueMem_unstored {g : State → Nat → Env → Warp → Except Stop (State × Warp)}
    (hg : ∀ s k env w, env.meeting = false → Yields (fun r => s.Keeps r.1) (g s k env w)) : s.Unstored (s.issueMem g) :=
  issueOf_unstored fun s k env w hm _ => Yields.map (hg s k env w hm)

end

end Sys2Proof.Machine
end

section
/-! SUPPORT. What the effects of the instructions that store nothing leave alone, one rule per shared operation (R95, R196 to R201, R212 to R219, R250 to R261, R292 to R314). -/

namespace Sys2Proof.Machine

/-! ### Loads -/

/-- What a computation ends with keeps memory and the pending grids of `s`. -/
abbrev YieldsKept {α : Type} (s : State) (c : Except Stop (State × α)) : Prop := Yields (fun r => s.Keeps r.1) c

/-- A computation whose results are changed but for their states keeps what it kept. -/
theorem YieldsKept.map {α β : Type} {s : State} {c : Except Stop (State × α)} {g : State × α → State × β} (h : YieldsKept s c) (hg : ∀ r, (g r).1 = r.1) :
    YieldsKept s (c.map g) := Yields.map (h.imp fun r hr => (hg r).symm ▸ hr)

section
variable {s : State}

theorem l1Read_keeps (core pa n : Nat) (cls : CacheClass) (na load : Bool) : s.Keeps (s.l1Read core pa n cls na load) := ⟨l1Read_mem .., l1Read_children ..⟩
theorem loadTouch_keeps (core pa n : Nat) (cls : CacheClass) (na : Bool) : s.Keeps (s.loadTouch core pa n cls na) := l1Read_keeps ..
theorem l2Access_keeps (line : Nat) (c : CacheClass) (na dirty : Bool) : s.Keeps (s.l2Access line c na dirty) := ⟨l2Access_mem .., l2Access_children ..⟩
theorem callIn_keeps (line : Nat) (m : BitVec 128) (all : Bool) : s.Keeps (s.callIn line m all) := ⟨callIn_mem .., callIn_children ..⟩
theorem touchPieces_keeps (ps : List (Nat × Nat)) : s.Keeps (s.touchPieces ps) := ⟨foldl_mem (fun _ _ => l2Access_mem ..) _ s, touchPieces_children ..⟩
theorem noteWrite_keeps (id va : Nat) : s.Keeps (s.noteWrite id va) := ⟨noteWrite_mem .., noteWrite_children ..⟩

theorem remoteLoad_keeps {who : Requester} {tag ctx va n : Nat} {p : Phys} {r : State × List Byte × Bool}
    (h : s.remoteLoad who tag ctx va p n = .ok r) : s.Keeps r.1 := by
  unfold State.remoteLoad at h
  dsimp only at h
  repeat' split at h
  all_goals cases h
  all_goals first
    | exact .refl s
    | exact ⟨rfl, rfl⟩

theorem coreLoad_kept (core k tag ctx va : Nat) (p : Phys) (n : Nat) (cls : CacheClass) (na : Bool) :
    YieldsKept s (s.coreLoad core k tag ctx va p n cls na) := by
  unfold State.coreLoad
  split
  · split
    · next h => exact yields_stopIf (yields_ok (remoteLoad_keeps h))
    · exact yields_error
  · exact yields_ok (loadTouch_keeps ..)

theorem loadScalar_kept (k : Nat) (env : Env) (w : Warp) (i : Instr) (a : DWord) (n : Nat) : YieldsKept s (loadScalar s k env w i a n) := by
  unfold loadScalar
  split
  · exact yields_readPriv fun bs => yields_ok (touchPieces_keeps ..)
  · exact yields_stopIf (yields_stopIf ((coreLoad_kept ..).map fun _ => rfl))
  · exact yields_error
  · exact yields_error

theorem sld_kept (f : LoadSize) (d a : Nat) (i : Int) (k : Nat) (env : Env) (w : Warp) : YieldsKept s (sld f d a i s k env w) :=
  (loadScalar_kept ..).map fun _ => rfl

theorem meldLdt_kept (y k : Nat) (env : Env) (w : Warp) : YieldsKept s (meldLdt y s k env w) :=
  yields_notMelded ((loadScalar_kept ..).map fun _ => rfl)

/-! ### Accesses of lanes -/

theorem targetAccess_kept {r : Except Stop Target} {l : Nat} {w : Warp} {priv : List (Nat × Nat) → Except Stop (State × Warp)}
    {global : Nat → Phys → Except Stop (State × Warp)} (hp : ∀ ps, YieldsKept s (priv ps)) (hg : ∀ va p, YieldsKept s (global va p)) :
    YieldsKept s (targetAccess r l s w priv global) := by
  unfold targetAccess
  split
  · exact yields_error
  · exact yields_ok (.refl s)
  · exact yields_ok (.refl s)
  · exact hp _
  · exact yields_ok (.refl s)
  · exact hg _ _

theorem sharedAccess_kept {env : Env} {a : DWord} {n l : Nat} {w : Warp} {f : Nat → Except Stop (State × Warp)} (h : ∀ off, YieldsKept s (f off)) :
    YieldsKept s (sharedAccess env a n l s w f) := by
  unfold sharedAccess
  split
  · exact yields_ok (.refl s)
  · exact h _
  · exact yields_ok (.refl s)

theorem memLanes_kept {f : LaneAccess} (hf : ∀ l s w, YieldsKept s (f l s w)) (ls : List Nat) (w : Warp) : YieldsKept s (memLanes f ls s w) :=
  yields_memLanes (P := fun u => s.Keeps u.1) ls (fun l _ u hu => (hf l u.1 u.2).imp fun _ hr => hu.trans hr) (s, w) (.refl s)

theorem failCommit_keeps (k l : Nat) : s.Keeps (s.failCommit k l) := by
  unfold State.failCommit
  split <;> exact ⟨rfl, rfl⟩

theorem lockSector_keeps {k l sect : Nat} {t : State} (h : s.lockSector k l sect = some t) : s.Keeps t := by
  unfold State.lockSector at h
  dsimp only at h
  repeat' split at h
  all_goals cases h
  · exact ⟨rfl, rfl⟩
  · exact .refl s
  · refine .trans ?_ (failCommit_keeps ..)
    exact ⟨rfl, rfl⟩

theorem txFetch_keeps (core : Nat) (t : Tx) (p : Phys) (n : Nat) : s.Keeps (s.txFetch core t p n) := by
  unfold State.txFetch
  split
  · exact callIn_keeps ..
  · exact .refl s

theorem laneLoad_kept (k l : Nat) (env : Env) (w : Warp) (i : Instr) (va : Nat) (p : Phys) (n : Nat) (c : CacheClass) (na : Bool) :
    YieldsKept s (laneLoad s k l env w i va p n c na) := by
  unfold laneLoad
  dsimp only
  split
  · exact yields_stopIf (yields_stopIf ((coreLoad_kept ..).map fun _ => rfl))
  · split
    · refine yields_stopIf ?_
      split
      · exact yields_error
      · next h => exact yields_stopIf (yields_ok ((txFetch_keeps ..).trans ((lockSector_keeps h).trans (loadTouch_keeps ..))))
    · refine yields_stopIf (Yields.map ⟨fun r _ => ?_⟩)
      cases r with
      | ok x =>
        dsimp only
        split
        · exact (txFetch_keeps ..).trans (loadTouch_keeps ..)
        · exact .refl s
      | error cause => exact txFetch_keeps ..

theorem vldLane_kept (d b o : Nat) (c : CacheClass) (na reuse : Bool) (k : Nat) (env : Env) (w : Warp) (l : Nat) (w' : Warp) :
    YieldsKept s (vldLane d b o c na reuse k env w l s w') :=
  targetAccess_kept (fun _ => yields_readPriv fun _ => yields_ok (touchPieces_keeps ..)) fun _ _ => (laneLoad_kept ..).map fun _ => rfl

theorem vld_kept (d b o : Nat) (c : CacheClass) (na reuse : Bool) (k : Nat) (env : Env) (w : Warp) : YieldsKept s (vld d b o c na reuse s k env w) :=
  yields_memChecks ((memLanes_kept (fun _ _ _ => vldLane_kept ..) ..).map fun _ => rfl)

theorem vlds_kept (d b o : Nat) (reuse : Bool) (k : Nat) (env : Env) (w : Warp) : YieldsKept s (vlds d b o reuse s k env w) :=
  yields_memChecks ((memLanes_kept (fun _ s _ => sharedAccess_kept fun _ => yields_stopIf (yields_ok (.refl s))) ..).map fun _ => rfl)

theorem spillLane_kept {env : Env} {a : DWord} {kd : AccessKind} {f : List (Nat × Nat) → LaneAccess} (hf : ∀ ps l w, YieldsKept s (f ps l s w))
    (l : Nat) (w : Warp) : YieldsKept s (spillLane env a kd f l s w) := by
  unfold spillLane
  repeat' split
  · exact yields_ok (.refl s)
  · exact yields_ok (.refl s)
  · exact hf _ _ _
  · exact yields_ok (.refl s)
  · exact yields_ok (.refl s)
  · exact yields_error

theorem vfilLane_kept (d i : Nat) (env : Env) (w : Warp) (l : Nat) (w' : Warp) : YieldsKept s (vfilLane d i env w l s w') := by
  refine spillLane_kept (fun ps l w'' => ?_) l w'
  exact yields_readPriv fun _ => yields_ok (touchPieces_keeps ..)

theorem vfil_kept (d i k : Nat) (env : Env) (w : Warp) : YieldsKept s (vfil d i s k env w) :=
  yields_rangeCheck ((memLanes_kept (fun _ _ _ => vfilLane_kept ..) ..).map fun _ => rfl)

/-! ### Shared memory -/

theorem shmWrite_keeps (t off : Nat) (bs : List Byte) : s.Keeps (s.shmWrite t off bs) := by
  unfold State.shmWrite
  split <;> exact ⟨rfl, rfl⟩

theorem plainShm_keeps (t off : Nat) (bs : List Byte) : s.Keeps (s.plainShm t off bs) := by
  unfold State.plainShm
  dsimp only
  repeat' split
  · exact shmWrite_keeps ..
  · exact (shmWrite_keeps ..).trans ⟨rfl, rfl⟩
  · exact shmWrite_keeps ..

theorem sharedStore_kept (env : Env) (i : Instr) (l off : Nat) (bs : List Byte) (w : Warp) : YieldsKept s (sharedStore env i l off bs s w) := by
  unfold sharedStore
  repeat' split
  · exact yields_ok (.refl s)
  · exact yields_error
  · exact yields_ok (plainShm_keeps ..)

theorem vsts_kept (d b o : Nat) (reuse : Bool) (k : Nat) (env : Env) (w : Warp) : YieldsKept s (vsts d b o reuse s k env w) :=
  yields_memChecks (memLanes_kept (fun _ _ _ => sharedAccess_kept fun _ => sharedStore_kept ..) ..)

theorem vectorAtomic_kept {op : AtomicOp} {d o : Nat} {i : Instr} {env : Env} {w : Warp} {f : LaneAccess} (hf : ∀ l s w, YieldsKept s (f l s w)) :
    YieldsKept s (vectorAtomic op d o i s env w f) :=
  yields_typeCheck (yields_stopIf (yields_rangeCheck (yields_atMeeting ((memLanes_kept hf ..).map fun _ => rfl))))

theorem vatoms_kept (d b o : Nat) (op : AtomicOp) (reuse : Bool) (k : Nat) (env : Env) (w : Warp) : YieldsKept s (vatoms d b o op reuse s k env w) := by
  refine vectorAtomic_kept fun l s w' => sharedAccess_kept fun off => yields_stopIf (yields_ok ?_)
  dsimp only
  split
  · exact plainShm_keeps ..
  · exact .refl s

theorem updateTeam_keeps (t : Nat) (f : Team → Team) : s.Keeps (s.updateTeam t f) := by
  unfold State.updateTeam
  split <;> exact ⟨rfl, rfl⟩

theorem arrive_keeps (t off c errors : Nat) : s.Keeps (s.arrive t off c errors) := shmWrite_keeps ..

theorem binit_kept (c y k : Nat) (env : Env) (w : Warp) : YieldsKept s (binit c y s k env w) := by
  refine yields_stopIf (yields_sharedPlace fun off => Yields.map ((sharedStore_kept ..).imp fun r hr => ?_))
  dsimp only
  split
  · exact hr
  · exact hr.trans (updateTeam_keeps ..)

theorem barv_kept (y c k : Nat) (env : Env) (w : Warp) : YieldsKept s (barv y c s k env w) := by
  refine yields_stopIf (yields_sharedObject fun off => yields_released (yields_ok ?_))
  split
  · exact .refl s
  · exact arrive_keeps ..

end

end Sys2Proof.Machine
end

section
/-! SUPPORT. The memory frames of Gondola stores, fences and barriers, engine operations, message queues, spawned threads and commits, and of every instruction (R202 to R218, R250 to R262, R311, R313). -/

namespace Sys2Proof.Machine

/-! ### Gondola stores -/

/-- No lane of a list has a transaction open. -/
def Warp.TxFree (w : Warp) (ls : List Nat) : Prop := ∀ m ∈ ls, (w.lane m).tx = none

theorem txFree_of_anyTx {w : Warp} (h : w.anyTx = false) (m : Mask) : w.TxFree (lanesOf w.width m) := by
  intro l hl
  have hlt : l ∈ upto w.width := (List.mem_filter.mp hl).1
  simpa using List.any_eq_false.mp h l hlt

/-- A lane after one of the warp's lanes was replaced: the new one, or as it was. -/
theorem lane_setLane (w : Warp) (l m : Nat) (x : Lane) : (w.setLane l x).lane m = x ∨ (w.setLane l x).lane m = w.lane m := by
  by_cases hm : m = l
  · subst hm
    by_cases hlt : m < w.lanes.length
    · exact .inl (lane_setLane_self x hlt)
    · have hout := Nat.not_lt.mp hlt
      have hout' : (setNth w.lanes m x).length ≤ m := (setNth_length ..).le.trans hout
      exact .inr ((nth_of_length_le hout').trans (nth_of_length_le hout).symm)
  · exact .inr (lane_setLane_ne x hm)

namespace Warp.TxFree

variable {w : Warp} {ls : List Nat}

theorem setLane (h : w.TxFree ls) {l : Nat} {x : Lane} (hx : x.tx = none) : (w.setLane l x).TxFree ls := fun m hm => by
  rcases lane_setLane w l m x with he | he
  · rw [he, hx]
  · rw [he, h m hm]

theorem faultLane (h : w.TxFree ls) {l : Nat} (hl : l ∈ ls) (cause : Nat) (addr : DWord) : (w.faultLane l cause addr).TxFree ls := by
  have hx : ((w.lane l).fault w.pc cause addr).tx = none := by
    unfold Lane.fault
    split
    · exact congrArg (Option.map _) (h l hl)
    · exact h l hl
  have hset : (w.setLane l ((w.lane l).fault w.pc cause addr)).TxFree ls := h.setLane hx
  unfold Warp.faultLane applyLane applyLane.faulted
  dsimp only
  split
  · exact hset
  · exact hset

theorem doom (h : w.TxFree ls) {l : Nat} (hl : l ∈ ls) (cause code : Nat) : (w.setLane l ((w.lane l).doom cause code)).TxFree ls :=
  h.setLane (congrArg (Option.map _) (h l hl))

end Warp.TxFree

section
variable {s : State}

/-- Outside a meeting a lane's store of a `GST` only asks a peer, or enters the log. -/
theorem gondolaStore_kept {k l : Nat} {env : Env} {i : Instr} {va : Nat} {p : Phys} {bs : List Byte} {c : CacheClass} {ts : List Nat} {w : Warp} {ls : List Nat}
    (hm : env.meeting = false) (hfree : w.TxFree ls) (hl : l ∈ ls) :
    Yields (fun r => s.Keeps r.1 ∧ r.2.TxFree ls) (gondolaStore s k l env i va p bs c ts w) := by
  unfold gondolaStore
  split
  · next hlogs =>
    unfold laneStore
    simp only [hfree l hl, hlogs, if_true]
    split
    · exact yields_ok ⟨noteWrite_keeps .., hfree.setLane rfl⟩
    · exact yields_error
  · refine yields_stopIf (yields_stopIf (yields_ok ⟨?_, hfree⟩))
    rw [hm]
    split
    · exact State.Keeps.trans (t := s.request ..) ⟨rfl, rfl⟩ (noteWrite_keeps ..)
    · exact noteWrite_keeps ..

theorem gstLane_kept {d b o : Nat} {c : CacheClass} {reuse : Bool} {ts : List Nat} {k : Nat} {env : Env} {w w' : Warp} {l : Nat} {ls : List Nat}
    (hm : env.meeting = false) (hfree : w'.TxFree ls) (hl : l ∈ ls) :
    Yields (fun r => s.Keeps r.1 ∧ r.2.TxFree ls) (gstLane d b o c reuse ts k env w l s w') := by
  unfold gstLane targetAccess
  dsimp only
  split
  · exact yields_error
  · exact yields_ok ⟨.refl s, hfree.faultLane hl _ _⟩
  · exact yields_ok ⟨.refl s, hfree.doom hl _ _⟩
  · exact yields_ok ⟨.refl s, hfree.faultLane hl _ _⟩
  · exact yields_ok ⟨.refl s, hfree⟩
  · exact gondolaStore_kept hm hfree hl

theorem pushLines_keeps (env : Env) (ms : List (Msg × List (Nat × Nat))) (refused : Nat) (w : Warp) : s.Keeps (pushLines env ms refused s w).1 := by
  unfold pushLines
  dsimp only
  split <;> exact ⟨rfl, rfl⟩

theorem gst_kept {d b o : Nat} {c : CacheClass} {reuse : Bool} {k : Nat} {env : Env} {w : Warp} (hm : env.meeting = false) :
    YieldsKept s (gst d b o c reuse s k env w) := by
  refine yields_typeCheck (yields_passed fun hguard => yields_rangeCheck ?_)
  have hfree := txFree_of_anyTx (Bool.or_eq_false_iff.mp hguard).2 (w.mark reuse o).executing
  refine Yields.map (Yields.imp (P := fun u => s.Keeps u.1 ∧ u.2.TxFree (lanesOf (w.mark reuse o).width (w.mark reuse o).executing)) ?_
    fun r hr => hr.1.trans (pushLines_keeps ..))
  exact yields_memLanes _ (fun l hl u hu => (gstLane_kept hm hu.2 hl).imp fun r hr => ⟨hu.1.trans hr.1, hr.2⟩) (s, _) ⟨.refl s, hfree⟩

/-! ### Yields, fences, barriers and prefetches -/

theorem yield_kept (k : Nat) (env : Env) (w : Warp) : YieldsKept s (yield s k env w) := yields_ok ⟨rfl, rfl⟩

theorem sleep_kept (i k : Nat) (env : Env) (w : Warp) : YieldsKept s (sleep i s k env w) := by
  refine yields_atMeeting ?_
  repeat' split
  · exact yields_ok (.refl s)
  · exact yield_kept ..
  · exact yields_ok (.refl s)

theorem acquire_keeps (env : Env) (sc : Scope) : s.Keeps (s.acquire env sc) := by
  unfold State.acquire
  split
  · exact ⟨rfl, rfl⟩
  · exact .refl s

theorem fence_kept (sc : Scope) (o : MemOrder) (k : Nat) (env : Env) (w : Warp) : YieldsKept s (fence sc o s k env w) := by
  refine yields_atMeeting (yields_released (yields_ok ?_))
  dsimp only
  split
  · exact acquire_keeps ..
  · exact .refl s

theorem rfence_kept (a : Nat) (sc : Scope) (b : Nat) (o : MemOrder) (k : Nat) (env : Env) (w : Warp) : YieldsKept s (rfence a sc b o s k env w) := by
  unfold rfence
  dsimp only
  split
  · exact yields_ok (.refl s)
  · refine yields_atMeeting (yields_stopIf (yields_ok ?_))
    dsimp only
    split
    · exact ⟨rfl, rfl⟩
    · exact .refl s

theorem pref_kept (a : Nat) (lv : PrefLevel) (i : Int) (k : Nat) (env : Env) (w : Warp) : YieldsKept s (pref a lv i s k env w) := by
  unfold pref
  dsimp only
  repeat' split
  · exact yields_ok (.refl s)
  · exact yields_ok (l1Read_keeps ..)
  · exact yields_ok (l2Access_keeps ..)
  · exact yields_ok ⟨rfl, rfl⟩
  · exact yields_ok (.refl s)
  · exact yields_ok (.refl s)

theorem bar_kept (k : Nat) (env : Env) (w : Warp) : YieldsKept s (bar s k env w) :=
  yields_point (yields_stopIf (yields_converged (yields_atMeeting (yields_released (yields_ok (updateTeam_keeps ..))))))

theorem cbar_kept (k : Nat) (env : Env) (w : Warp) : YieldsKept s (cbar s k env w) :=
  yields_point (yields_stopIf (yields_converged (yields_atMeeting (yields_released (yields_ok (updateTeam_keeps ..))))))

theorem region_kept (kind : RegionKind) (retries : Nat) (noback value : Bool) (scalars : BitVec 32) (vbase vcount : Nat) (preds : BitVec 12)
    (acclive : Bool) (k : Nat) (env : Env) (w : Warp) :
    YieldsKept s (region kind retries noback value scalars vbase vcount preds acclive s k env w) := by
  refine yields_notMelded (yields_stopIf (yields_stopIf (yields_stopIf ?_)))
  dsimp only
  split
  · exact yields_ok ⟨rfl, rfl⟩
  · split <;> exact yields_ok (.refl s)

/-! ### Waits and engine operations -/

theorem await_kept (d n k : Nat) (env : Env) (w : Warp) : YieldsKept s (await d n s k env w) := by
  refine yields_stopIf (yields_atMeeting ?_)
  split <;> exact yields_ok (.refl s)

theorem bwait_kept (d y : Nat) (q : Bool) (k : Nat) (env : Env) (w : Warp) : YieldsKept s (bwait d y q s k env w) := by
  refine yields_sharedObject fun off => yields_atMeeting ?_
  split <;> exact yields_ok (.refl s)

theorem addOp_keeps (env : Env) (o : EngineOp) (w : Warp) : s.Keeps (addOp env o s w).1 := by
  unfold addOp
  dsimp only
  repeat' split
  all_goals exact ⟨rfl, rfl⟩

theorem tcopy_kept (b : Option Nat) (y k : Nat) (env : Env) (w : Warp) : YieldsKept s (tcopy b y s k env w) :=
  yields_stopIf (yields_sharedObject fun _ => yields_queueRoom (yields_ok (addOp_keeps ..)))

theorem tcopyY_kept (b : Option Nat) (y c k : Nat) (env : Env) (w : Warp) : YieldsKept s (tcopyY b y c s k env w) :=
  yields_stopIf (yields_sharedObject fun _ => yields_atMeeting (yields_queueRoom (yields_stopIf (yields_ok (addOp_keeps ..)))))

theorem queueTile_kept (k : Nat) (env : Env) (w : Warp) (i : Instr) (t : Option Tile) (bar : Option Nat) (batched : Bool) (names : List (List Nat))
    (f : Tile → OpKind) : YieldsKept s (queueTile s k env w i t bar batched names f) := yields_queueRoom (yields_ok (addOp_keeps ..))

theorem matrixMultiply_kept (gather : Bool) (i : Instr) (d a b f k : Nat) (env : Env) (w : Warp) :
    YieldsKept s (matrixMultiply gather i d a b f s k env w) :=
  yields_point (yields_converged (yields_sharedObject fun _ => yields_tileCheck fun _ => queueTile_kept ..))

theorem accz_kept (y k : Nat) (env : Env) (w : Warp) : YieldsKept s (accz y s k env w) := yields_tileCheck fun _ => queueTile_kept ..

theorem accld_kept (b : Option Nat) (shm : Bool) (a y k : Nat) (env : Env) (w : Warp) : YieldsKept s (accld b shm a y s k env w) :=
  yields_stopIf (yields_tileCheck fun _ => queueTile_kept ..)

theorem accst_kept (b : Option Nat) (shm : Bool) (a y k : Nat) (env : Env) (w : Warp) : YieldsKept s (accst b shm a y s k env w) :=
  yields_stopIf (yields_tileCheck fun _ => queueTile_kept ..)

theorem clearing_kept {ns : List Nat} {c : Except Stop (State × Warp)} (h : YieldsKept s c) : YieldsKept s (clearing ns c) := by
  cases c with
  | ok x => exact yields_ok (h.of_ok x rfl)
  | error e => exact yields_error

theorem accstR_kept (d y k : Nat) (env : Env) (w : Warp) : YieldsKept s (accstR d y s k env w) :=
  yields_stopIf (yields_tileCheck fun _ => clearing_kept (queueTile_kept ..))

theorem rstat_kept (d y r k : Nat) (env : Env) (w : Warp) : YieldsKept s (rstat d y r s k env w) :=
  yields_point (yields_converged (yields_rangeCheck (yields_tileCheck fun _ => clearing_kept (queueTile_kept ..))))

theorem actld_kept (b : Option Nat) (shm : Bool) (y k : Nat) (env : Env) (w : Warp) : YieldsKept s (actld b shm y s k env w) :=
  yields_stopIf (yields_ok (addOp_keeps ..))

theorem issueColl_keeps (id : Nat) (c : Collective) : s.Keeps (s.issueColl id c) := ⟨rfl, rfl⟩

theorem coll_kept (b y k : Nat) (env : Env) (w : Warp) : YieldsKept s (coll b y s k env w) := by
  refine yields_stopIf (yields_sharedObject fun _ => yields_sharedPlace fun _ => yields_released (yields_stopIf (yields_ok ?_)))
  dsimp only
  repeat' split
  all_goals exact ⟨rfl, rfl⟩

/-! ### Message queues and spawned threads -/

theorem setQueue_keeps (core q : Nat) (x : QueueRegs) : s.Keeps (s.setQueue core q x) := ⟨rfl, rfl⟩

theorem writeEntries_keeps (r : QueueRef) : ∀ (es : List (List Byte)) (s : State), s.Keeps (s.writeEntries r es)
  | [], s => .refl s
  | e :: es, s => by
    unfold State.writeEntries
    exact (shmWrite_keeps ..).trans ((setQueue_keeps ..).trans (writeEntries_keeps r es _))

theorem qappend_kept (x y k : Nat) (env : Env) (w : Warp) : YieldsKept s (qappend x y s k env w) := by
  refine yields_stopIf (yields_atMeeting (yields_openQueue fun r q => yields_stopIf (yields_stopIf (yields_rangeCheck ?_))))
  split
  · exact yields_ok (.refl s)
  · refine yields_released (yields_ite (yields_ok ?_) (yields_ok ?_))
    · exact (setQueue_keeps ..).trans (writeEntries_keeps ..)
    · dsimp only
      split
      · exact .refl s
      · exact setQueue_keeps ..

theorem qappendTry_kept (x y p k : Nat) (env : Env) (w : Warp) : YieldsKept s (qappendTry x y p s k env w) := by
  refine yields_stopIf (yields_atMeeting (yields_openQueue fun r q => yields_stopIf (yields_rangeCheck ?_)))
  split
  · exact yields_ok (.refl s)
  · exact yields_released (yields_ok (writeEntries_keeps ..))

theorem qpop_kept (x y pv pc k : Nat) (env : Env) (w : Warp) : YieldsKept s (qpop x y pv pc s k env w) := by
  refine yields_stopIf (yields_atMeeting (yields_openQueue fun r q => yields_stopIf (yields_rangeCheck ?_)))
  refine yields_ite (yields_ok (.refl s)) (yields_ite (yields_ok (.refl s)) (yields_stopIf (yields_ok ?_)))
  split
  · exact .refl s
  · exact setQueue_keeps ..

theorem qatt_kept (y k : Nat) (env : Env) (w : Warp) : YieldsKept s (qatt y s k env w) := by
  refine yields_openQueue fun r q => yields_ok ?_
  split
  · exact .refl s
  · exact setQueue_keeps ..

theorem qattOwn_kept (y q k : Nat) (env : Env) (w : Warp) : YieldsKept s (qattOwn y q s k env w) := by
  refine yields_stopIf (yields_sharedObject fun _ => yields_stopIf (yields_stopIf ?_))
  split
  · exact yields_stopIf (yields_ok (.refl s))
  · exact yields_ok (setQueue_keeps ..)

theorem qdet_kept (y k : Nat) (env : Env) (w : Warp) : YieldsKept s (qdet y s k env w) := by
  refine yields_stopIf ?_
  split
  · refine yields_ok ?_
    split
    · dsimp only
      split
      · exact setQueue_keeps ..
      · exact .refl s
    · exact .refl s
  · exact yields_ok (.refl s)

theorem qdetOwn_kept (q k : Nat) (env : Env) (w : Warp) : YieldsKept s (qdetOwn q s k env w) := by
  unfold qdetOwn
  dsimp only
  split
  · exact yields_ok (.refl s)
  · refine yields_stopIf ?_
    split
    · exact yields_ok ⟨rfl, rfl⟩
    · exact yields_ok (.refl s)

theorem spawnThreads_keeps {i : Instr} {entry : DWord} {slalom : Option DWord} {ts : List SpawnThread} {w : Warp} :
    Yields (fun t => s.Keeps t) (spawnThreads i entry slalom ts s w) := by
  unfold spawnThreads
  dsimp only
  split
  · exact yields_ok ⟨rfl, rfl⟩
  · exact yields_error

theorem spawn_kept (x y k : Nat) (env : Env) (w : Warp) : YieldsKept s (spawn x y s k env w) := by
  refine yields_stopIf (yields_spawnChecks fun e => ?_)
  dsimp only
  split
  · exact yields_ok (.refl s)
  · exact Yields.map spawnThreads_keeps

/-! ### Commits -/

theorem reexecute_keeps (k : Nat) (w : Warp) (r : Restart) (seen : Option Nat) (gone : List (Nat × Nat × Nat)) : s.Keeps (s.reexecute k w r seen gone) :=
  ⟨rfl, rfl⟩

/-- The end of a commit stores nothing of its own. -/
theorem endCommit_alone (hch : s.children = []) (k : Nat) (w : Warp) (c : Commit) : s.Keeps (s.endCommit k w c) := by
  unfold State.endCommit
  dsimp only
  split
  · split <;> exact ⟨rfl, rfl⟩
  · split
    · exact ⟨rfl, rfl⟩
    · refine State.Keeps.trans ?_ (settle_alone ?_ _ _)
      · exact ⟨rfl, rfl⟩
      · exact hch

theorem raiseClocks_keeps (hs : List Nat) (time : Nat) : s.Keeps (s.raiseClocks hs time) := ⟨rfl, rfl⟩

end

/-- The lanes of a commit: those that pass, that wait for their turn, and that abort. -/
def Commit.everyone (c : Commit) : List Nat := c.passing ++ c.undecided ++ c.aborted.map (·.1)

/-- The lanes that a commit names before any has failed: those to commit, that wait for their turn, and that abort. -/
def Commit.members (c : Commit) : List Nat := c.lanes.map (·.lane) ++ c.undecided ++ c.aborted.map (·.1)

theorem mem_cutRun {l : Nat} : ∀ (xs : List CommitLane) (ab : List (Nat × Nat)),
    l ∈ (((cutRun xs ab).1.filter (·.passing)).map (·.lane)) ++ (cutRun xs ab).2.map (·.1) ↔ l ∈ xs.map (·.lane) ++ ab.map (·.1)
  | [], ab => by simp [cutRun]
  | x :: xs, ab => by
    have ih := mem_cutRun (l := l) xs ab
    cases hx : x.passing
    · simp [cutRun, hx]
    · simpa [cutRun, hx] using or_congr_right ih

/-- The lanes that are left of a commit as phase 2 begins, and those that abort (R303, R313). -/
def State.cutCommit (s : State) (k : Nat) (w : Warp) (c : Commit) : List CommitLane × List (Nat × Nat) :=
  let xs := c.lanes.map (s.stillPasses k w)
  if c.ordered then cutRun xs c.aborted else (xs.filter (·.passing), c.aborted ++ (xs.filter fun x => !x.passing).map fun x => (x.lane, 2))

/-- A commit as phase 2 begins. -/
def State.begun (s : State) (k : Nat) (w : Warp) (c : Commit) (slices : List Nat) (time : Nat) : Commit :=
  { c with phase := 2, lanes := (s.cutCommit k w c).1, aborted := (s.cutCommit k w c).2, slices := slices, time := time }

theorem begun_everyone (s : State) (k : Nat) (w : Warp) {c : Commit} (ho : c.ordered = true) (slices : List Nat) (time l : Nat) :
    l ∈ (s.begun k w c slices time).everyone ↔ l ∈ c.members := by
  have hcut : s.cutCommit k w c = cutRun (c.lanes.map (s.stillPasses k w)) c.aborted := if_pos ho
  have hmem := mem_cutRun (l := l) (c.lanes.map (s.stillPasses k w)) c.aborted
  have hlanes : (c.lanes.map (s.stillPasses k w)).map (·.lane) = c.lanes.map (·.lane) := by
    rw [List.map_map]
    exact List.map_congr_left fun x _ => rfl
  rw [hlanes, ← hcut] at hmem
  simp only [List.mem_append] at hmem
  unfold Commit.everyone Commit.passing Commit.members
  simp only [State.begun, List.mem_append, or_right_comm (b := l ∈ c.undecided), hmem]

/-- Phase 2 begins with some lanes left: it ends at once where they touch no sector, and else waits for the homes. -/
theorem beginPhase2_cases (s : State) (k : Nat) (w : Warp) (c : Commit) :
    ∃ u slices time, s.Keeps u ∧
      (s.beginPhase2 k w c = u.closeCommit k w (s.begun k w c slices time) ∨ ∃ v, s.beginPhase2 k w c = u.putWarp k v) := by
  cases hcut : s.cutCommit k w c with
  | mk lanes aborted =>
    have hc : s.begun k w c = fun slices time => { c with phase := 2, lanes := lanes, aborted := aborted, slices := slices, time := time } := by
      unfold State.begun
      rw [hcut]
    unfold State.cutCommit at hcut
    unfold State.beginPhase2
    rw [hc]
    dsimp only at hcut ⊢
    rw [hcut]
    dsimp only
    split
    · refine ⟨_, _, _, ?_, .inl rfl⟩
      exact ⟨rfl, rfl⟩
    · refine ⟨_, [], 0, ?_, .inr ⟨_, rfl⟩⟩
      exact ⟨rfl, rfl⟩

theorem closeCommit_unordered {s : State} (hch : s.children = []) (k : Nat) (w : Warp) {c : Commit} (h : c.ordered = false) :
    s.Keeps (s.closeCommit k w c) := by
  have he : s.closeCommit k w c = s.endCommit k w c := if_pos (by rw [h]; rfl)
  rw [he]
  exact endCommit_alone hch ..

theorem beginCommit_unordered {s : State} (hch : s.children = []) (k : Nat) (w : Warp) {c : Commit} (h : c.ordered = false) :
    s.Keeps (s.beginCommit k w c) := by
  unfold State.beginCommit
  dsimp only
  split
  · obtain ⟨u, slices, time, hu, he | ⟨v, he⟩⟩ := beginPhase2_cases s k { w with status := .waiting .commit } c
    · rw [he]
      exact hu.trans (closeCommit_unordered (hu.children.trans hch) _ _ h)
    · rw [he]
      exact hu.trans ⟨rfl, rfl⟩
  · exact ⟨rfl, rfl⟩

theorem commitChecks_yields {α : Type} {P : α → Prop} {ordered : Bool} {env : Env} {w : Warp} {f : Restart → Except Stop α}
    (h : w.openLanes ≠ [] → ∀ r, Yields P (f r)) : Yields P (commitChecks ordered env w f) := by
  refine yields_passed fun hopen => ?_
  have hne : w.openLanes ≠ [] := by simpa using (Bool.or_eq_false_iff.mp hopen).1
  split
  · exact yields_error
  · exact yields_stopIf (yields_stopIf (h hne _))

/-- The commit of a `TXEND` stores nothing as it begins, even where it ends at once. -/
theorem txend_kept {s : State} (hch : s.children = []) (k : Nat) (env : Env) (w : Warp) : YieldsKept s (txend s k env w) := by
  refine commitChecks_yields fun _ _ => yields_released ?_
  have hbegin : ∀ c : Commit, c.ordered = false → s.Keeps (stayWith (s.beginCommit k w.drain c) k w.drain).1 := fun _ hc => beginCommit_unordered hch _ _ hc
  exact yields_ok (hbegin _ rfl)

/-! ### The commit of a `TXENDO` -/

theorem consecutive_append (w : Warp) : ∀ (n : Nat) (ls : List Nat), (w.consecutive n ls).1 ++ (w.consecutive n ls).2 = ls
  | _, [] => rfl
  | n, l :: ls => by
    unfold Warp.consecutive
    split
    · exact congrArg (l :: ·) (consecutive_append w (n + 1) ls)
    · rfl

theorem mem_orderedRun {w : Warp} {l : Nat} : ∀ (run kept : List Nat),
    l ∈ (orderedRun w run kept).1 ++ (orderedRun w run kept).2.map (·.1) ↔ l ∈ kept ++ run
  | [], kept => by simp [orderedRun]
  | x :: run, kept => by
    unfold orderedRun
    repeat' split
    · simp
    · simp
    · exact (mem_orderedRun run (kept ++ [x])).trans (by simp)

theorem mem_byIter_ins {w : Warp} {l x : Nat} : ∀ ls : List Nat, l ∈ Warp.byIter.ins w x ls ↔ l = x ∨ l ∈ ls
  | [] => by simp [Warp.byIter.ins]
  | y :: ls => by
    have ih := mem_byIter_ins (w := w) (l := l) (x := x) ls
    unfold Warp.byIter.ins
    split
    · simp
    · simp [ih, or_left_comm]

theorem mem_byIter {w : Warp} {l : Nat} (ls : List Nat) : l ∈ w.byIter ls ↔ l ∈ ls := by
  have go : ∀ (ls acc : List Nat), l ∈ ls.foldl (fun acc l => Warp.byIter.ins w l acc) acc ↔ l ∈ acc ∨ l ∈ ls := by
    intro ls
    induction ls with
    | nil => simp
    | cons x ls ih =>
      intro acc
      simp only [List.foldl_cons, ih, mem_byIter_ins, List.mem_cons]
      tauto
  exact (go ls []).trans (by simp)

/-- The object of a list of lanes is that of one of them. -/
theorem slalomOf_mem {w : Warp} {ls : List Nat} (hne : ls ≠ []) : ∃ l ∈ ls, w.slalomOf ls = ((w.lane l).slalom.getD 0).toNat := by
  unfold Warp.slalomOf
  cases hfind : ls.findSome? fun l => (w.lane l).slalom with
  | some a =>
    obtain ⟨l, hl, ha⟩ := List.exists_of_findSome?_eq_some hfind
    exact ⟨l, hl, by rw [ha]⟩
  | none =>
    obtain ⟨l, hl⟩ := List.exists_mem_of_ne_nil ls hne
    exact ⟨l, hl, by rw [List.findSome?_eq_none_iff.mp hfind l hl]⟩

/-- A write at a home leaves alone a byte outside it. -/
theorem homeWrite_byte_out {s : State} {pa a : Nat} {bs : List Byte} {cls : CacheClass} {na : Bool} (h : s.Inv) (hout : a < pa ∨ pa + bs.length ≤ a) :
    (s.homeWrite pa bs cls na).byte a = s.byte a := by
  unfold State.byte
  rw [homeWrite_mem]
  exact tabGet_putBytes_out h hout

theorem put64_byte_out {s : State} {pa v a : Nat} (h : s.Inv) (hout : a < pa ∨ pa + 8 ≤ a) : (s.put64 pa v).byte a = s.byte a :=
  homeWrite_byte_out h (by rwa [leBytes_length])

/-- The words that the count of an ordered commit writes are NEXTCOMMIT and FLAGS (R313). -/
theorem countCommits_byte {s : State} {pa n a : Nat} (h : s.Inv) (hout : outsideSpans [(pa + 8, 8), (pa + 0x18, 8)] a = true) :
    (s.countCommits pa n).byte a = s.byte a := by
  simp only [outsideSpans, List.all_cons, List.all_nil, Bool.and_true, Bool.and_eq_true, Bool.or_eq_true, decide_eq_true_eq] at hout
  obtain ⟨hnext, hflags⟩ := hout
  exact (put64_byte_out (homeStore_inv h) hflags).trans (put64_byte_out h hnext)

theorem countCommits_children (s : State) (pa n : Nat) : (s.countCommits pa n).children = s.children :=
  (homeStore_children ..).trans (homeStore_children ..)

/-- A byte that a step leaves as it was, with no child grid pending. -/
structure State.LeavesByte (s : State) (a : Nat) (t : State) : Prop where
  byte : t.byte a = s.byte a
  children : t.children = []

theorem State.LeavesByte.keeps {s t u : State} {a : Nat} (h : s.LeavesByte a t) (hu : t.Keeps u) : s.LeavesByte a u :=
  ⟨(congrArg (fun m => tabGet m a 0) hu.mem).trans h.byte, hu.children.trans h.children⟩

section
variable {s : State} {a : Nat} (hinv : s.Inv) (hch : s.children = [])
include hinv hch

/-- The end of an ordered commit writes at most NEXTCOMMIT and FLAGS of its object. -/
theorem closeCommit_leavesByte (k : Nat) (w : Warp) {c : Commit} (ho : c.ordered = true)
    (hout : outsideSpans [((w.slalomPlace c).pa + 8, 8), ((w.slalomPlace c).pa + 0x18, 8)] a = true) : s.LeavesByte a (s.closeCommit k w c) := by
  have hs : s.LeavesByte a s := ⟨rfl, hch⟩
  have hgo : ¬ (!c.ordered) = true := by rw [ho]; exact Bool.false_ne_true
  unfold State.closeCommit
  rw [if_neg hgo]
  dsimp only
  split
  · exact hs.keeps ⟨rfl, rfl⟩
  · split
    · exact hs.keeps ⟨rfl, rfl⟩
    · split
      · exact hs.keeps (abortLaunch_alone hch ..)
      · have hcount : s.LeavesByte a (s.countCommits (w.slalomPlace c).pa c.passing.length) :=
          ⟨countCommits_byte hinv hout, (countCommits_children ..).trans hch⟩
        exact hcount.keeps (endCommit_alone hcount.children ..)

/-- The words that the object of lane `l` would have written lie elsewhere. -/
def Warp.ObjectApart (w : Warp) (a l : Nat) : Prop :=
  outsideSpans [((slalomPhys ((w.lane l).slalom.getD 0).toNat).pa + 8, 8), ((slalomPhys ((w.lane l).slalom.getD 0).toNat).pa + 0x18, 8)] a = true

/-- Phase 2 of an ordered commit of some lanes writes at most NEXTCOMMIT and FLAGS of their objects as it begins. -/
theorem beginPhase2_leavesByte (k : Nat) (w : Warp) {c : Commit} (ho : c.ordered = true)
    (hne : c.members ≠ [])
    (hout : ∀ l ∈ c.members, w.ObjectApart a l) : s.LeavesByte a (s.beginPhase2 k w c) := by
  have hs : s.LeavesByte a s := ⟨rfl, hch⟩
  obtain ⟨u, slices, time, hu, he | ⟨v, he⟩⟩ := beginPhase2_cases s k w c
  · have hmem := begun_everyone s k w ho slices time
    have hne' : (s.begun k w c slices time).everyone ≠ [] := by
      obtain ⟨l, hl⟩ := List.exists_mem_of_ne_nil _ hne
      exact List.ne_nil_of_mem ((hmem l).mpr hl)
    obtain ⟨l, hl, hobject⟩ := slalomOf_mem (w := w) hne'
    have hplace : w.slalomPlace (s.begun k w c slices time) = slalomPhys ((w.lane l).slalom.getD 0).toNat := congrArg slalomPhys hobject
    have hapart := hout l ((hmem l).mp hl)
    unfold Warp.ObjectApart at hapart
    rw [← hplace] at hapart
    have hend := closeCommit_leavesByte (s := u) (inv_of_mem hu.mem hinv) (hu.children.trans hch) k w (c := s.begun k w c slices time) ho hapart
    rw [he]
    exact ⟨hend.byte.trans (hs.keeps hu).byte, hend.children⟩
  · rw [he]
    exact (hs.keeps hu).keeps ⟨rfl, rfl⟩

/-- An ordered commit of some lanes writes at most NEXTCOMMIT and FLAGS of their objects as it begins. -/
theorem beginCommit_leavesByte (k : Nat) (w : Warp) {c : Commit} {ls : List Nat} (ho : c.ordered = true) (hne : ls ≠ [])
    (hmem : ∀ l, l ∈ c.members ↔ l ∈ ls) (hout : ∀ l ∈ ls, w.ObjectApart a l) : s.LeavesByte a (s.beginCommit k w c) := by
  have hs : s.LeavesByte a s := ⟨rfl, hch⟩
  unfold State.beginCommit
  dsimp only
  split
  · refine beginPhase2_leavesByte hinv hch k _ ho ?_ fun l hl => hout l ((hmem l).mp hl)
    obtain ⟨l, hl⟩ := List.exists_mem_of_ne_nil _ hne
    exact List.ne_nil_of_mem ((hmem l).mpr hl)
  · exact hs.keeps ⟨rfl, rfl⟩

/-- The commit that a `TXENDO` of some lanes begins where NEXTCOMMIT is `next` (R313). -/
def Warp.turnCommit (w : Warp) (ls : List Nat) (next : Nat) : Commit :=
  let r := w.consecutive next ls
  let o := orderedRun w r.1 []
  { ordered := true, phase := 0, lanes := o.1.map fun l => ⟨l, true⟩, aborted := o.2, undecided := r.2, slices := slicesOf (w.sectorsOfLanes o.1),
    time := 0, next := next }

omit hinv hch in
theorem mem_turnCommit {w : Warp} {ls : List Nat} {next l : Nat} :
    l ∈ (w.turnCommit ls next).members ↔ l ∈ ls := by
  have hsplit := consecutive_append w next ls
  have hrun := mem_orderedRun (w := w) (l := l) (w.consecutive next ls).1 []
  have hlanes : (w.turnCommit ls next).lanes.map (·.lane) = (orderedRun w (w.consecutive next ls).1 []).1 := by
    unfold Warp.turnCommit
    simp [Function.comp_def]
  unfold Commit.members
  rw [hlanes]
  simp only [List.mem_append, List.nil_append] at hrun ⊢
  conv_rhs => rw [← hsplit, List.mem_append, ← hrun]
  exact or_right_comm

omit hinv hch in
theorem readTurn_yields {P : State × Warp × Next → Prop} {k : Nat} {env : Env} {w : Warp} {o : Phys} {f : Nat → Effect}
    (hstay : P (s, { w with status := .waiting (.turn true) }, .stay)) (hf : ∀ next, Yields P (f next)) : Yields P (readTurn s k env w o f) := by
  unfold readTurn
  dsimp only
  split
  · refine yields_stopIf ?_
    split
    · exact yields_stopIf (hf _)
    · exact yields_error
  · split
    · exact yields_ok hstay
    · exact yields_stopIf (hf _)

/-- A `TXENDO` writes at most NEXTCOMMIT and FLAGS of the objects of its open lanes. -/
theorem txendo_leavesByte (k : Nat) (env : Env) (w : Warp) (hout : ∀ l ∈ w.drain.openLanes, w.drain.ObjectApart a l) :
    Yields (fun r => s.LeavesByte a r.1) (txendo s k env w) := by
  have hs : s.LeavesByte a s := ⟨rfl, hch⟩
  refine commitChecks_yields fun hne _ => yields_released (readTurn_yields ?_ fun next => ?_)
  · exact hs
  · have hbegin := beginCommit_leavesByte hinv hch k w.drain (c := w.drain.turnCommit (w.drain.byIter w.drain.openLanes) next) rfl hne
      (fun l => mem_turnCommit.trans (mem_byIter w.drain.openLanes)) hout
    unfold Warp.turnCommit at hbegin
    cases hrun : w.drain.consecutive next (w.drain.byIter w.drain.openLanes) with
    | mk run later =>
      rw [hrun] at hbegin
      dsimp only at hbegin ⊢
      refine yields_ite (yields_ok ?_) ?_
      · exact hs
      · exact yields_ok hbegin

end

end Sys2Proof.Machine
end

section
/-! SUPPORT. The memory frame of every instruction that stores nothing when it issues (R95, R197, R200, R262, R311, R313). -/

namespace Sys2Proof.Machine

/-! ### LAUNCH -/

theorem yields_foldE {α β : Type} {P : β → Prop} {f : β → α → Except Stop β} (hf : ∀ b x, P b → Yields P (f b x)) :
    ∀ (ls : List α) (b : β), P b → Yields P (foldE f b ls)
  | [], _, hb => yields_ok hb
  | x :: ls, b, hb => by
    unfold foldE
    split
    · next hx => exact yields_foldE hf ls _ ((hf b x hb).of_ok _ hx)
    · exact yields_error

theorem readPacket_kept {s : State} (k l : Nat) (env : Env) (w : Warp) (i : Instr) (a : DWord) : YieldsKept s (readPacket s k l env w i a) := by
  unfold readPacket
  split
  · exact yields_stopIf (yields_stopIf ((coreLoad_kept ..).map fun _ => rfl))
  · exact yields_error
  · exact yields_error

theorem faultLane_handler (w : Warp) (l cause : Nat) (addr : DWord) : (w.faultLane l cause addr).handler = w.handler := by
  obtain ⟨ls, fp, m, h⟩ := applyLane_frame w l (.error (cause, addr))
  unfold Warp.faultLane
  rw [h]

theorem markerWait_handler (w : Warp) : w.markerWait.handler = w.handler := by
  unfold Warp.markerWait
  split
  · exact drain_handler w
  · rfl

theorem finish_handler (w : Warp) (n : Next) : (w.finish n).handler = w.handler := by
  cases n with
  | after len => exact markerWait_handler _
  | jump a => exact markerWait_handler _
  | stay => rfl

/-- A `LAUNCH` stores nothing, and leaves the warp outside its handler where it was. -/
theorem launchGrids_memory {s : State} (x k : Nat) (env : Env) (w : Warp) :
    Yields (fun r => r.1.mem = s.mem ∧ r.2.handler = w.handler) (launchGrids x s k env w) := by
  refine yields_stopIf (yields_rangeCheck (yields_stopIf (yields_stopIf (yields_released (Yields.map ?_)))))
  refine (yields_foldE (P := fun r => r.1.mem = s.mem) (fun b l hb => Yields.map ((readPacket_kept ..).imp fun q hq => hq.mem.trans hb)) _ _ rfl).imp
    fun r hr => ?_
  have hfold : ∀ (ls : List Nat) (v : Warp), v.handler = w.handler → (ls.foldl (fun w' l => match packetFault env (w.packetAddr x l) with
      | some c => w'.faultLane l c (w.packetAddr x l)
      | none => w') v).handler = w.handler := by
    refine fun ls v hv => foldl_keeps (P := fun u : Warp => u.handler = w.handler) (fun u l hu => ?_) ls v hv
    split
    · exact (faultLane_handler ..).trans hu
    · exact hu
  dsimp only
  repeat' split
  · exact ⟨rfl, hfold _ _ rfl⟩
  · exact ⟨hr, hfold _ _ rfl⟩
  · exact ⟨hr, hfold _ _ rfl⟩

/-- A warp outside its handler ends an instruction without a store. -/
theorem settle_mem_outside {s : State} {k : Nat} {w : Warp} (hh : w.handler = none) : (s.settle k w).mem = s.mem := by
  unfold State.settle
  rw [hh]
  split
  · next h => cases h
  · split
    · exact (noteDraws_mem ..).trans (detachAll_mem ..)
    · rfl

theorem launch_memory {s t : State} {k x : Nat} {w : Warp} (h : s.StaysOut k w t) (hh : w.handler = none) (ht : execLaunch x s = .next t) :
    t.mem = s.mem := by
  unfold execLaunch State.issueMem State.issueOf at ht
  simp only [h.turn, h.warp] at ht
  cases ht
  have hout := h.out
  unfold State.issueBy at hout ⊢
  dsimp only at hout ⊢
  cases henv : s.env? w with
  | none => rfl
  | some env =>
    simp only [henv] at hout ⊢
    cases hr : launchGrids x s k env { w with status := .ready } with
    | ok r =>
      obtain ⟨hmem, hhandler⟩ := (launchGrids_memory x k env _).of_ok r hr
      exact (settle_mem_outside (s := r.1.forget k) ((finish_handler ..).trans (hhandler.trans hh))).trans hmem
    | error e =>
      simp only [hr] at hout
      have hend : s.Keeps (s.halt k { w with status := .ready } 4 e) := halt_alone h.alone hout
      exact hend.mem

/-! ### The pairs of a repetition -/

theorem rep_unstored (s : State) (n : Nat) (sd sa sb : Bool) (stride : Nat) (body : Instr) : s.Unstored (execRep n sd sa sb stride body s) := by
  intro k w t h ht
  unfold execRep at ht
  simp only [h.turn, h.warp] at ht
  have hout := h.out
  split at ht
  · cases ht
    exact issueBy_keeps (fun s _ _ _ _ _ => Yields.map ⟨fun _ _ => .refl s⟩) h.alone rfl hout
  · cases ht
    rfl

/-! ### Every instruction -/

/-- The instructions that may store as they issue, or make a child grid. -/
def mayStore : Instr → Bool
  | .sst .. | .satom .. | .vst .. | .vatom .. | .vspl .. | .spawno .. | .txendo | .launch _ => true
  | _ => false

theorem exec_unstored (s : State) (i : Instr) (henc : i.isEncoded = true) (hi : mayStore i = false) : s.Unstored (exec i s) := by
  cases i
  case vadd | vsub | vmul | vmad | vmin | vmax | vand | vor | vxor | vshl | vshr | vsra | vmulh | vdot | vcmp | vcvt | vaddi | vmuli | vandi | vori
      | vshi | vcmpi | vmovi | vrdx | vwrx | vsel | vbfe | vbfi | vshfl | salu | salui | slui | sauipc | ssrRead | ssrWrite | spadj | meldOff | afence
      | txabort | txstat | gset | mode | modeScalar | vnot | vabs | vneg | vclz | vpopc | vrcp | vrsq | vexp2 | vlog2 | vsin | vcos | vact | vmov
      | vmovSpecial | vredadd | vredmin | vredmax | vredand | vredor | vredxor | vscan | vvoteany | vvoteall | vballot | vmatch | vpack | vunpk | vrand
      | pand | por | pxor | pnot | pmov | ppack | punpk | ptos | pset | vlane | nop | exit | trap | bkpt | reservedEncoding => exact issue_unstored _
  case br | jmp | call | calli | callv | jmpi | ret | split | switch | eret => exact issueControl_unstored _
  case rep => exact rep_unstored _ _ _ _ _ _ _
  case sld => exact issueMem_unstored fun _ _ _ _ _ => sld_kept ..
  case meldLdt => exact issueMem_unstored fun _ _ _ _ _ => meldLdt_kept ..
  case yield => exact issueMem_unstored fun _ _ _ _ _ => yield_kept ..
  case sleep => exact issueMem_unstored fun _ _ _ _ _ => sleep_kept ..
  case fence => exact issueMem_unstored fun _ _ _ _ _ => fence_kept ..
  case rfence => exact issueMem_unstored fun _ _ _ _ _ => rfence_kept ..
  case pref => exact issueMem_unstored fun _ _ _ _ _ => pref_kept ..
  case vld => exact issueMem_unstored fun _ _ _ _ _ => vld_kept ..
  case vlds => exact issueMem_unstored fun _ _ _ _ _ => vlds_kept ..
  case vsts => exact issueMem_unstored fun _ _ _ _ _ => vsts_kept ..
  case gst => exact issueMem_unstored fun _ _ _ _ hm => gst_kept hm
  case vatoms => exact issueMem_unstored fun _ _ _ _ _ => vatoms_kept ..
  case vfil => exact issueMem_unstored fun _ _ _ _ _ => vfil_kept ..
  case binit => exact issueMem_unstored fun _ _ _ _ _ => binit_kept ..
  case barv => exact issueMem_unstored fun _ _ _ _ _ => barv_kept ..
  case tcopy => exact issueMem_unstored fun _ _ _ _ _ => tcopy_kept ..
  case mma | mmag => exact issueMem_unstored fun _ _ _ _ _ => matrixMultiply_kept ..
  case accz => exact issueMem_unstored fun _ _ _ _ _ => accz_kept ..
  case accld => exact issueMem_unstored fun _ _ _ _ _ => accld_kept ..
  case accst => exact issueMem_unstored fun _ _ _ _ _ => accst_kept ..
  case accstR => exact issueMem_unstored fun _ _ _ _ _ => accstR_kept ..
  case rstat => exact issueMem_unstored fun _ _ _ _ _ => rstat_kept ..
  case actld => exact issueMem_unstored fun _ _ _ _ _ => actld_kept ..
  case coll => exact issueMem_unstored fun _ _ _ _ _ => coll_kept ..
  case qappendTry => exact issueMem_unstored fun _ _ _ _ _ => qappendTry_kept ..
  case qatt => exact issueMem_unstored fun _ _ _ _ _ => qatt_kept ..
  case qattOwn => exact issueMem_unstored fun _ _ _ _ _ => qattOwn_kept ..
  case qdet => exact issueMem_unstored fun _ _ _ _ _ => qdet_kept ..
  case spawn => exact issueMem_unstored fun _ _ _ _ _ => spawn_kept ..
  case tcopyY => exact issueOf_unstored fun _ _ _ _ _ _ => tcopyY_kept ..
  case qappend => exact issueOf_unstored fun _ _ _ _ _ _ => qappend_kept ..
  case qpop => exact issueOf_unstored fun _ _ _ _ _ _ => qpop_kept ..
  case qdetOwn => exact issueOf_unstored fun _ _ _ _ _ _ => qdetOwn_kept ..
  case meldOn => exact issueParked_unstored fun s _ _ _ _ _ => Yields.map ⟨fun _ _ => .refl s⟩
  case region => exact issueParked_unstored fun _ _ _ _ _ _ => region_kept ..
  case bar => exact issueParked_unstored fun _ _ _ _ _ _ => bar_kept ..
  case cbar => exact issueParked_unstored fun _ _ _ _ _ _ => cbar_kept ..
  case await => exact issueParked_unstored fun _ _ _ _ _ _ => await_kept ..
  case bwait => exact issueParked_unstored fun _ _ _ _ _ _ => bwait_kept ..
  case txend => exact issueParked_unstored fun _ _ _ _ _ hch => txend_kept hch ..
  case sst | satom | vst | vatom | vspl | spawno | txendo | launch => exact absurd hi.symm Bool.false_ne_true
  all_goals exact absurd henc Bool.false_ne_true

theorem drain_ready (w : Warp) : ({ w.drain with status := .ready } : Warp).drain = { w.drain with status := .ready } := rfl
theorem openLanes_ready (w : Warp) : ({ w with status := .ready } : Warp).openLanes = w.openLanes := rfl

/-- A `TXENDO` that does not enter the handler leaves alone a byte outside NEXTCOMMIT and FLAGS of its open lanes' objects. -/
theorem txendo_byte {s t : State} {k a : Nat} {w : Warp} (h : s.StaysOut k w t) (hinv : s.Inv)
    (hout : ∀ l ∈ w.drain.openLanes, w.drain.ObjectApart a l) (ht : execTxendo s = .next t) : t.byte a = s.byte a := by
  unfold execTxendo State.issueParked at ht
  simp only [h.turn, h.warp] at ht
  cases ht
  refine issueBy_mem_alone (P := fun t => t.byte a = s.byte a) h.alone (drain_handler w) (fun hu ht => (congrArg (fun m => tabGet m a 0) hu).trans ht) rfl
    (fun env s1 w1 n henv he => ?_) h.out
  have hlanes : ∀ l ∈ ({ w.drain with status := .ready } : Warp).drain.openLanes, ({ w.drain with status := .ready } : Warp).drain.ObjectApart a l := by
    rw [drain_ready, openLanes_ready]
    exact hout
  have hbyte : s.LeavesByte a s1 := (txendo_leavesByte hinv h.alone k env _ hlanes).of_ok _ he
  exact ⟨hbyte.byte, hbyte.children⟩

/-- Settles O36. -/
theorem otherInstructionsKeepMemory : Obligations.OtherInstructionsKeepMemory := by
  intro s t k x a w env i henc hch hturn hwarp hout ht
  have h : s.StaysOut k w t := ⟨hturn, hwarp, hch, hout⟩
  refine ⟨?_, fun hi hrun hh => ?_, fun hi hinv hspans => ?_⟩
  · cases hi : mayStore i with
    | false =>
      have hmem := exec_unstored s i henc hi k w t h ht
      split <;> trivial
    | true => cases i <;> trivial
  · subst hi
    exact launch_memory h hh ht
  · subst hi
    exact txendo_byte h hinv hspans ht

end Sys2Proof.Machine
end

section
/-! SUPPORT. Stores change only the bytes that they store to (R193, R277, R332): a state in which they do not, since an L1 holds two lines under one number. -/

namespace Sys2Proof.Machine

/-- The byte to which a store waits in the line that another line of the L1 hides. -/
def hiddenByte : Nat := 0x100040

/-- An L1 with two lines under one number: a copy in S, which is found, and behind it a line in M with a store that waits. -/
def twoLines : Tab L1Line :=
  [(0x2000, waitingLine .s 0 [] 0 .normal), (0x2000, waitingLine .m 0 [⟨0, 0, hiddenByte, hiddenByte, [7]⟩] 0 .normal)]

/-- A warp of two lanes, the second with the offset 8 in v9, and the base 0x100018 in s4. -/
def twoLanes (w : Warp) : Warp :=
  (({ w with mode := 15, live := 3, active := 3 } : Warp).setScal 4 0x100018).setLane 1 ((w.lane 1).put 9 8)

/-- The bench with `twoLanes` as its warp and `twoLines` in its L1. Page 16 is mapped, the directory has the core as the sharer of the line, and the sector of the first
lane's address is locked by an irrevocable lane of the warp, so that the lane stores at the home. -/
def shadowed : State :=
  { State.reset.bench with
    warps := State.reset.bench.warps.map fun e => (e.1, twoLanes e.2)
    cores := [(0, { Core.empty with tlb := [⟨0, 16, 1, 0x10002F, 2⟩], l1 := twoLines })]
    dirs := [(0x2000, { DirEntry.empty with st := .s, sharers := [0] })]
    locks := [(0x8000, ⟨0, 0, true, 1⟩)] }

/-- The bench's warp with what it sees. -/
def shadowedRun : Option (Warp × Env) := (tabFind shadowed.warps 0).bind fun w => (shadowed.env? w).map fun env => (w, env)

/-- Where an address of page 16 leads. -/
def onPage (va : Nat) : Target := .global va ⟨va, false, 0, 0, false⟩

/-- Where the second lane's store goes once the first lane has stored. -/
def secondTarget (w : Warp) (env : Env) : Except Stop Target :=
  (vstLane 5 4 9 .normal false false 0 env w 0 shadowed w).bind fun u => resolve u.1 env (u.2.lane 1) 1 (w.address 4 9 1) 4 .write

/-- The two lanes store to eight bytes at 0x100018, apart from the hidden byte. -/
def storesApart (w : Warp) (env : Env) : Bool :=
  decide (w.status = .ready ∧ memSize (w.mark false 9).typ = 4 ∧ lanesOf (w.mark false 9).width (w.mark false 9).executing = [0, 1]
    ∧ resolve shadowed env ((w.mark false 9).lane 0) 0 ((w.mark false 9).address 4 9 0) 4 .write = .ok (onPage 0x100018)
    ∧ secondTarget (w.mark false 9) env = .ok (onPage 0x100020))

/-- The hidden byte is written, and no warp enters its handler. -/
def storesHidden : Bool :=
  match exec (.vst 5 4 9 .normal false false) shadowed with
  | .next t => t.byte hiddenByte != shadowed.byte hiddenByte && t.warps.all fun e => e.2.handler.isNone
  | _ => false

theorem shadowedRun_storesApart : (shadowedRun.any fun r => storesApart r.1 r.2) = true := by decide
theorem storesHidden_eq : storesHidden = true := by decide

/-- Every line that is found in an L1 of `shadowed` is without a store that waits. -/
theorem shadowed_waiting {core line : Nat} {y : L1Line} (h : shadowed.l1Line core line = some y) : y.waiting = [] := by
  by_cases hc : core = 0
  · subst hc
    change tabFind twoLines line = some y at h
    simp only [twoLines, tabFind] at h
    split at h
    · cases h
      rfl
    · split at h
      · cases h
      · cases h
  · change tabFind (tabGet (tabSet [] 0 _) core Core.empty).l1 line = some y at h
    rw [tabGet_tabSet_ne _ _ _ hc] at h
    cases h

/-- A place on page 16 that ends before the hidden byte is apart from it. -/
theorem onPage_apart {va : Nat} (h : va + 4 ≤ hiddenByte) :
    (∀ a p, onPage va = .global a p → p.fab = false → hiddenByte < p.pa ∨ p.pa + 4 ≤ hiddenByte) ∧
      ∀ ps, onPage va = .priv ps → ∀ p ∈ ps, hiddenByte < p.1 ∨ p.1 + p.2 ≤ hiddenByte := by
  refine ⟨fun a p he _ => ?_, fun ps he => by cases he⟩
  cases he
  exact .inr h

/-- Where a lane's store goes, in the state that the lanes before it left: apart from the hidden byte. -/
theorem storesApart_target {w : Warp} {env : Env} {before after : List Nat} {l : Nat} {u : State × Warp} {tg : Target}
    (hlanes : lanesOf w.width w.executing = [0, 1])
    (hfirst : resolve shadowed env (w.lane 0) 0 (w.address 4 9 0) 4 .write = .ok (onPage 0x100018))
    (hsecond : secondTarget w env = .ok (onPage 0x100020)) (hsplit : lanesOf w.width w.executing = before ++ l :: after)
    (hbefore : memLanes (vstLane 5 4 9 .normal false false 0 env w) before shadowed w = .ok u)
    (htarget : resolve u.1 env (u.2.lane l) l (w.address 4 9 l) 4 .write = .ok tg) : tg = onPage 0x100018 ∨ tg = onPage 0x100020 := by
  rw [hlanes] at hsplit
  cases before with
  | nil =>
    obtain ⟨rfl, -⟩ := List.cons.inj hsplit
    cases hbefore
    exact .inl (Except.ok.inj (htarget.symm.trans hfirst))
  | cons b rest =>
    obtain ⟨rfl, hrest⟩ := List.cons.inj hsplit
    cases rest with
    | nil =>
      obtain ⟨rfl, -⟩ := List.cons.inj hrest
      unfold secondTarget at hsecond
      simp only [memLanes] at hbefore
      split at hbefore
      · next hlane =>
        cases hbefore
        rw [hlane] at hsecond
        exact .inr (Except.ok.inj (htarget.symm.trans hsecond))
      · cases hbefore
    | cons c rest => simp at hrest

/-- Refutes O35: a line that another line of the same number hides in an L1 comes to light when the first store's home invalidates that line, and the second store performs
the stores that wait in it. -/
theorem not_storesChangeOnlyTheirBytes : ¬ Obligations.StoresChangeOnlyTheirBytes := by
  intro h
  have hany := shadowedRun_storesApart
  cases hrun : shadowedRun with
  | none => simp [hrun] at hany
  | some r =>
    obtain ⟨w, env⟩ := r
    rw [hrun] at hany
    obtain ⟨hready, hsize, hlanes, hfirst, hsecond⟩ := of_decide_eq_true hany
    obtain ⟨w', hw, henv⟩ := Option.bind_eq_some_iff.mp hrun
    obtain ⟨env', henv, he⟩ := Option.map_eq_some_iff.mp henv
    cases he
    have hhidden := storesHidden_eq
    unfold storesHidden at hhidden
    split at hhidden
    · next t ht =>
      obtain ⟨hbyte, hout⟩ := Bool.and_eq_true_iff.mp hhidden
      have hin : ∀ v, tabFind t.warps 0 = some v → v.handler.isSome = true → w.handler.isSome = true := fun v hv hv' => by
        have hnone := List.all_eq_true.mp hout _ (tabFind_mem hv)
        rw [Option.isNone_iff_eq_none] at hnone
        rw [hnone] at hv'
        cases hv'
      obtain ⟨-, -, hvst, -⟩ := h shadowed t 0 w env hiddenByte 5 4 9 0 0 .b8 .normal false false .add .device .relaxed ⟨rfl, hw, henv, hready⟩ rfl rfl
        hin fun core line y hy => by rw [shadowed_waiting hy]; exact nofun
      refine bne_iff_ne.mp hbyte (hvst ht fun before l after u tg hsplit hbefore htarget => ?_)
      rw [hsize] at htarget ⊢
      rcases storesApart_target hlanes hfirst hsecond hsplit hbefore htarget with rfl | rfl <;> exact onPage_apart (by decide)
    · cases hhidden

end Sys2Proof.Machine
end

section
/-! SUPPORT. The operations that store nothing: they leave memory as it is. -/

namespace Sys2Proof.Machine

@[simp] theorem l2Hit_mem (s : State) (line : Nat) (c : CacheClass) (na : Bool) : (s.l2Hit line c na).mem = s.mem := by
  unfold State.l2Hit
  dsimp only
  repeat' split
  all_goals simp
@[simp] theorem askMsc_mem (s : State) (line : Nat) (c : CacheClass) (waits dirty : Bool) : (s.askMsc line c waits dirty).mem = s.mem := by
  unfold State.askMsc
  split
  · rfl
  · split <;> rfl
@[simp] theorem sendNew_mem (s : State) (p line : Nat) (b : FrameBody) : (s.sendNew p line b).mem = s.mem := rfl
@[simp] theorem skipSignal_mem (s : State) (g : Signal) : (s.skipSignal g).mem = s.mem := by
  unfold State.skipSignal
  simp
@[simp] theorem touchPieces_mem (s : State) (ps : List (Nat × Nat)) : (s.touchPieces ps).mem = s.mem := (touchPieces_keeps ..).mem
@[simp] theorem failCommit_mem (s : State) (k l : Nat) : (s.failCommit k l).mem = s.mem := (failCommit_keeps ..).mem
@[simp] theorem txFetch_mem (s : State) (core : Nat) (t : Tx) (p : Phys) (n : Nat) : (s.txFetch core t p n).mem = s.mem := (txFetch_keeps ..).mem
@[simp] theorem shmWrite_mem (s : State) (t off : Nat) (bs : List Byte) : (s.shmWrite t off bs).mem = s.mem := (shmWrite_keeps ..).mem
@[simp] theorem plainShm_mem (s : State) (t off : Nat) (bs : List Byte) : (s.plainShm t off bs).mem = s.mem := (plainShm_keeps ..).mem
@[simp] theorem dropCopies_mem (s : State) (ctx : Nat) (p : Nat → Bool) : (s.dropCopies ctx p).mem = s.mem := rfl
@[simp] theorem acquire_mem (s : State) (env : Env) (scope : Scope) : (s.acquire env scope).mem = s.mem := (acquire_keeps ..).mem
@[simp] theorem enqueue_mem (s : State) (n : Nat) (o : EngineOp) : (s.enqueue n o).mem = s.mem := rfl
@[simp] theorem updateTeam_mem (s : State) (t : Nat) (f : Team → Team) : (s.updateTeam t f).mem = s.mem := (updateTeam_keeps ..).mem
@[simp] theorem arrive_mem (s : State) (t off c errors : Nat) : (s.arrive t off c errors).mem = s.mem := (arrive_keeps ..).mem
@[simp] theorem raiseClocks_mem (s : State) (hs : List Nat) (time : Nat) : (s.raiseClocks hs time).mem = s.mem := (raiseClocks_keeps ..).mem
@[simp] theorem reexecute_mem (s : State) (k : Nat) (w0 : Warp) (r : Restart) (seen : Option Nat) (gone : List (Nat × Nat × Nat)) : (s.reexecute k w0 r seen gone).mem = s.mem :=
  (reexecute_keeps ..).mem
@[simp] theorem rejoin_mem (s : State) (k : Nat) (w : Warp) (r : Restart) (seen : Option Nat) (gone : List (Nat × Nat × Nat)) : (s.rejoin k w r seen gone).mem = s.mem := rfl
@[simp] theorem writeEntries_mem (s : State) (r : QueueRef) (a : List (List Byte)) : (s.writeEntries r a).mem = s.mem := (writeEntries_keeps ..).mem
@[simp] theorem unlist_mem (s : State) (r : QueueRef) (k : Nat) : (s.unlist r k).mem = s.mem := rfl
@[simp] theorem issueColl_mem (s : State) (id : Nat) (c : Collective) : (s.issueColl id c).mem = s.mem := (issueColl_keeps ..).mem
@[simp] theorem setQuarter_mem (s : State) (core q : Nat) (x : Quarter) : (s.setQuarter core q x).mem = s.mem := rfl
@[simp] theorem servicePage_mem (s : State) (on : Nat → Bool) (ctx va : Nat) : (s.servicePage on ctx va).mem = s.mem := rfl
@[simp] theorem fillTlbs_mem (s : State) (core ctx va : Nat) (e : DWord) (lv : Nat) : (s.fillTlbs core ctx va e lv).mem = s.mem := rfl
@[simp] theorem report_mem (s : State) (m : Missing) (kind level : Nat) : (s.report m kind level).mem = s.mem := rfl
@[simp] theorem dropLeaf_mem (s : State) (core ctx va : Nat) : (s.dropLeaf core ctx va).mem = s.mem := rfl
@[simp] theorem fillFor_mem (s : State) (core ctx va0 : Nat) (k : AccessKind) : (s.fillFor core ctx va0 k).mem = s.mem := by
  unfold State.fillFor
  dsimp only
  repeat' split
  all_goals simp
@[simp] theorem fillAccess_mem (s : State) (core ctx va : Nat) (k : AccessKind) : (s.fillAccess core ctx va k).mem = s.mem := by
  unfold State.fillAccess
  split <;> simp
@[simp] theorem translated_mem (s : State) (w : Warp) (i : Instr) : (s.translated w i).mem = s.mem := by
  unfold State.translated
  split
  · rfl
  · refine foldl_mem (fun s x => ?_) _ s
    split
    · rfl
    · split
      · simp
      · split
        · rfl
        · exact foldl_mem (fun s p => fillFor_mem ..) _ s
      · rfl
@[simp] theorem startWarp_mem (s : State) (t : Nat) (entry : DWord) (slalom : Option DWord) (threads : List NewThread) : (s.startWarp t entry slalom threads).mem = s.mem := by
  unfold State.startWarp
  dsimp only
  repeat' split
  all_goals simp
@[simp] theorem startSealed_mem (s : State) (core i : Nat) : (s.startSealed core i).mem = s.mem := by
  unfold State.startSealed
  dsimp only
  repeat' split
  all_goals simp
@[simp] theorem resumeAfter_mem (s : State) (k : Nat) (w : Warp) (len : Nat) : (s.resumeAfter k w len).mem = s.mem := rfl
@[simp] theorem releaseWarps_mem (s : State) (ks : List Nat) : (s.releaseWarps ks).mem = s.mem := foldl_mem (fun _ _ => by split <;> simp) _ s
@[simp] theorem releaseBar_mem (s : State) (t : Nat) : (s.releaseBar t).mem = s.mem := by
  unfold State.releaseBar
  split <;> simp
@[simp] theorem releaseCbar_mem (s : State) (launch c n : Nat) : (s.releaseCbar launch c n).mem = s.mem := by
  unfold State.releaseCbar
  simp
@[simp] theorem CopyDesc_touch_mem (s : State) (d : CopyDesc) (line : Nat) : (CopyDesc.touch d s line).mem = s.mem := by
  unfold CopyDesc.touch
  split <;> simp
@[simp] theorem poisonShm_mem (s : State) (t off n : Nat) : (s.poisonShm t off n).mem = s.mem := by
  unfold State.poisonShm
  simp
@[simp] theorem mmaUnit_mem (s : State) (o : EngineOp) (gather : Bool) (x : Tile) (a b : Nat) (f : FormatBlock) (sat : Bool) (u : Nat) (w : Work) : (mmaUnit o gather x a b f sat u s w).mem = s.mem :=
  by
  unfold mmaUnit
  simp
@[simp] theorem throughL2_mem (s : State) (c : CacheClass) (na : Bool) (line : Nat) : (throughL2 c na s line).mem = s.mem := by
  unfold throughL2
  simp
@[simp] theorem writeRow_mem (s : State) (k l : Nat) (names : List Nat) (vals : List Word) : (writeRow s k l names vals).mem = s.mem := by
  unfold writeRow
  split <;> rfl
@[simp] theorem keepWork_mem (s : State) (id : Nat) (w : Work) : (s.keepWork id w).mem = s.mem := by
  unfold State.keepWork
  split <;> rfl
@[simp] theorem finishOp_mem (s : State) (id : Nat) (env : Env) (o : EngineOp) (errors : Nat) : (s.finishOp id env o errors).mem = s.mem := by
  unfold State.finishOp
  dsimp only
  repeat' split
  all_goals simp
@[simp] theorem publishOp_mem (s : State) (o : EngineOp) (w : Work) : (s.publishOp o w).mem = s.mem := by
  unfold State.publishOp
  split
  · split <;> simp
  · rfl
@[simp] theorem endOp_mem (s : State) (id : Nat) (env : Env) (o : EngineOp) (w : Work) : (s.endOp id env o w).mem = s.mem := by
  unfold State.endOp
  dsimp only
  repeat' split
  all_goals simp
@[simp] theorem tellMembers_mem (s : State) (d : CollDesc) (me : Nat) (fs : List CollFrame) : (s.tellMembers d me fs).mem = s.mem :=
  foldl_mem (fun s _ => foldl_mem (fun _ _ => sendNew_mem ..) _ s) _ s
@[simp] theorem performColl_mem (s : State) (id : Nat) (c : Collective) : (s.performColl id c).mem = s.mem := by
  unfold State.performColl
  dsimp only
  repeat' split
  all_goals simp
@[simp] theorem retireTeam_mem (s : State) (t : Nat) : (s.retireTeam t).mem = s.mem := by
  unfold State.retireTeam
  split <;> simp
@[simp] theorem releaseWarp_mem (s : State) (k : Nat) (w : Warp) : (s.releaseWarp k w).mem = s.mem := by
  unfold State.releaseWarp
  dsimp only
  repeat' split
  all_goals simp
@[simp] theorem flushL1_mem (s : State) (core : Nat) : (s.flushL1 core).mem = s.mem := foldl_mem (fun _ _ => by simp) _ s
@[simp] theorem takeSplit_mem (s : State) (x : Launch) (core : Nat) : (s.takeSplit x core).mem = s.mem := by
  unfold State.takeSplit
  dsimp only
  repeat' split
  all_goals simp
@[simp] theorem seatWarps_mem (s : State) (core : Nat) (ks : List Nat) : (s.seatWarps core ks).mem = s.mem := by
  induction ks generalizing s with
  | nil => rfl
  | cons k r ih =>
    unfold State.seatWarps
    split
    · exact ih s
    · exact ih _
@[simp] theorem resumeTeam_mem (s : State) (x : Launch) (t core : Nat) : (s.resumeTeam x t core).mem = s.mem := by
  unfold State.resumeTeam
  split <;> simp
@[simp] theorem placeTeam_mem (s : State) (id : Nat) (x : Launch) (flat core : Nat) : (s.placeTeam id x flat core).mem = s.mem := by
  unfold State.placeTeam
  dsimp only
  rw [foldl_mem fun s i => startWarp_mem ..]
@[simp] theorem placeCluster_mem (s : State) (id : Nat) (x : Launch) (n : Nat) (cores : List Nat) : (s.placeCluster id x n cores).mem = s.mem := by
  refine foldl_mem (fun s i => ?_) _ s
  dsimp only
  split <;> simp
@[simp] theorem frontTouch_mem (s : State) (ctx : Nat) (x : Nat × Nat) : (s.frontTouch ctx x).mem = s.mem := by
  unfold State.frontTouch
  split
  · split <;> simp
  · rfl
@[simp] theorem askOnce_mem (s : State) (pkg : Nat) (op : RemoteOp) (tag va : Nat) : (s.askOnce pkg op tag va).mem = s.mem := by
  unfold State.askOnce
  split <;> rfl
@[simp] theorem askFor_mem (s : State) (a : FrontStop) : (s.askFor a).mem = s.mem := by
  unfold State.askFor
  split <;> simp
@[simp] theorem served_mem (s : State) (q : Nat) : (s.served q).mem = s.mem := rfl
@[simp] theorem stopWarp_mem (s : State) (k : Nat) (w : Warp) : (s.stopWarp k w).mem = s.mem := rfl
@[simp] theorem askStop_mem (s : State) (k : Nat) : (s.askStop k).mem = s.mem := by
  unfold State.askStop
  split
  · rfl
  · split
    · rfl
    · split
      · simp
      · split <;> simp
@[simp] theorem preempt_mem (s : State) (t : Nat) : (s.preempt t).mem = s.mem := by
  unfold State.preempt
  split
  · rfl
  · split
    · rfl
    · dsimp only
      split
      · rfl
      · rw [foldl_mem askStop_mem]
@[simp] theorem doRoom_mem (s : State) (x : Launch) (a : Room) : (s.doRoom x a).mem = s.mem := by
  unfold State.doRoom
  split <;> simp
@[simp] theorem saveTeam_mem (s : State) (x : Launch) (t : Nat) : (s.saveTeam x t).mem = s.mem := by
  unfold State.saveTeam
  split <;> simp
@[simp] theorem callSector_mem (s : State) (all : Bool) (x : Nat) (m : BitVec 32) : (s.callSector all x m).mem = s.mem := by
  unfold State.callSector
  simp
@[simp] theorem unlockLane_mem (s : State) (k l : Nat) : (s.unlockLane k l).mem = s.mem := rfl
@[simp] theorem awaitFill_mem (s : State) (m : Msg) : (s.awaitFill m).mem = s.mem := by
  unfold State.awaitFill
  split <;> simp
@[simp] theorem sendAll_mem (s : State) (k : MsgKind) (line : Nat) (cs : List Nat) : (s.sendAll k line cs).mem = s.mem := foldl_mem (fun _ _ => by simp) _ s
@[simp] theorem await_mem (s : State) (line : Nat) (d : DirEntry) (k : MsgKind) (cs : List Nat) (a : HomeAction) : (s.await line d k cs a).mem = s.mem := by
  unfold State.await
  simp
@[simp] theorem merge_mem (s : State) (line : Nat) (d : DirEntry) (overlap : Bool) : (s.merge line d overlap).mem = s.mem := by
  unfold State.merge
  simp
@[simp] theorem grant_mem (s : State) (k : MsgKind) (c line : Nat) (mask : BitVec 128) (flag : Bool) (cls : CacheClass) : (s.grant k c line mask flag cls).mem = s.mem := by
  unfold State.grant
  simp
@[simp] theorem grantM_mem (s : State) (line : Nat) (d : DirEntry) (k : MsgKind) (c : Nat) : (s.grantM line d k c).mem = s.mem := by
  unfold State.grantM
  simp
@[simp] theorem serveOwn_mem (s : State) (m : Msg) (d : DirEntry) (core line : Nat) (counted : Bool) : (s.serveOwn m d core line counted).mem = s.mem := by
  unfold State.serveOwn
  dsimp only
  repeat' split
  all_goals simp
@[simp] theorem pushLine_mem (s : State) (m : Msg) (d : DirEntry) : (s.pushLine m d).mem = s.mem := by
  unfold State.pushLine
  split <;> rfl
@[simp] theorem fillL2_mem (s : State) (f : MscFill) : (s.fillL2 f).mem = s.mem := rfl
@[simp] theorem evictL2_mem (s : State) (line : Nat) : (s.evictL2 line).mem = s.mem := by
  unfold State.evictL2
  dsimp only
  repeat' split
  all_goals simp
@[simp] theorem recallLine_mem (s : State) (line : Nat) : (s.recallLine line).mem = s.mem := by
  unfold State.recallLine
  dsimp only
  repeat' split
  all_goals simp
@[simp] theorem installS_mem (s : State) (core line : Nat) (x : L1Line) (vers : List (BitVec 40)) : (s.installS core line x vers).mem = s.mem := by
  unfold State.installS
  split <;> simp
@[simp] theorem acknowledge_mem (s : State) (core line : Nat) (mask : BitVec 128) : (s.acknowledge core line mask).mem = s.mem := by
  unfold State.acknowledge
  simp
@[simp] theorem l1RecallP_mem (s : State) (core line : Nat) : (s.l1RecallP core line).mem = s.mem := by
  unfold State.l1RecallP
  split
  · split <;> simp
  · rfl
@[simp] theorem homeAct_mem (s : State) (line : Nat) (d : DirEntry) (a : HomeAction) (returned : BitVec 128) : (s.homeAct line d a returned).mem = s.mem := by
  unfold State.homeAct
  dsimp only
  repeat' split
  all_goals simp
@[simp] theorem refusePush_mem (s : State) (core line : Nat) : (s.refusePush core line).mem = s.mem := by
  unfold State.refusePush
  split
  · split <;> simp
  · rfl
@[simp] theorem satisfyGets_mem (s : State) (core line : Nat) : (s.satisfyGets core line).mem = s.mem := rfl
@[simp] theorem fabricEvent_mem (s : State) (die event peer : Nat) : (s.fabricEvent die event peer).mem = s.mem := by
  unfold State.fabricEvent
  dsimp only
  repeat' split
  all_goals simp
@[simp] theorem spoilLine_mem (s : State) (line : Nat) : (s.spoilLine line).mem = s.mem := by
  unfold State.spoilLine
  dsimp only
  rw [foldl_mem fun s e => by split <;> simp]
  exact evictL2_mem ..
@[simp] theorem invalidate_mem (s : State) (ctx : Nat) (range : Option (Nat × Nat)) : (s.invalidate ctx range).mem = s.mem := rfl
@[simp] theorem flushPushes_mem (s : State) : (s.flushPushes).mem = s.mem := foldl_mem (fun _ _ => by split <;> simp) _ s
@[simp] theorem keepColl_mem (s : State) (id : Nat) (w : Work) : (s.keepColl id w).mem = s.mem := by
  unfold State.keepColl
  split <;> rfl
@[simp] theorem issueHeld_mem (s : State) (id k : Nat) : (s.issueHeld id k).mem = s.mem := by
  unfold State.issueHeld
  split
  · rfl
  · refine foldl_mem (fun s n => ?_) _ s
    dsimp only
    split
    · split
      · rfl
      · split <;> rfl
    · split <;> rfl
    · split <;> rfl
@[simp] theorem releaseAll_mem (s : State) (id c : Nat) : (s.releaseAll id c).mem = s.mem := by
  unfold State.releaseAll
  dsimp only
  rw [foldl_mem fun s n => by split <;> simp]
  refine foldl_mem (fun s e => ?_) _ s
  split
  · split <;> simp
  · rfl
@[simp] theorem haltWave_mem (s : State) (id : Nat) : (s.haltWave id).mem = s.mem := rfl
@[simp] theorem cancelWave_mem (s : State) (id : Nat) : (s.cancelWave id).mem = s.mem := by
  unfold State.cancelWave
  dsimp only
  repeat' split
  all_goals simp
@[simp] theorem endMeeting_mem (s : State) (id : Nat) : (s.endMeeting id).mem = s.mem := by
  unfold State.endMeeting
  dsimp only
  repeat' split
  all_goals simp
@[simp] theorem sealBins_mem (s : State) (id core : Nat) : (s.sealBins id core).mem = s.mem := by
  unfold State.sealBins
  dsimp only
  repeat' split
  all_goals simp
@[simp] theorem startAll_mem (id core fuel : Nat) (s : State) : (State.startAll id core fuel s).mem = s.mem := by
  induction fuel generalizing s with
  | zero => rfl
  | succ fuel ih =>
    unfold State.startAll
    dsimp only
    split
    · exact (ih _).trans (by simp)
    · simp
@[simp] theorem spawnAll_mem (s : State) (id : Nat) (stops : Bool) : (s.spawnAll id stops).mem = s.mem := foldl_mem (fun _ _ => by split <;> simp) _ s
@[simp] theorem noteWave_mem (s : State) (id : Nat) (ns : List Nat) : (s.noteWave id ns).mem = s.mem := by
  unfold State.noteWave
  split <;> rfl
@[simp] theorem rescale_mem (s : State) (core old new : Nat) : (s.rescale core old new).mem = s.mem := rfl
@[simp] theorem setIsland_mem (s : State) (i f : Nat) : (s.setIsland i f).mem = s.mem := by
  unfold State.setIsland
  simp
@[simp] theorem answer_mem (s : State) (code tag status : Nat) (payload : List Byte) : (s.answer code tag status payload).mem = s.mem := rfl
@[simp] theorem pruneCode_mem (s : State) : (s.pruneCode).mem = s.mem := rfl
@[simp] theorem setRegion_mem (s : State) (i : Nat) (r : CodeRegion) : (s.setRegion i r).mem = s.mem := rfl
@[simp] theorem answerRetry_mem (s : State) (n : Nat) (r : FaultReport) : (s.answerRetry n r).mem = s.mem := rfl
@[simp] theorem putPeer_mem (s : State) (p : Nat) (x : Peer) : (s.putPeer p x).mem = s.mem := rfl
@[simp] theorem purgeFabric_mem (s : State) : (s.purgeFabric).mem = s.mem := rfl
@[simp] theorem reply_mem (s : State) (r : RdmaReply) : (s.reply r).mem = s.mem := rfl
@[simp] theorem dropAnswers_mem (s : State) (qp : Nat) : (s.dropAnswers qp).mem = s.mem := rfl
@[simp] theorem remoteTouch_mem (s : State) (pa n : Nat) : (s.remoteTouch pa n).mem = s.mem := foldl_mem (fun _ _ => by simp) _ s
@[simp] theorem mapPeers_mem (s : State) (f : Peer → Peer) : (s.mapPeers f).mem = s.mem := rfl
@[simp] theorem takeAck_mem (s : State) (h : KltHeader) : (s.takeAck h).mem = s.mem := rfl
@[simp] theorem sendControl_mem (s : State) (peer path : Nat) (nak : Bool) : (s.sendControl peer path nak).mem = s.mem := rfl
@[simp] theorem respond_mem (s : State) (h : KltHeader) (line : Nat) (data : List Byte) (bad : Bool) : (s.respond h line data bad).mem = s.mem := rfl
@[simp] theorem wakeRemote_mem (s : State) (k : Nat) : (s.wakeRemote k).mem = s.mem := by
  unfold State.wakeRemote
  split
  · split <;> simp
  · rfl
@[simp] theorem resend_mem (s : State) (peer path : Nat) : (s.resend peer path).mem = s.mem := by
  unfold State.resend
  dsimp only
  repeat' split
  all_goals simp
@[simp] theorem noteCopy_mem (s : State) (q n moved : Nat) (status : Option Nat) : (s.noteCopy q n moved status).mem = s.mem := rfl
@[simp] theorem restartRegion_mem (s : State) (k : Nat) (w : Warp) : (s.restartRegion k w).mem = s.mem := by
  unfold State.restartRegion
  split <;> rfl
@[simp] theorem noteIssue_mem (s : State) (k : Nat) (w : Warp) (lane : Bool) : (s.noteIssue k w lane).mem = s.mem := rfl
@[simp] theorem advance_mem (s : State) : (s.advance).mem = s.mem := rfl
@[simp] theorem haltColl_mem (s : State) (id : Nat) (a : Stop) : (s.haltColl id a).mem = s.mem := by
  unfold State.haltColl
  split
  · split <;> rfl
  · split <;> simp
  · rfl
@[simp] theorem arriveRequest_mem (s : State) (m : Msg) : (s.arriveRequest m).mem = s.mem := by
  unfold State.arriveRequest
  split <;> rfl

end Sys2Proof.Machine
end

section
/-! SUPPORT. Memory in its canonical form, as `simp` uses it: `State.Wf` unfolds to a fact about memory, which the `_mem` lemmas rewrite. -/

namespace Sys2Proof.Machine

/-- Memory is in its canonical form: `State.Inv`, open to `simp`. -/
@[simp] abbrev State.Wf (s : State) : Prop := Memory.wf s.mem = true

section
variable {s : State}

theorem State.Inv.toWf (h : s.Inv) : s.Wf := h
theorem State.Wf.toInv (h : s.Wf) : s.Inv := h

@[simp] theorem putBytes_memory_wf {m : Tab Byte} (h : Memory.wf m = true) (a : Nat) (bs : List Byte) : Memory.wf (putBytes m a bs) = true := putBytes_wf h
@[simp] theorem writeBytes_wf (h : s.Wf) (a : Nat) (bs : List Byte) : (s.writeBytes a bs).Wf := writeBytes_inv h
@[simp] theorem setFlag_wf (h : s.Wf) (ctx va : Nat) : (s.setFlag ctx va).Wf := setFlag_inv h
@[simp] theorem setFlags_wf (h : s.Wf) (ctx va n : Nat) : (s.setFlags ctx va n).Wf := setFlags_inv h
@[simp] theorem putPiece_wf (h : s.Wf) (p : Phys) (tag va : Nat) (bs : List Byte) (bad : Bool) (c : CacheClass) (na : Bool) :
    (s.putPiece p tag va bs bad c na).Wf := putPiece_inv h
@[simp] theorem signal_wf (h : s.Wf) (source : Option (Nat × Nat)) (ctx : Nat) (va : Option Nat) (code kind add : Nat) (r : Option (Nat × List Byte)) :
    (s.signal source ctx va code kind add r).Wf := signal_inv h
@[simp] theorem runSignal_wf (h : s.Wf) (fuel : Nat) (g : Signal) : (State.runSignal fuel s g).Wf := runSignal_inv h
@[simp] theorem fireEvent_wf (h : s.Wf) (source : Option (Nat × Nat)) (ctx va code kind add : Nat) : (s.fireEvent source ctx va code kind add).Wf :=
  fireEvent_inv h
@[simp] theorem cancelChildren_wf (h : s.Wf) (a : Nat) : (s.cancelChildren a).Wf := cancelChildren_inv h
@[simp] theorem endLaunch_wf (h : s.Wf) (id : Nat) (st : LaunchStatus) (r : Option FaultRecord) : (s.endLaunch id st r).Wf := endLaunch_inv h
@[simp] theorem abortLaunch_wf (h : s.Wf) (w : Warp) (cause : Nat) (nested lane noHandler : Bool) (trapc taddr : DWord) (tlanes : Mask) :
    (s.abortLaunch w cause nested lane noHandler trapc taddr tlanes).Wf := abortLaunch_inv h
@[simp] theorem putPieces_wf (h : s.Wf) (ps : List (Nat × Nat)) (bs : List Byte) : (s.putPieces ps bs).Wf := putPieces_inv h
@[simp] theorem entryFault_wf (h : s.Wf) (k : Nat) (env : Env) (w : Warp) (x : XKind) (va : Nat) : (s.entryFault k env w x va).Wf := entryFault_inv h
@[simp] theorem takeTrap_wf (h : s.Wf) (k : Nat) (w : Warp) (cause : Nat) (addr : DWord) (lanes : Mask) (lane : Bool) :
    (s.takeTrap k w cause addr lanes lane).Wf := takeTrap_inv h
@[simp] theorem enterParked_wf (h : s.Wf) (k : Nat) (w : Warp) : (s.enterParked k w).Wf := enterParked_inv h
@[simp] theorem settle_wf (h : s.Wf) (k : Nat) (w : Warp) : (s.settle k w).Wf := settle_inv h
@[simp] theorem raise_wf (h : s.Wf) (k : Nat) (w : Warp) (len cause : Nat) (addr : DWord) (lanes : Mask) : (s.raise k w len cause addr lanes).Wf := raise_inv h
@[simp] theorem halt_wf (h : s.Wf) (k : Nat) (w : Warp) (len : Nat) (e : Stop) : (s.halt k w len e).Wf := halt_inv h
@[simp] theorem performStores_wf (h : s.Wf) (core line : Nat) (x : L1Line) : (s.performStores core line x).Wf := performStores_inv h
@[simp] theorem coreStore_wf (h : s.Wf) (now : Bool) (core w ctx va : Nat) (p : Phys) (bs : List Byte) (cls : CacheClass) (na : Bool) :
    (s.coreStore now core w ctx va p bs cls na).Wf := coreStore_inv h

/-! ### Commits, pushes and the control processors' writes -/

@[simp] theorem makePushes_wf (h : s.Wf) (ms : List (Msg × List (Nat × Nat))) (w : Warp) : (makePushes ms s w).1.Wf := by
  unfold makePushes
  simp [h]
@[simp] theorem pushLines_wf (h : s.Wf) (env : Env) (ms : List (Msg × List (Nat × Nat))) (refused : Nat) (w : Warp) : (pushLines env ms refused s w).1.Wf := by
  unfold pushLines
  split <;> simp [h]
@[simp] theorem addOp_wf (h : s.Wf) (env : Env) (o : EngineOp) (w : Warp) : (addOp env o s w).1.Wf := by
  unfold addOp
  dsimp only
  repeat' split
  all_goals simp [h]
@[simp] theorem stayWith_wf (h : s.Wf) (k : Nat) (w : Warp) : (stayWith s k w).1.Wf := by
  unfold stayWith
  simp [h]
@[simp] theorem endCommit_wf (h : s.Wf) (k : Nat) (w : Warp) (c : Commit) : (s.endCommit k w c).Wf := by
  unfold State.endCommit
  dsimp only
  repeat' split
  all_goals simp [h]
@[simp] theorem put64_wf (h : s.Wf) (pa v : Nat) : (s.put64 pa v).Wf := by
  unfold State.put64
  simp [h]
@[simp] theorem countCommits_wf (h : s.Wf) (pa n : Nat) : (s.countCommits pa n).Wf := by
  unfold State.countCommits
  simp [h]
@[simp] theorem closeCommit_wf (h : s.Wf) (k : Nat) (w : Warp) (c : Commit) : (s.closeCommit k w c).Wf := by
  unfold State.closeCommit
  dsimp only
  repeat' split
  all_goals simp [h]
@[simp] theorem beginPhase2_wf (h : s.Wf) (k : Nat) (w : Warp) (c0 : Commit) : (s.beginPhase2 k w c0).Wf := by
  unfold State.beginPhase2
  dsimp only
  repeat' split
  all_goals simp [h]
@[simp] theorem beginCommit_wf (h : s.Wf) (k : Nat) (w : Warp) (c : Commit) : (s.beginCommit k w c).Wf := by
  unfold State.beginCommit
  split <;> simp [h]
@[simp] theorem beginValidation_wf (h : s.Wf) (k : Nat) (w : Warp) (c : Commit) : (s.beginValidation k w c).Wf := by
  unfold State.beginValidation
  dsimp only
  repeat' split
  all_goals simp [h]
@[simp] theorem recount_wf (h : s.Wf) (k : Nat) (w : Warp) (c : Commit) : (s.recount k w c).Wf := by
  unfold State.recount
  dsimp only
  repeat' split
  all_goals simp [h]
@[simp] theorem claim_wf (h : s.Wf) (pa n : Nat) : (s.claim pa n).Wf := by
  unfold State.claim
  dsimp only
  repeat' split
  all_goals simp [h]
@[simp] theorem controlWrite_wf (h : s.Wf) (pa : Nat) (bs : List Byte) : (s.controlWrite pa bs).Wf := by
  unfold State.controlWrite
  split <;> simp [h]
@[simp] theorem mirror_wf (h : s.Wf) (pa : Nat) (old new : List Byte) : (s.mirror pa old new).Wf := by
  unfold State.mirror
  split <;> simp [h]

@[simp] theorem putStream_wf (h : s.Wf) (q : Nat) (x : Queue) : (s.putStream q x).Wf := by
  unfold State.putStream
  exact mirror_wf (mirror_wf (mirror_wf (s := { s with queues := tabSet s.queues q x }) h ..) ..) ..

end

end Sys2Proof.Machine
end

section
/-! SUPPORT. The effects of instructions keep memory in its canonical form, whatever launch and whatever meeting they issue in. -/

namespace Sys2Proof.Machine

/-- What a computation ends with has memory in its canonical form. -/
abbrev YieldsWf {α : Type} (c : Except Stop (State × α)) : Prop := Yields (fun r => r.1.Wf) c

theorem State.Keeps.wf {s t : State} (h : s.Keeps t) (hs : s.Wf) : t.Wf := by
  rw [State.Wf, h.mem]
  exact hs

theorem YieldsKept.wf {α : Type} {s : State} {c : Except Stop (State × α)} (h : YieldsKept s c) (hs : s.Wf) : YieldsWf c := h.imp fun _ hr => hr.wf hs

theorem YieldsWf.map {α β : Type} {c : Except Stop (State × α)} {g : State × α → State × β} (h : YieldsWf c) (hg : ∀ r, (g r).1 = r.1) : YieldsWf (c.map g) :=
  Yields.map (h.imp fun r hr => (hg r).symm ▸ hr)

section
variable {s : State} (h : s.Wf)
include h

/-! ### Lanes and their stores -/

omit h in
theorem memLanes_yieldsWf {f : LaneAccess} {w : Warp} (hf : ∀ l s w, s.Wf → YieldsWf (f l s w)) (h : s.Wf) (ls : List Nat) : YieldsWf (memLanes f ls s w) :=
  yields_memLanes ls (fun l _ u hu => hf l u.1 u.2 hu) (s, w) h

theorem targetAccess_yieldsWf {r : Except Stop Target} {l : Nat} {w : Warp} {priv : List (Nat × Nat) → Except Stop (State × Warp)}
    {global : Nat → Phys → Except Stop (State × Warp)} (hp : ∀ ps, YieldsWf (priv ps)) (hg : ∀ va p, YieldsWf (global va p)) :
    YieldsWf (targetAccess r l s w priv global) := by
  unfold targetAccess
  split
  · exact yields_error
  · exact yields_ok h
  · exact yields_ok h
  · exact hp _
  · exact yields_ok h
  · exact hg _ _

theorem laneStore_yieldsWf (k l : Nat) (env : Env) (i : Instr) (va : Nat) (p : Phys) (bs : List Byte) (c : CacheClass) (na : Bool) (w : Warp) :
    YieldsWf (laneStore s k l env i va p bs c na w) := by
  unfold laneStore
  dsimp only
  split
  · split
    · split
      · exact yields_ok (by simp [h])
      · exact yields_error
    · exact yields_stopIf (yields_stopIf (yields_ok (by simp [h])))
  · split
    · refine yields_stopIf ?_
      split
      · exact yields_error
      · next hl => exact yields_ok (by simp [(lockSector_keeps hl).wf h])
    · split
      · exact yields_ok (by simp [h])
      · exact yields_ok h

theorem vst_yieldsWf (d b o : Nat) (c : CacheClass) (na reuse : Bool) (k : Nat) (env : Env) (w : Warp) : YieldsWf (vst d b o c na reuse s k env w) :=
  yields_memChecks (memLanes_yieldsWf (fun _ _ _ hs => targetAccess_yieldsWf hs (fun _ => yields_ok (by simp [hs])) fun _ _ => laneStore_yieldsWf hs ..) h _)

theorem vspl_yieldsWf (d i k : Nat) (env : Env) (w : Warp) : YieldsWf (vspl d i s k env w) := by
  refine yields_rangeCheck (memLanes_yieldsWf (fun l s w hs => ?_) h _)
  unfold vsplLane spillLane
  split
  · exact yields_ok hs
  · split
    · exact yields_ok hs
    · split
      · exact yields_ok (by simp [hs])
      · exact yields_ok hs
      · exact yields_ok hs
      · exact yields_error

/-! ### Gondola stores -/

theorem gondolaStore_yieldsWf (k l : Nat) (env : Env) (i : Instr) (va : Nat) (p : Phys) (bs : List Byte) (c : CacheClass) (ts : List Nat) (w : Warp) :
    YieldsWf (gondolaStore s k l env i va p bs c ts w) := by
  unfold gondolaStore
  split
  · exact laneStore_yieldsWf h ..
  · refine yields_stopIf (yields_stopIf (yields_ok ?_))
    dsimp only
    repeat' split
    all_goals simp [h]

theorem gst_yieldsWf (d b o : Nat) (c : CacheClass) (reuse : Bool) (k : Nat) (env : Env) (w : Warp) : YieldsWf (gst d b o c reuse s k env w) := by
  refine yields_typeCheck (yields_stopIf (yields_rangeCheck ?_))
  refine Yields.map (Yields.imp (P := fun r => r.1.Wf) (memLanes_yieldsWf (fun _ _ _ hs => ?_) h _) fun r hr => pushLines_wf hr ..)
  exact targetAccess_yieldsWf hs (fun _ => yields_ok hs) fun _ _ => gondolaStore_yieldsWf hs ..

/-! ### Atomics and scalar stores -/

theorem homeAtomic_yieldsWf (now : Bool) (core k tag : Nat) (i : Instr) (va : Nat) (p : Phys) (n id : Nat) (remote : RemoteOp) (f : Nat → Option Nat) :
    YieldsWf (s.homeAtomic now core k tag i va p n id remote f) := by
  unfold State.homeAtomic
  split
  · exact yields_stopIf (yields_ok (by simp [h]))
  · refine yields_stopIf (yields_stopIf (yields_stopIf (yields_ite yields_error (yields_ok ?_))))
    dsimp only
    split <;> simp [h]

theorem vatom_yieldsWf (d b o : Nat) (op : AtomicOp) (reuse : Bool) (k : Nat) (env : Env) (w : Warp) : YieldsWf (vatom d b o op reuse s k env w) := by
  refine yields_typeCheck (yields_stopIf (yields_rangeCheck (yields_atMeeting (YieldsWf.map (memLanes_yieldsWf (fun l s w hs => ?_) h _) fun _ => rfl))))
  refine targetAccess_yieldsWf hs (fun _ => yields_readPriv fun _ => yields_ok ?_) fun _ _ => YieldsWf.map (homeAtomic_yieldsWf hs ..) fun _ => rfl
  dsimp only
  split <;> simp [hs]

theorem satom_yieldsWf (op : AtomicOp) (scope : Scope) (order : MemOrder) (d a b k : Nat) (env : Env) (w : Warp) :
    YieldsWf (satom op scope order d a b s k env w) := by
  refine yields_stopIf (yields_atMeeting ?_)
  split
  · refine yields_released (Yields.map (Yields.imp (homeAtomic_yieldsWf h ..) fun r hr => ?_))
    dsimp only
    split <;> simp [hr]
  · exact yields_error
  · exact yields_error

theorem storePriv_yieldsWf (env : Env) (a : DWord) (bs : List Byte) (ls : List Nat) : Yields State.Wf (storePriv env a bs ls s) := by
  induction ls generalizing s with
  | nil => exact yields_ok h
  | cons l r ih =>
    unfold storePriv
    split
    · exact ih (putPieces_wf h _ _)
    · exact yields_error
    · exact yields_error

theorem storeGlobal_yieldsWf (k : Nat) (env : Env) (w : Warp) (i : Instr) (va : Nat) (p : Phys) (bs : List Byte) :
    YieldsWf (storeGlobal s k env w i va p bs) := by
  unfold storeGlobal
  split
  · dsimp only
    split
    · exact yields_ok (by simp [h])
    · exact yields_error
  · exact yields_stopIf (yields_stopIf (yields_ok (by simp [h])))

theorem sst_yieldsWf (f : StoreSize) (d a : Nat) (i : Int) (k : Nat) (env : Env) (w : Warp) : YieldsWf (sst f d a i s k env w) := by
  refine yields_stopIf ?_
  split
  · exact Yields.map (storePriv_yieldsWf h ..)
  · exact storeGlobal_yieldsWf h ..
  · exact yields_error
  · exact yields_error

/-! ### Commits, spawned threads and child grids -/

theorem txend_yieldsWf (k : Nat) (env : Env) (w : Warp) : YieldsWf (txend s k env w) :=
  commitChecks_yields fun _ _ => yields_released (yields_ok (by simp [h]))

theorem txendo_yieldsWf (k : Nat) (env : Env) (w : Warp) : YieldsWf (txendo s k env w) := by
  refine commitChecks_yields fun _ _ => yields_released (readTurn_yields h fun next => ?_)
  exact yields_ite (yields_ok h) (yields_ok (by simp [h]))

theorem spawno_yieldsWf (x y sb k : Nat) (env : Env) (w : Warp) : YieldsWf (spawno x y sb s k env w) := by
  refine yields_stopIf (yields_spawnChecks fun e => yields_stopIf ?_)
  split
  · next va p _ =>
    have hstart : ∀ (b : Bool) (ts : List SpawnThread) (f : State → State), (∀ t, t.Wf → (f t).Wf) →
        YieldsWf (if b then .ok (f s, w) else (spawnThreads (.spawno x y sb) e (some (slalomRef p)) ts s w).map fun s1 => (f s1, w.taint)) :=
      fun b ts f hf => yields_ite (yields_ok (hf s h)) (Yields.map (spawnThreads_keeps.imp fun t ht => hf t (ht.wf h)))
    dsimp only
    split
    · exact yields_stopIf (hstart _ _ (fun s1 => s1.noteWrite (s.launchKey w) va) fun t ht => by simp [ht])
    · refine yields_stopIf (yields_stopIf (yields_stopIf (yields_ite yields_error ?_)))
      exact hstart _ _ (fun s1 => (s1.claim p.pa _).noteWrite (s.launchKey w) va) fun t ht => by simp [ht]
  · exact yields_error
  · exact yields_error

theorem launchGrids_yieldsWf (x k : Nat) (env : Env) (w : Warp) : YieldsWf (launchGrids x s k env w) :=
  (launchGrids_memory x k env w).imp fun r hr => by simp [hr.1, h]

end

end Sys2Proof.Machine
end

section
/-! SUPPORT. The issue of an instruction, and its issue anew, keep memory in its canonical form. -/

namespace Sys2Proof.Machine

/-- The next state of an outcome, where it has one, has memory in its canonical form. -/
structure NextWf (o : Host.Outcome State Fault Refusal) : Prop where
  of_next : ∀ t, o = .next t → t.Wf

theorem nextWf_next {s : State} (h : s.Wf) : NextWf (.next s) := by
  refine ⟨fun t ht => ?_⟩
  cases ht
  exact h

theorem nextWf_fault {e : Fault} : NextWf (.fault e) := ⟨fun _ ht => by cases ht⟩
theorem nextWf_refused {e : Refusal} : NextWf (.refused e) := ⟨fun _ ht => by cases ht⟩

/-- An effect that keeps memory in its canonical form. -/
structure KeepsWf (f : State → Nat → Env → Warp → Effect) : Prop where
  yields : ∀ s k env w, s.Wf → YieldsWf (f s k env w)

theorem onward_keepsWf {f : State → Nat → Env → Warp → Except Stop (State × Warp)} (hf : ∀ s k env w, s.Wf → YieldsWf (f s k env w)) :
    KeepsWf (onward f) := ⟨fun s k env w hs => YieldsWf.map (hf s k env w hs) fun _ => rfl⟩

section
variable {s : State} {f : State → Nat → Env → Warp → Effect}

theorem issueBy_wf (hf : KeepsWf f) (h : s.Wf) (k : Nat) (w : Warp) (len : Nat) : (s.issueBy k w len f).Wf :=
  issueBy_inv h fun env w _ _ _ e => (hf.yields s k env w h).of_ok _ e

theorem issueOf_nextWf (hf : KeepsWf f) (h : s.Wf) (len : Nat) : NextWf (s.issueOf len f) :=
  ⟨fun _ ht => issueOf_inv h (fun k env w _ _ _ e => (hf.yields s k env w h).of_ok _ e) ht⟩

theorem issueParked_nextWf (hf : KeepsWf f) (h : s.Wf) (len : Nat) : NextWf (s.issueParked len f) := by
  unfold State.issueParked
  split
  · exact nextWf_fault
  · split
    · exact nextWf_fault
    · exact nextWf_next (issueBy_wf hf h ..)

theorem issue_nextWf (h : s.Wf) (g : Env → Warp → Except Stop Warp) : NextWf (s.issue g) := ⟨fun _ ht => issue_inv h ht⟩
theorem issueControl_nextWf (h : s.Wf) (len : Nat) (g : Env → Warp → Except Stop (Warp × Next)) : NextWf (s.issueControl len g) :=
  ⟨fun _ ht => issueControl_inv h ht⟩
theorem issueMem_nextWf {g : State → Nat → Env → Warp → Except Stop (State × Warp)} (h : s.Wf) (hg : ∀ k env w, YieldsWf (g s k env w)) :
    NextWf (s.issueMem g) := ⟨fun _ ht => issueMem_inv h (fun k env w _ _ e => (hg k env w).of_ok _ e) ht⟩

end

/-- What an instruction does where it is issued anew. -/
theorem redo_keepsWf (i : Instr) : KeepsWf (redo i) := by
  cases i
  case vld => exact onward_keepsWf fun _ _ _ _ h => (vld_kept ..).wf h
  case vst => exact onward_keepsWf fun _ _ _ _ h => vst_yieldsWf h ..
  case vlds => exact onward_keepsWf fun _ _ _ _ h => (vlds_kept ..).wf h
  case vsts => exact onward_keepsWf fun _ _ _ _ h => (vsts_kept ..).wf h
  case gst => exact onward_keepsWf fun _ _ _ _ h => gst_yieldsWf h ..
  case vatom => exact onward_keepsWf fun _ _ _ _ h => vatom_yieldsWf h ..
  case vatoms => exact onward_keepsWf fun _ _ _ _ h => (vatoms_kept ..).wf h
  case sld => exact onward_keepsWf fun _ _ _ _ h => (sld_kept ..).wf h
  case sst => exact onward_keepsWf fun _ _ _ _ h => sst_yieldsWf h ..
  case satom => exact onward_keepsWf fun _ _ _ _ h => satom_yieldsWf h ..
  case meldLdt => exact onward_keepsWf fun _ _ _ _ h => (meldLdt_kept ..).wf h
  case tcopy => exact onward_keepsWf fun _ _ _ _ h => (tcopy_kept ..).wf h
  case tcopyY => exact ⟨fun _ _ _ _ h => (tcopyY_kept ..).wf h⟩
  case afence | exit => exact onward_keepsWf fun s _ _ _ h => Yields.map ⟨fun _ _ => h⟩
  case await => exact ⟨fun _ k _ _ h => (await_kept _ _ k ..).wf h⟩
  case binit => exact onward_keepsWf fun _ _ _ _ h => (binit_kept ..).wf h
  case barv => exact onward_keepsWf fun _ _ _ _ h => (barv_kept ..).wf h
  case bwait => exact ⟨fun _ k _ _ h => (bwait_kept _ _ _ k ..).wf h⟩
  case mma | mmag => exact onward_keepsWf fun _ _ _ _ h => (matrixMultiply_kept ..).wf h
  case accz => exact onward_keepsWf fun _ _ _ _ h => (accz_kept ..).wf h
  case accld => exact onward_keepsWf fun _ _ _ _ h => (accld_kept ..).wf h
  case accst => exact onward_keepsWf fun _ _ _ _ h => (accst_kept ..).wf h
  case accstR => exact onward_keepsWf fun _ _ _ _ h => (accstR_kept ..).wf h
  case rstat => exact onward_keepsWf fun _ _ _ _ h => (rstat_kept ..).wf h
  case spawn => exact onward_keepsWf fun _ _ _ _ h => (spawn_kept ..).wf h
  case spawno => exact onward_keepsWf fun _ _ _ _ h => spawno_yieldsWf h ..
  case launch => exact onward_keepsWf fun _ _ _ _ h => launchGrids_yieldsWf h ..
  case qappend => exact ⟨fun _ _ _ _ h => (qappend_kept ..).wf h⟩
  case qappendTry => exact onward_keepsWf fun _ _ _ _ h => (qappendTry_kept ..).wf h
  case qpop => exact ⟨fun _ k _ _ h => (qpop_kept _ _ _ _ k ..).wf h⟩
  case qdetOwn => exact ⟨fun _ k env _ h => (qdetOwn_kept _ k env _).wf h⟩
  case coll => exact onward_keepsWf fun _ _ _ _ h => (coll_kept ..).wf h
  case bar => exact ⟨fun _ _ _ _ h => (bar_kept ..).wf h⟩
  case cbar => exact ⟨fun _ _ _ _ h => (cbar_kept ..).wf h⟩
  case fence => exact onward_keepsWf fun _ _ _ _ h => (fence_kept ..).wf h
  case rfence => exact onward_keepsWf fun _ _ _ _ h => (rfence_kept ..).wf h
  case sleep => exact onward_keepsWf fun _ _ _ _ h => (sleep_kept ..).wf h
  all_goals exact ⟨fun _ _ _ _ h => yields_ok h⟩

/-- An effect keeps memory in its canonical form at a meeting as anywhere. -/
theorem atMeeting_keepsWf {f : State → Nat → Env → Warp → Effect} (hf : KeepsWf f) : KeepsWf fun s k env w => f s k { env with meeting := true } w :=
  ⟨fun s k env w h => hf.yields s k { env with meeting := true } w h⟩

section
variable {s : State} (h : s.Wf)
include h

@[simp] theorem retry_wf (k : Nat) (p : Instr → Bool) : (s.retry k p).Wf := by
  unfold State.retry
  split
  · exact h
  · split
    · next i _ =>
      split
      · exact issueBy_wf (redo_keepsWf i) (by simp [h]) ..
      · exact h
    · exact h

@[simp] theorem redoAt_wf (k : Nat) (w : Warp) (i : Instr) : (s.redoAt k w i).Wf := by
  have hissue := issueBy_wf (atMeeting_keepsWf (redo_keepsWf i)) (s := s.translated w i) (by simp [h]) k (s.awaits w i) 4
  unfold State.redoAt
  dsimp only
  split
  · simp [hissue]
  · exact hissue

@[simp] theorem tryPending_wf (k : Nat) : (s.tryPending k).Wf := by
  unfold State.tryPending
  split
  · exact h
  · split
    · simp [h]
    · simp [h]
    · simp [h]
    · simp [h]
    · simp [h]
    · split <;> simp [h]
    · split <;> simp [h]
    · split <;> simp [h]
    · exact h

end

end Sys2Proof.Machine
end

section
/-! SUPPORT. Engine operations and collectives keep memory in its canonical form. -/

namespace Sys2Proof.Machine

section
variable {s : State} (h : s.Wf)
include h

/-! ### Reads and writes of an engine -/

theorem fetchGlobal_yieldsWf {touch : State → Nat → State} (ht : ∀ t line, (touch t line).mem = t.mem) (who : Requester) (ctx a n tag : Nat) (p : Option Phys) :
    YieldsWf (s.fetchGlobal who ctx a n tag touch p) := by
  unfold State.fetchGlobal
  split
  · exact yields_ok h
  · split
    · split
      · exact yields_ok h
      · split
        · next hr => exact yields_ok ((remoteLoad_keeps hr).wf h)
        · exact yields_error
    · exact yields_stopIf (yields_ok (by simp [ht, h]))

theorem engineRead_yieldsWf {touch : State → Nat → State} (ht : ∀ t line, (touch t line).mem = t.mem) (id : Nat) (env : Env) (o : EngineOp) (shm : Bool)
    (a n tag : Nat) : YieldsWf (engineRead s id env o shm a n tag touch) := by
  have hfill : (if shm then s else s.fillAccess env.core env.ctx a .read).Wf := by split <;> simp [h]
  unfold engineRead
  dsimp only
  generalize (if shm then s else s.fillAccess env.core env.ctx a .read) = t at hfill ⊢
  split
  · exact yields_ok hfill
  · split
    · exact yields_error
    · exact fetchGlobal_yieldsWf hfill ht ..

@[simp] theorem putWrite_wf (who : Requester) (team : Nat) (x : HeldWrite) : (s.putWrite who team x).Wf := by
  unfold State.putWrite
  dsimp only
  repeat' split
  all_goals simp [h]

@[simp] theorem emitWrite_wf (id : Nat) (env : Env) (o : EngineOp) (w : Work) (x : HeldWrite) : (emitWrite s id env o w x).1.Wf := by
  unfold emitWrite
  split <;> simp [h]

theorem engineWrite_yieldsWf (id : Nat) (env : Env) (o : EngineOp) (w : Work) (shm : Bool) (a : Nat) (bs : List Byte) (bad : Bool) (c : CacheClass) (na : Bool) :
    YieldsWf (engineWrite s id env o w shm a bs bad c na) := by
  have hfill : (if shm then s else s.fillAccess env.core env.ctx a .write).Wf := by split <;> simp [h]
  unfold engineWrite
  dsimp only
  generalize (if shm then s else s.fillAccess env.core env.ctx a .write) = t at hfill ⊢
  split
  · refine yields_ok ?_
    split <;> simp [hfill]
  · split
    · exact yields_error
    · exact yields_ok hfill
    · split
      · refine yields_ok ?_
        split <;> simp [hfill]
      · exact yields_stopIf (yields_ok (by simp [hfill]))

/-! ### The parts of an operation -/

theorem copyReads_yieldsWf (id : Nat) (env : Env) (o : EngineOp) (d : CopyDesc) (a : Nat) (xs : List (Nat × Nat)) (tag : Nat) :
    YieldsWf (copyReads id env o d a xs tag s) := by
  induction xs generalizing s tag with
  | nil => exact yields_ok h
  | cons x r ih =>
    have hread := engineRead_yieldsWf h (touch := d.touch) (CopyDesc_touch_mem · d ·) id env o d.fromShared (a + x.1) x.2 tag
    unfold copyReads
    split
    · exact yields_error
    · next hx => exact yields_ok (hread.of_ok _ hx)
    · next hx => exact yields_ok (hread.of_ok _ hx)
    · next hx => exact YieldsWf.map (ih (hread.of_ok _ hx) _) fun _ => rfl

theorem copyWrites_yieldsWf (id : Nat) (env : Env) (o : EngineOp) (d : CopyDesc) (b : Nat) (xs : List (Nat × List Byte × Bool)) (w : Work) :
    YieldsWf (copyWrites id env o d b xs s w) := by
  induction xs generalizing s w with
  | nil => exact yields_ok h
  | cons x r ih =>
    unfold copyWrites
    split
    · exact yields_error
    · next hx => exact ih ((engineWrite_yieldsWf h ..).of_ok _ hx) _

theorem copyElement_yieldsWf (id : Nat) (env : Env) (o : EngineOp) (d : CopyDesc) (u : Nat) (w : Work) : YieldsWf (copyElement id env o d u s w) := by
  unfold copyElement
  dsimp only
  split
  · exact yields_error
  · exact yields_error
  · split
    · exact yields_ok h
    · split
      · exact yields_error
      · next hx => exact yields_ok ((copyReads_yieldsWf h ..).of_ok _ hx)
      · next hx =>
        have h1 := (copyReads_yieldsWf h ..).of_ok _ hx
        exact yields_ite (yields_ok h1) (copyWrites_yieldsWf h1 ..)

theorem accldUnit_yieldsWf (id : Nat) (env : Env) (o : EngineOp) (shm : Bool) (a : Nat) (t : Tile) (u : Nat) (w : Work) :
    YieldsWf (accldUnit id env o shm a t u s w) := by
  have hread := engineRead_yieldsWf h (throughL2_mem · .normal false ·) id env o shm (imageAddr shm a u) 4 u
  unfold accldUnit
  split
  · exact yields_error
  · next hx => exact yields_ok (hread.of_ok _ hx)
  · next hx => exact yields_ok (hread.of_ok _ hx)
  · next hx => exact yields_ok (by simp [hread.of_ok _ hx])

theorem actldUnit_yieldsWf (id : Nat) (env : Env) (o : EngineOp) (shm : Bool) (a u : Nat) (w : Work) : YieldsWf (actldUnit id env o shm a u s w) := by
  have hread := engineRead_yieldsWf h (throughL2_mem · .normal false ·) id env o shm (if shm then a + 4 * u else (a + 4 * u) % 2 ^ 64) 4 u
  unfold actldUnit
  split
  · exact yields_error
  · next hx => exact yields_ok (hread.of_ok _ hx)
  · next hx => exact yields_ok (hread.of_ok _ hx)
  · next hx => exact yields_ok (hread.of_ok _ hx)

theorem accstUnit_yieldsWf (id : Nat) (env : Env) (o : EngineOp) (shm : Bool) (a : Nat) (t : Tile) (u : Nat) (w : Work) :
    YieldsWf (accstUnit id env o shm a t u s w) := by
  unfold accstUnit
  split
  · exact yields_ok h
  · exact engineWrite_yieldsWf h ..

theorem rowUnit_yieldsWf (o : EngineOp) (t : Tile) (row l : Nat) (f : List Word → List Word) (w : Work) : YieldsWf (rowUnit o t row l f s w) := by
  unfold rowUnit
  split
  · exact yields_ok h
  · exact yields_stopIf (yields_ok (by simp [h]))

theorem doUnit_yieldsWf (id : Nat) (env : Env) (o : EngineOp) (u : Nat) (w : Work) : YieldsWf (doUnit id env o u s w) := by
  unfold doUnit
  split
  · exact copyElement_yieldsWf h ..
  · refine yields_ok ?_
    split <;> simp [h]
  · exact yields_ok (by simp [h])
  · exact accldUnit_yieldsWf h ..
  · exact accstUnit_yieldsWf h ..
  · exact rowUnit_yieldsWf h ..
  · exact rowUnit_yieldsWf h ..
  · exact actldUnit_yieldsWf h ..
  · exact yields_ok h

theorem runUnits_wf (id : Nat) (env : Env) (o : EngineOp) (us : List Nat) (w : Work) : (runUnits id env o us s w).1.Wf := by
  induction us generalizing s w with
  | nil => exact h
  | cons u r ih =>
    unfold runUnits
    split
    · next hu => exact ih ((doUnit_yieldsWf h ..).of_ok _ hu) _
    · exact h

theorem runStages_wf (id : Nat) (env : Env) (o : EngineOp) (n : Nat) (w : Work) : (runStages id env o n s w).1.Wf := by
  induction n generalizing s w with
  | zero => exact h
  | succ n ih =>
    have hrun := runUnits_wf h id env o w.todo w
    unfold runStages
    split
    · next hx =>
      rw [hx] at hrun
      split
      · exact hrun
      · exact ih hrun _
    · exact hrun

theorem runOp_wf (id : Nat) (env : Env) (o : EngineOp) : (runOp id env o s).1.Wf := runStages_wf h ..

/-! ### Operations -/

@[simp] theorem haltOp_wf (id : Nat) (w : Warp) (e : Stop) : (s.haltOp id w e).Wf := by
  unfold State.haltOp
  split
  · split <;> simp [h]
  · split <;> simp [h]
  · simp [h]
  · exact h

@[simp] theorem performOp_wf (id : Nat) (o : EngineOp) : (s.performOp id o).Wf := by
  unfold State.performOp
  split
  · exact h
  · split
    · exact h
    · next env _ =>
      have hrun := runOp_wf h id env o
      split
      · next hx =>
        rw [hx] at hrun
        simpa using hrun
      · next hx =>
        rw [hx] at hrun
        simp [hrun]

@[simp] theorem completeOp_wf (act : Bool) (id : Nat) : (s.completeOp act id).Wf := by
  unfold State.completeOp
  split
  · exact h
  · split <;> simp [h]

@[simp] theorem stepOp_wf (id n : Nat) : (s.stepOp id n).Wf := by
  unfold State.stepOp
  split
  · exact h
  · split
    · exact h
    · split
      · exact h
      · split
        · exact h
        · dsimp only
          split
          · split <;> simp [h]
          · split
            · next hu => simp [(doUnit_yieldsWf h ..).of_ok _ hu]
            · simp [h]

@[simp] theorem meetOp_wf (id : Nat) (o : EngineOp) : (s.meetOp id o).Wf := by
  unfold State.meetOp
  split
  · exact h
  · split
    · exact h
    · dsimp only
      have hput : ∀ xs : List HeldWrite, (xs.foldl (fun s x => s.putWrite (.op id) o.team x) s).Wf := fun xs =>
        foldl_keeps (P := State.Wf) (fun _ _ ht => putWrite_wf ht ..) xs s h
      repeat' split
      all_goals simp [hput]

/-! ### Collectives -/

theorem writeCollElem_yieldsWf (id : Nat) (c : Collective) (i : Nat) (w : Work) : YieldsWf (writeCollElem id c i s w) := by
  unfold writeCollElem
  dsimp only
  split
  · exact yields_error
  · exact yields_ok (by simp [h])
  · split
    · exact yields_ok (by simp [h])
    · refine yields_stopIf (yields_ok ?_)
      split
      · simp [h]
      · split <;> simp [h]

theorem readCollElem_yieldsWf (id : Nat) (c : Collective) (i : Nat) (w : Work) : YieldsWf (readCollElem id c i s w) := by
  unfold readCollElem
  dsimp only
  split
  · exact yields_error
  · exact YieldsWf.map (fetchGlobal_yieldsWf (by simp [h]) (throughL2_mem · .normal false ·) ..) fun r => by split <;> rfl

theorem findCollElem_yieldsWf (c : Collective) (i : Nat) (w : Work) : YieldsWf (findCollElem c i s w) :=
  Yields.map ⟨fun _ _ => by simp [h]⟩

theorem doCollPart_yieldsWf (id : Nat) (c : Collective) (u : Nat) (w : Work) : YieldsWf (doCollPart id c u s w) :=
  yields_ite (writeCollElem_yieldsWf h ..) (yields_ite (readCollElem_yieldsWf h ..) (findCollElem_yieldsWf h ..))

omit h in
theorem nextCollStage_mem {t : State} {id : Nat} {c : Collective} (ht : s.nextCollStage id c = some t) : t.mem = s.mem := by
  unfold State.nextCollStage at ht
  dsimp only at ht
  repeat' split at ht
  all_goals cases ht
  all_goals simp

@[simp] theorem stepColl_wf (id n : Nat) : (s.stepColl id n).Wf := by
  unfold State.stepColl
  split
  · exact h
  · split
    · exact h
    · split
      · next ht => simp [nextCollStage_mem ht, h]
      · dsimp only
        split
        · next hu => simp [(doCollPart_yieldsWf h ..).of_ok _ hu]
        · simp [h]

@[simp] theorem meetColl_wf (id : Nat) (c : Collective) : (s.meetColl id c).Wf := by
  unfold State.meetColl
  dsimp only
  have hput : ∀ xs : List HeldWrite, (xs.foldl (fun s x => s.putWrite (.coll id) c.team x) s).Wf := fun xs =>
    foldl_keeps (P := State.Wf) (fun _ _ ht => putWrite_wf ht ..) xs s h
  repeat' split
  all_goals simp [hput]

end

end Sys2Proof.Machine
end

section
/-! SUPPORT. The front end, packets, launches, commits at their homes and meetings keep memory in its canonical form. -/

namespace Sys2Proof.Machine

section
variable {s : State} (h : s.Wf)

/-! ### The front end's reads -/

theorem rangeRead_mem {t : State} {ctx tag va n : Nat} {x : List Byte × Bool} (e : s.rangeRead ctx tag va n = .ok (t, x)) : t.mem = s.mem := by
  unfold State.rangeRead at e
  dsimp only at e
  split at e
  · cases e
  · cases e
    rw [dropTags_mem, foldl_mem fun s y => frontTouch_mem s ctx y, walkRange_mem]

include h

theorem frontRead_wf {t : State} {ctx tag va n : Nat} {x : List Byte × Bool} (e : s.frontRead ctx tag va n = .ok (t, x)) : t.Wf := by
  unfold State.frontRead at e
  dsimp only at e
  split at e
  · cases e
  · simp [rangeRead_mem e, h]

theorem frontFetch_wf {t : State} {ctx tag va n : Nat} {bs : List Byte} (e : s.frontFetch ctx tag va n = .ok (t, bs)) : t.Wf := by
  rw [State.frontFetch] at e
  split at e
  · cases e
  · cases e
  · next hr =>
    cases e
    exact frontRead_wf h hr

omit h in
/-- `frontFetch_wf` as a fact about the function. `launchReads_wf` takes it with the function itself opaque, since the kernel would otherwise
evaluate the reads of 64 and of 128 bytes in comparing the two. -/
theorem exists_frontFetch : ∃ fetch, fetch = State.frontFetch ∧
    ∀ {s t : State} {ctx tag va n : Nat} {bs : List Byte}, s.Wf → fetch s ctx tag va n = .ok (t, bs) → t.Wf :=
  ⟨_, rfl, fun h e => frontFetch_wf h e⟩

theorem launchReads_wf {t : State} {ctx tag : Nat} {p : List Byte} {x : List Byte × List Byte} (e : s.launchReads ctx tag p = .ok (t, x)) : t.Wf := by
  obtain ⟨fetch, hfetch, hwf⟩ := exists_frontFetch
  rw [State.launchReads, ← hfetch] at e
  split at e
  · cases e
  · next hd =>
    split at e
    · cases e
    · next ha =>
      cases e
      exact hwf (hwf h hd) ha

/-! ### Streams and the launches they begin -/

theorem packetRead_wf {t : State} {q : Nat} {p : List Byte} (e : s.packetRead q = .ok (t, p)) : t.Wf := by
  rw [State.packetRead] at e
  exact frontFetch_wf h e

@[simp] theorem loadHead_wf (q : Nat) : (s.loadHead q).Wf := by
  rw [State.loadHead]
  split
  · split <;> simp [h]
  · split
    · exact h
    · cases hread : s.packetRead q with
      | error => simp [h]
      | ok r =>
        dsimp only
        split
        · exact h
        · exact putStream_wf (packetRead_wf h hread) ..

@[simp] theorem leaveHead_wf (q : Nat) (flight : List InFlight) : (s.leaveHead q flight).Wf := by
  unfold State.leaveHead
  simp [h]
@[simp] theorem countDispatch_wf (id n : Nat) : (s.countDispatch id n).Wf := by
  unfold State.countDispatch
  dsimp only
  repeat' split
  all_goals simp [h]
@[simp] theorem dropPackets_wf (q : Nat) : (s.dropPackets q).Wf := by
  unfold State.dropPackets
  simp [h]

@[simp] theorem stopStream_wf (q : Nat) : (s.stopStream q).Wf := by
  have hend : ∀ es : List (Nat × Launch), (es.foldl (fun s e => s.endLaunch e.1 .cancelled none) (s.dropPackets q)).Wf := fun es =>
    foldl_keeps (P := State.Wf) (fun _ _ ht => endLaunch_wf ht ..) es _ (dropPackets_wf h q)
  exact hend _

@[simp] theorem uncontained_wf (dies : List Nat) (kind index : Nat) : (s.uncontained dies kind index).Wf := by
  have hstop : ∀ (qs : List Nat) (t : State), t.Wf → (qs.foldl State.stopStream t).Wf := fun qs =>
    foldl_keeps (P := State.Wf) (fun _ _ ht => stopStream_wf ht _) qs
  exact hstop _ (s.record ..) (by simp [h])

@[simp] theorem flitError_wf (die kind index failures : Nat) : (s.flitError die kind index failures).Wf := by
  unfold State.flitError
  split <;> simp [h]
@[simp] theorem beginLaunch_wf (source : Option (Nat × Nat)) (q ctx depth : Nat) (parent : Option Nat) (p : List Byte) (read : Option (List Byte × List Byte)) :
    (s.beginLaunch source q ctx depth parent p read).1.Wf := by
  unfold State.beginLaunch
  split <;> simp [h]

theorem startLaunch_wf {t : State} {source : Option (Nat × Nat)} {tag q ctx depth : Nat} {parent : Option Nat} {p : List Byte} {id : Option Nat}
    (e : s.startLaunch source tag q ctx depth parent p = .ok (t, id)) : t.Wf := by
  rw [State.startLaunch] at e
  cases hr : s.launchReads ctx tag p with
  | ok r =>
    rw [hr] at e
    have hb := beginLaunch_wf (launchReads_wf h hr) source q ctx depth parent p (some r.2)
    rw [Except.ok.inj e] at hb
    exact hb
  | error x =>
    rw [hr] at e
    cases x with
    | bad =>
      have hb := beginLaunch_wf h source q ctx depth parent p none
      rw [Except.ok.inj e] at hb
      exact hb
    | _ => cases e

@[simp] theorem startKernel_wf (q : Nat) (x : Head) : (s.startKernel q x).Wf := by
  rw [State.startKernel]
  generalize fetchTag 1 q = tag
  cases hl : s.startLaunch (s.headSource q) tag q (s.stream q).ctx 1 none x.packet with
  | error => simp [h]
  | ok r =>
    obtain ⟨s1, id⟩ := r
    cases id with
    | some => exact putStream_wf (startLaunch_wf h hl) ..
    | none => exact leaveHead_wf (startLaunch_wf h hl) ..

@[simp] theorem startChild_wf (c : Child) : (s.startChild c).Wf := by
  have hs : ({ s with children := s.children.erase c } : State).Wf := h
  rw [State.startChild]
  generalize ({ s with children := s.children.erase c } : State) = s0 at hs ⊢
  generalize fetchTag 2 c.queue = tag
  cases hl : s0.startLaunch none tag c.queue c.ctx c.depth (some c.parent) c.packet with
  | error => simp [h]
  | ok r => exact startLaunch_wf hs hl

/-! ### Packets -/

theorem setFlags_all_wf (ctx n : Nat) (es : List (Nat × Nat)) : (es.foldl (fun s e => s.setFlags ctx e.1 n) s).Wf :=
  foldl_keeps (P := State.Wf) (fun _ _ ht => setFlags_wf ht ..) es s h

@[simp] theorem startWait_wf (q : Nat) (x : Head) : (s.startWait q x).Wf := by
  have hflags := setFlags_all_wf h (s.stream q).ctx 8 (waitEvents x.packet)
  rw [State.startWait]
  generalize (waitEvents x.packet).foldl (fun s1 e => s1.setFlags (s.stream q).ctx e.1 8) s = s0 at hflags ⊢
  split
  · exact hflags
  · split
    · exact leaveHead_wf hflags ..
    · split
      · exact leaveHead_wf (by simp [hflags]) ..
      · exact putStream_wf hflags ..

@[simp] theorem startSignal_wf (q : Nat) (x : Head) : (s.startSignal q x).Wf := by
  rw [State.startSignal]
  exact leaveHead_wf (signal_wf h ..) ..

@[simp] theorem endHead_wf (q : Nat) (p : List Byte) (status : Nat) : (s.endHead q p status).Wf := by
  unfold State.endHead
  simp [h]
@[simp] theorem putContext_wf (n : Nat) (c : Context) : (s.putContext n c).Wf := by
  unfold State.putContext
  simp [h]
@[simp] theorem countPinned_wf (ctx : Nat) : (s.countPinned ctx).Wf := by
  unfold State.countPinned
  simp [h]
@[simp] theorem dropWindow_wf (wid : Nat) (w : Window) : (s.dropWindow wid w).Wf := by
  unfold State.dropWindow
  simp [h]

@[simp] theorem startWindowCreate_wf (q : Nat) (x : Head) : (s.startWindowCreate q x).Wf := by
  have hflags : (if fieldAt x.packet 0x10 8 ≤ 2 ^ 40 then s.setFlags (s.stream q).ctx (fieldAt x.packet 8 8) (fieldAt x.packet 0x10 8) else s).Wf := by
    split <;> simp [h]
  unfold State.startWindowCreate
  dsimp only
  split
  · simp [h]
  · generalize (if fieldAt x.packet 0x10 8 ≤ 2 ^ 40 then s.setFlags (s.stream q).ctx (fieldAt x.packet 8 8) (fieldAt x.packet 0x10 8) else s) = t at hflags ⊢
    split
    · exact hflags
    · split <;> simp [hflags]

@[simp] theorem startWindowDestroy_wf (q : Nat) (x : Head) : (s.startWindowDestroy q x).Wf := by
  unfold State.startWindowDestroy
  dsimp only
  split
  · split <;> simp [h]
  · simp [h]

@[simp] theorem startInvalidate_wf (q : Nat) (x : Head) : (s.startInvalidate q x).Wf := by
  unfold State.startInvalidate
  dsimp only
  split
  · simp [h]
  · split <;> simp [h]

@[simp] theorem startCopy_wf (q : Nat) (x : Head) : (s.startCopy q x).Wf := by
  unfold State.startCopy
  split <;> simp [h]

@[simp] theorem endWait_wf (q : Nat) (p : List Byte) : (s.endWait q p).Wf := by
  unfold State.endWait
  simp [h]
@[simp] theorem endWaits_wf (qs : List Nat) : (s.endWaits qs).Wf :=
  foldl_keeps (P := State.Wf) (fun _ _ hx => by split <;> simp [hx]) _ _ h
@[simp] theorem endEvent_wf (id : Nat) (x : Launch) : (s.endEvent id x).Wf := by
  unfold State.endEvent
  dsimp only
  repeat' split
  all_goals simp [h]
@[simp] theorem keepPages_wf (x : Launch) : (s.keepPages x).Wf := by
  unfold State.keepPages
  dsimp only
  repeat' split
  all_goals simp [h]
@[simp] theorem endFlight_wf (q : Nat) (p : InFlight → Bool) : (s.endFlight q p).Wf := by
  unfold State.endFlight
  simp [h]
@[simp] theorem endPacket_wf (q n : Nat) (p : List Byte) (status : Nat) (f : InFlight → Bool) : (s.endPacket q n p status f).Wf := by
  unfold State.endPacket
  simp [h]
@[simp] theorem endCopy_wf (q n : Nat) (p : List Byte) (moved status : Nat) : (s.endCopy q n p moved status).Wf := by
  unfold State.endCopy
  split <;> simp [h]

theorem copyWord_wf {t : State} {ctx tag src dst n : Nat} {c : CacheClass} {na : Bool} (e : s.copyWord ctx tag src dst n c na = .ok t) : t.Wf := by
  have hflags : (((((s.setFlags ctx src n).setFlags ctx dst n).walkRange ctx src n).walkRange ctx dst n)).Wf := by simp [h]
  unfold State.copyWord at e
  dsimp only at e
  generalize (((s.setFlags ctx src n).setFlags ctx dst n).walkRange ctx src n).walkRange ctx dst n = u at hflags e
  repeat' split at e
  all_goals cases e
  all_goals simp [hflags]

theorem copyRun_wf (ctx tag : Nat) (p : List Byte) (fuel moved : Nat) : (s.copyRun ctx tag p fuel moved).1.Wf := by
  induction fuel generalizing s moved with
  | zero => exact h
  | succ fuel ih =>
    unfold State.copyRun
    dsimp only
    split
    · exact h
    · split
      · exact h
      · next hw => exact ih (copyWord_wf h hw) _

@[simp] theorem runCopy_wf (q n : Nat) (p : List Byte) (moved pieces : Nat) : (s.runCopy q n p moved pieces).Wf := by
  have hrun := copyRun_wf h (s.stream q).ctx (copyTag q n) p pieces moved
  unfold State.runCopy
  split
  · next hx =>
    rw [hx] at hrun
    exact endCopy_wf hrun ..
  · next hx =>
    rw [hx] at hrun
    simp [hrun]
  · next hx =>
    rw [hx] at hrun
    split <;> simp [hrun]

@[simp] theorem moveCopy_wf (q : Nat) (pieces : Nat → Nat) : (s.moveCopy q pieces).Wf := by
  unfold State.moveCopy
  split <;> simp [h]
@[simp] theorem pollWait_wf (q : Nat) : (s.pollWait q).Wf := by
  unfold State.pollWait
  dsimp only
  repeat' split
  all_goals simp [h]
@[simp] theorem finishInvalidate_wf (q : Nat) : (s.finishInvalidate q).Wf := by
  unfold State.finishInvalidate
  split <;> simp [h]

/-! ### Commits at their homes -/

omit h in
theorem lockForCommit_mem {t : State} {k l x : Nat} (e : lockForCommit k l s x = some t) : t.mem = s.mem := by
  unfold lockForCommit at e
  split at e
  · cases e
    rfl
  · cases e

omit h in
theorem lockLane_mem (k : Nat) (w : Warp) (hm l : Nat) : (s.lockLane k w hm l).1.mem = s.mem := by
  have hlocks : ∀ (xs : List Nat) (o : Option State), (∀ t, o = some t → t.mem = s.mem) →
      ∀ t, xs.foldl (fun o x => o.bind fun s => lockForCommit k l s x) o = some t → t.mem = s.mem := fun xs =>
    foldl_keeps (P := fun o : Option State => ∀ t, o = some t → t.mem = s.mem) (fun o x ho t ht => by
      obtain ⟨u, hu, hx⟩ := Option.bind_eq_some_iff.mp ht
      exact (lockForCommit_mem hx).trans (ho u hu)) xs
  unfold State.lockLane
  split
  · rfl
  · split
    · rfl
    · split
      · rfl
      · next hl => exact hlocks _ (some s) (fun t ht => by rw [Option.some.inj ht]) _ hl

omit h in
theorem validLane_mem (k : Nat) (w : Warp) (hm l : Nat) : (s.validLane k w hm l).1.mem = s.mem := by
  unfold State.validLane
  split
  · rfl
  · split
    · rfl
    · exact foldl_mem (fun s e => callSector_mem ..) _ s

omit h in
theorem phase1_mem (k : Nat) (w : Warp) (hm : Nat) (locking : Bool) (xs : List CommitLane) : (s.phase1 k w hm locking xs).1.mem = s.mem := by
  induction xs generalizing s with
  | nil => rfl
  | cons x r ih =>
    have hone : ∀ o : State × Bool, o.1.mem = s.mem → (if o.2 then o.1 else o.1.unlockLane k x.lane).mem = s.mem := fun o ho => by
      split
      · exact ho
      · exact ho
    unfold State.phase1
    dsimp only
    split
    · refine ih.trans ?_
      split
      · exact hone _ (lockLane_mem ..)
      · exact hone _ (validLane_mem ..)
    · exact ih

@[simp] theorem commitEntry_wf (time die : Nat) (e : WriteEntry) : (s.commitEntry time die e).Wf := by
  have hruns : ∀ xs : List (Nat × List Byte), (xs.foldl (fun t x => t.writeBytes (e.sect * 32 + x.1) x.2) (s.callSector true e.sect e.wmask)).Wf := fun xs =>
    foldl_keeps (P := State.Wf) (fun _ _ ht => writeBytes_wf ht ..) xs _ (by simp [h])
  unfold State.commitEntry
  simp [hruns]

@[simp] theorem phase2Lane_wf (k : Nat) (w : Warp) (hm time l : Nat) : (s.phase2Lane k w hm time l).Wf := by
  have hentries : ∀ xs : List WriteEntry, (xs.foldl (fun s e => s.commitEntry time (dieOf w.core) e) s).Wf := fun xs =>
    foldl_keeps (P := State.Wf) (fun _ _ ht => commitEntry_wf ht ..) xs s h
  have hsectors : ∀ xs : List Nat, (xs.foldl (fun s x => (s.callSector true x 0).setVersion x time (dieOf w.core)) s).Wf := fun xs =>
    foldl_keeps (P := State.Wf) (fun _ _ ht => by simp [ht]) xs s h
  unfold State.phase2Lane
  split
  · exact h
  · dsimp only
    rw [State.Wf, foldl_mem fun s n => noteWrite_mem ..]
    split
    · exact hsectors _
    · exact hentries _

@[simp] theorem writeStores_wf (ws : List WaitingStore) : (s.writeStores ws).Wf :=
  foldl_keeps (P := State.Wf) (fun _ _ hx => by simp [hx]) _ _ h
@[simp] theorem receivePush_wf (m : Msg) (room : Bool) : (s.receivePush m room).1.Wf := by
  unfold State.receivePush
  dsimp only
  repeat' split
  all_goals simp [h]

@[simp] theorem retryStores_wf (core line : Nat) : (s.retryStores core line).Wf := by
  unfold State.retryStores
  split
  · split <;> simp [h]
  · exact h

/-! ### Meetings -/

@[simp] theorem performDone_wf (id : Nat) : (s.performDone id).Wf :=
  foldl_keeps (P := State.Wf) (fun _ _ hx => by split <;> simp [hx]) _ _ h
@[simp] theorem commitRun_wf (k team : Nat) (w : Warp) (r : Nat × List Byte) : (State.commitRun k team w s r).Wf := by
  unfold State.commitRun
  dsimp only
  repeat' split
  all_goals simp [h]

@[simp] theorem commitWarp_wf (id k : Nat) : (s.commitWarp id k).Wf := by
  unfold State.commitWarp
  split
  · exact h
  · next w _ =>
    split
    · simp [h]
    · have hruns : ∀ (xs : List (Nat × List Byte)) (t : State), t.Wf → (xs.foldl (State.commitRun k w.team w) t).Wf := fun xs =>
        foldl_keeps (P := State.Wf) (fun _ _ ht => commitRun_wf ht ..) xs
      have harrive : ∀ (c : Bool) (xs : List (Nat × Nat)) (t : State), t.Wf → (if c then xs.foldl (fun s a => s.arrive w.team a.1 a.2 0) t else t).Wf :=
        fun c xs t ht => by
          split
          · exact foldl_keeps (P := State.Wf) (fun _ _ hx => by simp [hx]) xs t ht
          · exact ht
      dsimp only
      rw [State.Wf, issueHeld_mem]
      exact harrive _ _ _ (makePushes_wf (hruns _ (s.putWarp k _) h) ..)

@[simp] theorem meetWarp_wf (id k : Nat) : (State.meetWarp id s k).Wf := by
  unfold State.meetWarp
  simp [h]

@[simp] theorem meet_wf (id c : Nat) : (s.meet id c).Wf := by
  have hcommit : ∀ ks : List Nat, (ks.foldl (fun s k => s.commitWarp id k) s).Wf := fun ks =>
    foldl_keeps (P := State.Wf) (fun _ _ ht => commitWarp_wf ht ..) ks s h
  have hmeet : ∀ ks : List Nat, (ks.foldl (State.meetWarp id) s).Wf := fun ks => foldl_keeps (P := State.Wf) (fun _ _ ht => meetWarp_wf ht ..) ks s h
  unfold State.meet
  dsimp only
  split
  · simp [hcommit]
  · simp [hmeet]

end

end Sys2Proof.Machine
end

section
/-! SUPPORT. Commands, peers, the host path and resets keep memory in its canonical form. -/

namespace Sys2Proof.Machine

/-! ### Streams and commands -/

/-- What comes of a command has memory in its canonical form. -/
inductive Verdict.Wf : Verdict → Prop where
  | done {s : State} {p : List Byte} (h : s.Wf) : Wf (.done s p)
  | later {s : State} (h : s.Wf) : Wf (.later s)
  | badPayload : Wf .badPayload
  | refused : Wf .refused

section
variable {s : State} (h : s.Wf)
include h

theorem onTurn_wf (q kind : Nat) {f : State → Nat → Head → State} (hf : ∀ t x, t.Wf → (f t q x).Wf) : (s.onTurn q kind f).Wf := by
  unfold State.onTurn
  split
  · exact hf _ _ (by simp [h])
  · exact h

@[simp] theorem loadHeads_wf (ctx : Nat) : (s.loadHeads ctx).Wf := foldl_keeps (P := State.Wf) (fun _ _ hx => loadHead_wf hx _) _ _ h

@[simp] theorem writeContext_wf (n gen : Nat) (e : List Byte) : (s.writeContext n gen e).Wf := by
  unfold State.writeContext
  simp [h]

theorem suspendContext_mem (ctx : Nat) : Memory.wf (s.suspendContext ctx).mem = true := by
  unfold State.suspendContext
  dsimp only
  rw [foldl_mem fun s t => preempt_mem s t]
  exact putContext_wf h ..

@[simp] theorem disableContext_wf (ctx gen : Nat) (e : List Byte) : (s.disableContext ctx gen e).Wf := by
  have hdrop : ∀ ws : List (Nat × Window), (ws.foldl (fun s w => s.dropWindow w.1 w.2) s).Wf := fun ws =>
    foldl_keeps (P := State.Wf) (fun _ _ ht => dropWindow_wf ht ..) ws s h
  unfold State.disableContext
  exact writeContext_wf (by simp [hdrop]) ..

@[simp] theorem finishCommand_wf : s.finishCommand.Wf := by
  unfold State.finishCommand
  dsimp only
  repeat' split
  all_goals simp [h]

theorem onCommand_nextWf (code tag : Nat) {f : State → Verdict} (hf : (f s).Wf) : NextWf (s.onCommand code tag f) := by
  unfold State.onCommand
  refine nextWf_next ?_
  split
  · exact h
  · split
    · simp [h]
    · split
      · simp [h]
      · split
        · next hv =>
          rw [hv] at hf
          cases hf with
          | done ht => simp [ht]
        · next hv =>
          rw [hv] at hf
          cases hf with
          | later ht => exact ht
        · simp [h]
        · simp [h]

@[simp] theorem answerAbort_wf (n : Nat) (r : FaultReport) : (s.answerAbort n r).Wf :=
  foldl_keeps (P := State.Wf) (fun _ _ hx => by split <;> simp [hx]) _ _ h

/-! ### Boot -/

@[simp] theorem clearTables_wf : s.clearTables.Wf := by
  have hwrites : ∀ (a : Nat → Nat) (ns : List Nat) (t : State), t.Wf → (ns.foldl (fun s c => s.writeBytes (a c) [3]) t).Wf := fun a =>
    foldl_keeps (P := State.Wf) fun _ _ ht => writeBytes_wf ht ..
  exact hwrites _ _ _ (hwrites _ _ _ h)

@[simp] theorem bootUp_wf : s.bootUp.Wf := by
  unfold State.bootUp
  dsimp only
  split
  · simp [h]
  · simp [h]

/-! ### Peers -/

@[simp] theorem endRequest_wf (p : Nat) (r : RemoteRequest) : (State.endRequest p s r).Wf := by
  unfold State.endRequest
  dsimp only
  repeat' split
  all_goals simp [h]

@[simp] theorem losePeer_wf (p : Nat) : (s.losePeer p).Wf := foldl_keeps (P := State.Wf) (fun _ _ hx => endRequest_wf hx ..) _ _ h

@[simp] theorem performRemote_wf (r : RemoteOp) : (s.performRemote r).1.Wf := by
  unfold State.performRemote
  dsimp only
  repeat' split
  all_goals simp [h]

theorem once_wf (x : KltHeader) {f : State → State} (hf : ∀ t, t.Wf → (f t).Wf) : (s.once x f).Wf := by
  unfold State.once
  dsimp only
  split
  · exact h
  · exact hf _ (by simp [h])

theorem onFrame_nextWf (x : KltHeader) (typ size : Nat) {f : State → State} (hf : ∀ t, t.Wf → (f t).Wf) : NextWf (s.onFrame x typ size f) := by
  unfold State.onFrame
  refine nextWf_next ?_
  dsimp only
  split
  · exact h
  · split
    · simp [hf _ (show State.Wf ((s.takeAck x).putPeer ..) by simp [h])]
    · simp [h]

end

/-! ### The host path -/

/-- What comes of a host request has memory in its canonical form. -/
inductive HostStep.Wf : HostStep → Prop where
  | done {s : State} (h : s.Wf) : Wf (.done s)
  | going {s : State} {r : RdmaRequest} (h : s.Wf) : Wf (.going s r)
  | blocked : Wf .blocked

section
variable {s : State} (h : s.Wf)
include h

theorem hostWait_wf (r : RdmaRequest) (e : FrontStop) : (s.hostWait r e).Wf := by
  unfold State.hostWait
  split
  · exact .blocked
  · exact .going (by simp [h])

/-- The place of the bytes is kept opaque: the kernel would otherwise evaluate it for the 8 bytes of the atomic. -/
theorem hostAtomic_wf (r : RdmaRequest) (op : AtomicOp) (data swap : Nat) : (s.hostAtomic r op data swap).Wf := by
  obtain ⟨place, hplace⟩ : ∃ place, place = State.frontPlace := ⟨_, rfl⟩
  obtain ⟨walk, hwalk, hwf⟩ : ∃ walk, walk = State.walkRange ∧ ∀ (ctx va n : Nat), (walk s ctx va n).Wf := ⟨_, rfl, fun _ _ _ => by simp [h]⟩
  rw [State.hostAtomic, ← hplace, ← hwalk]
  dsimp only
  split
  · exact .done (by simp [h])
  · split
    · exact .done (by simp [h])
    · exact .blocked
    · split
      · split
        · exact .done (by simp [hwf])
        · exact hostWait_wf (hwf ..) ..
      · exact .done (by simp [hwf])

theorem hostWrite_wf (r : RdmaRequest) (bs : List Byte) : (s.hostWrite r bs).Wf := by
  unfold State.hostWrite
  split
  · split
    · exact .blocked
    · exact .done (by simp [h])
  · split
    · exact .done (by simp [h])
    · exact .blocked
    · next hw =>
      have ht := rangeWrite_inv h hw
      split
      · exact .going ht
      · exact .done ht

theorem hostRead_wf (r : RdmaRequest) (n : Nat) : (s.hostRead r n).Wf := by
  unfold State.hostRead
  split
  · exact .done (by simp [h])
  · exact hostWait_wf h ..
  · next hr => exact .done (by simp [rangeRead_mem hr, h])

theorem hostRequest_wf (r : RdmaRequest) : (s.hostRequest r).Wf := by
  unfold State.hostRequest
  split
  · exact .done (by simp [h])
  · split
    · exact hostWrite_wf h ..
    · exact hostRead_wf h ..
    · exact hostAtomic_wf h ..
    · exact hostAtomic_wf h ..

@[simp] theorem hostArrive_wf (r : RdmaRequest) : (s.hostArrive r).Wf := by
  have hstep := hostRequest_wf h r
  unfold State.hostArrive
  split
  · exact h
  · split
    · exact h
    · split
      · next hr =>
        rw [hr] at hstep
        cases hstep with
        | done ht => exact ht
      · next hr =>
        rw [hr] at hstep
        cases hstep with
        | going ht => exact ht
      · exact h

theorem hostSteps_wf {t : State} (ht : t ∈ s.hostSteps) : t.Wf := by
  obtain ⟨r, -, hr⟩ := List.mem_filterMap.mp ht
  have hstep := hostRequest_wf h r
  split at hr
  · cases hr
  · split at hr
    · next hq =>
      rw [hq] at hstep
      cases hr
      cases hstep with
      | done hu => exact hu
    · next hq =>
      rw [hq] at hstep
      cases hr
      cases hstep with
      | going hu => exact hu
    · cases hr

/-! ### Waves of clusters -/

theorem placeRun_mem {id die : Nat} {x : Launch} {ns : List Nat} {t : State} (e : s.placeRun id x die ns = .ok t) : Memory.wf t.mem = true := by
  induction ns generalizing s with
  | nil =>
    cases e
    exact h
  | cons n r ih =>
    rw [State.placeRun] at e
    split at e
    · cases e
    · split at e
      · cases e
      · exact ih (by simp [h]) e

theorem placeRuns_mem {id die : Nat} {x : Launch} {runs : List (List Nat)} {t : State} (e : s.placeRuns id x die runs = .ok t) : Memory.wf t.mem = true := by
  induction runs generalizing s die with
  | nil =>
    cases e
    exact h
  | cons run r ih =>
    rw [State.placeRuns] at e
    split at e
    · next hrun => exact ih (placeRun_mem h hrun) e
    · cases e

theorem placeWave_wf {id : Nat} {x : Launch} {t : State} (e : s.placeWave id x = .ok t) : t.Wf := placeRuns_mem h e

end

end Sys2Proof.Machine
end

section
/-! SUPPORT. The events of the machine and the inputs from outside keep memory in its canonical form. -/

namespace Sys2Proof.Machine

section
variable {s : State} (h : s.Wf)
include h

/-! ### The shapes of events -/

theorem onWarp_nextWf (k : Nat) {f : Warp → State} (hf : ∀ w, (f w).Wf) : NextWf (s.onWarp k f) := by
  unfold State.onWarp
  refine nextWf_next ?_
  split
  · exact hf _
  · exact h

theorem serve_nextWf (k : MsgKind) (core line : Nat) {f : State → Msg → DirEntry → State} (hf : ∀ t m d, t.Wf → (f t m d).Wf) :
    NextWf (s.serve k core line f) := by
  unfold State.serve
  refine nextWf_next ?_
  split
  · exact h
  · split
    · exact h
    · split
      · exact hf _ _ _ h
      · split
        · simp [h]
        · exact hf _ _ _ (by simp [h])

theorem deliver_nextWf (k : MsgKind) (core line : Nat) {f : State → Msg → Option L1Line → State} (hf : ∀ t m o, t.Wf → (f t m o).Wf) :
    NextWf (s.deliver k core line f) := by
  unfold State.deliver
  refine nextWf_next ?_
  split
  · exact h
  · exact hf _ _ _ h

theorem recalled_nextWf (k : MsgKind) (core line : Nat) {f : State → State} (hf : ∀ t, t.Wf → (f t).Wf) : NextWf (s.recalled k core line f) := by
  unfold State.recalled
  split
  · exact nextWf_next h
  · exact deliver_nextWf h _ _ _ fun t _ _ ht => by simp [hf t ht]

/-! ### Events -/

theorem execAsyncOperationComplete_nextWf (op : Nat) : NextWf (execAsyncOperationComplete op s) := nextWf_next (by simp [h])

theorem execActldComplete_nextWf (op : Nat) : NextWf (execActldComplete op s) := nextWf_next (by simp [h])

theorem execAwaitReturn_nextWf (k : Nat) : NextWf (execAwaitReturn k s) := by
  refine onWarp_nextWf h _ fun w => ?_
  repeat' split
  all_goals simp [h]

theorem execBwaitReturn_nextWf (k : Nat) : NextWf (execBwaitReturn k s) := by
  refine onWarp_nextWf h _ fun w => ?_
  repeat' split
  all_goals simp [h]

theorem execTcopyYResume_nextWf (k : Nat) : NextWf (execTcopyYResume k s) := by
  refine onWarp_nextWf h _ fun w => ?_
  repeat' split
  all_goals simp [h]

theorem execCollComplete_nextWf (id : Nat) : NextWf (execCollComplete id s) := by
  unfold execCollComplete
  refine nextWf_next ?_
  repeat' split
  all_goals simp [h]

theorem execQappendGrant_nextWf (core q : Nat) : NextWf (execQappendGrant core q s) := by
  unfold execQappendGrant
  refine nextWf_next ?_
  split
  · split
    · split
      · exact issueBy_wf ⟨fun _ _ _ _ ht => (qappend_kept ..).wf ht⟩ h ..
      · exact h
    · exact h
  · exact h

theorem execQpopWake_nextWf (k : Nat) : NextWf (execQpopWake k s) := by
  unfold execQpopWake
  refine nextWf_next ?_
  split
  · split
    · split
      · exact issueBy_wf ⟨fun _ k _ _ ht => (qpop_kept _ _ _ _ k ..).wf ht⟩ h ..
      · exact h
    · exact h
  · exact h

theorem execQdetOwnFree_nextWf (k : Nat) : NextWf (execQdetOwnFree k s) := by
  unfold execQdetOwnFree
  refine nextWf_next ?_
  split
  · split
    · split
      · exact issueBy_wf ⟨fun _ k env _ ht => (qdetOwn_kept _ k env _).wf ht⟩ h ..
      · exact h
    · exact h
  · exact h

theorem execSpawnStallRetry_nextWf (k : Nat) : NextWf (execSpawnStallRetry k s) := nextWf_next (by simp [h])

theorem execAfenceStallRetry_nextWf (k : Nat) : NextWf (execAfenceStallRetry k s) := nextWf_next (by simp [h])

theorem execTcopyStallRetry_nextWf (k : Nat) : NextWf (execTcopyStallRetry k s) := nextWf_next (by simp [h])

theorem execMatrixQueueStallRetry_nextWf (k : Nat) : NextWf (execMatrixQueueStallRetry k s) := nextWf_next (by simp [h])

theorem execLaunchStallRetry_nextWf (k : Nat) : NextWf (execLaunchStallRetry k s) := nextWf_next (by simp [h])

theorem execCollStallRetry_nextWf (k : Nat) : NextWf (execCollStallRetry k s) := nextWf_next (by simp [h])

theorem execInstructionReplay_nextWf (k : Nat) : NextWf (execInstructionReplay k s) := by
  refine onWarp_nextWf h _ fun w => ?_
  repeat' split
  all_goals simp [h]

theorem execSleepExpiry_nextWf (k : Nat) : NextWf (execSleepExpiry k s) := by
  refine onWarp_nextWf h _ fun w => ?_
  repeat' split
  all_goals simp [h]

theorem execWarpPromotion_nextWf (k : Nat) : NextWf (execWarpPromotion k s) := by
  refine onWarp_nextWf h _ fun w => ?_
  repeat' split
  all_goals simp [h]

theorem execVariableLatencyResult_nextWf (k n : Nat) (m : Mask) : NextWf (execVariableLatencyResult k n m s) := onWarp_nextWf h _ fun w => by simp [h]

theorem execWarpRetire_nextWf (k : Nat) : NextWf (execWarpRetire k s) := by
  unfold execWarpRetire
  refine nextWf_next ?_
  repeat' split
  all_goals simp [h]

theorem execBarRelease_nextWf (t : Nat) : NextWf (execBarRelease t s) := by
  unfold execBarRelease
  dsimp only
  refine nextWf_next ?_
  repeat' split
  all_goals simp [h]

theorem execCbarRelease_nextWf (launch n : Nat) : NextWf (execCbarRelease launch n s) := by
  unfold execCbarRelease
  refine nextWf_next ?_
  repeat' split
  all_goals simp [h]

theorem execSpawnedWarpStart_nextWf (core : Nat) : NextWf (execSpawnedWarpStart core s) := by
  unfold execSpawnedWarpStart
  refine nextWf_next ?_
  repeat' split
  all_goals simp [h]

theorem execSpawnTimerExpiry_nextWf (core n : Nat) : NextWf (execSpawnTimerExpiry core n s) := by
  unfold execSpawnTimerExpiry
  refine nextWf_next ?_
  repeat' split
  all_goals simp [h]

theorem execPreemptionOverrun_nextWf (t : Nat) : NextWf (execPreemptionOverrun t s) := by
  unfold execPreemptionOverrun
  refine nextWf_next ?_
  repeat' split
  all_goals simp [h]

theorem execTeamSave_nextWf (t : Nat) : NextWf (execTeamSave t s) := by
  unfold execTeamSave
  refine nextWf_next ?_
  split
  · split
    · split
      · rw [State.Wf, foldl_mem fun s t => saveTeam_mem ..]
        exact h
      · exact h
    · exact h
  · exact h

theorem execGets_nextWf (core line : Nat) : NextWf (execGets core line s) := by
  refine serve_nextWf h _ _ _ fun t m d ht => ?_
  dsimp only
  repeat' split
  all_goals simp [ht]

theorem execGetm_nextWf (core line : Nat) : NextWf (execGetm core line s) := serve_nextWf h _ _ _ fun t m d ht => by simp [ht]

theorem execUpg_nextWf (core line : Nat) : NextWf (execUpg core line s) := by
  refine serve_nextWf h _ _ _ fun t m d ht => ?_
  dsimp only
  repeat' split
  all_goals simp [ht]

theorem execMaskExtension_nextWf (core line : Nat) (mask : BitVec 128) : NextWf (execMaskExtension core line mask s) := by
  refine serve_nextWf h _ _ _ fun t m d ht => ?_
  dsimp only
  repeat' split
  all_goals simp [ht]

theorem execPutm_nextWf (core line : Nat) : NextWf (execPutm core line s) := by
  refine serve_nextWf h _ _ _ fun t m d ht => ?_
  dsimp only
  repeat' split
  all_goals simp [ht]

theorem execPutmm_nextWf (core line : Nat) : NextWf (execPutmm core line s) := by
  refine serve_nextWf h _ _ _ fun t m d ht => ?_
  dsimp only
  repeat' split
  all_goals simp [ht]

theorem execHomeWrite_nextWf (line : Nat) (mask : BitVec 128) : NextWf (execHomeWrite line mask s) := by
  unfold execHomeWrite
  dsimp only
  refine nextWf_next ?_
  repeat' split
  all_goals simp [h]

theorem execProtocolAck_nextWf (core line : Nat) : NextWf (execProtocolAck core line s) := by
  unfold execProtocolAck
  dsimp only
  refine nextWf_next ?_
  repeat' split
  all_goals simp [h]

theorem execData_nextWf (core line : Nat) : NextWf (execData core line s) := by
  refine deliver_nextWf h _ _ _ fun t m o ht => ?_
  repeat' split
  all_goals simp [ht]

theorem execDatam_nextWf (core line : Nat) : NextWf (execDatam core line s) := by
  refine deliver_nextWf h _ _ _ fun t m o ht => ?_
  repeat' split
  all_goals simp [ht]

theorem execUpgack_nextWf (core line : Nat) : NextWf (execUpgack core line s) := by
  refine deliver_nextWf h _ _ _ fun t m o ht => ?_
  repeat' split
  all_goals simp [ht]

theorem execPutack_nextWf (core line : Nat) : NextWf (execPutack core line s) := by
  refine deliver_nextWf h _ _ _ fun t m o ht => ?_
  repeat' split
  all_goals simp [ht]

theorem execInv_nextWf (core line : Nat) : NextWf (execInv core line s) := deliver_nextWf h _ _ _ fun t m o ht => by simp [ht]

theorem execRecallS_nextWf (core line : Nat) : NextWf (execRecallS core line s) := recalled_nextWf h _ _ _ fun t ht => by simp [ht]

theorem execRecallI_nextWf (core line : Nat) : NextWf (execRecallI core line s) := recalled_nextWf h _ _ _ fun t ht => by simp [ht]

theorem execRecallP_nextWf (core line : Nat) : NextWf (execRecallP core line s) := recalled_nextWf h _ _ _ fun t ht => by simp [ht]

theorem execMergeRecall_nextWf (core line : Nat) : NextWf (execMergeRecall core line s) := recalled_nextWf h _ _ _ fun t ht => by simp [ht]

theorem execPush_nextWf (core line : Nat) (room : Bool) : NextWf (execPush core line room s) := by
  unfold execPush
  dsimp only
  refine nextWf_next ?_
  repeat' split
  all_goals simp [h]

theorem execPushAck_nextWf (core line : Nat) : NextWf (execPushAck core line s) := by
  unfold execPushAck
  dsimp only
  refine nextWf_next ?_
  repeat' split
  all_goals simp [h]

theorem execMscFill_nextWf (line : Nat) (victim : Option Nat) : NextWf (execMscFill line victim s) := by
  unfold execMscFill
  refine nextWf_next ?_
  repeat' split
  all_goals simp [h]

theorem execCoreSplitChange_nextWf (core : Nat) : NextWf (execCoreSplitChange core s) := by
  unfold execCoreSplitChange
  dsimp only
  refine nextWf_next ?_
  repeat' split
  all_goals simp [h]

theorem execPageWalk_nextWf (core ctx va : Nat) (k : AccessKind) : NextWf (execPageWalk core ctx va k s) := by
  unfold execPageWalk
  refine nextWf_next ?_
  repeat' split
  all_goals simp [h]

theorem execAccessFlagService_nextWf (ctx va : Nat) : NextWf (execAccessFlagService ctx va s) := by
  unfold execAccessFlagService
  refine nextWf_next ?_
  repeat' split
  all_goals simp [h]

theorem execGridComplete_nextWf (id : Nat) : NextWf (execGridComplete id s) := by
  have hend : ∀ (c : Bool) (q : Nat) (f : InFlight → Bool) (t : State), t.Wf → ((if c then t.leaveHead q [] else t).endFlight q f).Wf := fun c q f t ht =>
    endFlight_wf (by split <;> simp [ht]) ..
  unfold execGridComplete
  refine nextWf_next ?_
  split
  · exact h
  · split
    · exact h
    · exact hend _ _ _ _ (by simp [h])

theorem execAddressMonitorWrite_nextWf (m : Monitored) : NextWf (execAddressMonitorWrite m s) := by
  unfold execAddressMonitorWrite
  refine nextWf_next ?_
  repeat' split
  all_goals simp [h]

theorem execMonitorPoll_nextWf : NextWf (execMonitorPoll s) := nextWf_next (by simp [h])

theorem execCopyComplete_nextWf (q : Nat) : NextWf (execCopyComplete q s) := nextWf_next (by simp [h])

theorem execStreamHalt_nextWf (q : Nat) : NextWf (execStreamHalt q s) := by
  unfold execStreamHalt
  refine nextWf_next ?_
  repeat' split
  all_goals simp [h]

theorem execStreamAging_nextWf (q : Nat) : NextWf (execStreamAging q s) := by
  unfold execStreamAging
  refine nextWf_next ?_
  repeat' split
  all_goals simp [h]

theorem execKernel_nextWf (q : Nat) : NextWf (execKernel q s) := nextWf_next (onTurn_wf h _ _ fun _ _ ht => startKernel_wf ht ..)

theorem execWait_nextWf (q : Nat) : NextWf (execWait q s) := nextWf_next (onTurn_wf h _ _ fun _ _ ht => startWait_wf ht ..)

theorem execSignal_nextWf (q : Nat) : NextWf (execSignal q s) := nextWf_next (onTurn_wf h _ _ fun _ _ ht => startSignal_wf ht ..)

theorem execWindowCreate_nextWf (q : Nat) : NextWf (execWindowCreate q s) := by
  refine nextWf_next ?_
  split
  · exact h
  · exact onTurn_wf h _ _ fun _ _ ht => startWindowCreate_wf ht ..

theorem execWindowDestroy_nextWf (q : Nat) : NextWf (execWindowDestroy q s) := by
  refine nextWf_next ?_
  split
  · exact onTurn_wf h _ _ fun _ _ ht => startWindowDestroy_wf ht ..
  · exact h

theorem execInvalidate_nextWf (q : Nat) : NextWf (execInvalidate q s) := nextWf_next (onTurn_wf h _ _ fun _ _ ht => startInvalidate_wf ht ..)

theorem execCopy_nextWf (q : Nat) : NextWf (execCopy q s) := nextWf_next (onTurn_wf h _ _ fun _ _ ht => startCopy_wf ht ..)

theorem execChildGridStart_nextWf (q : Nat) : NextWf (execChildGridStart q s) := by
  unfold execChildGridStart
  refine nextWf_next ?_
  split
  · exact startChild_wf (by simp [h]) _
  · exact h

theorem execTeamDispatch_nextWf (q : Nat) : NextWf (execTeamDispatch q s) := by
  have hroom : ((s.roomLaunch q).elim s fun e => s.doRoom e.2 (s.roomWanted e.1 e.2)).Wf := by
    cases s.roomLaunch q with
    | none => exact h
    | some e => simp [h]
  unfold execTeamDispatch
  refine nextWf_next ?_
  split
  · split
    · split
      · exact countDispatch_wf (by simp [h]) ..
      · exact h
    · exact hroom
  · exact hroom

theorem execWaveStart_nextWf (id : Nat) : NextWf (execWaveStart id s) := by
  unfold execWaveStart
  refine nextWf_next ?_
  split
  · split
    · dsimp only
      split
      · next hw =>
        have ht := placeWave_wf (show State.Wf (s.served _) by simp [h]) hw
        split
        · exact countDispatch_wf (by simp [ht]) ..
        · rw [State.Wf, spawnAll_mem]
          exact countDispatch_wf (by simp [ht]) ..
      · exact h
    · exact h
  · exact h

theorem execQuantumEnd_nextWf (k : Nat) : NextWf (execQuantumEnd k s) := by
  refine onWarp_nextWf h _ fun w => ?_
  repeat' split
  all_goals simp [h]

theorem execMeeting_nextWf (id : Nat) : NextWf (execMeeting id s) := by
  unfold execMeeting
  refine nextWf_next ?_
  repeat' split
  all_goals simp [h]

theorem execManagementConnect_nextWf (host : Nat) : NextWf (execManagementConnect host s) := by
  unfold execManagementConnect
  refine nextWf_next ?_
  repeat' split
  all_goals simp [h]

theorem execManagementUnknownCode_nextWf (code tag : Nat) : NextWf (execManagementUnknownCode code tag s) := by
  unfold execManagementUnknownCode
  split
  · exact onCommand_nextWf h _ _ .badPayload
  · refine nextWf_next ?_
    split <;> simp [h]

theorem execCtxwrite_nextWf (tag ctx gen : Nat) (entry : List Byte) : NextWf (execCtxwrite tag ctx gen entry s) := by
  refine onCommand_nextWf h _ _ ?_
  dsimp only
  split
  · exact .badPayload
  · split
    · exact .done (writeContext_wf h ..)
    · split
      · exact .refused
      · exact .later (suspendContext_mem h _)

theorem execSuspend_nextWf (tag ctx : Nat) : NextWf (execSuspend tag ctx s) := by
  refine onCommand_nextWf h _ _ ?_
  dsimp only
  split
  · exact .badPayload
  · exact .later (suspendContext_mem h _)

theorem execResume_nextWf (tag ctx : Nat) : NextWf (execResume tag ctx s) := by
  refine onCommand_nextWf h _ _ ?_
  dsimp only
  split
  · exact .badPayload
  · exact .done (by simp [h])

theorem execQwrite_nextWf (tag q : Nat) (entry : List Byte) : NextWf (execQwrite tag q entry s) := by
  refine onCommand_nextWf h _ _ ?_
  dsimp only
  split
  · exact .badPayload
  · exact .done (by simp [h])

theorem execCodereg_nextWf (tag ctx base len : Nat) (units : List Byte) : NextWf (execCodereg tag ctx base len units s) := by
  refine onCommand_nextWf h _ _ ?_
  dsimp only
  split
  · exact .badPayload
  · split
    · exact .badPayload
    · split
      · exact .refused
      · split
        · exact .refused
        · exact .done (by simp [h])

theorem execCodedrop_nextWf (tag ctx base : Nat) : NextWf (execCodedrop tag ctx base s) := by
  refine onCommand_nextWf h _ _ ?_
  split
  · exact .badPayload
  · split
    · exact .done (by simp [h])
    · exact .refused

theorem execFaultanswerRetry_nextWf (tag report : Nat) : NextWf (execFaultanswerRetry tag report s) := by
  refine onCommand_nextWf h _ _ ?_
  split
  · exact .done (by simp [h])
  · exact .refused

theorem execFaultanswerAbort_nextWf (tag report : Nat) : NextWf (execFaultanswerAbort tag report s) := by
  refine onCommand_nextWf h _ _ ?_
  split
  · exact .done (by simp [h])
  · exact .refused

theorem execEvread_nextWf (tag die : Nat) : NextWf (execEvread tag die s) := by
  refine onCommand_nextWf h _ _ ?_
  split
  · exact .badPayload
  · exact .done h

theorem execEvrelease_nextWf (tag : Nat) : NextWf (execEvrelease tag s) := onCommand_nextWf h _ _ (.done h)

theorem execLogread_nextWf (tag team : Nat) : NextWf (execLogread tag team s) := by
  have hend : ∀ (c : Bool) (p : List Byte), (if c then Verdict.done s p else .refused).Wf := fun c p => by
    split
    · exact .done h
    · exact .refused
  refine onCommand_nextWf h _ _ ?_
  dsimp only
  split
  · exact .refused
  · split
    · exact .refused
    · exact hend _ _

theorem execReflash_nextWf (tag : Nat) (image : List Byte) : NextWf (execReflash tag image s) := by
  refine onCommand_nextWf h _ _ ?_
  split
  · exact .badPayload
  · exact .done h

theorem execAttest_nextWf (tag : Nat) (nonce : List Byte) : NextWf (execAttest tag nonce s) := by
  refine onCommand_nextWf h _ _ ?_
  dsimp only
  split
  · exact .badPayload
  · exact .done h

theorem execLinkUp_nextWf (port : Nat) : NextWf (execLinkUp port s) := by
  unfold execLinkUp
  refine nextWf_next ?_
  repeat' split
  all_goals simp [h]

theorem execLinkDown_nextWf (port : Nat) : NextWf (execLinkDown port s) := by
  unfold execLinkDown
  refine nextWf_next ?_
  repeat' split
  all_goals simp [h]

theorem execPeerLost_nextWf (p : Nat) (reset : Bool) : NextWf (execPeerLost p reset s) := by
  unfold execPeerLost
  refine nextWf_next ?_
  repeat' split
  all_goals simp [h]

theorem execKltRequest_nextWf (hd : KltHeader) (r : RemoteOp) : NextWf (execKltRequest hd r s) := by
  unfold execKltRequest
  split
  · exact nextWf_next h
  · refine onFrame_nextWf h _ _ _ fun t ht => once_wf ht _ fun u hu => ?_
    dsimp only
    split <;> simp [hu]

theorem execKltResponse_nextWf (hd : KltHeader) (data : List Byte) (bad : Bool) : NextWf (execKltResponse hd data bad s) := by
  refine onFrame_nextWf h _ _ _ fun t ht => ?_
  dsimp only
  repeat' split
  all_goals simp [ht]

theorem execKltAck_nextWf (hd : KltHeader) : NextWf (execKltAck hd s) := by
  unfold execKltAck
  refine nextWf_next ?_
  repeat' split
  all_goals simp [h]

theorem execKltNak_nextWf (hd : KltHeader) : NextWf (execKltNak hd s) := by
  unfold execKltNak
  refine nextWf_next ?_
  repeat' split
  all_goals simp [h]

theorem execKltProbe_nextWf (hd : KltHeader) : NextWf (execKltProbe hd s) := by
  unfold execKltProbe
  refine nextWf_next ?_
  repeat' split
  all_goals simp [h]

theorem execKltResendTimeout_nextWf (peer path : Nat) : NextWf (execKltResendTimeout peer path s) := by
  unfold execKltResendTimeout
  refine nextWf_next ?_
  repeat' split
  all_goals simp [h]

theorem execKltCollective_nextWf (hd : KltHeader) (c : CollFrame) : NextWf (execKltCollective hd c s) := by
  refine onFrame_nextWf h _ _ _ fun t ht => once_wf ht _ fun u hu => ?_
  split
  · exact hu
  · exact hu

theorem execRdmaWrite_nextWf (qp key va : Nat) (bytes : List Byte) : NextWf (execRdmaWrite qp key va bytes s) := nextWf_next (by simp [h])

theorem execRdmaRead_nextWf (qp key va size : Nat) : NextWf (execRdmaRead qp key va size s) := nextWf_next (by simp [h])

theorem execRdmaFetchAndAdd_nextWf (qp key va add : Nat) : NextWf (execRdmaFetchAndAdd qp key va add s) := nextWf_next (by simp [h])

theorem execRdmaCompareAndSwap_nextWf (qp key va cmp swap : Nat) : NextWf (execRdmaCompareAndSwap qp key va cmp swap s) := nextWf_next (by simp [h])

theorem execRdmaInvalidRequest_nextWf (qp : Nat) (x0 : RdmaKind) : NextWf (execRdmaInvalidRequest qp x0 s) := by
  unfold execRdmaInvalidRequest
  refine nextWf_next ?_
  repeat' split
  all_goals simp [h]

theorem execQueuePairBroken_nextWf (qp : Nat) : NextWf (execQueuePairBroken qp s) := by
  unfold execQueuePairBroken
  refine nextWf_next ?_
  repeat' split
  all_goals simp [h]

theorem execUncorrectableError_nextWf (site : ErrorSite) : NextWf (execUncorrectableError site s) := by
  unfold execUncorrectableError
  refine nextWf_next ?_
  repeat' split
  all_goals simp [h]

theorem execFlitCrcError_nextWf (die failures : Nat) : NextWf (execFlitCrcError die failures s) := nextWf_next (by simp [h])

theorem execUcieReplay_nextWf (die other : Nat) (completed : Bool) : NextWf (execUcieReplay die other completed s) := by
  unfold execUcieReplay
  refine nextWf_next ?_
  repeat' split
  all_goals simp [h]

theorem execCrossbarParityError_nextWf (cluster failures : Nat) : NextWf (execCrossbarParityError cluster failures s) := nextWf_next (by simp [h])

theorem execFirmwareHalt_nextWf (x0 : Nat) : NextWf (execFirmwareHalt x0 s) := nextWf_next (by simp [h])

theorem execPowerMeasurement_nextWf (r : PowerReading) : NextWf (execPowerMeasurement r s) := by
  unfold execPowerMeasurement
  dsimp only
  refine nextWf_next ?_
  repeat' split
  all_goals simp [h]

theorem execPowerUp_nextWf : NextWf (execPowerUp s) := by
  unfold execPowerUp
  refine nextWf_next ?_
  repeat' split
  all_goals simp [h]

theorem execWarmReset_nextWf : NextWf (execWarmReset s) := by
  unfold execWarmReset
  refine nextWf_next ?_
  split
  · exact h
  · dsimp only
    split
    · exact clearTables_wf reset_inv.toWf
    · exact reset_inv.toWf

omit h in
theorem execColdReset_nextWf : NextWf (execColdReset s) := nextWf_next reset_inv.toWf

theorem execCommitPhase1_nextWf (k hd : Nat) : NextWf (execCommitPhase1 k hd s) := by
  refine onWarp_nextWf h _ fun w => ?_
  split
  · split
    · split
      · simp [h]
      · next c _ _ _ _ =>
        have hphase : State.Wf (s.phase1 k w hd (c.phase == 0) c.lanes).1 := by
          rw [State.Wf, phase1_mem]
          exact h
        dsimp only
        repeat' split
        all_goals simp [hphase]
    · exact h
  · exact h

theorem execCommitPhase2_nextWf (k hd : Nat) : NextWf (execCommitPhase2 k hd s) := by
  have hlanes : ∀ (w : Warp) (time : Nat) (ls : List Nat), (ls.foldl (fun s l => s.phase2Lane k w hd time l) s).Wf := fun w time ls =>
    foldl_keeps (P := State.Wf) (fun _ _ ht => phase2Lane_wf ht ..) ls s h
  refine onWarp_nextWf h _ fun w => ?_
  dsimp only
  repeat' split
  all_goals simp [h, hlanes]

theorem execTxendoTurn_nextWf (k : Nat) : NextWf (execTxendoTurn k s) := by
  refine onWarp_nextWf h _ fun w => ?_
  split
  · dsimp only
    split
    · exact h
    · exact issueBy_wf ⟨fun _ _ _ _ ht => txendo_yieldsWf ht ..⟩ h ..
  · exact h

theorem execTxTimeout_nextWf (k l : Nat) : NextWf (execTxTimeout k l s) := by
  refine onWarp_nextWf h _ fun w => ?_
  repeat' split
  all_goals simp [h]

theorem execBackoffExpiry_nextWf (k : Nat) : NextWf (execBackoffExpiry k s) := by
  refine onWarp_nextWf h _ fun w => ?_
  repeat' split
  all_goals simp [h]

theorem execIrrevocabilityTokenGrant_nextWf : NextWf (execIrrevocabilityTokenGrant s) := by
  unfold execIrrevocabilityTokenGrant
  dsimp only
  refine nextWf_next ?_
  repeat' split
  all_goals simp [h]

theorem execCodemod_nextWf (tag ctx base : Nat) (pages : List (Nat × List Byte)) (units : Option (List Byte)) :
    NextWf (execCodemod tag ctx base pages units s) := by
  have hend : ∀ (c : Bool) (i : Nat) (r : CodeRegion), (if c then Verdict.refused else .done ((s.pruneCode.setRegion i r).pruneCode) []).Wf := fun c i r => by
    split
    · exact .refused
    · exact .done (by simp [h])
  refine onCommand_nextWf h _ _ ?_
  dsimp only
  split
  · exact .badPayload
  · split
    · exact .badPayload
    · exact .refused
    · split
      · exact .refused
      · split
        · exact .badPayload
        · exact hend _ _ _

theorem execDomain_nextWf (tag id : Nat) (members : BitVec 64) (macs : List (Nat × Nat)) (priorities : Nat × Nat) :
    NextWf (execDomain tag id members macs priorities s) := by
  have hlose : ∀ ps : List Nat, (ps.foldl State.losePeer s).Wf := fun ps => foldl_keeps (P := State.Wf) (fun _ _ ht => losePeer_wf ht _) ps s h
  refine onCommand_nextWf h _ _ ?_
  dsimp only
  split
  · exact .badPayload
  · exact .done (by simp [hlose])

end

end Sys2Proof.Machine
end

section
/-! SUPPORT. Every instruction and every event keeps memory in its canonical form. -/

namespace Sys2Proof.Machine

section
variable {s : State} (h : s.Wf)
include h

theorem execRep_nextWf (n : Nat) (sd sa sb : Bool) (stride : Nat) (body : Instr) : NextWf (execRep n sd sa sb stride body s) := by
  unfold execRep
  split
  · exact nextWf_fault
  · split
    · exact nextWf_fault
    · refine nextWf_next ?_
      split
      · exact issueBy_wf ⟨fun _ _ _ _ ht => Yields.map ⟨fun _ _ => ht⟩⟩ h ..
      · exact h

theorem exec_encoded_nextWf {i : Instr} (henc : i.isEncoded = true) : NextWf (exec i s) := by
  cases i
  case vadd | vsub | vmul | vmad | vmin | vmax | vand | vor | vxor | vshl | vshr | vsra | vmulh | vdot | vcmp | vcvt | vaddi | vmuli | vandi | vori
      | vshi | vcmpi | vmovi | vrdx | vwrx | vsel | vbfe | vbfi | vshfl | salu | salui | slui | sauipc | ssrRead | ssrWrite | spadj | meldOff | afence
      | txabort | txstat | gset | mode | modeScalar | vnot | vabs | vneg | vclz | vpopc | vrcp | vrsq | vexp2 | vlog2 | vsin | vcos | vact | vmov
      | vmovSpecial | vredadd | vredmin | vredmax | vredand | vredor | vredxor | vscan | vvoteany | vvoteall | vballot | vmatch | vpack | vunpk | vrand
      | pand | por | pxor | pnot | pmov | ppack | punpk | ptos | pset | vlane | nop | exit | trap | bkpt => exact issue_nextWf h _
  case br | jmp | call | calli | callv | jmpi | ret | split | switch | eret => exact issueControl_nextWf h ..
  case rep => exact execRep_nextWf h ..
  case sld => exact issueMem_nextWf h fun _ _ _ => (sld_kept ..).wf h
  case meldLdt => exact issueMem_nextWf h fun _ _ _ => (meldLdt_kept ..).wf h
  case yield => exact issueMem_nextWf h fun _ _ _ => (yield_kept ..).wf h
  case sleep => exact issueMem_nextWf h fun _ _ _ => (sleep_kept ..).wf h
  case fence => exact issueMem_nextWf h fun _ _ _ => (fence_kept ..).wf h
  case rfence => exact issueMem_nextWf h fun _ _ _ => (rfence_kept ..).wf h
  case pref => exact issueMem_nextWf h fun _ _ _ => (pref_kept ..).wf h
  case vld => exact issueMem_nextWf h fun _ _ _ => (vld_kept ..).wf h
  case vlds => exact issueMem_nextWf h fun _ _ _ => (vlds_kept ..).wf h
  case vsts => exact issueMem_nextWf h fun _ _ _ => (vsts_kept ..).wf h
  case gst => exact issueMem_nextWf h fun _ _ _ => gst_yieldsWf h ..
  case vatoms => exact issueMem_nextWf h fun _ _ _ => (vatoms_kept ..).wf h
  case vfil => exact issueMem_nextWf h fun _ _ _ => (vfil_kept ..).wf h
  case binit => exact issueMem_nextWf h fun _ _ _ => (binit_kept ..).wf h
  case barv => exact issueMem_nextWf h fun _ _ _ => (barv_kept ..).wf h
  case tcopy => exact issueMem_nextWf h fun _ _ _ => (tcopy_kept ..).wf h
  case mma | mmag => exact issueMem_nextWf h fun _ _ _ => (matrixMultiply_kept ..).wf h
  case accz => exact issueMem_nextWf h fun _ _ _ => (accz_kept ..).wf h
  case accld => exact issueMem_nextWf h fun _ _ _ => (accld_kept ..).wf h
  case accst => exact issueMem_nextWf h fun _ _ _ => (accst_kept ..).wf h
  case accstR => exact issueMem_nextWf h fun _ _ _ => (accstR_kept ..).wf h
  case rstat => exact issueMem_nextWf h fun _ _ _ => (rstat_kept ..).wf h
  case actld => exact issueMem_nextWf h fun _ _ _ => (actld_kept ..).wf h
  case coll => exact issueMem_nextWf h fun _ _ _ => (coll_kept ..).wf h
  case qappendTry => exact issueMem_nextWf h fun _ _ _ => (qappendTry_kept ..).wf h
  case qatt => exact issueMem_nextWf h fun _ _ _ => (qatt_kept ..).wf h
  case qattOwn => exact issueMem_nextWf h fun _ _ _ => (qattOwn_kept ..).wf h
  case qdet => exact issueMem_nextWf h fun _ _ _ => (qdet_kept ..).wf h
  case spawn => exact issueMem_nextWf h fun _ _ _ => (spawn_kept ..).wf h
  case tcopyY => exact issueOf_nextWf ⟨fun _ _ _ _ ht => (tcopyY_kept ..).wf ht⟩ h _
  case qappend => exact issueOf_nextWf ⟨fun _ _ _ _ ht => (qappend_kept ..).wf ht⟩ h _
  case qpop => exact issueOf_nextWf ⟨fun _ k _ _ ht => (qpop_kept _ _ _ _ k ..).wf ht⟩ h _
  case qdetOwn => exact issueOf_nextWf ⟨fun _ k env _ ht => (qdetOwn_kept _ k env _).wf ht⟩ h _
  case meldOn => exact issueParked_nextWf ⟨fun _ _ _ _ ht => Yields.map ⟨fun _ _ => ht⟩⟩ h _
  case region => exact issueParked_nextWf ⟨fun _ _ _ _ ht => (region_kept ..).wf ht⟩ h _
  case bar => exact issueParked_nextWf ⟨fun _ _ _ _ ht => (bar_kept ..).wf ht⟩ h _
  case cbar => exact issueParked_nextWf ⟨fun _ _ _ _ ht => (cbar_kept ..).wf ht⟩ h _
  case await => exact issueParked_nextWf ⟨fun _ k _ _ ht => (await_kept _ _ k ..).wf ht⟩ h _
  case bwait => exact issueParked_nextWf ⟨fun _ k _ _ ht => (bwait_kept _ _ _ k ..).wf ht⟩ h _
  case txend => exact issueParked_nextWf ⟨fun _ _ _ _ ht => txend_yieldsWf ht ..⟩ h _
  case sst => exact issueMem_nextWf h fun _ _ _ => sst_yieldsWf h ..
  case satom => exact issueMem_nextWf h fun _ _ _ => satom_yieldsWf h ..
  case vst => exact issueMem_nextWf h fun _ _ _ => vst_yieldsWf h ..
  case vatom => exact issueMem_nextWf h fun _ _ _ => vatom_yieldsWf h ..
  case vspl => exact issueMem_nextWf h fun _ _ _ => vspl_yieldsWf h ..
  case spawno => exact issueMem_nextWf h fun _ _ _ => spawno_yieldsWf h ..
  case launch => exact issueMem_nextWf h fun _ _ _ => launchGrids_yieldsWf h ..
  case txendo => exact issueParked_nextWf ⟨fun _ _ _ _ ht => txendo_yieldsWf ht ..⟩ h _
  all_goals exact absurd henc Bool.false_ne_true

theorem exec_event_nextWf {i : Instr} (henc : i.isEncoded = false) : NextWf (exec i s) := by
  cases i
  case variableLatencyResult => exact execVariableLatencyResult_nextWf h ..
  case instructionReplay => exact execInstructionReplay_nextWf h ..
  case accessFlagService => exact execAccessFlagService_nextWf h ..
  case pageWalk => exact execPageWalk_nextWf h ..
  case warpPromotion => exact execWarpPromotion_nextWf h ..
  case sleepExpiry => exact execSleepExpiry_nextWf h ..
  case spawnStallRetry => exact execSpawnStallRetry_nextWf h ..
  case spawnTimerExpiry => exact execSpawnTimerExpiry_nextWf h ..
  case spawnedWarpStart => exact execSpawnedWarpStart_nextWf h ..
  case barRelease => exact execBarRelease_nextWf h ..
  case cbarRelease => exact execCbarRelease_nextWf h ..
  case afenceStallRetry => exact execAfenceStallRetry_nextWf h ..
  case tcopyStallRetry => exact execTcopyStallRetry_nextWf h ..
  case matrixQueueStallRetry => exact execMatrixQueueStallRetry_nextWf h ..
  case asyncOperationComplete => exact execAsyncOperationComplete_nextWf h ..
  case awaitReturn => exact execAwaitReturn_nextWf h ..
  case bwaitReturn => exact execBwaitReturn_nextWf h ..
  case tcopyYResume => exact execTcopyYResume_nextWf h ..
  case actldComplete => exact execActldComplete_nextWf h ..
  case qappendGrant => exact execQappendGrant_nextWf h ..
  case qpopWake => exact execQpopWake_nextWf h ..
  case qdetOwnFree => exact execQdetOwnFree_nextWf h ..
  case launchStallRetry => exact execLaunchStallRetry_nextWf h ..
  case collStallRetry => exact execCollStallRetry_nextWf h ..
  case collComplete => exact execCollComplete_nextWf h ..
  case warpRetire => exact execWarpRetire_nextWf h ..
  case coreSplitChange => exact execCoreSplitChange_nextWf h ..
  case teamDispatch => exact execTeamDispatch_nextWf h ..
  case preemptionOverrun => exact execPreemptionOverrun_nextWf h ..
  case teamSave => exact execTeamSave_nextWf h ..
  case txTimeout => exact execTxTimeout_nextWf h ..
  case backoffExpiry => exact execBackoffExpiry_nextWf h ..
  case irrevocabilityTokenGrant => exact execIrrevocabilityTokenGrant_nextWf h
  case txendoTurn => exact execTxendoTurn_nextWf h ..
  case commitPhase1 => exact execCommitPhase1_nextWf h ..
  case commitPhase2 => exact execCommitPhase2_nextWf h ..
  case gets => exact execGets_nextWf h ..
  case getm => exact execGetm_nextWf h ..
  case upg => exact execUpg_nextWf h ..
  case maskExtension => exact execMaskExtension_nextWf h ..
  case putm => exact execPutm_nextWf h ..
  case putmm => exact execPutmm_nextWf h ..
  case homeWrite => exact execHomeWrite_nextWf h ..
  case mscFill => exact execMscFill_nextWf h ..
  case data => exact execData_nextWf h ..
  case datam => exact execDatam_nextWf h ..
  case upgack => exact execUpgack_nextWf h ..
  case putack => exact execPutack_nextWf h ..
  case inv => exact execInv_nextWf h ..
  case recallS => exact execRecallS_nextWf h ..
  case recallI => exact execRecallI_nextWf h ..
  case recallP => exact execRecallP_nextWf h ..
  case mergeRecall => exact execMergeRecall_nextWf h ..
  case protocolAck => exact execProtocolAck_nextWf h ..
  case push => exact execPush_nextWf h ..
  case pushAck => exact execPushAck_nextWf h ..
  case flitCrcError => exact execFlitCrcError_nextWf h ..
  case ucieReplay => exact execUcieReplay_nextWf h ..
  case crossbarParityError => exact execCrossbarParityError_nextWf h ..
  case uncorrectableError => exact execUncorrectableError_nextWf h ..
  case kernel => exact execKernel_nextWf h ..
  case wait => exact execWait_nextWf h ..
  case signal => exact execSignal_nextWf h ..
  case windowCreate => exact execWindowCreate_nextWf h ..
  case windowDestroy => exact execWindowDestroy_nextWf h ..
  case invalidate => exact execInvalidate_nextWf h ..
  case copy => exact execCopy_nextWf h ..
  case streamHalt => exact execStreamHalt_nextWf h ..
  case addressMonitorWrite => exact execAddressMonitorWrite_nextWf h ..
  case monitorPoll => exact execMonitorPoll_nextWf h
  case streamAging => exact execStreamAging_nextWf h ..
  case childGridStart => exact execChildGridStart_nextWf h ..
  case gridComplete => exact execGridComplete_nextWf h ..
  case quantumEnd => exact execQuantumEnd_nextWf h ..
  case meeting => exact execMeeting_nextWf h ..
  case waveStart => exact execWaveStart_nextWf h ..
  case powerMeasurement => exact execPowerMeasurement_nextWf h ..
  case powerUp => exact execPowerUp_nextWf h
  case warmReset => exact execWarmReset_nextWf h
  case coldReset => exact execColdReset_nextWf
  case ctxwrite => exact execCtxwrite_nextWf h ..
  case qwrite => exact execQwrite_nextWf h ..
  case codereg => exact execCodereg_nextWf h ..
  case codemod => exact execCodemod_nextWf h ..
  case codedrop => exact execCodedrop_nextWf h ..
  case suspend => exact execSuspend_nextWf h ..
  case resume => exact execResume_nextWf h ..
  case faultanswerRetry => exact execFaultanswerRetry_nextWf h ..
  case faultanswerAbort => exact execFaultanswerAbort_nextWf h ..
  case evread => exact execEvread_nextWf h ..
  case evrelease => exact execEvrelease_nextWf h ..
  case logread => exact execLogread_nextWf h ..
  case reflash => exact execReflash_nextWf h ..
  case attest => exact execAttest_nextWf h ..
  case domain => exact execDomain_nextWf h ..
  case managementConnect => exact execManagementConnect_nextWf h ..
  case rdmaWrite => exact execRdmaWrite_nextWf h ..
  case rdmaRead => exact execRdmaRead_nextWf h ..
  case rdmaFetchAndAdd => exact execRdmaFetchAndAdd_nextWf h ..
  case rdmaCompareAndSwap => exact execRdmaCompareAndSwap_nextWf h ..
  case queuePairBroken => exact execQueuePairBroken_nextWf h ..
  case linkUp => exact execLinkUp_nextWf h ..
  case linkDown => exact execLinkDown_nextWf h ..
  case kltRequest => exact execKltRequest_nextWf h ..
  case kltResponse => exact execKltResponse_nextWf h ..
  case kltAck => exact execKltAck_nextWf h ..
  case kltNak => exact execKltNak_nextWf h ..
  case kltCollective => exact execKltCollective_nextWf h ..
  case kltProbe => exact execKltProbe_nextWf h ..
  case kltResendTimeout => exact execKltResendTimeout_nextWf h ..
  case peerLost => exact execPeerLost_nextWf h ..
  case copyComplete => exact execCopyComplete_nextWf h ..
  case firmwareHalt die => exact execFirmwareHalt_nextWf h die
  case managementUnknownCode => exact execManagementUnknownCode_nextWf h ..
  case rdmaInvalidRequest qp kind => exact execRdmaInvalidRequest_nextWf h qp kind
  case reservedEncoding => exact issue_nextWf h _
  all_goals exact absurd henc.symm Bool.false_ne_true

theorem exec_nextWf (i : Instr) : NextWf (exec i s) := by
  cases henc : i.isEncoded with
  | true => exact exec_encoded_nextWf h henc
  | false => exact exec_event_nextWf h henc

end

end Sys2Proof.Machine
end

section
/-! SUPPORT. What may happen next keeps memory in its canonical form, and so does every step. -/

namespace Sys2Proof.Machine

/-- What comes of a warp's turn has memory in its canonical form. -/
inductive Turn.Wf : Turn → Prop where
  | ended {s : State} (h : s.Wf) : Wf (.over s)
  | runs {s : State} {i : Instr} (h : s.Wf) : Wf (.run s i)
  | reserves {s : State} (h : s.Wf) : Wf (.reserved s)

/-- A move, made where memory is in its canonical form, keeps it so. -/
structure MoveWf (m : Move) : Prop where
  kept : ∀ s, s.Wf → NextWf (m s)

theorem MoveWf.exec (i : Instr) : MoveWf (exec i) := ⟨fun _ h => exec_nextWf h i⟩
theorem MoveWf.next {f : State → State} (hf : ∀ s, s.Wf → (f s).Wf) : MoveWf fun s => .next (f s) := ⟨fun s h => nextWf_next (hf s h)⟩

/-- Moves of which each keeps memory in its canonical form. -/
structure MovesWf (ms : List Move) : Prop where
  each : ∀ m ∈ ms, MoveWf m

theorem movesWf_nil : MovesWf [] := ⟨fun _ hm => absurd hm List.not_mem_nil⟩

theorem movesWf_one {m : Move} (h : MoveWf m) : MovesWf [m] := ⟨fun _ hx => by rwa [List.mem_singleton.mp hx]⟩

theorem MovesWf.append {l r : List Move} (hl : MovesWf l) (hr : MovesWf r) : MovesWf (l ++ r) :=
  ⟨fun m hm => (List.mem_append.mp hm).elim (hl.each m) (hr.each m)⟩

theorem movesWf_map {α : Type} {f : α → Move} (l : List α) (hf : ∀ a, MoveWf (f a)) : MovesWf (l.map f) :=
  ⟨fun m hm => by
    obtain ⟨a, -, rfl⟩ := List.mem_map.mp hm
    exact hf a⟩

theorem movesWf_flatMap {α : Type} {f : α → List Move} (l : List α) (hf : ∀ a, MovesWf (f a)) : MovesWf (l.flatMap f) :=
  ⟨fun m hm => by
    obtain ⟨a, -, ha⟩ := List.mem_flatMap.mp hm
    exact (hf a).each m ha⟩

theorem movesWf_if {c : Prop} [Decidable c] {l : List Move} (h : MovesWf l) : MovesWf (if c then l else []) := by
  split
  · exact h
  · exact movesWf_nil

theorem movesWf_if_one {c : Prop} [Decidable c] {m : Move} (h : MoveWf m) : MovesWf (if c then [m] else []) := movesWf_if (movesWf_one h)

/-! ### What is due -/

theorem messageMove_wf (room : Bool) (m : Msg) : MoveWf (messageMove room m) := by
  unfold messageMove
  split
  case h_1 => exact .exec (.gets ..)
  case h_2 => exact .exec (.getm ..)
  case h_3 => exact .exec (.upg ..)
  case h_4 => exact .exec (.maskExtension ..)
  case h_5 => exact .exec (.putm ..)
  case h_6 => exact .exec (.putmm ..)
  case h_7 => exact .exec (.homeWrite ..)
  case h_8 => exact .exec (.data ..)
  case h_9 => exact .exec (.datam ..)
  case h_10 => exact .exec (.upgack ..)
  case h_11 => exact .exec (.putack ..)
  case h_12 => exact .exec (.inv ..)
  case h_13 => exact .exec (.recallS ..)
  case h_14 => exact .exec (.recallI ..)
  case h_15 => exact .exec (.recallP ..)
  case h_16 => exact .exec (.mergeRecall ..)
  case h_17 => exact .exec (.protocolAck ..)
  case h_18 => exact .exec (.push ..)
  case h_19 => exact .exec (.pushAck ..)

theorem retryMove_wf (k : Nat) (i : Instr) : MovesWf (retryMove k i) := by
  unfold retryMove
  repeat' split
  case isTrue => exact movesWf_one (.exec (.spawnStallRetry k))
  case isFalse.isTrue => exact movesWf_one (.exec (.afenceStallRetry k))
  case isFalse.isFalse.isTrue => exact movesWf_one (.exec (.tcopyStallRetry k))
  case isFalse.isFalse.isFalse.isTrue => exact movesWf_one (.exec (.matrixQueueStallRetry k))
  case isFalse.isFalse.isFalse.isFalse.isTrue => exact movesWf_one (.exec (.launchStallRetry k))
  case isFalse.isFalse.isFalse.isFalse.isFalse.isTrue => exact movesWf_one (.exec (.collStallRetry k))
  case isFalse.isFalse.isFalse.isFalse.isFalse.isFalse => exact movesWf_nil

theorem commitMove_wf (k h phase : Nat) : MoveWf (if phase < 2 then execCommitPhase1 k h else execCommitPhase2 k h) := by
  split
  · exact .exec (.commitPhase1 k h)
  · exact .exec (.commitPhase2 k h)

theorem statusMoves_wf (s : State) (k : Nat) (w : Warp) : MovesWf (statusMoves s k w) := by
  unfold statusMoves
  split
  case h_1 => exact (movesWf_if_one (.exec (.quantumEnd k))).append (movesWf_if_one (.exec (.warpPromotion k)))
  case h_2 => exact retryMove_wf ..
  case h_3 => exact movesWf_one (.exec (.instructionReplay k))
  case h_4 => exact movesWf_if_one (.exec (.sleepExpiry k))
  case h_5 => exact movesWf_if_one (.exec (.backoffExpiry k))
  case h_6 => exact movesWf_one (.exec (.txendoTurn k))
  case h_7 => exact movesWf_one (.exec (.awaitReturn k))
  case h_8 => exact movesWf_one (.exec (.bwaitReturn k))
  case h_9 => exact movesWf_one (.exec (.tcopyYResume k))
  case h_10 => exact movesWf_if_one (.exec (.qpopWake k))
  case h_11 => exact movesWf_if_one (.exec (.qdetOwnFree k))
  case h_12 =>
    split
    · exact movesWf_map _ fun h => commitMove_wf k h _
    · exact movesWf_nil
  case h_13 => exact movesWf_if_one (.exec (.warpRetire k))
  case h_14 => exact movesWf_nil

theorem warpMoves_wf (s : State) (k : Nat) (w : Warp) : MovesWf (warpMoves s k w) := by
  unfold warpMoves
  exact ((statusMoves_wf s k w).append (movesWf_map _ fun n => .exec (.variableLatencyResult k n _))).append
    (movesWf_map _ fun l => .exec (.txTimeout k l))

theorem coreMoves_wf (s : State) (c : Nat) (x : Core) : MovesWf (coreMoves s c x) := by
  unfold coreMoves
  exact (((movesWf_map _ fun n => .exec (.spawnTimerExpiry c n)).append (movesWf_if_one (.exec (.spawnedWarpStart c)))).append
    (movesWf_map _ fun q => .exec (.qappendGrant c q))).append (movesWf_if_one (.exec (.coreSplitChange c)))

theorem teamMoves_wf (s : State) (t : Nat) (tm : Team) : MovesWf (teamMoves s t tm) := by
  unfold teamMoves
  exact (((movesWf_if_one (.exec (.barRelease t))).append (movesWf_if_one (.exec (.cbarRelease ..)))).append
    (movesWf_if_one (.exec (.preemptionOverrun t)))).append (movesWf_if_one (.exec (.teamSave t)))

theorem startMoves_wf (q : Nat) : MovesWf [execKernel q, execWait q, execSignal q, execWindowCreate q, execWindowDestroy q, execInvalidate q, execCopy q] :=
  movesWf_map [Instr.kernel q, Instr.wait q, Instr.signal q, Instr.windowCreate q, Instr.windowDestroy q, Instr.invalidate q, Instr.copy q] MoveWf.exec

theorem copyMoves_wf (q : Nat) : MovesWf [execCopyComplete q, fun s => .next (s.moveCopy q fun _ => 1)] :=
  (movesWf_one (.exec (.copyComplete q))).append (movesWf_one (.next fun _ h => moveCopy_wf h ..))

theorem streamMoves_wf (s : State) (q : Nat) (x : Queue) : MovesWf (streamMoves s q x) := by
  unfold streamMoves
  iterate 9 refine .append ?_ ?_
  · exact movesWf_if_one (.exec (.streamHalt q))
  · exact movesWf_if_one (.exec (.streamAging q))
  · exact movesWf_if (copyMoves_wf q)
  · exact movesWf_if_one (.next (f := fun s => s.loadHead q) fun _ h => loadHead_wf h q)
  · exact movesWf_if_one (.next (f := fun s => s.pollWait q) fun _ h => pollWait_wf h q)
  · exact movesWf_if_one (.next (f := fun s => s.finishInvalidate q) fun _ h => finishInvalidate_wf h q)
  · exact movesWf_if_one (.exec (.addressMonitorWrite (.tail q (s.tailWord q))))
  · exact movesWf_if (startMoves_wf q)
  · exact movesWf_if_one (.exec (.teamDispatch q))
  · split
    · exact movesWf_if_one (.exec (.childGridStart q))
    · exact movesWf_if_one (.exec (.teamDispatch q))
    · exact movesWf_if_one (.exec (.waveStart _))
    · exact movesWf_nil

theorem launchMoves_wf (s : State) (id : Nat) (x : Launch) : MovesWf (launchMoves s id x) := by
  unfold launchMoves
  exact (movesWf_if_one (.exec (.gridComplete id))).append (movesWf_if_one (.exec (.meeting id)))

theorem completeMove_wf (c : Prop) [Decidable c] (n : Nat) : MoveWf (if c then execActldComplete n else execAsyncOperationComplete n) := by
  split
  · exact .exec (.actldComplete n)
  · exact .exec (.asyncOperationComplete n)

theorem opMoves_wf (s : State) (n : Nat) (o : EngineOp) : MovesWf (opMoves s n o) := by
  unfold opMoves
  exact movesWf_if ((movesWf_one (completeMove_wf _ n)).append (movesWf_one (.next fun _ h => stepOp_wf h ..)))

theorem missMoves_wf (s : State) (m : Missing) : MovesWf (missMoves s m) := by
  unfold missMoves
  exact (movesWf_if_one (.exec (.pageWalk ..))).append (movesWf_if_one (.exec (.accessFlagService ..)))

theorem peerMoves_wf (s : State) (p : Nat) (x : Peer) : MovesWf (peerMoves s p x) := by
  unfold peerMoves
  exact (movesWf_map _ fun i => .exec (.kltResendTimeout p i)).append (movesWf_if_one (.exec (.peerLost p false)))

theorem watchMoves_wf (s : State) : MovesWf (watchMoves s) := by
  unfold watchMoves
  exact (movesWf_map _ fun w : Nat × Nat => .exec (.addressMonitorWrite (.event w.1 w.2))).append (movesWf_if_one (.exec .monitorPoll))

theorem storeMoves_wf (s : State) : MovesWf (storeMoves s) := by
  unfold storeMoves
  exact movesWf_flatMap _ fun e => movesWf_map _ fun x => .next fun _ h => retryStores_wf h ..

theorem issueMoves_wf (s : State) : MovesWf (issueMoves s) := by
  unfold issueMoves
  exact movesWf_map _ fun k => .next fun _ h => h

theorem networkMove_wf (s : State) (m : Msg) :
    MoveWf (if m.kind.isRequest then fun s => .next (s.arriveRequest m) else messageMove (s.wayFor m.core m.line) m) := by
  split
  · exact .next fun _ h => by simp [h]
  · exact messageMove_wf ..

/-- Everything that may happen next. A host request's move leaves the state found when it was listed, hence the hypothesis on that state. -/
theorem moves_wf {s : State} (h : s.Wf) : MovesWf (moves s) := by
  unfold moves
  iterate 21 refine .append ?_ ?_
  · exact issueMoves_wf s
  · exact movesWf_flatMap _ fun e => warpMoves_wf ..
  · exact movesWf_flatMap _ fun e => coreMoves_wf ..
  · exact movesWf_flatMap _ fun e => teamMoves_wf ..
  · exact movesWf_flatMap _ fun e => opMoves_wf ..
  · exact movesWf_map _ fun e => .next fun _ h => stepColl_wf h ..
  · exact movesWf_map _ fun e => .exec (.collComplete e.1)
  · exact movesWf_flatMap _ (missMoves_wf s)
  · exact movesWf_if_one (.exec .irrevocabilityTokenGrant)
  · exact movesWf_map _ (networkMove_wf s)
  · exact movesWf_map _ (messageMove_wf true)
  · exact storeMoves_wf s
  · exact movesWf_map _ fun f => .exec (.mscFill ..)
  · exact movesWf_flatMap _ fun e => streamMoves_wf ..
  · exact movesWf_flatMap _ fun e => launchMoves_wf ..
  · exact movesWf_flatMap _ fun e => peerMoves_wf ..
  · exact watchMoves_wf s
  · exact movesWf_map _ fun g => .next fun _ h => runSignal_wf h ..
  · exact movesWf_if_one (.next fun _ h => bootUp_wf h)
  · exact movesWf_if_one (.next fun _ h => finishCommand_wf h)
  · exact movesWf_map _ fun c => .next fun _ h => h
  · refine ⟨fun m hm => ?_⟩
    obtain ⟨t, ht, rfl⟩ := List.mem_map.mp hm
    exact ⟨fun _ _ => nextWf_next (hostSteps_wf h ht)⟩

/-! ### A step -/

section
variable {s : State} (h : s.Wf)
include h

theorem begin_wf (k : Nat) (w : Warp) (ws : List Nat) : (s.begin k w ws).Wf := by
  unfold State.begin
  dsimp only
  split
  · exact .runs (by simp [h])
  · exact .reserves (by simp [h])

theorem turnOf_wf (k : Nat) (w : Warp) (x : Launch) : (s.turnOf k w x).Wf := by
  unfold State.turnOf
  split
  · exact .ended (by simp [h])
  · split
    · exact .ended (by simp [h])
    · dsimp only
      split
      · exact .ended (by simp [h])
      · split
        · exact .ended (by simp [h])
        · split
          · exact .ended (raise_wf h ..)
          · split
            · exact .ended (by simp [h])
            · exact begin_wf h ..

theorem background_nextWf : NextWf s.background := by
  have ha : s.advance.Wf := by simp [h]
  unfold State.background
  dsimp only
  split
  · next hm => exact ((moves_wf ha).each _ (List.mem_of_getElem? hm)).kept _ ha
  · exact nextWf_next ha

end

theorem endTurn_nextWf {o : Host.Outcome State Fault Refusal} (h : NextWf o) : NextWf (endTurn o) := by
  cases o with
  | next s => exact nextWf_next (h.of_next s rfl)
  | fault => exact nextWf_fault
  | refused => exact nextWf_refused

theorem takeTurn_nextWf {t : Turn} (h : t.Wf) : NextWf (takeTurn t) := by
  cases h with
  | ended h => exact nextWf_next h
  | runs h => exact endTurn_nextWf (exec_nextWf h _)
  | reserves h => exact endTurn_nextWf (issue_nextWf h _)

theorem oneStep_nextWf {s : State} (h : s.Wf) : NextWf s.oneStep := by
  unfold State.oneStep
  dsimp only
  split
  · exact takeTurn_nextWf (turnOf_wf (s := { s with tick := s.tick + 1 }) h ..)
  · split
    · exact exec_nextWf (s := { s with tick := s.tick + 1, turn := none, agenda := _ }) h _
    · exact background_nextWf (s := { s with tick := s.tick + 1, turn := none }) h

/-- Settles O6: a step is the turn of a warp, an input from outside or an event that is due, and each writes memory through `State.writeBytes` alone,
which keeps its canonical form. -/
theorem stepKeepsInvariant : Obligations.StepKeepsInvariant := by
  intro s t h ht
  exact ((oneStep_nextWf h.toWf).of_next t ht).toInv

end Sys2Proof.Machine
end
